-- ==== Sys2Proof/Word.lean ====
section
/-! DEFINITION. The machine's words and the plainest arithmetic on them (R4, R6, R11). -/

namespace Sys2Proof

/-- A word: 64 bits, the width of a register (R4). -/
abbrev Word := BitVec 64

/-- A byte (R4). -/
abbrev Byte := BitVec 8

/-- A register number (R278). -/
abbrev Reg := BitVec 5

/-- `v[h:l]` of R6, as a natural number. -/
def bits (v : Nat) (h l : Nat) : Nat := v / 2 ^ l % 2 ^ (h + 1 - l)

/-- Bit `n` of a natural number. -/
def bit (v : Nat) (n : Nat) : Bool := v / 2 ^ n % 2 == 1

/-- The two's-complement value of the low `w` bits (R6, R11). -/
def signedOf (v : Nat) (w : Nat) : Int :=
  let u := v % 2 ^ w
  if 2 * u < 2 ^ w then (u : Int) else (u : Int) - 2 ^ w

/-- The low `w` bits of an integer: `v[w-1:0]` (R10). -/
def narrow (v : Int) (w : Nat) : Nat := (v % (2 ^ w : Nat)).toNat

/-- A word from an integer: `v[63:0]` of R290. -/
def wordOf (v : Int) : Word := BitVec.ofInt 64 v

/-- The smallest multiple count: ceiling division. -/
def ceilDiv (a b : Nat) : Nat := (a + b - 1) / b

end Sys2Proof
end

