-- ==== Sys2Proof/Syntax.lean ====
section
/-! DEFINITION. The one inductive of everything that can happen in one step: the 267 encodings a thread can issue
(spec/17_encodings_and_opcode_map.md) and the 71 steps of the device's other agents
(spec/95_what_each_step_holds.md). Register fields are numbers (R278); immediates are the raw fields of R276. -/
namespace Sys2Proof

/-- One constructor per row of spec/opcode_table.json. A row with an encoding carries its fields; a row without one
carries the names of the units and objects the event is about. -/
inductive Instr where
  /-- R426: The die-0 boot ROM receives a firmware image, checks its signature, records its digest in a measurement register and runs it. -/
  | bootImage (image : List (BitVec 8))
  /-- R424: A host write to the kick register enters the kick queue, or is dropped with a bad-kick record when the queue is full. -/
  | kick (v : Word)
  /-- R448: A host write gives the number of completion-ring records taken; a write that would lower the value or exceed the posted count is ignored. -/
  | consumedRegister (v : Word)
  /-- R207: The 50 µs change of a partition's clock mode completes, and the waiting launch of the other mode can start. -/
  | modeChangeComplete (part : Nat)
  /-- R207: An enqueued launch starts: it clears the context's rule-cache entries, resets the pools and makes its tasks available to the start units. -/
  | launchStart (lid : Nat)
  /-- R163: One sweep of the cruise reads every core's idle state and its sent and received counts. -/
  | cruiseSweep (lid : Nat)
  /-- R160: The pre-emption deadline of a context expires with a thread not yet ended, and the firmware kills the context. -/
  | preEmptionDeadline (ctx : Nat)
  /-- R222: A thread takes a pending trap at its turn: TEPC, TCA, TVAL and TS are set and PC moves to the vector. -/
  | trapEntry (tid : Nat)
  /-- R224: A fault message arrives in the ranger's fault queue of 256 entries, or waits in the network while the queue is full. -/
  | faultMessage (cmpt : Nat)
  /-- R378: A system-class start at the receiving core waits in its buffer and starts in slot 0 at privilege S once the slot is free. -/
  | systemClassStart (core : Nat)
  /-- R145: The start unit takes one start in the cycle that matches the claimed slot, loads its registers and issues its first instruction 6 cycles later. -/
  | threadStart (core : Nat)
  /-- R146: A migration or active-message packet is written into a core's dispatch intake, whose fullness withholds credit. -/
  | dispatchIntakeArrival (pkt : Nat)
  /-- R186: A landing message or record is written into a landing priority and becomes eligible in the next cycle. -/
  | landingMessageArrival (pkt : Nat)
  /-- R71: Once all outstanding stores, atomics and sends are acknowledged, the migration packet departs and the origin slot is freed. -/
  | migrationDepart (tid : Nat)
  /-- R376: A message, pair record, reduction packet or broadcast copy leaves the core's send queue once its release holds. -/
  | sendQueueDepart (core : Nat)
  /-- R175: A pair record reaches the anchor core's active-pair queue, or its overflow ring when the queue is full. -/
  | pairRecordArrival (pkt : Nat)
  /-- R175: The active-pair queue refills in order from the core's overflow ring in HBM. -/
  | overflowRingRefill (core : Nat)
  /-- R176: The start unit reads both nodes and the rule, orders the sides and forwards or starts the pair dispatch. -/
  | pairPrepare (core : Nat)
  /-- R149: An idle core sends one steal request to a victim, at most every 16 cycles, and a stolen record arrives as a deck start. -/
  | stealRequest (core : Nat)
  /-- R153: A stage core whose input has stayed empty for its dry time is recast to the stage with the fullest input. -/
  | autoRecast (core : Nat)
  /-- R391: One element per cycle moves from an output channel to ch0 of the least-filled core of the target stage. -/
  | channelElementMove (core : Nat) (k : Nat)
  /-- R65: A local-store bank serves one waiting request per cycle in age and rotation order, and performs the access or atomic. -/
  | bankRequest (core : Nat) (bank : Nat)
  /-- R56: An access arrives at an HBM or remote home, which performs it, holds it, redirects it or refuses it as stale according to the frame state. -/
  | homeAccess (req : Nat)
  /-- R446: A register, mill or instruction-store window serves one request per cycle under its own wait rules. -/
  | windowAccessService (req : Nat)
  /-- R77: A value or acknowledgement reaches a parked thread, which issues in its first slot after the write. -/
  | accessReply (acc : Nat)
  /-- R76: The acknowledgement of a posted store arrives, freeing one of the thread's 8 posted slots. -/
  | postedStoreAck (acc : Nat)
  /-- R308: A stale refusal of a posted store arrives and is taken as a stale-generation trap at the thread's next turn. -/
  | postedStoreRefusal (acc : Nat)
  /-- R80: A TDN flit arrives at its destination port in its class buffer. -/
  | flitArrival (pkt : Nat) (bad : Nat)
  /-- R48: A walker finishes a walk, installs the leaf or raises the translation fault, and the parked thread resumes. -/
  | pageWalkEnd (walk : Nat)
  /-- R57: The firmware sets the new frame's generation and marks the old frame MIGRATING at its home yarder. -/
  | frameMigrating (old new : Nat) (gen : Nat)
  /-- R57: The home yarder's copy of the old frame to the new frame completes. -/
  | frameCopyComplete (old : Nat)
  /-- R57: The old frame becomes FORWARDED, and the retry queue is re-presented and redirected in order. -/
  | forwardingCommit (old : Nat)
  /-- R57: A yarder or peer port reports that no access with the old generation is outstanding, and after the last report the forwarding record is released. -/
  | drainReport (old : Nat) (unit : Nat)
  /-- R97: The footprint scheduler accepts one entry per cycle from its arrival queue and records its edges. -/
  | footprintAccept (cmpt : Nat)
  /-- R99: An entry whose edges have all completed is dispatched to its yarder, marking engine or mill. -/
  | footprintDispatch (cmpt : Nat) (entry : Nat)
  /-- R85: A job reaches its lead yarder, which starts its reads and posted writes in element order. -/
  | jobArrival (job : Nat) (n : Nat)
  /-- R104: A job reports its acknowledged prefix to its channel, which advances the watermark and releases parked accesses. -/
  | watermarkReport (job : Nat)
  /-- R101: When all of a job's writes are acknowledged, the final watermark, the barrier decrement, the scheduler completion and the record take place in order. -/
  | jobCompletion (job : Nat)
  /-- R109: A yarder reports that it has no write of a killed generation outstanding. -/
  | yarderKillReport (ctx : Nat) (unit : Nat)
  /-- R345: The mill accepts a dispatched instruction into its 64-entry queue in (k − c) mod 8 order. -/
  | millAccept (tile : Nat)
  /-- R447: A mill row is read whole and its products enter the accumulators, advancing the row progress. -/
  | millRowRead (tile : Nat)
  /-- R345: A mill instruction retires, merging its flags into FPC and its spz and nxa bits into the anchor words. -/
  | millRetire (tile : Nat)
  /-- R364: A mill pipe meets a fault, and the instruction is held at its row progress and reported to its thread. -/
  | millPipeFault (tile : Nat)
  /-- R344: The special-function unit writes a result 40 + 8q cycles after issue and sets its flags. -/
  | sfuResult (tile : Nat)
  /-- R290: A pending multi-cycle result lands in its register, overwriting any window write made meanwhile. -/
  | pendingResultWrite (tid : Nat)
  /-- R249: In an idle turn the spill engine writes one word of the other window buffer, and after word 23 it moves WSP and clears olive. -/
  | spillWord (tid : Nat)
  /-- R321: A bound read stream reads its next element ahead of pos in a spare memory cycle. -/
  | streamReadAhead (tid : Nat) (j : Nat)
  /-- R192: A router or the owner's combining unit takes a reduction packet and combines it, discards it or forwards it. -/
  | reductionCombine (pkt : Nat) (other : Nat)
  /-- R204: The grader accepts one pair per cycle from the tile's input queue into its selection set. -/
  | graderAccept (tile : Nat)
  /-- R202: The marking engine runs one job: it ranks, commits, sets map bits and posts the record. -/
  | markJobRun (cmpt : Nat)
  /-- R206: A droop detector trips: in elastic mode it stretches the next cycle, and in fixed-timing mode it is only counted. -/
  | droopTrip (cmpt : Nat) (stretch : Nat)
  /-- R431: A write of a scaler's configuration word selects its event and enable, and clr zeroes its captures. -/
  | scalerConfig (cmpt : Nat) (scaler : Nat) (v : Word)
  /-- R287: A thread issues a reserved or illegal encoding (reserved MAJ or OP5, unlisted function code, non-zero must-be-0 field, a 32-bit instruction at offset 0xFFFE) and is contained with illegal-encoding. -/
  | illegalEncoding (bits : BitVec 32)
  /-- R78: In each owned frame cycle of a compartment pair, the sender sends the oldest flit of any class with credit at the receiver. -/
  | pairSlotSend (src dst : Nat)
  /-- R80: A flit that has arrived at a compartment port crosses the clock boundary and is written at its receiver some network cycles later. -/
  | elasticFifoDelivery (pkt : Nat) (delay : Nat)
  /-- R421: The global timestamp reaches the deadline of a parked halt, which then writes 0 and resumes the thread. -/
  | haltDeadline (tid : Nat)
  /-- R423: The host's write of a command packet into an intake slot of the control region lands. -/
  | intakeSlotWrite (slot : Nat) (words : List Word)
  /-- R292: Integer add modulo 2^64. -/
  | add (d : BitVec 5) (a : BitVec 5) (b : BitVec 5)
  /-- R292: Integer subtract modulo 2^64, also written as neg. -/
  | sub (d : BitVec 5) (a : BitVec 5) (b : BitVec 5)
  /-- R292: Bitwise and. -/
  | and (d : BitVec 5) (a : BitVec 5) (b : BitVec 5)
  /-- R292: Bitwise or. -/
  | or (d : BitVec 5) (a : BitVec 5) (b : BitVec 5)
  /-- R292: Bitwise exclusive or. -/
  | xor (d : BitVec 5) (a : BitVec 5) (b : BitVec 5)
  /-- R292: Bitwise and with the complement of b. -/
  | andn (d : BitVec 5) (a : BitVec 5) (b : BitVec 5)
  /-- R292: Bitwise or with the complement of b. -/
  | orn (d : BitVec 5) (a : BitVec 5) (b : BitVec 5)
  /-- R293: Add a sign-extended 12-bit immediate. -/
  | addi (d : BitVec 5) (a : BitVec 5) (i : BitVec 12)
  /-- R293: And with an immediate. -/
  | andi (d : BitVec 5) (a : BitVec 5) (i : BitVec 12)
  /-- R293: Or with an immediate. -/
  | ori (d : BitVec 5) (a : BitVec 5) (i : BitVec 12)
  /-- R293: Exclusive or with an immediate. -/
  | xori (d : BitVec 5) (a : BitVec 5) (i : BitVec 12)
  /-- R293: Set 1 when a is less than the immediate, signed. -/
  | slti (d : BitVec 5) (a : BitVec 5) (i : BitVec 12)
  /-- R293: Set 1 when a is less than the immediate, unsigned. -/
  | sltiN (d : BitVec 5) (a : BitVec 5) (i : BitVec 12)
  /-- R294: Shift left by b[5:0]. -/
  | shl (d : BitVec 5) (a : BitVec 5) (b : BitVec 5)
  /-- R294: Logical shift right. -/
  | shr (d : BitVec 5) (a : BitVec 5) (b : BitVec 5)
  /-- R294: Arithmetic shift right. -/
  | sar (d : BitVec 5) (a : BitVec 5) (b : BitVec 5)
  /-- R294: Rotate left. -/
  | rotl (d : BitVec 5) (a : BitVec 5) (b : BitVec 5)
  /-- R294: Rotate right. -/
  | rotr (d : BitVec 5) (a : BitVec 5) (b : BitVec 5)
  /-- R295: Count leading zeros. -/
  | clz (d : BitVec 5) (a : BitVec 5)
  /-- R295: Count trailing zeros. -/
  | ctz (d : BitVec 5) (a : BitVec 5)
  /-- R295: Count the 1 bits. -/
  | popc (d : BitVec 5) (a : BitVec 5)
  /-- R295: Reverse the bits. -/
  | brev (d : BitVec 5) (a : BitVec 5)
  /-- R295: Reverse the bytes. -/
  | bswap (d : BitVec 5) (a : BitVec 5)
  /-- R296: Extract an unsigned bit field. -/
  | bfx (d : BitVec 5) (a : BitVec 5) (b : BitVec 5)
  /-- R296: Extract a signed bit field. -/
  | bfxs (d : BitVec 5) (a : BitVec 5) (b : BitVec 5)
  /-- R296: Insert a bit field into x[D]. -/
  | bfi (d : BitVec 5) (a : BitVec 5) (b : BitVec 5)
  /-- R294: Shift left by an immediate. -/
  | shli (d : BitVec 5) (a : BitVec 5) (s : BitVec 6)
  /-- R294: Logical shift right by an immediate. -/
  | shri (d : BitVec 5) (a : BitVec 5) (s : BitVec 6)
  /-- R294: Arithmetic shift right by an immediate. -/
  | sari (d : BitVec 5) (a : BitVec 5) (s : BitVec 6)
  /-- R297: Low 64 bits of the product. -/
  | mul (d : BitVec 5) (a : BitVec 5) (b : BitVec 5)
  /-- R297: High 64 bits of the signed product. -/
  | mulh (d : BitVec 5) (a : BitVec 5) (b : BitVec 5)
  /-- R297: High 64 bits of the unsigned product. -/
  | mulhN (d : BitVec 5) (a : BitVec 5) (b : BitVec 5)
  /-- R297: Multiply and add c. -/
  | madd (d : BitVec 5) (a : BitVec 5) (b : BitVec 5) (c : BitVec 5)
  /-- R297: c minus the product. -/
  | msub (d : BitVec 5) (a : BitVec 5) (b : BitVec 5) (c : BitVec 5)
  /-- R298: Signed division truncating toward zero, written after 40 cycles. -/
  | div (d : BitVec 5) (a : BitVec 5) (b : BitVec 5) (w : BitVec 3)
  /-- R298: Unsigned division. -/
  | divN (d : BitVec 5) (a : BitVec 5) (b : BitVec 5) (w : BitVec 3)
  /-- R298: Signed remainder. -/
  | rem (d : BitVec 5) (a : BitVec 5) (b : BitVec 5) (w : BitVec 3)
  /-- R298: Unsigned remainder. -/
  | remN (d : BitVec 5) (a : BitVec 5) (b : BitVec 5) (w : BitVec 3)
  /-- R299: Load a sign-extended 16-bit immediate. -/
  | li (d : BitVec 5) (k : BitVec 16)
  /-- R299: Load a zero-extended 16-bit immediate. -/
  | liN (d : BitVec 5) (k : BitVec 16)
  /-- R299: Replace halfword h of x[D] with the immediate. -/
  | lih (d : BitVec 5) (k : BitVec 16) (h : BitVec 2)
  /-- R300: Form a PC-relative address. -/
  | adr (d : BitVec 5) (o : BitVec 17)
  /-- R301: Signed minimum. -/
  | min (d : BitVec 5) (a : BitVec 5) (b : BitVec 5)
  /-- R301: Unsigned minimum. -/
  | minN (d : BitVec 5) (a : BitVec 5) (b : BitVec 5)
  /-- R301: Signed maximum. -/
  | max (d : BitVec 5) (a : BitVec 5) (b : BitVec 5)
  /-- R301: Unsigned maximum. -/
  | maxN (d : BitVec 5) (a : BitVec 5) (b : BitVec 5)
  /-- R301: Signed set-less-than. -/
  | slt (d : BitVec 5) (a : BitVec 5) (b : BitVec 5)
  /-- R301: Unsigned set-less-than. -/
  | sltN (d : BitVec 5) (a : BitVec 5) (b : BitVec 5)
  /-- R301: Set 1 when a equals b. -/
  | seq (d : BitVec 5) (a : BitVec 5) (b : BitVec 5)
  /-- R301: Select a when c is non-zero, else b. -/
  | sel (d : BitVec 5) (a : BitVec 5) (b : BitVec 5) (c : BitVec 5)
  /-- R302: Branch when a equals b. -/
  | beq (a : BitVec 5) (b : BitVec 5) (o : BitVec 12)
  /-- R302: Branch when a differs from b. -/
  | bne (a : BitVec 5) (b : BitVec 5) (o : BitVec 12)
  /-- R302: Branch when a is less than b, signed. -/
  | blt (a : BitVec 5) (b : BitVec 5) (o : BitVec 12)
  /-- R302: Branch when a is at least b, signed. -/
  | bge (a : BitVec 5) (b : BitVec 5) (o : BitVec 12)
  /-- R302: Branch when a is zero. -/
  | bz (a : BitVec 5) (o : BitVec 12)
  /-- R302: Branch when a is non-zero. -/
  | bnz (a : BitVec 5) (o : BitVec 12)
  /-- R302: Branch when a is less than b, unsigned. -/
  | bltN (a : BitVec 5) (b : BitVec 5) (o : BitVec 12)
  /-- R302: Branch when a is at least b, unsigned. -/
  | bgeN (a : BitVec 5) (b : BitVec 5) (o : BitVec 12)
  /-- R303: PC-relative jump. -/
  | j (o : BitVec 17)
  /-- R303: PC-relative jump that writes the link. -/
  | jal (d : BitVec 5) (o : BitVec 17)
  /-- R304: Indirect jump, with an alignment fault on an odd target. -/
  | jr (a : BitVec 5) (i : BitVec 12)
  /-- R304: Indirect jump that writes the link. -/
  | jalr (d : BitVec 5) (a : BitVec 5) (i : BitVec 12)
  /-- R306: Decrement the count and branch while it is non-zero. -/
  | rep (d : BitVec 5) (i : BitVec 12)
  /-- R312: Plain sign-extending load of width ww, migrating on a remote local store unless R74 holds. -/
  | ld (d : BitVec 5) (a : BitVec 5) (i : BitVec 12) (w : BitVec 2)
  /-- R312: Plain zero-extending load. -/
  | ldN (d : BitVec 5) (a : BitVec 5) (i : BitVec 12) (w : BitVec 2)
  /-- R312: Acquire load with scope, width and extension fields. -/
  | ldAcq (d : BitVec 5) (a : BitVec 5) (s : BitVec 3) (w : BitVec 2) (e : BitVec 1) (o : BitVec 6)
  /-- R313: Plain store of width ww. -/
  | st (a : BitVec 5) (b : BitVec 5) (i : BitVec 12) (w : BitVec 2)
  /-- R313: Release store with scope. -/
  | stRel (a : BitVec 5) (b : BitVec 5) (s : BitVec 3) (o : BitVec 9) (w : BitVec 2)
  /-- R316: Load a register pair. -/
  | ldp (d : BitVec 5) (a : BitVec 5) (i : BitVec 12)
  /-- R316: Store a register pair. -/
  | stp (a : BitVec 5) (b : BitVec 5) (i : BitVec 12)
  /-- R316: Load a range of registers. -/
  | ldm (d : BitVec 5) (a : BitVec 5) (e : BitVec 5) (i : BitVec 7)
  /-- R316: Store a range of registers. -/
  | stm (a : BitVec 5) (b : BitVec 5) (e : BitVec 5) (i : BitVec 7)
  /-- R317: Atomic add at the home, returning the old value. -/
  | amoAdd (d : BitVec 5) (a : BitVec 5) (b : BitVec 5) (w : BitVec 1) (r : BitVec 2) (s : BitVec 3)
  /-- R317: Atomic and. -/
  | amoAnd (d : BitVec 5) (a : BitVec 5) (b : BitVec 5) (w : BitVec 1) (r : BitVec 2) (s : BitVec 3)
  /-- R317: Atomic or. -/
  | amoOr (d : BitVec 5) (a : BitVec 5) (b : BitVec 5) (w : BitVec 1) (r : BitVec 2) (s : BitVec 3)
  /-- R317: Atomic exclusive or. -/
  | amoXor (d : BitVec 5) (a : BitVec 5) (b : BitVec 5) (w : BitVec 1) (r : BitVec 2) (s : BitVec 3)
  /-- R317: Atomic signed minimum. -/
  | amoMin (d : BitVec 5) (a : BitVec 5) (b : BitVec 5) (w : BitVec 1) (r : BitVec 2) (s : BitVec 3)
  /-- R317: Atomic signed maximum. -/
  | amoMax (d : BitVec 5) (a : BitVec 5) (b : BitVec 5) (w : BitVec 1) (r : BitVec 2) (s : BitVec 3)
  /-- R317: Atomic unsigned minimum. -/
  | amoNMin (d : BitVec 5) (a : BitVec 5) (b : BitVec 5) (w : BitVec 1) (r : BitVec 2) (s : BitVec 3)
  /-- R317: Atomic unsigned maximum. -/
  | amoNMax (d : BitVec 5) (a : BitVec 5) (b : BitVec 5) (w : BitVec 1) (r : BitVec 2) (s : BitVec 3)
  /-- R317: Atomic exchange. -/
  | amoXchg (d : BitVec 5) (a : BitVec 5) (b : BitVec 5) (w : BitVec 1) (r : BitVec 2) (s : BitVec 3)
  /-- R318: Compare and swap of 8 bytes in one service at the home. -/
  | cas (d : BitVec 5) (a : BitVec 5) (b : BitVec 5) (c : BitVec 5) (r : BitVec 2)
  /-- R315: Order earlier accesses before later ones by kind, scope and uo flag. -/
  | fence (u : BitVec 1) (s : BitVec 3) (k : BitVec 2)
  /-- R314: Remote load that never migrates. -/
  | lx (d : BitVec 5) (a : BitVec 5) (e : BitVec 1) (o : BitVec 11) (w : BitVec 2)
  /-- R320: Capture a stream descriptor for qj. -/
  | sqCfg (q : BitVec 5) (a : BitVec 5) (i : BitVec 12)
  /-- R320: Bind stream qj at position b. -/
  | sqBind (q : BitVec 5) (b : BitVec 5)
  /-- R320: Unbind stream qj. -/
  | sqOff (q : BitVec 5)
  /-- R320: Park until the stream's pushes are acknowledged, or until its next element is read. -/
  | sqWait (q : BitVec 5)
  /-- R320: Read the stream status word. -/
  | sqStat (d : BitVec 5) (q : BitVec 5)
  /-- R328: Lane-wise add. -/
  | padd (d : BitVec 5) (a : BitVec 5) (b : BitVec 5) (t : BitVec 3)
  /-- R328: Lane-wise subtract. -/
  | psub (d : BitVec 5) (a : BitVec 5) (b : BitVec 5) (t : BitVec 3)
  /-- R328: Lane-wise saturating add. -/
  | padds (d : BitVec 5) (a : BitVec 5) (b : BitVec 5) (t : BitVec 3)
  /-- R328: Lane-wise saturating subtract. -/
  | psubs (d : BitVec 5) (a : BitVec 5) (b : BitVec 5) (t : BitVec 3)
  /-- R328: Lane-wise low product. -/
  | pmul (d : BitVec 5) (a : BitVec 5) (b : BitVec 5) (t : BitVec 3)
  /-- R328: Lane-wise high product. -/
  | pmulh (d : BitVec 5) (a : BitVec 5) (b : BitVec 5) (t : BitVec 3)
  /-- R328: Lane-wise minimum. -/
  | pmin (d : BitVec 5) (a : BitVec 5) (b : BitVec 5) (t : BitVec 3)
  /-- R328: Lane-wise maximum. -/
  | pmax (d : BitVec 5) (a : BitVec 5) (b : BitVec 5) (t : BitVec 3)
  /-- R328: Lane-wise saturating absolute value. -/
  | pabs (d : BitVec 5) (a : BitVec 5) (t : BitVec 3)
  /-- R328: Lane-wise rounded average. -/
  | pavg (d : BitVec 5) (a : BitVec 5) (b : BitVec 5) (t : BitVec 3)
  /-- R328: Lane-wise equality mask. -/
  | pcmpEq (d : BitVec 5) (a : BitVec 5) (b : BitVec 5) (t : BitVec 3)
  /-- R328: Lane-wise less-than mask. -/
  | pcmpLt (d : BitVec 5) (a : BitVec 5) (b : BitVec 5) (t : BitVec 3)
  /-- R328: Lane-wise less-or-equal mask. -/
  | pcmpLe (d : BitVec 5) (a : BitVec 5) (b : BitVec 5) (t : BitVec 3)
  /-- R329: Dot product of lanes accumulated into x[D]. -/
  | pdot (d : BitVec 5) (a : BitVec 5) (b : BitVec 5) (t : BitVec 3)
  /-- R330: Byte shuffle. -/
  | pshf (d : BitVec 5) (a : BitVec 5) (b : BitVec 5)
  /-- R330: Pack with saturation. -/
  | ppk (d : BitVec 5) (a : BitVec 5) (b : BitVec 5) (t : BitVec 3)
  /-- R330: Unpack half of the lanes, widened. -/
  | pup (d : BitVec 5) (a : BitVec 5) (h : BitVec 1) (t : BitVec 3)
  /-- R330: Broadcast one lane. -/
  | pbc (d : BitVec 5) (a : BitVec 5) (b : BitVec 5) (t : BitVec 3)
  /-- R330: Bitwise select by mask c. -/
  | psel (d : BitVec 5) (a : BitVec 5) (b : BitVec 5) (c : BitVec 5)
  /-- R331: Load a float immediate into lanes. -/
  | fli (d : BitVec 5) (k : BitVec 16) (l : BitVec 1) (f : BitVec 3)
  /-- R332: Floating-point add. -/
  | fadd (d : BitVec 5) (a : BitVec 5) (b : BitVec 5) (m : BitVec 3) (t : BitVec 3)
  /-- R332: Floating-point subtract. -/
  | fsub (d : BitVec 5) (a : BitVec 5) (b : BitVec 5) (m : BitVec 3) (t : BitVec 3)
  /-- R332: Floating-point multiply. -/
  | fmul (d : BitVec 5) (a : BitVec 5) (b : BitVec 5) (m : BitVec 3) (t : BitVec 3)
  /-- R332: Floating-point minimum. -/
  | fmin (d : BitVec 5) (a : BitVec 5) (b : BitVec 5) (t : BitVec 3)
  /-- R332: Floating-point maximum. -/
  | fmax (d : BitVec 5) (a : BitVec 5) (b : BitVec 5) (t : BitVec 3)
  /-- R332: Floating-point negate. -/
  | fneg (d : BitVec 5) (a : BitVec 5) (t : BitVec 3)
  /-- R332: Floating-point absolute value. -/
  | fabs (d : BitVec 5) (a : BitVec 5) (t : BitVec 3)
  /-- R332: Floating-point equality compare. -/
  | fcmpEq (d : BitVec 5) (a : BitVec 5) (b : BitVec 5) (t : BitVec 3)
  /-- R332: Floating-point less-than compare. -/
  | fcmpLt (d : BitVec 5) (a : BitVec 5) (b : BitVec 5) (t : BitVec 3)
  /-- R332: Floating-point less-or-equal compare. -/
  | fcmpLe (d : BitVec 5) (a : BitVec 5) (b : BitVec 5) (t : BitVec 3)
  /-- R334: Exact sum of all lanes of two registers, rounded once to f32. -/
  | fsum (d : BitVec 5) (a : BitVec 5) (b : BitVec 5) (f : BitVec 4) (w : BitVec 3)
  /-- R335: Fused multiply-add. -/
  | fma (d : BitVec 5) (a : BitVec 5) (b : BitVec 5) (c : BitVec 5) (t : BitVec 3)
  /-- R335: Fused multiply-subtract. -/
  | fms (d : BitVec 5) (a : BitVec 5) (b : BitVec 5) (c : BitVec 5) (t : BitVec 3)
  /-- R336: Convert between float formats. -/
  | fcvt (d : BitVec 5) (a : BitVec 5) (g : BitVec 3) (m : BitVec 3) (s : BitVec 3)
  /-- R337: Convert between integer and float. -/
  | icvt (d : BitVec 5) (a : BitVec 5) (r : BitVec 1) (f : BitVec 3) (m : BitVec 3) (t : BitVec 3)
  /-- R338: Classify a float. -/
  | fcls (d : BitVec 5) (a : BitVec 5) (f : BitVec 3)
  /-- R339: Form a 32-bit order key above a 32-bit index. -/
  | okey (d : BitVec 5) (a : BitVec 5) (b : BitVec 5) (v : BitVec 1) (t : BitVec 4)
  /-- R340: Accumulate the squared L2 distance over 8 lanes. -/
  | dl2 (d : BitVec 5) (a : BitVec 5) (b : BitVec 5) (t : BitVec 1)
  /-- R340: Accumulate the integer inner product. -/
  | dip (d : BitVec 5) (a : BitVec 5) (b : BitVec 5) (t : BitVec 1)
  /-- R340: e4m3 inner product into an f32 sum. -/
  | dipE4m3 (d : BitVec 5) (a : BitVec 5) (b : BitVec 5)
  /-- R340: Accumulate the Hamming distance. -/
  | dham (d : BitVec 5) (a : BitVec 5) (b : BitVec 5)
  /-- R341: Sum 16 product-quantisation table lookups from the local store. -/
  | dcb (d : BitVec 5) (a : BitVec 5) (b : BitVec 5) (t : BitVec 1)
  /-- R342: Special-function reciprocal request. -/
  | sfuRcp (d : BitVec 5) (a : BitVec 5) (w : BitVec 3) (p : BitVec 1) (t : BitVec 2)
  /-- R342: Reciprocal square root request. -/
  | sfuRsqrt (d : BitVec 5) (a : BitVec 5) (w : BitVec 3) (p : BitVec 1) (t : BitVec 2)
  /-- R342: Square root request. -/
  | sfuSqrt (d : BitVec 5) (a : BitVec 5) (w : BitVec 3) (p : BitVec 1) (t : BitVec 2)
  /-- R342: Base-2 exponential request. -/
  | sfuExp2 (d : BitVec 5) (a : BitVec 5) (w : BitVec 3) (p : BitVec 1) (t : BitVec 2)
  /-- R342: Base-2 logarithm request. -/
  | sfuLog2 (d : BitVec 5) (a : BitVec 5) (w : BitVec 3) (p : BitVec 1) (t : BitVec 2)
  /-- R342: Natural exponential request. -/
  | sfuExp (d : BitVec 5) (a : BitVec 5) (w : BitVec 3) (p : BitVec 1) (t : BitVec 2)
  /-- R342: Natural logarithm request. -/
  | sfuLn (d : BitVec 5) (a : BitVec 5) (w : BitVec 3) (p : BitVec 1) (t : BitVec 2)
  /-- R342: sin(πx) request. -/
  | sfuSinpi (d : BitVec 5) (a : BitVec 5) (w : BitVec 3) (p : BitVec 1) (t : BitVec 2)
  /-- R342: cos(πx) request. -/
  | sfuCospi (d : BitVec 5) (a : BitVec 5) (w : BitVec 3) (p : BitVec 1) (t : BitVec 2)
  /-- R342: Hyperbolic tangent request. -/
  | sfuTanh (d : BitVec 5) (a : BitVec 5) (w : BitVec 3) (p : BitVec 1) (t : BitVec 2)
  /-- R342: Logistic sigmoid request. -/
  | sfuSigm (d : BitVec 5) (a : BitVec 5) (w : BitVec 3) (p : BitVec 1) (t : BitVec 2)
  /-- R351: Dense mill multiply-accumulate into a block of accumulators. -/
  | mma (a : BitVec 5) (b : BitVec 5) (c : BitVec 5) (t : BitVec 4) (w : BitVec 3)
  /-- R352: Mill multiply with a 2:4 sparse A operand. -/
  | mmas (a : BitVec 5) (b : BitVec 5) (c : BitVec 5) (t : BitVec 4) (w : BitVec 3)
  /-- R353: Mill multiply of cb4 operands through codebook tables. -/
  | mmcb (a : BitVec 5) (b : BitVec 5) (c : BitVec 5) (p : BitVec 2) (w : BitVec 3)
  /-- R354: Residue mill multiply-accumulate with a bound. -/
  | mmr (a : BitVec 5) (b : BitVec 5) (c : BitVec 5) (t : BitVec 4) (w : BitVec 3)
  /-- R358: Load an accumulator block, raw or special records. -/
  | mld (a : BitVec 5) (b : BitVec 5) (c : BitVec 5) (f : BitVec 1) (w : BitVec 3)
  /-- R358: Store an accumulator block, raw or special records. -/
  | mst (a : BitVec 5) (b : BitVec 5) (c : BitVec 5) (f : BitVec 1) (w : BitVec 3)
  /-- R359: Zero accumulators and their records. -/
  | mzero (c : BitVec 5) (n : BitVec 4) (w : BitVec 3)
  /-- R359: Set the accumulator anchors. -/
  | manc (a : BitVec 5) (c : BitVec 5) (n : BitVec 4) (w : BitVec 3)
  /-- R359: Rescale accumulators to a new anchor. -/
  | mscl (a : BitVec 5) (c : BitVec 5) (n : BitVec 4) (w : BitVec 3)
  /-- R360: Load a 16-entry bf16 codebook table. -/
  | mcbt (a : BitVec 5) (w : BitVec 3) (t : BitVec 5)
  /-- R361: Finalise and store an accumulator block in a format. -/
  | mfin (a : BitVec 5) (b : BitVec 5) (c : BitVec 5) (f : BitVec 4) (w : BitVec 3)
  /-- R363: Read the mill sequence counter. -/
  | mseq (d : BitVec 5) (w : BitVec 3)
  /-- R363: Park until mill instructions up to a number have retired or are held, then acquire. -/
  | mwait (a : BitVec 5) (w : BitVec 3)
  /-- R363: Wait for all of the thread's mill instructions. -/
  | mwaitAll (w : BitVec 3)
  /-- R365: Read the thread's mill record. -/
  | mprogRd (d : BitVec 5) (w : BitVec 3)
  /-- R365: Re-present the held mill instruction from its row progress. -/
  | mprogGo (w : BitVec 3)
  /-- R365: Retire the held instruction and its followers with no further effect. -/
  | mprogCancel (w : BitVec 3)
  /-- R370: Encode an integer as a residue pair. -/
  | rnsf (d : BitVec 5) (a : BitVec 5) (w : BitVec 3)
  /-- R371: Decode a residue pair, writing its value and status. -/
  | rnsr (d : BitVec 5) (a : BitVec 5) (w : BitVec 3)
  /-- R370: Residue add by channel. -/
  | rnsadd (d : BitVec 5) (a : BitVec 5) (b : BitVec 5) (w : BitVec 3)
  /-- R370: Residue subtract by channel. -/
  | rnsaddSub (d : BitVec 5) (a : BitVec 5) (b : BitVec 5) (w : BitVec 3)
  /-- R370: Residue multiply by channel. -/
  | rnsmul (d : BitVec 5) (a : BitVec 5) (b : BitVec 5) (w : BitVec 3)
  /-- R371: Check a residue pair, reporting UNCORR where rnsr would contain the thread. -/
  | rnschk (d : BitVec 5) (a : BitVec 5) (w : BitVec 3)
  /-- R372: Privileged write of a tile's residue map once its residue work drains. -/
  | rnsmap (d : BitVec 5) (a : BitVec 5) (b : BitVec 5) (w : BitVec 3)
  /-- R376: Enqueue a message to an intake, a landing or a system-class start, and advance seq. -/
  | send (d : BitVec 5) (a : BitVec 5) (b : BitVec 5)
  /-- R377: Multicast to core k of the masked compartments. -/
  | sendm (d : BitVec 5) (a : BitVec 5) (b : BitVec 5) (c : BitVec 5)
  /-- R380: Take the eligible landing entry as an acquire, storing its payload. -/
  | lndGet (d : BitVec 5) (a : BitVec 5) (w : BitVec 1) (p : BitVec 4)
  /-- R380: Read the landing entry that lnd.get would take, without removing it. -/
  | lndPeek (d : BitVec 5) (a : BitVec 5) (w : BitVec 1) (p : BitVec 4)
  /-- R381: Read the landing counts. -/
  | lndCnt (d : BitVec 5)
  /-- R382: Take the landing message with a given sender and sequence. -/
  | waitSeq (d : BitVec 5) (a : BitVec 5) (b : BitVec 5)
  /-- R383: Migrate the thread to a logical core. -/
  | mig (d : BitVec 5) (a : BitVec 5)
  /-- R384: Push a task record on the deck. -/
  | spawn (d : BitVec 5) (a : BitVec 5)
  /-- R385: Push the record and end when a start is waiting and no slot is free. -/
  | yield (d : BitVec 5) (a : BitVec 5)
  /-- R387: Create a crew with the issuer as its only member. -/
  | crewNew (a : BitVec 5)
  /-- R387: Join a crew. -/
  | crewJoin (a : BitVec 5)
  /-- R387: Leave a crew. -/
  | crewLeave (a : BitVec 5)
  /-- R387: Delete a crew and its barriers. -/
  | crewDel (a : BitVec 5)
  /-- R388: Create a barrier with a scope and an expected count. -/
  | barInit (a : BitVec 5) (b : BitVec 5)
  /-- R389: Arrive at a barrier as a release and return the phase. -/
  | barArrive (d : BitVec 5) (a : BitVec 5)
  /-- R389: Arrive and lower the expected count of later phases. -/
  | barDrop (d : BitVec 5) (a : BitVec 5)
  /-- R389: Park until a phase completes, then acquire. -/
  | barWait (a : BitVec 5) (b : BitVec 5)
  /-- R390: Release and add units to a tile semaphore. -/
  | semPost (d : BitVec 5) (a : BitVec 5) (b : BitVec 5)
  /-- R390: Park until the semaphore count is at least 1, then decrement it. -/
  | semWait (d : BitVec 5) (a : BitVec 5)
  /-- R391: Append to a stage channel. -/
  | chanPut (a : BitVec 5) (k : BitVec 5)
  /-- R391: Pop from a stage channel. -/
  | chanGet (d : BitVec 5) (k : BitVec 5)
  /-- R392: Write a role-table entry of the tile. -/
  | recast (d : BitVec 5) (a : BitVec 5) (b : BitVec 5)
  /-- R393: Allocate and zero a node from the core's pool. -/
  | nalloc (d : BitVec 5)
  /-- R394: Free a node at its home. -/
  | nfree (a : BitVec 5)
  /-- R395: Relink two ports by splice_link and report the outcome. -/
  | link (d : BitVec 5) (a : BitVec 5) (b : BitVec 5)
  /-- R396: Push a pair record for two directly wired ends. -/
  | pair (a : BitVec 5) (b : BitVec 5)
  /-- R397: Read a node's four words into registers. -/
  | nread (d : BitVec 5) (a : BitVec 5)
  /-- R398: Exchange a node header. -/
  | nhdr (d : BitVec 5) (a : BitVec 5) (b : BitVec 5)
  /-- R399: Atomically increment a payload refcount. -/
  | prefInc (d : BitVec 5) (a : BitVec 5)
  /-- R399: Atomically decrement a payload refcount. -/
  | prefDec (d : BitVec 5) (a : BitVec 5)
  /-- R402: Issue a COPY yarder job. -/
  | yrdCopy (d : BitVec 5) (a : BitVec 5)
  /-- R402: Issue a gather job. -/
  | yrdGath (d : BitVec 5) (a : BitVec 5)
  /-- R402: Issue a scatter job. -/
  | yrdScat (d : BitVec 5) (a : BitVec 5)
  /-- R402: Issue a fill job. -/
  | yrdFill (d : BitVec 5) (a : BitVec 5)
  /-- R402: Issue a far-tier job. -/
  | yrdFar (d : BitVec 5) (a : BitVec 5)
  /-- R403: Set up a copy channel after its jobs complete. -/
  | yrdChan (d : BitVec 5) (a : BitVec 5) (b : BitVec 5)
  /-- R404: Read a channel watermark. -/
  | yrdWm (d : BitVec 5) (a : BitVec 5)
  /-- R405: Stop selected jobs and wait for their completion effects. -/
  | yrdStop (d : BitVec 5) (a : BitVec 5)
  /-- R406: Empty and bind a grader set with k. -/
  | grdCfg (a : BitVec 5) (b : BitVec 5)
  /-- R407: Queue a pair for the grader set. -/
  | grdIn (a : BitVec 5) (b : BitVec 5)
  /-- R408: Write the set's top-k to memory and keep the set. -/
  | grdOutKeep (d : BitVec 5) (a : BitVec 5) (b : BitVec 5)
  /-- R408: Write the set's top-k and free the set. -/
  | grdOutFin (d : BitVec 5) (a : BitVec 5) (b : BitVec 5)
  /-- R402: Issue a marking job. -/
  | mark (d : BitVec 5) (a : BitVec 5)
  /-- R409: Read the marking engine status. -/
  | markSt (d : BitVec 5)
  /-- R412: Inject a reduction packet. -/
  | smpInj (a : BitVec 5) (b : BitVec 5)
  /-- R414: Wait for and read a final reduction result as an acquire. -/
  | smpResW (d : BitVec 5) (a : BitVec 5)
  /-- R414: Read a reduction result as it stands. -/
  | smpResNw (d : BitVec 5) (a : BitVec 5)
  /-- R413: Configure a reduction at the combining unit. -/
  | smpResCfg (d : BitVec 5) (a : BitVec 5) (b : BitVec 5)
  /-- R410: Form a sampling candidate key with Gumbel noise or greedily. -/
  | gnz (d : BitVec 5) (a : BitVec 5) (b : BitVec 5) (e : BitVec 1) (g : BitVec 1)
  /-- R411: Return the noise bits. -/
  | rng (d : BitVec 5) (a : BitVec 5) (b : BitVec 5)
  /-- R415: Take the trap of cause 0x22. -/
  | trap (a : BitVec 5)
  /-- R415: System call, cause 0x21. -/
  | sysc (a : BitVec 5)
  /-- R416: Read a state register. -/
  | srd (d : BitVec 5) (r : BitVec 7)
  /-- R416: Write a state register and return its old value. -/
  | swr (d : BitVec 5) (a : BitVec 5) (r : BitVec 7)
  /-- R417: Kill a physical thread. -/
  | tkill (d : BitVec 5) (a : BitVec 5)
  /-- R417: Scrub a free, killed or contained slot. -/
  | tscrub (d : BitVec 5) (a : BitVec 5)
  /-- R418: Select a window target thread. -/
  | winMap (d : BitVec 5) (a : BitVec 5)
  /-- R418: Read an item of a contained thread. -/
  | winRd (d : BitVec 5) (a : BitVec 5)
  /-- R418: Write an item of a contained thread, or resume it. -/
  | winWr (d : BitVec 5) (a : BitVec 5) (b : BitVec 5)
  /-- R419: Write a word with chosen check bits. -/
  | eccInj (a : BitVec 5) (b : BitVec 5)
  /-- R420: Scoped translation invalidation. -/
  | tlbInv (a : BitVec 5) (b : BitVec 5)
  /-- R421: Park until a fault message stands or a deadline passes. -/
  | halt (d : BitVec 5) (a : BitVec 5) (b : BitVec 5)
  /-- R422: Read CYC. -/
  | cyc (d : BitVec 5)
  /-- R422: Read the global timestamp. -/
  | tsc (d : BitVec 5)
  /-- R283: 16-bit add xd, xd, xb. -/
  | c16Add (d : BitVec 5) (b : BitVec 5)
  /-- R283: 16-bit sub xd, xd, xb. -/
  | c16Sub (d : BitVec 5) (b : BitVec 5)
  /-- R283: 16-bit and. -/
  | c16And (d : BitVec 5) (b : BitVec 5)
  /-- R283: 16-bit or. -/
  | c16Or (d : BitVec 5) (b : BitVec 5)
  /-- R283: 16-bit xor. -/
  | c16Xor (d : BitVec 5) (b : BitVec 5)
  /-- R283: 16-bit add xd, x0, xb. -/
  | c16Move (d : BitVec 5) (b : BitVec 5)
  /-- R283: 16-bit mul xd, xd, xb. -/
  | c16Mul (d : BitVec 5) (b : BitVec 5)
  /-- R283: 16-bit ld xd, (xb). -/
  | c16Ld (d : BitVec 5) (b : BitVec 5)
  /-- R283: 16-bit st xd, (xb). -/
  | c16St (d : BitVec 5) (b : BitVec 5)
  /-- R283: 16-bit addi with imm5. -/
  | c16Addi (d : BitVec 5) (k : BitVec 5)
  /-- R283: 16-bit li with imm5. -/
  | c16Li (d : BitVec 5) (k : BitVec 5)
  /-- R283: 16-bit shli. -/
  | c16Shli (d : BitVec 5) (k : BitVec 5)
  /-- R283: 16-bit shri. -/
  | c16Shri (d : BitVec 5) (k : BitVec 5)
  /-- R283: 16-bit sari. -/
  | c16Sari (d : BitVec 5) (k : BitVec 5)
  /-- R283: 16-bit andi. -/
  | c16Andi (d : BitVec 5) (k : BitVec 5)
  /-- R283: 16-bit ld xd, 8k(x2). -/
  | c16LdX2 (d : BitVec 5) (k : BitVec 5)
  /-- R283: 16-bit st xd, 8k(x2). -/
  | c16StX2 (d : BitVec 5) (k : BitVec 5)
  /-- R283: 16-bit ld xd, 8k(x3). -/
  | c16LdX3 (d : BitVec 5) (k : BitVec 5)
  /-- R283: 16-bit st xd, 8k(x3). -/
  | c16StX3 (d : BitVec 5) (k : BitVec 5)
  /-- R283: 16-bit addi xd, xd, 16k. -/
  | c16Addi16 (d : BitVec 5) (k : BitVec 5)
  /-- R283: 16-bit bz. -/
  | c16Bz (d : BitVec 5) (k : BitVec 5)
  /-- R283: 16-bit bnz. -/
  | c16Bnz (d : BitVec 5) (k : BitVec 5)
  /-- R283: 16-bit j. -/
  | c16J (o : BitVec 10)
  /-- R283: 16-bit jal x1. -/
  | c16Jal (o : BitVec 10)
  /-- R283: 16-bit jr xd. -/
  | c16Jr (d : BitVec 5)
  /-- R283: 16-bit jalr x1, xd. -/
  | c16Jalr (d : BitVec 5)
  /-- R286: Set a one-shot format prefix for the next instruction. -/
  | pfx (p : BitVec 10)
  /-- R2: Power is applied to the package, which has no always-on domain and starts with no surviving state. -/
  | powerOn
  /-- R2: Power is removed and every piece of device state is lost. -/
  | powerOff
  /-- R424: Every 100 ns the device reads the intake slot of the head kick and takes the packet when the slot's seq matches. -/
  | kickSlotPoll
  /-- R424: 4 µs after a kick arrived with no matching slot, a kick-ahead-of-packet record is posted and the kick is dropped. -/
  | kickAheadOfPacket
  /-- R425: A waiting record is written into the host completion ring once the ring has room. -/
  | hostRecordPost
  /-- R213: A launch packet, kind 0x01, captures its header, seed, task lists and role image and enqueues the launch, or refuses it. -/
  | launch
  /-- R427: A partition-setup packet, kind 0x02, assigns compartments to partitions, or is refused whole. -/
  | partitionSetup
  /-- R429: A pre-empt packet, kind 0x03, makes the ranger pre-empt the context's threads in the masked compartments. -/
  | preEmptContext
  /-- R231: A kill packet, kind 0x04, advances the context generation, kills its threads, stops its jobs and discards its queued work. -/
  | killContext
  /-- R429: A read-log packet, kind 0x05, writes the oldest log entries to host memory and removes them from the log. -/
  | readLog
  /-- R426: An attest packet, kind 0x06, writes the measured digests, the fuse identity and the nonce, signed by the device identity key. -/
  | attest
  /-- R428: A create-context packet, kind 0x07, checks the context record and then sets up the context, its page tables, its crew table and its seed. -/
  | createContext
  /-- R429: A release-context packet, kind 0x08, reports busy, or invalidates the context's translations and frees its resources. -/
  | releaseContext
  /-- R429: A resume packet, kind 0x09, puts back the moved items and issues a system-class start on each core that held a saved thread. -/
  | resumeContext
  /-- R248: Rotate to a new register window, parking while the other buffer is spilled. -/
  | save
  /-- R248: Rotate back to the caller's window, refilling it when it was spilled. -/
  | restore
  /-- R304: Jump to x1. -/
  | ret
  /-- R307: No effect. -/
  | nop
  /-- R386: End the thread once its mill work, results and stores drain, then free the slot. -/
  | endThread
  /-- R415: Return from a trap to TEPC. -/
  | tret
  /-- R283: 16-bit ret. -/
  | c16Ret
  /-- R283: 16-bit save. -/
  | c16Save
  /-- R283: 16-bit restore. -/
  | c16Restore
  /-- R283: 16-bit nop. -/
  | c16Nop
  deriving DecidableEq, Repr

end Sys2Proof
end

