-- ==== Sys2Proof/WellFormed.lean ====
section
/-! DEFINITION. Which fields an encoding may hold beyond its fixed bits: the restricted register fields of R278 and the
option values of R287 items 4 and 5, entry by entry. -/

namespace Sys2Proof

/-- A register field that names a pair (R316, R368, R374, R400). -/
def evenReg (r : Reg) : Bool := !r.getLsbD 0

/-- A field that names a stream holds 20 + j (R320). -/
def streamReg (r : Reg) : Bool := r.extractLsb' 2 3 == 5#3

/-- Operand pairs of the multiplies are even and non-zero (R348). -/
def mulPair (r : Reg) : Bool := evenReg r && r != 0#5

/-- An accumulator field, or a destination of major 0x1E, holds 0 to 15 (R278, R362). -/
def accReg (r : Reg) : Bool := r.ult 16#5

/-- acc + c lies within 16, with c = n + 1 (R357). -/
def accRange (r : Reg) (n : BitVec 4) : Bool := decide (r.toNat + n.toNat + 1 ≤ 16)

/-- The scope code of an atomic: 0 for the plain form, 0 to 6 for an ordered one (R317). -/
def amoScope (r : BitVec 2) (s : BitVec 3) : Bool := if r == 0#2 then s == 0#3 else s != 7#3

/-- A prefix payload without a reserved value (R285). -/
def pfxPayload (p : BitVec 10) : Bool :=
  (p.extractLsb' 6 4).ult 14#4 && p.extractLsb' 2 4 != 14#4 && p.extractLsb' 0 2 != 3#2

/-- Well-formedness of an instruction's fields. Every event is well formed: its operands name objects that may or may
not be there, and an event that is not there does not happen. -/
def Instr.wf : Instr → Bool
  | .bootImage _ => true
  | .kick _ => true
  | .consumedRegister _ => true
  | .modeChangeComplete _ => true
  | .launchStart _ => true
  | .cruiseSweep _ => true
  | .preEmptionDeadline _ => true
  | .trapEntry _ => true
  | .faultMessage _ => true
  | .systemClassStart _ => true
  | .threadStart _ => true
  | .dispatchIntakeArrival _ => true
  | .landingMessageArrival _ => true
  | .migrationDepart _ => true
  | .sendQueueDepart _ => true
  | .pairRecordArrival _ => true
  | .overflowRingRefill _ => true
  | .pairPrepare _ => true
  | .stealRequest _ => true
  | .autoRecast _ => true
  | .channelElementMove _ _ => true
  | .bankRequest _ _ => true
  | .homeAccess _ => true
  | .windowAccessService _ => true
  | .accessReply _ => true
  | .postedStoreAck _ => true
  | .postedStoreRefusal _ => true
  | .flitArrival _ _ => true
  | .pageWalkEnd _ => true
  | .frameMigrating _ _ _ => true
  | .frameCopyComplete _ => true
  | .forwardingCommit _ => true
  | .drainReport _ _ => true
  | .footprintAccept _ => true
  | .footprintDispatch _ _ => true
  | .jobArrival _ _ => true
  | .watermarkReport _ => true
  | .jobCompletion _ => true
  | .yarderKillReport _ _ => true
  | .millAccept _ => true
  | .millRowRead _ => true
  | .millRetire _ => true
  | .millPipeFault _ => true
  | .sfuResult _ => true
  | .pendingResultWrite _ => true
  | .spillWord _ => true
  | .streamReadAhead _ _ => true
  | .reductionCombine _ _ => true
  | .graderAccept _ => true
  | .markJobRun _ => true
  | .droopTrip _ _ => true
  | .scalerConfig _ _ _ => true
  | .illegalEncoding _ => true
  | .pairSlotSend _ _ => true
  | .elasticFifoDelivery _ _ => true
  | .haltDeadline _ => true
  | .intakeSlotWrite _ _ => true
  | .add _ _ _ => true
  | .sub _ _ _ => true
  | .and _ _ _ => true
  | .or _ _ _ => true
  | .xor _ _ _ => true
  | .andn _ _ _ => true
  | .orn _ _ _ => true
  | .addi _ _ _ => true
  | .andi _ _ _ => true
  | .ori _ _ _ => true
  | .xori _ _ _ => true
  | .slti _ _ _ => true
  | .sltiN _ _ _ => true
  | .shl _ _ _ => true
  | .shr _ _ _ => true
  | .sar _ _ _ => true
  | .rotl _ _ _ => true
  | .rotr _ _ _ => true
  | .clz _ _ => true
  | .ctz _ _ => true
  | .popc _ _ => true
  | .brev _ _ => true
  | .bswap _ _ => true
  | .bfx _ _ _ => true
  | .bfxs _ _ _ => true
  | .bfi _ _ _ => true
  | .shli _ _ _ => true
  | .shri _ _ _ => true
  | .sari _ _ _ => true
  | .mul _ _ _ => true
  | .mulh _ _ _ => true
  | .mulhN _ _ _ => true
  | .madd _ _ _ _ => true
  | .msub _ _ _ _ => true
  | .div _ _ _ _ => true
  | .divN _ _ _ _ => true
  | .rem _ _ _ _ => true
  | .remN _ _ _ _ => true
  | .li _ _ => true
  | .liN _ _ => true
  | .lih _ _ _ => true
  | .adr _ _ => true
  | .min _ _ _ => true
  | .minN _ _ _ => true
  | .max _ _ _ => true
  | .maxN _ _ _ => true
  | .slt _ _ _ => true
  | .sltN _ _ _ => true
  | .seq _ _ _ => true
  | .sel _ _ _ _ => true
  | .beq _ _ _ => true
  | .bne _ _ _ => true
  | .blt _ _ _ => true
  | .bge _ _ _ => true
  | .bz _ _ => true
  | .bnz _ _ => true
  | .bltN _ _ _ => true
  | .bgeN _ _ _ => true
  | .j _ => true
  | .jal _ _ => true
  | .jr _ _ => true
  | .jalr _ _ _ => true
  | .rep _ _ => true
  | .ld _ _ _ _ => true
  | .ldN _ _ _ w => w != 3#2
  | .ldAcq _ _ s w e _ => s != 7#3 && (w != 3#2 || e == 0#1)
  | .st _ _ _ _ => true
  | .stRel _ _ s _ _ => s != 7#3
  | .ldp d _ _ => evenReg d
  | .stp _ b _ => evenReg b
  | .ldm d _ e _ => d.ule e
  | .stm _ b e _ => b.ule e
  | .amoAdd _ _ _ _ r s => amoScope r s
  | .amoAnd _ _ _ _ r s => amoScope r s
  | .amoOr _ _ _ _ r s => amoScope r s
  | .amoXor _ _ _ _ r s => amoScope r s
  | .amoMin _ _ _ _ r s => amoScope r s
  | .amoMax _ _ _ _ r s => amoScope r s
  | .amoNMin _ _ _ _ r s => amoScope r s
  | .amoNMax _ _ _ _ r s => amoScope r s
  | .amoXchg _ _ _ _ r s => amoScope r s
  | .cas _ _ _ _ _ => true
  | .fence _ s k => s != 7#3 && k != 3#2
  | .lx _ _ e _ w => w != 3#2 || e == 0#1
  | .sqCfg q _ _ => streamReg q
  | .sqBind q _ => streamReg q
  | .sqOff q => streamReg q
  | .sqWait q => streamReg q
  | .sqStat _ q => streamReg q
  | .padd _ _ _ t => t.ult 6#3
  | .psub _ _ _ t => t.ult 6#3
  | .padds _ _ _ t => t.ult 6#3
  | .psubs _ _ _ t => t.ult 6#3
  | .pmul _ _ _ t => t.ult 6#3
  | .pmulh _ _ _ t => t.ult 6#3
  | .pmin _ _ _ t => t.ult 6#3
  | .pmax _ _ _ t => t.ult 6#3
  | .pabs _ _ t => t == 0#3 || t == 2#3 || t == 4#3
  | .pavg _ _ _ t => t.ult 6#3
  | .pcmpEq _ _ _ t => t.ult 6#3
  | .pcmpLt _ _ _ t => t.ult 6#3
  | .pcmpLe _ _ _ t => t.ult 6#3
  | .pdot _ _ _ t => t.ult 4#3
  | .pshf _ _ _ => true
  | .ppk _ _ _ t => t.ult 6#3
  | .pup _ _ _ t => t.ult 6#3
  | .pbc _ _ _ t => t.ult 6#3
  | .psel _ _ _ _ => true
  | .fli _ _ _ f => f.ult 5#3
  | .fadd _ _ _ m t => t.ult 3#3 && m != 7#3
  | .fsub _ _ _ m t => t.ult 3#3 && m != 7#3
  | .fmul _ _ _ m t => t.ult 3#3 && m != 7#3
  | .fmin _ _ _ t => t.ult 3#3
  | .fmax _ _ _ t => t.ult 3#3
  | .fneg _ _ t => t.ult 3#3
  | .fabs _ _ t => t.ult 3#3
  | .fcmpEq _ _ _ t => t.ult 3#3
  | .fcmpLt _ _ _ t => t.ult 3#3
  | .fcmpLe _ _ _ t => t.ult 3#3
  | .fsum _ _ _ f _ => f.ult 5#4
  | .fma _ _ _ _ t => t.ult 3#3
  | .fms _ _ _ _ t => t.ult 3#3
  | .fcvt _ _ g m s => g.ult 5#3 && s.ult 5#3 && m != 7#3
  | .icvt _ _ _ f m _ => f.ult 5#3 && m != 7#3
  | .fcls _ _ f => f.ult 5#3
  | .okey _ _ _ _ t => t.ult 13#4 && t != 6#4 && t != 7#4
  | .dl2 _ _ _ _ => true
  | .dip _ _ _ _ => true
  | .dipE4m3 _ _ _ => true
  | .dham _ _ _ => true
  | .dcb _ _ _ _ => true
  | .sfuRcp _ _ _ _ t => t != 3#2
  | .sfuRsqrt _ _ _ _ t => t != 3#2
  | .sfuSqrt _ _ _ _ t => t != 3#2
  | .sfuExp2 _ _ _ _ t => t != 3#2
  | .sfuLog2 _ _ _ _ t => t != 3#2
  | .sfuExp _ _ _ _ t => t != 3#2
  | .sfuLn _ _ _ _ t => t != 3#2
  | .sfuSinpi _ _ _ _ t => t != 3#2
  | .sfuCospi _ _ _ _ t => t != 3#2
  | .sfuTanh _ _ _ _ t => t != 3#2
  | .sfuSigm _ _ _ _ t => t != 3#2
  | .mma a b c t _ => mulPair a && mulPair b && accReg c && t.ult 6#4
  | .mmas a b c t _ => mulPair a && mulPair b && accReg c && t.ult 6#4
  | .mmcb a b c _ _ => mulPair a && mulPair b && accReg c
  | .mmr a b c t _ => mulPair a && mulPair b && accReg c && t.ult 4#4
  | .mld _ _ c _ _ => accReg c
  | .mst _ _ c _ _ => accReg c
  | .mzero c n _ => accRange c n
  | .manc _ c n _ => accRange c n
  | .mscl _ c n _ => accRange c n
  | .mcbt _ _ t => t.ult 8#5
  | .mfin _ _ c f _ => accReg c && f.ult 6#4
  | .mseq d _ => accReg d
  | .mwait _ _ => true
  | .mwaitAll _ => true
  | .mprogRd d _ => accReg d
  | .mprogGo _ => true
  | .mprogCancel _ => true
  | .rnsf d _ _ => evenReg d
  | .rnsr d a _ => evenReg d && evenReg a
  | .rnsadd d a b _ => evenReg d && evenReg a && evenReg b
  | .rnsaddSub d a b _ => evenReg d && evenReg a && evenReg b
  | .rnsmul d a b _ => evenReg d && evenReg a && evenReg b
  | .rnschk _ a _ => evenReg a
  | .rnsmap _ _ _ _ => true
  | .send _ _ _ => true
  | .sendm _ _ _ _ => true
  | .lndGet d _ _ p => evenReg d && p != 0#4
  | .lndPeek d _ _ p => evenReg d && p != 0#4
  | .lndCnt _ => true
  | .waitSeq d _ _ => evenReg d
  | .mig _ _ => true
  | .spawn _ _ => true
  | .yield _ _ => true
  | .crewNew _ => true
  | .crewJoin _ => true
  | .crewLeave _ => true
  | .crewDel _ => true
  | .barInit _ _ => true
  | .barArrive _ _ => true
  | .barDrop _ _ => true
  | .barWait _ _ => true
  | .semPost _ _ _ => true
  | .semWait _ _ => true
  | .chanPut _ k => k.ult 8#5
  | .chanGet _ k => k.ult 8#5
  | .recast _ _ _ => true
  | .nalloc _ => true
  | .nfree _ => true
  | .link _ _ _ => true
  | .pair _ _ => true
  | .nread d _ => d.extractLsb' 0 2 == 0#2 && d != 0#5
  | .nhdr _ _ _ => true
  | .prefInc _ _ => true
  | .prefDec _ _ => true
  | .yrdCopy _ _ => true
  | .yrdGath _ _ => true
  | .yrdScat _ _ => true
  | .yrdFill _ _ => true
  | .yrdFar _ _ => true
  | .yrdChan _ _ _ => true
  | .yrdWm _ _ => true
  | .yrdStop _ _ => true
  | .grdCfg _ _ => true
  | .grdIn _ _ => true
  | .grdOutKeep _ _ _ => true
  | .grdOutFin _ _ _ => true
  | .mark _ _ => true
  | .markSt _ => true
  | .smpInj _ b => evenReg b
  | .smpResW d _ => evenReg d
  | .smpResNw d _ => evenReg d
  | .smpResCfg _ _ _ => true
  | .gnz d _ b _ _ => evenReg d && evenReg b
  | .rng _ _ _ => true
  | .trap _ => true
  | .sysc _ => true
  | .srd _ r => r.ult 12#7
  | .swr _ _ r => r.ult 12#7
  | .tkill _ _ => true
  | .tscrub _ _ => true
  | .winMap _ _ => true
  | .winRd _ _ => true
  | .winWr _ _ _ => true
  | .eccInj _ b => evenReg b
  | .tlbInv _ _ => true
  | .halt _ _ _ => true
  | .cyc _ => true
  | .tsc _ => true
  | .c16Add _ _ => true
  | .c16Sub _ _ => true
  | .c16And _ _ => true
  | .c16Or _ _ => true
  | .c16Xor _ _ => true
  | .c16Move _ _ => true
  | .c16Mul _ _ => true
  | .c16Ld _ _ => true
  | .c16St _ _ => true
  | .c16Addi _ _ => true
  | .c16Li _ _ => true
  | .c16Shli _ _ => true
  | .c16Shri _ _ => true
  | .c16Sari _ _ => true
  | .c16Andi _ _ => true
  | .c16LdX2 _ _ => true
  | .c16StX2 _ _ => true
  | .c16LdX3 _ _ => true
  | .c16StX3 _ _ => true
  | .c16Addi16 _ _ => true
  | .c16Bz _ _ => true
  | .c16Bnz _ _ => true
  | .c16J _ => true
  | .c16Jal _ => true
  | .c16Jr _ => true
  | .c16Jalr _ => true
  | .pfx p => pfxPayload p
  | .powerOn => true
  | .powerOff => true
  | .kickSlotPoll => true
  | .kickAheadOfPacket => true
  | .hostRecordPost => true
  | .launch => true
  | .partitionSetup => true
  | .preEmptContext => true
  | .killContext => true
  | .readLog => true
  | .attest => true
  | .createContext => true
  | .releaseContext => true
  | .resumeContext => true
  | .save => true
  | .restore => true
  | .ret => true
  | .nop => true
  | .endThread => true
  | .tret => true
  | .c16Ret => true
  | .c16Save => true
  | .c16Restore => true
  | .c16Nop => true

end Sys2Proof
end

