-- ==== Sys2Proof/Decode.lean ====
section
/-! DEFINITION. Decoding and encoding, from the formats of R276 and R282 and the base words of the instruction chapters
(spec/17_encodings_and_opcode_map.md). Decoding is total on any bytes and rejects by name; the encoder follows it. The keyword
noncomputable stands where Lean's code generator has no tag left for a constructor beyond its 245th: every definition has a
body that the kernel evaluates. -/

namespace Sys2Proof

/-- Why bits are no instruction, after the list of R287. -/
inductive DecodeError where
  /-- R287 item 1: a reserved major, or OP5 0x00. -/
  | reservedMajor
  /-- R287 items 2 and 3: a function code that no entry lists, or a field that must be 0 and is not. -/
  | unlistedFunction
  /-- R287 items 4 and 5: a register field outside its restriction, or a reserved option value. -/
  | illegalField
  /-- R287 item 6 and R275: the instruction would run past the bytes there are. -/
  | pastEnd
  deriving DecidableEq, Repr

/-- The fields of a 32-bit word, cut as the R format of R276 cuts them. -/
structure Raw32 where
  f7 : BitVec 7
  b : BitVec 5
  a : BitVec 5
  d : BitVec 5
  f3 : BitVec 3
  op : BitVec 7
  deriving DecidableEq, Repr

/-- The fields of a halfword, cut as the C2 format of R282 cuts them, with bit 0 kept in `op`. -/
structure Raw16 where
  hi : BitVec 5
  mid : BitVec 5
  op : BitVec 6
  deriving DecidableEq, Repr

/-- Cut a word into its fields (R276). -/
def Raw32.ofWord (w : BitVec 32) : Raw32 :=
  ⟨w.extractLsb' 25 7, w.extractLsb' 20 5, w.extractLsb' 15 5, w.extractLsb' 10 5, w.extractLsb' 7 3, w.extractLsb' 0 7⟩

/-- Put the fields of a word together (R276). -/
def Raw32.toWord (r : Raw32) : BitVec 32 := r.f7 ++ (r.b ++ (r.a ++ (r.d ++ (r.f3 ++ r.op))))

/-- Cut a halfword into its fields (R282). -/
def Raw16.ofHalf (w : BitVec 16) : Raw16 := ⟨w.extractLsb' 11 5, w.extractLsb' 6 5, w.extractLsb' 0 6⟩

/-- Put the fields of a halfword together (R282). -/
def Raw16.toHalf (r : Raw16) : BitVec 16 := r.hi ++ (r.mid ++ r.op)

/-- Major 0x01 (R280; R292). -/
def decodeMajor01 (r : Raw32) : Option Instr :=
  if r.f3 = 0x0#3 ∧ r.f7 = 0x0#7 then some (.add r.d r.a r.b)
  else if r.f3 = 0x1#3 ∧ r.f7 = 0x0#7 then some (.sub r.d r.a r.b)
  else if r.f3 = 0x2#3 ∧ r.f7 = 0x0#7 then some (.and r.d r.a r.b)
  else if r.f3 = 0x3#3 ∧ r.f7 = 0x0#7 then some (.or r.d r.a r.b)
  else if r.f3 = 0x4#3 ∧ r.f7 = 0x0#7 then some (.xor r.d r.a r.b)
  else if r.f3 = 0x5#3 ∧ r.f7 = 0x0#7 then some (.andn r.d r.a r.b)
  else if r.f3 = 0x6#3 ∧ r.f7 = 0x0#7 then some (.orn r.d r.a r.b)
  else none

/-- Major 0x02 (R280; R293). -/
def decodeMajor02 (r : Raw32) : Option Instr :=
  if r.f3 = 0x0#3 then some (.addi r.d r.a (r.f7 ++ r.b))
  else if r.f3 = 0x1#3 then some (.andi r.d r.a (r.f7 ++ r.b))
  else if r.f3 = 0x2#3 then some (.ori r.d r.a (r.f7 ++ r.b))
  else if r.f3 = 0x3#3 then some (.xori r.d r.a (r.f7 ++ r.b))
  else if r.f3 = 0x4#3 then some (.slti r.d r.a (r.f7 ++ r.b))
  else if r.f3 = 0x5#3 then some (.sltiN r.d r.a (r.f7 ++ r.b))
  else none

/-- Major 0x03 (R280; R294, R295, R296). -/
def decodeMajor03 (r : Raw32) : Option Instr :=
  if r.f3 = 0x0#3 ∧ r.f7 = 0x0#7 then some (.shl r.d r.a r.b)
  else if r.f3 = 0x0#3 ∧ r.f7 = 0x1#7 then some (.shr r.d r.a r.b)
  else if r.f3 = 0x0#3 ∧ r.f7 = 0x2#7 then some (.sar r.d r.a r.b)
  else if r.f3 = 0x0#3 ∧ r.f7 = 0x3#7 then some (.rotl r.d r.a r.b)
  else if r.f3 = 0x0#3 ∧ r.f7 = 0x4#7 then some (.rotr r.d r.a r.b)
  else if r.f3 = 0x1#3 ∧ r.f7 = 0x0#7 ∧ r.b = 0x0#5 then some (.clz r.d r.a)
  else if r.f3 = 0x1#3 ∧ r.f7 = 0x1#7 ∧ r.b = 0x0#5 then some (.ctz r.d r.a)
  else if r.f3 = 0x1#3 ∧ r.f7 = 0x2#7 ∧ r.b = 0x0#5 then some (.popc r.d r.a)
  else if r.f3 = 0x1#3 ∧ r.f7 = 0x3#7 ∧ r.b = 0x0#5 then some (.brev r.d r.a)
  else if r.f3 = 0x1#3 ∧ r.f7 = 0x4#7 ∧ r.b = 0x0#5 then some (.bswap r.d r.a)
  else if r.f3 = 0x2#3 ∧ r.f7 = 0x0#7 then some (.bfx r.d r.a r.b)
  else if r.f3 = 0x2#3 ∧ r.f7 = 0x1#7 then some (.bfxs r.d r.a r.b)
  else if r.f3 = 0x3#3 ∧ r.f7 = 0x0#7 then some (.bfi r.d r.a r.b)
  else if r.f3 = 0x4#3 ∧ r.f7.extractLsb' 1 6 = 0x0#6 then some (.shli r.d r.a (r.f7.extractLsb' 0 1 ++ r.b))
  else if r.f3 = 0x5#3 ∧ r.f7.extractLsb' 1 6 = 0x0#6 then some (.shri r.d r.a (r.f7.extractLsb' 0 1 ++ r.b))
  else if r.f3 = 0x6#3 ∧ r.f7.extractLsb' 1 6 = 0x0#6 then some (.sari r.d r.a (r.f7.extractLsb' 0 1 ++ r.b))
  else none

/-- Major 0x04 (R280; R297, R298). -/
def decodeMajor04 (r : Raw32) : Option Instr :=
  if r.f3 = 0x0#3 ∧ r.f7 = 0x0#7 then some (.mul r.d r.a r.b)
  else if r.f3 = 0x1#3 ∧ r.f7 = 0x0#7 then some (.mulh r.d r.a r.b)
  else if r.f3 = 0x1#3 ∧ r.f7 = 0x1#7 then some (.mulhN r.d r.a r.b)
  else if r.f3 = 0x2#3 ∧ r.f7.extractLsb' 5 2 = 0x0#2 then some (.madd r.d r.a r.b (r.f7.extractLsb' 0 5))
  else if r.f3 = 0x3#3 ∧ r.f7.extractLsb' 5 2 = 0x0#2 then some (.msub r.d r.a r.b (r.f7.extractLsb' 0 5))
  else if r.f3 = 0x4#3 ∧ r.f7.extractLsb' 3 4 = 0x0#4 then some (.div r.d r.a r.b (r.f7.extractLsb' 0 3))
  else if r.f3 = 0x4#3 ∧ r.f7.extractLsb' 3 4 = 0x1#4 then some (.divN r.d r.a r.b (r.f7.extractLsb' 0 3))
  else if r.f3 = 0x5#3 ∧ r.f7.extractLsb' 3 4 = 0x0#4 then some (.rem r.d r.a r.b (r.f7.extractLsb' 0 3))
  else if r.f3 = 0x5#3 ∧ r.f7.extractLsb' 3 4 = 0x1#4 then some (.remN r.d r.a r.b (r.f7.extractLsb' 0 3))
  else none

/-- Major 0x05 (R280; R299). -/
def decodeMajor05 (r : Raw32) : Option Instr :=
  if r.f3 = 0x0#3 ∧ r.a.extractLsb' 0 1 = 0x0#1 then some (.li r.d (r.f7 ++ (r.b ++ r.a.extractLsb' 1 4)))
  else if r.f3 = 0x0#3 ∧ r.a.extractLsb' 0 1 = 0x1#1 then some (.liN r.d (r.f7 ++ (r.b ++ r.a.extractLsb' 1 4)))
  else if r.f3.extractLsb' 2 1 = 0x1#1 ∧ r.a.extractLsb' 0 1 = 0x0#1 then some (.lih r.d (r.f7 ++ (r.b ++ r.a.extractLsb' 1 4)) (r.f3.extractLsb' 0 2))
  else none

/-- Major 0x06 (R280; R300). -/
def decodeMajor06 (r : Raw32) : Option Instr :=
  if r.f3 = 0x0#3 then some (.adr r.d (r.f7 ++ (r.b ++ r.a)))
  else none

/-- Major 0x07 (R280; R301). -/
def decodeMajor07 (r : Raw32) : Option Instr :=
  if r.f3 = 0x0#3 ∧ r.f7 = 0x0#7 then some (.min r.d r.a r.b)
  else if r.f3 = 0x0#3 ∧ r.f7 = 0x1#7 then some (.minN r.d r.a r.b)
  else if r.f3 = 0x1#3 ∧ r.f7 = 0x0#7 then some (.max r.d r.a r.b)
  else if r.f3 = 0x1#3 ∧ r.f7 = 0x1#7 then some (.maxN r.d r.a r.b)
  else if r.f3 = 0x2#3 ∧ r.f7 = 0x0#7 then some (.slt r.d r.a r.b)
  else if r.f3 = 0x2#3 ∧ r.f7 = 0x1#7 then some (.sltN r.d r.a r.b)
  else if r.f3 = 0x3#3 ∧ r.f7 = 0x0#7 then some (.seq r.d r.a r.b)
  else if r.f3 = 0x4#3 ∧ r.f7.extractLsb' 5 2 = 0x0#2 then some (.sel r.d r.a r.b (r.f7.extractLsb' 0 5))
  else none

/-- Major 0x08 (R280; R302). -/
def decodeMajor08 (r : Raw32) : Option Instr :=
  if r.f3 = 0x0#3 then some (.beq r.a r.b (r.f7 ++ r.d))
  else if r.f3 = 0x1#3 then some (.bne r.a r.b (r.f7 ++ r.d))
  else if r.f3 = 0x2#3 then some (.blt r.a r.b (r.f7 ++ r.d))
  else if r.f3 = 0x3#3 then some (.bge r.a r.b (r.f7 ++ r.d))
  else if r.f3 = 0x4#3 ∧ r.b = 0x0#5 then some (.bz r.a (r.f7 ++ r.d))
  else if r.f3 = 0x5#3 ∧ r.b = 0x0#5 then some (.bnz r.a (r.f7 ++ r.d))
  else if r.f3 = 0x6#3 then some (.bltN r.a r.b (r.f7 ++ r.d))
  else if r.f3 = 0x7#3 then some (.bgeN r.a r.b (r.f7 ++ r.d))
  else none

/-- Major 0x09 (R280; R303). -/
def decodeMajor09 (r : Raw32) : Option Instr :=
  if r.f3 = 0x0#3 ∧ r.d = 0x0#5 then some (.j (r.f7 ++ (r.b ++ r.a)))
  else none

/-- Major 0x0A (R280; R303). -/
def decodeMajor0A (r : Raw32) : Option Instr :=
  if r.f3 = 0x0#3 then some (.jal r.d (r.f7 ++ (r.b ++ r.a)))
  else none

/-- Major 0x0B (R280; R248, R304, R306, R307). -/
def decodeMajor0B (r : Raw32) : Option Instr :=
  if r.f3 = 0x0#3 ∧ r.d = 0x0#5 then some (.jr r.a (r.f7 ++ r.b))
  else if r.f3 = 0x1#3 then some (.jalr r.d r.a (r.f7 ++ r.b))
  else if r.f3 = 0x5#3 ∧ r.a = 0x0#5 then some (.rep r.d (r.f7 ++ r.b))
  else if r.f3 = 0x2#3 ∧ r.f7 = 0x0#7 ∧ r.b = 0x0#5 ∧ r.a = 0x0#5 ∧ r.d = 0x0#5 then some (.save)
  else if r.f3 = 0x3#3 ∧ r.f7 = 0x0#7 ∧ r.b = 0x0#5 ∧ r.a = 0x0#5 ∧ r.d = 0x0#5 then some (.restore)
  else if r.f3 = 0x4#3 ∧ r.f7 = 0x0#7 ∧ r.b = 0x0#5 ∧ r.a = 0x0#5 ∧ r.d = 0x0#5 then some (.ret)
  else if r.f3 = 0x6#3 ∧ r.f7 = 0x0#7 ∧ r.b = 0x0#5 ∧ r.a = 0x0#5 ∧ r.d = 0x0#5 then some (.nop)
  else none

/-- Major 0x0C (R280; R312). -/
def decodeMajor0C (r : Raw32) : Option Instr :=
  if r.f3 = 0x7#3 then some (.ldAcq r.d r.a (r.f7.extractLsb' 4 3) (r.f7.extractLsb' 2 2) (r.f7.extractLsb' 1 1) (r.f7.extractLsb' 0 1 ++ r.b))
  else if r.f3.extractLsb' 2 1 = 0x0#1 then some (.ld r.d r.a (r.f7 ++ r.b) (r.f3.extractLsb' 0 2))
  else if r.f3.extractLsb' 2 1 = 0x1#1 then some (.ldN r.d r.a (r.f7 ++ r.b) (r.f3.extractLsb' 0 2))
  else none

/-- Major 0x0D (R280; R313). -/
def decodeMajor0D (r : Raw32) : Option Instr :=
  if r.f3.extractLsb' 2 1 = 0x0#1 then some (.st r.a r.b (r.f7 ++ r.d) (r.f3.extractLsb' 0 2))
  else if r.f3.extractLsb' 2 1 = 0x1#1 then some (.stRel r.a r.b (r.f7.extractLsb' 4 3) (r.f7.extractLsb' 0 4 ++ r.d) (r.f3.extractLsb' 0 2))
  else none

/-- Major 0x0E (R280; R316). -/
def decodeMajor0E (r : Raw32) : Option Instr :=
  if r.f3 = 0x0#3 then some (.ldp r.d r.a (r.f7 ++ r.b))
  else if r.f3 = 0x1#3 then some (.stp r.a r.b (r.f7 ++ r.d))
  else none

/-- Major 0x0F (R280; R316). -/
def decodeMajor0F (r : Raw32) : Option Instr :=
  if r.f3 = 0x0#3 then some (.ldm r.d r.a (r.f7.extractLsb' 2 5) (r.f7.extractLsb' 0 2 ++ r.b))
  else if r.f3 = 0x1#3 then some (.stm r.a r.b (r.f7.extractLsb' 2 5) (r.f7.extractLsb' 0 2 ++ r.d))
  else none

/-- Major 0x10 (R280; R317, R318). -/
def decodeMajor10 (r : Raw32) : Option Instr :=
  if r.f3 = 0x7#3 then some (.cas r.d r.a r.b (r.f7.extractLsb' 0 5) (r.f7.extractLsb' 5 2))
  else if r.f7.extractLsb' 0 4 = 0x0#4 then some (.amoAdd r.d r.a r.b (r.f7.extractLsb' 6 1) (r.f7.extractLsb' 4 2) r.f3)
  else if r.f7.extractLsb' 0 4 = 0x1#4 then some (.amoAnd r.d r.a r.b (r.f7.extractLsb' 6 1) (r.f7.extractLsb' 4 2) r.f3)
  else if r.f7.extractLsb' 0 4 = 0x2#4 then some (.amoOr r.d r.a r.b (r.f7.extractLsb' 6 1) (r.f7.extractLsb' 4 2) r.f3)
  else if r.f7.extractLsb' 0 4 = 0x3#4 then some (.amoXor r.d r.a r.b (r.f7.extractLsb' 6 1) (r.f7.extractLsb' 4 2) r.f3)
  else if r.f7.extractLsb' 0 4 = 0x4#4 then some (.amoMin r.d r.a r.b (r.f7.extractLsb' 6 1) (r.f7.extractLsb' 4 2) r.f3)
  else if r.f7.extractLsb' 0 4 = 0x5#4 then some (.amoMax r.d r.a r.b (r.f7.extractLsb' 6 1) (r.f7.extractLsb' 4 2) r.f3)
  else if r.f7.extractLsb' 0 4 = 0x6#4 then some (.amoNMin r.d r.a r.b (r.f7.extractLsb' 6 1) (r.f7.extractLsb' 4 2) r.f3)
  else if r.f7.extractLsb' 0 4 = 0x7#4 then some (.amoNMax r.d r.a r.b (r.f7.extractLsb' 6 1) (r.f7.extractLsb' 4 2) r.f3)
  else if r.f7.extractLsb' 0 4 = 0x8#4 then some (.amoXchg r.d r.a r.b (r.f7.extractLsb' 6 1) (r.f7.extractLsb' 4 2) r.f3)
  else none

/-- Major 0x11 (R280; R314, R315). -/
def decodeMajor11 (r : Raw32) : Option Instr :=
  if r.f3 = 0x0#3 ∧ r.f7.extractLsb' 6 1 = 0x0#1 ∧ r.b = 0x0#5 ∧ r.a = 0x0#5 ∧ r.d = 0x0#5 then some (.fence (r.f7.extractLsb' 5 1) (r.f7.extractLsb' 2 3) (r.f7.extractLsb' 0 2))
  else if r.f3.extractLsb' 2 1 = 0x1#1 then some (.lx r.d r.a (r.f7.extractLsb' 6 1) (r.f7.extractLsb' 0 6 ++ r.b) (r.f3.extractLsb' 0 2))
  else none

/-- Major 0x12 (R280; R320). -/
def decodeMajor12 (r : Raw32) : Option Instr :=
  if r.f3 = 0x0#3 then some (.sqCfg r.d r.a (r.f7 ++ r.b))
  else if r.f3 = 0x1#3 ∧ r.f7 = 0x0#7 ∧ r.a = 0x0#5 then some (.sqBind r.d r.b)
  else if r.f3 = 0x2#3 ∧ r.f7 = 0x0#7 ∧ r.b = 0x0#5 ∧ r.a = 0x0#5 then some (.sqOff r.d)
  else if r.f3 = 0x3#3 ∧ r.f7 = 0x0#7 ∧ r.b = 0x0#5 ∧ r.a = 0x0#5 then some (.sqWait r.d)
  else if r.f3 = 0x4#3 ∧ r.f7 = 0x0#7 ∧ r.b = 0x0#5 then some (.sqStat r.d r.a)
  else none

/-- Major 0x14 (R280; R328). -/
def decodeMajor14 (r : Raw32) : Option Instr :=
  if r.f7 = 0x0#7 then some (.padd r.d r.a r.b r.f3)
  else if r.f7 = 0x1#7 then some (.psub r.d r.a r.b r.f3)
  else if r.f7 = 0x2#7 then some (.padds r.d r.a r.b r.f3)
  else if r.f7 = 0x3#7 then some (.psubs r.d r.a r.b r.f3)
  else if r.f7 = 0x4#7 then some (.pmul r.d r.a r.b r.f3)
  else if r.f7 = 0x5#7 then some (.pmulh r.d r.a r.b r.f3)
  else if r.f7 = 0x6#7 then some (.pmin r.d r.a r.b r.f3)
  else if r.f7 = 0x7#7 then some (.pmax r.d r.a r.b r.f3)
  else if r.f7 = 0x8#7 ∧ r.b = 0x0#5 then some (.pabs r.d r.a r.f3)
  else if r.f7 = 0x9#7 then some (.pavg r.d r.a r.b r.f3)
  else if r.f7 = 0xA#7 then some (.pcmpEq r.d r.a r.b r.f3)
  else if r.f7 = 0xB#7 then some (.pcmpLt r.d r.a r.b r.f3)
  else if r.f7 = 0xC#7 then some (.pcmpLe r.d r.a r.b r.f3)
  else none

/-- Major 0x15 (R280; R329, R330). -/
def decodeMajor15 (r : Raw32) : Option Instr :=
  if r.f3 = 0x0#3 ∧ r.f7.extractLsb' 3 4 = 0x0#4 then some (.pdot r.d r.a r.b (r.f7.extractLsb' 0 3))
  else if r.f3 = 0x1#3 ∧ r.f7 = 0x0#7 then some (.pshf r.d r.a r.b)
  else if r.f3 = 0x2#3 ∧ r.f7.extractLsb' 3 4 = 0x0#4 then some (.ppk r.d r.a r.b (r.f7.extractLsb' 0 3))
  else if r.f3 = 0x3#3 ∧ r.f7.extractLsb' 4 3 = 0x0#3 ∧ r.b = 0x0#5 then some (.pup r.d r.a (r.f7.extractLsb' 3 1) (r.f7.extractLsb' 0 3))
  else if r.f3 = 0x4#3 ∧ r.f7.extractLsb' 3 4 = 0x0#4 then some (.pbc r.d r.a r.b (r.f7.extractLsb' 0 3))
  else if r.f3 = 0x5#3 ∧ r.f7.extractLsb' 5 2 = 0x0#2 then some (.psel r.d r.a r.b (r.f7.extractLsb' 0 5))
  else none

/-- Major 0x16 (R280; R331). -/
def decodeMajor16 (r : Raw32) : Option Instr :=
  if True then some (.fli r.d (r.f7 ++ (r.b ++ r.a.extractLsb' 1 4)) (r.a.extractLsb' 0 1) r.f3)
  else none

/-- Major 0x17 (R280; R332, R334). -/
def decodeMajor17 (r : Raw32) : Option Instr :=
  if r.f3 = 0x4#3 then some (.fsum r.d r.a r.b (r.f7.extractLsb' 3 4) (r.f7.extractLsb' 0 3))
  else if r.f7 = 0x28#7 ∧ r.b = 0x0#5 then some (.fneg r.d r.a r.f3)
  else if r.f7 = 0x30#7 ∧ r.b = 0x0#5 then some (.fabs r.d r.a r.f3)
  else if r.f7 = 0x18#7 then some (.fmin r.d r.a r.b r.f3)
  else if r.f7 = 0x20#7 then some (.fmax r.d r.a r.b r.f3)
  else if r.f7 = 0x38#7 then some (.fcmpEq r.d r.a r.b r.f3)
  else if r.f7 = 0x40#7 then some (.fcmpLt r.d r.a r.b r.f3)
  else if r.f7 = 0x48#7 then some (.fcmpLe r.d r.a r.b r.f3)
  else if r.f7.extractLsb' 3 4 = 0x0#4 then some (.fadd r.d r.a r.b (r.f7.extractLsb' 0 3) r.f3)
  else if r.f7.extractLsb' 3 4 = 0x1#4 then some (.fsub r.d r.a r.b (r.f7.extractLsb' 0 3) r.f3)
  else if r.f7.extractLsb' 3 4 = 0x2#4 then some (.fmul r.d r.a r.b (r.f7.extractLsb' 0 3) r.f3)
  else none

/-- Major 0x18 (R280; R335). -/
def decodeMajor18 (r : Raw32) : Option Instr :=
  if r.f7.extractLsb' 5 2 = 0x0#2 then some (.fma r.d r.a r.b (r.f7.extractLsb' 0 5) r.f3)
  else if r.f7.extractLsb' 5 2 = 0x1#2 then some (.fms r.d r.a r.b (r.f7.extractLsb' 0 5) r.f3)
  else none

/-- Major 0x19 (R280; R336, R337, R338, R339). -/
def decodeMajor19 (r : Raw32) : Option Instr :=
  if r.f3 = 0x0#3 ∧ r.f7.extractLsb' 3 1 = 0x0#1 ∧ r.b.extractLsb' 3 2 = 0x0#2 then some (.fcvt r.d r.a (r.f7.extractLsb' 4 3) (r.f7.extractLsb' 0 3) (r.b.extractLsb' 0 3))
  else if r.f3 = 0x1#3 ∧ r.b.extractLsb' 3 2 = 0x0#2 then some (.icvt r.d r.a (r.f7.extractLsb' 6 1) (r.f7.extractLsb' 3 3) (r.f7.extractLsb' 0 3) (r.b.extractLsb' 0 3))
  else if r.f3 = 0x2#3 ∧ r.f7.extractLsb' 3 4 = 0x0#4 ∧ r.b = 0x0#5 then some (.fcls r.d r.a (r.f7.extractLsb' 0 3))
  else if r.f3 = 0x3#3 ∧ r.f7.extractLsb' 5 2 = 0x0#2 then some (.okey r.d r.a r.b (r.f7.extractLsb' 4 1) (r.f7.extractLsb' 0 4))
  else none

/-- Major 0x1A (R280; R340, R341). -/
def decodeMajor1A (r : Raw32) : Option Instr :=
  if r.f3 = 0x0#3 ∧ r.f7.extractLsb' 1 6 = 0x0#6 then some (.dl2 r.d r.a r.b (r.f7.extractLsb' 0 1))
  else if r.f3 = 0x1#3 ∧ r.f7.extractLsb' 1 6 = 0x0#6 then some (.dip r.d r.a r.b (r.f7.extractLsb' 0 1))
  else if r.f3 = 0x1#3 ∧ r.f7 = 0x2#7 then some (.dipE4m3 r.d r.a r.b)
  else if r.f3 = 0x2#3 ∧ r.f7 = 0x0#7 then some (.dham r.d r.a r.b)
  else if r.f3 = 0x3#3 ∧ r.f7.extractLsb' 1 6 = 0x0#6 then some (.dcb r.d r.a r.b (r.f7.extractLsb' 0 1))
  else none

/-- Major 0x1B (R280; R342). -/
def decodeMajor1B (r : Raw32) : Option Instr :=
  if r.f7.extractLsb' 3 4 = 0x0#4 ∧ r.b = 0x0#5 then some (.sfuRcp r.d r.a (r.f7.extractLsb' 0 3) (r.f3.extractLsb' 2 1) (r.f3.extractLsb' 0 2))
  else if r.f7.extractLsb' 3 4 = 0x1#4 ∧ r.b = 0x0#5 then some (.sfuRsqrt r.d r.a (r.f7.extractLsb' 0 3) (r.f3.extractLsb' 2 1) (r.f3.extractLsb' 0 2))
  else if r.f7.extractLsb' 3 4 = 0x2#4 ∧ r.b = 0x0#5 then some (.sfuSqrt r.d r.a (r.f7.extractLsb' 0 3) (r.f3.extractLsb' 2 1) (r.f3.extractLsb' 0 2))
  else if r.f7.extractLsb' 3 4 = 0x3#4 ∧ r.b = 0x0#5 then some (.sfuExp2 r.d r.a (r.f7.extractLsb' 0 3) (r.f3.extractLsb' 2 1) (r.f3.extractLsb' 0 2))
  else if r.f7.extractLsb' 3 4 = 0x4#4 ∧ r.b = 0x0#5 then some (.sfuLog2 r.d r.a (r.f7.extractLsb' 0 3) (r.f3.extractLsb' 2 1) (r.f3.extractLsb' 0 2))
  else if r.f7.extractLsb' 3 4 = 0x5#4 ∧ r.b = 0x0#5 then some (.sfuExp r.d r.a (r.f7.extractLsb' 0 3) (r.f3.extractLsb' 2 1) (r.f3.extractLsb' 0 2))
  else if r.f7.extractLsb' 3 4 = 0x6#4 ∧ r.b = 0x0#5 then some (.sfuLn r.d r.a (r.f7.extractLsb' 0 3) (r.f3.extractLsb' 2 1) (r.f3.extractLsb' 0 2))
  else if r.f7.extractLsb' 3 4 = 0x7#4 ∧ r.b = 0x0#5 then some (.sfuSinpi r.d r.a (r.f7.extractLsb' 0 3) (r.f3.extractLsb' 2 1) (r.f3.extractLsb' 0 2))
  else if r.f7.extractLsb' 3 4 = 0x8#4 ∧ r.b = 0x0#5 then some (.sfuCospi r.d r.a (r.f7.extractLsb' 0 3) (r.f3.extractLsb' 2 1) (r.f3.extractLsb' 0 2))
  else if r.f7.extractLsb' 3 4 = 0x9#4 ∧ r.b = 0x0#5 then some (.sfuTanh r.d r.a (r.f7.extractLsb' 0 3) (r.f3.extractLsb' 2 1) (r.f3.extractLsb' 0 2))
  else if r.f7.extractLsb' 3 4 = 0xA#4 ∧ r.b = 0x0#5 then some (.sfuSigm r.d r.a (r.f7.extractLsb' 0 3) (r.f3.extractLsb' 2 1) (r.f3.extractLsb' 0 2))
  else none

/-- Major 0x1C (R280; R351, R352, R353, R354). -/
def decodeMajor1C (r : Raw32) : Option Instr :=
  if r.f3 = 0x0#3 then some (.mma r.a r.b r.d (r.f7.extractLsb' 3 4) (r.f7.extractLsb' 0 3))
  else if r.f3 = 0x1#3 then some (.mmas r.a r.b r.d (r.f7.extractLsb' 3 4) (r.f7.extractLsb' 0 3))
  else if r.f3 = 0x2#3 ∧ r.f7.extractLsb' 5 2 = 0x0#2 then some (.mmcb r.a r.b r.d (r.f7.extractLsb' 3 2) (r.f7.extractLsb' 0 3))
  else if r.f3 = 0x3#3 then some (.mmr r.a r.b r.d (r.f7.extractLsb' 3 4) (r.f7.extractLsb' 0 3))
  else none

/-- Major 0x1D (R280; R358, R359, R360, R361). -/
def decodeMajor1D (r : Raw32) : Option Instr :=
  if r.f3 = 0x0#3 ∧ r.f7.extractLsb' 4 3 = 0x0#3 then some (.mld r.a r.b r.d (r.f7.extractLsb' 3 1) (r.f7.extractLsb' 0 3))
  else if r.f3 = 0x1#3 ∧ r.f7.extractLsb' 4 3 = 0x0#3 then some (.mst r.a r.b r.d (r.f7.extractLsb' 3 1) (r.f7.extractLsb' 0 3))
  else if r.f3 = 0x2#3 ∧ r.b = 0x0#5 ∧ r.a = 0x0#5 then some (.mzero r.d (r.f7.extractLsb' 3 4) (r.f7.extractLsb' 0 3))
  else if r.f3 = 0x3#3 ∧ r.b = 0x0#5 then some (.manc r.a r.d (r.f7.extractLsb' 3 4) (r.f7.extractLsb' 0 3))
  else if r.f3 = 0x4#3 ∧ r.b = 0x0#5 then some (.mscl r.a r.d (r.f7.extractLsb' 3 4) (r.f7.extractLsb' 0 3))
  else if r.f3 = 0x5#3 ∧ r.f7.extractLsb' 3 4 = 0x0#4 ∧ r.b = 0x0#5 then some (.mcbt r.a (r.f7.extractLsb' 0 3) r.d)
  else if r.f3 = 0x6#3 then some (.mfin r.a r.b r.d (r.f7.extractLsb' 3 4) (r.f7.extractLsb' 0 3))
  else none

/-- Major 0x1E (R280; R363, R365). -/
def decodeMajor1E (r : Raw32) : Option Instr :=
  if r.f3 = 0x0#3 ∧ r.f7.extractLsb' 3 4 = 0x0#4 ∧ r.b = 0x0#5 ∧ r.a = 0x0#5 then some (.mseq r.d (r.f7.extractLsb' 0 3))
  else if r.f3 = 0x1#3 ∧ r.f7.extractLsb' 3 4 = 0x0#4 ∧ r.b = 0x0#5 ∧ r.d = 0x0#5 then some (.mwait r.a (r.f7.extractLsb' 0 3))
  else if r.f3 = 0x1#3 ∧ r.f7.extractLsb' 3 4 = 0x1#4 ∧ r.b = 0x0#5 ∧ r.a = 0x0#5 ∧ r.d = 0x0#5 then some (.mwaitAll (r.f7.extractLsb' 0 3))
  else if r.f3 = 0x2#3 ∧ r.f7.extractLsb' 3 4 = 0x0#4 ∧ r.b = 0x0#5 ∧ r.a = 0x0#5 then some (.mprogRd r.d (r.f7.extractLsb' 0 3))
  else if r.f3 = 0x2#3 ∧ r.f7.extractLsb' 3 4 = 0x1#4 ∧ r.b = 0x0#5 ∧ r.a = 0x0#5 ∧ r.d = 0x0#5 then some (.mprogGo (r.f7.extractLsb' 0 3))
  else if r.f3 = 0x2#3 ∧ r.f7.extractLsb' 3 4 = 0x2#4 ∧ r.b = 0x0#5 ∧ r.a = 0x0#5 ∧ r.d = 0x0#5 then some (.mprogCancel (r.f7.extractLsb' 0 3))
  else none

/-- Major 0x1F (R280; R370, R371, R372). -/
def decodeMajor1F (r : Raw32) : Option Instr :=
  if r.f3 = 0x0#3 ∧ r.f7.extractLsb' 3 4 = 0x0#4 ∧ r.b = 0x0#5 then some (.rnsf r.d r.a (r.f7.extractLsb' 0 3))
  else if r.f3 = 0x1#3 ∧ r.f7.extractLsb' 3 4 = 0x0#4 ∧ r.b = 0x0#5 then some (.rnsr r.d r.a (r.f7.extractLsb' 0 3))
  else if r.f3 = 0x2#3 ∧ r.f7.extractLsb' 3 4 = 0x0#4 then some (.rnsadd r.d r.a r.b (r.f7.extractLsb' 0 3))
  else if r.f3 = 0x2#3 ∧ r.f7.extractLsb' 3 4 = 0x1#4 then some (.rnsaddSub r.d r.a r.b (r.f7.extractLsb' 0 3))
  else if r.f3 = 0x3#3 ∧ r.f7.extractLsb' 3 4 = 0x0#4 then some (.rnsmul r.d r.a r.b (r.f7.extractLsb' 0 3))
  else if r.f3 = 0x4#3 ∧ r.f7.extractLsb' 3 4 = 0x0#4 ∧ r.b = 0x0#5 then some (.rnschk r.d r.a (r.f7.extractLsb' 0 3))
  else if r.f3 = 0x5#3 ∧ r.f7.extractLsb' 3 4 = 0x0#4 then some (.rnsmap r.d r.a r.b (r.f7.extractLsb' 0 3))
  else none

/-- Major 0x20 (R280; R376, R377). -/
def decodeMajor20 (r : Raw32) : Option Instr :=
  if r.f3 = 0x0#3 ∧ r.f7 = 0x0#7 then some (.send r.d r.a r.b)
  else if r.f3 = 0x1#3 ∧ r.f7.extractLsb' 5 2 = 0x0#2 then some (.sendm r.d r.a r.b (r.f7.extractLsb' 0 5))
  else none

/-- Major 0x21 (R280; R380, R381, R382). -/
def decodeMajor21 (r : Raw32) : Option Instr :=
  if r.f3 = 0x0#3 ∧ r.f7.extractLsb' 5 2 = 0x0#2 ∧ r.b = 0x0#5 then some (.lndGet r.d r.a (r.f7.extractLsb' 4 1) (r.f7.extractLsb' 0 4))
  else if r.f3 = 0x1#3 ∧ r.f7.extractLsb' 5 2 = 0x0#2 ∧ r.b = 0x0#5 then some (.lndPeek r.d r.a (r.f7.extractLsb' 4 1) (r.f7.extractLsb' 0 4))
  else if r.f3 = 0x2#3 ∧ r.f7 = 0x0#7 ∧ r.b = 0x0#5 ∧ r.a = 0x0#5 then some (.lndCnt r.d)
  else if r.f3 = 0x3#3 ∧ r.f7 = 0x0#7 then some (.waitSeq r.d r.a r.b)
  else none

/-- Major 0x22 (R280; R383, R384, R385, R386). -/
def decodeMajor22 (r : Raw32) : Option Instr :=
  if r.f3 = 0x0#3 ∧ r.f7 = 0x0#7 ∧ r.b = 0x0#5 then some (.mig r.d r.a)
  else if r.f3 = 0x1#3 ∧ r.f7 = 0x0#7 ∧ r.b = 0x0#5 then some (.spawn r.d r.a)
  else if r.f3 = 0x2#3 ∧ r.f7 = 0x0#7 ∧ r.b = 0x0#5 then some (.yield r.d r.a)
  else if r.f3 = 0x3#3 ∧ r.f7 = 0x0#7 ∧ r.b = 0x0#5 ∧ r.a = 0x0#5 ∧ r.d = 0x0#5 then some (.endThread)
  else none

/-- Major 0x23 (R280; R387, R388, R389). -/
def decodeMajor23 (r : Raw32) : Option Instr :=
  if r.f3 = 0x0#3 ∧ r.f7 = 0x0#7 ∧ r.b = 0x0#5 ∧ r.d = 0x0#5 then some (.crewNew r.a)
  else if r.f3 = 0x1#3 ∧ r.f7 = 0x0#7 ∧ r.b = 0x0#5 ∧ r.d = 0x0#5 then some (.crewJoin r.a)
  else if r.f3 = 0x2#3 ∧ r.f7 = 0x0#7 ∧ r.b = 0x0#5 ∧ r.d = 0x0#5 then some (.crewLeave r.a)
  else if r.f3 = 0x3#3 ∧ r.f7 = 0x0#7 ∧ r.b = 0x0#5 ∧ r.d = 0x0#5 then some (.crewDel r.a)
  else if r.f3 = 0x4#3 ∧ r.f7 = 0x0#7 ∧ r.d = 0x0#5 then some (.barInit r.a r.b)
  else if r.f3 = 0x5#3 ∧ r.f7 = 0x0#7 ∧ r.b = 0x0#5 then some (.barArrive r.d r.a)
  else if r.f3 = 0x5#3 ∧ r.f7 = 0x1#7 ∧ r.b = 0x0#5 then some (.barDrop r.d r.a)
  else if r.f3 = 0x6#3 ∧ r.f7 = 0x0#7 ∧ r.d = 0x0#5 then some (.barWait r.a r.b)
  else none

/-- Major 0x24 (R280; R390, R391, R392). -/
noncomputable def decodeMajor24 (r : Raw32) : Option Instr :=
  if r.f3 = 0x0#3 ∧ r.f7 = 0x0#7 then some (.semPost r.d r.a r.b)
  else if r.f3 = 0x1#3 ∧ r.f7 = 0x0#7 ∧ r.b = 0x0#5 then some (.semWait r.d r.a)
  else if r.f3 = 0x2#3 ∧ r.f7 = 0x0#7 ∧ r.b = 0x0#5 then some (.chanPut r.a r.d)
  else if r.f3 = 0x3#3 ∧ r.f7 = 0x0#7 ∧ r.b = 0x0#5 then some (.chanGet r.d r.a)
  else if r.f3 = 0x4#3 ∧ r.f7 = 0x0#7 then some (.recast r.d r.a r.b)
  else none

/-- Major 0x25 (R280; R393, R394, R395, R396). -/
noncomputable def decodeMajor25 (r : Raw32) : Option Instr :=
  if r.f3 = 0x0#3 ∧ r.f7 = 0x0#7 ∧ r.b = 0x0#5 ∧ r.a = 0x0#5 then some (.nalloc r.d)
  else if r.f3 = 0x1#3 ∧ r.f7 = 0x0#7 ∧ r.b = 0x0#5 ∧ r.d = 0x0#5 then some (.nfree r.a)
  else if r.f3 = 0x2#3 ∧ r.f7 = 0x0#7 then some (.link r.d r.a r.b)
  else if r.f3 = 0x3#3 ∧ r.f7 = 0x0#7 ∧ r.d = 0x0#5 then some (.pair r.a r.b)
  else none

/-- Major 0x26 (R280; R397, R398, R399). -/
noncomputable def decodeMajor26 (r : Raw32) : Option Instr :=
  if r.f3 = 0x0#3 ∧ r.f7 = 0x0#7 ∧ r.b = 0x0#5 then some (.nread r.d r.a)
  else if r.f3 = 0x1#3 ∧ r.f7 = 0x0#7 then some (.nhdr r.d r.a r.b)
  else if r.f3 = 0x2#3 ∧ r.f7 = 0x0#7 ∧ r.b = 0x0#5 then some (.prefInc r.d r.a)
  else if r.f3 = 0x2#3 ∧ r.f7 = 0x1#7 ∧ r.b = 0x0#5 then some (.prefDec r.d r.a)
  else none

/-- Major 0x28 (R280; R402, R403, R404, R405). -/
noncomputable def decodeMajor28 (r : Raw32) : Option Instr :=
  if r.f3 = 0x0#3 ∧ r.f7 = 0x0#7 ∧ r.b = 0x0#5 then some (.yrdCopy r.d r.a)
  else if r.f3 = 0x1#3 ∧ r.f7 = 0x0#7 ∧ r.b = 0x0#5 then some (.yrdGath r.d r.a)
  else if r.f3 = 0x2#3 ∧ r.f7 = 0x0#7 ∧ r.b = 0x0#5 then some (.yrdScat r.d r.a)
  else if r.f3 = 0x3#3 ∧ r.f7 = 0x0#7 ∧ r.b = 0x0#5 then some (.yrdFill r.d r.a)
  else if r.f3 = 0x4#3 ∧ r.f7 = 0x0#7 ∧ r.b = 0x0#5 then some (.yrdFar r.d r.a)
  else if r.f3 = 0x5#3 ∧ r.f7 = 0x0#7 then some (.yrdChan r.d r.a r.b)
  else if r.f3 = 0x6#3 ∧ r.f7 = 0x0#7 ∧ r.b = 0x0#5 then some (.yrdWm r.d r.a)
  else if r.f3 = 0x7#3 ∧ r.f7 = 0x0#7 ∧ r.b = 0x0#5 then some (.yrdStop r.d r.a)
  else none

/-- Major 0x29 (R280; R406, R407, R408). -/
noncomputable def decodeMajor29 (r : Raw32) : Option Instr :=
  if r.f3 = 0x0#3 ∧ r.f7 = 0x0#7 ∧ r.d = 0x0#5 then some (.grdCfg r.a r.b)
  else if r.f3 = 0x1#3 ∧ r.f7 = 0x0#7 ∧ r.d = 0x0#5 then some (.grdIn r.a r.b)
  else if r.f3 = 0x2#3 ∧ r.f7 = 0x0#7 then some (.grdOutKeep r.d r.a r.b)
  else if r.f3 = 0x2#3 ∧ r.f7 = 0x1#7 then some (.grdOutFin r.d r.a r.b)
  else none

/-- Major 0x2A (R280; R402, R409). -/
noncomputable def decodeMajor2A (r : Raw32) : Option Instr :=
  if r.f3 = 0x0#3 ∧ r.f7 = 0x0#7 ∧ r.b = 0x0#5 then some (.mark r.d r.a)
  else if r.f3 = 0x1#3 ∧ r.f7 = 0x0#7 ∧ r.b = 0x0#5 ∧ r.a = 0x0#5 then some (.markSt r.d)
  else none

/-- Major 0x2B (R280; R410, R411, R412, R413, R414). -/
noncomputable def decodeMajor2B (r : Raw32) : Option Instr :=
  if r.f3 = 0x0#3 ∧ r.f7 = 0x0#7 ∧ r.d = 0x0#5 then some (.smpInj r.a r.b)
  else if r.f3 = 0x1#3 ∧ r.f7 = 0x0#7 ∧ r.b = 0x0#5 then some (.smpResW r.d r.a)
  else if r.f3 = 0x1#3 ∧ r.f7 = 0x1#7 ∧ r.b = 0x0#5 then some (.smpResNw r.d r.a)
  else if r.f3 = 0x1#3 ∧ r.f7 = 0x2#7 then some (.smpResCfg r.d r.a r.b)
  else if r.f3 = 0x2#3 ∧ r.f7.extractLsb' 2 5 = 0x0#5 then some (.gnz r.d r.a r.b (r.f7.extractLsb' 1 1) (r.f7.extractLsb' 0 1))
  else if r.f3 = 0x3#3 ∧ r.f7 = 0x0#7 then some (.rng r.d r.a r.b)
  else none

/-- Major 0x30 (R280; R415). -/
noncomputable def decodeMajor30 (r : Raw32) : Option Instr :=
  if r.f3 = 0x0#3 ∧ r.f7 = 0x0#7 ∧ r.b = 0x0#5 ∧ r.d = 0x0#5 then some (.trap r.a)
  else if r.f3 = 0x2#3 ∧ r.f7 = 0x0#7 ∧ r.b = 0x0#5 ∧ r.d = 0x0#5 then some (.sysc r.a)
  else if r.f3 = 0x1#3 ∧ r.f7 = 0x0#7 ∧ r.b = 0x0#5 ∧ r.a = 0x0#5 ∧ r.d = 0x0#5 then some (.tret)
  else none

/-- Major 0x31 (R280; R416). -/
noncomputable def decodeMajor31 (r : Raw32) : Option Instr :=
  if r.f3 = 0x0#3 ∧ r.b = 0x0#5 ∧ r.a = 0x0#5 then some (.srd r.d r.f7)
  else if r.f3 = 0x1#3 ∧ r.b = 0x0#5 then some (.swr r.d r.a r.f7)
  else none

/-- Major 0x32 (R280; R417, R418, R419, R420, R421). -/
noncomputable def decodeMajor32 (r : Raw32) : Option Instr :=
  if r.f3 = 0x0#3 ∧ r.f7 = 0x0#7 ∧ r.b = 0x0#5 then some (.tkill r.d r.a)
  else if r.f3 = 0x1#3 ∧ r.f7 = 0x0#7 ∧ r.b = 0x0#5 then some (.tscrub r.d r.a)
  else if r.f3 = 0x2#3 ∧ r.f7 = 0x0#7 ∧ r.b = 0x0#5 then some (.winMap r.d r.a)
  else if r.f3 = 0x3#3 ∧ r.f7 = 0x0#7 ∧ r.b = 0x0#5 then some (.winRd r.d r.a)
  else if r.f3 = 0x4#3 ∧ r.f7 = 0x0#7 then some (.winWr r.d r.a r.b)
  else if r.f3 = 0x5#3 ∧ r.f7 = 0x0#7 ∧ r.d = 0x0#5 then some (.eccInj r.a r.b)
  else if r.f3 = 0x6#3 ∧ r.f7 = 0x0#7 ∧ r.d = 0x0#5 then some (.tlbInv r.a r.b)
  else if r.f3 = 0x7#3 ∧ r.f7 = 0x0#7 then some (.halt r.d r.a r.b)
  else none

/-- Major 0x33 (R280; R422). -/
noncomputable def decodeMajor33 (r : Raw32) : Option Instr :=
  if r.f3 = 0x0#3 ∧ r.f7 = 0x0#7 ∧ r.b = 0x0#5 ∧ r.a = 0x0#5 then some (.cyc r.d)
  else if r.f3 = 0x1#3 ∧ r.f7 = 0x0#7 ∧ r.b = 0x0#5 ∧ r.a = 0x0#5 then some (.tsc r.d)
  else none

/-- The row of the opcode map that a 32-bit word matches, before the restrictions of R287 items 4 and 5. -/
noncomputable def decodeRaw32 (r : Raw32) : Except DecodeError Instr :=
  let row : Except DecodeError (Option Instr) :=
    if r.op = 0x3#7 then .ok (decodeMajor01 r)
    else if r.op = 0x5#7 then .ok (decodeMajor02 r)
    else if r.op = 0x7#7 then .ok (decodeMajor03 r)
    else if r.op = 0x9#7 then .ok (decodeMajor04 r)
    else if r.op = 0xB#7 then .ok (decodeMajor05 r)
    else if r.op = 0xD#7 then .ok (decodeMajor06 r)
    else if r.op = 0xF#7 then .ok (decodeMajor07 r)
    else if r.op = 0x11#7 then .ok (decodeMajor08 r)
    else if r.op = 0x13#7 then .ok (decodeMajor09 r)
    else if r.op = 0x15#7 then .ok (decodeMajor0A r)
    else if r.op = 0x17#7 then .ok (decodeMajor0B r)
    else if r.op = 0x19#7 then .ok (decodeMajor0C r)
    else if r.op = 0x1B#7 then .ok (decodeMajor0D r)
    else if r.op = 0x1D#7 then .ok (decodeMajor0E r)
    else if r.op = 0x1F#7 then .ok (decodeMajor0F r)
    else if r.op = 0x21#7 then .ok (decodeMajor10 r)
    else if r.op = 0x23#7 then .ok (decodeMajor11 r)
    else if r.op = 0x25#7 then .ok (decodeMajor12 r)
    else if r.op = 0x29#7 then .ok (decodeMajor14 r)
    else if r.op = 0x2B#7 then .ok (decodeMajor15 r)
    else if r.op = 0x2D#7 then .ok (decodeMajor16 r)
    else if r.op = 0x2F#7 then .ok (decodeMajor17 r)
    else if r.op = 0x31#7 then .ok (decodeMajor18 r)
    else if r.op = 0x33#7 then .ok (decodeMajor19 r)
    else if r.op = 0x35#7 then .ok (decodeMajor1A r)
    else if r.op = 0x37#7 then .ok (decodeMajor1B r)
    else if r.op = 0x39#7 then .ok (decodeMajor1C r)
    else if r.op = 0x3B#7 then .ok (decodeMajor1D r)
    else if r.op = 0x3D#7 then .ok (decodeMajor1E r)
    else if r.op = 0x3F#7 then .ok (decodeMajor1F r)
    else if r.op = 0x41#7 then .ok (decodeMajor20 r)
    else if r.op = 0x43#7 then .ok (decodeMajor21 r)
    else if r.op = 0x45#7 then .ok (decodeMajor22 r)
    else if r.op = 0x47#7 then .ok (decodeMajor23 r)
    else if r.op = 0x49#7 then .ok (decodeMajor24 r)
    else if r.op = 0x4B#7 then .ok (decodeMajor25 r)
    else if r.op = 0x4D#7 then .ok (decodeMajor26 r)
    else if r.op = 0x51#7 then .ok (decodeMajor28 r)
    else if r.op = 0x53#7 then .ok (decodeMajor29 r)
    else if r.op = 0x55#7 then .ok (decodeMajor2A r)
    else if r.op = 0x57#7 then .ok (decodeMajor2B r)
    else if r.op = 0x61#7 then .ok (decodeMajor30 r)
    else if r.op = 0x63#7 then .ok (decodeMajor31 r)
    else if r.op = 0x65#7 then .ok (decodeMajor32 r)
    else if r.op = 0x67#7 then .ok (decodeMajor33 r)
    else .error .reservedMajor
  match row with
  | .error e => .error e
  | .ok none => .error .unlistedFunction
  | .ok (some i) => if i.wf then .ok i else .error .illegalField

/-- The row of R283 that a halfword matches. -/
noncomputable def rowRaw16 (r : Raw16) : Option Instr :=
  if r.op = 0x2#6 then some (.c16Add r.mid r.hi)
  else if r.op = 0x4#6 then some (.c16Sub r.mid r.hi)
  else if r.op = 0x6#6 then some (.c16And r.mid r.hi)
  else if r.op = 0x8#6 then some (.c16Or r.mid r.hi)
  else if r.op = 0xA#6 then some (.c16Xor r.mid r.hi)
  else if r.op = 0xC#6 then some (.c16Move r.mid r.hi)
  else if r.op = 0xE#6 then some (.c16Mul r.mid r.hi)
  else if r.op = 0x10#6 then some (.c16Ld r.mid r.hi)
  else if r.op = 0x12#6 then some (.c16St r.mid r.hi)
  else if r.op = 0x14#6 then some (.c16Addi r.mid r.hi)
  else if r.op = 0x16#6 then some (.c16Li r.mid r.hi)
  else if r.op = 0x18#6 then some (.c16Shli r.mid r.hi)
  else if r.op = 0x1A#6 then some (.c16Shri r.mid r.hi)
  else if r.op = 0x1C#6 then some (.c16Sari r.mid r.hi)
  else if r.op = 0x1E#6 then some (.c16Andi r.mid r.hi)
  else if r.op = 0x20#6 then some (.c16LdX2 r.mid r.hi)
  else if r.op = 0x22#6 then some (.c16StX2 r.mid r.hi)
  else if r.op = 0x24#6 then some (.c16LdX3 r.mid r.hi)
  else if r.op = 0x26#6 then some (.c16StX3 r.mid r.hi)
  else if r.op = 0x28#6 then some (.c16Addi16 r.mid r.hi)
  else if r.op = 0x2A#6 then some (.c16Bz r.mid r.hi)
  else if r.op = 0x2C#6 then some (.c16Bnz r.mid r.hi)
  else if r.op = 0x2E#6 then some (.c16J (r.hi ++ r.mid))
  else if r.op = 0x30#6 then some (.c16Jal (r.hi ++ r.mid))
  else if r.op = 0x32#6 ∧ r.hi = 0x0#5 then some (.c16Jr r.mid)
  else if r.op = 0x34#6 ∧ r.hi = 0x0#5 then some (.c16Jalr r.mid)
  else if r.op = 0x3E#6 then some (.pfx (r.hi ++ r.mid))
  else if r.op = 0x36#6 ∧ r.hi = 0x0#5 ∧ r.mid = 0x0#5 then some (.c16Ret)
  else if r.op = 0x38#6 ∧ r.hi = 0x0#5 ∧ r.mid = 0x0#5 then some (.c16Save)
  else if r.op = 0x3A#6 ∧ r.hi = 0x0#5 ∧ r.mid = 0x0#5 then some (.c16Restore)
  else if r.op = 0x3C#6 ∧ r.hi = 0x0#5 ∧ r.mid = 0x0#5 then some (.c16Nop)
  else none

/-- A 16-bit instruction (R282-R285). -/
noncomputable def decodeRaw16 (r : Raw16) : Except DecodeError Instr :=
  if r.op = 0x0#6 then .error .reservedMajor
  else match rowRaw16 r with
  | none => .error .unlistedFunction
  | some i => if i.wf then .ok i else .error .illegalField

/-- Decode a 32-bit word. -/
noncomputable def decode32 (w : BitVec 32) : Except DecodeError Instr := decodeRaw32 (.ofWord w)

/-- Decode a halfword. -/
noncomputable def decode16 (w : BitVec 16) : Except DecodeError Instr := decodeRaw16 (.ofHalf w)

/-- R274: bit 0 of the first halfword tells a 32-bit instruction. -/
def isLong (h : BitVec 16) : Bool := h.getLsbD 0

/-- Decode from bytes as stored, little-endian (R274): the instruction and its length in bytes. -/
noncomputable def decode : List (BitVec 8) → Except DecodeError (Instr × Nat)
  | b0 :: b1 :: rest =>
    if isLong (b1 ++ b0) then
      match rest with
      | b2 :: b3 :: _ =>
        match decode32 (b3 ++ (b2 ++ (b1 ++ b0))) with
        | .ok i => .ok (i, 4)
        | .error e => .error e
      | _ => .error .pastEnd
    else
      match decode16 (b1 ++ b0) with
      | .ok i => .ok (i, 2)
      | .error e => .error e
  | _ => .error .pastEnd

/-- The encoding of an instruction: a 32-bit word, a halfword, or none for a step that has no encoding. -/
inductive Encoding where
  | long (r : Raw32)
  | short (r : Raw16)
  | noBits
  deriving DecidableEq, Repr

/-- The fields an instruction is encoded with (R276, R282 and the base words of the entries). -/
def Instr.encoding : Instr → Encoding
  | .bootImage _ => .noBits
  | .kick _ => .noBits
  | .consumedRegister _ => .noBits
  | .modeChangeComplete _ => .noBits
  | .launchStart _ => .noBits
  | .cruiseSweep _ => .noBits
  | .preEmptionDeadline _ => .noBits
  | .trapEntry _ => .noBits
  | .faultMessage _ => .noBits
  | .systemClassStart _ => .noBits
  | .threadStart _ => .noBits
  | .dispatchIntakeArrival _ => .noBits
  | .landingMessageArrival _ => .noBits
  | .migrationDepart _ => .noBits
  | .sendQueueDepart _ => .noBits
  | .pairRecordArrival _ => .noBits
  | .overflowRingRefill _ => .noBits
  | .pairPrepare _ => .noBits
  | .stealRequest _ => .noBits
  | .autoRecast _ => .noBits
  | .channelElementMove _ _ => .noBits
  | .bankRequest _ _ => .noBits
  | .homeAccess _ => .noBits
  | .windowAccessService _ => .noBits
  | .accessReply _ => .noBits
  | .postedStoreAck _ => .noBits
  | .postedStoreRefusal _ => .noBits
  | .flitArrival _ _ => .noBits
  | .pageWalkEnd _ => .noBits
  | .frameMigrating _ _ _ => .noBits
  | .frameCopyComplete _ => .noBits
  | .forwardingCommit _ => .noBits
  | .drainReport _ _ => .noBits
  | .footprintAccept _ => .noBits
  | .footprintDispatch _ _ => .noBits
  | .jobArrival _ _ => .noBits
  | .watermarkReport _ => .noBits
  | .jobCompletion _ => .noBits
  | .yarderKillReport _ _ => .noBits
  | .millAccept _ => .noBits
  | .millRowRead _ => .noBits
  | .millRetire _ => .noBits
  | .millPipeFault _ => .noBits
  | .sfuResult _ => .noBits
  | .pendingResultWrite _ => .noBits
  | .spillWord _ => .noBits
  | .streamReadAhead _ _ => .noBits
  | .reductionCombine _ _ => .noBits
  | .graderAccept _ => .noBits
  | .markJobRun _ => .noBits
  | .droopTrip _ _ => .noBits
  | .scalerConfig _ _ _ => .noBits
  | .illegalEncoding _ => .noBits
  | .pairSlotSend _ _ => .noBits
  | .elasticFifoDelivery _ _ => .noBits
  | .haltDeadline _ => .noBits
  | .intakeSlotWrite _ _ => .noBits
  | .add d a b => .long ⟨0x0#7, b, a, d, 0x0#3, 0x3#7⟩
  | .sub d a b => .long ⟨0x0#7, b, a, d, 0x1#3, 0x3#7⟩
  | .and d a b => .long ⟨0x0#7, b, a, d, 0x2#3, 0x3#7⟩
  | .or d a b => .long ⟨0x0#7, b, a, d, 0x3#3, 0x3#7⟩
  | .xor d a b => .long ⟨0x0#7, b, a, d, 0x4#3, 0x3#7⟩
  | .andn d a b => .long ⟨0x0#7, b, a, d, 0x5#3, 0x3#7⟩
  | .orn d a b => .long ⟨0x0#7, b, a, d, 0x6#3, 0x3#7⟩
  | .addi d a i => .long ⟨i.extractLsb' 5 7, i.extractLsb' 0 5, a, d, 0x0#3, 0x5#7⟩
  | .andi d a i => .long ⟨i.extractLsb' 5 7, i.extractLsb' 0 5, a, d, 0x1#3, 0x5#7⟩
  | .ori d a i => .long ⟨i.extractLsb' 5 7, i.extractLsb' 0 5, a, d, 0x2#3, 0x5#7⟩
  | .xori d a i => .long ⟨i.extractLsb' 5 7, i.extractLsb' 0 5, a, d, 0x3#3, 0x5#7⟩
  | .slti d a i => .long ⟨i.extractLsb' 5 7, i.extractLsb' 0 5, a, d, 0x4#3, 0x5#7⟩
  | .sltiN d a i => .long ⟨i.extractLsb' 5 7, i.extractLsb' 0 5, a, d, 0x5#3, 0x5#7⟩
  | .shl d a b => .long ⟨0x0#7, b, a, d, 0x0#3, 0x7#7⟩
  | .shr d a b => .long ⟨0x1#7, b, a, d, 0x0#3, 0x7#7⟩
  | .sar d a b => .long ⟨0x2#7, b, a, d, 0x0#3, 0x7#7⟩
  | .rotl d a b => .long ⟨0x3#7, b, a, d, 0x0#3, 0x7#7⟩
  | .rotr d a b => .long ⟨0x4#7, b, a, d, 0x0#3, 0x7#7⟩
  | .clz d a => .long ⟨0x0#7, 0x0#5, a, d, 0x1#3, 0x7#7⟩
  | .ctz d a => .long ⟨0x1#7, 0x0#5, a, d, 0x1#3, 0x7#7⟩
  | .popc d a => .long ⟨0x2#7, 0x0#5, a, d, 0x1#3, 0x7#7⟩
  | .brev d a => .long ⟨0x3#7, 0x0#5, a, d, 0x1#3, 0x7#7⟩
  | .bswap d a => .long ⟨0x4#7, 0x0#5, a, d, 0x1#3, 0x7#7⟩
  | .bfx d a b => .long ⟨0x0#7, b, a, d, 0x2#3, 0x7#7⟩
  | .bfxs d a b => .long ⟨0x1#7, b, a, d, 0x2#3, 0x7#7⟩
  | .bfi d a b => .long ⟨0x0#7, b, a, d, 0x3#3, 0x7#7⟩
  | .shli d a s => .long ⟨0x0#6 ++ s.extractLsb' 5 1, s.extractLsb' 0 5, a, d, 0x4#3, 0x7#7⟩
  | .shri d a s => .long ⟨0x0#6 ++ s.extractLsb' 5 1, s.extractLsb' 0 5, a, d, 0x5#3, 0x7#7⟩
  | .sari d a s => .long ⟨0x0#6 ++ s.extractLsb' 5 1, s.extractLsb' 0 5, a, d, 0x6#3, 0x7#7⟩
  | .mul d a b => .long ⟨0x0#7, b, a, d, 0x0#3, 0x9#7⟩
  | .mulh d a b => .long ⟨0x0#7, b, a, d, 0x1#3, 0x9#7⟩
  | .mulhN d a b => .long ⟨0x1#7, b, a, d, 0x1#3, 0x9#7⟩
  | .madd d a b c => .long ⟨0x0#2 ++ c, b, a, d, 0x2#3, 0x9#7⟩
  | .msub d a b c => .long ⟨0x0#2 ++ c, b, a, d, 0x3#3, 0x9#7⟩
  | .div d a b w => .long ⟨0x0#4 ++ w, b, a, d, 0x4#3, 0x9#7⟩
  | .divN d a b w => .long ⟨0x1#4 ++ w, b, a, d, 0x4#3, 0x9#7⟩
  | .rem d a b w => .long ⟨0x0#4 ++ w, b, a, d, 0x5#3, 0x9#7⟩
  | .remN d a b w => .long ⟨0x1#4 ++ w, b, a, d, 0x5#3, 0x9#7⟩
  | .li d k => .long ⟨k.extractLsb' 9 7, k.extractLsb' 4 5, k.extractLsb' 0 4 ++ 0x0#1, d, 0x0#3, 0xB#7⟩
  | .liN d k => .long ⟨k.extractLsb' 9 7, k.extractLsb' 4 5, k.extractLsb' 0 4 ++ 0x1#1, d, 0x0#3, 0xB#7⟩
  | .lih d k h => .long ⟨k.extractLsb' 9 7, k.extractLsb' 4 5, k.extractLsb' 0 4 ++ 0x0#1, d, 0x1#1 ++ h, 0xB#7⟩
  | .adr d o => .long ⟨o.extractLsb' 10 7, o.extractLsb' 5 5, o.extractLsb' 0 5, d, 0x0#3, 0xD#7⟩
  | .min d a b => .long ⟨0x0#7, b, a, d, 0x0#3, 0xF#7⟩
  | .minN d a b => .long ⟨0x1#7, b, a, d, 0x0#3, 0xF#7⟩
  | .max d a b => .long ⟨0x0#7, b, a, d, 0x1#3, 0xF#7⟩
  | .maxN d a b => .long ⟨0x1#7, b, a, d, 0x1#3, 0xF#7⟩
  | .slt d a b => .long ⟨0x0#7, b, a, d, 0x2#3, 0xF#7⟩
  | .sltN d a b => .long ⟨0x1#7, b, a, d, 0x2#3, 0xF#7⟩
  | .seq d a b => .long ⟨0x0#7, b, a, d, 0x3#3, 0xF#7⟩
  | .sel d a b c => .long ⟨0x0#2 ++ c, b, a, d, 0x4#3, 0xF#7⟩
  | .beq a b o => .long ⟨o.extractLsb' 5 7, b, a, o.extractLsb' 0 5, 0x0#3, 0x11#7⟩
  | .bne a b o => .long ⟨o.extractLsb' 5 7, b, a, o.extractLsb' 0 5, 0x1#3, 0x11#7⟩
  | .blt a b o => .long ⟨o.extractLsb' 5 7, b, a, o.extractLsb' 0 5, 0x2#3, 0x11#7⟩
  | .bge a b o => .long ⟨o.extractLsb' 5 7, b, a, o.extractLsb' 0 5, 0x3#3, 0x11#7⟩
  | .bz a o => .long ⟨o.extractLsb' 5 7, 0x0#5, a, o.extractLsb' 0 5, 0x4#3, 0x11#7⟩
  | .bnz a o => .long ⟨o.extractLsb' 5 7, 0x0#5, a, o.extractLsb' 0 5, 0x5#3, 0x11#7⟩
  | .bltN a b o => .long ⟨o.extractLsb' 5 7, b, a, o.extractLsb' 0 5, 0x6#3, 0x11#7⟩
  | .bgeN a b o => .long ⟨o.extractLsb' 5 7, b, a, o.extractLsb' 0 5, 0x7#3, 0x11#7⟩
  | .j o => .long ⟨o.extractLsb' 10 7, o.extractLsb' 5 5, o.extractLsb' 0 5, 0x0#5, 0x0#3, 0x13#7⟩
  | .jal d o => .long ⟨o.extractLsb' 10 7, o.extractLsb' 5 5, o.extractLsb' 0 5, d, 0x0#3, 0x15#7⟩
  | .jr a i => .long ⟨i.extractLsb' 5 7, i.extractLsb' 0 5, a, 0x0#5, 0x0#3, 0x17#7⟩
  | .jalr d a i => .long ⟨i.extractLsb' 5 7, i.extractLsb' 0 5, a, d, 0x1#3, 0x17#7⟩
  | .rep d i => .long ⟨i.extractLsb' 5 7, i.extractLsb' 0 5, 0x0#5, d, 0x5#3, 0x17#7⟩
  | .ld d a i w => .long ⟨i.extractLsb' 5 7, i.extractLsb' 0 5, a, d, 0x0#1 ++ w, 0x19#7⟩
  | .ldN d a i w => .long ⟨i.extractLsb' 5 7, i.extractLsb' 0 5, a, d, 0x1#1 ++ w, 0x19#7⟩
  | .ldAcq d a s w e o => .long ⟨s ++ (w ++ (e ++ o.extractLsb' 5 1)), o.extractLsb' 0 5, a, d, 0x7#3, 0x19#7⟩
  | .st a b i w => .long ⟨i.extractLsb' 5 7, b, a, i.extractLsb' 0 5, 0x0#1 ++ w, 0x1B#7⟩
  | .stRel a b s o w => .long ⟨s ++ o.extractLsb' 5 4, b, a, o.extractLsb' 0 5, 0x1#1 ++ w, 0x1B#7⟩
  | .ldp d a i => .long ⟨i.extractLsb' 5 7, i.extractLsb' 0 5, a, d, 0x0#3, 0x1D#7⟩
  | .stp a b i => .long ⟨i.extractLsb' 5 7, b, a, i.extractLsb' 0 5, 0x1#3, 0x1D#7⟩
  | .ldm d a e i => .long ⟨e ++ i.extractLsb' 5 2, i.extractLsb' 0 5, a, d, 0x0#3, 0x1F#7⟩
  | .stm a b e i => .long ⟨e ++ i.extractLsb' 5 2, b, a, i.extractLsb' 0 5, 0x1#3, 0x1F#7⟩
  | .amoAdd d a b w r s => .long ⟨w ++ (r ++ 0x0#4), b, a, d, s, 0x21#7⟩
  | .amoAnd d a b w r s => .long ⟨w ++ (r ++ 0x1#4), b, a, d, s, 0x21#7⟩
  | .amoOr d a b w r s => .long ⟨w ++ (r ++ 0x2#4), b, a, d, s, 0x21#7⟩
  | .amoXor d a b w r s => .long ⟨w ++ (r ++ 0x3#4), b, a, d, s, 0x21#7⟩
  | .amoMin d a b w r s => .long ⟨w ++ (r ++ 0x4#4), b, a, d, s, 0x21#7⟩
  | .amoMax d a b w r s => .long ⟨w ++ (r ++ 0x5#4), b, a, d, s, 0x21#7⟩
  | .amoNMin d a b w r s => .long ⟨w ++ (r ++ 0x6#4), b, a, d, s, 0x21#7⟩
  | .amoNMax d a b w r s => .long ⟨w ++ (r ++ 0x7#4), b, a, d, s, 0x21#7⟩
  | .amoXchg d a b w r s => .long ⟨w ++ (r ++ 0x8#4), b, a, d, s, 0x21#7⟩
  | .cas d a b c r => .long ⟨r ++ c, b, a, d, 0x7#3, 0x21#7⟩
  | .fence u s k => .long ⟨0x0#1 ++ (u ++ (s ++ k)), 0x0#5, 0x0#5, 0x0#5, 0x0#3, 0x23#7⟩
  | .lx d a e o w => .long ⟨e ++ o.extractLsb' 5 6, o.extractLsb' 0 5, a, d, 0x1#1 ++ w, 0x23#7⟩
  | .sqCfg q a i => .long ⟨i.extractLsb' 5 7, i.extractLsb' 0 5, a, q, 0x0#3, 0x25#7⟩
  | .sqBind q b => .long ⟨0x0#7, b, 0x0#5, q, 0x1#3, 0x25#7⟩
  | .sqOff q => .long ⟨0x0#7, 0x0#5, 0x0#5, q, 0x2#3, 0x25#7⟩
  | .sqWait q => .long ⟨0x0#7, 0x0#5, 0x0#5, q, 0x3#3, 0x25#7⟩
  | .sqStat d q => .long ⟨0x0#7, 0x0#5, q, d, 0x4#3, 0x25#7⟩
  | .padd d a b t => .long ⟨0x0#7, b, a, d, t, 0x29#7⟩
  | .psub d a b t => .long ⟨0x1#7, b, a, d, t, 0x29#7⟩
  | .padds d a b t => .long ⟨0x2#7, b, a, d, t, 0x29#7⟩
  | .psubs d a b t => .long ⟨0x3#7, b, a, d, t, 0x29#7⟩
  | .pmul d a b t => .long ⟨0x4#7, b, a, d, t, 0x29#7⟩
  | .pmulh d a b t => .long ⟨0x5#7, b, a, d, t, 0x29#7⟩
  | .pmin d a b t => .long ⟨0x6#7, b, a, d, t, 0x29#7⟩
  | .pmax d a b t => .long ⟨0x7#7, b, a, d, t, 0x29#7⟩
  | .pabs d a t => .long ⟨0x8#7, 0x0#5, a, d, t, 0x29#7⟩
  | .pavg d a b t => .long ⟨0x9#7, b, a, d, t, 0x29#7⟩
  | .pcmpEq d a b t => .long ⟨0xA#7, b, a, d, t, 0x29#7⟩
  | .pcmpLt d a b t => .long ⟨0xB#7, b, a, d, t, 0x29#7⟩
  | .pcmpLe d a b t => .long ⟨0xC#7, b, a, d, t, 0x29#7⟩
  | .pdot d a b t => .long ⟨0x0#4 ++ t, b, a, d, 0x0#3, 0x2B#7⟩
  | .pshf d a b => .long ⟨0x0#7, b, a, d, 0x1#3, 0x2B#7⟩
  | .ppk d a b t => .long ⟨0x0#4 ++ t, b, a, d, 0x2#3, 0x2B#7⟩
  | .pup d a h t => .long ⟨0x0#3 ++ (h ++ t), 0x0#5, a, d, 0x3#3, 0x2B#7⟩
  | .pbc d a b t => .long ⟨0x0#4 ++ t, b, a, d, 0x4#3, 0x2B#7⟩
  | .psel d a b c => .long ⟨0x0#2 ++ c, b, a, d, 0x5#3, 0x2B#7⟩
  | .fli d k l f => .long ⟨k.extractLsb' 9 7, k.extractLsb' 4 5, k.extractLsb' 0 4 ++ l, d, f, 0x2D#7⟩
  | .fadd d a b m t => .long ⟨0x0#4 ++ m, b, a, d, t, 0x2F#7⟩
  | .fsub d a b m t => .long ⟨0x1#4 ++ m, b, a, d, t, 0x2F#7⟩
  | .fmul d a b m t => .long ⟨0x2#4 ++ m, b, a, d, t, 0x2F#7⟩
  | .fmin d a b t => .long ⟨0x18#7, b, a, d, t, 0x2F#7⟩
  | .fmax d a b t => .long ⟨0x20#7, b, a, d, t, 0x2F#7⟩
  | .fneg d a t => .long ⟨0x28#7, 0x0#5, a, d, t, 0x2F#7⟩
  | .fabs d a t => .long ⟨0x30#7, 0x0#5, a, d, t, 0x2F#7⟩
  | .fcmpEq d a b t => .long ⟨0x38#7, b, a, d, t, 0x2F#7⟩
  | .fcmpLt d a b t => .long ⟨0x40#7, b, a, d, t, 0x2F#7⟩
  | .fcmpLe d a b t => .long ⟨0x48#7, b, a, d, t, 0x2F#7⟩
  | .fsum d a b f w => .long ⟨f ++ w, b, a, d, 0x4#3, 0x2F#7⟩
  | .fma d a b c t => .long ⟨0x0#2 ++ c, b, a, d, t, 0x31#7⟩
  | .fms d a b c t => .long ⟨0x1#2 ++ c, b, a, d, t, 0x31#7⟩
  | .fcvt d a g m s => .long ⟨g ++ (0x0#1 ++ m), 0x0#2 ++ s, a, d, 0x0#3, 0x33#7⟩
  | .icvt d a r f m t => .long ⟨r ++ (f ++ m), 0x0#2 ++ t, a, d, 0x1#3, 0x33#7⟩
  | .fcls d a f => .long ⟨0x0#4 ++ f, 0x0#5, a, d, 0x2#3, 0x33#7⟩
  | .okey d a b v t => .long ⟨0x0#2 ++ (v ++ t), b, a, d, 0x3#3, 0x33#7⟩
  | .dl2 d a b t => .long ⟨0x0#6 ++ t, b, a, d, 0x0#3, 0x35#7⟩
  | .dip d a b t => .long ⟨0x0#6 ++ t, b, a, d, 0x1#3, 0x35#7⟩
  | .dipE4m3 d a b => .long ⟨0x2#7, b, a, d, 0x1#3, 0x35#7⟩
  | .dham d a b => .long ⟨0x0#7, b, a, d, 0x2#3, 0x35#7⟩
  | .dcb d a b t => .long ⟨0x0#6 ++ t, b, a, d, 0x3#3, 0x35#7⟩
  | .sfuRcp d a w p t => .long ⟨0x0#4 ++ w, 0x0#5, a, d, p ++ t, 0x37#7⟩
  | .sfuRsqrt d a w p t => .long ⟨0x1#4 ++ w, 0x0#5, a, d, p ++ t, 0x37#7⟩
  | .sfuSqrt d a w p t => .long ⟨0x2#4 ++ w, 0x0#5, a, d, p ++ t, 0x37#7⟩
  | .sfuExp2 d a w p t => .long ⟨0x3#4 ++ w, 0x0#5, a, d, p ++ t, 0x37#7⟩
  | .sfuLog2 d a w p t => .long ⟨0x4#4 ++ w, 0x0#5, a, d, p ++ t, 0x37#7⟩
  | .sfuExp d a w p t => .long ⟨0x5#4 ++ w, 0x0#5, a, d, p ++ t, 0x37#7⟩
  | .sfuLn d a w p t => .long ⟨0x6#4 ++ w, 0x0#5, a, d, p ++ t, 0x37#7⟩
  | .sfuSinpi d a w p t => .long ⟨0x7#4 ++ w, 0x0#5, a, d, p ++ t, 0x37#7⟩
  | .sfuCospi d a w p t => .long ⟨0x8#4 ++ w, 0x0#5, a, d, p ++ t, 0x37#7⟩
  | .sfuTanh d a w p t => .long ⟨0x9#4 ++ w, 0x0#5, a, d, p ++ t, 0x37#7⟩
  | .sfuSigm d a w p t => .long ⟨0xA#4 ++ w, 0x0#5, a, d, p ++ t, 0x37#7⟩
  | .mma a b c t w => .long ⟨t ++ w, b, a, c, 0x0#3, 0x39#7⟩
  | .mmas a b c t w => .long ⟨t ++ w, b, a, c, 0x1#3, 0x39#7⟩
  | .mmcb a b c p w => .long ⟨0x0#2 ++ (p ++ w), b, a, c, 0x2#3, 0x39#7⟩
  | .mmr a b c t w => .long ⟨t ++ w, b, a, c, 0x3#3, 0x39#7⟩
  | .mld a b c f w => .long ⟨0x0#3 ++ (f ++ w), b, a, c, 0x0#3, 0x3B#7⟩
  | .mst a b c f w => .long ⟨0x0#3 ++ (f ++ w), b, a, c, 0x1#3, 0x3B#7⟩
  | .mzero c n w => .long ⟨n ++ w, 0x0#5, 0x0#5, c, 0x2#3, 0x3B#7⟩
  | .manc a c n w => .long ⟨n ++ w, 0x0#5, a, c, 0x3#3, 0x3B#7⟩
  | .mscl a c n w => .long ⟨n ++ w, 0x0#5, a, c, 0x4#3, 0x3B#7⟩
  | .mcbt a w t => .long ⟨0x0#4 ++ w, 0x0#5, a, t, 0x5#3, 0x3B#7⟩
  | .mfin a b c f w => .long ⟨f ++ w, b, a, c, 0x6#3, 0x3B#7⟩
  | .mseq d w => .long ⟨0x0#4 ++ w, 0x0#5, 0x0#5, d, 0x0#3, 0x3D#7⟩
  | .mwait a w => .long ⟨0x0#4 ++ w, 0x0#5, a, 0x0#5, 0x1#3, 0x3D#7⟩
  | .mwaitAll w => .long ⟨0x1#4 ++ w, 0x0#5, 0x0#5, 0x0#5, 0x1#3, 0x3D#7⟩
  | .mprogRd d w => .long ⟨0x0#4 ++ w, 0x0#5, 0x0#5, d, 0x2#3, 0x3D#7⟩
  | .mprogGo w => .long ⟨0x1#4 ++ w, 0x0#5, 0x0#5, 0x0#5, 0x2#3, 0x3D#7⟩
  | .mprogCancel w => .long ⟨0x2#4 ++ w, 0x0#5, 0x0#5, 0x0#5, 0x2#3, 0x3D#7⟩
  | .rnsf d a w => .long ⟨0x0#4 ++ w, 0x0#5, a, d, 0x0#3, 0x3F#7⟩
  | .rnsr d a w => .long ⟨0x0#4 ++ w, 0x0#5, a, d, 0x1#3, 0x3F#7⟩
  | .rnsadd d a b w => .long ⟨0x0#4 ++ w, b, a, d, 0x2#3, 0x3F#7⟩
  | .rnsaddSub d a b w => .long ⟨0x1#4 ++ w, b, a, d, 0x2#3, 0x3F#7⟩
  | .rnsmul d a b w => .long ⟨0x0#4 ++ w, b, a, d, 0x3#3, 0x3F#7⟩
  | .rnschk d a w => .long ⟨0x0#4 ++ w, 0x0#5, a, d, 0x4#3, 0x3F#7⟩
  | .rnsmap d a b w => .long ⟨0x0#4 ++ w, b, a, d, 0x5#3, 0x3F#7⟩
  | .send d a b => .long ⟨0x0#7, b, a, d, 0x0#3, 0x41#7⟩
  | .sendm d a b c => .long ⟨0x0#2 ++ c, b, a, d, 0x1#3, 0x41#7⟩
  | .lndGet d a w p => .long ⟨0x0#2 ++ (w ++ p), 0x0#5, a, d, 0x0#3, 0x43#7⟩
  | .lndPeek d a w p => .long ⟨0x0#2 ++ (w ++ p), 0x0#5, a, d, 0x1#3, 0x43#7⟩
  | .lndCnt d => .long ⟨0x0#7, 0x0#5, 0x0#5, d, 0x2#3, 0x43#7⟩
  | .waitSeq d a b => .long ⟨0x0#7, b, a, d, 0x3#3, 0x43#7⟩
  | .mig d a => .long ⟨0x0#7, 0x0#5, a, d, 0x0#3, 0x45#7⟩
  | .spawn d a => .long ⟨0x0#7, 0x0#5, a, d, 0x1#3, 0x45#7⟩
  | .yield d a => .long ⟨0x0#7, 0x0#5, a, d, 0x2#3, 0x45#7⟩
  | .crewNew a => .long ⟨0x0#7, 0x0#5, a, 0x0#5, 0x0#3, 0x47#7⟩
  | .crewJoin a => .long ⟨0x0#7, 0x0#5, a, 0x0#5, 0x1#3, 0x47#7⟩
  | .crewLeave a => .long ⟨0x0#7, 0x0#5, a, 0x0#5, 0x2#3, 0x47#7⟩
  | .crewDel a => .long ⟨0x0#7, 0x0#5, a, 0x0#5, 0x3#3, 0x47#7⟩
  | .barInit a b => .long ⟨0x0#7, b, a, 0x0#5, 0x4#3, 0x47#7⟩
  | .barArrive d a => .long ⟨0x0#7, 0x0#5, a, d, 0x5#3, 0x47#7⟩
  | .barDrop d a => .long ⟨0x1#7, 0x0#5, a, d, 0x5#3, 0x47#7⟩
  | .barWait a b => .long ⟨0x0#7, b, a, 0x0#5, 0x6#3, 0x47#7⟩
  | .semPost d a b => .long ⟨0x0#7, b, a, d, 0x0#3, 0x49#7⟩
  | .semWait d a => .long ⟨0x0#7, 0x0#5, a, d, 0x1#3, 0x49#7⟩
  | .chanPut a k => .long ⟨0x0#7, 0x0#5, a, k, 0x2#3, 0x49#7⟩
  | .chanGet d k => .long ⟨0x0#7, 0x0#5, k, d, 0x3#3, 0x49#7⟩
  | .recast d a b => .long ⟨0x0#7, b, a, d, 0x4#3, 0x49#7⟩
  | .nalloc d => .long ⟨0x0#7, 0x0#5, 0x0#5, d, 0x0#3, 0x4B#7⟩
  | .nfree a => .long ⟨0x0#7, 0x0#5, a, 0x0#5, 0x1#3, 0x4B#7⟩
  | .link d a b => .long ⟨0x0#7, b, a, d, 0x2#3, 0x4B#7⟩
  | .pair a b => .long ⟨0x0#7, b, a, 0x0#5, 0x3#3, 0x4B#7⟩
  | .nread d a => .long ⟨0x0#7, 0x0#5, a, d, 0x0#3, 0x4D#7⟩
  | .nhdr d a b => .long ⟨0x0#7, b, a, d, 0x1#3, 0x4D#7⟩
  | .prefInc d a => .long ⟨0x0#7, 0x0#5, a, d, 0x2#3, 0x4D#7⟩
  | .prefDec d a => .long ⟨0x1#7, 0x0#5, a, d, 0x2#3, 0x4D#7⟩
  | .yrdCopy d a => .long ⟨0x0#7, 0x0#5, a, d, 0x0#3, 0x51#7⟩
  | .yrdGath d a => .long ⟨0x0#7, 0x0#5, a, d, 0x1#3, 0x51#7⟩
  | .yrdScat d a => .long ⟨0x0#7, 0x0#5, a, d, 0x2#3, 0x51#7⟩
  | .yrdFill d a => .long ⟨0x0#7, 0x0#5, a, d, 0x3#3, 0x51#7⟩
  | .yrdFar d a => .long ⟨0x0#7, 0x0#5, a, d, 0x4#3, 0x51#7⟩
  | .yrdChan d a b => .long ⟨0x0#7, b, a, d, 0x5#3, 0x51#7⟩
  | .yrdWm d a => .long ⟨0x0#7, 0x0#5, a, d, 0x6#3, 0x51#7⟩
  | .yrdStop d a => .long ⟨0x0#7, 0x0#5, a, d, 0x7#3, 0x51#7⟩
  | .grdCfg a b => .long ⟨0x0#7, b, a, 0x0#5, 0x0#3, 0x53#7⟩
  | .grdIn a b => .long ⟨0x0#7, b, a, 0x0#5, 0x1#3, 0x53#7⟩
  | .grdOutKeep d a b => .long ⟨0x0#7, b, a, d, 0x2#3, 0x53#7⟩
  | .grdOutFin d a b => .long ⟨0x1#7, b, a, d, 0x2#3, 0x53#7⟩
  | .mark d a => .long ⟨0x0#7, 0x0#5, a, d, 0x0#3, 0x55#7⟩
  | .markSt d => .long ⟨0x0#7, 0x0#5, 0x0#5, d, 0x1#3, 0x55#7⟩
  | .smpInj a b => .long ⟨0x0#7, b, a, 0x0#5, 0x0#3, 0x57#7⟩
  | .smpResW d a => .long ⟨0x0#7, 0x0#5, a, d, 0x1#3, 0x57#7⟩
  | .smpResNw d a => .long ⟨0x1#7, 0x0#5, a, d, 0x1#3, 0x57#7⟩
  | .smpResCfg d a b => .long ⟨0x2#7, b, a, d, 0x1#3, 0x57#7⟩
  | .gnz d a b e g => .long ⟨0x0#5 ++ (e ++ g), b, a, d, 0x2#3, 0x57#7⟩
  | .rng d a b => .long ⟨0x0#7, b, a, d, 0x3#3, 0x57#7⟩
  | .trap a => .long ⟨0x0#7, 0x0#5, a, 0x0#5, 0x0#3, 0x61#7⟩
  | .sysc a => .long ⟨0x0#7, 0x0#5, a, 0x0#5, 0x2#3, 0x61#7⟩
  | .srd d r => .long ⟨r, 0x0#5, 0x0#5, d, 0x0#3, 0x63#7⟩
  | .swr d a r => .long ⟨r, 0x0#5, a, d, 0x1#3, 0x63#7⟩
  | .tkill d a => .long ⟨0x0#7, 0x0#5, a, d, 0x0#3, 0x65#7⟩
  | .tscrub d a => .long ⟨0x0#7, 0x0#5, a, d, 0x1#3, 0x65#7⟩
  | .winMap d a => .long ⟨0x0#7, 0x0#5, a, d, 0x2#3, 0x65#7⟩
  | .winRd d a => .long ⟨0x0#7, 0x0#5, a, d, 0x3#3, 0x65#7⟩
  | .winWr d a b => .long ⟨0x0#7, b, a, d, 0x4#3, 0x65#7⟩
  | .eccInj a b => .long ⟨0x0#7, b, a, 0x0#5, 0x5#3, 0x65#7⟩
  | .tlbInv a b => .long ⟨0x0#7, b, a, 0x0#5, 0x6#3, 0x65#7⟩
  | .halt d a b => .long ⟨0x0#7, b, a, d, 0x7#3, 0x65#7⟩
  | .cyc d => .long ⟨0x0#7, 0x0#5, 0x0#5, d, 0x0#3, 0x67#7⟩
  | .tsc d => .long ⟨0x0#7, 0x0#5, 0x0#5, d, 0x1#3, 0x67#7⟩
  | .c16Add d b => .short ⟨b, d, 0x2#6⟩
  | .c16Sub d b => .short ⟨b, d, 0x4#6⟩
  | .c16And d b => .short ⟨b, d, 0x6#6⟩
  | .c16Or d b => .short ⟨b, d, 0x8#6⟩
  | .c16Xor d b => .short ⟨b, d, 0xA#6⟩
  | .c16Move d b => .short ⟨b, d, 0xC#6⟩
  | .c16Mul d b => .short ⟨b, d, 0xE#6⟩
  | .c16Ld d b => .short ⟨b, d, 0x10#6⟩
  | .c16St d b => .short ⟨b, d, 0x12#6⟩
  | .c16Addi d k => .short ⟨k, d, 0x14#6⟩
  | .c16Li d k => .short ⟨k, d, 0x16#6⟩
  | .c16Shli d k => .short ⟨k, d, 0x18#6⟩
  | .c16Shri d k => .short ⟨k, d, 0x1A#6⟩
  | .c16Sari d k => .short ⟨k, d, 0x1C#6⟩
  | .c16Andi d k => .short ⟨k, d, 0x1E#6⟩
  | .c16LdX2 d k => .short ⟨k, d, 0x20#6⟩
  | .c16StX2 d k => .short ⟨k, d, 0x22#6⟩
  | .c16LdX3 d k => .short ⟨k, d, 0x24#6⟩
  | .c16StX3 d k => .short ⟨k, d, 0x26#6⟩
  | .c16Addi16 d k => .short ⟨k, d, 0x28#6⟩
  | .c16Bz d k => .short ⟨k, d, 0x2A#6⟩
  | .c16Bnz d k => .short ⟨k, d, 0x2C#6⟩
  | .c16J o => .short ⟨o.extractLsb' 5 5, o.extractLsb' 0 5, 0x2E#6⟩
  | .c16Jal o => .short ⟨o.extractLsb' 5 5, o.extractLsb' 0 5, 0x30#6⟩
  | .c16Jr d => .short ⟨0x0#5, d, 0x32#6⟩
  | .c16Jalr d => .short ⟨0x0#5, d, 0x34#6⟩
  | .pfx p => .short ⟨p.extractLsb' 5 5, p.extractLsb' 0 5, 0x3E#6⟩
  | .powerOn => .noBits
  | .powerOff => .noBits
  | .kickSlotPoll => .noBits
  | .kickAheadOfPacket => .noBits
  | .hostRecordPost => .noBits
  | .launch => .noBits
  | .partitionSetup => .noBits
  | .preEmptContext => .noBits
  | .killContext => .noBits
  | .readLog => .noBits
  | .attest => .noBits
  | .createContext => .noBits
  | .releaseContext => .noBits
  | .resumeContext => .noBits
  | .save => .long ⟨0x0#7, 0x0#5, 0x0#5, 0x0#5, 0x2#3, 0x17#7⟩
  | .restore => .long ⟨0x0#7, 0x0#5, 0x0#5, 0x0#5, 0x3#3, 0x17#7⟩
  | .ret => .long ⟨0x0#7, 0x0#5, 0x0#5, 0x0#5, 0x4#3, 0x17#7⟩
  | .nop => .long ⟨0x0#7, 0x0#5, 0x0#5, 0x0#5, 0x6#3, 0x17#7⟩
  | .endThread => .long ⟨0x0#7, 0x0#5, 0x0#5, 0x0#5, 0x3#3, 0x45#7⟩
  | .tret => .long ⟨0x0#7, 0x0#5, 0x0#5, 0x0#5, 0x1#3, 0x61#7⟩
  | .c16Ret => .short ⟨0x0#5, 0x0#5, 0x36#6⟩
  | .c16Save => .short ⟨0x0#5, 0x0#5, 0x38#6⟩
  | .c16Restore => .short ⟨0x0#5, 0x0#5, 0x3A#6⟩
  | .c16Nop => .short ⟨0x0#5, 0x0#5, 0x3C#6⟩

/-- The bits of an instruction as the `inst` field of a fault message shows them (R224, R284). -/
def Instr.bits (i : Instr) : BitVec 32 :=
  match i.encoding with
  | .long r => r.toWord
  | .short r => r.toHalf.setWidth 32
  | .noBits => match i with
    | .illegalEncoding b => b
    | _ => 0

/-- The length of an instruction in bytes (R274): 2 for a halfword, 4 otherwise. -/
def Instr.len (i : Instr) : Nat :=
  match i.encoding with
  | .short _ => 2
  | .long _ => 4
  | .noBits => match i with
    | .illegalEncoding b => if b.getLsbD 0 then 4 else 2
    | _ => 4

/-- The bytes of an instruction as they are stored, the lowest address first (R274). -/
def encode (i : Instr) : List (BitVec 8) :=
  match i.encoding with
  | .long r =>
    let w := r.toWord
    [w.extractLsb' 0 8, w.extractLsb' 8 8, w.extractLsb' 16 8, w.extractLsb' 24 8]
  | .short r =>
    let w := r.toHalf
    [w.extractLsb' 0 8, w.extractLsb' 8 8]
  | .noBits => []

/-- The bytes of a number of `n` bytes, little-endian. -/
def bytesOf : Nat → Nat → List (BitVec 8)
  | 0, _ => []
  | n + 1, w => BitVec.ofNat 8 w :: bytesOf n (w / 256)

/-- What the decoder reads from the bits `w` of a table row, the bits above `nbits` zero. -/
noncomputable def decodeTableWord (nbits w : Nat) : Option Instr :=
  match decode (bytesOf 4 (w % 2 ^ nbits)) with
  | .ok (i, _) => some i
  | .error _ => none

end Sys2Proof
end

