-- ==== Sys2Proof/Config.lean ====
section
/-! DEFINITION. What the firmware or an implementation fixes, and the values the spec leaves open. An opaque constant has
no value that a proof could use. -/

namespace Sys2Proof.Config

/-- An open value, one for each number drawn (log 2: DESIGN CHOICE). -/
opaque freeWord : Nat → BitVec 64

/-- The bytes that a multiply leaves in operand staging: their places are not given (R349, log 13: DESIGN CHOICE). -/
opaque freeByte : Nat → Nat → BitVec 8

/-- The number that the firmware assigns to the package at boot (R29, log 6: DESIGN CHOICE). -/
opaque packageNumber : BitVec 6

/-- The number of the 64 KiB host page at which the host window begins (R40, log 6: DESIGN CHOICE). -/
opaque hostPage : BitVec 47

/-- The base the firmware sets for the host window (R40, log 6: DESIGN CHOICE). -/
def hostBase : Nat := hostPage.toNat * 0x1_0000

/-- The host-window address of the completion ring, given by the host at boot (R425, log 6: DESIGN CHOICE). -/
opaque ringBase : Nat

/-- The attached capacity in bytes of far-tier port `d` (R39, log 6: DESIGN CHOICE). -/
opaque farCapacity : Nat → Nat

/-- The usable cores of the partition that context `c` holds on another package `p`, 0 when it holds none (R376, log 6: DESIGN CHOICE). -/
opaque remoteCores : Nat → Nat → Nat

/-- Whether the firmware takes an image: its ML-DSA-87 signature against the root key in fuses (R426, log 18: DESIGN CHOICE). -/
opaque imageGood : List (BitVec 8) → Bool

/-- The SHA3-512 digest of an image (R426, log 18: DESIGN CHOICE). -/
opaque digest : List (BitVec 8) → List (BitVec 8)

/-- The fuse identity, 32 bytes (R429, log 18: DESIGN CHOICE). -/
opaque fuseByte : Nat → BitVec 8

/-- The signature of an attestation reply with the device identity key, byte by byte (R429, log 18: DESIGN CHOICE). -/
opaque signatureByte : List (BitVec 8) → Nat → BitVec 8

/-- What a home finds in a word with chosen check bits: none when the error is uncorrectable, the corrected data
otherwise. The spec names a 64-bit SECDED code and gives no matrix (R61, R230, log 13: DESIGN CHOICE). -/
opaque eccDecode : BitVec 64 → BitVec 8 → Option (BitVec 64)

/-- The first physical address of compartment `c`'s ranger local store, which the firmware reports (R21, log 6: DESIGN CHOICE): 32 KiB
inside the control region. -/
def rangerStore (c : Nat) : Nat := 0x0084_8000_0000 + c * 0x8000

/-- The first physical address of the 64 KiB from which compartment `c`'s ranger fetches: a firmware store, placed in the
control region (R21, R38, log 6: DESIGN CHOICE). -/
def rangerCode (c : Nat) : Nat := 0x0084_9000_0000 + c * 0x10000

/-- The control-region address of the ring of intake slots and of the scalers is not used by any access of a context: the
firmware defines it (R38). -/
def controlBase : Nat := 0x0084_0000_0000

end Sys2Proof.Config
end

