-- ==== Sys2Proof/Machine/Tab.lean ====
section
/-! DEFINITION. Sparse tables: pairs of a key and a value with rising keys. An unlisted key has no row. -/

namespace Sys2Proof.Machine

/-- A sparse table keyed by natural numbers. -/
abbrev Tab (α : Type) := List (Nat × α)

/-- The row of a key. -/
def look {α : Type} : Tab α → Nat → Option α
  | [], _ => none
  | (k, v) :: t, n => if k = n then some v else look t n

/-- The row of a key, or a default where the key is not listed. -/
def lookD {α : Type} (t : Tab α) (n : Nat) (d : α) : α := (look t n).getD d

/-- Write a row, keeping the keys rising. -/
def put {α : Type} : Tab α → Nat → α → Tab α
  | [], n, x => [(n, x)]
  | (k, v) :: t, n, x =>
    if k = n then (n, x) :: t
    else if n < k then (n, x) :: (k, v) :: t
    else (k, v) :: put t n x

/-- Remove a row. -/
def del {α : Type} : Tab α → Nat → Tab α
  | [], _ => []
  | (k, v) :: t, n => if k = n then t else (k, v) :: del t n

/-- Keys strictly rising. -/
def rising {α : Type} : Tab α → Bool
  | [] => true
  | [_] => true
  | (k, _) :: (k', v') :: t => decide (k < k') && rising ((k', v') :: t)

end Sys2Proof.Machine
end

