-- ==== Sys2Proof/Machine/State.lean ====
section
/-! DEFINITION. The whole package as plain data: every unit and everything in flight, with the state after reset. -/

namespace Sys2Proof.Machine

/-- A step that stops the machine. -/
inductive Fault where
  /-- Raised by every step but POWER_ON while the package is off (R2): no unit runs without power. Safe. -/
  | noPower
  deriving DecidableEq, Repr

/-- Why an instruction has no meaning. -/
inductive Refusal where
  /-- Raised only by an arm of exec that has no meaning yet. Safe. -/
  | notModelled (mnemonic : String)
  deriving DecidableEq, Repr

/-- The causes of R221. -/
inductive Cause where
  | addressForm | translationInvalid | malformedEntry | permission | kind | tier | partition | staleGeneration
  | windowAccess | alignment | malformedStructure | physicalRange | netAddress | netMalformed | netPool | noRule
  | crewMembership | crewBusy | crewLimit | barrierPhase | overArrival | waitCount | illegalEncoding | illegalPfx
  | privilege | memoryError | pairMismatch | residueUnavailable | doubleFault | preEmption | systemCall | trap
  deriving DecidableEq, Repr

/-- Privilege levels (R220). -/
inductive Prv where
  | u | s | f
  deriving DecidableEq, Repr

/-- Tiers (R83). -/
inductive Tier where
  | on | hbm | ft | host
  deriving DecidableEq, Repr

/-- Ordering kinds of a page (R44, R116, R117). -/
inductive Ord where
  | so | rc | uo
  deriving DecidableEq, Repr

/-- The sticky flags of FPC (R255). -/
structure FFlags where
  spz : Bool := false
  nxa : Bool := false
  nv : Bool := false
  dz : Bool := false
  ofl : Bool := false
  ufl : Bool := false
  nx : Bool := false
  deriving DecidableEq, Repr

/-- A result that lands in its register at the end of cycle `land` (R290, R324). -/
structure Pend where
  reg : Reg
  val : Word
  land : Nat
  /-- The flags merged into FPC at the landing (R325). -/
  flags : FFlags := {}
  /-- Whether reads and writes of FPC wait for it (R325). -/
  fp : Bool := false
  /-- Whether it is a request on the special-function ring (R344). -/
  sfu : Bool := false
  deriving DecidableEq, Repr

/-- An element a read stream holds ahead of its position (R321): its value, where it stands (package, address and bytes of each
part), and whether it stands on an SO page; the access that reads it; or the fault of its read, and whether an injected word gave it. -/
inductive Ahead where
  | val (w : Word) (home : List (Nat × Nat × Nat)) (so : Bool)
  | wait (acc : Nat) (home : List (Nat × Nat × Nat)) (so : Bool)
  | bad (c : Cause) (va : Word) (home : List (Nat × Nat × Nat)) (inj : Bool)
  deriving DecidableEq, Repr

/-- One part of an access: the bytes of one page, at their home, with the generation and the ordering kind of the leaf. -/
structure Piece where
  pkg : Nat
  pa : Nat
  len : Nat
  off : Nat
  gen : Option Nat
  ord : Ord
  deriving DecidableEq, Repr

/-- A stream descriptor and its progress (R319-R321). -/
structure Stream where
  write : Bool := false
  esz : Nat := 0
  zeroExt : Bool := false
  base : Nat := 0
  e0 : Nat := 0
  e1 : Nat := 0
  e2 : Nat := 0
  s1 : Int := 0
  s2 : Int := 0
  fill : Word := 0
  pos : Nat := 0
  ovr : Bool := false
  ahead : List Ahead := []
  /-- Where the element that an instruction pushes goes, as the checks at its issue have found it (R310). -/
  goal : List Piece := []
  deriving DecidableEq, Repr

/-- What a thread that does not issue waits for. -/
inductive Wait where
  | walk | watermark | postedLimit | order | sendRoom | landing (pm : Nat) | peek | seqKey (key : Word) | sem (s : Nat)
  | chan | barrier
  | mill (target : BitVec 32) | schedule | jobs | chanJobs | stopJobs | grader | reduction | combineRoom | spill | refill | stream | sfuRoom
  | fence | lvq | seed | kill | overflow | release | wcw | mapWait | fpc | halt (deadline : Word) | pairOp | endWork | net
  /-- The words of its own store that it reads or writes (R21). -/
  | own
  deriving DecidableEq, Repr

/-- A parked thread (R77, R373). -/
inductive Park where
  /-- The instruction at PC issues again at each turn until what it waits for holds; since the cycle given. -/
  | again (why : Wait) (since : Nat)
  /-- The instruction has issued; the thread goes on when access `acc` has replied. -/
  | reply (acc : Nat)
  deriving DecidableEq, Repr

/-- A trap that the thread's own instruction did not raise (R159, R223). -/
structure Async where
  cause : Cause
  tval : Word
  deriving DecidableEq, Repr

/-- The kinds of mill instruction (R350, R357). -/
inductive MillKind where
  | mma | mmas | mmcb | mmr | mld | mst | mzero | manc | mscl | mcbt | mfin
  deriving DecidableEq, Repr

/-- A mill instruction with everything captured at issue (R345). -/
structure MillOp where
  kind : MillKind
  /-- The issuing thread's key. -/
  tid : Nat
  ctx : Nat
  launch : Option Nat
  seq : BitVec 32
  acc : Nat
  /-- Type or option field F4. -/
  opt : Nat
  a0 : Word := 0
  a1 : Word := 0
  b0 : Word := 0
  b1 : Word := 0
  rm : BitVec 3 := 0
  /-- The pending format bits when the operation was given any (R286). -/
  pfx : Option (BitVec 10) := none
  prv : Prv := .u
  /-- Its reads wait for the thread's accesses named before this (R122). -/
  before : Nat := 0
  /-- Which thread of its slot issued it. -/
  serial : Nat := 0
  /-- Cycle in which it was dispatched, and in which the mill began it (R209, R345). -/
  sent : Nat := 0
  began : Nat := 0
  /-- Row progress (R364). -/
  p : Nat := 0
  /-- Whether the rows of B have been read into staging. -/
  staged : Bool := false
  /-- Valid rows of B as raw bytes, row by row. -/
  rowsB : List (List (BitVec 8)) := []
  /-- Flags raised so far, and the accumulators whose anchor words take nxa and spz (R266, R345). -/
  flags : FFlags := {}
  nxaOf : List Nat := []
  spzOf : List Nat := []
  /-- The job this follows on, if a yarder sends it (R100). -/
  job : Option Nat := none
  deriving DecidableEq, Repr

/-- A held mill instruction and its followers (R364). -/
structure Held where
  op : MillOp
  followers : List MillOp
  /-- How many of the followers the mill had accepted (R36). -/
  accepted : Nat := 0
  deriving DecidableEq, Repr

/-- What a net instruction under way does next (R170, R394, R399). -/
inductive NetStep where
  /-- The head of the loop of `splice_link`; the exchange at the cell that `a` names, and the word it gave. -/
  | enter (a b : Word)
  | swap (a b : Word)
  | swapped (a b : Word)
  /-- The `cas` that takes `b` out of cell `c` again, and its reply. -/
  | cas (c b : Word)
  | casDone
  /-- `release_cell`, after which the ends are joined or the loop goes on. -/
  | release (c a b : Word) (joins : Bool)
  /-- `join`: the first slot, the second, the pair; or the new cell and the two slots that name it, `n` of the three done. -/
  | join (a b : Word)
  | back (a b : Word)
  | push (a b : Word)
  | cell (a b c : Word) (n : Nat)
  /-- Its result, once all it has written is performed. -/
  | last (v : Nat)
  /-- The reply of the service of `nfree`, and of the atomic of `pref`. -/
  | freed
  | counted (up : Bool)
  deriving DecidableEq, Repr

/-- A net instruction under way: its next step, what the access before it gave, and the streams before it popped (R310). -/
structure NetRun where
  step : NetStep
  got : Option Word := none
  undo : Tab Stream := []
  deriving DecidableEq, Repr

/-- The life of a slot. -/
inductive Life where
  | free | run | moving | contained | killed
  deriving DecidableEq, Repr

/-- The start a paired task is retried from (R226). -/
structure StartRec where
  pc : Word
  regs : Tab Word
  retried : Bool := false
  deriving DecidableEq, Repr

/-- An entry of a landing (R186, R187). -/
structure LandEntry where
  kind : BitVec 8
  len : Nat
  prio : Nat
  mcast : Bool
  pkg : Nat
  seq : BitVec 32
  stid : Nat
  ctx : Nat
  /-- Payload bytes from the lowest. -/
  data : List (BitVec 8)
  /-- The first cycle in which a taker can have it (R379). -/
  since : Nat := 0
  deriving DecidableEq, Repr

/-- The words of its own store that an instruction reads or writes (R21, R380): the access, the landing entry that it stores and whether it
takes it, and the value once the access has replied. -/
structure OwnAccess where
  acc : Nat
  entry : Option LandEntry := none
  takes : Bool := false
  got : Option Nat := none
  deriving DecidableEq, Repr

/-- What a thread in `yrd.stop` waits for (R405): the jobs yet to end, how many have ended stopped, and the channel to open after them. -/
structure StopWait where
  jobs : List Nat
  ended : Nat := 0
  chan : Option Nat := none
  deriving DecidableEq, Repr

/-- One thread slot (R246-R256, R319, R346, R188). -/
structure Thread where
  life : Life := .free
  ctx : Nat := 0
  launch : Option Nat := none
  pc : Word := 0
  /-- x1-x7. -/
  g : Tab Word := []
  /-- The two window buffers, x8-x31. -/
  win0 : Tab Word := []
  win1 : Tab Word := []
  cur : Bool := false
  olive : Bool := false
  depth : BitVec 32 := 0
  /-- Words of the other buffer that have been sent to memory (R249). -/
  spilled : Nat := 0
  /-- Words that a parked `restore` has read back, and the access that reads the next (R249). -/
  refilled : List Word := []
  refill : Option Nat := none
  spillFault : Option (Cause × Word) := none
  /-- Model's own: the next turn in which the spill engine may move a word (R249). -/
  spillTurn : Nat := 0
  /-- Model's own: how many windows it has opened, by which the halves of a pair tell their spills apart (R226). -/
  saves : Nat := 0
  wsp : Word := 0
  pfx : BitVec 10 := 0
  pp : Bool := false
  it : Bool := false
  pprv : BitVec 2 := 0
  prv : Prv := .u
  lt : Bool := false
  trl : Bool := false
  det : Bool := false
  fixt : Bool := false
  /-- TS.QB: streams bound. -/
  qb : BitVec 4 := 0
  flags : FFlags := {}
  rm : BitVec 3 := 0
  tca : BitVec 8 := 0
  tepc : Word := 0
  tval : Word := 0
  /-- CREW entries m0-m3. -/
  crew : List (Option Nat) := [none, none, none, none]
  sendSeq : BitVec 32 := 0
  millSeq : BitVec 32 := 0
  held : Option Held := none
  streams : Tab Stream := []
  pend : List Pend := []
  /-- The cycle of the next issue turn (R140, R279). -/
  turn : Nat := 0
  /-- Model's own: the bits of the instruction it issued last (R224). -/
  ir : BitVec 32 := 0
  park : Option Park := none
  net : Option NetRun := none
  own : Option OwnAccess := none
  async : List Async := []
  winTarget : Option Nat := none
  stopping : Option StopWait := none
  /-- Its `tlb.inv` has dropped the entries and waits for accesses named before this (R54). -/
  draining : Option Nat := none
  /-- Started at its stage's entry, and ch0 not yet popped (R391). -/
  fresh0 : Bool := false
  /-- The core a moving thread goes to (R71, R383). -/
  goal : Option Nat := none
  /-- The cause while it is contained. -/
  why : Option Cause := none
  /-- Whether the last word it could not read was injected, which a fault message tells (R224, R230). -/
  injSeen : Bool := false
  start : StartRec := ⟨0, [], false⟩
  /-- Killed by a mismatch of its pair, whose task starts again (R226). -/
  restart : Bool := false
  /-- Named by `tkill`, and killed once the `link` that it is in completes (R172, R417). -/
  doomed : Bool := false
  /-- Model's own: how many threads have held the slot. -/
  serial : Nat := 0
  deriving DecidableEq, Repr

/-- A message (R375-R378). -/
structure Msg where
  tgt : Nat
  prio : Nat
  len : Nat
  dest : Nat
  mcast : Bool
  pkg : Nat
  /-- Address at which an active message or a system-class start begins. -/
  pc : Word
  ctx : Nat
  launch : Option Nat
  stid : Nat
  seq : BitVec 32
  data : List (BitVec 8)
  deriving DecidableEq, Repr

/-- A migration packet (R72) and the state that travels with the thread (R250). -/
structure MigPacket where
  /-- The slot it left, which is freed when its last flit has gone (R71). -/
  origin : Nat
  /-- The packet's name, under which crews know the thread while it travels. -/
  name : Nat
  ctx : Nat
  launch : Option Nat
  image : Thread
  deriving DecidableEq, Repr

/-- A reduction packet (R190). -/
structure RedPacket where
  key : BitVec 32
  idx : BitVec 32
  cnt : Nat
  cand : Bool
  nan : Bool
  op : Nat
  red : Nat
  deriving DecidableEq, Repr

/-- A pair record (R175). -/
structure PairRec where
  anchor : Word
  other : Word
  ctx : Nat
  launch : Option Nat
  deriving DecidableEq, Repr

/-- A task record of a deck (R148), with the first cycle in which it stands there. -/
structure TaskRec where
  words : List Word
  ctx : Nat
  launch : Option Nat
  since : Nat
  deriving DecidableEq, Repr

/-- What a packet carries. -/
inductive Body where
  | msg (m : Msg)
  | mig (m : MigPacket)
  | pair (p : PairRec)
  | red (r : RedPacket) (own : Nat) (pkg : Nat) (launch : Option Nat)
  /-- Requests of an access, by their names, or the reply to them. -/
  | req (rs : List Nat)
  | reply (acc : Nat)
  /-- A job on its way to its lead yarder (R85). -/
  | job (j : Nat)
  /-- The acknowledgement that a message of its sender has been written at its receiver (R71). -/
  | ack
  deriving DecidableEq, Repr

/-- The four network classes (R184). -/
inductive Class where
  | request | reply | dispatch | system
  deriving DecidableEq, Repr

/-- Where a packet is. -/
inductive Stage where
  /-- At its sender, waiting for owned slots; flits sent so far. -/
  | sending
  /-- Every flit sent; some still travel. -/
  | flying
  /-- Arrived at the destination port; not yet across the clock boundary. -/
  | port
  /-- Ready to be written at its receiver (or inside one compartment). -/
  | ready
  deriving DecidableEq, Repr

/-- A packet in flight (R78-R80, R444). -/
structure Packet where
  cls : Class
  src : Nat
  dst : Nat
  body : Body
  /-- Receiving core, for a packet written at a core. -/
  core : Nat
  flits : Nat
  sent : Nat := 0
  arrived : Nat := 0
  stage : Stage
  /-- Network cycle from which the next flit may be sent, then that of the last flit sent; at stage `ready`, the cycle of
  the receiving compartment in which it is written. -/
  time : Nat := 0
  /-- The thread that sent it, with the number of those that have held its slot, which a migration waits for (R71). -/
  sender : Option (Nat × Nat) := none
  deriving DecidableEq, Repr

/-- An entry of a core's send queue (R146). -/
structure SendEntry where
  /-- The issuing thread's key; none for a broadcast copy of a result (R413). -/
  tid : Option Nat
  /-- Which thread of its slot issued it. -/
  serial : Nat := 0
  ctx : Nat
  bodies : List (Body × Nat)
  cls : Class
  /-- The release of R376 waits for accesses up to this name. -/
  before : Nat
  launch : Option Nat
  /-- Whether it is a broadcast copy of a reduction result. -/
  bcast : Option Nat := none
  deriving DecidableEq, Repr

/-- A pair record whose preparation is complete (R176): where the handler starts, its register image, whether it runs as a
pair, and since when. -/
structure Prepared where
  record : PairRec
  image : Tab Word
  entry : Nat
  lt : Bool
  since : Nat
  deriving DecidableEq, Repr

/-- The start unit at work on the head of the active-pair queue (R176): the access in flight, and what its reads have given. -/
structure Prep where
  acc : Option Nat := none
  got : List Nat := []
  deriving DecidableEq, Repr

/-- An access of a core to the overflow ring of a launch (R175): it stores a record, or reads the oldest one. -/
structure RingAccess where
  acc : Nat
  launch : Nat
  record : Option PairRec := none
  deriving DecidableEq, Repr

/-- An element of a channel (R152): its value, the context that put it, and the first cycle in which it stands where it is. -/
structure ChanElt where
  val : Word
  ctx : Nat := 0
  since : Nat := 0
  deriving DecidableEq, Repr

/-- A copy channel (R104); one that has not been bound stands at 0 and is off (log 4: DESIGN CHOICE). -/
structure CopyChan where
  ctx : Nat := 0
  base : Nat := 0
  limit : Nat := 0
  wm : Nat := 0
  /-- Ranges reported above the watermark. -/
  fill : List (Nat × Nat) := []
  deriving DecidableEq, Repr

/-- A reduction at an owner (R413). -/
structure Reduction where
  red : Nat
  op : Nat
  n : Nat
  bc : Bool
  prio : Nat
  k : Nat
  cmask : Nat
  pmask : Nat
  stid : Nat
  seq : BitVec 32
  ctx : Nat
  launch : Option Nat
  acc : Option RedPacket := none
  mis : Bool := false
  /-- Broadcast copies that have not left the send queue, and those of them that have yet to enter it. -/
  copies : Nat := 0
  owed : List (Body × Nat) := []
  read : Bool := false
  deriving DecidableEq, Repr

/-- A node or cell pool (R181, R182). -/
structure Pool where
  lo : Nat := 0
  hi : Nat := 0
  next : Nat := 0
  freed : List Nat := []
  deriving DecidableEq, Repr

/-- A core (R14, R146-R149, R152, R186, R413). -/
structure Core where
  landing : List LandEntry := []
  /-- The first cycle in which the landing can serve another take (R379). -/
  takeAt : Nat := 0
  /-- Records waiting for room, oldest first (R101). -/
  heldRecs : List LandEntry := []
  /-- The dispatch intake, oldest first, with the first cycle in which each packet stands there (R146). -/
  intake : List (Nat × Body) := []
  sendQ : List SendEntry := []
  /-- The first cycle in which the next beat of 64 bytes can leave (R444). -/
  nextBeat : Nat := 0
  /-- The first cycle in which the start unit considers another start (R144). -/
  nextStart : Nat := 0
  /-- Stolen records that have arrived (R149). -/
  stolen : List TaskRec := []
  /-- The deck, bottom first, and the first cycle in which it can serve another operation (R148). -/
  deck : List TaskRec := []
  deckAt : Nat := 0
  pairQ : List PairRec := []
  /-- Overflow rings by launch: the place of the oldest record and how many there are; the records stand in HBM (R175). -/
  rings : Tab (Nat × Nat) := []
  /-- The access of the overflow rings in flight. -/
  ringAcc : Option RingAccess := none
  prep : Option Prep := none
  /-- A record whose preparation is complete, waiting for a slot (R176). -/
  prepared : Option Prepared := none
  /-- The next task of each launch's list (R214). -/
  tasks : Tab Nat := []
  chans : Tab CopyChan := []
  /-- Node and cell pools by launch (log 21: DEDUCED). -/
  nodePools : Tab Pool := []
  cellPools : Tab Pool := []
  chq : Tab (List ChanElt) := []
  /-- By output channel, the first cycle in which another element of it can move (R391). -/
  chanAt : Tab Nat := []
  /-- Cycle since which ch0 has been empty (R153). -/
  dryFrom : Nat := 0
  reds : List Reduction := []
  sent : Tab Nat := []
  recv : Tab Nat := []
  /-- The first cycle in which it may send another steal request, and the place of the next victim (R149). -/
  stealAt : Nat := 0
  stealNext : Nat := 0
  mapped : Bool := true
  /-- Operation of the lead that waits in the store comparator, by lead slot (R226). -/
  compare : Tab (List Word) := []
  matched : Tab Bool := []
  /-- Load-value queue, by lead slot. -/
  lvq : Tab (List Word) := []
  deriving DecidableEq, Repr

/-- An accumulator element (R265). -/
structure Elem where
  a : BitVec 128 := 0
  pi : Bool := false
  ni : Bool := false
  qn : Bool := false
  deriving DecidableEq, Repr

/-- An anchor word (R256). -/
structure Anchor where
  anch : BitVec 16 := 0
  nxa : Bool := false
  spz : Bool := false
  deriving DecidableEq, Repr

/-- A selection set of the grader (R204). -/
structure GradeSet where
  ctx : Nat
  launch : Option Nat
  k : Nat
  /-- The k greatest pairs, best first. -/
  best : List Word := []
  accepted : Nat := 0
  deriving DecidableEq, Repr

/-- A leaf as a translation cache holds it (R47). -/
structure Leaf where
  ctx : Nat
  /-- First virtual address and size of the page. -/
  va : Nat
  size : Nat
  tier : Tier
  ord : Ord
  pkg : Nat
  gen : Nat
  pa : Nat
  s : Bool
  w : Bool
  rd : Bool
  deriving DecidableEq, Repr

/-- A tile (R14, R35, R151, R271, R390). -/
structure Tile where
  roles : Tab Word := []
  sems : Tab Nat := []
  acc : Tab Elem := []
  anchors : Tab Anchor := []
  staging : Tab Byte := []
  /-- The draw that names what a multiply left in the staging bytes not listed (log 13: DESIGN CHOICE). -/
  staged : Option Nat := none
  books : Tab (List (BitVec 16)) := []
  rnsMode : BitVec 2 := 0
  rnsFb : BitVec 3 := 0
  rnsFa : BitVec 3 := 0
  /-- Residue operations done, and when each channel was last located (R228). -/
  rnsOps : Nat := 0
  located : Tab Nat := []
  /-- Dispatched mill instructions not yet accepted, then the queue; its head runs (R345). -/
  dispatched : List MillOp := []
  millQ : List MillOp := []
  /-- Whether the running instruction met a fault: cause and address (R364). -/
  pipeFault : Option (Cause × Word) := none
  /-- Whether an injected word gave it (R230). -/
  pipeInj : Bool := false
  mmrStop : Bool := false
  /-- The access of the running instruction's next row, with the flags of a row that is stored (R447). -/
  row : Option (Nat × FFlags) := none
  /-- The special-function ring: threads whose requests wait, in order (R344). -/
  sfuRing : List (Nat × Nat) := []
  sets : Tab GradeSet := []
  /-- Pairs waiting for the grader, oldest first: the access that `grd.in` made, the set and the pair (R407). -/
  gradeQ : List (Nat × Nat × Word) := []
  /-- Whether it is part of the usable set (R26, R82). -/
  mapped : Bool := true
  /-- A channel located twice: the firmware has yet to degrade the tile (R228). -/
  degrade : Option Nat := none
  tlb : List Leaf := []
  rules : Tab (Tab Word) := []
  /-- Earlier values of instruction-store words stored to since the last start message, by word index (R127). -/
  buffered : Tab (List Word) := []
  deriving DecidableEq, Repr

/-- A fault message (R224). -/
structure FaultMsg where
  cause : Cause
  ctx : Nat
  ptid : Nat
  pc : Word
  val : Word
  lt : Bool
  inj : Bool
  prv : Prv
  nth : Bool
  inst : BitVec 32
  ts : Nat
  cgen : Nat
  /-- The source number (R432). -/
  src : Nat
  deriving DecidableEq, Repr

/-- A scaler (R431). -/
structure Scaler where
  en : Bool := false
  ev : Nat := 0
  count : Nat := 0
  min : Nat := 0
  max : Nat := 0
  bins : Tab Nat := []
  deriving DecidableEq, Repr

/-- An entry of a footprint scheduler (R97-R100). -/
structure Entry where
  id : Nat
  ctx : Nat
  tid : Nat
  core : Nat
  cycle : Nat
  /-- Byte ranges read and written. -/
  reads : List (Nat × Nat)
  writes : List (Nat × Nat)
  /-- A mill instruction, or the job of this name. -/
  mill : Option MillOp := none
  job : Option Nat := none
  /-- Earlier entries it has an edge from. -/
  edges : List Nat := []
  /-- The cycle in which it was accepted (R97). -/
  taken : Nat := 0
  dispatched : Bool := false
  deriving DecidableEq, Repr

/-- A compartment (R14, R206). -/
structure Cmpt where
  cyc : Nat := 0
  /-- Network time of the start of cycle `cyc`. -/
  t : Nat := 0
  fixt : Bool := false
  /-- The next cycle is stretched by this many network cycles. -/
  stretch : Nat := 0
  part : Option Nat := none
  arrivals : List Entry := []
  entries : List Entry := []
  /-- The first cycle in which its scheduler can accept another entry (R97). -/
  acceptAt : Nat := 0
  markQ : List Nat := []
  faultQ : List FaultMsg := []
  faultNet : List FaultMsg := []
  scalers : Tab Scaler := []
  /-- Cycle in which each bank last served a request. -/
  served : Tab Nat := []
  /-- The context that the tiles hold accumulators and semaphores of, 0 for none (R367, R390). -/
  ran : Nat := 0
  deriving DecidableEq, Repr

/-- A crew (R154). -/
structure Crew where
  members : List Nat
  deriving DecidableEq, Repr

/-- A barrier (R155). -/
structure Barrier where
  crew : Nat
  scope : Nat
  e : Nat
  p : BitVec 32 := 0
  a0 : Nat := 0
  d0 : Nat := 0
  c0 : Nat := 0
  a1 : Nat := 0
  d1 : Nat := 0
  c1 : Nat := 0
  deriving DecidableEq, Repr

/-- What pre-emption moved out of one core (R160, R257). -/
structure Saved where
  core : Nat
  intake : List (Nat × Body) := []
  pairQ : List PairRec := []
  deck : List TaskRec := []
  landing : List LandEntry := []
  heldRecs : List LandEntry := []
  chq : Tab (List ChanElt) := []
  /-- The first unfinished entry of each task list. -/
  tasks : Tab Nat := []
  /-- Threads of the context that the core held. -/
  threads : Nat := 0
  deriving DecidableEq, Repr

/-- A context (R428). -/
structure Ctx where
  live : Bool := false
  root : Nat := 0
  part : Nat := 0
  d2ok : Bool := false
  fixt : Bool := false
  rm : BitVec 3 := 0
  rules : Nat := 0
  v0 : Nat := 0
  tvb : Word := 0
  seed : Word := 0
  pdl : Nat := 0
  save : Nat := 0
  cgen : Nat := 0
  crews : Tab Crew := []
  bars : Tab Barrier := []
  /-- Compartments in which its starts are withheld, from a pre-emption to the resume (R160). -/
  stopped : List Nat := []
  /-- Compartments being pre-empted, the packet that asked, and the time of the deadline (R159, R160). -/
  preempt : Option (List Nat × BitVec 32 × Nat) := none
  saved : List Saved := []
  /-- A kill in progress: the packet that asked, if any, its status, and the yarders still to report (R109, R231). -/
  killing : Option (Option (BitVec 32) × Nat × List Nat) := none
  deriving DecidableEq, Repr

/-- A task entry (R214). -/
structure Task where
  entry : BitVec 16
  regs : List Word
  lt : Bool
  deriving DecidableEq, Repr

/-- A sweep of the cruise under way (R163): the cores read, whether each was idle, and the sums of their counts. -/
structure Sweep where
  seen : List Nat := []
  idle : Bool := true
  sent : Nat := 0
  recv : Nat := 0
  deriving DecidableEq, Repr

/-- A launch with all it captured (R213). -/
structure Launch where
  ctx : Nat
  part : Nat
  seq : BitVec 32
  det : Bool
  fixt : Bool
  nsteal : Bool
  nrcst : Bool
  nsb : Bool
  ccnt : Nat
  tag : BitVec 32
  xinit : List Word
  sf : Word
  noff : Nat
  nsz : Nat
  coff : Nat
  csz : Nat
  rsz : Nat
  rbase : Nat
  etgt : Bool
  eprio : Nat
  ecore : Nat
  wsz : Nat
  wbase : Nat
  seed : Word
  /-- Tasks of each logical core. -/
  lists : Tab (List Task)
  /-- The cycle of each compartment from which its tasks are available (R207, R219). -/
  avail : Tab Nat := []
  /-- Role-table entries by logical core. -/
  roles : Tab Word
  /-- Cores mapped out when it was enqueued, rising: its logical identifiers close over them to its end (R26). -/
  gone : List Nat
  running : Bool := false
  ended : Bool := false
  /-- The last sweep, when it found every core idle: its sums (R163). -/
  sweep : Option (Nat × Nat) := none
  reading : Option Sweep := none
  deriving DecidableEq, Repr

/-- A partition's launch queue (R207). -/
structure Part where
  queue : List Nat := []
  /-- A mode change in progress: the mode it changes to and when it completes. -/
  change : Option (Bool × Nat) := none
  deriving DecidableEq, Repr

/-- What a request does at its home (R68, R110). -/
inductive ReqOp where
  | read
  | write (v : Nat)
  | amo (op : Nat) (v : Nat)
  | cas (expect new : Nat)
  /-- `nfree` of a node by its header (R394). -/
  | free
  /-- `pref` by one up or down, short of the limit (R399). -/
  | count (up : Bool)
  /-- `ecc.inj`: a word with the check byte it will be read with (R419). -/
  | inject (v : Nat) (chk : Byte)
  deriving DecidableEq, Repr

/-- One request: the bytes of one aligned word (R60). -/
structure Req where
  acc : Nat
  tid : Nat
  ctx : Nat
  cgen : Nat
  /-- Home package and physical address, and how many bytes. -/
  pkg : Nat
  pa : Nat
  len : Nat
  /-- Byte offset within the access's value. -/
  off : Nat
  op : ReqOp
  /-- Generation the leaf gave, none for untranslated accesses (R56). -/
  gen : Option Nat
  src : Nat
  /-- Transit, and earliest service cycle (R62, R63). -/
  transit : Nat
  earliest : Nat
  /-- Whether its home is in another compartment, and whether it still travels there over the network (R70). -/
  remote : Bool := false
  travelling : Bool := false
  /-- Held in the retry queue of a migrating frame (R56). -/
  held : Bool := false
  /-- The offset of the page part it belongs to, which travels as one message (R79). -/
  piece : Nat := 0
  /-- The bytes of that part. -/
  part : Nat := 0
  /-- Performed after the access's earlier parts (R119, R309). -/
  inOrder : Bool := false
  /-- Whose requests to a location it is ordered with (R112): a thread's, or those of a core to its overflow rings; none for an engine's. -/
  line : Option Nat := none
  /-- Of an SO access, which its line performs after the earlier ones (R116). -/
  so : Bool := false
  deriving DecidableEq, Repr

/-- Who makes an access: the thread's instruction, a net instruction of it under way, an instruction that goes on with words of its own
store, its read stream j, its spill engine, its refill, the load pipes of a mill, a yarder or the marking engine for a job, or a core's
start unit or overflow rings. -/
inductive Agent where
  | thread
  | net
  | words
  | stream (j : Nat)
  | spill
  | refill
  | mill (tile : Nat)
  | job (j : Nat)
  | start (core : Nat)
  | ring (core : Nat)
  deriving DecidableEq, Repr

/-- Where a completed access writes its value: a register, which bytes and how extended. -/
structure Dest where
  reg : Reg
  off : Nat
  len : Nat
  signed : Bool
  deriving DecidableEq, Repr

/-- The sum that `dcb` makes of sixteen table entries (R341): whether they are integers, the value added to, the rounding mode, the
destination, and the table with the codes that name the entries. -/
structure Lookup where
  int : Bool
  plus : Word
  rm : BitVec 3
  reg : Reg
  table : Word
  codes : Word
  deriving DecidableEq, Repr

/-- An access in flight (R76, R77, R110). -/
structure Access where
  tid : Nat
  ctx : Nat
  launch : Option Nat
  /-- Requests not yet performed. -/
  left : Nat
  val : Nat := 0
  dests : List Dest
  /-- The thread goes on without it. -/
  posted : Bool
  /-- Counted by releases: an SO or RC access. -/
  covered : Bool
  /-- An SO access or an acquire: later accesses wait for it. -/
  blocks : Bool
  /-- Beyond the compartment: counts in the limit of eight. -/
  far : Bool
  /-- Wholly in banks of the compartment, under the window rule (R66). -/
  near : Bool := false
  /-- Bytes of the address space it covers. -/
  lo : Nat
  size : Nat
  /-- The instruction after the one that made it. -/
  next : Word
  /-- The thread's streams before the instruction popped anything (R310). -/
  undo : Tab Stream := []
  stale : Bool := false
  poisoned : Bool := false
  /-- Offset of the lowest part that was refused or could not be read (R50). -/
  worst : Option Nat := none
  inj : Bool := false
  /-- Cycle at whose end the value or acknowledgement is there. -/
  done : Nat := 0
  /-- Replies that have yet to come over the network. -/
  replies : Nat := 0
  /-- Completion is an acquire: read-ahead elements are discarded (R322). -/
  acquire : Bool := false
  /-- The stream whose pushed element it stores (R321). -/
  push : Option Nat := none
  agent : Agent := .thread
  /-- What its values are summed to (R341). -/
  lookup : Option Lookup := none
  /-- What the bytes that a row of a mill has stored were before: package, address, length and value (R364). -/
  was : List (Nat × Nat × Nat × Nat) := []
  deriving DecidableEq, Repr

/-- A page walk in progress (R48). -/
structure Walk where
  tile : Nat
  ctx : Nat
  va : Nat
  /-- Waiting threads and the address each would report. -/
  waiters : List (Nat × Word)
  /-- Addresses that units of the tile wait for. -/
  units : List Nat := []
  discard : Bool := false
  deriving DecidableEq, Repr

/-- A captured page of a job's footprint (R55): first address, size, package, physical address, generation; a page of
untranslated code has none. -/
structure Page where
  va : Nat
  size : Nat
  pkg : Nat
  pa : Nat
  gen : Option Nat
  deriving DecidableEq, Repr

/-- What a job does for an element (R94): where its bytes go, none when it is skipped, and where they come from, none when it is
filled. -/
structure EltMove where
  to_ : Option Int
  from_ : Option Int
  deriving DecidableEq, Repr

/-- What an access of a job is for: the indices of so many elements, the sources of elements, the destinations of elements, an atomic
on a refcount, or a part of a marking round (R94, R107, R202). -/
inductive JobStep where
  | index (n : Nat)
  | source (es : List EltMove)
  | dest (es : List EltMove)
  | refRead
  | refDrop
  | round
  deriving DecidableEq, Repr

/-- A yarder or marking job with all it captured (R84-R107, R200-R203). -/
structure Job where
  mark : Bool
  ctx : Nat
  launch : Option Nat
  tid : Nat
  /-- The issuing thread as a record names it (R187). -/
  stid : Nat
  core : Nat
  /-- The words of the card or of the marking job. -/
  card : List Word
  pages : List Page
  /-- Where the job stands in the local store (R203). -/
  address : Nat
  /-- The follow-on command with FPC as it stood at issue (R100). -/
  follow : Option MillOp
  /-- The follow-on has taken its number (R100). -/
  followed : Bool := false
  /-- Its accesses wait for the thread's accesses named before this (R122, R134). -/
  before : Nat
  prv : Prv
  /-- The barrier and phase counted at issue (R106). -/
  phase : Option (Nat × BitVec 32)
  /-- Elements completed, and the status with which it ends once the elements before a failed one are written (R96). -/
  n : Nat := 0
  status : Nat := 0
  /-- At its lead yarder (R85), and the cycle in which it was dispatched (R99, R209). -/
  arrived : Bool := false
  sent : Option Nat := none
  /-- The access in flight, and what the reads of a marking round have given so far. -/
  acc : Option (Nat × JobStep) := none
  got : List Nat := []
  /-- The cycle from which its record can be posted, once the other completion effects have taken place (R101, R209). -/
  ended : Option Nat := none
  /-- Which thread of its slot issued it. -/
  serial : Nat := 0
  /-- Named by `yrd.stop` (R108). -/
  asked : Bool := false
  /-- Nothing more is read or written, and every write is acknowledged. -/
  finished : Bool := false
  /-- Bytes of the destination reported to the channel (R104). -/
  reported : Nat := 0
  /-- The refcount has been read and was not 1 (R107). -/
  cowRead : Bool := false
  refc : Nat := 0
  clipd : Bool := false
  clipRows : Nat := 0
  deriving DecidableEq, Repr

/-- A stored word that no longer matches its check bits (R61, R227, R230): the check byte it is read with, whether a test
injected it, and whether a second read fails as the first did. -/
structure Flaw where
  chk : Byte
  inj : Bool := true
  lasting : Bool := true
  deriving DecidableEq, Repr

/-- State of a 64 KiB frame at its home (R56). -/
inductive FrameMode where
  | normal
  | migrating (new : Nat) (gen : Nat) (copied : Bool)
  | forwarded (new : Nat) (gen : Nat)
  deriving DecidableEq, Repr

/-- A frame's state and generation. -/
structure Frame where
  mode : FrameMode := .normal
  gen : Nat := 0
  /-- Units that have reported no access outstanding (R57). -/
  reports : List Nat := []
  /-- Requests held while it migrates, in order of arrival (R56). -/
  retry : List Nat := []
  deriving DecidableEq, Repr

/-- A log entry (R430). -/
structure LogEntry where
  err : Nat
  last : Bool
  inj : Bool
  act : Nat
  src : Nat
  lost : Nat
  ts : Nat
  place : Nat
  det : Nat
  deriving DecidableEq, Repr

/-- A host completion record (R425). -/
structure Record where
  kind : Nat
  status : Nat
  seq : BitVec 32
  tag : Nat
  ts : Nat
  cnt : Nat
  /-- The source number (R432). -/
  src : Nat := 4095
  deriving DecidableEq, Repr

/-- The host link (R423-R425, R448). -/
structure HostLink where
  slots : Tab (List Word) := []
  /-- Kicks waiting, oldest first, with their arrival times. -/
  kicks : List (Word × Nat) := []
  last : BitVec 32 := 0
  /-- Packets taken and not yet carried out. -/
  taken : List (List Word) := []
  posted : Nat := 0
  consumed : Word := 0
  waiting : List Record := []
  /-- System calls for a launch that wait for a frame to finish its migration (R56, R213): the context and the header. -/
  calls : List (Nat × Word) := []
  deriving DecidableEq, Repr

/-- What moves next: a thread's turn, a step of another agent, the firmware, or a failure of a part. -/
inductive Choice where
  | issue (tid : Nat)
  | event (e : Instr)
  /-- The firmware of a compartment ends its oldest containment (R225). -/
  | firmware (c : Nat)
  /-- The firmware maps out a core, or a tile whose mill or instruction store has failed (R26, R82). -/
  | mapOutCore (c : Nat)
  | mapOutTile (t : Nat)
  /-- The firmware degrades a tile's residue map after a lasting channel fault (R228). -/
  | degrade (t : Nat)
  /-- The firmware enqueues a launch for a context that has asked for it by a system call (R213). -/
  | systemLaunch (c : Nat) (header : Word)
  /-- The task of a pair that a mismatch has killed starts again (R226); its lead. -/
  | restart (tid : Nat)
  /-- A word of a local store or of HBM comes to hold an error (R61, R227). -/
  | upset (pa : Nat) (chk : Byte) (lasting : Bool)
  /-- The host writes data by the host link, into its own memory or into HBM (R2). -/
  | hostWrite (pa : Nat) (bytes : List (BitVec 8))
  /-- The firmware reads a scaler for itself or for the system call of a context (R431): the compartment, the scaler, and the address in HBM
  or host memory where it puts what it has read. -/
  | scalerRead (k i pa : Nat)
  deriving DecidableEq, Repr

/-- The whole package. -/
structure State where
  power : Bool
  booted : Bool
  /-- Measurement registers, oldest first (R426). -/
  measures : List (List (BitVec 8))
  pkg : Nat
  now : Nat
  mem : List Host.Cell
  /-- Words with an error, by the key of their first byte (R227, R230). -/
  flaws : Tab Flaw
  frames : Tab Frame
  threads : Tab Thread
  cores : Tab Core
  tiles : Tab Tile
  cmpts : Tab Cmpt
  ctxs : Tab Ctx
  launches : Tab Launch
  parts : Tab Part
  reqs : Tab Req
  accs : Tab Access
  walks : Tab Walk
  packets : Tab Packet
  jobs : Tab Job
  /-- Packets that left for other packages (R41, R193). -/
  away : List Packet
  log : List LogEntry
  lost : Nat
  /-- Compartments, and from 32 on peer ports, out of service after a link failed twice (R227). -/
  dead : List Nat
  /-- The first network cycle free on each pair of compartments, by 32 × sender + receiver (R78). -/
  pairNext : Tab Nat
  host : HostLink
  /-- Model's own: what steps next, oldest first (log 1: DESIGN CHOICE). -/
  agenda : List Choice
  /-- Model's own: the thread that issues. -/
  cur : Nat
  /-- Model's own: the number of the next open value (log 2: DESIGN CHOICE). -/
  fresh : Nat
  /-- Model's own: the next name of an object in flight. -/
  ids : Nat
  deriving DecidableEq, Repr

/-- Right after power is applied: nothing survives (R2), no partition, no context, no thread. -/
def State.reset : State where
  power := true
  booted := false
  measures := []
  pkg := 0
  now := 0
  mem := []
  flaws := []
  frames := []
  threads := []
  cores := []
  tiles := []
  cmpts := []
  ctxs := []
  launches := []
  parts := []
  reqs := []
  accs := []
  walks := []
  packets := []
  jobs := []
  away := []
  log := []
  lost := 0
  dead := []
  pairNext := []
  host := {}
  agenda := []
  cur := 0
  fresh := 0
  ids := 0

end Sys2Proof.Machine
end

