-- ==== Sys2Proof/Machine/Ops.lean ====
section
/-! DEFINITION. The named operations over the machine's units: rows of the tables, clocks, registers and their windows,
bytes of memory, the two ways a fault is taken and the return from a trap. -/

namespace Sys2Proof.Machine

/-! ## Units and their numbers (R14, R19-R21)

A ranger has no core number; its threads are named here as a core numbered 2^14 + compartment on a tile numbered
2048 + compartment (log 6: DESIGN CHOICE). -/

/-- The core of a thread (R20). -/
def coreOf (tid : Nat) : Nat := tid / 16
/-- The slot of a thread (R20). -/
def slotOf (tid : Nat) : Nat := tid % 16
/-- The compartment of a core (R20). -/
def cmptOfCore (c : Nat) : Nat := if c < 16384 then c / 512 else c - 16384
/-- The tile of a core (R35). -/
def tileOfCore (c : Nat) : Nat := if c < 16384 then c / 8 else 2048 + (c - 16384)
/-- The compartment of a tile. -/
def cmptOfTile (t : Nat) : Nat := if t < 2048 then t / 64 else t - 2048
/-- The compartment of a thread. -/
def cmptOf (tid : Nat) : Nat := cmptOfCore (coreOf tid)
/-- The tile of a thread. -/
def tileOf (tid : Nat) : Nat := tileOfCore (coreOf tid)
/-- Whether a thread runs on a ranger (R21). -/
def onRanger (tid : Nat) : Bool := decide (262144 ≤ tid)
/-- The first physical address of a core's local store, a ranger's own for a ranger (R21, R32). -/
def storeBase (c : Nat) : Nat :=
  if c < 16384 then 0x0080_0000_0000 + c * 0x8000 else Config.rangerStore (c - 16384)
/-- The first physical address of a tile's instruction store (R37), a ranger's firmware store for a ranger. -/
def codeBase (t : Nat) : Nat :=
  if t < 2048 then 0x0083_0000_0000 + t * 0x10000 else Config.rangerCode (t - 2048)

/-! ## Rows -/

/-- A thread slot. -/
def thr (s : State) (t : Nat) : Thread := lookD s.threads t {}
/-- Write a thread slot. -/
def setThr (s : State) (t : Nat) (v : Thread) : State := { s with threads := put s.threads t v }
/-- A core. -/
def core (s : State) (c : Nat) : Core := lookD s.cores c {}
/-- Write a core. -/
def setCore (s : State) (c : Nat) (v : Core) : State := { s with cores := put s.cores c v }
/-- A tile. -/
def tile (s : State) (t : Nat) : Tile := lookD s.tiles t {}
/-- Write a tile. -/
def setTile (s : State) (t : Nat) (v : Tile) : State := { s with tiles := put s.tiles t v }
/-- A compartment. -/
def cmpt (s : State) (c : Nat) : Cmpt := lookD s.cmpts c {}
/-- Write a compartment. -/
def setCmpt (s : State) (c : Nat) (v : Cmpt) : State := { s with cmpts := put s.cmpts c v }
/-- A context. -/
def ctx (s : State) (n : Nat) : Ctx := lookD s.ctxs n {}
/-- Write a context. -/
def setCtx (s : State) (n : Nat) (v : Ctx) : State := { s with ctxs := put s.ctxs n v }
/-- A partition. -/
def part (s : State) (p : Nat) : Part := lookD s.parts p {}
/-- Write a partition. -/
def setPart (s : State) (p : Nat) (v : Part) : State := { s with parts := put s.parts p v }
/-- A new name for an object in flight, and the state in which it is used up. -/
def newId (s : State) : Nat × State := (s.ids, { s with ids := s.ids + 1 })
/-- An open value (log 2: DESIGN CHOICE). -/
def openWord (s : State) : Word × State := (Config.freeWord s.fresh, { s with fresh := s.fresh + 1 })

/-! ## Clocks (R5, R206) -/

/-- The cycle a compartment is in. -/
def cycOf (s : State) (c : Nat) : Nat := (cmpt s c).cyc

/-- Bring a compartment forward to cycle `n`. An elastic cycle lasts two network cycles, and a stretched one longer; in
fixed-timing mode cycle n starts at network time 15 n / 7 (R206, log 9: DESIGN CHOICE). -/
def tick (s : State) (c n : Nat) : State :=
  let k := cmpt s c
  if n ≤ k.cyc then s else
    let t := if k.fixt then ceilDiv (15 * n) 7 else k.t + 2 * (n - k.cyc) + k.stretch
    { setCmpt s c { k with cyc := n, t := t, stretch := 0 } with now := max s.now t }

/-- The first turn of a slot in cycle `n` or after (R140). -/
def turnAt (slot n : Nat) : Nat := n + (slot + 16 - n % 16) % 16
/-- The first turn of a slot after cycle `n` (R77, R140). -/
def turnAfter (slot n : Nat) : Nat := turnAt slot (n + 1)

/-- Bring a compartment to the first cycle that starts at or after a network time (R208). -/
def tickTo (s : State) (c t : Nat) : State :=
  let k := cmpt s c
  if t ≤ k.t then s
  else if k.fixt then tick s c (ceilDiv (7 * t) 15)
  else tick s c (k.cyc + ceilDiv (t - k.t) 2)

/-- A scaler's capture of an event of value `v` (R431); the first one sets the minimum (log 44: DEDUCED). -/
def scale (s : State) (c ev v : Nat) : State :=
  let k := cmpt s c
  let f (p : Nat × Scaler) : Nat × Scaler :=
    let x := p.2
    if x.en && x.ev == ev then
      let b := min (Nat.log2 (v + 1)) 31
      (p.1, { x with count := (x.count + 1) % 2 ^ 48
                     min := if x.count == 0 then min v 0xFFFF_FFFF else min x.min v
                     max := min (max x.max v) 0xFFFF_FFFF
                     bins := put x.bins b (min (lookD x.bins b 0 + 1) 0xFFFF_FFFF) })
    else p
  if k.scalers.isEmpty then s else setCmpt s c { k with scalers := k.scalers.map f }

/-! ## Logical identifiers (R22-R24, R26, R82) -/

/-- The compartments of a partition, rising: their places are the logical compartment numbers. -/
def cmptsOf (s : State) (p : Nat) : List Nat :=
  s.cmpts.filterMap fun (k, c) => if c.part = some p then some k else none

/-- The cores now mapped out, rising (R26). -/
def goneNow (s : State) : List Nat := s.cores.filterMap fun (k, c) => if c.mapped then none else some k

/-- The usable cores of a compartment when `gone` are mapped out. -/
def usableIn (gone : List Nat) (c : Nat) : Nat := 512 - (gone.filter fun g => g / 512 == c).length

/-- The `l`-th usable core of a compartment. -/
def nthCore (gone : List Nat) (c l : Nat) : Nat :=
  (gone.filter fun g => g / 512 == c).foldl (fun x g => if g ≤ x then x + 1 else x) (c * 512 + l)

/-- The physical core behind a logical one, among compartments `cs` (R23); none where R24 refuses. -/
def physIn (gone : List Nat) : List Nat → Nat → Option Nat
  | [], _ => none
  | c :: cs, l => if l < usableIn gone c then some (nthCore gone c l) else physIn gone cs (l - usableIn gone c)

/-- The logical number of a physical core among compartments `cs`. -/
def logIn (gone : List Nat) : List Nat → Nat → Nat → Nat
  | [], _, n => n
  | c :: cs, x, n =>
    if x / 512 == c then n + (x % 512 - (gone.filter fun g => g / 512 == c && g < x).length)
    else logIn gone cs x (n + usableIn gone c)

/-- The usable cores of a partition (R27). -/
def usable (s : State) (p : Nat) (gone : List Nat) : Nat := (cmptsOf s p).foldl (fun n c => n + usableIn gone c) 0

/-- The mapped-out cores that a launch's identifiers close over (R26). -/
def goneOf (s : State) (l : Option Nat) : List Nat :=
  match l.bind (look s.launches) with
  | some x => x.gone
  | none => goneNow s

/-- The physical core a thread's instruction names by a logical number (R24). -/
def physCore (s : State) (tid l : Nat) : Option Nat :=
  let t := thr s tid
  physIn (goneOf s t.launch) (cmptsOf s (ctx s t.ctx).part) l

/-- TID: the logical thread number (R23, R253). -/
def logicalTid (s : State) (tid : Nat) : Nat :=
  let t := thr s tid
  logIn (goneOf s t.launch) (cmptsOf s (ctx s t.ctx).part) (coreOf tid) 0 * 16 + slotOf tid

/-- Whether the windows of a core's tile may be named by a context of a partition: its compartment is one of the
partition's and the tile is not mapped out (R38, R82). -/
def inPart (s : State) (p c : Nat) : Bool := (cmpt s (cmptOfCore c)).part == some p && (tile s (tileOfCore c)).mapped

/-- A core leaves the usable set (R26). Threads of running launches stay on it. (log 25: DEDUCED) -/
def mapOutCore (s : State) (c : Nat) : State := setCore s c { core s c with mapped := false }

/-- A tile whose mill or instruction store has failed leaves the usable set with its eight cores (R26, R82). -/
def mapOutTile (s : State) (t : Nat) : State :=
  (List.range 8).foldl (fun s i => mapOutCore s (t * 8 + i)) (setTile s t { tile s t with mapped := false })

/-! ## Registers (R246-R250) -/

/-- The window a thread sees, x8-x31 at 0-23. -/
def curWin (t : Thread) : Tab Word := if t.cur then t.win1 else t.win0
/-- The other resident window. -/
def otherWin (t : Thread) : Tab Word := if t.cur then t.win0 else t.win1
/-- Replace the window a thread sees. -/
def setCurWin (t : Thread) (w : Tab Word) : Thread := if t.cur then { t with win1 := w } else { t with win0 := w }
/-- Replace the other window. -/
def setOtherWin (t : Thread) (w : Tab Word) : Thread := if t.cur then { t with win0 := w } else { t with win1 := w }

/-- The word a register number names in the current window; x0 reads as 0 (R246). -/
def getX (t : Thread) (r : Nat) : Word :=
  if r = 0 then 0 else if r < 8 then lookD t.g r 0 else lookD (curWin t) (r - 8) 0

/-- Write a register; a write to x0 is dropped (R10, R246). -/
def setX (t : Thread) (r : Nat) (v : Word) : Thread :=
  if r = 0 then t
  else if r < 8 then { t with g := put t.g r v }
  else setCurWin t (put (curWin t) (r - 8) v)

/-- Write `n` registers rising from `r` (R309). -/
def setXs (t : Thread) (r : Nat) : List Word → Thread
  | [] => t
  | v :: vs => setXs (setX t r v) (r + 1) vs

/-- The stream that a register number names now (R251). -/
def boundAt (t : Thread) (r : Reg) : Option Nat :=
  let n := r.toNat
  if 20 ≤ n ∧ n < 24 ∧ t.qb.getLsbD (n - 20) = true then some (n - 20) else none

/-- A pending result reaches its register (R290); the storage behind a stream's number is not written while the stream is
bound (R251). The flags merge when it is written (R325). -/
def land (t : Thread) (p : Pend) : Thread :=
  let t := if (boundAt t p.reg).isSome then t else setX t p.reg.toNat p.val
  let f := t.flags
  { t with flags := { spz := f.spz || p.flags.spz, nxa := f.nxa || p.flags.nxa, nv := f.nv || p.flags.nv,
                      dz := f.dz || p.flags.dz, ofl := f.ofl || p.flags.ofl, ufl := f.ufl || p.flags.ufl,
                      nx := f.nx || p.flags.nx } }

/-- Insert in order of landing. -/
def insPend (p : Pend) : List Pend → List Pend
  | [] => [p]
  | q :: qs => if p.land < q.land then p :: q :: qs else q :: insPend p qs

/-- Every result written by the end of cycle `n` (R211, R212); later landings stand over earlier ones. -/
def settle (t : Thread) (n : Nat) : Thread :=
  let t' := (t.pend.filter fun p => p.land ≤ n).foldl land t
  { t' with pend := t.pend.filter fun p => !(p.land ≤ n) }

/-- WCW (R247): busy is 1 while a spill or a refill is in progress. -/
def wcw (t : Thread) : Nat :=
  let busy := decide (0 < t.spilled) || (match t.park with | some (.again .refill _) => true | _ => false)
  t.depth.toNat * 2 ^ 32 + (if busy then 4 else 0) + (if t.olive then 2 else 0) + (if t.cur then 1 else 0)

/-! ## Bytes of memory (R4, R16, R30)

The key of a byte is package number × 2^48 + physical address. -/

/-- The byte at a key: an unlisted byte reads as 0 (log 3: DESIGN CHOICE). -/
def byteAt : List Host.Cell → Nat → Byte
  | [], _ => 0
  | (k, v) :: m, a => if k = a then v else byteAt m a

/-- Write a byte, keeping the canonical form. -/
def setByte : List Host.Cell → Nat → Byte → List Host.Cell
  | [], a, v => if v = 0 then [] else [(a, v)]
  | (k, x) :: m, a, v =>
    if k = a then (if v = 0 then m else (a, v) :: m)
    else if a < k then (if v = 0 then (k, x) :: m else (a, v) :: (k, x) :: m)
    else (k, x) :: setByte m a v

/-- The canonical form: keys strictly rising and no byte of 0 listed. -/
def Memory.wf : List Host.Cell → Bool
  | [] => true
  | [(_, v)] => v != 0
  | (k, v) :: (k', v') :: m => v != 0 && decide (k < k') && Memory.wf ((k', v') :: m)

/-- `n` bytes at a key as one number, the byte at the lowest address lowest (R4). -/
def bytesAt (m : List Host.Cell) (a : Nat) : Nat → Nat
  | 0 => 0
  | n + 1 => (byteAt m a).toNat + 256 * bytesAt m (a + 1) n

/-- Write the low `n` bytes of a number (R4). -/
def setBytes (m : List Host.Cell) (a : Nat) : Nat → Nat → List Host.Cell
  | 0, _ => m
  | n + 1, v => setBytes (setByte m a (BitVec.ofNat 8 v)) (a + 1) n (v / 256)

/-- The key of a physical address of a package. -/
def keyOf (pkg pa : Nat) : Nat := pkg * 2 ^ 48 + pa

/-! ## The physical map (R30-R41) -/

/-- What a physical address names. -/
inductive Place where
  | hbm
  | store (core off : Nat)
  | regs (tid off : Nat)
  | mill (tile off : Nat)
  | code (tile off : Nat)
  | control
  | far (port off : Nat)
  | host (off : Nat)
  | hole
  deriving DecidableEq, Repr

/-- R30. -/
def placeOf (pa : Nat) : Place :=
  if pa < 0x80_0000_0000 then .hbm
  else if pa < 0x80_2000_0000 then .store ((pa - 0x80_0000_0000) / 0x8000) ((pa - 0x80_0000_0000) % 0x8000)
  else if pa < 0x81_0000_0000 then .hole
  else if pa < 0x81_0800_0000 then .regs ((pa - 0x81_0000_0000) / 0x200) ((pa - 0x81_0000_0000) % 0x200)
  else if pa < 0x82_0000_0000 then .hole
  else if pa < 0x82_1000_0000 then .mill ((pa - 0x82_0000_0000) / 0x2_0000) ((pa - 0x82_0000_0000) % 0x2_0000)
  else if pa < 0x83_0000_0000 then .hole
  else if pa < 0x83_0800_0000 then .code ((pa - 0x83_0000_0000) / 0x1_0000) ((pa - 0x83_0000_0000) % 0x1_0000)
  else if pa < 0x84_0000_0000 then .hole
  else if pa < 0x85_0000_0000 then .control
  else if pa < 0x1000_0000_0000 then .hole
  else if pa < 0x2000_0000_0000 then .far ((pa - 0x1000_0000_0000) / 0x400_0000_0000) ((pa - 0x1000_0000_0000) % 0x400_0000_0000)
  else if pa < 0x3000_0000_0000 then .host (pa - 0x2000_0000_0000)
  else .hole

/-- The tier of a range of R30. -/
def tierOf : Place → Option Tier
  | .hbm => some .hbm
  | .store _ _ | .regs _ _ | .mill _ _ | .code _ _ => some .on
  | .far _ _ => some .ft
  | .host _ => some .host
  | .control | .hole => none

/-- The core, or first core of the tile, that an on-chip window belongs to (R38). -/
def unitCore : Place → Option Nat
  | .store c _ => some c
  | .regs t _ => some (t / 16)
  | .mill t _ | .code t _ => some (t * 8)
  | _ => none

/-- Whether a place is a window other than a local store: register, mill or instruction store (R70). -/
def isWindow : Place → Bool
  | .regs _ _ | .mill _ _ | .code _ _ => true
  | _ => false

/-! ## Windows on registers and mills (R33-R36) -/

/-- A register as a window reads it from outside: the storage behind a bound stream's number is not read, so the word is
open (R33, R251, log 7: DEDUCED). -/
def outsideX (t : Thread) (n r : Nat) : Word :=
  if (boundAt t (BitVec.ofNat 5 r)).isSome then Config.freeWord n else getX t r

/-- A register as a window writes it from outside: the storage behind a bound stream's number is not written (R251). -/
def setOutsideX (t : Thread) (r : Nat) (v : Word) : Thread :=
  if (boundAt t (BitVec.ofNat 5 r)).isSome then t else setX t r v

/-- A register-window word (R33); `n` numbers the open value of a bound stream's register. -/
def readRegs (t : Thread) (n off : Nat) : Word :=
  if off < 0x100 then outsideX t n (off / 8)
  else if off < 0x1C0 then lookD (otherWin t) ((off - 0x100) / 8) 0
  else if off = 0x1C0 then BitVec.ofNat 64 (wcw t)
  else 0

/-- A register-window write (R33, R34, R247). -/
def writeRegs (t : Thread) (off : Nat) (v : Word) : Thread :=
  if off < 0x100 then setOutsideX t (off / 8) v
  else if off < 0x1C0 then setOtherWin t (put (otherWin t) ((off - 0x100) / 8) v)
  else t

/-- A byte of operand staging (R35): what a multiply left in it is open (log 13: DESIGN CHOICE). -/
def stagingByte (t : Tile) (o : Nat) : Byte :=
  match look t.staging o, t.staged with
  | some b, _ => b
  | none, some n => Config.freeByte n o
  | none, none => 0

/-- A mill-window word (R35, R256). -/
def readMill (t : Tile) (off : Nat) : Word :=
  if off < 0x1_0000 then
    let e := lookD t.acc (off / 16) {}
    if off / 8 % 2 = 0 then e.a.extractLsb' 0 64 else e.a.extractLsb' 64 64
  else if off < 0x1_8000 then
    (List.range 8).foldr (fun i n => BitVec.ofNat 64 ((stagingByte t (off - 0x1_0000 + i)).toNat + 256 * n.toNat)) 0
  else if off < 0x1_8080 then
    let a := lookD t.anchors ((off - 0x1_8000) / 8) {}
    BitVec.ofNat 64 (a.anch.toNat + (if a.nxa then 2 ^ 16 else 0) + (if a.spz then 2 ^ 17 else 0))
  else 0

/-- A mill-window write (R35, R256, R265): an element loses its special record. -/
def writeMill (t : Tile) (off : Nat) (v : Word) : Tile :=
  if off < 0x1_0000 then
    let e := lookD t.acc (off / 16) {}
    let a : BitVec 128 :=
      if off / 8 % 2 = 0 then e.a.extractLsb' 64 64 ++ v else v ++ e.a.extractLsb' 0 64
    { t with acc := put t.acc (off / 16) { a := a } }
  else if off < 0x1_8000 then
    let bytes := (List.range 8).foldl (fun m i => put m (off - 0x1_0000 + i) (v.extractLsb' (8 * i) 8)) t.staging
    { t with staging := bytes }
  else if off < 0x1_8080 then
    let j := (off - 0x1_8000) / 8
    { t with anchors := put t.anchors j { lookD t.anchors j {} with anch := v.extractLsb' 0 16 } }
  else t

/-! ## Reads and writes at a home (R16, R61, R230) -/

/-- The error of the word that holds a byte. -/
def flawAt (s : State) (key : Nat) : Option Flaw := look s.flaws (key / 8 * 8)

/-- The word that holds a byte as its home reads it, once retried (R61, R227): corrected, or none when the error cannot be
corrected and is there at the second read too. -/
def eccWord (s : State) (key : Nat) : Option Word :=
  let w := BitVec.ofNat 64 (bytesAt s.mem (key / 8 * 8) 8)
  match flawAt s key with
  | none => some w
  | some f => if f.lasting then Config.eccDecode w f.chk else some w

/-- The bytes of a plain home, with the corrections of R61: none when a word among them cannot be corrected. -/
def fetchPlain (s : State) (key : Nat) : Nat → Option Nat
  | 0 => some 0
  | n + 1 =>
    match eccWord s key, fetchPlain s (key + 1) n with
    | some w, some r => some ((w.extractLsb' (8 * (key % 8)) 8).toNat + 256 * r)
    | _, _ => none

/-- Read `n` bytes at a home; windows of this package are views of the registers and the mill. None when the word is
uncorrectable. -/
def readHome (s : State) (pkg pa n : Nat) : Option Nat :=
  if pkg = s.pkg then
    match placeOf pa with
    | .regs t off => some (readRegs (settle (thr s t) (cycOf s (cmptOf t) - 1)) s.fresh off).toNat
    | .mill t off => some (readMill (tile s t) off).toNat
    | _ => if s.flaws.isEmpty then some (bytesAt s.mem (keyOf pkg pa) n) else fetchPlain s (keyOf pkg pa) n
  else some (bytesAt s.mem (keyOf pkg pa) n)

/-- A word is written whole, as its home reads it: the error goes (R61, R230). -/
def correctWord (s : State) (key : Nat) : State :=
  if (flawAt s key).isNone then s
  else
    let k := key / 8 * 8
    let w := (eccWord s key).getD (BitVec.ofNat 64 (bytesAt s.mem k 8))
    { s with mem := setBytes s.mem k 8 w.toNat, flaws := del s.flaws k }

/-- The first byte of a word that a write of `n` bytes keeps in part and that cannot be read for it (R61). -/
def unreadableFor (s : State) (pkg pa n : Nat) : Option Nat :=
  if s.flaws.isEmpty || pkg != s.pkg then none
  else
    let part (a : Nat) : Bool := (a / 8 * 8 < pa || pa + n < a / 8 * 8 + 8) && (eccWord s (keyOf pkg a)).isNone
    if part pa then some pa else if part (pa + n - 1) then some (pa + n - 1) else none

/-- Word `w` of a tile's instruction store, as it stands, may still be fetched after a write (R127). -/
def keepWord (t : Nat) (s : State) (w : Nat) : State :=
  let x := tile s t
  let old := BitVec.ofNat 64 (bytesAt s.mem (keyOf s.pkg (codeBase t + 8 * w)) 8)
  setTile s t { x with buffered := put x.buffered w (old :: lookD x.buffered w []) }

/-- The words of an instruction store that a write changes may still be fetched until a start message (R127). -/
def keepFetched (s : State) (pkg pa n : Nat) : State :=
  if pkg = s.pkg then
    match placeOf pa with
    | .code t off => ((List.range ((off % 8 + n + 7) / 8)).map (off / 8 + ·)).foldl (keepWord t) s
    | _ => s
  else s

/-- Write the low `n` bytes of `v` at a home. -/
def writeHome (s : State) (pkg pa n v : Nat) : State :=
  let plain (s : State) : State :=
    let s := if s.flaws.isEmpty then s
      else (List.range ((pa % 8 + n + 7) / 8)).foldl (fun s i => correctWord s (keyOf pkg (pa / 8 * 8 + 8 * i))) s
    { s with mem := setBytes s.mem (keyOf pkg pa) n v }
  if pkg = s.pkg then
    match placeOf pa with
    | .regs t off => setThr s t (writeRegs (settle (thr s t) (cycOf s (cmptOf t) - 1)) off (BitVec.ofNat 64 v))
    | .mill t off => setTile s t (writeMill (tile s t) off (BitVec.ofNat 64 v))
    | .code _ _ => plain (keepFetched s pkg pa n)
    | _ => plain s
  else plain s

/-- Write a list of bytes at a plain home. -/
def writeByteList (s : State) (pkg pa : Nat) : List Byte → State
  | [] => s
  | b :: bs => writeByteList (writeHome s pkg pa 1 b.toNat) pkg (pa + 1) bs

/-- A number from bytes, the lowest first (R4). -/
def ofBytes : List Byte → Nat
  | [] => 0
  | b :: bs => b.toNat + 256 * ofBytes bs

/-- The low `n` bytes of a number, the lowest first (R4). -/
def toBytes : Nat → Nat → List Byte
  | 0, _ => []
  | n + 1, v => BitVec.ofNat 8 v :: toBytes n (v / 256)

/-! ## The log (R430) -/

/-- The time at which a source's event stands (R432): that of its compartment's cycle, and for the other sources the present. -/
def timeAt (s : State) (src : Nat) : Nat := if src < 2048 then (cmpt s (src / 64)).t else s.now

/-- Insert an entry by timestamp, and among equals by source number (R432). -/
def insLog (e : LogEntry) : List LogEntry → List LogEntry
  | [] => [e]
  | x :: xs => if e.ts < x.ts || (e.ts == x.ts && e.src < x.src) then e :: x :: xs else x :: insLog e xs

/-- Write a log entry, or count it as lost. -/
def logErr (s : State) (err : Nat) (last inj : Bool) (act src place det : Nat) : State :=
  if s.log.length < 4096 then
    { s with log := insLog ⟨err, last, inj, act, src, s.lost, timeAt s src, place, det⟩ s.log, lost := 0 }
  else { s with lost := min (s.lost + 1) 0xFFFF_FFFF }

/-! ## Taking an exception and returning from one (R221-R224) -/

/-- Whether R221 contains the cause. -/
def Cause.contains : Cause → Bool
  | .physicalRange | .overArrival | .illegalEncoding | .illegalPfx | .privilege | .memoryError | .pairMismatch
  | .doubleFault => true
  | _ => false

/-- The code of R221. -/
def Cause.code : Cause → Nat
  | .addressForm => 0x01 | .translationInvalid => 0x02 | .malformedEntry => 0x03 | .permission => 0x04
  | .kind => 0x05 | .tier => 0x06 | .partition => 0x07 | .staleGeneration => 0x08 | .windowAccess => 0x09
  | .alignment => 0x0A | .malformedStructure => 0x0B | .physicalRange => 0x0C | .netAddress => 0x0D
  | .netMalformed => 0x0E | .netPool => 0x0F | .noRule => 0x10 | .crewMembership => 0x11 | .crewBusy => 0x12
  | .crewLimit => 0x13 | .barrierPhase => 0x14 | .overArrival => 0x15 | .waitCount => 0x16
  | .illegalEncoding => 0x17 | .illegalPfx => 0x18 | .privilege => 0x19 | .memoryError => 0x1A
  | .pairMismatch => 0x1B | .residueUnavailable => 0x1C | .doubleFault => 0x1D | .preEmption => 0x20
  | .systemCall => 0x21 | .trap => 0x22

/-- The vector of R221. -/
def Cause.vector : Cause → Nat
  | .preEmption => 0x040
  | .systemCall => 0x080
  | .trap => 0x0C0
  | _ => 0x000

/-- The two bits of a privilege (R254). -/
def prvBits : Prv → BitVec 2
  | .u => 0
  | .s => 1
  | .f => 2

/-- A privilege from its two bits. -/
def prvOf (b : BitVec 2) : Option Prv := if b = 0 then some .u else if b = 1 then some .s else if b = 2 then some .f else none

/-- Send a fault message toward a compartment's ranger (R224). -/
def sendFault (s : State) (c : Nat) (m : FaultMsg) : State :=
  let k := cmpt s c
  setCmpt s c { k with faultNet := k.faultNet ++ [m] }

/-- The last cycle in which a result of the thread lands (R290). -/
def lastLand (t : Thread) : Nat := t.pend.foldl (fun n p => max n p.land) 0

/-- Contain a thread (R224): it halts at `pc` with its registers and pending prefix, and the ranger of its compartment
gets a message. A ranger's own thread is named compartment × 16 + slot (log 6: DESIGN CHOICE). -/
def contain (s : State) (tid : Nat) (c : Cause) (val pc : Word) : State :=
  let t := thr s tid
  let k := cmptOf tid
  let s := setThr s tid { t with life := .contained, pc := pc, park := none, net := none, own := none, why := some c }
  sendFault s k
    { cause := c, ctx := t.ctx, ptid := tid % 262144, pc := pc, val := val, lt := t.lt, inj := c == .memoryError && t.injSeen, prv := t.prv,
      nth := false, inst := t.ir, ts := timeAt s (64 * k), cgen := (ctx s t.ctx).cgen, src := 64 * k }

/-- Drop read-ahead elements of every stream of a thread (R322). -/
def discardAhead (t : Thread) : Thread :=
  { t with streams := t.streams.map fun (k, q) => (k, { q with ahead := [] }) }

/-- Enter the trap routine (R222): TEPC, TCA and TVAL are written, the privilege is kept in PPRV and becomes S, IT is
set, and PC goes to TVB's base plus the vector. The routine's first turn follows every pending result (R290). What streams have read
ahead at the former privilege is read again, since a pop is a load at the privilege of its instruction (R321). -/
def enterTrap (s : State) (tid : Nat) (c : Cause) (tval tepc : Word) : State :=
  let t := thr s tid
  let base := (ctx s t.ctx).tvb
  setThr s tid
    { discardAhead t with
      tepc := tepc, tca := BitVec.ofNat 8 c.code, tval := tval, pprv := prvBits t.prv, it := true, prv := .s
      pc := base + BitVec.ofNat 64 c.vector, park := none, net := none, own := none
      turn := turnAfter (slotOf tid) (max (cycOf s (cmptOf tid)) (lastLand t)) }

/-- Take the fault of a cause (R221-R223): trapped, or contained; a trap cause inside a handler or at F is contained
with double-fault. (log 26: DEDUCED) -/
def takeFault (s : State) (tid : Nat) (c : Cause) (tval tepc : Word) : State :=
  let t := thr s tid
  if c.contains then contain s tid c tval tepc
  else if t.it || t.prv == .f then contain s tid .doubleFault tval tepc
  else enterTrap s tid c tval tepc

/-- Return from a trap (R222): IT is cleared, the privilege restored and PC resumes at TEPC; what streams have read ahead is read again (R321). -/
def trapReturn (t : Thread) (p : Prv) : Thread := { discardAhead t with it := false, prv := p, pc := t.tepc }

/-- Send the message of a fault that involves no thread (R221, R224). -/
def faultNoThread (s : State) (k : Nat) (c : Cause) (n : Nat) (pc val : Word) (inj : Bool) : State :=
  sendFault s k
    { cause := c, ctx := n, ptid := 0, pc := pc, val := val, lt := false, inj := inj, prv := .u, nth := true,
      inst := 0, ts := timeAt s (64 * k), cgen := (ctx s n).cgen, src := 64 * k }

/-! ## What an instruction comes to -/

/-- How an instruction ends for its thread. -/
inductive Eff where
  /-- PC moves past it. -/
  | done
  /-- PC goes to an address. -/
  | jump (pc : Word)
  /-- PC moves past it, and the thread issues in its first turn after cycle `n` (R77). -/
  | upTo (n : Nat)
  /-- A fault with its TVAL; TEPC names the instruction (R222). -/
  | fault (c : Cause) (tval : Word)
  /-- `trap` and `sysc`: TEPC names the next instruction (R222). -/
  | call (c : Cause) (tval : Word)
  /-- The instruction issues again at each turn until it can complete. -/
  | park (why : Wait)
  /-- It has issued and completes with the reply of an access. -/
  | wait (acc : Nat)
  /-- The instruction has set the thread's PC and life itself. -/
  | moved
  deriving DecidableEq, Repr

/-- A part of an instruction: a value, or how the instruction ends. -/
inductive Res (α : Type) where
  | ok (a : α) (s : State)
  | stop (e : Eff) (s : State)

/-- Go on with a value. -/
def Res.run {α : Type} (r : Res α) (f : α → State → Eff × State) : Eff × State :=
  match r with
  | .ok a s => f a s
  | .stop e s => (e, s)

/-- Chain two parts. -/
def Res.bind {α β : Type} (r : Res α) (f : α → State → Res β) : Res β :=
  match r with
  | .ok a s => f a s
  | .stop e s => .stop e s

/-- Stop unless a condition holds. -/
def need (b : Bool) (e : Eff) (s : State) : Res Unit := if b then .ok () s else .stop e s

end Sys2Proof.Machine
end

