-- ==== Sys2Proof/Machine/Access.lean ====
section
/-! DEFINITION. Translation, the checks an access passes, requests and where they are served, and streams
(R28-R58, R60-R77, R110-R119, R308-R322). -/

namespace Sys2Proof.Machine

/-! ## Errors met by a read (R61, R227, R230) -/

/-- The source number of what logs an error at a home (R432, log 15: DEDUCED): the compartment of a local store, or the pseudo-channel's
yarder. -/
def logSource (pa : Nat) : Nat :=
  match placeOf pa with
  | .store c _ => 64 * cmptOfCore c
  | _ => 2048 + bits pa 38 36 * 64 + bits pa 13 8

/-- Log the error of a word that a read has met, after its retry (R227): one that is gone is transient. The firmware maps out the
core of a local store whose word stays unreadable, and retires the frame of an HBM word; an injected word does neither (R230). -/
def logEcc (s : State) (pa : Nat) (f : Flaw) : State :=
  let k := keyOf s.pkg pa / 8 * 8
  let store := match placeOf pa with | .store c _ => some c | _ => none
  let act := if !f.lasting || f.inj then 0 else if store.isSome then 2 else 1
  let s := logErr s (if store.isSome then 0x01 else 0x02) f.lasting f.inj act (logSource pa) pa f.chk.toNat
  if !f.lasting then { s with flaws := del s.flaws k }
  else match store with
    | some c => if f.inj then s else mapOutCore s c
    | none => s

/-- What a read of `n` bytes leaves: a log entry for every word of which it met an uncorrectable error (R227). -/
def noteErrors (s : State) (pkg pa n : Nat) : State :=
  if s.flaws.isEmpty || pkg != s.pkg then s
  else (List.range ((pa % 8 + n + 7) / 8)).foldl (fun s i =>
    let w := pa / 8 * 8 + 8 * i
    match flawAt s (keyOf pkg w) with
    | some f => if !f.lasting || (eccWord s (keyOf pkg w)).isNone then logEcc s w f else s
    | none => s) s

/-- What a write of `n` bytes leaves of the words that it keeps in part, and therefore reads (R61). -/
def noteWrite (s : State) (pkg pa n : Nat) : State :=
  let s := if pa % 8 != 0 || n < 8 then noteErrors s pkg pa 1 else s
  if (pa + n) % 8 != 0 then noteErrors s pkg (pa + n - 1) 1 else s

/-- Whether the unreadable word among some bytes is an injected one (R230). -/
def injectedIn (s : State) (pkg pa n : Nat) : Bool :=
  (List.range ((pa % 8 + n + 7) / 8)).any fun i =>
    let k := keyOf pkg (pa / 8 * 8 + 8 * i)
    (eccWord s k).isNone && (flawAt s k).any Flaw.inj

/-- What a read of a thread's instruction leaves, with what its fault message would say of the word (R224, R227, R230). -/
def noteRead (s : State) (tid pkg pa n : Nat) : State :=
  if s.flaws.isEmpty then s
  else noteErrors (setThr s tid { thr s tid with injSeen := injectedIn s pkg pa n }) pkg pa n

/-! ## Page tables (R42-R45) -/

/-- The ranges of R30 that a leaf may map, with their tiers. -/
def regions : List (Nat × Nat × Tier) :=
  [(0, 0x80_0000_0000, .hbm), (0x80_0000_0000, 0x80_2000_0000, .on), (0x81_0000_0000, 0x81_0800_0000, .on),
   (0x82_0000_0000, 0x82_1000_0000, .on), (0x83_0000_0000, 0x83_0800_0000, .on),
   (0x1000_0000_0000, 0x2000_0000_0000, .ft), (0x2000_0000_0000, 0x3000_0000_0000, .host)]

/-- Whether `n` bytes lie in one range of a tier. -/
def within (pa n : Nat) (t : Tier) : Bool := regions.any fun (lo, hi, k) => lo ≤ pa && pa + n ≤ hi && k == t

/-- The tier field of R43 and R44. -/
def tierBits (n : Nat) : Tier := if n = 0 then .on else if n = 1 then .hbm else if n = 2 then .ft else .host

/-- The leaf an entry at `level` gives for an address (R44, R45), the next table, or the fault. -/
def readEntry (own ctxn va level e : Nat) : Except Cause (Nat ⊕ Leaf) :=
  if !bit e 63 then .error .translationInvalid
  else if !bit e 62 then
    let next := bits e 47 8 * 256
    let tier := tierBits (bits e 61 60)
    let size := if level = 2 then 256 else 4096
    if level = 3 || bits e 59 48 != 0 || bits e 7 0 != 0 || tier == .ft || next % size != 0
      || !within next size tier then .error .malformedEntry
    else .ok (.inl next)
  else
    let pa := bits e 47 16 * 65536
    let size := if level = 1 then 2 ^ 30 else if level = 2 then 2 ^ 21 else 2 ^ 16
    let tier := tierBits (bits e 61 60)
    let pkg := bits e 57 52
    if level = 0 || bits e 59 58 == 3 || bits e 15 14 != 0 || bits e 10 0 != 0 || pa % size != 0
      || !within pa size tier || (pkg != own && (tier == .ft || tier == .host)) || (bit e 12 && !bit e 11) then
      .error .malformedEntry
    else
      .ok (.inr { ctx := ctxn, va := va / size * size, size := size, tier := tier
                  ord := if bits e 59 58 = 0 then .so else if bits e 59 58 = 1 then .rc else .uo
                  pkg := pkg, gen := bits e 51 48, pa := pa, s := bit e 13, w := bit e 12, rd := bit e 11 })

/-- The index of a level (R42). -/
def levelIndex (va level : Nat) : Nat :=
  if level = 0 then bits va 51 39 else if level = 1 then bits va 38 30 else if level = 2 then bits va 29 21
  else bits va 20 16

/-- A page walk (R48): each entry is read at its home. -/
def walkFrom (s : State) (ctxn va table : Nat) : List Nat → Except Cause Leaf
  | [] => .error .malformedEntry
  | level :: rest =>
    match readHome s s.pkg (table + 8 * levelIndex va level) 8 with
    | none => .error .memoryError
    | some e =>
      match readEntry s.pkg ctxn va level e with
      | .error c => .error c
      | .ok (.inr l) => .ok l
      | .ok (.inl next) => walkFrom s ctxn va next rest

/-- The walk of an address of a context. -/
def walkPage (s : State) (ctxn va : Nat) : Except Cause Leaf := walkFrom s ctxn va (ctx s ctxn).root [0, 1, 2, 3]

/-- The cached leaf of an address (R47). -/
def cached (s : State) (tl ctxn va : Nat) : Option Leaf :=
  (tile s tl).tlb.find? fun l => l.ctx == ctxn && l.va ≤ va && va < l.va + l.size

/-- Install a leaf; the cache holds 256 (R47). -/
def install (s : State) (tl : Nat) (l : Leaf) : State :=
  let t := tile s tl
  setTile s tl { t with tlb := (l :: t.tlb.filter fun m => !(m.ctx == l.ctx && m.va == l.va)).take 256 }

/-- The addresses of the entries that a walk reads (R48). -/
def walkReads (s : State) (ctxn va table : Nat) : List Nat → List Nat
  | [] => []
  | level :: rest =>
    let pa := table + 8 * levelIndex va level
    pa :: match readHome s s.pkg pa 8 with
      | none => []
      | some e =>
        match readEntry s.pkg ctxn va level e with
        | .ok (.inl next) => walkReads s ctxn va next rest
        | _ => []

/-- The entries that the walk of an address of a context reads. -/
def walkOn (s : State) (ctxn va : Nat) : List Nat := walkReads s ctxn va (ctx s ctxn).root [0, 1, 2, 3]

/-- What the walker's own reads leave in the log (R227). -/
def noteWalk (s : State) (ctxn va : Nat) : State :=
  if s.flaws.isEmpty then s else (walkOn s ctxn va).foldl (fun s pa => noteErrors s s.pkg pa 8) s

/-- Whether an entry that a walk cannot read is an injected word (R224, R230). -/
def walkInjected (s : State) (ctxn va : Nat) : Bool := (walkOn s ctxn va).any fun pa => injectedIn s s.pkg pa 8

/-- What an unreadable entry of a walk leaves of its thread: what its fault message would say of the word (R224, R230). -/
def seenWalk (s : State) (tid ctxn va : Nat) : State := setThr s tid { thr s tid with injSeen := walkInjected s ctxn va }

/-! ## The checks of an access (R46, R50, R308) -/

/-- What an access does. -/
inductive AccKind where
  | load | store | atomic
  deriving DecidableEq, Repr

/-- Where the checks end. -/
inductive Chk where
  | fault (c : Cause) (va : Nat)
  | walk (va : Nat)
  deriving DecidableEq, Repr

/-- One part of an access before its translation: address, length and offset. -/
abbrev Slice := Nat × Nat × Nat

/-- Whether a leaf's permission refuses an access (R46). -/
def forbids (p : Prv) (k : AccKind) (l : Leaf) : Bool :=
  (p == .u && l.s) || (k != .store && !l.rd) || (k != .load && !l.w)

/-- Whether bytes of a window are named at another width or alignment than it takes: the registers and the mill take aligned
8-byte words (R33, R35), and an atomic takes none (R69). -/
def windowRefuses (k : AccKind) (pa len : Nat) : Bool :=
  match placeOf pa with
  | .regs _ _ | .mill _ _ => k == .atomic || len % 8 != 0 || pa % 8 != 0
  | .code _ _ => k == .atomic
  | _ => false

/-- Who makes an access, as its checks need it: the unit's core, its tile, the context, and the privilege. -/
structure Asker where
  core : Nat
  tile : Nat
  ctx : Nat
  prv : Prv
  deriving DecidableEq, Repr

/-- Whether a translated part fails a check of R308 that follows permission. -/
def leafFails (s : State) (w : Asker) (k : AccKind) (ordered straddles : Bool) (c : Cause) (q : Slice × Leaf) : Bool :=
  let l := q.2
  let pa := l.pa + (q.1.1 - l.va)
  match c with
  | .kind => (ordered && l.ord == .uo) || (straddles && (ordered || k == .atomic))
  | .tier => l.tier == .ft || (k == .atomic && l.tier == .host)
  | .windowAccess => windowRefuses k pa q.1.2.1
  | .partition => l.pkg == s.pkg && (unitCore (placeOf pa)).any fun c => !inPart s (ctx s w.ctx).part c
  | _ => false

/-- The compartment whose ranger's private local store holds an address (R21). -/
def rangerOf (pa : Nat) : Option Nat :=
  if Config.rangerStore 0 ≤ pa ∧ pa < Config.rangerStore 32 then some ((pa - Config.rangerStore 0) / 0x8000) else none

/-- Whether an untranslated part fails a check (R29, R38): a ranger's private store is a hole to every other code (R21).
(log 17: DEDUCED) -/
def bareFails (w : Asker) (k : AccKind) (c : Cause) (q : Slice) : Bool :=
  let pa := q.1
  let private_ (a : Nat) : Bool := (rangerOf a).any fun r => w.core != 16384 + r
  match c with
  | .physicalRange => placeOf pa == .hole || private_ pa || private_ (pa + q.2.1 - 1)
  | .tier => match placeOf pa with | .far _ _ => true | .host _ => k == .atomic | _ => false
  | .windowAccess => windowRefuses k pa q.2.1
  | _ => false

/-- An access split at the boundary of the 64 KiB it straddles (R51, R119): address, length and offset of each part. -/
def splitPage (va n : Nat) : List (Nat × Nat × Nat) :=
  let room := 65536 - va % 65536
  if n ≤ room then [(va, n, 0)] else [(va, room, 0), (va + room, n - room, room)]

/-- The leaf of every part, each translated and permitted in order, or where that stops (R308, R50, R51). -/
def translateParts (s : State) (w : Asker) (k : AccKind) : List Slice → Except Chk (List (Slice × Leaf))
  | [] => .ok []
  | q :: rest =>
    match cached s w.tile w.ctx q.1 with
    | none => .error (.walk q.1)
    | some l =>
      if forbids w.prv k l then .error (.fault .permission q.1)
      else match translateParts s w k rest with
        | .error e => .error e
        | .ok ls => .ok ((q, l) :: ls)

/-- The first of some checks that a part fails, and the lowest such part. -/
def firstFail {α : Type} (checks : List Cause) (parts : List α) (fails : Cause → α → Bool) : Option (Cause × α) :=
  checks.findSome? fun c => (parts.find? (fails c)).map fun p => (c, p)

/-- The piece of a translated part. -/
def pieceOf (q : Slice × Leaf) : Piece := ⟨q.2.pkg, q.2.pa + (q.1.1 - q.2.va), q.1.2.1, q.1.2.2, some q.2.gen, q.2.ord⟩

/-- The pieces of an access, or the first check that fails (R308): translation and permission of every part, then page kind,
tier, window and partition. -/
def checkParts (s : State) (w : Asker) (k : AccKind) (ordered : Bool) (parts : List Slice) : Except Chk (List Piece) :=
  if w.prv == .f then
    match firstFail [.physicalRange, .tier, .windowAccess] parts (bareFails w k) with
    | some (c, q) => .error (.fault c q.1)
    | none => .ok (parts.map fun q => ⟨s.pkg, q.1, q.2.1, q.2.2, none, .rc⟩)
  else
    match translateParts s w k parts with
    | .error e => .error e
    | .ok ls =>
      let straddles := match ls with | (_, l) :: _ => parts.any (fun r => !(l.va ≤ r.1 && r.1 < l.va + l.size)) | [] => false
      match firstFail [.kind, .tier, .windowAccess, .partition] ls (leafFails s w k ordered straddles) with
      | some (c, q) => .error (.fault c q.1.1)
      | none => .ok (ls.map pieceOf)

/-- A thread as the checks see it. -/
def asker (s : State) (tid : Nat) : Asker := ⟨coreOf tid, tileOf tid, (thr s tid).ctx, (thr s tid).prv⟩

/-! ## Watermarks (R105) -/

/-- Whether a byte lies above an active watermark of the context on a core: in [watermark, limit). -/
def aboveMark (s : State) (c ctxn lo n : Nat) : Bool :=
  (core s c).chans.any fun (_, ch) => ch.ctx == ctxn && ch.wm < ch.limit && lo < ch.limit && ch.wm < lo + n

/-! ## Accesses in flight (R60-R77) -/

/-- The transit of R62 between two cores of one compartment. -/
def transit (a b : Nat) : Nat := if a / 8 = b / 8 then 1 else if a / 128 = b / 128 then 3 else 5

/-- The source number of a thread's requests (R64). -/
def sourceOf (tid : Nat) : Nat := if onRanger tid then 578 else coreOf tid % 512

/-- How a piece is reached (R70). -/
inductive Reach where
  /-- A bank of the issuer's compartment. -/
  | near (core : Nat)
  /-- A bank of another compartment. -/
  | far (core : Nat)
  /-- A window, and whether it is in the issuer's compartment. -/
  | window (core : Nat) (own : Bool)
  /-- HBM, the host, another package, or a ranger's own store. -/
  | home
  deriving DecidableEq, Repr

/-- How a piece is reached (R70, R446). -/
def reachOf (s : State) (k : Nat) (p : Piece) : Reach :=
  if p.pkg != s.pkg then .home
  else match placeOf p.pa with
    | .store c _ => if cmptOfCore c = k then .near c else .far c
    | .regs t _ => .window (t / 16) (decide (cmptOfCore (t / 16) = k))
    | .mill t _ | .code t _ => .window (t * 8) (decide (cmptOfCore (t * 8) = k))
    | _ => .home

/-- Whether a reach leaves the compartment (R76). A store to a window of the thread's own compartment is not counted among the 8.
(log 46: DESIGN CHOICE) -/
def Reach.beyond : Reach → Bool
  | .near _ => false
  | .window _ own => !own
  | _ => true

/-- Whether an agent's access is one that the thread has made: an element read ahead is not yet one, and an engine's never
is (R122, R322). -/
def Agent.made : Agent → Bool
  | .thread | .net | .words | .spill | .refill => true
  | _ => false

/-- Whether an agent makes accesses of the thread itself. -/
def Agent.own : Agent → Bool
  | .mill _ | .job _ | .start _ | .ring _ => false
  | _ => true

/-- Whose accesses an agent's are ordered with where they meet (R112): its thread's, or those of its core to the overflow rings. -/
def Agent.line (tid : Nat) : Agent → Option Nat
  | .mill _ | .job _ | .start _ => none
  | .ring c => some (2 ^ 20 + c)
  | _ => some tid

/-- The accesses that a thread has made and that are in flight. -/
def accsOf (s : State) (tid : Nat) : List (Nat × Access) := s.accs.filter fun p => p.2.tid == tid && p.2.agent.made

/-- Whether a request covers a byte of a range. -/
def covers (lo n lo' n' : Nat) : Bool := lo < lo' + n' && lo' < lo + n

/-- The aligned words of a piece: physical address, length and offset in the access (R60). -/
def wordsOf (p : Piece) : List (Nat × Nat × Nat) :=
  let k := (p.pa % 8 + p.len + 7) / 8
  (List.range k).map fun i =>
    let lo := max p.pa (p.pa / 8 * 8 + 8 * i)
    let hi := min (p.pa + p.len) (p.pa / 8 * 8 + 8 * i + 8)
    (lo, hi - lo, p.off + (lo - p.pa))

/-- The network cycle from which a flit that is ready at the end of the compartment's cycle may be sent (R206, R208): in
elastic mode the crossing takes `delay` network cycles. -/
def eligible (k : Cmpt) (delay : Nat) : Nat := if k.fixt then ceilDiv (15 * (k.cyc + 1)) 7 + 2 else k.t + 2 + delay

/-- The delay of an elastic crossing, from 2 to 5 network cycles (R206): an open value. -/
def crossing (s : State) (c : Nat) : Nat × State :=
  if (cmpt s c).fixt then (2, s)
  else
    let (w, s) := openWord s
    (2 + w.toNat % 4, s)

/-- A packet on its way between compartments starts at its sender, behind the earlier ones for that pair (R78, R79). -/
def sendPacket (s : State) (cls : Class) (src dst corn flits : Nat) (sender : Option (Nat × Nat)) (b : Body) : State :=
  let (n, s) := newId s
  let (d, s) := crossing s src
  let first := s.packets.foldl (fun m p =>
    if p.2.src == src && p.2.dst == dst && p.2.stage == .sending then max m p.2.time else m) (eligible (cmpt s src) d)
  let p : Packet :=
    { cls := cls, src := src, dst := dst, body := b, core := corn, flits := flits, stage := .sending, time := first,
      sender := sender }
  { s with packets := put s.packets n p }

/-- What an instruction, or a unit, asks of memory. -/
structure Ask where
  kind : AccKind
  acq : Bool := false
  rel : Bool := false
  va : Word
  size : Nat
  /-- Width that the address must be a multiple of, for atomics. -/
  align : Nat := 1
  /-- The operation on the bytes at an offset, given length and offset. -/
  op : Nat → Nat → ReqOp
  dests : List Dest := []
  /-- A plain load, which migrates (R71). -/
  migrates : Bool := false
  next : Word
  push : Option Nat := none
  agent : Agent := .thread
  /-- The context, where it is not the thread's that stands in the slot now. -/
  forCtx : Option Nat := none
  /-- What its values are summed to (R341). -/
  lookup : Option Lookup := none
  /-- Its requests may be served in the cycle in which they are made: the time of the work is published as a whole (R209, R357). -/
  now : Bool := false

/-- Whether a reach is in another compartment of the package, to which requests travel by the TDN (R70). -/
def Reach.remote : Reach → Bool
  | .far _ | .window _ false => true
  | _ => false

/-- The transit of a request inside the compartment, 0 beyond it (R62, R446); a compartment's yarder and marking engine stand at the
level of the compartment (R14). -/
def Reach.transit (tid : Nat) (g : Agent) : Reach → Nat
  | .near b | .window b true => match g with
    | .job _ => 5
    | _ => if onRanger tid then 5 else Machine.transit (coreOf tid) b
  | _ => 0

/-- The source number of an agent's requests (R64). -/
def Agent.source (tid : Nat) : Agent → Nat
  | .mill tl => 512 + tl % 64
  | .job _ => 576
  | _ => sourceOf tid

/-- The request for one aligned word of a piece: its address, its length and its offset in the access (R60). -/
def addReq (acc tid : Nat) (q : Ask) (inOrder : Bool) (p : Piece) (s : State) (w : Nat × Nat × Nat) : State :=
  let k := cmptOf tid
  let r := reachOf s k p
  let tr := if q.now then 0 else r.transit tid q.agent
  let cn := q.forCtx.getD (thr s tid).ctx
  let (n, s) := newId s
  let rq : Req :=
    { acc := acc, tid := tid, ctx := cn, cgen := (ctx s cn).cgen, pkg := p.pkg, pa := w.1
      len := w.2.1, off := w.2.2, op := q.op w.2.1 w.2.2, gen := p.gen, src := q.agent.source tid, transit := tr
      earliest := if r.remote then 0 else cycOf s k + (tr + 1) / 2
      remote := r.remote, travelling := r.remote, piece := p.off, part := p.len, inOrder := inOrder, line := q.agent.line tid
      so := p.ord == .so }
  { s with reqs := put s.reqs n rq }

/-- The requests of one piece; to another compartment they go in one message of the request class with the bytes to be written as its
payload (R79, log 41: DEDUCED). -/
def addReqs (s : State) (acc tid : Nat) (q : Ask) (inOrder : Bool) (p : Piece) : State :=
  let k := cmptOf tid
  let ws := wordsOf p
  let t := ws.foldl (addReq acc tid q inOrder p) s
  match reachOf s k p with
  | .far b | .window b false =>
    let payload := if q.kind == .load then 0 else p.len
    sendPacket t .request k (cmptOfCore b) b (max 1 (ceilDiv payload 128)) (some (tid, (thr s tid).serial))
      (.req ((List.range ws.length).map (s.ids + ·)))
  | _ => t

/-- Whether the thread stays where it is (R74): its slot, its pairing, its launch, its clock, its mill work, its streams
and its jobs. A ranger's thread stays too, since a ranger is no core (log 6: DESIGN CHOICE). -/
def stays (s : State) (tid : Nat) : Bool :=
  let t := thr s tid
  let k := cmptOf tid
  let x := tile s (tileOf tid)
  slotOf tid == 0 || onRanger tid || t.lt || t.det || (cmpt s k).fixt || t.qb != 0 || t.held.isSome
    || (x.dispatched ++ x.millQ).any (fun m => m.tid == tid && m.serial == t.serial)
    || ((cmpt s k).entries ++ (cmpt s k).arrivals).any (fun e => e.mill.any fun m => m.tid == tid && m.serial == t.serial)
    || s.jobs.any (fun p => p.2.tid == tid && p.2.serial == t.serial)

/-- The walk in progress for a page of a context on a tile. -/
def walkOf (s : State) (tl ctxn pg : Nat) : Option (Nat × Walk) :=
  s.walks.find? fun p => p.2.tile == tl && p.2.ctx == ctxn && p.2.va == pg && !p.2.discard

/-- Start a walk for a thread, or join the one in progress for the page (R48); every miss is counted (R49). -/
def startWalk (s : State) (tid va : Nat) (tval : Word) : State :=
  let t := thr s tid
  let tl := tileOf tid
  let pg := va / 65536 * 65536
  match walkOf s tl t.ctx pg with
  | some (n, w) =>
    if w.waiters.any (fun q => q.1 == tid) then s
    else { scale s (cmptOf tid) 0x05 1 with walks := put s.walks n { w with waiters := w.waiters ++ [(tid, tval)] } }
  | none =>
    let (n, s) := newId s
    let s := scale s (cmptOf tid) 0x05 1
    { s with walks := put s.walks n { tile := tl, ctx := t.ctx, va := pg, waiters := [(tid, tval)] } }

/-- The same for a unit's own access, which it makes again when the walk has ended. -/
def unitWalk (s : State) (w : Asker) (va : Nat) : State :=
  let pg := va / 65536 * 65536
  match walkOf s w.tile w.ctx pg with
  | some (n, x) =>
    if x.units.contains va then s
    else { scale s (cmptOfTile w.tile) 0x05 1 with walks := put s.walks n { x with units := va :: x.units } }
  | none =>
    let (n, s) := newId s
    let s := scale s (cmptOfTile w.tile) 0x05 1
    { s with walks := put s.walks n { tile := w.tile, ctx := w.ctx, va := pg, waiters := [], units := [va] } }

/-- The checks 1 to 3 of R308 on an access, with the pieces it is made of. -/
def checkAsk (s : State) (tid : Nat) (q : Ask) : Res (List Piece) :=
  let va := q.va.toNat
  if 2 ^ 52 ≤ va || 2 ^ 52 < va + q.size then .stop (.fault .addressForm q.va) s
  else if va % q.align != 0 then .stop (.fault .alignment q.va) s
  else
    match checkParts s (asker s tid) q.kind (q.acq || q.rel) (splitPage va q.size) with
    | .error (.fault c a) => .stop (.fault c (BitVec.ofNat 64 a)) s
    | .error (.walk a) => .stop (.park .walk) (startWalk s tid a (BitVec.ofNat 64 (max a va)))
    | .ok ps => .ok ps s

/-! ## Streams (R319-R322) -/

/-- A stream of a thread. -/
def stream (t : Thread) (j : Nat) : Stream := lookD t.streams j {}
/-- Replace a stream. -/
def setStream (t : Thread) (j : Nat) (q : Stream) : Thread := { t with streams := put t.streams j q }
/-- The number of elements (R319). -/
def Stream.count (q : Stream) : Nat := q.e0 * q.e1 * q.e2
/-- The width of an element in bytes. -/
def Stream.width (q : Stream) : Nat := 2 ^ q.esz
/-- The address of element n (R319). -/
def Stream.addr (q : Stream) (n : Nat) : Int :=
  q.base + (n % q.e0 * q.width : Nat) + (n / q.e0 % q.e1 : Nat) * q.s1 + (n / (q.e0 * q.e1) : Nat) * q.s2

/-- An element or fill value, extended (R321). -/
def Stream.extend (q : Stream) (v : Nat) : Word :=
  let n := 8 * q.width
  if q.zeroExt then BitVec.ofNat 64 (v % 2 ^ n) else wordOf (signedOf v n)

/-- The address of a stream's element as an operand (R28, R308). -/
def elemAddr (q : Stream) (n : Nat) : Word := wordOf (q.addr n)

/-- Pop one element (R321), a load: it waits above a watermark (R105). The pop of an SO element is an SO access, at which what stands
ahead is read again (R322). Reading a write stream gives an open value (log 7: DEDUCED). -/
def popStream (s : State) (tid j : Nat) : Res Word :=
  let t := thr s tid
  let q := stream t j
  if q.write then
    let (w, s) := openWord s
    .ok w s
  else if q.pos = q.count then
    .ok (q.extend q.fill.toNat) (setThr s tid (setStream t j { q with ovr := true }))
  else if t.prv != .f && aboveMark s (coreOf tid) t.ctx (elemAddr q q.pos).toNat q.width then .stop (.park .watermark) s
  else
    match q.ahead with
    | .bad c va _ inj :: _ =>
      .stop (.fault c va) (if c = .memoryError then setThr s tid { t with injSeen := inj } else s)
    | .val w _ so :: rest =>
      let t := setStream t j { q with ahead := rest, pos := q.pos + 1 }
      .ok w (setThr s tid (if so then discardAhead t else t))
    | _ => .stop (.park .stream) s

/-- The pieces of a unit's own access, which waits for a walk of its own or for the one in progress (R48); a walk of its own that will end
in a fault gives it at once, since a walk's time is open (R49). (log 8: DEDUCED) -/
def piecesNow (s : State) (w : Asker) (k : AccKind) (va : Word) (n : Nat) : Except Chk (List Piece) × State :=
  let a := va.toNat
  if 2 ^ 52 ≤ a || 2 ^ 52 < a + n then (.error (.fault .addressForm a), s)
  else
    match checkParts s w k false (splitPage a n) with
    | .error (.walk v) =>
      if (walkOf s w.tile w.ctx (v / 65536 * 65536)).isSome then (.error (.walk v), unitWalk s w v)
      else match walkPage s w.ctx v with
        | .error c => (.error (.fault c v), noteWalk (scale s (cmptOfTile w.tile) 0x05 1) w.ctx v)
        | .ok _ => (.error (.walk v), unitWalk s w v)
    | r => (r, s)

/-! ## Order (R76, R105, R112, R114, R116) -/

/-- The wait for order before an access: an earlier acquire or SO access (R114, R116), and for a release or an SO access
every earlier covered access (R114). -/
def orderHeld (s : State) (tid : Nat) (ps : List Piece) (rel : Bool) : Bool :=
  let so := ps.any fun p => p.ord == .so
  (accsOf s tid).any fun p => p.2.blocks || ((rel || so) && p.2.covered)

/-- Where the bytes of an address stand once its frames' migrations are over: along every forwarding record and every migration
in progress (R56, R57). `fuel` bounds the chain. -/
def trueHome (s : State) : Nat → Nat → Nat → Nat
  | 0, pkg, pa => keyOf pkg pa
  | fuel + 1, pkg, pa =>
    match (lookD s.frames (keyOf pkg pa / 65536) {}).mode with
    | .normal => keyOf pkg pa
    | .migrating new _ _ | .forwarded new _ => trueHome s fuel (new / 2 ^ 32) (new % 2 ^ 32 * 65536 + pa % 65536)

/-- The location of an address (R112). -/
def location (s : State) (pkg pa : Nat) : Nat := trueHome s (s.frames.length + 1) pkg pa

/-- Whether an access of the thread to these bytes is still to be performed (R112). -/
def ownPending (s : State) (tid : Nat) (ps : List Piece) : Bool :=
  s.reqs.any fun (_, r) => r.line == some tid
    && ps.any fun p => covers (location s r.pkg r.pa) r.len (location s p.pkg p.pa) p.len

/-- What an access of a thread waits for before it is sent: the watermark, the order, or the limit of 8 posted stores and atomics
beyond the compartment (R76, R105, R114, R116), `also` being those that its instruction makes before it. -/
def accessWait (s : State) (tid : Nat) (q : Ask) (ps : List Piece) (also : Nat := 0) : Option Wait :=
  let t := thr s tid
  if t.prv != .f && aboveMark s (coreOf tid) t.ctx q.va.toNat q.size then some .watermark
  else if orderHeld s tid ps q.rel then some .order
  else if (ps.any fun p => (reachOf s (cmptOf tid) p).beyond) && q.kind != .load
      && 8 ≤ ((accsOf s tid).filter fun p => p.2.far).length + also then some .postedLimit
  else none

/-- The plain store that pushes a value to a stream's element at `pos` (R321). -/
def pushAsk (q : Stream) (j : Nat) (v next : Word) : Ask :=
  { kind := .store, va := elemAddr q q.pos, size := q.width, next := next, push := some j
    op := fun n off => .write (v.toNat / 2 ^ (8 * off) % 2 ^ (8 * n)) }

/-- Check a push to a bound write stream before the instruction has any effect, and keep where it goes (R310, R321); `also` pushes of the
same instruction come before it. The thread parks while 16 pushes are unacknowledged. -/
def checkPush (s : State) (tid j also : Nat) : Res Unit :=
  let t := thr s tid
  let q := stream t j
  if !q.write || q.pos = q.count then .ok () s
  else
    let a := elemAddr q q.pos
    match piecesNow s (asker s tid) .store a q.width with
    | (.error (.fault c v), s') =>
      .stop (.fault c (BitVec.ofNat 64 v)) (if c = .memoryError then seenWalk s' tid (thr s tid).ctx v else s')
    | (.error (.walk _), s) => .stop (.park .walk) s
    | (.ok ps, s) =>
      match accessWait s tid (pushAsk q j 0 0) ps also with
      | some w => .stop (.park w) s
      | none =>
        if 16 ≤ ((accsOf s tid).filter fun p => p.2.push.isSome).length + also then .stop (.park .stream) s
        else .ok () (setThr s tid (setStream (thr s tid) j { q with goal := ps }))

/-- Check the destinations that are write streams, `also` being the pushes that come before them. -/
def checkPushes (s : State) (tid also : Nat) : List Reg → Res Unit
  | [] => .ok () s
  | r :: rs =>
    match boundAt (thr s tid) r with
    | none => checkPushes s tid also rs
    | some j => (checkPush s tid j also).bind fun _ s => checkPushes s tid (also + 1) rs

/-- Whether an element has been read (R320). -/
def Ahead.isRead : Ahead → Bool
  | .val _ _ _ => true
  | _ => false

/-- Where an element read ahead stands. -/
def Ahead.home : Ahead → List (Nat × Nat × Nat)
  | .val _ h _ | .wait _ h _ | .bad _ _ h _ => h

/-- Whether an element read ahead stands on an SO page. -/
def Ahead.ordered : Ahead → Bool
  | .val _ _ so | .wait _ _ so => so
  | .bad _ _ _ _ => false

/-- A thread's access touches bytes that it has read ahead: every element read and not popped is read again, so that a pop gives
nothing older than what an access before it has stored or seen (R112, R322). -/
def touchAhead (s : State) (t : Thread) (ps : List Piece) : Thread :=
  if t.streams.any fun (_, q) => q.ahead.any fun e => e.home.any fun h =>
      ps.any fun p => covers (location s h.1 h.2.1) h.2.2 (location s p.pkg p.pa) p.len
  then discardAhead t else t

/-- What entering an access does to its thread's read-ahead (R116, R322): an access that touches an element, an SO access and an acquire
drop every element, and so does any access while an SO element stands ahead, whose pop comes after it. -/
def aheadAfter (s : State) (tid : Nat) (q : Ask) (ps : List Piece) : Thread :=
  let t := thr s tid
  if !q.agent.made then t
  else if q.acq || (ps.any fun p => p.ord == .so) || (t.streams.any fun x => x.2.ahead.any Ahead.ordered) then discardAhead t
  else touchAhead s t ps

/-- Enter an access and its requests. Its parts are performed in order where it is a store (R309) or touches an SO page (R119). -/
def addAccess (s : State) (tid : Nat) (q : Ask) (ps : List Piece) (posted : Bool) : Nat × State :=
  let t := thr s tid
  let so := ps.any fun p => p.ord == .so
  let reach := ps.map (reachOf s (cmptOf tid))
  let (n, s) := newId s
  let s := if q.agent.own then setThr s tid (aheadAfter s tid q ps) else s
  let a : Access :=
    { tid := tid, ctx := q.forCtx.getD t.ctx, launch := t.launch, left := (ps.map fun p => (wordsOf p).length).foldl (· + ·) 0
      dests := q.dests, posted := posted, covered := ps.any fun p => p.ord != .uo
      blocks := so || q.acq, far := reach.any Reach.beyond, near := reach.all fun r => match r with | .near _ => true | _ => false
      lo := q.va.toNat, size := q.size, next := q.next, acquire := so || q.acq, push := q.push, agent := q.agent, lookup := q.lookup
      replies := (reach.filter Reach.remote).length }
  let s := { s with accs := put s.accs n a }
  (n, ps.foldl (fun s p => addReqs s n tid q (so || q.kind == .store) p) s)

/-- Whether a store is posted: an SO store beyond the compartment is waited for (R70, R116). -/
def postedStore (s : State) (tid : Nat) (ps : List Piece) : Bool :=
  !((ps.any fun p => p.ord == .so) && ps.any fun p => (reachOf s (cmptOf tid) p).beyond)

/-- Push one element to where the checks at issue have found that it goes (R321). The trail of a pair stores nothing (R226). A write to a
read stream's number is dropped (log 7: DEDUCED). -/
def pushStream (s : State) (tid j : Nat) (v : Word) : State :=
  let t := thr s tid
  let q := stream t j
  if !q.write then s
  else if q.pos = q.count then setThr s tid (setStream t j { q with ovr := true })
  else
    let s := setThr s tid (setStream t j { q with pos := q.pos + 1, goal := [] })
    if t.trl then s else (addAccess s tid (pushAsk q j v t.pc) q.goal (postedStore s tid q.goal)).2

/-- Write a register of a thread: the storage, or a push while its number names a stream (R251, R310). -/
def putX (s : State) (tid : Nat) (r : Reg) (v : Word) : State :=
  match boundAt (thr s tid) r with
  | some j => pushStream s tid j v
  | none => setThr s tid (setX (thr s tid) r.toNat v)

/-! ## Issuing an access (R70, R76, R114-R119, R308) -/

/-- The scalers count an access that its thread waits for and that leaves the compartment or reaches a window (R77, R431): HBM of
this package as 0x03, every other home as 0x04 (log 44: DEDUCED). -/
def countAccess (s : State) (k : Nat) (ps : List Piece) (posted : Bool) : State :=
  let hbm (p : Piece) : Bool := p.pkg == s.pkg && placeOf p.pa == .hbm
  let other (p : Piece) : Bool := !hbm p && (match reachOf s k p with | .near _ => false | _ => true)
  if posted then s
  else
    let s := if ps.any hbm then scale s k 0x03 1 else s
    if ps.any other then scale s k 0x04 1 else s

/-- Issue an access whose checks have passed: its waits, migration, and then the requests. A load that migrates waits for every
result of its thread (R290). -/
def issueAccess (s : State) (tid : Nat) (q : Ask) (ps : List Piece) : Eff × State :=
  let t := thr s tid
  let k := cmptOf tid
  match accessWait s tid q ps with
  | some w => (.park w, s)
  | none =>
    match q.migrates && !stays s tid, ps.head?.map (reachOf s k) with
    | true, some (.far c) =>
      match t.spillFault with
      | some (cause, va) => (.fault cause va, setThr s tid { t with spillFault := none })
      | none =>
        if !t.pend.isEmpty then (.park .order, s)
        else (.moved, setThr (scale s k 0x06 1) tid { t with life := .moving, goal := some c, park := none })
    | _, _ =>
      let posted := q.kind == .store && postedStore s tid ps
      let (n, s) := addAccess (countAccess s k ps posted) tid q ps posted
      if posted then (.done, s) else (.wait n, s)

/-- The whole of a memory instruction after its operands are read (R308). -/
def memory (s : State) (tid : Nat) (q : Ask) : Eff × State :=
  (checkAsk s tid q).run fun ps s => issueAccess s tid q ps

/-! ## Service at a home (R56, R61, R68, R110) -/

/-- The new value of an atomic (R317), on `w` bytes. -/
def amoNew (op w old b : Nat) : Nat :=
  let n := 8 * w
  match op with
  | 0 => (old + b) % 2 ^ n
  | 1 => old &&& b
  | 2 => old ||| b
  | 3 => old ^^^ b
  | 4 => if signedOf b n < signedOf old n then b else old
  | 5 => if signedOf b n > signedOf old n then b else old
  | 6 => if b < old then b else old
  | 7 => if b > old then b else old
  | _ => b

/-- Where a home performs an access that names a frame and a generation (R56). -/
inductive Admit where
  | perform (pkg pa : Nat)
  /-- Held in the retry queue of a frame. -/
  | hold (frame : Nat)
  | stale
  deriving DecidableEq, Repr

/-- The frame's judgement of an access with a generation (R56); a forwarded access is judged again at its new frame. `fuel`
bounds the chain of forwarding records, which is no longer than the frames that have a record. -/
def admitAt (s : State) (g : Nat) : Nat → Nat → Nat → Admit
  | 0, _, _ => .stale
  | fuel + 1, pkg, pa =>
    let f := lookD s.frames (keyOf pkg pa / 65536) {}
    if g != f.gen then .stale
    else match f.mode with
      | .normal => .perform pkg pa
      | .migrating _ _ _ => .hold (keyOf pkg pa / 65536)
      | .forwarded new g' => admitAt s g' fuel (new / 2 ^ 32) (new % 2 ^ 32 * 65536 + pa % 65536)

/-- A home's judgement of an access (R56): one that carries no generation is performed. -/
def admitted (s : State) (pkg pa : Nat) (gen : Option Nat) : Admit :=
  match gen with
  | none => .perform pkg pa
  | some g => admitAt s g (s.frames.length + 1) pkg pa

/-- The leaf of an address for a unit, whose walk, unless one is in progress, ends at once: its time is open (R48, R49). (log 8: DEDUCED) -/
def leafNow (s : State) (w : Asker) (va : Nat) : Except Chk Leaf × State :=
  match cached s w.tile w.ctx va with
  | some l => (.ok l, s)
  | none =>
    if (walkOf s w.tile w.ctx (va / 65536 * 65536)).isSome then (.error (.walk va), unitWalk s w va)
    else
      let s := scale s (cmptOfTile w.tile) 0x05 1
      match walkPage s w.ctx va with
      | .error c => (.error (.fault c va), noteWalk s w.ctx va)
      | .ok l => (.ok l, install (noteWalk s w.ctx va) w.tile l)

/-- Log what the reads of some pieces have met. -/
def noteParts (s : State) (ps : List Piece) : State := ps.foldl (fun s p => noteErrors s p.pkg p.pa p.len) s

/-- A step that must wait keeps what it has started: a walk (R48). -/
def waiting (s s' : State) : Option State := if s'.walks = s.walks then none else some s'

/-- An older request of the same thread to a common location is still to be performed (R112), or an earlier one of its SO accesses before
another (R116), or an earlier part of the same access, where its parts are performed in order (R119, R309). -/
def mustWait (s : State) (n : Nat) (r : Req) : Bool :=
  s.reqs.any fun (m, q) =>
    m < n && ((q.acc == r.acc && r.inOrder)
      || (r.line.isSome && q.line == r.line
        && ((q.so && r.so) || covers (location s q.pkg q.pa) q.len (location s r.pkg r.pa) r.len)))

/-- When every request of a message from another compartment has been served, its value or acknowledgement goes back in the
reply class (R79, R184, R445). -/
def replyIfDone (s : State) (r : Req) : State :=
  if !r.remote || s.reqs.any fun q => q.2.acc == r.acc && q.2.piece == r.piece then s
  else match unitCore (placeOf r.pa) with
    | some b =>
      let bytes := match r.op with
        | .write _ => 0
        | .read => r.part
        | _ => r.len
      sendPacket s .reply (cmptOfCore b) (cmptOf r.tid) (coreOf r.tid) (max 1 (ceilDiv bytes 128)) none (.reply r.acc)
    | none => s

/-- The lower of an offset and the one noted before (R50). -/
def lowest (w : Option Nat) (off : Nat) : Option Nat := some (min off (w.getD off))

/-- The address of entry m that the codes of a `dcb` name (R341). -/
def codeEntry (codes table : Word) (m : Nat) : Word :=
  table + BitVec.ofNat 64 (32 * m + 2 * (codes.extractLsb' (4 * m) 4).toNat)

/-- The lowest address of an access, or of its faulting part, as TVAL holds it (R50). -/
def Access.tval (a : Access) : Word :=
  match a.lookup with
  | some x => codeEntry x.codes x.table (a.worst.getD 0 / 2)
  | none => BitVec.ofNat 64 (a.lo + a.worst.getD 0)

/-- A core's node pool, or its cell pool, in a launch: at the start of the launch it is the header's range, unused (R181, R182). -/
def poolOf (s : State) (c l : Nat) (node : Bool) : Pool :=
  match look s.launches l with
  | none => {}
  | some x =>
    if node then lookD (core s c).nodePools l { lo := x.noff, hi := x.noff + x.nsz, next := x.noff }
    else lookD (core s c).cellPools l { lo := x.coff, hi := x.coff + x.csz, next := x.coff }

/-- Write a pool. -/
def setPool (s : State) (c l : Nat) (node : Bool) (p : Pool) : State :=
  let k := core s c
  setCore s c (if node then { k with nodePools := put k.nodePools l p } else { k with cellPools := put k.cellPools l p })

/-- Whether a block lies in the pool of its home core in a launch: that core's number and the block's offset (R181). -/
def pooled (s : State) (launch : Option Nat) (pkg pa : Nat) (node : Bool) : Option (Nat × Nat × Nat) :=
  match launch, placeOf pa with
  | some l, .store c off =>
    let p := poolOf s c l node
    if pkg == s.pkg && p.lo ≤ off && off < p.hi then some (l, c, off) else none
  | _, _ => none

/-- A block goes back to the pool of its home core; outside every pool, and in a deterministic launch, to none (R181, R182). -/
def giveBlock (s : State) (launch : Option Nat) (pkg pa : Nat) (node : Bool) : State :=
  match pooled s launch pkg pa node with
  | some (l, c, off) =>
    if (look s.launches l).any fun x => x.det then s
    else
      let p := poolOf s c l node
      setPool s c l node { p with freed := off :: p.freed }
  | none => s

/-- What `pref` leaves of a refcount: at its limit nothing changes (R399). -/
def counted (up : Bool) (old : Nat) : Option Nat :=
  if up then if old = 2 ^ 64 - 1 then none else some (old + 1) else if old = 0 then none else some (old - 1)

/-- What an operation other than a read makes of the bytes at its home, `old` being there: one service (R68). -/
def applyOp (s : State) (launch : Option Nat) (r : Req) (pkg pa old : Nat) : State :=
  match r.op with
  | .read => s
  | .write v => writeHome s pkg pa r.len v
  | .amo op b => writeHome s pkg pa r.len (amoNew op r.len old b)
  | .cas e b => if old != e then s else writeHome s pkg pa r.len b
  | .free => if bits old 63 56 = 0 then s else giveBlock (writeHome s pkg pa r.len 0) launch pkg pa true
  | .count up => match counted up old with | none => s | some v => writeHome s pkg pa r.len v
  | .inject v chk =>
    let t := writeHome s pkg pa r.len v
    { t with flaws := put t.flaws (keyOf pkg pa) { chk := chk } }

/-- Whether an operation only stores, and reads nothing but what it keeps of a word (R61). -/
def ReqOp.stores : ReqOp → Bool
  | .write _ | .inject _ _ => true
  | _ => false

/-- Perform a request at its home: one service (R68, R110). A word that it must read and cannot is left as it is, and the access
fails (R61, R227). -/
def perform (s : State) (n : Nat) (r : Req) (pkg pa : Nat) (done : Nat) : State :=
  let s := { s with reqs := del s.reqs n }
  let rd := readHome s pkg pa r.len
  let bad := if r.op.stores then (unreadableFor s pkg pa r.len).isSome else rd.isNone
  let inj := bad && injectedIn s pkg pa r.len
  let old := rd.getD 0
  let s := if r.op.stores then noteWrite s pkg pa r.len else noteErrors s pkg pa r.len
  let s := if bad then s else applyOp s ((look s.accs r.acc).bind Access.launch) r pkg pa old
  match look s.accs r.acc with
  | none => s
  | some a =>
    let val := if r.op.stores then a.val else a.val + old * 2 ^ (8 * r.off)
    let kept := match a.agent, r.op with | .mill _, .write _ => !bad | _, _ => false
    let a := { a with left := a.left - 1, val := val, poisoned := a.poisoned || bad, inj := a.inj || inj
                      worst := if bad then lowest a.worst r.off else a.worst, done := max a.done done
                      was := if kept then (pkg, pa, r.len, old) :: a.was else a.was }
    replyIfDone { s with accs := put s.accs r.acc a } r

/-- Whether a request is a write of a killed generation's job, which its home drops (R109). -/
def killedWrite (s : State) (r : Req) : Bool :=
  r.op != .read && r.cgen != (ctx s r.ctx).cgen && (look s.accs r.acc).any fun a => match a.agent with | .job _ => true | _ => false

/-- A home refuses a request as stale: it is not performed (R56). -/
def refuse (s : State) (n : Nat) (r : Req) (done : Nat) : State :=
  let s := { s with reqs := del s.reqs n }
  match look s.accs r.acc with
  | none => s
  | some a =>
    let a := { a with left := a.left - 1, stale := true, worst := lowest a.worst r.off, done := max a.done done }
    replyIfDone { s with accs := put s.accs r.acc a } r

/-- A request joins the retry queue of a migrating frame (R56). -/
def holdReq (s : State) (n : Nat) (r : Req) (k : Nat) : State :=
  let f := lookD s.frames k {}
  { s with reqs := put s.reqs n { r with held := true }, frames := put s.frames k { f with retry := f.retry ++ [n] } }

/-- Whether an earlier part of an access whose parts are performed in order has been refused: the later ones are then not
performed (R50, R309). -/
def refusedBefore (s : State) (r : Req) : Bool := r.inOrder && (look s.accs r.acc).any fun a => a.stale || a.poisoned

/-- A request reaches its home (R56, R110): performed, held or refused. -/
def serve (s : State) (n done : Nat) : State :=
  match look s.reqs n with
  | none => s
  | some r =>
    match if refusedBefore s r || killedWrite s r then .stale else admitted s r.pkg r.pa r.gen with
    | .stale => refuse s n r done
    | .hold k => holdReq s n r k
    | .perform pkg pa => perform s n r pkg pa done

end Sys2Proof.Machine
end

