-- ==== Sys2Proof/Machine/Flags.lean ====
section
/-! DEFINITION. The status words TS and FPC as software reads and writes them, the flags, and the rounding modes
(R254, R255, R263). -/

namespace Sys2Proof.Machine

/-- One bit at a place. -/
def bitAt (b : Bool) (n : Nat) : Nat := if b then 2 ^ n else 0

/-- TS as `srd` reads it (R254). -/
def tsWord (t : Thread) : Nat :=
  t.pfx.toNat * 2 ^ 22 + bitAt t.pp 21 + bitAt t.it 20 + t.pprv.toNat * 2 ^ 18 + (prvBits t.prv).toNat * 2 ^ 16
    + bitAt t.lt 15 + bitAt t.trl 14 + bitAt t.det 13 + bitAt t.fixt 12 + t.qb.toNat * 2 ^ 8

/-- Whether a prefix payload holds no reserved value (R285). -/
def pfxLegal (p : Nat) : Bool := bits p 9 6 < 14 && bits p 5 2 != 14 && bits p 1 0 != 3

/-- A write of TS at S: PFX, PP, IT and PPRV only (R254, R416); reserved values of PFX and PPRV leave the field (R9). -/
def writeTs (t : Thread) (v : Nat) : Thread :=
  { t with pfx := if pfxLegal (bits v 31 22) then BitVec.ofNat 10 (bits v 31 22) else t.pfx
           pp := bit v 21, it := bit v 20
           pprv := if bits v 19 18 = 3 then t.pprv else BitVec.ofNat 2 (bits v 19 18) }

/-- A write of TS through `win.wr`: every field but the reserved one (R418). -/
def writeTsAll (t : Thread) (v : Nat) (p : Prv) : Thread :=
  { writeTs t v with prv := p, lt := bit v 15, trl := bit v 14, det := bit v 13, fixt := bit v 12
                     qb := BitVec.ofNat 4 (bits v 11 8) }

/-- FPC as `srd` reads it (R255). -/
def fpcWord (t : Thread) : Nat :=
  let f := t.flags
  bitAt f.spz 15 + bitAt f.nxa 14 + bitAt f.nv 13 + bitAt f.dz 12 + bitAt f.ofl 11 + bitAt f.ufl 10 + bitAt f.nx 9
    + t.rm.toNat

/-- A write of FPC: a 1 clears a flag, and a reserved rounding mode leaves RM (R9, R255). -/
def writeFpc (t : Thread) (v : Nat) : Thread :=
  let f := t.flags
  { t with flags := { spz := f.spz && !bit v 15, nxa := f.nxa && !bit v 14, nv := f.nv && !bit v 13
                      dz := f.dz && !bit v 12, ofl := f.ofl && !bit v 11, ufl := f.ufl && !bit v 10
                      nx := f.nx && !bit v 9 }
           rm := if bits v 2 0 < 6 then BitVec.ofNat 3 (bits v 2 0) else t.rm }

/-- FPC as a migration packet sets it (R72, R73). -/
def loadFpc (t : Thread) (v : Nat) : Thread :=
  { t with flags := { spz := bit v 15, nxa := bit v 14, nv := bit v 13, dz := bit v 12, ofl := bit v 11
                      ufl := bit v 10, nx := bit v 9 }
           rm := BitVec.ofNat 3 (bits v 2 0) }

/-- The flags of two results together. -/
def orFlags (f g : FFlags) : FFlags :=
  { spz := f.spz || g.spz, nxa := f.nxa || g.nxa, nv := f.nv || g.nv, dz := f.dz || g.dz, ofl := f.ofl || g.ofl,
    ufl := f.ufl || g.ufl, nx := f.nx || g.nx }

/-- WSP keeps bits 51:3 (R250). -/
def wspMask (v : Word) : Word := v &&& 0x000F_FFFF_FFFF_FFF8
/-- TVB keeps bits 51:8 (R256). -/
def tvbMask (v : Word) : Word := v &&& 0x000F_FFFF_FFFF_FF00

/-- CREW: four membership entries of 16 bits (R256). -/
def crewWord (t : Thread) : Nat :=
  t.crew.foldr (fun e n => n * 65536 + (match e with | some c => 0x8000 + c % 0x8000 | none => 0)) 0

/-- The five rounding modes of FPC.RM and the odd one (R255, R263). -/
inductive Rm where
  | nearest | zero | down | up | away | odd
  deriving DecidableEq, Repr

/-- The mode of a three-bit code (R255); reserved codes are never written. -/
def rmOf (b : BitVec 3) : Rm :=
  match b.toNat with
  | 0 => .nearest
  | 1 => .zero
  | 2 => .down
  | 3 => .up
  | 4 => .away
  | _ => .odd

end Sys2Proof.Machine
end

