-- ==== Sys2Proof/Machine/Operands.lean ====
section
/-! DEFINITION. Issuing an instruction: the checks of R288 in order, its operands, the lead/trail comparison, and how the
thread goes on afterwards (R140, R211, R226, R279, R286, R290, R310). -/

namespace Sys2Proof.Machine

/-- What the issue checks must know of an instruction. -/
structure Form where
  /-- Its length in bytes (R274). -/
  len : Nat := 4
  /-- The privilege it needs (R220). -/
  prv : Prv := .u
  /-- Registers read, in the order in which streams are popped: A, B, C, then D (R290, log 7: DEDUCED). -/
  reads : List Reg := []
  /-- Registers read further, given the values of the first ones. -/
  more : List Word → List Reg := fun _ => []
  /-- Registers written. -/
  writes : List Reg := []
  /-- The prefix payloads that its entry accepts; none when it lists no prefix fields (R286). -/
  accepts : Option (Nat → Bool) := none
  /-- The WAIT field (R279). -/
  wait : Nat := 0
  /-- A lead/trail pair compares it before it is performed once (R226). -/
  effect : Bool := false
  /-- A load, whose values the trail takes from the lead (R226). -/
  load : Bool := false
  /-- Its flags reach the trail with its value (R341). -/
  flags : Bool := false
  /-- A mill instruction, which takes a sequence number (R346). -/
  mill : Bool := false

/-- The value of operand n. -/
def arg (vs : List Word) (n : Nat) : Word := vs.getD n 0

/-- Whether a privilege suffices (R220). -/
def allows (need have_ : Prv) : Bool :=
  match need, have_ with
  | .u, _ => true
  | .s, .u => false
  | .s, _ => true
  | .f, .f => true
  | .f, _ => false

/-- The pending prefix that applies to the thread's next instruction (R286). -/
def pendingPfx (t : Thread) : Option (BitVec 10) := if t.pp && !t.it then some t.pfx else none

/-- Whether an instruction refuses the prefix pending on it: `accepts` is none when its entry lists no prefix fields (R286). -/
def pfxRefused (p : Option (BitVec 10)) (accepts : Option (Nat → Bool)) : Bool :=
  match p, accepts with
  | none, _ => false
  | some _, none => true
  | some p, some g => !g p.toNat

/-- Whether the thread's launch runs without the scoreboard (R212). -/
def noBoard (s : State) (t : Thread) : Bool := (t.launch.bind (look s.launches)).any fun l => l.nsb

/-- The scoreboard (R211): a register named by the instruction has a result that is not yet written. -/
def pendingOn (t : Thread) (rs : List Reg) : Bool :=
  rs.any fun r => r != 0 && (boundAt t r).isNone && t.pend.any fun p => p.reg == r

/-! ## Lead and trail (R226) -/

/-- The slot of the lead of a thread's pair. -/
def leadSlot (t : Thread) (tid : Nat) : Nat := if t.trl then slotOf tid - 8 else slotOf tid

/-- Values that wait in the load-value queue of a pair. -/
def queued (s : State) (t : Thread) (tid : Nat) : List Word := lookD (core s (coreOf tid)).lvq (leadSlot t tid) []

/-- Replace the load-value queue of a pair. -/
def setQueued (s : State) (t : Thread) (tid : Nat) (l : List Word) : State :=
  let k := core s (coreOf tid)
  setCore s (coreOf tid) { k with lvq := put k.lvq (leadSlot t tid) l }

/-- An element of a read stream of a pair: the lead pops it and hands it on, and the trail takes it from the queue (R226). An
operation that already waits in the store comparator has handed it on. -/
def popPaired (s : State) (tid j : Nat) : Res Word :=
  let t := thr s tid
  let q := queued s t tid
  if t.trl then
    match q with
    | [] => .stop (.park .lvq) s
    | w :: rest =>
      let x := stream t j
      let x := if x.pos = x.count then { x with ovr := true } else { x with pos := x.pos + 1 }
      .ok w (setThr (setQueued s t tid rest) tid (setStream t j x))
  else if (look (core s (coreOf tid)).compare (leadSlot t tid)).isSome then popStream s tid j
  else if 32 ≤ q.length then .stop (.park .lvq) s
  else (popStream s tid j).bind fun w s => .ok w (setQueued s t tid (q ++ [w]))

/-- Read operands in order, popping streams (R290, R310, R321). -/
def readOps (s : State) (tid : Nat) : List Reg → Res (List Word)
  | [] => .ok [] s
  | r :: rs =>
    match boundAt (thr s tid) r with
    | none => (readOps s tid rs).bind fun vs s' => .ok (getX (thr s tid) r.toNat :: vs) s'
    | some j =>
      (if (thr s tid).lt then popPaired s tid j else popStream s tid j).bind fun v s =>
        (readOps s tid rs).bind fun vs s => .ok (v :: vs) s

/-- A result of class A stands over a pending one that lands in the cycle in which it issues (R212), of which the flags are left. -/
def overtake (t : Thread) (r : Reg) (c : Nat) : Thread :=
  { t with pend := t.pend.map fun p => if p.reg == r && p.land ≤ c then { p with reg := 0 } else p }

/-- Write a result that lands `n` cycles after issue (R290, R324). A push is made at once, in program order (R321). -/
def result (s : State) (tid : Nat) (r : Reg) (v : Word) (n : Nat) (fl : FFlags := {}) (fp : Bool := false)
    (sfu : Bool := false) : State :=
  if (boundAt (thr s tid) r).isSome then
    let s := pushStream s tid (r.toNat - 20) v
    if fp then
      let t := thr s tid
      setThr s tid { t with pend := insPend ⟨0, 0, cycOf s (cmptOf tid) + n, fl, fp, sfu⟩ t.pend }
    else s
  else if n ≤ 1 && !fp then setThr s tid (setX (overtake (thr s tid) r (cycOf s (cmptOf tid))) r.toNat v)
  else
    let t := thr s tid
    if r = 0 && !fp then s
    else setThr s tid { t with pend := insPend ⟨r, v, cycOf s (cmptOf tid) + n, fl, fp, sfu⟩ t.pend }

/-- Kill both halves of a pair under R225, for the task to start again from its start record, once; a second mismatch is logged as lasting,
contains both and maps the core out (R226, R227). -/
def pairMismatch (s : State) (tid : Nat) : State :=
  let t := thr s tid
  let c := coreOf tid
  let ls := leadSlot t tid
  let lead := c * 16 + ls
  let again := t.start.retried
  let k := core s c
  let s := setCore s c { k with compare := del (del k.compare ls) (16 + ls), matched := del (del k.matched ls) (16 + ls), lvq := del k.lvq ls }
  if again then
    let s := logErr s 0x05 true false 2 (64 * cmptOf tid) c (tid % 262144)
    let both := contain (contain s lead .pairMismatch 0 (thr s lead).pc) (lead + 8) .pairMismatch 0 (thr s (lead + 8)).pc
    mapOutCore both c
  else
    let kill (s : State) (n : Nat) : State := setThr s n { thr s n with life := .killed, park := none, net := none, async := [], restart := true }
    kill (kill s lead) (lead + 8)

/-- The comparator is free for the lead's next word. -/
def spillSent (s : State) (t : Thread) (tid : Nat) : State :=
  let k := core s (coreOf tid)
  let n := 16 + leadSlot t tid
  if t.lt && !t.trl then setCore s (coreOf tid) { k with compare := del k.compare n, matched := del k.matched n } else s

/-- Flags of a result that travel with its value to the trail (R325, R341). -/
def packFlags (f : FFlags) : Word :=
  let b (x : Bool) (n : Nat) : Word := if x then 1 <<< n else 0
  b f.spz 0 ||| b f.nxa 1 ||| b f.nv 2 ||| b f.dz 3 ||| b f.ofl 4 ||| b f.ufl 5 ||| b f.nx 6

/-- The flags of such a word. -/
def unpackFlags (w : Word) : FFlags :=
  { spz := w.getLsbD 0, nxa := w.getLsbD 1, nv := w.getLsbD 2, dz := w.getLsbD 3, ofl := w.getLsbD 4, ufl := w.getLsbD 5
    nx := w.getLsbD 6 }

/-- The trail writes the values that the lead's operation gave. -/
def takeQueued (s : State) (t : Thread) (tid : Nat) (ws : List Reg) (flags : Bool) : Eff × State :=
  let q := queued s t tid
  let n := ws.length + (if flags then 1 else 0)
  if q.length < n then (.park .lvq, s)
  else
    let s := setQueued s t tid (q.drop n)
    let s := (ws.zip q).foldl (fun s p => putX s tid p.1 p.2) s
    (.done, if flags then setThr s tid (land (thr s tid) ⟨0, 0, 0, unpackFlags (q.getD ws.length 0), true, false⟩) else s)

/-- The operation's registers as the lead hands them on, with the results that still land. -/
def giveQueued (s : State) (t : Thread) (tid : Nat) (ws : List Reg) : State :=
  let x := settle (thr s tid) (lastLand (thr s tid))
  setQueued s t tid (queued s t tid ++ ws.map fun r => getX x r.toNat)

/-- The other half of a pair. -/
def partner (t : Thread) (tid : Nat) : Nat := if t.trl then tid - 8 else tid + 8

/-- Whether a thread is ending (R386). -/
def ending (t : Thread) : Bool := match t.park with | some (.again .endWork _) => true | _ => false

/-- Whether a thread's result is a push of a write stream, which is a store (R321). -/
def pushes (t : Thread) (ws : List Reg) : Bool := ws.any fun r => (boundAt t r).any fun j => (stream t j).write

/-- An effect of a pair waits in the store comparator until the trail brings the same operation, and is performed once by
the lead; the trail takes its values from the load-value queue (R226). (log 12: DEDUCED) -/
def paired (f : Form) (vs : List Word) (body : List Word → State → Eff × State) (s : State) : Eff × State :=
  let tid := s.cur
  let t := thr s tid
  if !t.lt || !(f.effect || f.load || pushes t f.writes) || ending t then body vs s
  else if !f.load && ending (thr s (partner t tid)) then (.moved, pairMismatch s tid)
  else
    let c := coreOf tid
    let k := core s c
    let ls := leadSlot t tid
    let op := (BitVec.setWidth 64 t.ir) :: vs
    if !t.trl then
      if 32 < (queued s t tid).length + f.writes.length then (.park .lvq, s)
      else if f.load then
        match body vs s with
        | (.done, s) => (.done, giveQueued s t tid f.writes)
        | (.upTo n, s) => (.upTo n, giveQueued s t tid f.writes)
        | r => r
      else if lookD k.matched ls false then
        match body vs s with
        | (.park w, s) => (.park w, s)
        | (.fault c v, s) => (.fault c v, s)
        | (e, s) =>
          let k := core s c
          let s := setCore s c { k with compare := del k.compare ls, matched := del k.matched ls }
          (e, if e = .done then giveQueued s t tid f.writes else s)
      else (.park .pairOp, setCore s c { k with compare := put k.compare ls op })
    else
      let waits := match t.park with | some (.again .lvq _) => true | _ => false
      if f.load || waits then takeQueued s t tid f.writes f.flags
      else
        match look k.compare ls with
        | none => (.park .pairOp, s)
        | some op' =>
          if op = op' then
            let s := setCore s c { k with matched := put k.matched ls true }
            let s := if f.mill then setThr s tid { t with millSeq := t.millSeq + 1 } else s
            if f.writes.isEmpty then (.done, s) else takeQueued s t tid f.writes f.flags
          else (.moved, pairMismatch s tid)

/-! ## Going on after an instruction -/

/-- No refill is in progress. -/
def noRefill (t : Thread) : Thread := { t with refilled := [], refill := none }

/-- Whether what a parked thread waits for comes about between its turns: the instruction then completes in that cycle (R188, R373,
R379, R390). A thread that waits for anything else tries its instruction at its turns. (log 10: DEDUCED) -/
def Wait.between : Wait → Bool
  | .landing _ | .peek | .seqKey _ | .sem _ | .chan | .barrier | .release | .mill _ | .stopJobs | .grader | .reduction | .combineRoom
  | .sendRoom | .overflow | .fence | .kill | .net | .own => true
  | _ => false

/-- The next turn after an instruction with WAIT n: the thread skips its next n turns, and a park and the skip run at the same
time (R77, R279). An instruction that waited for room on the ring, or for FPC, has issued only now (R344, R255). (log 10: DEDUCED) -/
def nextTurn (was : Option Park) (slot c wait : Nat) : Nat :=
  match was with
  | some (.again .sfuRoom _) | some (.again .fpc _) | none | some (.reply _) => c + 16 * (1 + wait)
  | some (.again _ since) => max (turnAfter slot c) (turnAt slot (since + 16 * (1 + wait)))

/-- PC moves, the prefix that applied is cleared (R286), and the turn is set. -/
def advance (t0 t : Thread) (pc : Word) (slot c wait : Nat) : Thread :=
  { t with pc := pc, pp := if t0.pp && !t0.it then false else t.pp, park := none, own := none, turn := nextTurn t0.park slot c wait }

/-- The SO store beyond the compartment that a push of a thread has made, for which its instruction waits (R116). -/
def waitedPush (s : State) (tid : Nat) : Option Nat :=
  ((s.accs.filter fun p => p.2.tid == tid && p.2.push.isSome && !p.2.posted).getLast?).map (·.1)

/-- A thread goes on when access `a` has replied: then its instruction is over, and until then its streams can be put back (R310). -/
def awaitReply (s : State) (tid a : Nat) (undo : Tab Stream) (next : Word) : State :=
  let s := match look s.accs a with
    | some x => { s with accs := put s.accs a { x with undo := undo, next := next } }
    | none => s
  setThr s tid { thr s tid with park := some (.reply a), turn := max (thr s tid).turn (cycOf s (cmptOf tid) + 16) }

/-- A thread that has pushed an element to an SO page beyond the compartment waits for it (R116). -/
def awaitPush (s : State) (tid : Nat) (undo : Tab Stream) (next : Word) : State :=
  match waitedPush s tid with
  | some a => awaitReply s tid a undo next
  | none => s

/-- An instruction that has pushed results to streams goes on once its pushes let it (R116, R321). `t` is its thread as it pushed. -/
def afterPush (ws : List Reg) (t : Thread) (undo : Tab Stream) (s : State) (tid : Nat) (next : Word) : State :=
  if pushes t ws then awaitPush s tid undo next else s

/-- The streams of a thread whose instruction has faulted: nothing has been popped, and an element that gave the fault is read
again (R310, R322). -/
def afterFault (q : Tab Stream) : Tab Stream :=
  q.map fun p => (p.1, { p.2 with ahead := p.2.ahead.filter fun e => match e with | .bad _ _ _ _ => false | _ => true })

/-- Streams as an instruction found them, whose elements are read again (R310). -/
def unread (q : Tab Stream) : Tab Stream := q.map fun p => (p.1, { p.2 with ahead := [] })

/-- The streams of a thread whose instruction waits: nothing has been popped (R310), and an access that it has made leaves nothing that was
read ahead (R322). -/
def whileParked (w : Wait) (q : Tab Stream) : Tab Stream := match w with | .own | .refill => unread q | _ => q

/-- The streams as an instruction found them: one under way has popped its operands already (R310). -/
def before (t : Thread) : Tab Stream := match t.net with | some n => n.undo | none => t.streams

/-- End an instruction for its thread. `t0` is the thread as it issued. -/
def finish (f : Form) (t0 : Thread) (r : Eff × State) : State :=
  let s := r.2
  let tid := s.cur
  let c := cycOf s (cmptOf tid)
  let next := t0.pc + BitVec.ofNat 64 f.len
  match r.1 with
  | .done => afterPush f.writes t0 t0.streams (setThr s tid (advance t0 (thr s tid) next (slotOf tid) c f.wait)) tid next
  | .jump pc => setThr s tid (advance t0 (thr s tid) pc (slotOf tid) c f.wait)
  | .upTo n =>
    let t := advance t0 (thr s tid) next (slotOf tid) c f.wait
    afterPush f.writes t0 t0.streams (setThr s tid { t with turn := max t.turn (turnAfter (slotOf tid) n) }) tid next
  | .fault k v => takeFault (setThr s tid { thr s tid with streams := afterFault (before t0) }) tid k v t0.pc
  | .call k v => if t0.it || t0.prv == .f then contain s tid .doubleFault v t0.pc else enterTrap s tid k v next
  | .park w =>
    let since := match t0.park with | some (.again _ n) => n | _ => c
    let t := thr s tid
    setThr s tid { t with streams := if t.net.isSome then t.streams else whileParked w t0.streams, park := some (.again w since)
                          turn := turnAfter (slotOf tid) c }
  | .wait a => awaitReply s tid a t0.streams next
  | .moved => s

/-- An instruction that does not complete takes nothing from the load-value queue of its pair and puts nothing there, but for the
elements that the lead hands on with an operation that waits for its trail (R226, R310). -/
def keepQueue (t : Thread) (s : State) (r : Eff × State) : Eff × State :=
  let q := queued s t s.cur
  let back := if queued r.2 t s.cur = q then r else (r.1, setQueued r.2 t s.cur q)
  match t.lt, r.1 with
  | true, .park .pairOp => if t.trl then back else r
  | true, .park .refill => r
  | true, .park _ | true, .fault _ _ => back
  | _, _ => r

/-- The checks of R288 after decoding, the operands, and the instruction's own effect. -/
def attempt (f : Form) (body : List Word → State → Eff × State) (t : Thread) (s : State) : Eff × State :=
  let tid := s.cur
  if !allows f.prv t.prv then (.fault .privilege 0, s)
  else if pfxRefused (pendingPfx t) f.accepts then
    (.fault .illegalPfx (BitVec.setWidth 64 t.pfx), s)
  else if !noBoard s t && pendingOn t (f.reads ++ f.writes) then (.fault .waitCount 0, s)
  else
    keepQueue t s ((checkPushes s tid 0 f.writes).run fun _ s =>
      (readOps s tid f.reads).run fun vs s =>
        if !noBoard s t && pendingOn t (f.more vs) then (.fault .waitCount 0, s)
        else (readOps s tid (f.more vs)).run fun ws s => paired f (vs ++ ws) body s)

/-- Issue an instruction on the thread `cur`. -/
def issue (f : Form) (body : List Word → State → Eff × State) (s : State) : Host.Outcome State Fault Refusal :=
  if s.power then
    let t := settle (thr s s.cur) (cycOf s (cmptOf s.cur) - 1)
    let s := setThr s s.cur t
    .next (finish f t (attempt f body t s))
  else .fault .noPower

/-- An instruction that computes one result from its operands and lands it after `n` cycles (R290). -/
def compute (f : Form) (d : Reg) (n : Nat) (g : List Word → Word) (s : State) : Host.Outcome State Fault Refusal :=
  issue { f with writes := [d] } (fun vs s => (.done, result s s.cur d (g vs) n)) s

/-- A step of another agent: it happens when it is enabled, and otherwise the machine stays as it is (log 1: DESIGN CHOICE). -/
def event (f : State → Option State) (s : State) : Host.Outcome State Fault Refusal :=
  if s.power then .next ((f s).getD s) else .fault .noPower

end Sys2Proof.Machine
end

