-- ==== Sys2Proof/Machine/Int.lean ====
section
/-! DEFINITION. Majors 0x01-0x07: integer arithmetic, logic, shifts, bit fields, multiplication, division, constants,
addresses, comparison and selection (R290-R301). -/

namespace Sys2Proof.Machine

/-- A two-operand form of class A (R292). -/
def rform (len : Nat) (d a b : Reg) (g : Word → Word → Word) (s : State) : Host.Outcome State Fault Refusal :=
  compute { len := len, reads := [a, b] } d 1 (fun vs => g (arg vs 0) (arg vs 1)) s

/-- A one-operand form of class A. -/
def uform (len : Nat) (d a : Reg) (g : Word → Word) (s : State) : Host.Outcome State Fault Refusal :=
  compute { len := len, reads := [a] } d 1 (fun vs => g (arg vs 0)) s

/-- The sign-extended immediate of R293. -/
def imm12 (i : BitVec 12) : Word := i.signExtend 64

/-- 1 for true (R293, R301). -/
def flagWord (b : Bool) : Word := if b then 1 else 0

/-- add (R292): Integer add modulo 2^64. -/
def execAdd (d a b : Reg) (s : State) := rform 4 d a b (fun x y => x + y) s
/-- sub (R292): Integer subtract modulo 2^64, also written as neg. -/
def execSub (d a b : Reg) (s : State) := rform 4 d a b (fun x y => x - y) s
/-- and (R292): Bitwise and. -/
def execAnd (d a b : Reg) (s : State) := rform 4 d a b (fun x y => x &&& y) s
/-- or (R292): Bitwise or. -/
def execOr (d a b : Reg) (s : State) := rform 4 d a b (fun x y => x ||| y) s
/-- xor (R292): Bitwise exclusive or. -/
def execXor (d a b : Reg) (s : State) := rform 4 d a b (fun x y => x ^^^ y) s
/-- andn (R292): Bitwise and with the complement of b. -/
def execAndn (d a b : Reg) (s : State) := rform 4 d a b (fun x y => x &&& ~~~y) s
/-- orn (R292): Bitwise or with the complement of b. -/
def execOrn (d a b : Reg) (s : State) := rform 4 d a b (fun x y => x ||| ~~~y) s

/-- addi (R293): Add a sign-extended 12-bit immediate. -/
def execAddi (d a : Reg) (i : BitVec 12) (s : State) := uform 4 d a (fun x => x + imm12 i) s
/-- andi (R293): And with an immediate. -/
def execAndi (d a : Reg) (i : BitVec 12) (s : State) := uform 4 d a (fun x => x &&& imm12 i) s
/-- ori (R293): Or with an immediate. -/
def execOri (d a : Reg) (i : BitVec 12) (s : State) := uform 4 d a (fun x => x ||| imm12 i) s
/-- xori (R293): Exclusive or with an immediate. -/
def execXori (d a : Reg) (i : BitVec 12) (s : State) := uform 4 d a (fun x => x ^^^ imm12 i) s
/-- slti (R293): Set 1 when a is less than the immediate, signed. -/
def execSlti (d a : Reg) (i : BitVec 12) (s : State) := uform 4 d a (fun x => flagWord (x.slt (imm12 i))) s
/-- slti.n (R293): Set 1 when a is less than the immediate, unsigned. -/
def execSltiN (d a : Reg) (i : BitVec 12) (s : State) := uform 4 d a (fun x => flagWord (x.ult (imm12 i))) s

/-- The count of a register shift: b[5:0] (R294). -/
def shiftCount (b : Word) : Nat := (b.extractLsb' 0 6).toNat

/-- shl (R294): Shift left by b[5:0]. -/
def execShl (d a b : Reg) (s : State) := rform 4 d a b (fun x y => x <<< shiftCount y) s
/-- shr (R294): Logical shift right. -/
def execShr (d a b : Reg) (s : State) := rform 4 d a b (fun x y => x >>> shiftCount y) s
/-- sar (R294): Arithmetic shift right. -/
def execSar (d a b : Reg) (s : State) := rform 4 d a b (fun x y => x.sshiftRight (shiftCount y)) s
/-- rotl (R294): Rotate left. -/
def execRotl (d a b : Reg) (s : State) := rform 4 d a b (fun x y => x.rotateLeft (shiftCount y)) s
/-- rotr (R294): Rotate right. -/
def execRotr (d a b : Reg) (s : State) := rform 4 d a b (fun x y => x.rotateRight (shiftCount y)) s
/-- shli (R294): Shift left by an immediate. -/
def execShli (d a : Reg) (k : BitVec 6) (s : State) := uform 4 d a (fun x => x <<< k.toNat) s
/-- shri (R294): Logical shift right by an immediate. -/
def execShri (d a : Reg) (k : BitVec 6) (s : State) := uform 4 d a (fun x => x >>> k.toNat) s
/-- sari (R294): Arithmetic shift right by an immediate. -/
def execSari (d a : Reg) (k : BitVec 6) (s : State) := uform 4 d a (fun x => x.sshiftRight k.toNat) s

/-- Leading zero bits among the low `n` bits (R295). -/
def clzFrom (x : Word) : Nat → Nat
  | 0 => 0
  | n + 1 => if x.getLsbD n then 0 else 1 + clzFrom x n

/-- Trailing zero bits of the bits from 64 - n upward (R295). -/
def ctzFrom (x : Word) : Nat → Nat
  | 0 => 0
  | n + 1 => if x.getLsbD (63 - n) then 0 else 1 + ctzFrom x n

/-- Number of 1 bits among the low `n` (R295). -/
def popFrom (x : Word) : Nat → Nat
  | 0 => 0
  | n + 1 => (if x.getLsbD n then 1 else 0) + popFrom x n

/-- The low `n` bits in reverse order (R295). -/
def revFrom (x : Word) : Nat → Nat
  | 0 => 0
  | n + 1 => (if x.getLsbD n then 1 else 0) * 2 ^ (63 - n) + revFrom x n

/-- The low `n` bytes in reverse order (R295). -/
def swapFrom (x : Word) : Nat → Nat
  | 0 => 0
  | n + 1 => (x.extractLsb' (8 * n) 8).toNat * 2 ^ (8 * (7 - n)) + swapFrom x n

/-- A count as a word. -/
def natWord (n : Nat) : Word := BitVec.ofNat 64 n

/-- clz (R295): Count leading zeros. -/
def execClz (d a : Reg) (s : State) := uform 4 d a (fun x => natWord (clzFrom x 64)) s
/-- ctz (R295): Count trailing zeros. -/
def execCtz (d a : Reg) (s : State) := uform 4 d a (fun x => natWord (ctzFrom x 64)) s
/-- popc (R295): Count the 1 bits. -/
def execPopc (d a : Reg) (s : State) := uform 4 d a (fun x => natWord (popFrom x 64)) s
/-- brev (R295): Reverse the bits. -/
def execBrev (d a : Reg) (s : State) := uform 4 d a (fun x => natWord (revFrom x 64)) s
/-- bswap (R295): Reverse the bytes. -/
def execBswap (d a : Reg) (s : State) := uform 4 d a (fun x => natWord (swapFrom x 8)) s

/-- The least bit of a field descriptor (R296). -/
def fieldLsb (b : Word) : Nat := (b.extractLsb' 0 6).toNat
/-- The length of a field, cut at bit 63 (R296). -/
def fieldLen (b : Word) : Nat := min (b.extractLsb' 8 7).toNat (64 - fieldLsb b)
/-- f of R296. -/
def fieldOf (a b : Word) : Nat := a.toNat / 2 ^ fieldLsb b % 2 ^ fieldLen b

/-- R296: insert the low bits of a into d. -/
def insertField (d a b : Word) : Word :=
  let m : Word := natWord ((2 ^ fieldLen b - 1) * 2 ^ fieldLsb b)
  (d &&& ~~~m) ||| (natWord (a.toNat % 2 ^ fieldLen b * 2 ^ fieldLsb b) &&& m)

/-- bfx (R296): Extract an unsigned bit field. -/
def execBfx (d a b : Reg) (s : State) := rform 4 d a b (fun x y => natWord (fieldOf x y)) s
/-- bfxs (R296): Extract a signed bit field. -/
def execBfxs (d a b : Reg) (s : State) :=
  rform 4 d a b (fun x y => if fieldLen y = 0 then 0 else wordOf (signedOf (fieldOf x y) (fieldLen y))) s
/-- bfi (R296): Insert a bit field into x[D]. -/
def execBfi (d a b : Reg) (s : State) :=
  compute { reads := [a, b, d] } d 1 (fun vs => insertField (arg vs 2) (arg vs 0) (arg vs 1)) s

/-- A multiplication of class M: four cycles (R290, R297). -/
def mform (len : Nat) (d a b : Reg) (g : Word → Word → Word) (s : State) : Host.Outcome State Fault Refusal :=
  compute { len := len, reads := [a, b] } d 4 (fun vs => g (arg vs 0) (arg vs 1)) s

/-- mul (R297): Low 64 bits of the product. -/
def execMul (d a b : Reg) (s : State) := mform 4 d a b (fun x y => x * y) s
/-- mulh (R297): High 64 bits of the signed product. -/
def execMulh (d a b : Reg) (s : State) := mform 4 d a b (fun x y => wordOf (x.toInt * y.toInt / 2 ^ 64)) s
/-- mulh.n (R297): High 64 bits of the unsigned product. -/
def execMulhN (d a b : Reg) (s : State) := mform 4 d a b (fun x y => natWord (x.toNat * y.toNat / 2 ^ 64)) s
/-- madd (R297): Multiply and add c. -/
def execMadd (d a b c : Reg) (s : State) :=
  compute { reads := [a, b, c] } d 4 (fun vs => arg vs 0 * arg vs 1 + arg vs 2) s
/-- msub (R297): c minus the product. -/
def execMsub (d a b c : Reg) (s : State) :=
  compute { reads := [a, b, c] } d 4 (fun vs => arg vs 2 - arg vs 0 * arg vs 1) s

/-- The signed quotient and remainder of R298. -/
def divS (a b : Word) : Int × Int :=
  let sa := a.toInt
  let sb := b.toInt
  if sb = 0 then (-1, sa)
  else if sa = -2 ^ 63 ∧ sb = -1 then (-2 ^ 63, 0)
  else
    let q : Int := (sa.natAbs / sb.natAbs : Nat)
    let q := if (sa < 0) != (sb < 0) then -q else q
    (q, sa - q * sb)

/-- The unsigned quotient and remainder of R298. -/
def divU (a b : Word) : Nat × Nat :=
  if b = 0 then (2 ^ 64 - 1, a.toNat) else (a.toNat / b.toNat, a.toNat % b.toNat)

/-- A division of class D: forty cycles, with WAIT (R290, R298). -/
def dform (d a b : Reg) (w : BitVec 3) (g : Word → Word → Word) (s : State) : Host.Outcome State Fault Refusal :=
  compute { reads := [a, b], wait := w.toNat } d 40 (fun vs => g (arg vs 0) (arg vs 1)) s

/-- div (R298): Signed division truncating toward zero, written after 40 cycles. -/
def execDiv (d a b : Reg) (w : BitVec 3) (s : State) := dform d a b w (fun x y => wordOf (divS x y).1) s
/-- div.n (R298): Unsigned division. -/
def execDivN (d a b : Reg) (w : BitVec 3) (s : State) := dform d a b w (fun x y => natWord (divU x y).1) s
/-- rem (R298): Signed remainder. -/
def execRem (d a b : Reg) (w : BitVec 3) (s : State) := dform d a b w (fun x y => wordOf (divS x y).2) s
/-- rem.n (R298): Unsigned remainder. -/
def execRemN (d a b : Reg) (w : BitVec 3) (s : State) := dform d a b w (fun x y => natWord (divU x y).2) s

/-- A constant of class A (R299). -/
def iform (len : Nat) (d : Reg) (v : Word) (s : State) : Host.Outcome State Fault Refusal :=
  compute { len := len } d 1 (fun _ => v) s

/-- li (R299): Load a sign-extended 16-bit immediate. -/
def execLi (d : Reg) (k : BitVec 16) (s : State) := iform 4 d (k.signExtend 64) s
/-- li.n (R299): Load a zero-extended 16-bit immediate. -/
def execLiN (d : Reg) (k : BitVec 16) (s : State) := iform 4 d (k.setWidth 64) s

/-- d with one halfword replaced (R299). -/
def insertHalf (d : Word) (k : BitVec 16) (h : Nat) : Word :=
  (d &&& ~~~((0xFFFF : Word) <<< (16 * h))) ||| (k.setWidth 64 <<< (16 * h))

/-- lih (R299): Replace halfword h of x[D] with the immediate. -/
def execLih (d : Reg) (k : BitVec 16) (h : BitVec 2) (s : State) :=
  compute { reads := [d] } d 1 (fun vs => insertHalf (arg vs 0) k h.toNat) s

/-- The target of a J-format offset (R277). -/
def target17 (pc : Word) (o : BitVec 17) : Word := pc + 2 * o.signExtend 64

/-- adr (R300): Form a PC-relative address. -/
def execAdr (d : Reg) (o : BitVec 17) (s : State) :=
  issue { writes := [d] } (fun _ s => (.done, result s s.cur d (target17 (thr s s.cur).pc o) 1)) s

/-- min (R301): Signed minimum. -/
def execMin (d a b : Reg) (s : State) := rform 4 d a b (fun x y => if y.slt x then y else x) s
/-- min.n (R301): Unsigned minimum. -/
def execMinN (d a b : Reg) (s : State) := rform 4 d a b (fun x y => if y.ult x then y else x) s
/-- max (R301): Signed maximum. -/
def execMax (d a b : Reg) (s : State) := rform 4 d a b (fun x y => if x.slt y then y else x) s
/-- max.n (R301): Unsigned maximum. -/
def execMaxN (d a b : Reg) (s : State) := rform 4 d a b (fun x y => if x.ult y then y else x) s
/-- slt (R301): Signed set-less-than. -/
def execSlt (d a b : Reg) (s : State) := rform 4 d a b (fun x y => flagWord (x.slt y)) s
/-- slt.n (R301): Unsigned set-less-than. -/
def execSltN (d a b : Reg) (s : State) := rform 4 d a b (fun x y => flagWord (x.ult y)) s
/-- seq (R301): Set 1 when a equals b. -/
def execSeq (d a b : Reg) (s : State) := rform 4 d a b (fun x y => flagWord (x == y)) s
/-- sel (R301): Select a when c is non-zero, else b. -/
def execSel (d a b c : Reg) (s : State) :=
  compute { reads := [a, b, c] } d 1 (fun vs => if arg vs 2 != 0 then arg vs 0 else arg vs 1) s

end Sys2Proof.Machine
end

