-- ==== Sys2Proof/Machine/Branch.lean ====
section
/-! DEFINITION. Majors 0x08-0x0B: branches, jumps, window rotation, counted loops and nop (R302-R307, R248, R249). -/

namespace Sys2Proof.Machine

/-- The target of a B-format offset (R277). -/
def target12 (pc : Word) (o : BitVec 12) : Word := pc + 2 * o.signExtend 64

/-- After a branch, every stream of the thread reads its elements ahead again, as R322 requires where the outcome depends on a load
(R113, R130, log 8: DEDUCED). -/
def branched (s : State) : State := if (thr s s.cur).qb = 0 then s else setThr s s.cur (discardAhead (thr s s.cur))

/-- A conditional branch (R302). -/
def branch (len : Nat) (rs : List Reg) (o : BitVec 12) (taken : List Word → Bool) (s : State) :
    Host.Outcome State Fault Refusal :=
  issue { len := len, reads := rs } (fun vs s =>
    (if taken vs then .jump (target12 (thr s s.cur).pc o) else .done, branched s)) s

/-- beq (R302): Branch when a equals b. -/
def execBeq (a b : Reg) (o : BitVec 12) (s : State) := branch 4 [a, b] o (fun vs => arg vs 0 == arg vs 1) s
/-- bne (R302): Branch when a differs from b. -/
def execBne (a b : Reg) (o : BitVec 12) (s : State) := branch 4 [a, b] o (fun vs => arg vs 0 != arg vs 1) s
/-- blt (R302): Branch when a is less than b, signed. -/
def execBlt (a b : Reg) (o : BitVec 12) (s : State) := branch 4 [a, b] o (fun vs => (arg vs 0).slt (arg vs 1)) s
/-- bge (R302): Branch when a is at least b, signed. -/
def execBge (a b : Reg) (o : BitVec 12) (s : State) := branch 4 [a, b] o (fun vs => !(arg vs 0).slt (arg vs 1)) s
/-- bz (R302): Branch when a is zero. -/
def execBz (a : Reg) (o : BitVec 12) (s : State) := branch 4 [a] o (fun vs => arg vs 0 == 0) s
/-- bnz (R302): Branch when a is non-zero. -/
def execBnz (a : Reg) (o : BitVec 12) (s : State) := branch 4 [a] o (fun vs => arg vs 0 != 0) s
/-- blt.n (R302): Branch when a is less than b, unsigned. -/
def execBltN (a b : Reg) (o : BitVec 12) (s : State) := branch 4 [a, b] o (fun vs => (arg vs 0).ult (arg vs 1)) s
/-- bge.n (R302): Branch when a is at least b, unsigned. -/
def execBgeN (a b : Reg) (o : BitVec 12) (s : State) := branch 4 [a, b] o (fun vs => !(arg vs 0).ult (arg vs 1)) s

/-- A jump (R303). -/
def jump (len : Nat) (o : BitVec 17) (s : State) : Host.Outcome State Fault Refusal :=
  issue { len := len } (fun _ s => (.jump (target17 (thr s s.cur).pc o), s)) s

/-- A jump that links (R303). -/
def jumpLink (len : Nat) (d : Reg) (o : BitVec 17) (s : State) : Host.Outcome State Fault Refusal :=
  issue { len := len, writes := [d] } (fun _ s =>
    let pc := (thr s s.cur).pc
    (.jump (target17 pc o), result s s.cur d (pc + BitVec.ofNat 64 len) 1)) s

/-- j (R303): PC-relative jump. -/
def execJ (o : BitVec 17) (s : State) := jump 4 o s
/-- jal (R303): PC-relative jump that writes the link. -/
def execJal (d : Reg) (o : BitVec 17) (s : State) := jumpLink 4 d o s

/-- An indirect jump to x[a] + i (R304): an odd target faults and writes nothing. -/
def indirect (len : Nat) (a : Reg) (i : BitVec 12) (s : State) : Host.Outcome State Fault Refusal :=
  issue { len := len, reads := [a] } (fun vs s =>
    let t := arg vs 0 + imm12 i
    if t.getLsbD 0 then (.fault .alignment t, s) else (.jump t, branched s)) s

/-- An indirect jump that links; the target is formed before the link is written (R304). -/
def indirectLink (len : Nat) (d a : Reg) (i : BitVec 12) (s : State) : Host.Outcome State Fault Refusal :=
  issue { len := len, reads := [a], writes := [d] } (fun vs s =>
    let t := arg vs 0 + imm12 i
    if t.getLsbD 0 then (.fault .alignment t, s)
    else (.jump t, result (branched s) s.cur d ((thr s s.cur).pc + BitVec.ofNat 64 len) 1)) s

/-- jr (R304): Indirect jump, with an alignment fault on an odd target. -/
def execJr (a : Reg) (i : BitVec 12) (s : State) := indirect 4 a i s
/-- jalr (R304): Indirect jump that writes the link. -/
def execJalr (d a : Reg) (i : BitVec 12) (s : State) := indirectLink 4 d a i s
/-- ret (R304): Jump to x1. -/
def execRet (s : State) := indirect 4 1 0 s

/-! ## Windows (R248, R249, R305) -/

/-- The window that `save` opens: the call registers become entry registers, the rest are 0 (R248). -/
def savedWin (w : Tab Word) : Tab Word := (List.range 8).map fun i => (i, lookD w (16 + i) 0)

/-- The caller's window after `restore`: the entry registers return to its call registers (R248). -/
def restoredWin (other cur : Tab Word) : Tab Word := (List.range 8).foldl (fun o i => put o (16 + i) (lookD cur i 0)) other

/-- `save` on a thread (R248). -/
def openWindow (t : Thread) : Thread :=
  let t := setOtherWin t (savedWin (curWin t))
  { t with cur := !t.cur, olive := true, depth := t.depth + 1, saves := t.saves + 1 }

/-- `restore` on a thread whose other buffer holds the caller's window (R248); an unfinished spill is abandoned
(R249). -/
def closeWindow (t : Thread) : Thread :=
  let t := setOtherWin t (restoredWin (otherWin t) (curWin t))
  { t with cur := !t.cur, olive := false, spilled := 0, depth := t.depth - 1 }

/-- Words as a window buffer. -/
def winOf (vs : List Word) : Tab Word := (List.range vs.length).zip vs

/-- `save` (R248, R305). -/
def save (len : Nat) (s : State) : Host.Outcome State Fault Refusal :=
  issue { len := len } (fun _ s =>
    let t := thr s s.cur
    match t.spillFault with
    | some (c, va) => (.fault c va, setThr s s.cur { t with spillFault := none })
    | none =>
      if !t.pend.isEmpty || t.olive then (.park .spill, s)
      else (.done, setThr s s.cur (openWindow t))) s

/-- The trail of a pair takes the words of a refill from the lead (R226). -/
def refillTrail (s : State) (tid : Nat) : Eff × State :=
  let t := thr s tid
  match queued s t tid with
  | [] => (.park .refill, s)
  | w :: rest => (.park .refill, setThr (setQueued s t tid rest) tid { t with refilled := t.refilled ++ [w] })

/-- The load of the next word of a spilled window, a plain load of the thread (R249): one in each turn of the park. The lead of a pair hands
the words on, and parks while the load-value queue is full (R226). -/
def refillNext (s : State) (tid : Nat) : Eff × State :=
  let t := thr s tid
  if t.trl then refillTrail s tid
  else if t.lt && 32 ≤ (queued s t tid).length then (.park .refill, s)
  else
  let q : Ask :=
    { kind := .load, va := t.wsp + natWord (8 * t.refilled.length), size := 8, op := fun _ _ => .read, next := t.pc, agent := .refill }
  match piecesNow s (asker s tid) .load q.va 8 with
  | (.error (.fault c a), s) =>
    (.fault c (BitVec.ofNat 64 a), setThr s tid (noRefill { thr s tid with injSeen := walkInjected s t.ctx a }))
  | (.error (.walk _), s) => (.park .refill, s)
  | (.ok ps, s) =>
    if (accessWait s tid q ps).isSome then (.park .refill, s)
    else
      let (n, s) := addAccess (countAccess s (cmptOf tid) ps false) tid q ps false
      (.park .refill, setThr s tid { thr s tid with refill := some n })

/-- `restore` (R248, R305): it parks during the 24 loads of a refill. A held fault comes before any other check. -/
def restore (len : Nat) (s : State) : Host.Outcome State Fault Refusal :=
  issue { len := len } (fun _ s =>
    let tid := s.cur
    let t := thr s tid
    match t.spillFault with
    | some (c, va) => (.fault c va, setThr s tid (noRefill { t with spillFault := none }))
    | none =>
      if !t.pend.isEmpty then (.park .spill, s)
      else if t.depth = 0 then (.fault .windowAccess t.wsp, s)
      else if t.olive then (.done, spillSent (setThr s tid (closeWindow t)) t tid)
      else if t.refilled.length = 24 then
        let t := setOtherWin { t with wsp := wspMask (t.wsp + 192) } (winOf t.refilled)
        (.done, setThr s tid (closeWindow (noRefill t)))
      else if t.refill.isSome then (.park .refill, s)
      else refillNext s tid) s

/-- save (R248): Rotate to a new register window, parking while the other buffer is spilled. -/
def execSave (s : State) := save 4 s
/-- restore (R248): Rotate back to the caller's window, refilling it when it was spilled. -/
def execRestore (s : State) := restore 4 s

/-- `rep` (R306). -/
def execRep (d : Reg) (i : BitVec 12) (s : State) :=
  issue { reads := [d], writes := [d] } (fun vs s =>
    let x := arg vs 0
    let y := if x = 0 then x else x - 1
    let pc := (thr s s.cur).pc
    (if y = 0 then .done else .jump (target12 pc i), result (branched s) s.cur d y 1)) s

/-- An instruction that only uses its turn (R307). -/
def idle (len : Nat) (s : State) : Host.Outcome State Fault Refusal := issue { len := len } (fun _ s => (.done, s)) s

/-- nop (R307): No effect. -/
def execNop (s : State) := idle 4 s

end Sys2Proof.Machine
end

