-- ==== Sys2Proof/Machine/Mem.lean ====
section
/-! DEFINITION. Majors 0x0C-0x12: loads, stores, pairs, multiples, atomics, fences, the remote load and streams
(R308-R322). -/

namespace Sys2Proof.Machine

/-- The address after an instruction of `len` bytes. -/
def nextPc (s : State) (len : Nat) : Word := (thr s s.cur).pc + BitVec.ofNat 64 len

/-- A load of one register (R312): width code, extension, and whether it is an acquire or `lx`. -/
def loadOne (len : Nat) (d a : Reg) (off : Word) (w : Nat) (signed acq migrates : Bool) (s : State) :
    Host.Outcome State Fault Refusal :=
  issue { len := len, reads := [a], writes := [d], load := true } (fun vs s =>
    memory s s.cur
      { kind := .load, acq := acq, va := arg vs 0 + off, size := 2 ^ w, op := fun _ _ => .read
        dests := [⟨d, 0, 2 ^ w, signed⟩], migrates := migrates, next := nextPc s len }) s

/-- ld (R312): Plain sign-extending load of width ww, migrating on a remote local store unless R74 holds. -/
def execLd (d a : Reg) (i : BitVec 12) (w : BitVec 2) (s : State) := loadOne 4 d a (imm12 i) w.toNat true false true s
/-- ld.n (R312): Plain zero-extending load. -/
def execLdN (d a : Reg) (i : BitVec 12) (w : BitVec 2) (s : State) := loadOne 4 d a (imm12 i) w.toNat false false true s
/-- ld.acq (R312): Acquire load with scope, width and extension fields. -/
def execLdAcq (d a : Reg) (_scope : BitVec 3) (w : BitVec 2) (e : BitVec 1) (o : BitVec 6) (s : State) :=
  loadOne 4 d a (o.signExtend 64) w.toNat (e == 0) true false s
/-- lx (R314): Remote load that never migrates. -/
def execLx (d a : Reg) (e : BitVec 1) (o : BitVec 11) (w : BitVec 2) (s : State) :=
  loadOne 4 d a (o.signExtend 64) w.toNat (e == 0) false false s

/-- The bytes of a value that a request writes. -/
def sliceOf (v n off : Nat) : Nat := v / 2 ^ (8 * off) % 2 ^ (8 * n)

/-- A store of one register (R313). -/
def storeOne (len : Nat) (a b : Reg) (off : Word) (w : Nat) (rel : Bool) (s : State) :
    Host.Outcome State Fault Refusal :=
  issue { len := len, reads := [a, b], effect := true } (fun vs s =>
    memory s s.cur
      { kind := .store, rel := rel, va := arg vs 0 + off, size := 2 ^ w
        op := fun n o => .write (sliceOf (arg vs 1).toNat n o), next := nextPc s len }) s

/-- st (R313): Plain store of width ww. -/
def execSt (a b : Reg) (i : BitVec 12) (w : BitVec 2) (s : State) := storeOne 4 a b (imm12 i) w.toNat false s
/-- st.rel (R313): Release store with scope. -/
def execStRel (a b : Reg) (_scope : BitVec 3) (o : BitVec 9) (w : BitVec 2) (s : State) :=
  storeOne 4 a b (o.signExtend 64) w.toNat true s

/-- `n` register numbers rising from `r`. -/
def regsFrom (r : Reg) (n : Nat) : List Reg := (List.range n).map fun i => r + BitVec.ofNat 5 i

/-- A load of several words (R316): no register is written before every part is done (R309). -/
def loadMany (d a : Reg) (n : Nat) (off : Word) (s : State) : Host.Outcome State Fault Refusal :=
  issue { reads := [a], writes := regsFrom d n, load := true } (fun vs s =>
    memory s s.cur
      { kind := .load, va := arg vs 0 + off, size := 8 * n, op := fun _ _ => .read
        dests := (List.range n).map fun i => ⟨d + BitVec.ofNat 5 i, 8 * i, 8, false⟩, migrates := true
        next := nextPc s 4 }) s

/-- The words of a store, the first lowest. -/
def joinWords : List Word → Nat
  | [] => 0
  | v :: vs => v.toNat + 2 ^ 64 * joinWords vs

/-- A store of several words (R316): every source is read at issue. -/
def storeMany (a b : Reg) (n : Nat) (off : Word) (s : State) : Host.Outcome State Fault Refusal :=
  issue { reads := a :: regsFrom b n, effect := true } (fun vs s =>
    memory s s.cur
      { kind := .store, va := arg vs 0 + off, size := 8 * n
        op := fun k o => .write (sliceOf (joinWords vs.tail) k o), next := nextPc s 4 }) s

/-- The scaled offset of a multiple (R316). -/
def offset8 (i : BitVec 7) : Word := 8 * i.signExtend 64

/-- ldp (R316): Load a register pair. -/
def execLdp (d a : Reg) (i : BitVec 12) (s : State) := loadMany d a 2 (imm12 i) s
/-- stp (R316): Store a register pair. -/
def execStp (a b : Reg) (i : BitVec 12) (s : State) := storeMany a b 2 (imm12 i) s
/-- ldm (R316): Load a range of registers. -/
def execLdm (d a e : Reg) (i : BitVec 7) (s : State) := loadMany d a (e.toNat - d.toNat + 1) (offset8 i) s
/-- stm (R316): Store a range of registers. -/
def execStm (a b e : Reg) (i : BitVec 7) (s : State) := storeMany a b (e.toNat - b.toNat + 1) (offset8 i) s

/-- An atomic (R317): the old value is sign-extended into d. -/
def atomic (op : Nat) (d a b : Reg) (w : BitVec 1) (r : BitVec 2) (s : State) : Host.Outcome State Fault Refusal :=
  let n := if w = 1 then 8 else 4
  issue { reads := [a, b], writes := [d], effect := true } (fun vs s =>
    memory s s.cur
      { kind := .atomic, acq := r.getLsbD 0, rel := r.getLsbD 1, va := arg vs 0, size := n, align := n
        op := fun k _ => .amo op ((arg vs 1).toNat % 2 ^ (8 * k)), dests := [⟨d, 0, n, true⟩], next := nextPc s 4 }) s

/-- amo.add (R317): Atomic add at the home, returning the old value. -/
def execAmoAdd (d a b : Reg) (w : BitVec 1) (r : BitVec 2) (_ : BitVec 3) (s : State) := atomic 0 d a b w r s
/-- amo.and (R317): Atomic and. -/
def execAmoAnd (d a b : Reg) (w : BitVec 1) (r : BitVec 2) (_ : BitVec 3) (s : State) := atomic 1 d a b w r s
/-- amo.or (R317): Atomic or. -/
def execAmoOr (d a b : Reg) (w : BitVec 1) (r : BitVec 2) (_ : BitVec 3) (s : State) := atomic 2 d a b w r s
/-- amo.xor (R317): Atomic exclusive or. -/
def execAmoXor (d a b : Reg) (w : BitVec 1) (r : BitVec 2) (_ : BitVec 3) (s : State) := atomic 3 d a b w r s
/-- amo.min (R317): Atomic signed minimum. -/
def execAmoMin (d a b : Reg) (w : BitVec 1) (r : BitVec 2) (_ : BitVec 3) (s : State) := atomic 4 d a b w r s
/-- amo.max (R317): Atomic signed maximum. -/
def execAmoMax (d a b : Reg) (w : BitVec 1) (r : BitVec 2) (_ : BitVec 3) (s : State) := atomic 5 d a b w r s
/-- amo.n.min (R317): Atomic unsigned minimum. -/
def execAmoNMin (d a b : Reg) (w : BitVec 1) (r : BitVec 2) (_ : BitVec 3) (s : State) := atomic 6 d a b w r s
/-- amo.n.max (R317): Atomic unsigned maximum. -/
def execAmoNMax (d a b : Reg) (w : BitVec 1) (r : BitVec 2) (_ : BitVec 3) (s : State) := atomic 7 d a b w r s
/-- amo.xchg (R317): Atomic exchange. -/
def execAmoXchg (d a b : Reg) (w : BitVec 1) (r : BitVec 2) (_ : BitVec 3) (s : State) := atomic 8 d a b w r s

/-- cas (R318): Compare and swap of 8 bytes in one service at the home. -/
def execCas (d a b c : Reg) (r : BitVec 2) (s : State) :=
  issue { reads := [a, b, c], writes := [d], effect := true } (fun vs s =>
    memory s s.cur
      { kind := .atomic, acq := r.getLsbD 0, rel := r.getLsbD 1, va := arg vs 0, size := 8, align := 8
        op := fun _ _ => .cas (arg vs 2).toNat (arg vs 1).toNat, dests := [⟨d, 0, 8, false⟩], next := nextPc s 4 }) s

/-- A fence (R118, R315): kinds full and rel wait for every earlier access that counts; kind acq waits for loads and
atomics, which have all returned when it issues. Kinds acq and full discard read-ahead elements (R322). -/
def execFence (u : BitVec 1) (_scope : BitVec 3) (k : BitVec 2) (s : State) :=
  issue {} (fun _ s =>
    let tid := s.cur
    let waits := (accsOf s tid).any fun p => (u == 1 || p.2.covered) && (k != 1 || !p.2.posted)
    if waits then (.park .fence, s)
    else (.done, if k == 2 then s else setThr s tid (discardAhead (thr s tid)))) s

/-! ## Streams (R319-R322) -/

/-- The pieces of an access that must lie in the issuing core's own local store (R21); `outside` is the cause for bytes elsewhere, which
takes the place of the tier check (R308). -/
def ownParts (s : State) (tid : Nat) (k : AccKind) (outside : Cause) (parts : List Slice) : Except Chk (List Piece) :=
  let w := asker s tid
  let base := storeBase (coreOf tid)
  let own (p : Piece) : Bool := p.pkg == s.pkg && base ≤ p.pa && p.pa + p.len ≤ base + 0x8000
  let after (ps : List Piece) : Except Chk (List Piece) :=
    match (ps.zip parts).find? fun p => !own p.1 with
    | some p => .error (.fault outside p.2.1)
    | none => checkParts s w k false parts
  if w.prv == .f then
    match firstFail [.physicalRange] parts (bareFails w k) with
    | some (c, q) => .error (.fault c q.1)
    | none => after (parts.map fun q => ⟨s.pkg, q.1, q.2.1, q.2.2, none, .rc⟩)
  else
    match translateParts s w k parts with
    | .error e => .error e
    | .ok ls =>
      match firstFail [.kind] ls (leafFails s w k false false) with
      | some (c, q) => .error (.fault c q.1.1)
      | none => after (ls.map pieceOf)

/-- How such checks stop an instruction; only a tier fault tells where. -/
def ownStop (s : State) (tid : Nat) (va : Word) : Chk → Eff × State
  | .fault c a => (.fault c (if c = .malformedStructure then 0 else BitVec.ofNat 64 a), s)
  | .walk a => (.park .walk, startWalk s tid a (BitVec.ofNat 64 (max a va.toNat)))

/-- The pieces of `n` bytes in the issuing core's own local store (R21), after the checks of R308 and the waits of an access; none once the
instruction has made its access to them. -/
def ownStore (s : State) (tid : Nat) (va : Word) (n : Nat) (k : AccKind) (outside : Cause) : Res (List Piece) :=
  if (thr s tid).own.isSome then .ok [] s
  else if 2 ^ 52 ≤ va.toNat || 2 ^ 52 < va.toNat + n then .stop (.fault .addressForm va) s
  else match ownParts s tid k outside (splitPage va.toNat n) with
    | .error e => .stop (ownStop s tid va e).1 (ownStop s tid va e).2
    | .ok ps =>
      if (thr s tid).prv != .f && aboveMark s (coreOf tid) (thr s tid).ctx va.toNat n then .stop (.park .watermark) s
      else if orderHeld s tid ps false then .stop (.park .order) s
      else .ok ps s

/-- The access of an instruction to its own local store, a load or a store like any other (R64, R65): the instruction waits for its reply
and then goes on with the value. (log 45: DEDUCED) -/
def ownAccess (s : State) (tid : Nat) (va : Word) (n : Nat) (k : AccKind) (op : Nat → Nat → ReqOp) (ps : List Piece)
    (entry : Option LandEntry := none) (takes : Bool := false) : Res Nat :=
  match (thr s tid).own with
  | some o => match o.got with
    | some v => .ok v s
    | none => .stop (.park .own) s
  | none =>
    let (a, s) := addAccess s tid { kind := k, va := va, size := n, op := op, next := 0, agent := .words } ps false
    .stop (.park .own) (setThr s tid { thr s tid with own := some { acc := a, entry := entry, takes := takes } })

/-- `n` words of a number. -/
def wordsOfNat (v n : Nat) : List Word := (List.range n).map fun i => BitVec.ofNat 64 (v / 2 ^ (64 * i))

/-- `n` words of the issuing core's own local store. -/
def ownWords (s : State) (tid : Nat) (va : Word) (n : Nat) (outside : Cause) : Res (List Word) :=
  (ownStore s tid va (8 * n) .load outside).bind fun ps s =>
    (ownAccess s tid va (8 * n) .load (fun _ _ => .read) ps).bind fun v s => .ok (wordsOfNat v n) s

/-- Store bytes in the issuing core's own local store as the thread's own plain stores, performed before the instruction completes
(R380, R408). -/
def storeOwn (s : State) (tid : Nat) (va : Word) (ps : List Piece) (bs : List Byte) (entry : Option LandEntry := none)
    (takes : Bool := false) : Res Nat :=
  ownAccess s tid va bs.length .store (fun n off => .write (sliceOf (ofBytes bs) n off)) ps entry takes

/-- Clear a stream's binding and drop its unpopped reads (R320). -/
def unbind (t : Thread) (j : Nat) : Thread :=
  let q := stream t j
  setStream { t with qb := t.qb &&& ~~~(1#4 <<< j) } j { q with ahead := [] }

/-- A descriptor's four words as a stream; none where a reserved bit or value is set (R319). -/
def readDescriptor (w0 w1 w2 w3 : Nat) : Option Stream :=
  let dir := bit w0 63
  let esz := bits w0 62 61
  if bits w0 59 52 != 0 || bits w1 63 48 != 0 || (bit w0 60 && (dir || esz == 3)) then none
  else
    some { write := dir, esz := esz, zeroExt := bit w0 60, base := bits w0 51 0, e0 := bits w1 15 0
           e1 := bits w1 31 16, e2 := bits w1 47 32, s1 := signedOf (bits w2 31 0) 32
           s2 := signedOf (bits w2 63 32) 32, fill := BitVec.ofNat 64 w3 }

/-- The stream number of a field that holds 20 + j (R320). -/
def streamNo (q : Reg) : Nat := q.toNat - 20

/-- `sq.cfg` (R319, R320): pos and ovr stay until the bind. A descriptor outside the core's local store, misaligned, or with a reserved bit is malformed. -/
def execSqCfg (q a : Reg) (i : BitVec 12) (s : State) :=
  issue { reads := [a] } (fun vs s =>
    let tid := s.cur
    let va := arg vs 0 + imm12 i
    if va.toNat % 32 != 0 then (.fault .malformedStructure 0, s)
    else
      (ownWords s tid va 4 .malformedStructure).run fun ws s =>
        match readDescriptor (arg ws 0).toNat (arg ws 1).toNat (arg ws 2).toNat (arg ws 3).toNat with
        | none => (.fault .malformedStructure 0, s)
        | some d =>
          let j := streamNo q
          let x := stream (thr s tid) j
          (.done, setThr s tid (setStream (unbind (thr s tid) j) j { d with pos := x.pos, ovr := x.ovr }))) s

/-- sq.bind (R320): Bind stream qj at position b. -/
def execSqBind (q b : Reg) (s : State) :=
  issue { reads := [b] } (fun vs s =>
    let t := thr s s.cur
    let j := streamNo q
    let d := stream t j
    let t := setStream t j { d with pos := min ((arg vs 0).toNat % 2 ^ 32) d.count, ovr := false, ahead := [] }
    (.done, setThr s s.cur { t with qb := t.qb ||| (1#4 <<< j) })) s

/-- sq.off (R320): Unbind stream qj. -/
def execSqOff (q : Reg) (s : State) :=
  issue {} (fun _ s => (.done, setThr s s.cur (unbind (thr s s.cur) (streamNo q)))) s

/-- Pushed elements of a stream that are not acknowledged (R320). -/
def unacked (s : State) (tid j : Nat) : Bool := (accsOf s tid).any fun p => p.2.push == some j

/-- sq.wait (R320): Park until the stream's pushes are acknowledged, or until its next element is read; no effect on a stream that
is unbound or at its end. -/
def execSqWait (q : Reg) (s : State) :=
  issue {} (fun _ s =>
    let t := thr s s.cur
    let j := streamNo q
    let d := stream t j
    let waits := t.qb.getLsbD j && d.pos != d.count
      && (if d.write then unacked s s.cur j else match d.ahead with | [] | .wait _ _ _ :: _ => true | _ => false)
    (if waits then .park .stream else .done, s)) s

/-- The status word of `sq.stat` (R320). -/
def streamStatus (s : State) (tid j : Nat) : Word :=
  let t := thr s tid
  let d := stream t j
  natWord (bitAt (t.qb.getLsbD j) 47 + bitAt d.write 46 + bitAt d.ovr 45 + bitAt (unacked s tid j) 44
    + (d.ahead.filter Ahead.isRead).length * 2 ^ 32 + d.pos % 2 ^ 32)

/-- sq.stat (R320): Read the stream status word. -/
def execSqStat (d q : Reg) (s : State) :=
  issue { writes := [d] } (fun _ s => (.done, result s s.cur d (streamStatus s s.cur (streamNo q)) 1)) s

end Sys2Proof.Machine
end

