-- ==== Sys2Proof/Machine/C16.lean ====
section
/-! DEFINITION. The 16-bit forms: each behaves as its expansion of R283 with the next instruction two bytes on (R284); and
the prefix (R285, R286). -/

namespace Sys2Proof.Machine

/-- sext of a five-bit immediate (R283). -/
def sext5 (k : BitVec 5) : BitVec 12 := k.signExtend 12
/-- Eight times the zero-extended immediate (R283). -/
def times8 (k : BitVec 5) : Word := 8 * k.setWidth 64

/-- add (R283): 16-bit add xd, xd, xb. -/
def execC16Add (d b : Reg) (s : State) := rform 2 d d b (fun x y => x + y) s
/-- sub (R283): 16-bit sub xd, xd, xb. -/
def execC16Sub (d b : Reg) (s : State) := rform 2 d d b (fun x y => x - y) s
/-- and (R283): 16-bit and. -/
def execC16And (d b : Reg) (s : State) := rform 2 d d b (fun x y => x &&& y) s
/-- or (R283): 16-bit or. -/
def execC16Or (d b : Reg) (s : State) := rform 2 d d b (fun x y => x ||| y) s
/-- xor (R283): 16-bit xor. -/
def execC16Xor (d b : Reg) (s : State) := rform 2 d d b (fun x y => x ^^^ y) s
/-- add (R283): 16-bit add xd, x0, xb. -/
def execC16Move (d b : Reg) (s : State) := rform 2 d 0 b (fun x y => x + y) s
/-- mul (R283): 16-bit mul xd, xd, xb. -/
def execC16Mul (d b : Reg) (s : State) := mform 2 d d b (fun x y => x * y) s
/-- ld (R283): 16-bit ld xd, (xb). -/
def execC16Ld (d b : Reg) (s : State) := loadOne 2 d b 0 3 true false true s
/-- st (R283): 16-bit st xd, (xb). -/
def execC16St (d b : Reg) (s : State) := storeOne 2 b d 0 3 false s
/-- addi (R283): 16-bit addi with imm5. -/
def execC16Addi (d : Reg) (k : BitVec 5) (s : State) := uform 2 d d (fun x => x + imm12 (sext5 k)) s
/-- li (R283): 16-bit li with imm5. -/
def execC16Li (d : Reg) (k : BitVec 5) (s : State) := iform 2 d (k.signExtend 64) s
/-- shli (R283): 16-bit shli. -/
def execC16Shli (d : Reg) (k : BitVec 5) (s : State) := uform 2 d d (fun x => x <<< k.toNat) s
/-- shri (R283): 16-bit shri. -/
def execC16Shri (d : Reg) (k : BitVec 5) (s : State) := uform 2 d d (fun x => x >>> k.toNat) s
/-- sari (R283): 16-bit sari. -/
def execC16Sari (d : Reg) (k : BitVec 5) (s : State) := uform 2 d d (fun x => x.sshiftRight k.toNat) s
/-- andi (R283): 16-bit andi. -/
def execC16Andi (d : Reg) (k : BitVec 5) (s : State) := uform 2 d d (fun x => x &&& imm12 (sext5 k)) s
/-- ld (R283): 16-bit ld xd, 8k(x2). -/
def execC16LdX2 (d : Reg) (k : BitVec 5) (s : State) := loadOne 2 d 2 (times8 k) 3 true false true s
/-- st (R283): 16-bit st xd, 8k(x2). -/
def execC16StX2 (d : Reg) (k : BitVec 5) (s : State) := storeOne 2 2 d (times8 k) 3 false s
/-- ld (R283): 16-bit ld xd, 8k(x3). -/
def execC16LdX3 (d : Reg) (k : BitVec 5) (s : State) := loadOne 2 d 3 (times8 k) 3 true false true s
/-- st (R283): 16-bit st xd, 8k(x3). -/
def execC16StX3 (d : Reg) (k : BitVec 5) (s : State) := storeOne 2 3 d (times8 k) 3 false s
/-- addi (R283): 16-bit addi xd, xd, 16k. -/
def execC16Addi16 (d : Reg) (k : BitVec 5) (s : State) := uform 2 d d (fun x => x + 16 * imm12 (sext5 k)) s
/-- bz (R283): 16-bit bz. -/
def execC16Bz (d : Reg) (k : BitVec 5) (s : State) := branch 2 [d] (sext5 k) (fun vs => arg vs 0 == 0) s
/-- bnz (R283): 16-bit bnz. -/
def execC16Bnz (d : Reg) (k : BitVec 5) (s : State) := branch 2 [d] (sext5 k) (fun vs => arg vs 0 != 0) s
/-- j (R283): 16-bit j. -/
def execC16J (o : BitVec 10) (s : State) := jump 2 (o.signExtend 17) s
/-- jal (R283): 16-bit jal x1. -/
def execC16Jal (o : BitVec 10) (s : State) := jumpLink 2 1 (o.signExtend 17) s
/-- jr (R283): 16-bit jr xd. -/
def execC16Jr (d : Reg) (s : State) := indirect 2 d 0 s
/-- jalr (R283): 16-bit jalr x1, xd. -/
def execC16Jalr (d : Reg) (s : State) := indirectLink 2 1 d 0 s
/-- ret (R283): 16-bit ret. -/
def execC16Ret (s : State) := indirect 2 1 0 s
/-- save (R283): 16-bit save. -/
def execC16Save (s : State) := save 2 s
/-- restore (R283): 16-bit restore. -/
def execC16Restore (s : State) := restore 2 s
/-- nop (R283): 16-bit nop. -/
def execC16Nop (s : State) := idle 2 s

/-- `pfx` (R286): it sets the pending prefix; in a trap handler it is refused. A prefix before a `pfx` is refused by the
issue checks. -/
def execPfx (p : BitVec 10) (s : State) :=
  issue { len := 2 } (fun _ s =>
    let t := thr s s.cur
    if t.it then (.fault .illegalPfx (BitVec.setWidth 64 t.pfx), s)
    else (.done, setThr s s.cur { t with pp := true, pfx := p })) s

end Sys2Proof.Machine
end

