-- ==== Sys2Proof/Machine/Numbers.lean ====
section
/-! DEFINITION. Number formats, exact values and the one rounding procedure (R258-R264, R285). -/

namespace Sys2Proof.Machine

/-- A floating-point format (R259): exponent and fraction widths and the bias. -/
structure Fmt where
  eb : Nat
  fb : Nat
  bias : Nat
  /-- e4m3 has no infinity (R260). -/
  noInf : Bool := false
  deriving DecidableEq, Repr

/-- R259. -/
def f32 : Fmt := ⟨8, 23, 127, false⟩
/-- R259. -/
def bf16 : Fmt := ⟨8, 7, 127, false⟩
/-- R259. -/
def f16 : Fmt := ⟨5, 10, 15, false⟩
/-- R259, R260. -/
def e4m3 : Fmt := ⟨4, 3, 7, true⟩
/-- R259. -/
def e5m2 : Fmt := ⟨5, 2, 15, false⟩

/-- Width in bits. -/
def Fmt.width (f : Fmt) : Nat := 1 + f.eb + f.fb
/-- The least exponent of a normal number. -/
def Fmt.emin (f : Fmt) : Int := 1 - (f.bias : Int)
/-- The encoding of +∞, or of the NaN of e4m3's exponent pattern: every greater magnitude is special. -/
def Fmt.infBits (f : Fmt) : Nat := (2 ^ f.eb - 1) * 2 ^ f.fb
/-- The encoding of the greatest finite value (R259). -/
def Fmt.maxBits (f : Fmt) : Nat := if f.noInf then f.infBits + 2 ^ f.fb - 2 else f.infBits - 1
/-- The canonical NaN (R259). -/
def Fmt.nanBits (f : Fmt) : Nat := if f.noInf then f.infBits + 2 ^ f.fb - 1 else f.infBits + 2 ^ (f.fb - 1)

/-- An exact value: NaN, an infinity, or ± m × 2^e with the sign of a zero kept. -/
inductive FVal where
  | nan
  | inf (neg : Bool)
  | fin (neg : Bool) (m : Nat) (e : Int)
  deriving DecidableEq, Repr

/-- fval: the value an encoding stands for (R259, R260). -/
def fval (f : Fmt) (v : Nat) : FVal :=
  let v := v % 2 ^ f.width
  let neg := bit v (f.eb + f.fb)
  let mag := v % 2 ^ (f.eb + f.fb)
  let ex := mag / 2 ^ f.fb
  let fr := mag % 2 ^ f.fb
  if f.maxBits < mag then (if mag = f.infBits && !f.noInf then .inf neg else .nan)
  else if ex = 0 then .fin neg fr (f.emin - f.fb)
  else .fin neg (fr + 2 ^ f.fb) ((ex : Int) - f.bias - f.fb)

/-- Whether the magnitude is rounded away from zero, by mode (R261): `half` compares the remainder with one half. -/
def roundsUp (mode : Rm) (neg odd : Bool) (half : Ordering) : Bool :=
  match mode with
  | .nearest => half == .gt || (half == .eq && odd)
  | .away => half != .lt
  | .zero => false
  | .down => neg
  | .up => !neg
  | .odd => !odd

/-- The overflow step (R262). -/
def overflowBits (f : Fmt) (mode : Rm) (neg : Bool) : Nat :=
  let toInf := match mode with
    | .nearest | .away => true
    | .zero | .odd => false
    | .down => neg
    | .up => !neg
  if toInf && !f.noInf then f.infBits else f.maxBits

/-- The sign bit of a format. -/
def signBit (f : Fmt) (neg : Bool) : Nat := if neg then 2 ^ (f.eb + f.fb) else 0

/-- `round` for finite values: ± m × 2^e, m ≠ 0 (R261, R262). -/
def roundFin (f : Fmt) (mode : Rm) (neg : Bool) (m : Nat) (e : Int) : Nat × FFlags :=
  let e0 := max ((Nat.log2 m : Int) + e) f.emin
  let qe := e0 - f.fb
  let k := (qe - e).toNat
  let n := if e ≥ qe then m * 2 ^ (e - qe).toNat else m / 2 ^ k
  let rem := if e ≥ qe then 0 else m % 2 ^ k
  let up := rem != 0 && roundsUp mode neg (n % 2 == 1) (compare (2 * rem) (2 ^ k))
  let r := if up then n + 1 else n
  let mag := if r < 2 ^ f.fb then r else (e0 + f.bias).toNat * 2 ^ f.fb + (r - 2 ^ f.fb)
  if f.maxBits < mag then (signBit f neg + overflowBits f mode neg, { ofl := true, nx := true })
  else (signBit f neg + mag, { nx := rem != 0, ufl := rem != 0 && mag != 0 && mag < 2 ^ f.fb })

/-- `round` and `bits` together: the encoding, with the flags of R261. -/
def roundTo (f : Fmt) (mode : Rm) : FVal → Nat × FFlags
  | .nan => (f.nanBits, {})
  | .inf neg => if f.noInf then (f.nanBits, { nv := true }) else (signBit f neg + f.infBits, {})
  | .fin neg m e => if m = 0 then (signBit f neg, {}) else roundFin f mode neg m e

/-! ## Exact arithmetic -/

/-- A signed significand. -/
def signedM (neg : Bool) (m : Nat) : Int := if neg then -(m : Int) else m

/-- The value negated. -/
def FVal.neg : FVal → FVal
  | .nan => .nan
  | .inf n => .inf (!n)
  | .fin n m e => .fin (!n) m e

/-- The magnitude. -/
def FVal.abs : FVal → FVal
  | .nan => .nan
  | .inf _ => .inf false
  | .fin _ m e => .fin false m e

/-- Whether a value is a zero. -/
def FVal.isZero : FVal → Bool
  | .fin _ m _ => m == 0
  | _ => false

/-- A product (R333): the flag is NV for 0 × ±∞. -/
def fmulE (x y : FVal) : FVal × Bool :=
  match x, y with
  | .nan, _ | _, .nan => (.nan, false)
  | .inf a, .inf b => (.inf (a != b), false)
  | .inf a, .fin b m _ | .fin b m _, .inf a => if m = 0 then (.nan, true) else (.inf (a != b), false)
  | .fin a m e, .fin b n k => (.fin (a != b) (m * n) (e + k), false)

/-- The exact sum of finite values as n × 2^e, e at most every exponent. -/
def sumFin : List FVal → Int × Int
  | [] => (0, 0)
  | .fin neg m e :: vs =>
    let (n, k) := sumFin vs
    if m = 0 then (n, k)
    else if n = 0 then (signedM neg m, e)
    else if e ≤ k then (signedM neg m + n * 2 ^ (k - e).toNat, e)
    else (signedM neg m * 2 ^ (e - k).toNat + n, k)
  | _ :: vs => sumFin vs

/-- n × 2^e as a value; a zero takes the given sign. -/
def finOf (n e : Int) (zeroNeg : Bool) : FVal := if n = 0 then .fin zeroNeg 0 0 else .fin (n < 0) n.natAbs e

/-- Whether a list holds an infinity of a sign. -/
def hasInf (vs : List FVal) (neg : Bool) : Bool := vs.any fun v => v == .inf neg

/-- The exact sum of terms with the special values of R329 and R334; the flag is NV for infinities of both signs. -/
def sumE (vs : List FVal) (zeroNeg : Bool) : FVal × Bool :=
  let both := hasInf vs false && hasInf vs true
  if both || vs.any (· == .nan) then (.nan, both)
  else if hasInf vs false then (.inf false, false)
  else if hasInf vs true then (.inf true, false)
  else
    let (n, e) := sumFin vs
    (finOf n e zeroNeg, false)

/-- A sum of two terms with the zero signs of R333; a NaN operand gives NaN without a flag. -/
def faddE (mode : Rm) (x y : FVal) : FVal × Bool :=
  match x, y with
  | .nan, _ | _, .nan => (.nan, false)
  | _, _ =>
    let negZeros := (match x, y with | .fin true 0 _, .fin true 0 _ => true | _, _ => false)
    sumE [x, y] (negZeros || mode == .down)

/-- x < y for values that are not NaN; zeros are equal (R260). -/
def flt (x y : FVal) : Bool :=
  match x, y with
  | .nan, _ | _, .nan => false
  | .inf a, .inf b => a && !b
  | .inf a, .fin _ _ _ => a
  | .fin _ _ _, .inf b => !b
  | .fin a m e, .fin b n k =>
    let d := min e k
    signedM a m * 2 ^ (e - d).toNat < signedM b n * 2 ^ (k - d).toNat

/-- x = y for values that are not NaN (R260). -/
def feq (x y : FVal) : Bool := x != .nan && y != .nan && !flt x y && !flt y x

/-- Flags with NV added. -/
def withNv (r : Nat × FFlags) (nv : Bool) : Nat × FFlags := (r.1, { r.2 with nv := r.2.nv || nv })

/-- An integer of a value rounded in a mode: R261 with q = 1; whether it was exact. -/
def roundInt (mode : Rm) (neg : Bool) (m : Nat) (e : Int) : Int × Bool :=
  if e ≥ 0 then (signedM neg (m * 2 ^ e.toNat), true)
  else
    let k := (-e).toNat
    let n := m / 2 ^ k
    let rem := m % 2 ^ k
    let up := rem != 0 && roundsUp mode neg (n % 2 == 1) (compare (2 * rem) (2 ^ k))
    (signedM neg (if up then n + 1 else n), rem == 0)

/-! ## Type codes -/

/-- The float formats of R285, codes 0x8-0xC. -/
def fmtOfPfx (c : Nat) : Fmt :=
  if c = 8 then f32 else if c = 9 then bf16 else if c = 10 then f16 else if c = 11 then e4m3 else e5m2

/-- The types of R332, R335 and R342: 0 f32, 1 f16, 2 bf16. -/
def fmtOfF3 (c : Nat) : Fmt := if c = 0 then f32 else if c = 1 then f16 else bf16

/-- The float codes of major 0x19: 0 f32, 1 bf16, 2 f16, 3 e4m3, 4 e5m2 (R336). -/
def fmtOfCvt (c : Nat) : Fmt :=
  if c = 0 then f32 else if c = 1 then bf16 else if c = 2 then f16 else if c = 3 then e4m3 else e5m2

/-- The lane formats of `fsum`: 0 f32, 1 f16, 2 bf16, 3 e4m3, 4 e5m2 (R334). -/
def fmtOfSum (c : Nat) : Fmt :=
  if c = 0 then f32 else if c = 1 then f16 else if c = 2 then bf16 else if c = 3 then e4m3 else e5m2

/-- The width of an integer type code 0x0-0x7 (R258, R285). -/
def intWidth (c : Nat) : Nat := 8 * 2 ^ (c / 2)
/-- Whether an integer type code is signed (R285). -/
def intSigned (c : Nat) : Bool := c % 2 == 0

/-- The integer that the low bits of a value hold under a type code (R258). -/
def intOf (c : Nat) (v : Nat) : Int := if intSigned c then signedOf v (intWidth c) else (v % 2 ^ intWidth c : Nat)

/-- A clamp to the range of a type code (R258, R328). -/
def saturate (c : Nat) (v : Int) : Int :=
  let w := intWidth c
  let lo : Int := if intSigned c then -(2 ^ (w - 1) : Nat) else 0
  let hi : Int := if intSigned c then (2 ^ (w - 1) : Nat) - 1 else (2 ^ w : Nat) - 1
  if v < lo then lo else if hi < v then hi else v

/-- The rounding field of R332: 0 takes the thread's mode. -/
def modeOf (field : BitVec 3) (rm : BitVec 3) : Rm := if field = 0 then rmOf rm else rmOf (field - 1)

end Sys2Proof.Machine
end

