-- ==== Sys2Proof/Machine/Packed.lean ====
section
/-! DEFINITION. Majors 0x14-0x1A: packed lanes, float immediates, scalar floating point, conversions, order keys and
distances (R323-R341). -/

namespace Sys2Proof.Machine

/-- A result of this chapter: it lands after `n` cycles and its flags merge then (R324, R325). -/
def fpResult (s : State) (d : Reg) (r : Nat × FFlags) (n : Nat) : Eff × State :=
  (.done, result s s.cur d (natWord r.1) n r.2 true)

/-- An instruction of the chapter whose result depends on its operands, the pending prefix and FPC.RM. -/
def fp (f : Form) (d : Reg) (n : Nat) (g : Option (BitVec 10) → BitVec 3 → List Word → Nat × FFlags) (s : State) :
    Host.Outcome State Fault Refusal :=
  issue { f with writes := [d] } (fun vs s =>
    let t := thr s s.cur
    fpResult s d (g (pendingPfx t) t.rm vs) n) s

/-! ## Lanes (R323, R328, R330) -/

/-- Lane j of width w. -/
def lane (v : Word) (w j : Nat) : Nat := v.toNat / 2 ^ (w * j) % 2 ^ w

/-- Lanes from lane 0 put together. -/
def joinLanes (w : Nat) : List Nat → Nat
  | [] => 0
  | x :: xs => x % 2 ^ w + 2 ^ w * joinLanes w xs

/-- Every lane of the two operands, as integers of a type, through a function (R328). -/
def lanes2 (c : Nat) (g : Int → Int → Int) (a b : Word) : Nat :=
  let w := intWidth c
  joinLanes w ((List.range (64 / w)).map fun j => narrow (g (intOf c (lane a w j)) (intOf c (lane b w j))) w)

/-- A packed operation of class P (R328). -/
def packed (d a b : Reg) (t : BitVec 3) (g : Nat → Int → Int → Int) (s : State) : Host.Outcome State Fault Refusal :=
  fp { reads := [a, b] } d 8 (fun _ _ vs => (lanes2 t.toNat (g t.toNat) (arg vs 0) (arg vs 1), {})) s

/-- A lane mask (R328). -/
def maskIf (b : Bool) : Int := if b then -1 else 0

/-- padd (R328): Lane-wise add. -/
def execPadd (d a b : Reg) (t : BitVec 3) (s : State) := packed d a b t (fun _ x y => x + y) s
/-- psub (R328): Lane-wise subtract. -/
def execPsub (d a b : Reg) (t : BitVec 3) (s : State) := packed d a b t (fun _ x y => x - y) s
/-- padds (R328): Lane-wise saturating add. -/
def execPadds (d a b : Reg) (t : BitVec 3) (s : State) := packed d a b t (fun c x y => saturate c (x + y)) s
/-- psubs (R328): Lane-wise saturating subtract. -/
def execPsubs (d a b : Reg) (t : BitVec 3) (s : State) := packed d a b t (fun c x y => saturate c (x - y)) s
/-- pmul (R328): Lane-wise low product. -/
def execPmul (d a b : Reg) (t : BitVec 3) (s : State) := packed d a b t (fun _ x y => x * y) s
/-- pmulh (R328): Lane-wise high product. -/
def execPmulh (d a b : Reg) (t : BitVec 3) (s : State) := packed d a b t (fun c x y => x * y / (2 ^ intWidth c : Nat)) s
/-- pmin (R328): Lane-wise minimum. -/
def execPmin (d a b : Reg) (t : BitVec 3) (s : State) := packed d a b t (fun _ x y => if y < x then y else x) s
/-- pmax (R328): Lane-wise maximum. -/
def execPmax (d a b : Reg) (t : BitVec 3) (s : State) := packed d a b t (fun _ x y => if x < y then y else x) s
/-- pabs (R328): Lane-wise saturating absolute value. -/
def execPabs (d a : Reg) (t : BitVec 3) (s : State) :=
  fp { reads := [a] } d 8
    (fun _ _ vs => (lanes2 t.toNat (fun x _ => saturate t.toNat x.natAbs) (arg vs 0) 0, {})) s
/-- pavg (R328): Lane-wise rounded average. -/
def execPavg (d a b : Reg) (t : BitVec 3) (s : State) := packed d a b t (fun _ x y => (x + y + 1) / 2) s
/-- pcmp.eq (R328): Lane-wise equality mask. -/
def execPcmpEq (d a b : Reg) (t : BitVec 3) (s : State) := packed d a b t (fun _ x y => maskIf (x == y)) s
/-- pcmp.lt (R328): Lane-wise less-than mask. -/
def execPcmpLt (d a b : Reg) (t : BitVec 3) (s : State) := packed d a b t (fun _ x y => maskIf (x < y)) s
/-- pcmp.le (R328): Lane-wise less-or-equal mask. -/
def execPcmpLe (d a b : Reg) (t : BitVec 3) (s : State) := packed d a b t (fun _ x y => maskIf (x ≤ y)) s

/-- The sum of integer lane products and d (R329, R340). -/
def dotInt (ca cb : Nat) (d a b : Word) : Word :=
  let w := intWidth ca
  wordOf (d.toInt + ((List.range (64 / w)).map fun j => intOf ca (lane a w j) * intOf cb (lane b w j)).foldl (· + ·) 0)

/-- The sum of float lane products and d in f32, rounded once (R329). -/
def dotFloat (fa fb : Fmt) (mode : Rm) (d a b : Word) : Nat × FFlags :=
  let w := fa.width
  let ps := (List.range (64 / w)).map fun j => fmulE (fval fa (lane a w j)) (fval fb (lane b w j))
  let lanesNan := (List.range (64 / w)).any fun j => fval fa (lane a w j) == .nan || fval fb (lane b w j) == .nan
  let terms := fval f32 d.toNat :: ps.map (·.1)
  let zeroInf := ps.any (·.2)
  let (v, both) := sumE terms false
  withNv (roundTo f32 mode (if zeroInf || lanesNan then .nan else v)) (zeroInf || both)

/-- The width of a prefix code of R285. -/
def pfxWidth (c : Nat) : Nat := if c < 8 then intWidth c else if c = 8 then 32 else if c < 11 then 16 else 8

/-- fb of a payload, with "same" resolved (R285). -/
def pfxB (p : Nat) : Nat := if bits p 5 2 = 15 then bits p 9 6 else bits p 5 2

/-- The payloads `pdot` accepts (R327). -/
def pdotAccepts (p : Nat) : Bool :=
  let fa := bits p 9 6
  let fb := pfxB p
  if fa < 4 then fb < 4 && pfxWidth fa == pfxWidth fb && bits p 1 0 == 0
  else 9 ≤ fa && fa ≤ 12 && 9 ≤ fb && fb ≤ 12 && pfxWidth fa == pfxWidth fb && bits p 1 0 < 2

/-- pdot (R329): Dot product of lanes accumulated into x[D]. -/
def execPdot (d a b : Reg) (t : BitVec 3) (s : State) :=
  fp { reads := [a, b, d], accepts := some pdotAccepts } d 8
    (fun p rm vs =>
      let (ca, cb) := match p with | some p => (bits p.toNat 9 6, pfxB p.toNat) | none => (t.toNat, t.toNat)
      if ca < 8 then ((dotInt ca cb (arg vs 2) (arg vs 0) (arg vs 1)).toNat, {})
      else dotFloat (fmtOfPfx ca) (fmtOfPfx cb) (rmOf rm) (arg vs 2) (arg vs 0) (arg vs 1)) s

/-- R330: bytes of a picked by the bytes of b. -/
def shuffle (a b : Word) : Nat :=
  joinLanes 8 ((List.range 8).map fun j => let k := lane b 8 j; if k / 128 = 1 then 0 else lane a 8 (k % 8))

/-- pshf (R330): Byte shuffle. -/
def execPshf (d a b : Reg) (s : State) :=
  fp { reads := [a, b] } d 8 (fun _ _ vs => (shuffle (arg vs 0) (arg vs 1), {})) s

/-- R330: lanes of twice the width, clamped. -/
def pack (c : Nat) (a b : Word) : Nat :=
  let w := intWidth c
  let half := 32 / w
  let f (v : Word) : List Nat := (List.range half).map fun j => narrow (saturate c (signedOf (lane v (2 * w) j) (2 * w))) w
  joinLanes w (f a ++ f b)

/-- ppk (R330): Pack with saturation. -/
def execPpk (d a b : Reg) (t : BitVec 3) (s : State) :=
  fp { reads := [a, b] } d 8 (fun _ _ vs => (pack t.toNat (arg vs 0) (arg vs 1), {})) s

/-- R330: half the lanes, extended to twice the width. -/
def unpack (c h : Nat) (a : Word) : Nat :=
  let w := intWidth c
  let half := 32 / w
  joinLanes (2 * w) ((List.range half).map fun j => narrow (intOf c (lane a w (half * h + j))) (2 * w))

/-- pup (R330): Unpack half of the lanes, widened. -/
def execPup (d a : Reg) (h : BitVec 1) (t : BitVec 3) (s : State) :=
  fp { reads := [a] } d 8 (fun _ _ vs => (unpack t.toNat h.toNat (arg vs 0), {})) s

/-- R330: one lane everywhere. -/
def broadcast (c : Nat) (a b : Word) : Nat :=
  let w := intWidth c
  joinLanes w (List.replicate (64 / w) (lane a w (b.toNat % (64 / w))))

/-- pbc (R330): Broadcast one lane. -/
def execPbc (d a b : Reg) (t : BitVec 3) (s : State) :=
  fp { reads := [a, b] } d 8 (fun _ _ vs => (broadcast t.toNat (arg vs 0) (arg vs 1), {})) s

/-- psel (R330): Bitwise select by mask c. -/
def execPsel (d a b c : Reg) (s : State) :=
  fp { reads := [a, b, c] } d 8
    (fun _ _ vs => (((arg vs 2 &&& arg vs 0) ||| (~~~(arg vs 2) &&& arg vs 1)).toNat, {})) s

/-! ## Float immediates (R331) -/

/-- The value of `fli` (R331). -/
def floatImm (k : BitVec 16) (l : BitVec 1) (f : BitVec 3) : Nat :=
  if l = 0 then joinLanes 16 (List.replicate 4 k.toNat)
  else
    let v :=
      if f = 0 then (roundTo f32 .nearest (fval bf16 k.toNat)).1
      else if f = 1 then (roundTo f32 .nearest (fval f16 k.toNat)).1
      else if f = 2 then (roundTo f32 .nearest (fval e4m3 k.toNat)).1
      else if f = 3 then (roundTo f32 .nearest (fval e5m2 k.toNat)).1
      else narrow (signedOf k.toNat 16) 32
    joinLanes 32 [v, v]

/-- fli (R331): Load a float immediate into lanes. -/
def execFli (d : Reg) (k : BitVec 16) (l : BitVec 1) (f : BitVec 3) (s : State) :=
  compute {} d 1 (fun _ => natWord (floatImm k l f)) s

/-! ## Scalar floating point (R332-R335) -/

/-- Whether a prefix code is a float (R327). -/
def isFloatCode (c : Nat) : Bool := 8 ≤ c && c ≤ 12

/-- The payloads of two-source float instructions (R327). -/
def fpAccepts (p : Nat) : Bool := isFloatCode (bits p 9 6) && isFloatCode (pfxB p) && bits p 1 0 < 3
/-- The payloads of one-source float instructions: fb must be "same" (R327). -/
def fpAccepts1 (p : Nat) : Bool := isFloatCode (bits p 9 6) && bits p 5 2 == 15 && bits p 1 0 < 3
/-- The payloads of `fcmp` (R327). -/
def cmpAccepts (p : Nat) : Bool := fpAccepts p && bits p 1 0 == 0

/-- ta, tb and td of R332 and R327. -/
def typesOf (t : Nat) : Option (BitVec 10) → Fmt × Fmt × Fmt
  | none => (fmtOfF3 t, fmtOfF3 t, fmtOfF3 t)
  | some p =>
    let fa := fmtOfPfx (bits p.toNat 9 6)
    (fa, fmtOfPfx (pfxB p.toNat), if bits p.toNat 1 0 = 0 then fmtOfF3 t else if bits p.toNat 1 0 = 1 then f32 else fa)

/-- A rounded two-operand instruction of class F (R332, R333). -/
def fp2 (d a b : Reg) (m t : BitVec 3) (g : Rm → FVal → FVal → FVal × Bool) (s : State) :
    Host.Outcome State Fault Refusal :=
  fp { reads := [a, b], accepts := some fpAccepts } d 12
    (fun p rm vs =>
      let (ta, tb, td) := typesOf t.toNat p
      let mode := modeOf m rm
      let (v, nv) := g mode (fval ta (arg vs 0).toNat) (fval tb (arg vs 1).toNat)
      withNv (roundTo td mode v) nv) s

/-- The smaller value, −0 below +0; NaN where either is (R332, R260). -/
def fminE (x y : FVal) : FVal :=
  if x == .nan || y == .nan then .nan
  else if flt x y then x else if flt y x then y
  else match x with | .fin false 0 _ => y | _ => x

/-- The larger value, +0 above −0 (R332). -/
def fmaxE (x y : FVal) : FVal :=
  if x == .nan || y == .nan then .nan
  else if flt x y then y else if flt y x then x
  else match x with | .fin true 0 _ => y | _ => x

/-- fadd (R332): Floating-point add. -/
def execFadd (d a b : Reg) (m t : BitVec 3) (s : State) := fp2 d a b m t (fun md x y => faddE md x y) s
/-- fsub (R332): Floating-point subtract. -/
def execFsub (d a b : Reg) (m t : BitVec 3) (s : State) := fp2 d a b m t (fun md x y => faddE md x y.neg) s
/-- fmul (R332): Floating-point multiply. -/
def execFmul (d a b : Reg) (m t : BitVec 3) (s : State) := fp2 d a b m t (fun _ x y => fmulE x y) s
/-- fmin (R332): Floating-point minimum. -/
def execFmin (d a b : Reg) (t : BitVec 3) (s : State) := fp2 d a b 0 t (fun _ x y => (fminE x y, false)) s
/-- fmax (R332): Floating-point maximum. -/
def execFmax (d a b : Reg) (t : BitVec 3) (s : State) := fp2 d a b 0 t (fun _ x y => (fmaxE x y, false)) s

/-- A rounded one-operand instruction of class F (R332). -/
def fp1 (d a : Reg) (t : BitVec 3) (g : FVal → FVal) (s : State) : Host.Outcome State Fault Refusal :=
  fp { reads := [a], accepts := some fpAccepts1 } d 12
    (fun p rm vs =>
      let (ta, _, td) := typesOf t.toNat p
      roundTo td (rmOf rm) (g (fval ta (arg vs 0).toNat))) s

/-- fneg (R332): Floating-point negate. -/
def execFneg (d a : Reg) (t : BitVec 3) (s : State) := fp1 d a t FVal.neg s
/-- fabs (R332): Floating-point absolute value. -/
def execFabs (d a : Reg) (t : BitVec 3) (s : State) := fp1 d a t FVal.abs s

/-- A comparison: no flag, and false for NaN (R332). -/
def fcmp (d a b : Reg) (t : BitVec 3) (g : FVal → FVal → Bool) (s : State) : Host.Outcome State Fault Refusal :=
  fp { reads := [a, b], accepts := some cmpAccepts } d 12
    (fun p _ vs =>
      let (ta, tb, _) := typesOf t.toNat p
      (if g (fval ta (arg vs 0).toNat) (fval tb (arg vs 1).toNat) then 1 else 0, {})) s

/-- fcmp.eq (R332): Floating-point equality compare. -/
def execFcmpEq (d a b : Reg) (t : BitVec 3) (s : State) := fcmp d a b t feq s
/-- fcmp.lt (R332): Floating-point less-than compare. -/
def execFcmpLt (d a b : Reg) (t : BitVec 3) (s : State) := fcmp d a b t flt s
/-- fcmp.le (R332): Floating-point less-or-equal compare. -/
def execFcmpLe (d a b : Reg) (t : BitVec 3) (s : State) := fcmp d a b t (fun x y => flt x y || feq x y) s

/-- R334: every lane of both sources summed exactly. -/
def laneSum (f : Fmt) (mode : Rm) (a b : Word) : Nat × FFlags :=
  let vs (x : Word) : List FVal := (List.range (64 / f.width)).map fun j => fval f (lane x f.width j)
  let (v, nv) := sumE (vs a ++ vs b) false
  withNv (roundTo f32 mode v) nv

/-- fsum (R334): Exact sum of all lanes of two registers, rounded once to f32. -/
def execFsum (d a b : Reg) (f : BitVec 4) (w : BitVec 3) (s : State) :=
  fp { reads := [a, b], wait := w.toNat } d 20
    (fun _ rm vs => laneSum (fmtOfSum f.toNat) (rmOf rm) (arg vs 0) (arg vs 1)) s

/-- A fused multiply-add with one rounding (R335); C is read in the destination type. -/
def fused (d a b c : Reg) (t : BitVec 3) (neg : Bool) (s : State) : Host.Outcome State Fault Refusal :=
  fp { reads := [a, b, c], accepts := some fpAccepts } d 12
    (fun p rm vs =>
      let (ta, tb, td) := typesOf t.toNat p
      let mode := rmOf rm
      let vc := fval td (arg vs 2).toNat
      let va := fval ta (arg vs 0).toNat
      let vb := fval tb (arg vs 1).toNat
      if va == .nan || vb == .nan || vc == .nan then roundTo td mode .nan
      else
        let (x, nv) := fmulE va vb
        let (v, nv') := faddE mode x (if neg then vc.neg else vc)
        withNv (roundTo td mode v) (nv || nv')) s

/-- fma (R335): Fused multiply-add. -/
def execFma (d a b c : Reg) (t : BitVec 3) (s : State) := fused d a b c t false s
/-- fms (R335): Fused multiply-subtract. -/
def execFms (d a b c : Reg) (t : BitVec 3) (s : State) := fused d a b c t true s

/-! ## Conversion, classification, order keys (R336-R339) -/

/-- fcvt (R336): Convert between float formats. -/
def execFcvt (d a : Reg) (g m t : BitVec 3) (s : State) :=
  fp { reads := [a] } d 12
    (fun _ rm vs => roundTo (fmtOfCvt g.toNat) (modeOf m rm) (fval (fmtOfCvt t.toNat) (arg vs 0).toNat)) s

/-- Integer to float (R337). -/
def intToFloat (f : Fmt) (mode : Rm) (c : Nat) (a : Word) : Nat × FFlags :=
  let v := intOf c a.toNat
  roundTo f mode (.fin (v < 0) v.natAbs 0)

/-- Float to integer (R337). -/
def floatToInt (f : Fmt) (mode : Rm) (c : Nat) (a : Word) : Nat × FFlags :=
  match fval f a.toNat with
  | .nan => (0, { nv := true })
  | .inf neg => (narrow (saturate c (if neg then -(2 ^ 65 : Nat) else (2 ^ 65 : Nat))) 64, { nv := true })
  | .fin neg m e =>
    let (r, exact) := roundInt mode neg m e
    let k := saturate c r
    (narrow k 64, { nv := k != r, nx := k == r && !exact })

/-- icvt (R337): Convert between integer and float. -/
def execIcvt (d a : Reg) (r : BitVec 1) (f m t : BitVec 3) (s : State) :=
  fp { reads := [a] } d 12
    (fun _ rm vs =>
      if r = 0 then intToFloat (fmtOfCvt f.toNat) (modeOf m rm) t.toNat (arg vs 0)
      else floatToInt (fmtOfCvt f.toNat) (modeOf m rm) t.toNat (arg vs 0)) s

/-- The class bit of R338. -/
def classOf (f : Fmt) (v : Nat) : Nat :=
  match fval f v with
  | .nan => 2 ^ 8
  | .inf neg => if neg then 2 ^ 0 else 2 ^ 7
  | .fin neg m _ =>
    if m = 0 then (if neg then 2 ^ 3 else 2 ^ 4)
    else if m < 2 ^ f.fb then (if neg then 2 ^ 2 else 2 ^ 5)
    else (if neg then 2 ^ 1 else 2 ^ 6)

/-- fcls (R338): Classify a float. -/
def execFcls (d a : Reg) (f : BitVec 3) (s : State) :=
  fp { reads := [a] } d 12 (fun _ _ vs => (classOf (fmtOfCvt f.toNat) (arg vs 0).toNat, {})) s

/-- The order key of R339. -/
def orderKey (t : Nat) (inv : Bool) (a : Word) : Nat :=
  let flip (k : Nat) : Nat := if inv then 0xFFFF_FFFF - k else k
  if 8 ≤ t then
    let v := fval (fmtOfPfx t) a.toNat
    if v == .nan then 0
    else if v.isZero then flip 0x8000_0000
    else
      let u := (roundTo f32 .nearest v).1
      flip (if u < 0x8000_0000 then u + 0x8000_0000 else 0xFFFF_FFFF - u)
  else
    let k := narrow (intOf t a.toNat) 32
    flip (if intSigned t then (k + 0x8000_0000) % 2 ^ 32 else k)

/-- okey (R339): Form a 32-bit order key above a 32-bit index. -/
def execOkey (d a b : Reg) (v : BitVec 1) (t : BitVec 4) (s : State) :=
  fp { reads := [a, b] } d 8
    (fun _ _ vs => (orderKey t.toNat (v == 1) (arg vs 0) * 2 ^ 32 + (arg vs 1).toNat % 2 ^ 32, {})) s

/-! ## Distances (R340, R341) -/

/-- Eight-bit lanes of i8 or n8 (R340). -/
def execDl2 (d a b : Reg) (t : BitVec 1) (s : State) :=
  fp { reads := [a, b, d] } d 8
    (fun _ _ vs =>
      let f (j : Nat) : Int := intOf t.toNat (lane (arg vs 0) 8 j) - intOf t.toNat (lane (arg vs 1) 8 j)
      (narrow ((arg vs 2).toInt + ((List.range 8).map fun j => f j * f j).foldl (· + ·) 0) 64, {})) s

/-- dip (R340): Accumulate the integer inner product. -/
def execDip (d a b : Reg) (t : BitVec 1) (s : State) :=
  fp { reads := [a, b, d] } d 8
    (fun _ _ vs => ((dotInt t.toNat t.toNat (arg vs 2) (arg vs 0) (arg vs 1)).toNat, {})) s

/-- dip.e4m3 (R340): e4m3 inner product into an f32 sum. -/
def execDipE4m3 (d a b : Reg) (s : State) :=
  fp { reads := [a, b, d] } d 8
    (fun _ rm vs => dotFloat e4m3 e4m3 (rmOf rm) (arg vs 2) (arg vs 0) (arg vs 1)) s

/-- dham (R340): Accumulate the Hamming distance. -/
def execDham (d a b : Reg) (s : State) :=
  fp { reads := [a, b, d] } d 8
    (fun _ _ vs => ((arg vs 2 + natWord (popFrom (arg vs 0 ^^^ arg vs 1) 64)).toNat, {})) s

/-- The sixteen named entries as parts of one access (R341). -/
def codeSlices (codes table : Word) : List Slice := (List.range 16).map fun m => ((codeEntry codes table m).toNat, 2, 2 * m)

/-- The sum of a `dcb` over sixteen entries, with its flags (R341). -/
def Lookup.sum (x : Lookup) (v : Nat) : Word × FFlags :=
  let es := (List.range 16).map fun m => v / 2 ^ (16 * m) % 2 ^ 16
  if x.int then (wordOf (x.plus.toInt + (es.map fun e => signedOf e 16).foldl (· + ·) 0), {})
  else
    let (y, nv) := sumE (fval f32 x.plus.toNat :: es.map fun e => fval f16 e) false
    let (r, fl) := withNv (roundTo f32 (rmOf x.rm) y) nv
    (natWord r, fl)

/-- `dcb` (R341): the named entries are checked and read as sixteen plain loads, issued together. -/
def execDcb (d a b : Reg) (t : BitVec 1) (s : State) :=
  issue { reads := [a, b, d], writes := [d], load := true, flags := true } (fun vs s =>
    let tid := s.cur
    let table := arg vs 1
    let es := codeSlices (arg vs 0) table
    match es.find? fun e => 2 ^ 52 < e.1 + 2 with
    | some e => (.fault .addressForm (BitVec.ofNat 64 e.1), s)
    | none =>
      if table.toNat % 512 != 0 then (.fault .alignment table, s)
      else match ownParts s tid .load .tier es with
        | .error e => ownStop s tid table e
        | .ok ps =>
          if (thr s tid).prv != .f && es.any fun e => aboveMark s (coreOf tid) (thr s tid).ctx e.1 2 then (.park .watermark, s)
          else if orderHeld s tid ps false then (.park .order, s)
          else
            let x : Lookup :=
              { int := t == 0, plus := arg vs 2, rm := (thr s tid).rm, reg := d, table := table, codes := arg vs 0 }
            let q : Ask :=
              { kind := .load, va := table, size := 512, op := fun _ _ => .read, next := nextPc s 4, lookup := some x }
            let (n, s) := addAccess s tid q ps false
            (.wait n, s)) s

end Sys2Proof.Machine
end

