-- ==== Sys2Proof/Machine/Mill.lean ====
section
/-! DEFINITION. The mill: accumulator arithmetic, the issue of mill instructions, their rows, retirement, faults and
restart (R265-R268, R345-R367, R447). -/

namespace Sys2Proof.Machine

/-! ## Accumulator elements (R265, R266, R268) -/

/-- `enter_inf` (R266): the element and whether NV is set. -/
def enterInf (e : Elem) (neg : Bool) : Elem × Bool :=
  if neg then ({ e with ni := true }, e.pi) else ({ e with pi := true }, e.ni)

/-- floor(n × 2^sh) and whether it is exact. -/
def shiftInt (n sh : Int) : Int × Bool :=
  if sh ≥ 0 then (n * 2 ^ sh.toNat, true) else (n / 2 ^ (-sh).toNat, n % 2 ^ (-sh).toNat == 0)

/-- `acc_add` of a product that is neither masked nor skipped (R266). -/
def accAdd (anch : Int) (e : Elem) (p : FVal × Bool) : Elem × FFlags :=
  match p.1 with
  | .nan => ({ e with qn := true }, { nv := p.2 })
  | .inf neg =>
    let (e, nv) := enterInf e neg
    (e, { nv := nv })
  | .fin neg m x =>
    let (n, exact) := shiftInt (signedM neg m) (x - anch)
    if 2 ^ 126 ≤ n.natAbs then
      let (e, nv) := enterInf e neg
      (e, { nv := nv, ofl := true, nxa := !exact })
    else ({ e with a := e.a + BitVec.ofInt 128 n }, { nxa := !exact })

/-- A run of products into one element. -/
def accAddAll (anch : Int) (e : Elem) (ps : List (FVal × Bool)) : Elem × FFlags :=
  ps.foldl (fun (e, f) p => let (e, g) := accAdd anch e p; (e, orFlags f g)) (e, {})

/-- The value of an element for finalisation (R265, R268). -/
def elemVal (anch : Int) (e : Elem) : FVal :=
  if e.qn || (e.pi && e.ni) then .nan
  else if e.pi then .inf false
  else if e.ni then .inf true
  else finOf e.a.toInt anch false

/-- The anchor of an accumulator as an exponent (R256). -/
def anchorOf (t : Tile) (acc : Nat) : Int := (lookD t.anchors acc {}).anch.toInt

/-- The element key of R35: accumulator, row, column. -/
def elemKey (acc i j : Nat) : Nat := acc * 256 + i % 16 * 16 + j % 16

/-- The accumulator of element (i, j) of a block (R348). -/
def blockAcc (acc n i j : Nat) : Nat := acc + i / 16 * (n / 16) + j / 16

/-! ## Operands (R348, R350-R354, R356) -/

/-- The operand types as codes of R285. -/
def millCode (kind : MillKind) (opt : Nat) : Nat :=
  match kind with
  | .mmr => if opt = 0 then 2 else if opt = 1 then 3 else if opt = 2 then 0 else 1
  | _ => if opt = 0 then 11 else if opt = 1 then 12 else if opt = 2 then 10 else if opt = 3 then 9 else if opt = 4 then 0 else 1

/-- The types of A and B: a prefix replaces the F4 type (R350). -/
def millTypes (o : MillOp) : Nat × Nat :=
  match o.pfx with
  | some p => (bits p.toNat 9 6, pfxB p.toNat)
  | none => (millCode o.kind o.opt, millCode o.kind o.opt)

/-- The value of an element of a type code. -/
def codeVal (c raw : Nat) : FVal :=
  if c < 8 then (let v := intOf c raw; .fin (v < 0) v.natAbs 0) else fval (fmtOfPfx c) raw

/-- Fields of descriptor A+1 and B+1 (R348). -/
structure MulDesc where
  m : Nat
  k : Nat
  rv : Nat
  dv : Nat
  sta : Int
  n : Nat
  cv : Nat
  stb : Int
  deriving DecidableEq, Repr

/-- R348. -/
def mulDesc (a1 b1 : Word) : MulDesc :=
  let a := a1.toNat
  let b := b1.toNat
  { m := 16 * (bits a 63 62 + 1), k := 16 * (bits a 61 58 + 1), rv := bits a 57 51, dv := bits a 50 42
    sta := signedOf a 32, n := 16 * (bits b 63 62 + 1), cv := bits b 57 51, stb := signedOf b 32 }

/-- Whether both descriptors hold no reserved bit and every field in its range (R347, R348). -/
def mulDescOk (a1 b1 : Word) : Bool :=
  let d := mulDesc a1 b1
  bits a1.toNat 41 32 == 0 && bits b1.toNat 61 58 == 0 && bits b1.toNat 50 32 == 0
    && d.rv ≤ d.m && d.dv ≤ d.k && d.cv ≤ d.n

/-- Fields of a block descriptor (R356). -/
structure BlockDesc where
  m : Nat
  n : Nat
  rv : Nat
  cv : Nat
  st : Int
  deriving DecidableEq, Repr

/-- R356. -/
def blockDesc (b : Word) : BlockDesc :=
  let b := b.toNat
  { m := 16 * (bits b 63 62 + 1), n := 16 * (bits b 61 60 + 1), rv := bits b 57 51, cv := bits b 50 44, st := signedOf b 32 }

/-- R347, R356; the `.st` form needs rv, cv and st to be 0 (R358). -/
def blockDescOk (st : Bool) (b : Word) : Bool :=
  let d := blockDesc b
  bits b.toNat 59 58 == 0 && bits b.toNat 43 32 == 0 && d.rv ≤ d.m && d.cv ≤ d.n
    && (!st || (d.rv == 0 && d.cv == 0 && d.st == 0))

/-- Bytes of a row of operand A or B. -/
def rowLen (o : MillOp) (second : Bool) : Nat :=
  let d := mulDesc o.a1 o.b1
  let (ta, tb) := millTypes o
  match o.kind, second with
  | .mmas, false => d.k / 2 * (pfxWidth ta / 8) + d.k / 8
  | .mmcb, _ => d.k / 2 + (d.k + 31) / 32
  | _, false => d.k * (pfxWidth ta / 8)
  | _, true => d.k * (pfxWidth tb / 8)

/-- Whether an accumulator load or store moves special records (R358). -/
def isSt (o : MillOp) : Bool := (o.kind == .mld || o.kind == .mst) && o.opt == 1

/-- Bytes of one element of a block as `mld`, `mst` and `mfin` move it (R358, R361). -/
def elemBytes (o : MillOp) : Nat :=
  match o.kind with
  | .mfin => if o.opt = 0 || o.opt = 5 then 4 else if o.opt < 3 then 2 else 1
  | _ => 16

/-- Rows that an instruction works through after B (R349, R358, R360, R364). -/
def rowsOf (o : MillOp) : Nat :=
  match o.kind with
  | .mma | .mmas | .mmcb | .mmr => (mulDesc o.a1 o.b1).rv
  | .mld | .mst | .mfin =>
    let d := blockDesc o.b0
    if isSt o then d.m / 16 * (d.n / 16) else d.rv
  | .mcbt => 1
  | _ => 0

/-- Rows of B (R349). -/
def rowsB (o : MillOp) : Nat :=
  match o.kind with
  | .mma | .mmas | .mmcb | .mmr => (mulDesc o.a1 o.b1).cv
  | _ => 0

/-- The accumulators an instruction names. -/
def accsNamed (o : MillOp) : List Nat :=
  match o.kind with
  | .mma | .mmas | .mmcb | .mmr =>
    let d := mulDesc o.a1 o.b1
    (List.range (d.m / 16 * (d.n / 16))).map (o.acc + ·)
  | .mld | .mst | .mfin =>
    let d := blockDesc o.b0
    (List.range (d.m / 16 * (d.n / 16))).map (o.acc + ·)
  | .mzero | .manc | .mscl => (List.range (o.opt + 1)).map (o.acc + ·)
  | .mcbt => []

/-- The accumulators an instruction writes. -/
def accsWritten (o : MillOp) : List Nat :=
  match o.kind with
  | .mst | .mfin => []
  | _ => accsNamed o

/-- The bytes spanned by rows (R349): lowest address and one past the highest. -/
def spanRows (base : Word) (st : Int) (rows len : Nat) : List (Nat × Nat) :=
  if rows = 0 || len = 0 then []
  else
    let last := (base.toNat : Int) + (rows - 1 : Nat) * st
    let lo := min (base.toNat : Int) last
    let hi := max (base.toNat : Int) last + len
    [(lo.toNat, hi.toNat)]

/-- The read and write regions of an instruction (R97, R349, R360). -/
def millRegions (o : MillOp) : List (Nat × Nat) × List (Nat × Nat) :=
  let d := mulDesc o.a1 o.b1
  let b := blockDesc o.b0
  match o.kind with
  | .mma | .mmas | .mmcb | .mmr =>
    (spanRows o.a0 d.sta d.rv (rowLen o false) ++ spanRows o.b0 d.stb d.cv (rowLen o true), [])
  | .mcbt => ([(o.a0.toNat, o.a0.toNat + 32)], [])
  | .mld =>
    (if isSt o then [(o.a0.toNat, o.a0.toNat + 128 * (b.m / 16 * (b.n / 16)))]
     else spanRows o.a0 b.st b.rv (b.cv * 16), [])
  | .mst | .mfin =>
    ([], if isSt o then [(o.a0.toNat, o.a0.toNat + 128 * (b.m / 16 * (b.n / 16)))]
         else spanRows o.a0 b.st b.rv (b.cv * elemBytes o))
  | _ => ([], [])

/-! ## Issue (R345-R347, R363) -/

/-- Entries in a compartment's scheduler, arriving or accepted (R93, R97). -/
def schedCount (s : State) (c : Nat) : Nat :=
  let k := cmpt s c
  let follows (e : Entry) : Bool := (e.job.bind (look s.jobs)).any fun j => j.follow.isSome
  k.entries.length + k.arrivals.length + (k.arrivals.filter follows).length

/-- Whether a residue instruction may run on a tile (R229, R347). -/
def residueOk (s : State) (tl ctxn : Nat) : Bool := (tile s tl).rnsMode != 2 || (ctx s ctxn).d2ok

/-- Held mill instructions of the tile's other threads that write an accumulator named (R363). -/
def heldBy (s : State) (tid : Nat) (accs : List Nat) : Bool :=
  s.threads.any fun (n, t) =>
    n != tid && tileOf n == tileOf tid && t.held.any fun h => (accsWritten h.op).any fun a => accs.contains a

/-- Enter a mill instruction of a thread: it takes the next number of the thread's sequence (R345, R346). -/
def enterMill (s : State) (tid : Nat) (o : MillOp) (job : Option Nat) (edges : List Nat) (accepted : Bool) : State :=
  let t := thr s tid
  let n := t.millSeq + 1
  let (id, s) := newId (setThr s tid { t with millSeq := n })
  let (rd, wr) := millRegions o
  let c := cmptOf tid
  let k := cmpt s c
  let e : Entry :=
    { id := id, ctx := o.ctx, tid := tid, core := coreOf tid, cycle := k.cyc, reads := rd, writes := wr
      mill := some { o with seq := n, serial := t.serial, before := if accepted then o.before else s.ids }, job := job, edges := edges }
  setCmpt s c (if accepted then { k with entries := k.entries ++ [e] } else { k with arrivals := k.arrivals ++ [e] })

/-- The checks of R347 and R363 on a mill instruction with its operands captured. It parks while the scheduler is full, and while
a follow-on of the thread has not taken its number, so that numbers follow the order of retirement (R100, R346, log 36: DEDUCED). -/
def millChecks (s : State) (tid : Nat) (o : MillOp) : Option Eff :=
  let t := thr s tid
  let follow := s.jobs.any fun p => p.2.tid == tid && p.2.serial == t.serial && p.2.follow.isSome && !p.2.followed
  let descOk := match o.kind with
    | .mma | .mmas | .mmcb | .mmr => mulDescOk o.a1 o.b1
    | .mld | .mst => blockDescOk (isSt o) o.b0
    | .mfin => blockDescOk false o.b0
    | _ => true
  let bad (w : Word) : Bool := 2 ^ 52 ≤ w.toNat
  let aBase := match o.kind with | .mzero | .manc | .mscl => false | _ => bad o.a0
  let bBase := match o.kind with | .mma | .mmas | .mmcb | .mmr => bad o.b0 | _ => false
  if heldBy s tid (accsNamed o) then some (.fault .waitCount 0)
  else if !descOk || (accsNamed o).any (16 ≤ ·) then some (.fault .malformedStructure 0)
  else if aBase then some (.fault .addressForm o.a0)
  else if bBase then some (.fault .addressForm o.b0)
  else if o.kind == .mmr && !residueOk s (tileOf tid) t.ctx then some (.fault .residueUnavailable 0)
  else if follow || 4096 ≤ schedCount s (cmptOf tid) then some (.park .schedule)
  else none

/-- Issue a mill instruction: registers, FPC.RM and any prefix are captured (R345). -/
def millIssue (f : Form) (kind : MillKind) (acc opt : Nat) (regs : List Word → Word × Word × Word × Word) (s : State) :
    Host.Outcome State Fault Refusal :=
  issue { f with effect := true, mill := true } (fun vs s =>
    let tid := s.cur
    let t := thr s tid
    let (a0, a1, b0, b1) := regs vs
    let o : MillOp :=
      { kind := kind, tid := tid, ctx := t.ctx, launch := t.launch, seq := 0, acc := acc, opt := opt, a0 := a0, a1 := a1
        b0 := b0, b1 := b1, rm := t.rm, pfx := pendingPfx t, prv := t.prv }
    match millChecks s tid o with
    | some e => (e, s)
    | none => (.done, enterMill s tid o none [] false)) s

/-- The prefix payloads of `mma` and `mmas` (R350). -/
def mmaAccepts (p : Nat) : Bool :=
  let fa := bits p 9 6
  let fb := pfxB p
  let in8 (c : Nat) : Bool := c == 11 || c == 12
  let in16 (c : Nat) : Bool := c == 9 || c == 10
  let ints (c : Nat) : Bool := c < 2
  bits p 1 0 == 0 && ((in8 fa && in8 fb) || (in16 fa && in16 fb) || (ints fa && ints fb))

/-- The register after another. -/
def regNext (r : Reg) : Reg := r + 1

/-- A multiply (R348, R350). -/
def multiply (kind : MillKind) (a b c : Reg) (opt : Nat) (w : BitVec 3) (acc : Option (Nat → Bool)) (s : State) :
    Host.Outcome State Fault Refusal :=
  millIssue { reads := [a, regNext a, b, regNext b], accepts := acc, wait := w.toNat } kind c.toNat opt
    (fun vs => (arg vs 0, arg vs 1, arg vs 2, arg vs 3)) s

/-- mma (R351): Dense mill multiply-accumulate into a block of accumulators. -/
def execMma (a b c : Reg) (t : BitVec 4) (w : BitVec 3) (s : State) := multiply .mma a b c t.toNat w (some mmaAccepts) s
/-- mmas (R352): Mill multiply with a 2:4 sparse A operand. -/
def execMmas (a b c : Reg) (t : BitVec 4) (w : BitVec 3) (s : State) := multiply .mmas a b c t.toNat w (some mmaAccepts) s
/-- mmcb (R353): Mill multiply of cb4 operands through codebook tables. -/
def execMmcb (a b c : Reg) (p : BitVec 2) (w : BitVec 3) (s : State) := multiply .mmcb a b c p.toNat w none s
/-- mmr (R354): Residue mill multiply-accumulate with a bound. -/
def execMmr (a b c : Reg) (t : BitVec 4) (w : BitVec 3) (s : State) := multiply .mmr a b c t.toNat w none s

/-- An accumulator instruction with a base and a block descriptor (R356, R357). -/
def blockIssue (kind : MillKind) (a b c : Reg) (opt : Nat) (w : BitVec 3) (s : State) : Host.Outcome State Fault Refusal :=
  millIssue { reads := [a, b], wait := w.toNat } kind c.toNat opt (fun vs => (arg vs 0, 0, arg vs 1, 0)) s

/-- mld (R358): Load an accumulator block, raw or special records. -/
def execMld (a b c : Reg) (f : BitVec 1) (w : BitVec 3) (s : State) := blockIssue .mld a b c f.toNat w s
/-- mst (R358): Store an accumulator block, raw or special records. -/
def execMst (a b c : Reg) (f : BitVec 1) (w : BitVec 3) (s : State) := blockIssue .mst a b c f.toNat w s
/-- mfin (R361): Finalise and store an accumulator block in a format. -/
def execMfin (a b c : Reg) (f : BitVec 4) (w : BitVec 3) (s : State) := blockIssue .mfin a b c f.toNat w s
/-- mzero (R359): Zero accumulators and their records. -/
def execMzero (c : Reg) (n : BitVec 4) (w : BitVec 3) (s : State) :=
  millIssue { wait := w.toNat } .mzero c.toNat n.toNat (fun _ => (0, 0, 0, 0)) s
/-- manc (R359): Set the accumulator anchors. -/
def execManc (a c : Reg) (n : BitVec 4) (w : BitVec 3) (s : State) :=
  millIssue { reads := [a], wait := w.toNat } .manc c.toNat n.toNat (fun vs => (arg vs 0, 0, 0, 0)) s
/-- mscl (R359): Rescale accumulators to a new anchor. -/
def execMscl (a c : Reg) (n : BitVec 4) (w : BitVec 3) (s : State) :=
  millIssue { reads := [a], wait := w.toNat } .mscl c.toNat n.toNat (fun vs => (arg vs 0, 0, 0, 0)) s
/-- mcbt (R360): Load a 16-entry bf16 codebook table. -/
def execMcbt (a : Reg) (w : BitVec 3) (t : Reg) (s : State) :=
  millIssue { reads := [a], wait := w.toNat } .mcbt t.toNat 0 (fun vs => (arg vs 0, 0, 0, 0)) s

/-! ## Sequence numbers and restart, major 0x1E (R362, R363, R365) -/

/-- The thread's mill instructions that have not retired, with their numbers (R345, R346). -/
def unretired (s : State) (tid : Nat) : List (BitVec 32) :=
  let k := cmpt s (cmptOf tid)
  (k.arrivals ++ k.entries).filterMap fun e => match e.mill with
    | some m => if m.tid = tid ∧ m.serial = (thr s tid).serial then some m.seq else none
    | none => none

/-- Whether the number of an instruction is that of the thread's held one or a later one: it is held, wherever it stands (R364). -/
def isHeld (t : Thread) (q : BitVec 32) : Bool := t.held.any fun h => (q - h.op.seq).toNat < 2 ^ 31

/-- The numbers of the followers held behind the thread's held instruction (R364). -/
def followers (s : State) (tid : Nat) : List (BitVec 32) :=
  (unretired s tid).filter fun q => isHeld (thr s tid) q && (thr s tid).held.any fun h => q != h.op.seq

/-- Whether an instruction numbered up to the target has neither retired nor is held (R363). -/
def millWaits (s : State) (tid : Nat) (target : BitVec 32) : Bool :=
  (unretired s tid).any fun q => (target - q).toNat < 2 ^ 31 && !isHeld (thr s tid) q

/-- Park until the mill reaches a number; completing is an acquire (R124, R363). -/
def millWait (s : State) (target : BitVec 32) : Eff × State :=
  if millWaits s s.cur target then (.park (.mill target), s) else (.done, setThr s s.cur (discardAhead (thr s s.cur)))

/-- mseq (R363): Read the mill sequence counter. -/
def execMseq (d : Reg) (w : BitVec 3) (s : State) :=
  issue { writes := [d], wait := w.toNat } (fun _ s =>
    (.done, result s s.cur d ((thr s s.cur).millSeq.setWidth 64) 1)) s

/-- mwait (R363): Park until mill instructions up to a number have retired or are held, then acquire. -/
def execMwait (a : Reg) (w : BitVec 3) (s : State) :=
  issue { reads := [a], wait := w.toNat } (fun vs s =>
    let n := (thr s s.cur).millSeq
    let q : BitVec 32 := (arg vs 0).setWidth 32
    millWait s (if 2 ^ 31 ≤ (n - q).toNat then n else q)) s

/-- mwait.all (R363): Wait for all of the thread's mill instructions. -/
def execMwaitAll (w : BitVec 3) (s : State) := issue { wait := w.toNat } (fun _ s => millWait s (thr s s.cur).millSeq) s

/-- The mill record (R365). -/
def millRecord (s : State) (tid : Nat) : Word :=
  match (thr s tid).held with
  | none => 0
  | some h => natWord (h.op.seq.toNat * 2 ^ 32 + 2 ^ 31 + min (followers s tid).length 255 * 2 ^ 16 + h.op.p % 128)

/-- mprog.rd (R365): Read the thread's mill record. -/
def execMprogRd (d : Reg) (w : BitVec 3) (s : State) :=
  issue { writes := [d], wait := w.toNat } (fun _ s => (.done, result s s.cur d (millRecord s s.cur) 1)) s

/-- `mprog.go` (R365): the held instruction and its followers go to the mill again, B to be read again. -/
def representHeld (s : State) (tid : Nat) : State :=
  let t := thr s tid
  match t.held with
  | none => s
  | some h =>
    let s := setThr s tid { t with held := none }
    let x := tile s (tileOf tid)
    let c := cycOf s (cmptOf tid)
    setTile s (tileOf tid)
      { x with dispatched := x.dispatched ++ (h.op :: h.followers).map fun o =>
          { o with rowsB := [], staged := false, sent := c } }

/-- mprog.go (R365): Re-present the held mill instruction from its row progress. -/
def execMprogGo (w : BitVec 3) (s : State) := issue { wait := w.toNat } (fun _ s => (.done, representHeld s s.cur)) s

/-- The scheduler forgets a completed entry, with every edge from it (R99). -/
def completeEntry (s : State) (c : Nat) (p : Entry → Bool) : State :=
  let k := cmpt s c
  let gone := ((k.entries ++ k.arrivals).filter p).map (·.id)
  setCmpt s c { k with entries := (k.entries.filter fun e => !p e).map fun e =>
                  { e with edges := e.edges.filter fun i => !gone.contains i }
                       arrivals := k.arrivals.filter fun e => !p e }

/-- Whether two mill instructions are one: their thread and their number. -/
def MillOp.same (o m : MillOp) : Bool := m.tid == o.tid && m.serial == o.serial && m.seq == o.seq

/-- Whether an entry is that of a mill instruction. -/
def isMill (o : MillOp) (e : Entry) : Bool := e.mill.any o.same

/-- Flags of a mill instruction reach FPC and the anchor words (R255, R266, R345): FPC at the end of the cycle, after what the thread's own
instruction clears in it. -/
def retireFlags (s : State) (tl : Nat) (o : MillOp) : State :=
  let t := thr s o.tid
  let s := if t.life == .free || t.life == .killed || t.serial != o.serial || o.flags = {} then s
    else setThr s o.tid { t with pend := insPend ⟨0, 0, cycOf s (cmptOf o.tid), o.flags, false, false⟩ t.pend }
  let x := tile s tl
  let mark (f : Anchor → Anchor) (m : Tab Anchor) (l : List Nat) : Tab Anchor :=
    l.foldl (fun m a => put m a (f (lookD m a {}))) m
  setTile s tl { x with anchors := mark (fun a => { a with spz := true }) (mark (fun a => { a with nxa := true }) x.anchors o.nxaOf) o.spzOf }

/-- `mprog.cancel` (R365): the held instruction retires with the flags of its completed rows, the followers with none. -/
def cancelHeld (s : State) (tid : Nat) : State :=
  let t := thr s tid
  match t.held with
  | none => s
  | some h =>
    let s := retireFlags (setThr s tid { t with held := none }) (tileOf tid) h.op
    completeEntry s (cmptOf tid) fun e => e.mill.any fun m => m.tid == tid && m.serial == t.serial && isHeld t m.seq

/-- mprog.cancel (R365): Retire the held instruction and its followers with no further effect. -/
def execMprogCancel (w : BitVec 3) (s : State) := issue { wait := w.toNat } (fun _ s => (.done, cancelHeld s s.cur)) s

/-! ## The mill's own steps (R345, R349, R351-R361, R447) -/

/-- `mmr` waits in dispatch while a map change is pending (R372); an instruction of a thread waits behind its earlier
ones. -/
def acceptable (x : Tile) (o : MillOp) : Bool :=
  !(o.kind == .mmr && x.mmrStop)
    && !x.dispatched.any fun q => q.tid == o.tid && q.serial == o.serial && 2 ^ 31 ≤ (q.seq - o.seq).toNat

/-- The place of an instruction among those that arrived at the mill (R209, R345). -/
def acceptRank (o : MillOp) : Nat := o.sent * 8 + (coreOf o.tid % 8 + 8 - o.sent % 8) % 8

/-- The instruction a mill accepts next. -/
def nextAccepted (x : Tile) : Option MillOp :=
  (x.dispatched.filter (acceptable x)).foldl (fun b o => match b with
    | none => some o
    | some p => if acceptRank o < acceptRank p then some o else some p) none

/-- Whether an instruction names the accumulator, or reads the staging, at an offset of the mill window (R36). -/
def touchesMill (o : MillOp) (off : Nat) : Bool :=
  if off < 0x1_0000 then (accsNamed o).contains (off / 4096)
  else if off < 0x1_8000 then rowsB o != 0
  else (accsNamed o).contains ((off - 0x1_8000) / 8)

/-- A mill-window word waits for accepted instructions that touch it, one that is held being accepted and not retired (R36,
R364). -/
def millBusy (s : State) (pa : Nat) : Bool :=
  match placeOf pa with
  | .mill tl off =>
    (tile s tl).millQ.any (touchesMill · off)
      || s.threads.any fun (n, t) => tileOf n == tl
        && t.held.any fun h => (h.op :: h.followers.take h.accepted).any (touchesMill · off)
  | _ => false

/-- A window access that has arrived is performed before an instruction accepted later (R36): inside the compartment it arrives after its
transit. -/
def windowWaits (s : State) (tl : Nat) (o : MillOp) : Bool :=
  s.reqs.any fun p => !p.2.travelling && !p.2.held && p.2.earliest ≤ cycOf s (cmptOfTile tl) && p.2.pkg == s.pkg
    && (match placeOf p.2.pa with | .mill t off => t == tl && touchesMill o off | _ => false)

/-- MILL_ACCEPT (R345). -/
def millAccept (tl : Nat) (s : State) : Option State :=
  let x := tile s tl
  if 64 ≤ x.millQ.length then none
  else match nextAccepted x with
    | none => none
    | some o =>
      if windowWaits s tl o then none
      else
        let o' := { o with began := max o.sent (cycOf s (cmptOfTile tl)) }
        some (setTile s tl { x with dispatched := x.dispatched.filter (fun q => !o.same q), millQ := x.millQ ++ [o'] })

/-- Whether accesses that the thread made before an engine entry are still to be performed (R122, R134). -/
def engineHeld (s : State) (tid before : Nat) : Bool := (accsOf s tid).any fun p => p.1 < before && p.2.covered

/-- The address of row i. -/
def rowAddr (base : Word) (st : Int) (i : Nat) : Word := base + wordOf (st * i)

/-- Element t of a row of `w`-byte elements. -/
def rawAt (row : List Byte) (w t : Nat) : Nat := ofBytes ((row.drop (w * t)).take w)

/-- A cb4 element of a row of depth k (R264, R353). -/
def cb4At (book : List (BitVec 16)) (row : List Byte) (k t : Nat) : FVal :=
  let b := (row.getD (t / 2) 0).toNat
  let c := if t % 2 = 0 then b % 16 else b / 16
  let sc := (row.getD (k / 2 + t / 32) 0).toNat
  if sc = 255 then .nan
  else match fval bf16 (book.getD c 0).toNat with
    | .fin n m e => .fin n m (e + sc - 127)
    | v => v

/-- The products of a row of A with row j of B for `mma`, `mmcb` (R351, R353): depth below dv. -/
def denseProducts (av bv : Nat → FVal) (dv : Nat) : List (FVal × Bool) :=
  (List.range dv).map fun t => fmulE (av t) (bv t)

/-- The stored positions of a sparse group: depth of values 2g and 2g + 1 (R352). -/
def sparsePos (meta_ : Nat → Nat) (g : Nat) : Nat × Nat := (4 * g + meta_ g % 4, 4 * g + meta_ g / 4)

/-- The products of a sparse row and whether a skipped element was special (R352, R266). -/
def sparseProducts (vals : Nat → FVal) (meta_ : Nat → Nat) (bv : Nat → FVal) (k dv : Nat) : List (FVal × Bool) × Bool :=
  let groups := List.range (k / 4)
  let ps := groups.flatMap fun g =>
    let (p0, p1) := sparsePos meta_ g
    (if p0 < dv then [fmulE (vals (2 * g)) (bv p0)] else []) ++ (if p1 < dv then [fmulE (vals (2 * g + 1)) (bv p1)] else [])
  let spz := (List.range (min dv k)).any fun t =>
    let (p0, p1) := sparsePos meta_ (t / 4)
    t != p0 && t != p1 && (match bv t with | .nan | .inf _ => true | _ => false)
  (ps, spz)

/-- The moduli of R269 by byte. -/
def modulus (j : Nat) : Nat := [253, 251, 247, 241, 239, 233, 256, 255].getD j 256

/-- Whether the residue map marks a channel failed (R271). -/
def failed (x : Tile) (j : Nat) : Bool :=
  (x.rnsMode != 0 && j == x.rnsFa.toNat) || (x.rnsMode == 2 && j == x.rnsFb.toNat)

/-- A residue word made channel by channel; failed channels are 0 (R271, R370). -/
def byChannel (x : Tile) (f : Nat → Int) : Nat :=
  joinLanes 8 ((List.range 8).map fun j => if failed x j then 0 else (f j % (modulus j : Int)).toNat)

/-- `mmr` on one element (R354). -/
def residueAdd (x : Tile) (e : Elem) (av bv : Nat → Int) (dv ma mb : Nat) : Elem :=
  let sum := ((List.range dv).map fun t => av t * bv t).foldl (· + ·) 0
  let w := byChannel x fun j => (e.a.toNat / 2 ^ (8 * j) % 256 : Nat) + sum
  let b := min (e.a.toNat / 2 ^ 64 + dv * ma * mb) (2 ^ 64 - 1)
  { e with a := BitVec.ofNat 128 (w + 2 ^ 64 * b) }

/-- The greatest magnitude of a residue operand type (R354). -/
def maxMag (c : Nat) : Nat := if c = 2 then 32768 else if c = 3 then 65535 else if c = 0 then 128 else 255

/-- One element's share of row i of a multiply (R351-R354): the element, its flags, spz. -/
def rowElem (x : Tile) (o : MillOp) (rowA rowB : List Byte) (anch : Int) (e : Elem) : Elem × FFlags × Bool :=
  let d := mulDesc o.a1 o.b1
  let (ta, tb) := millTypes o
  let wa := pfxWidth ta / 8
  let wb := pfxWidth tb / 8
  match o.kind with
  | .mmr =>
    (residueAdd x e (fun t => intOf ta (rawAt rowA wa t)) (fun t => intOf tb (rawAt rowB wb t)) d.dv (maxMag ta) (maxMag tb), {}, false)
  | .mmcb =>
    let (e, f) := accAddAll anch e
      (denseProducts (cb4At (lookD x.books (2 * o.opt) []) rowA d.k) (cb4At (lookD x.books (2 * o.opt + 1) []) rowB d.k) d.dv)
    (e, f, false)
  | .mmas =>
    let mb := d.k / 2 * wa
    let meta_ (g : Nat) : Nat := (let b := (rowA.getD (mb + g / 2) 0).toNat; if g % 2 = 0 then b % 16 else b / 16)
    let (ps, spz) := sparseProducts (fun u => codeVal ta (rawAt rowA wa u)) meta_ (fun t => codeVal tb (rawAt rowB wb t)) d.k d.dv
    let (e, f) := accAddAll anch e ps
    (e, { f with spz := spz }, spz)
  | _ =>
    let (e, f) := accAddAll anch e
      (denseProducts (fun t => codeVal ta (rawAt rowA wa t)) (fun t => codeVal tb (rawAt rowB wb t)) d.dv)
    (e, f, false)

/-- Row i of a multiply enters the accumulators (R349). -/
def enterRow (x : Tile) (o : MillOp) (i : Nat) (rowA : List Byte) : Tile × MillOp :=
  let d := mulDesc o.a1 o.b1
  (List.range d.cv).foldl (fun (x, o) j =>
    let acc := blockAcc o.acc d.n i j
    let key := elemKey acc i j
    let (e, f, z) := rowElem x o rowA (o.rowsB.getD j []) (anchorOf x acc) (lookD x.acc key {})
    ({ x with acc := put x.acc key e },
     { o with flags := orFlags o.flags f, nxaOf := if f.nxa then acc :: o.nxaOf else o.nxaOf
              spzOf := if z then acc :: o.spzOf else o.spzOf })) (x, o)

/-- An element as `mst` and `mfin` write it, with the flags (R358, R361, R268). -/
def storeElem (x : Tile) (o : MillOp) (acc : Nat) (e : Elem) : Nat × FFlags :=
  let v := elemVal (anchorOf x acc) e
  match o.kind with
  | .mfin =>
    if o.opt = 5 then
      match v with
      | .nan => (0, { nv := true })
      | .inf neg => (if neg then 2 ^ 31 else 2 ^ 31 - 1, { nv := true })
      | .fin neg m x =>
        let (r, exact) := roundInt (rmOf o.rm) neg m x
        let k := saturate 4 r
        (narrow k 32, { nv := k != r, nx := k == r && !exact })
    else roundTo (fmtOfSum o.opt) (rmOf o.rm) v
  | _ => (e.a.toNat, {})

/-- The special records of an accumulator (R358). -/
def specialBits (x : Tile) (acc : Nat) : Nat :=
  joinLanes 4 ((List.range 256).map fun e =>
    let v := lookD x.acc (acc * 256 + e) {}
    bitAt v.pi 0 + bitAt v.ni 1 + bitAt v.qn 2)

/-- Load special records (R358). -/
def loadSpecial (x : Tile) (acc v : Nat) : Tile :=
  { x with acc := (List.range 256).foldl (fun m e =>
      let n := v / 2 ^ (4 * e)
      put m (acc * 256 + e) { lookD m (acc * 256 + e) {} with pi := bit n 0, ni := bit n 1, qn := bit n 2 }) x.acc }

/-- Replace the running instruction. -/
def setHead (s : State) (tl : Nat) (x : Tile) (o : MillOp) : State := setTile s tl { x with millQ := o :: x.millQ.drop 1 }

/-- The edges that an instruction without stores leaves are gone once its last read has been served (R99). -/
def servedReads (tl : Nat) (s : State) : State :=
  match (tile s tl).millQ with
  | [] => s
  | o :: _ =>
    if o.rowsB.length < rowsB o || o.p < rowsOf o || !(millRegions o).2.isEmpty then s
    else
      let k := cmpt s (cmptOf o.tid)
      let gone := (k.entries.filter (isMill o)).map (·.id)
      setCmpt s (cmptOf o.tid) { k with entries := k.entries.map fun e =>
        { e with reads := if isMill o e then [] else e.reads, edges := e.edges.filter fun i => !gone.contains i } }

/-- The bytes of the running instruction's next row, and what it stores there with the flags that the values raise; none when
every row is done (R349, R358, R360, R361, R447). -/
def nextRow (x : Tile) (o : MillOp) : Option (Word × Nat × Option (Nat × FFlags)) :=
  let b := blockDesc o.b0
  let d := mulDesc o.a1 o.b1
  if o.rowsB.length < rowsB o then some (rowAddr o.b0 d.stb o.rowsB.length, rowLen o true, none)
  else if rowsOf o ≤ o.p then none
  else match o.kind with
    | .mcbt => some (o.a0, 32, none)
    | .mld => some (if isSt o then (o.a0 + natWord (128 * o.p), 128, none) else (rowAddr o.a0 b.st o.p, 16 * b.cv, none))
    | .mst | .mfin =>
      if isSt o then some (o.a0 + natWord (128 * o.p), 128, some (specialBits x (o.acc + o.p), {}))
      else
        let es : List (Nat × FFlags) := (List.range b.cv).map fun j =>
          let acc := blockAcc o.acc b.n o.p j
          storeElem x o acc (lookD x.acc (elemKey acc o.p j) {})
        let w := elemBytes o
        some (rowAddr o.a0 b.st o.p, w * b.cv, some (joinLanes (8 * w) (es.map (·.1)), es.foldl (fun f e => orFlags f e.2) {}))
    | _ => some (rowAddr o.a0 d.sta o.p, rowLen o false, none)

/-- A row that has been read or stored whole has its effect (R349, R358, R360, R447). -/
def rowEffect (s : State) (tl : Nat) (o : MillOp) (v : Nat) (fl : FFlags) : State :=
  let x := tile s tl
  let b := blockDesc o.b0
  if o.rowsB.length < rowsB o then
    let (n, s) : Nat × State := (s.fresh, { s with fresh := s.fresh + 1 })
    setHead s tl { x with staging := [], staged := some n } { o with staged := true, rowsB := o.rowsB ++ [toBytes (rowLen o true) v] }
  else
    match o.kind with
    | .mma | .mmas | .mmcb | .mmr =>
      let (x, o) := enterRow x o o.p (toBytes (rowLen o false) v)
      setHead s tl x { o with p := o.p + 1 }
    | .mcbt =>
      let book : List (BitVec 16) := (List.range 16).map fun i => BitVec.ofNat 16 (v / 2 ^ (16 * i))
      setHead s tl { x with books := put x.books o.acc book } { o with p := 1 }
    | .mld =>
      let x := if isSt o then loadSpecial x (o.acc + o.p) v
        else { x with acc := (List.range b.cv).foldl (fun m j =>
            put m (elemKey (blockAcc o.acc b.n o.p j) o.p j) { a := BitVec.ofNat 128 (v / 2 ^ (128 * j)) }) x.acc }
      setHead s tl x { o with p := o.p + 1 }
    | _ => setHead s tl x { o with p := o.p + 1, flags := orFlags o.flags fl }

/-- A pipe meets a fault: the row has no effect (R364). `inj` says whether an injected word gave it. -/
def pipeStop (s : State) (tl : Nat) (c : Cause) (va : Word) (inj : Bool := false) : State :=
  setTile s tl { tile s tl with pipeFault := some (c, va), pipeInj := inj, row := none }

/-- What the words of a row that has failed were goes back: the row has no effect (R364). -/
def undoRow (s : State) (a : Access) : State := a.was.foldl (fun s w => writeHome s w.1 w.2.1 w.2.2.1 w.2.2.2) s

/-- Whether an instruction is a multiply (R350). -/
def MillKind.multiplies : MillKind → Bool
  | .mma | .mmas | .mmcb | .mmr => true
  | _ => false

/-- The pipes ask for the next row: one access of the load or store pipes, its words performed separately (R64, R111), as soon as their
banks serve them (log 42: DEDUCED). Reads wait above a watermark (R105), an operand of a multiply in a window is refused (R349), and no
word of a row is stored that a frame refuses. -/
def rowAsk (s : State) (tl : Nat) (o : MillOp) (va : Word) (n : Nat) (store : Option (Nat × FFlags)) : Option State :=
  if store.isNone && aboveMark s (coreOf o.tid) o.ctx va.toNat n then none
  else
    let kind : AccKind := if store.isSome then .store else .load
    match piecesNow s ⟨coreOf o.tid, tl, o.ctx, o.prv⟩ kind va n with
    | (.error (.fault c a), s) => some (pipeStop s tl c (BitVec.ofNat 64 a) (c == .memoryError && walkInjected s o.ctx a))
    | (.error (.walk _), s') => waiting s s'
    | (.ok ps, s) =>
      match ps.find? fun p => o.kind.multiplies && isWindow (placeOf p.pa), ps.find? fun p => admitted s p.pkg p.pa p.gen == .stale with
      | some p, _ => some (pipeStop s tl .windowAccess (va + natWord p.off))
      | none, some p => some (pipeStop s tl .staleGeneration (va + natWord p.off))
      | none, none =>
        let v := (store.map (·.1)).getD 0
        let q : Ask :=
          { kind := kind, va := va, size := n, next := 0, agent := .mill tl, forCtx := some o.ctx, now := true
            op := fun k off => if store.isSome then .write (v / 2 ^ (8 * off) % 2 ^ (8 * k)) else .read }
        let (a, s) := addAccess s o.tid q ps true
        some (setTile s tl { tile s tl with row := some (a, (store.map (·.2)).getD {}) })

/-- The access of a row is over (R364, R447). -/
def rowEnd (s : State) (tl : Nat) (o : MillOp) (n : Nat) (fl : FFlags) : Option State :=
  match look s.accs n with
  | none => some (setTile s tl { tile s tl with row := none })
  | some a =>
    if a.left != 0 || a.replies != 0 then none
    else
      let s := tick { s with accs := del s.accs n } (cmptOfTile tl) a.done
      if a.poisoned then some (pipeStop (undoRow s a) tl .memoryError a.tval a.inj)
      else if a.stale then some (pipeStop (undoRow s a) tl .staleGeneration a.tval)
      else
        let s := setTile s tl { tile s tl with row := none }
        some (rowEffect s tl o a.val fl)

/-- One row of the running instruction: its access is made, and when it is over the row has its effect (R349, R447). (log 37: DESIGN CHOICE) -/
def millRow (tl : Nat) (s : State) : Option State :=
  let x := tile s tl
  match x.millQ with
  | [] => none
  | o :: _ =>
    if x.pipeFault.isSome then none
    else match x.row, nextRow x o with
      | some (n, fl), _ => rowEnd s tl o n fl
      | none, none =>
        if o.kind == .mmr && o.p == 0 && rowsB o == 0 && !residueOk s tl o.ctx then some (pipeStop s tl .residueUnavailable 0) else none
      | none, some (va, n, store) =>
        if engineHeld s o.tid o.before then none
        else if o.kind == .mmr && o.rowsB.isEmpty && !residueOk s tl o.ctx then some (pipeStop s tl .residueUnavailable 0)
        else if n = 0 then some (rowEffect s tl o 0 {})
        else rowAsk s tl o va n store

/-- Whether every byte of a row lies in local stores of the compartment, and the tiles other than its own that hold one. -/
def rowTiles (s : State) (tl : Nat) (o : MillOp) (va : Word) (n : Nat) : Option (List Nat) :=
  if n = 0 then some []
  else match piecesNow s ⟨coreOf o.tid, tl, o.ctx, o.prv⟩ .load va n with
    | (.ok ps, _) =>
      let at_ (p : Piece) (a : Nat) : Option Nat :=
        match placeOf a with | .store c _ => if p.pkg == s.pkg && cmptOfCore c == cmptOfTile tl then some (c / 8) else none | _ => none
      (ps.mapM fun p => (at_ p p.pa).bind fun t => (at_ p (p.pa + p.len - 1)).map fun u => [t, u]).map fun l => l.flatten.filter (· != tl)
    | _ => none

/-- The published duration of an instruction: of a multiply in fixed-timing mode (R209), none where it is not published (R210), and of every
other one in both clock modes (R357). A unit is a block of 16 × 16 × 16 elements, and the 8-bit integers take r = 1 (log 42: DEDUCED). -/
def millDuration (s : State) (tl : Nat) (o : MillOp) : Option Nat :=
  let d := mulDesc o.a1 o.b1
  let b := blockDesc o.b0
  let units := d.m / 16 * (d.n / 16) * (d.k / 16)
  let rows (base : Word) (st : Int) (k len : Nat) : Option (List Nat) :=
    ((List.range k).mapM fun i => rowTiles s tl o (rowAddr base st i) len).map List.flatten
  let wide := pfxWidth (millTypes o).1 = 16
  match o.kind with
  | .mma | .mmas | .mmcb | .mmr =>
    let half := match o.kind with | .mmcb => 1 | .mmr => 4 | .mmas => if wide then 2 else 1 | _ => if wide then 4 else 2
    match (cmpt s (cmptOfTile tl)).fixt, rows o.a0 d.sta d.rv (rowLen o false), rows o.b0 d.stb d.cv (rowLen o true) with
    | true, some a, some c => some (24 + (units * half + 1) / 2 + 4 * (a ++ c).eraseDups.length)
    | _, _, _ => none
  | .mfin => some (8 + ceilDiv (b.rv * b.cv * elemBytes o) 64)
  | .mld | .mst => some (8 + ceilDiv (if isSt o then 128 * (b.m / 16 * (b.n / 16)) else b.rv * b.cv * 16) 64)
  | .mcbt => some 9
  | .mzero | .manc | .mscl => some 8

/-- The cycle at whose end the running instruction may retire: that of its published duration, which begins when its predecessor retires
(R124, R209, R357). -/
def retireCycle (s : State) (tl : Nat) (o : MillOp) : Nat := o.began + (millDuration s tl o).getD 0

/-- Whether every row that an instruction stores lies in local stores of its compartment, so that its duration is published (R209, R210). -/
def storesNear (s : State) (tl : Nat) (o : MillOp) : Bool :=
  let b := blockDesc o.b0
  (o.kind == .mst || o.kind == .mfin) && (List.range (rowsOf o)).all fun i =>
    (if isSt o then rowTiles s tl o (o.a0 + natWord (128 * i)) 128 else rowTiles s tl o (rowAddr o.a0 b.st i) (b.cv * elemBytes o)).isSome

/-- Whether a queue that begins an instruction in cycle `n` or after owes a thread stores whose published duration has ended before
cycle `c` (R124). -/
def owesStores (s : State) (tl tid c : Nat) : Nat → List MillOp → Bool
  | _, [] => false
  | n, o :: q =>
    match millDuration s tl o with
    | none => false
    | some d =>
      let m := max n o.began + d
      (o.tid == tid && o.serial == (thr s tid).serial && m < c && storesNear s tl o) || owesStores s tl tid c m q

/-- `mzero`, `manc` and `mscl` on one element (R359): the element and its flags. -/
def rescale (kind : MillKind) (anch n : Int) (e : Elem) : Elem × FFlags :=
  match kind with
  | .mzero => ({}, {})
  | .mscl =>
    let (q, exact) := shiftInt e.a.toInt (anch - n)
    if 2 ^ 126 ≤ q.natAbs then
      let (e, nv) := enterInf e (q < 0)
      (e, { nv := nv, ofl := true, nxa := !exact })
    else ({ e with a := BitVec.ofInt 128 q }, { nxa := !exact })
  | _ => (e, {})

/-- The effect of an instruction that touches no memory on one accumulator (R359). -/
def accEffect (x : Tile) (o : MillOp) (acc : Nat) : Tile × FFlags :=
  let n := signedOf o.a0.toNat 16
  let w := lookD x.anchors acc {}
  let (m, f) := (List.range 256).foldl (fun (m, f) e =>
    match look m (acc * 256 + e) with
    | none => (m, f)
    | some v => let (v, g) := rescale o.kind w.anch.toInt n v; (put m (acc * 256 + e) v, orFlags f g)) (x.acc, ({} : FFlags))
  let w := match o.kind with
    | .mzero => { w with spz := false, nxa := false }
    | _ => { w with anch := BitVec.ofInt 16 n, nxa := w.nxa || f.nxa }
  ({ x with acc := m, anchors := put x.anchors acc w }, f)

/-- MILL_RETIRE (R345, R359): the running instruction is done. -/
def millRetire (tl : Nat) (s : State) : Option State :=
  let x := tile s tl
  match x.millQ with
  | [] => none
  | o :: q =>
    if x.pipeFault.isSome || x.row.isSome || o.rowsB.length < rowsB o || o.p < rowsOf o
      || (o.kind == .mmr && o.p == 0 && rowsB o == 0 && !residueOk s tl o.ctx) then none
    else
      let (x, o) : Tile × MillOp := match o.kind with
        | .mzero | .manc | .mscl =>
          (accsNamed o).foldl (fun (x, o) acc => let (x, f) := accEffect x o acc; (x, { o with flags := orFlags o.flags f })) (x, o)
        | .mmr => ({ x with rnsOps := x.rnsOps + 1 }, o)
        | _ => (x, o)
      let k := cmptOfTile tl
      let s := tick s k (retireCycle s tl o)
      let q := match q with | [] => [] | n :: rest => { n with began := max n.began (cycOf s k) } :: rest
      let s := retireFlags (setTile s tl { x with millQ := q }) tl o
      some (completeEntry s (cmptOf o.tid) (isMill o))

/-- MILL_PIPE_FAULT (R364): the running instruction is held with its row progress, the thread's later instructions behind
it, and the thread is told; a fault of a thread that is gone cancels. -/
def millPipeFault (tl : Nat) (s : State) : Option State :=
  let x := tile s tl
  match x.pipeFault, x.millQ with
  | some (c, va), o :: q =>
    let mine (m : MillOp) : Bool := m.tid == o.tid && m.serial == o.serial
    let q' := (q.filter fun m => !mine m).map fun m => { m with began := max m.began (cycOf s (cmptOfTile tl)) }
    let s := setTile s tl { x with pipeFault := none, millQ := q', dispatched := x.dispatched.filter fun m => !mine m }
    let t := thr s o.tid
    let held : Held := ⟨o, q.filter mine ++ x.dispatched.filter mine, (q.filter mine).length⟩
    if t.serial != o.serial then some (completeEntry (retireFlags s tl o) (cmptOf o.tid) fun e => e.mill.any mine)
    else
      let s := setThr s o.tid { t with held := some held }
      match t.life with
      | .free | .killed => some (cancelHeld s o.tid)
      | _ =>
        if !c.contains then some (setThr s o.tid { thr s o.tid with async := t.async ++ [⟨c, va⟩] })
        else if t.life == .contained then some s
        else some (contain (setThr s o.tid { thr s o.tid with injSeen := x.pipeInj }) o.tid c va t.pc)
  | _, _ => none

/-- MILL_ACCEPT (R345): The mill accepts a dispatched instruction into its 64-entry queue in (k − c) mod 8 order. -/
def execMillAccept (tl : Nat) (s : State) := event (millAccept tl) s
/-- MILL_ROW_READ (R447): A mill row is read whole and its products enter the accumulators, advancing the row progress. -/
def execMillRowRead (tl : Nat) (s : State) := event (fun s => (millRow tl s).map (servedReads tl)) s
/-- MILL_RETIRE (R345): A mill instruction retires, merging its flags into FPC and its spz and nxa bits into the anchor words. -/
def execMillRetire (tl : Nat) (s : State) := event (millRetire tl) s
/-- MILL_PIPE_FAULT (R364): A mill pipe meets a fault, and the instruction is held at its row progress and reported to its thread. -/
def execMillPipeFault (tl : Nat) (s : State) := event (millPipeFault tl) s

end Sys2Proof.Machine
end

