-- ==== Sys2Proof/Machine/Units.lean ====
section
/-! DEFINITION. What several families share: releases and acquires, the send queue, landings, counts of the cruise, crews
and barriers, the end of a thread, host records and the killing of a context. -/

namespace Sys2Proof.Machine

/-! ## Ordering (R114, R120, R322) -/

/-- An earlier covered access of the thread has not been acknowledged or has not returned (R114). -/
def releaseHeld (s : State) (tid : Nat) : Bool := (accsOf s tid).any fun p => p.2.covered

/-- The same for accesses named before `n` (R376). -/
def releaseHeldBefore (s : State) (tid n : Nat) : Bool := (accsOf s tid).any fun p => p.1 < n && p.2.covered

/-- An acquire that is no access: the elements read ahead are read again (R322). -/
def acquireNow (s : State) (tid : Nat) : State := setThr s tid (discardAhead (thr s tid))

/-! ## Launches and counts (R143, R161) -/

/-- The launch of a name. -/
def launchOf (s : State) (l : Option Nat) : Option Launch := l.bind (look s.launches)

/-- Whether a thread runs in a deterministic launch. -/
def deterministic (s : State) (l : Option Nat) : Bool := (launchOf s l).any fun x => x.det

/-- Count `n` events sent by a core for a launch (R161). -/
def countSent (s : State) (c : Nat) (l : Option Nat) (n : Nat) : State :=
  match l with
  | none => s
  | some l =>
    let k := core s c
    setCore s c { k with sent := put k.sent l (lookD k.sent l 0 + n) }

/-- Count `n` events received by a core for a launch (R161). -/
def countRecv (s : State) (c : Nat) (l : Option Nat) (n : Nat) : State :=
  match l with
  | none => s
  | some l =>
    let k := core s c
    setCore s c { k with recv := put k.recv l (lookD k.recv l 0 + n) }

/-- The place of a core's overflow ring of a launch, and how many records it holds (R175, R213). -/
def ringOf (s : State) (c l : Nat) : Option (Nat × Nat × Nat) :=
  (look s.launches l).map fun x =>
    (x.rbase + logIn x.gone (cmptsOf s x.part) c 0 * x.rsz * 4096, 256 * x.rsz, x.ctx)

/-- Whether a record may go to its launch's overflow ring (R175), one at a time; a record under no launch has no ring. -/
def ringRoom (s : State) (c : Nat) (l : Option Nat) : Bool :=
  match if (core s c).ringAcc.isSome then none else l with
  | none => false
  | some l => match ringOf s c l with
    | none => false
    | some (_, cap, _) => (lookD (core s c).rings l (0, 0)).2 < cap

/-- Whether a core's active-pair queue, or the ring behind it, takes a record of a launch (R175). -/
def pairRoom (s : State) (c : Nat) (l : Option Nat) : Bool := (core s c).pairQ.length < 256 || ringRoom s c l

/-- The answer to a thread's core-count query (R27): the canonical count in a deterministic launch, else the usable cores of its
partition. No instruction of the table is such a query. (log 25: DEDUCED) -/
def coreCount (s : State) (tid : Nat) : Nat :=
  let t := thr s tid
  match launchOf s t.launch with
  | some l => if l.det then l.ccnt else usable s (ctx s t.ctx).part l.gone
  | none => usable s (ctx s t.ctx).part (goneNow s)

/-- The answer to a thread's query of split factor `i` in a deterministic launch (R216); the spec gives none in another. No instruction of
the table is such a query. (log 25: DEDUCED) -/
def splitFactor (s : State) (tid i : Nat) : Option Nat :=
  match launchOf s (thr s tid).launch with
  | some l => if l.det && i < 8 then some (bits l.sf.toNat (8 * i + 7) (8 * i)) else none
  | none => none

/-! ## The send queue (R146, R376, R377) -/

/-- The destination number of a core of another package: the package above the logical core. (log 34: DESIGN CHOICE) -/
def awayCore (pkg l : Nat) : Nat := 65536 * (pkg + 1) + l

/-- Whether the core's send queue has room (R146). -/
def sendRoom (s : State) (c : Nat) : Bool := (core s c).sendQ.length < 16

/-- Enter bodies with their destinations in the core's send queue as one entry: they leave after every access the thread
has made so far (R376). -/
def enqueue (s : State) (tid : Nat) (cls : Class) (bodies : List (Body × Nat)) : State :=
  let k := core s (coreOf tid)
  let x := thr s tid
  let e : SendEntry := { tid := some tid, serial := x.serial, ctx := x.ctx, bodies := bodies, cls := cls, before := s.ids, launch := x.launch }
  setCore s (coreOf tid) { k with sendQ := k.sendQ ++ [e] }

/-! ## Landings (R186, R187) -/

/-- The bytes of words, the first lowest (R4). -/
def wordBytes : List Nat → List Byte
  | [] => []
  | w :: ws => toBytes 8 w ++ wordBytes ws

/-- The two descriptor words of an entry (R187). -/
def landWords (e : LandEntry) : Word × Word :=
  (natWord (e.kind.toNat * 2 ^ 56 + e.len * 2 ^ 49 + e.prio * 2 ^ 47 + bitAt e.mcast 46 + e.pkg * 2 ^ 40),
   natWord (e.seq.toNat * 2 ^ 32 + e.stid))

/-- Whether a context's starts are withheld in the compartment of a core (R160). -/
def withheld (s : State) (n c : Nat) : Bool := (ctx s n).stopped.contains (cmptOfCore c)

/-- Change what pre-emption has moved out of a core (R160). -/
def setSaved (s : State) (n c : Nat) (f : Saved → Saved) : State :=
  let x := ctx s n
  if x.saved.any fun v => v.core == c then
    setCtx s n { x with saved := x.saved.map fun v => if v.core = c then f v else v }
  else setCtx s n { x with saved := x.saved ++ [f { core := c }] }

/-- Entries of a priority. -/
def atPrio (k : Core) (p : Nat) : Nat := (k.landing.filter fun e => e.prio == p).length

/-- A record that waited says so, when it is a yarder record (R102). -/
def markHeld (e : LandEntry) : LandEntry :=
  if e.kind = 0x10 then { e with data := e.data.take 5 ++ (e.data.getD 5 0 ||| 1) :: e.data.drop 6 } else e

/-- Held records enter, in order, wherever their priority has room (R101, R186). -/
def fillLanding (s : State) (c : Nat) : State :=
  let k := core s c
  k.heldRecs.foldl (fun s e =>
    let k := core s c
    if atPrio k e.prio < 16 && !(k.heldRecs.any fun h => h.prio == e.prio) then
      setCore s c { k with landing := k.landing ++ [{ markHeld e with since := cycOf s (cmptOfCore c) + 1 }] }
    else setCore s c { k with heldRecs := k.heldRecs ++ [e] }) (setCore s c { k with heldRecs := [] })

/-- Post a record: it enters the landing, or waits at it while its priority is full (R101); a taker can have it from the next cycle on (R379).
One of a context that is pre-empted there joins what has been moved out, behind the records that its source has held (R160, R186). -/
def postRecord (s : State) (c : Nat) (e : LandEntry) : State :=
  let k := core s c
  let e := { e with since := cycOf s (cmptOfCore c) + 1 }
  if withheld s e.ctx c then setSaved s e.ctx c fun v => { v with heldRecs := v.heldRecs ++ [e] }
  else if atPrio k e.prio < 16 && !(k.heldRecs.any fun h => h.prio == e.prio) then
    setCore s c { k with landing := k.landing ++ [e] }
  else setCore s c { k with heldRecs := k.heldRecs ++ [e] }

/-- A landing message as an entry (R187). -/
def entryOf (m : Msg) : LandEntry :=
  { kind := 0x01, len := m.len, prio := m.prio, mcast := m.mcast, pkg := m.pkg, seq := m.seq, stid := m.stid, ctx := m.ctx
    data := m.data }

/-! ## Crews and barriers (R154-R158, R387-R389) -/

/-- Whether a thread is a member of a crew. -/
def isMember (x : Ctx) (c tid : Nat) : Bool := (look x.crews c).any fun k => k.members.contains tid

/-- Take a thread out of a crew's member list. -/
def dropMember (x : Ctx) (c tid : Nat) : Ctx :=
  match look x.crews c with
  | none => x
  | some k => { x with crews := put x.crews c { k with members := k.members.filter fun m => m != tid } }

/-- The thread leaves all its crews; no barrier count changes (R154). -/
def leaveCrews (s : State) (tid : Nat) : State :=
  let t := thr s tid
  let s := t.crew.foldl (fun s e =>
    match e with
    | some c => setCtx s t.ctx (dropMember (ctx s t.ctx) c tid)
    | none => s) s
  setThr s tid { t with crew := [none, none, none, none] }

/-- The current phase completes when its arrivals reach its expected count and no copy is pending; a barrier whose expected
count is 0 is spent and stays (R157). -/
def phaseStep (b : Barrier) : Barrier :=
  if b.e != 0 && b.a0 == b.e && b.c0 == 0 then
    { b with e := b.e - b.d0, p := b.p + 1, a0 := b.a1, d0 := b.d1, c0 := b.c1, a1 := 0, d1 := 0, c1 := 0 }
  else b

/-- Every phase that can complete now: after the next one opens with no arrival no further one can. -/
def phases (b : Barrier) : Barrier := phaseStep (phaseStep b)

/-- Whether phase q has completed (R157, R158). -/
def phaseDone (b : Barrier) (q : BitVec 32) : Bool :=
  let d := (b.p - q).toNat
  (1 ≤ d && d ≤ 2 ^ 31) || (b.e == 0 && b.c0 == 0 && q == b.p)

/-- The phase that a thread's next arrival enters: 0 for p, 1 for p + 1, none for an over-arrival (R156). -/
def nextPhase (b : Barrier) : Option Nat :=
  if b.a0 < b.e then some 0 else if b.a1 < b.e - b.d0 then some 1 else none

/-- `bar_arrival` after its checks (R156): the barrier with the arrival, and the phase it entered. -/
def arrive (b : Barrier) (drop : Bool) : Option (Barrier × BitVec 32) :=
  let n := if drop then 1 else 0
  match nextPhase b with
  | none => none
  | some 0 => some (phases { b with a0 := b.a0 + 1, d0 := b.d0 + n }, b.p)
  | some _ => some (phases { b with a1 := b.a1 + 1, d1 := b.d1 + n }, b.p + 1)

/-- A pending copy of a phase is counted or taken off (R106). -/
def countCopy (b : Barrier) (q : BitVec 32) (add : Bool) : Barrier :=
  let f (n : Nat) := if add then n + 1 else n - 1
  if q == b.p then phases { b with c0 := f b.c0 } else if q == b.p + 1 then phases { b with c1 := f b.c1 } else b

/-! ## Host records (R425) -/

/-- A record for the host completion ring; it waits for room. -/
def hostRecord (s : State) (r : Record) : State := { s with host := { s.host with waiting := s.host.waiting ++ [r] } }

/-- A packet-done record. -/
def packetDone (s : State) (seq : BitVec 32) (status cnt : Nat) : State :=
  hostRecord s { kind := 0x33, status := status, seq := seq, tag := 0, ts := s.now, cnt := cnt }

/-! ## The end of a thread (R225, R231, R386) -/

/-- Threads of a context that hold a slot. -/
def holders (s : State) (n : Nat) : List (Nat × Thread) := s.threads.filter fun p => p.2.life != .free && p.2.ctx == n

/-- A pre-emption is done when every thread of the context in the compartments has ended (R429). -/
def checkPreempt (s : State) (n : Nat) : State :=
  match (ctx s n).preempt with
  | none => s
  | some (ks, seq, _) =>
    if (holders s n).any fun p => ks.contains (cmptOf p.1) then s
    else packetDone (setCtx s n { ctx s n with preempt := none }) seq 0 0

/-- A kill is done when every slot is free and every yarder has reported (R231). -/
def checkKill (s : State) (n : Nat) : State :=
  match (ctx s n).killing with
  | some (reply, status, []) =>
    if !(holders s n).isEmpty then s
    else
      let s := setCtx s n { ctx s n with killing := none }
      match reply with
      | some seq => packetDone s seq status 0
      | none => s
  | _ => s

/-- The slot of a thread becomes free: it is in no crew, and nothing of it waits. -/
def freeSlot (s : State) (tid : Nat) : State :=
  let s := leaveCrews s tid
  let t := thr s tid
  let s := setThr s tid { t with life := .free, park := none, qb := 0, streams := [], held := none, async := [], pend := []
                                 winTarget := none, why := none, goal := none, stopping := none, draining := none
                                 own := none, refilled := [], refill := none, restart := false, net := none, doomed := false }
  checkKill (checkPreempt s t.ctx) t.ctx

/-- Whether no reply to an access of the thread's own is outstanding (R225). -/
def answered (s : State) (tid : Nat) : Bool := !s.accs.any fun p => p.2.tid == tid && p.2.agent.own

/-- A killed thread's slot is freed once no reply for it is outstanding (R225); one whose task starts again keeps it (R226). -/
def checkKilled (s : State) (tid : Nat) : State :=
  if (thr s tid).life == .killed && !(thr s tid).restart && answered s tid then freeSlot s tid else s

/-- Kill a thread (R225): it issues nothing further. -/
def killThread (s : State) (tid : Nat) : State :=
  let t := thr s tid
  if t.life == .free || (t.life == .killed && !t.restart) then s
  else
    let s := cancelHeld s tid
    let unsent (p : Packet) : Bool := p.stage == .sending && (match p.body with | .mig m => m.origin == tid | _ => false)
    let s := if t.life == .moving then { s with packets := s.packets.filter fun p => !unsent p.2 } else s
    checkKilled (setThr s tid { thr s tid with life := .killed, park := none, net := none, own := none, async := [], restart := false, doomed := false }) tid

/-- A thread that `tkill` has named is killed, with the other half of its pair, once the `link` that it was in is over (R172, R417). -/
def closeDoomed (s : State) (tid : Nat) : State :=
  let t := thr s tid
  if t.doomed && t.net.isNone then
    let s := killThread s tid
    if t.lt then killThread s (partner t tid) else s
  else s

/-- Kill a thread, and its partner when it is half of a pair (R225, R417). -/
def killPair (s : State) (n : Nat) : State :=
  let t := thr s n
  let s := killThread s n
  if t.lt then killThread s (partner t n) else s

/-- Clear the registers of a slot (R34, R417). -/
def scrub (t : Thread) : Thread :=
  { t with g := [], win0 := [], win1 := [], cur := false, olive := false, depth := 0, spilled := 0, pfx := 0, pp := false
           it := false, pprv := 0, prv := .u, lt := false, trl := false, det := false, fixt := false, qb := 0, flags := {}
           rm := 0, streams := [], millSeq := 0, pend := [], refilled := [], refill := none }

/-! ## Killing a context (R109, R231) -/

/-- The context a body belongs to. -/
def bodyCtx : Body → Option Nat
  | .msg m => some m.ctx
  | .mig m => some m.ctx
  | .pair p => some p.ctx
  | _ => none

/-- The units that report the end of a killed context's writes, by their source numbers: the compartments' yarders, the HBM
yarders and the far-tier ports (R109, R432). -/
def yarderUnits : List Nat :=
  (List.range 32).map (fun c => 64 * c + 1) ++ (List.range 512).map (fun y => 2048 + y) ++ (List.range 4).map (fun d => 2560 + d)

/-- What a core holds of a killed context is discarded (R231). -/
def purgeCore (s : State) (n : Nat) (k : Core) : Core :=
  { k with intake := k.intake.filter fun b => bodyCtx b.2 != some n
           landing := k.landing.filter fun e => e.ctx != n
           heldRecs := k.heldRecs.filter fun e => e.ctx != n
           sendQ := k.sendQ.filter fun e => e.ctx != n
           deck := k.deck.filter fun r => r.ctx != n
           stolen := k.stolen.filter fun r => r.ctx != n
           pairQ := k.pairQ.filter fun r => r.ctx != n
           rings := k.rings.filter fun p => !(look s.launches p.1).any fun l => l.ctx == n
           ringAcc := k.ringAcc.filter fun r => !(look s.launches r.launch).any fun l => l.ctx == n
           prep := if (k.pairQ.head?.map PairRec.ctx) = some n then none else k.prep
           prepared := match k.prepared with | some p => if p.record.ctx = n then none else some p | none => none
           reds := k.reds.filter fun r => r.ctx != n }

/-- What a tile holds of a killed context is discarded (R231). -/
def purgeTile (n : Nat) (x : Tile) : Tile := { x with sets := x.sets.filter fun p => p.2.ctx != n }

/-- The network cycles of 50 µs. -/
def modeChange : Nat := 60000

/-- Whether a launch runs on a partition. -/
def busyPart (s : State) (p : Nat) : Bool := s.launches.any fun l => l.2.running && l.2.part == p

/-- The clock mode of a partition. -/
def clockMode (s : State) (p : Nat) : Bool :=
  match cmptsOf s p with
  | c :: _ => (cmpt s c).fixt
  | [] => false

/-- A launch of the other mode at the head of the queue begins the change of mode once nothing runs (R207). -/
def pump (s : State) (p : Nat) : State :=
  let q := part s p
  match q.queue.head?.bind (look s.launches), q.change with
  | some l, none => if l.fixt != clockMode s p && !busyPart s p then setPart s p { q with change := some (l.fixt, s.now + modeChange) } else s
  | _, _ => s

/-- Who is answered for a kill, and with which status: the packet that asked for it, or a pre-emption that it overtakes (R429). -/
def killReply (x : Ctx) (reply : Option (BitVec 32)) (status : Nat) : Option (BitVec 32) × Nat :=
  match reply, x.preempt with
  | none, some (_, seq, _) => (some seq, 4)
  | _, _ => (reply, status)

/-- Kill a context (R109, R231): its generation advances, the schedulers and yarders drop its work, its threads are killed
and scrubbed, and what the cores hold for it is discarded. `reply` names the packet that is answered at the end. (log 30: DEDUCED) -/
def killCtx (s : State) (n : Nat) (reply : Option (BitVec 32)) (status : Nat) : State :=
  let x := ctx s n
  let s := setCtx s n { x with cgen := x.cgen + 1, preempt := none, saved := [], stopped := []
                               killing := some ((killReply x reply status).1, (killReply x reply status).2, yarderUnits) }
  let s : State := { s with
    cmpts := s.cmpts.map (fun p => (p.1, { p.2 with arrivals := p.2.arrivals.filter (fun e => e.ctx != n)
                                                    entries := p.2.entries.filter (fun e => e.ctx != n || (e.dispatched && e.mill.isSome))
                                                    markQ := p.2.markQ.filter fun j => (look s.jobs j).any fun b => b.ctx != n }))
    jobs := s.jobs.filter (fun p => p.2.ctx != n)
    cores := s.cores.map (fun p => (p.1, purgeCore s n p.2))
    tiles := s.tiles.map (fun p => (p.1, purgeTile n p.2))
    packets := s.packets.filter (fun p => bodyCtx p.2.body != some n)
    launches := s.launches.map (fun p => if p.2.ctx = n then (p.1, { p.2 with running := false, ended := true }) else p)
    parts := s.parts.map (fun p => (p.1, { p.2 with queue := p.2.queue.filter fun l => (look s.launches l).any fun b => b.ctx != n })) }
  let s := s.cores.foldl (fun (s : State) (p : Nat × Core) => if p.2.heldRecs.isEmpty then s else fillLanding s p.1) s
  let s := (holders s n).foldl (fun s p =>
    let s := killThread s p.1
    setThr s p.1 (scrub (thr s p.1))) s
  pump (checkKill s n) x.part

end Sys2Proof.Machine
end

