-- ==== Sys2Proof/Machine/Message.lean ====
section
/-! DEFINITION. Majors 0x20 and 0x21: sending messages and taking landing entries (R375-R382). -/

namespace Sys2Proof.Machine

/-- A message descriptor (R375). -/
structure MsgDesc where
  tgt : Nat
  prio : Nat
  len : Nat
  pkg : Nat
  rem : Bool
  dest : Nat
  nos : Bool
  res : Nat
  sctx : Nat
  hnd : Nat

/-- The fields of x[A] (R375). -/
def msgDesc (a : Word) : MsgDesc :=
  let v := a.toNat
  { tgt := bits v 63 62, prio := bits v 61 60, len := bits v 59 53, pkg := bits v 52 47, rem := bit v 46
    dest := bits v 45 32, nos := bit v 31, res := bits v 30 28, sctx := bits v 27 16, hnd := bits v 15 0 }

/-- Words of payload (R375). -/
def payWords (a : Word) : Nat := ceilDiv (msgDesc a).len 8

/-- The payload registers from x[p], none where they do not exist (R375, R376). -/
def payRegs (p : Reg) (a : Word) : List Reg :=
  if (msgDesc a).len ≤ 64 && p.toNat + payWords a ≤ 32 then regsFrom p (payWords a) else []

/-- What R375 and R376 require of a descriptor, `multi` for `sendm`. -/
def msgOk (p : Reg) (a : Word) (multi : Bool) : Bool :=
  let d := msgDesc a
  d.tgt != 3 && (d.tgt == 1 || d.prio == 0) && d.len ≤ 64 && (d.rem || d.pkg == 0) && (!d.rem || (!multi && d.tgt != 2))
    && (multi || !d.nos) && d.res == 0 && (d.tgt == 2 || d.sctx == 0) && (if d.tgt == 1 then d.hnd == 0 else d.hnd % 2 == 0)
    && (!multi || (d.tgt != 2 && d.dest < 512)) && p.toNat + payWords a ≤ 32

/-- The low bytes of the registers (R375). -/
def payload (a : Word) (ws : List Word) : List Byte :=
  (wordBytes (ws.map BitVec.toNat)).take (msgDesc a).len

/-- The message of a thread with its next sequence number (R188, R376). -/
def message (s : State) (tid : Nat) (a : Word) (ws : List Word) (mcast : Bool) : Msg :=
  let d := msgDesc a
  let t := thr s tid
  { tgt := d.tgt, prio := d.prio, len := d.len, dest := d.dest, mcast := mcast, pkg := s.pkg, pc := natWord d.hnd
    ctx := if d.tgt = 2 then d.sctx else t.ctx, launch := if d.tgt = 2 then none else t.launch, stid := logicalTid s tid
    seq := t.sendSeq + 1, data := payload a ws }

/-- Take the next number of the thread's send sequence (R188). -/
def nextSeq (s : State) (tid : Nat) : State := setThr s tid { thr s tid with sendSeq := (thr s tid).sendSeq + 1 }

/-- The receiver that a descriptor names, or the partition fault (R376, R378). -/
def receiver (s : State) (tid : Nat) (d : MsgDesc) : Option Nat :=
  let t := thr s tid
  if d.tgt = 2 then
    if (ctx s d.sctx).live && (cmpt s (cmptOfCore d.dest)).part == some (ctx s d.sctx).part then some d.dest else none
  else if d.rem && d.pkg != s.pkg then
    if d.dest < Config.remoteCores t.ctx d.pkg then some (awayCore d.pkg d.dest) else none
  else physCore s tid d.dest

/-- `send` (R376, R378). -/
def execSend (d a b : Reg) (s : State) :=
  issue { reads := [a], more := fun vs => payRegs b (arg vs 0), writes := [d], effect := true } (fun vs s =>
    let tid := s.cur
    let m := msgDesc (arg vs 0)
    if m.tgt = 2 && (thr s tid).prv != .f then (.fault .privilege 0, s)
    else if !msgOk b (arg vs 0) false then (.fault .malformedStructure 0, s)
    else match receiver s tid m with
      | none => (.fault .partition 0, s)
      | some c =>
        if !sendRoom s (coreOf tid) then (.park .sendRoom, s)
        else
          let g := message s tid (arg vs 0) vs.tail false
          let s := enqueue (nextSeq s tid) tid (if m.tgt = 2 then .system else .dispatch) [(.msg g, c)]
          (.done, result s tid d (natWord g.seq.toNat) 1)) s

/-- The receiving cores of a multicast, none for the partition fault (R189, R377). -/
def receivers (s : State) (tid : Nat) (mask k : Nat) (nos : Bool) : Option (List Nat) :=
  let cs := cmptsOf s (ctx s (thr s tid).ctx).part
  let gone := goneOf s (thr s tid).launch
  if (List.range 32).all (fun i => !bit mask i || (match cs[i]? with | some c => !gone.contains (c * 512 + k) | none => false)) then
    some (((List.range 32).filter fun i => bit mask i).filterMap fun i =>
      match cs[i]? with
      | some c => if nos && c == cmptOf tid then none else some (c * 512 + k)
      | none => none)
  else none

/-- `sendm` (R377). -/
def execSendm (d a b c : Reg) (s : State) :=
  issue { reads := [a, b], more := fun vs => payRegs c (arg vs 0), writes := [d], effect := true } (fun vs s =>
    let tid := s.cur
    let m := msgDesc (arg vs 0)
    let mask := (arg vs 1).toNat
    if !msgOk c (arg vs 0) true || 2 ^ 32 ≤ mask then (.fault .malformedStructure 0, s)
    else match receivers s tid mask m.dest m.nos with
      | none => (.fault .partition 0, s)
      | some cs =>
        if !cs.isEmpty && !sendRoom s (coreOf tid) then (.park .sendRoom, s)
        else
          let g := message s tid (arg vs 0) (vs.drop 2) true
          let s := nextSeq s tid
          let s := if cs.isEmpty then s else enqueue s tid .dispatch (cs.map fun c => (.msg { g with dest := c }, c))
          (.done, result s tid d (natWord (g.seq.toNat + (if cs.isEmpty then 2 ^ 32 else 0))) 1)) s

/-! ## Taking entries (R379-R382) -/

/-- Whether an entry is eligible for a thread under a priority mask (R379). -/
def eligibleEntry (s : State) (tid pm : Nat) (e : LandEntry) : Bool :=
  let t := thr s tid
  e.ctx == t.ctx && bit pm e.prio && !(deterministic s t.launch && e.kind == 0x01)

/-- Whether an entry has the key of a `wait.seq` (R382). -/
def keyMatches (s : State) (tid : Nat) (key : Word) (e : LandEntry) : Bool :=
  let k := key.toNat
  e.ctx == (thr s tid).ctx && e.kind == 0x01 && e.seq.toNat == bits k 63 32 && e.stid == bits k 17 0
    && e.pkg == (if bit k 30 then s.pkg else bits k 29 24)

/-- The place of the entry that comes first among those that `ok` admits: lowest priority number, then oldest. -/
def firstEntry (ok : LandEntry → Bool) (es : List (Nat × LandEntry)) : Option (Nat × LandEntry) :=
  es.foldl (fun b e =>
    if !ok e.2 then b
    else match b with
      | none => some e
      | some x => if e.2.prio < x.2.prio then some e else b) none

/-- The oldest entry with the key of a `wait.seq`. -/
def keyEntry (s : State) (tid : Nat) (key : Word) (es : List (Nat × LandEntry)) : Option (Nat × LandEntry) :=
  es.find? fun e => keyMatches s tid key e.2

/-- Insert in order of the cycle since which a thread is parked. -/
def insSince {α : Type} (x : Nat × Nat × α) : List (Nat × Nat × α) → List (Nat × Nat × α)
  | [] => [x]
  | y :: ys => if x.2.1 < y.2.1 then x :: y :: ys else y :: insSince x ys

/-- The parked `lnd.get` of a core, earliest first: thread, cycle and mask. -/
def parkedGets (s : State) (c : Nat) : List (Nat × Nat × Nat) :=
  s.threads.foldl (fun l p =>
    match p.2.park with
    | some (.again (.landing pm) n) => if coreOf p.1 = c && p.2.life == .run then insSince (p.1, n, pm) l else l
    | _ => l) []

/-- The parked `wait.seq` of a core, earliest first: thread, cycle and key. -/
def parkedKeys (s : State) (c : Nat) : List (Nat × Nat × Word) :=
  s.threads.foldl (fun l p =>
    match p.2.park with
    | some (.again (.seqKey k) n) => if coreOf p.1 = c && p.2.life == .run then insSince (p.1, n, k) l else l
    | _ => l) []

/-- The entries of a landing with their places, when it can serve a take in this cycle: those that stood there before it (R379). -/
def entriesOf (s : State) (c : Nat) : List (Nat × LandEntry) :=
  let k := core s c
  let now := cycOf s (cmptOfCore c)
  if now < k.takeAt then [] else ((List.range k.landing.length).zip k.landing).filter fun e => e.2.since ≤ now

/-- Remove the first entry equal to one. -/
def dropEqual (e : LandEntry) : List (Nat × LandEntry) → List (Nat × LandEntry)
  | [] => []
  | x :: xs => if x.2 = e then xs else x :: dropEqual e xs

/-- The entries that threads of a core are storing, to take them then (R380). -/
def spoken (s : State) (c tid : Nat) : List LandEntry :=
  s.threads.filterMap fun p =>
    if p.1 != tid && coreOf p.1 == c then p.2.own.bind fun o => if o.takes then o.entry else none else none

/-- Entries left for others by parked takers that are served before the thread `tid`: the parked `wait.seq` (of which one that
parked earlier goes before a `wait.seq`), and every earlier parked `lnd.get`, of which a parked `wait.seq` waits for none (R379). `mine` is
the cycle since which `tid` is parked. (log 10: DEDUCED) -/
def leftFor (s : State) (tid : Nat) (mine : Option Nat) (byKey : Bool) : List (Nat × LandEntry) :=
  let c := coreOf tid
  let later (n : Nat) : Bool := match mine with | some m => m ≤ n | none => false
  let es := (parkedKeys s c).foldl (fun es p =>
    if p.1 = tid || (byKey && later p.2.1) then es
    else match keyEntry s p.1 p.2.2 es with
      | some e => es.filter fun x => x.1 != e.1
      | none => es) ((spoken s c tid).foldl (fun es e => dropEqual e es) (entriesOf s c))
  if byKey && mine.isSome then es
  else
    (parkedGets s c).foldl (fun es p =>
      if p.1 = tid || later p.2.1 then es
      else match firstEntry (eligibleEntry s p.1 p.2.2) es with
        | some e => es.filter fun x => x.1 != e.1
        | none => es) es

/-- The cycle since which a thread is parked. -/
def parkedSince (t : Thread) : Option Nat := match t.park with | some (.again _ n) => some n | _ => none

/-- The 64 bytes stored for an entry (R380). -/
def areaBytes (e : LandEntry) : List Byte := (e.data ++ List.replicate 64 0).take 64

/-- Write a pair of registers from D; none when D is 0 (R380). -/
def writePair (s : State) (tid : Nat) (d : Reg) (v w : Word) : State :=
  if d = 0 then s else result (result s tid d v 1) tid (d + 1) w 1

/-- The destination pair (R380). -/
def pairRegs (d : Reg) : List Reg := if d = 0 then [] else [d, d + 1]

/-- Remove an entry, the only take of its cycle (R379); held records and waiting messages then enter (R186). -/
def removeEntry (s : State) (c : Nat) (e : LandEntry) : State :=
  let k := core s c
  fillLanding (setCore s c { k with landing := k.landing.erase e, takeAt := cycOf s (cmptOfCore c) + 1 }) c

/-- The entry that an instruction has stored already, or else the one that it chooses. -/
def chosenEntry (s : State) (tid : Nat) (choose : State → Option (Nat × LandEntry)) : Option LandEntry :=
  match (thr s tid).own with
  | some o => o.entry
  | none => (choose s).map (·.2)

/-- The checks on the payload area, the choice of an entry, its payload's store, and then the take (R380). -/
def takeEntry (d a : Reg) (area : Word) (choose : State → Option (Nat × LandEntry)) (take : Bool) (empty : State → Eff × State)
    (s : State) : Eff × State :=
  let tid := s.cur
  let finish (e : LandEntry) (s : State) : Eff × State :=
    let s := if take then acquireNow (removeEntry s (coreOf tid) e) tid else s
    (.done, writePair s tid d (landWords e).1 (landWords e).2)
  let give (s : State) (store : LandEntry → State → Res Nat) : Eff × State :=
    match chosenEntry s tid choose with
    | none => empty s
    | some e => (store e s).run fun _ s => finish e s
  if a = 0 then give s fun _ s => .ok 0 s
  else if area.toNat % 8 != 0 then (.fault .alignment area, s)
  else
    (ownStore s tid area 64 .store .tier).run fun ps s => give s fun e s => storeOwn s tid area ps (areaBytes e) (some e) take

/-- `lnd.get` and `lnd.peek` (R379, R380). -/
def landing (take : Bool) (d a : Reg) (nw : BitVec 1) (pm : BitVec 4) (s : State) : Host.Outcome State Fault Refusal :=
  issue { reads := [a], writes := pairRegs d, effect := take, load := !take } (fun vs s =>
    let tid := s.cur
    takeEntry d a (arg vs 0)
      (fun s => firstEntry (eligibleEntry s tid pm.toNat) (leftFor s tid (if take then parkedSince (thr s tid) else none) false)) take
      (fun s =>
        if nw = 1 && (core s (coreOf tid)).takeAt ≤ cycOf s (cmptOf tid) then (.done, writePair s tid d 0 0)
        else (.park (if take then .landing pm.toNat else .peek), s)) s) s

/-- lnd.get (R380): Take the eligible landing entry as an acquire, storing its payload. -/
def execLndGet (d a : Reg) (n : BitVec 1) (p : BitVec 4) (s : State) := landing true d a n p s
/-- lnd.peek (R380): Read the landing entry that lnd.get would take, without removing it. -/
def execLndPeek (d a : Reg) (n : BitVec 1) (p : BitVec 4) (s : State) := landing false d a n p s

/-- `lnd.cnt` (R381). -/
def execLndCnt (d : Reg) (s : State) :=
  issue { writes := [d], load := true } (fun _ s =>
    let k := core s (coreOf s.cur)
    let mine (e : LandEntry) := e.ctx == (thr s s.cur).ctx
    let n (p : Nat) := (k.landing.filter fun e => e.prio == p && mine e).length
    (.done, result s s.cur d
      (natWord (min (k.heldRecs.filter mine).length 255 * 2 ^ 32 + n 3 * 2 ^ 24 + n 2 * 2 ^ 16 + n 1 * 2 ^ 8 + n 0)) 1)) s

/-- The first cycle in which a core's landing serves a take of what stands there (R379). -/
def landingAt (k : Core) : Nat := k.landing.foldl (fun n e => max n e.since) k.takeAt

/-- Whether the key of `wait.seq` holds no reserved bit (R382). -/
def keyOk (k : Nat) : Bool := !bit k 31 && bits k 23 18 == 0 && (!bit k 30 || bits k 29 24 == 0)

/-- `wait.seq` (R382). -/
def execWaitSeq (d a b : Reg) (s : State) :=
  issue { reads := [a, b], writes := pairRegs d, effect := true } (fun vs s =>
    let tid := s.cur
    let key := arg vs 1
    if !keyOk key.toNat then (.fault .malformedStructure 0, s)
    else
      takeEntry d a (arg vs 0) (fun s => keyEntry s tid key (leftFor s tid (parkedSince (thr s tid)) true)) true
        (fun s => (.park (.seqKey key), s)) s) s

end Sys2Proof.Machine
end

