-- ==== Sys2Proof/Machine/Life.lean ====
section
/-! DEFINITION. Major 0x22: moving, spawning, yielding and ending threads (R71, R148, R383-R386). -/

namespace Sys2Proof.Machine

/-- Whether a migration packet may depart (R71): nothing of the thread is outstanding, what it sent has been delivered and the
acknowledgements are there, and its older window has been spilled. -/
def departReady (s : State) (tid : Nat) : Bool :=
  let t := thr s tid
  (accsOf s tid).isEmpty && t.pend.isEmpty && !t.olive
    && !(s.packets.any fun p => p.2.sender == some (tid, t.serial) && (p.2.cls == .dispatch || p.2.body == .ack))
    && !((core s (coreOf tid)).sendQ.any fun e => e.tid == some tid && e.serial == t.serial)

/-- `mig` (R383): the thread waits until its packet can depart. -/
def execMig (d a : Reg) (s : State) :=
  issue { reads := [a], writes := [d] } (fun vs s =>
    let tid := s.cur
    let t := thr s tid
    let l := (arg vs 0).toNat
    if 2 ^ 14 ≤ l then (.fault .malformedStructure 0, s)
    else match physCore s tid l with
      | none => (.fault .partition 0, s)
      | some c =>
        if c = coreOf tid || stays s tid then (.done, result s tid d 0 1)
        else match t.spillFault with
          | some (k, va) => (.fault k va, setThr s tid { t with spillFault := none })
          | none =>
            if !departReady s tid then (.park .release, s)
            else
              let t := setX { t with pc := nextPc s 4, life := .moving, goal := some c, park := none } d.toNat 1
              (.moved, setThr (scale s (cmptOf tid) 0x06 1) tid t)) s

/-- The task record at an address, with the checks of R384. -/
def taskRecord (s : State) (tid : Nat) (va : Word) : Res (List Word) :=
  if va.toNat % 64 != 0 then .stop (.fault .alignment va) s
  else
    (ownWords s tid va 8 .tier).bind fun ws s =>
      if 2 ^ 16 ≤ (arg ws 0).toNat || (arg ws 0).toNat % 2 != 0 then .stop (.fault .malformedStructure 0) s else .ok ws s

/-- Push a record at the top of the core's deck (R148). It stands there from the next cycle on, in which the deck can serve again. -/
def pushDeck (s : State) (tid : Nat) (ws : List Word) : State :=
  let c := coreOf tid
  let k := core s c
  let t := thr s tid
  let next := cycOf s (cmptOf tid) + 1
  setCore s c { k with deck := k.deck ++ [⟨ws, t.ctx, t.launch, next⟩], deckAt := next }

/-- `spawn` (R384). -/
def execSpawn (d a : Reg) (s : State) :=
  issue { reads := [a], writes := [d], effect := true } (fun vs s =>
    let tid := s.cur
    (taskRecord s tid (arg vs 0)).run fun ws s =>
      if releaseHeld s tid then (.park .order, s)
      else if (core s (coreOf tid)).deck.length < 64 then (.done, result (pushDeck s tid ws) tid d 1 1)
      else (.done, result s tid d 0 1)) s

/-- Whether nothing of an ending thread is outstanding (R386). -/
def quiet (s : State) (tid : Nat) : Bool :=
  (unretired s tid).isEmpty && (thr s tid).pend.isEmpty && (accsOf s tid).isEmpty

/-- The second try of a pair's task has succeeded: the mismatch was a transient error (R227). -/
def retrySucceeded (s : State) (tid : Nat) : State :=
  if (thr s tid).start.retried then logErr s 0x05 false false 0 (64 * cmptOf tid) (coreOf tid) (tid % 262144) else s

/-- The end of a thread (R386): held mill instructions are cancelled, and the slot is freed when nothing is outstanding. The
halves of a pair end together. -/
def endWork (s : State) (tid : Nat) : Eff × State :=
  let s := cancelHeld s tid
  let t := thr s tid
  if !t.lt then if quiet s tid then (.moved, freeSlot s tid) else (.park .endWork, s)
  else
    let o := partner t tid
    if ending (thr s o) && quiet s tid && quiet s o then (.moved, freeSlot (freeSlot (retrySucceeded s tid) tid) o)
    else (.park .endWork, s)

/-- Whether a slot from 1 to 15 of a core is free. -/
def slotFree (s : State) (c : Nat) : Bool := (List.range 15).any fun i => (thr s (c * 16 + i + 1)).life == .free

/-- The running launch of a core's partition whose roles the core's tile holds (R151, R213): the one that started last. (log 24: DEDUCED) -/
def stageLaunch (s : State) (c : Nat) : Option Nat :=
  match (cmpt s (cmptOfCore c)).part with
  | none => none
  | some p => ((s.launches.filter fun l => l.2.running && l.2.part == p).getLast?).map (·.1)

/-- The role-table entry of a core (R151). -/
def roleOf (s : State) (c : Nat) : Nat := (lookD (tile s (tileOfCore c)).roles (c % 8) 0).toNat

/-- Whether an entry is that of a stage core. -/
def isStage (e : Nat) : Bool := bits e 63 60 == 4

/-- Threads of a core started at entry that have not yet popped ch0 (R391). -/
def freshThreads (s : State) (c : Nat) : Nat :=
  ((List.range 16).filter fun i => (thr s (c * 16 + i)).life != .free && (thr s (c * 16 + i)).fresh0).length

/-- Whether an element of a core's stage input has no thread started for it (R391). -/
def inputWaits (s : State) (c : Nat) : Bool :=
  isStage (roleOf s c) && (stageLaunch s c).isSome && freshThreads s c < (lookD (core s c).chq 0 []).length

/-- Whether a start waits that a yield makes room for (R385). -/
def startWaits (s : State) (c : Nat) : Bool :=
  let k := core s c
  !k.intake.isEmpty || !k.pairQ.isEmpty || k.prepared.isSome || inputWaits s c

/-- `yield` (R385). -/
def execYield (d a : Reg) (s : State) :=
  issue { reads := [a], writes := [d], effect := true } (fun vs s =>
    let tid := s.cur
    let c := coreOf tid
    if ending (thr s tid) then endWork s tid
    else
      (taskRecord s tid (arg vs 0)).run fun ws s =>
        let k := core s c
        if slotOf tid != 0 && !slotFree s c && startWaits s c && k.deck.length < 64 then
          if releaseHeld s tid then (.park .order, s)
          else
            let t := thr s tid
            let s := setThr (pushDeck s tid ws) tid { t with qb := 0 }
            if t.lt then
              let o := partner t tid
              (.park .endWork, setThr s o { thr s o with park := some (.again .endWork (cycOf s (cmptOf tid))) })
            else endWork s tid
        else (.done, result s tid d 0 1)) s

/-- `end` (R386). -/
def execEndThread (s : State) :=
  issue {} (fun _ s =>
    let s := setThr s s.cur { thr s s.cur with qb := 0 }
    endWork s s.cur) s

end Sys2Proof.Machine
end

