-- ==== Sys2Proof/Machine/Crews.lean ====
section
/-! DEFINITION. Major 0x23: crews and barriers (R154-R158, R387-R389). Each operation is applied to the context's crew table
in the step in which it issues (log 20: DESIGN CHOICE). -/

namespace Sys2Proof.Machine

/-- The context of the thread that issues. -/
def ownCtx (s : State) : Ctx := ctx s (thr s s.cur).ctx

/-- Put a crew into the first free membership entry (R256, log 20: DESIGN CHOICE). -/
def addEntry : List (Option Nat) → Nat → List (Option Nat)
  | [], _ => []
  | none :: es, c => some c :: es
  | some d :: es, c => some d :: addEntry es c

/-- Clear the entries of a crew. -/
def dropEntry (es : List (Option Nat)) (c : Nat) : List (Option Nat) := es.map fun e => if e == some c then none else e

/-- Whether every membership entry is used (R154). -/
def crewsFull (t : Thread) : Bool := t.crew.all Option.isSome

/-- A crew operation on the crew that x[A] names; `f` gives the fault, or the context and thread afterwards (R387). -/
def crewOp (a : Reg) (f : Ctx → Thread → Nat → Nat → Except Cause (Ctx × Thread)) (s : State) :
    Host.Outcome State Fault Refusal :=
  issue { reads := [a], effect := true } (fun vs s =>
    let tid := s.cur
    let t := thr s tid
    let c := (arg vs 0).toNat
    if 2 ^ 15 ≤ c then (.fault .malformedStructure 0, s)
    else match f (ownCtx s) t c tid with
      | .error k => (.fault k 0, s)
      | .ok (x, t') => (.done, setThr (setCtx s t.ctx x) tid t')) s

/-- crew.new (R387): Create a crew with the issuer as its only member. -/
def execCrewNew (a : Reg) (s : State) :=
  crewOp a (fun x t c tid =>
    if (look x.crews c).isSome then .error .crewBusy
    else if crewsFull t then .error .crewLimit
    else .ok ({ x with crews := put x.crews c ⟨[tid]⟩ }, { t with crew := addEntry t.crew c })) s

/-- crew.join (R387): Join a crew. -/
def execCrewJoin (a : Reg) (s : State) :=
  crewOp a (fun x t c tid =>
    match look x.crews c with
    | none => .error .crewMembership
    | some k =>
      if k.members.contains tid then .ok (x, t)
      else if crewsFull t then .error .crewLimit
      else .ok ({ x with crews := put x.crews c ⟨k.members ++ [tid]⟩ }, { t with crew := addEntry t.crew c })) s

/-- crew.leave (R387): Leave a crew. -/
def execCrewLeave (a : Reg) (s : State) :=
  crewOp a (fun x t c tid =>
    if !isMember x c tid then .error .crewMembership
    else .ok (dropMember x c tid, { t with crew := dropEntry t.crew c })) s

/-- crew.del (R387): Delete a crew and its barriers. -/
def execCrewDel (a : Reg) (s : State) :=
  crewOp a (fun x t c tid =>
    match look x.crews c with
    | none => .error .crewMembership
    | some k =>
      if !k.members.contains tid then .error .crewMembership
      else if k.members.any fun m => m != tid then .error .crewBusy
      else
        .ok ({ x with crews := del x.crews c, bars := x.bars.filter fun p => p.2.crew != c },
          { t with crew := dropEntry t.crew c })) s

/-- The barrier a handle names, for a member of its crew (R388, R389). -/
def barrierAt (x : Ctx) (tid h : Nat) : Option Barrier :=
  match look x.bars (bits h 15 0) with
  | some b => if b.crew == bits h 30 16 && isMember x b.crew tid then some b else none
  | none => none

/-- Write a barrier. -/
def setBar (x : Ctx) (h : Nat) (b : Barrier) : Ctx := { x with bars := put x.bars (bits h 15 0) b }

/-- `bar.init` (R388). -/
def execBarInit (a b : Reg) (s : State) :=
  issue { reads := [a, b], effect := true } (fun vs s =>
    let tid := s.cur
    let n := (thr s tid).ctx
    let x := ctx s n
    let h := (arg vs 0).toNat
    let p := (arg vs 1).toNat
    if 2 ^ 31 ≤ h || 2 ^ 19 ≤ p || bits p 18 16 == 7 || bits p 15 0 == 0 then (.fault .malformedStructure 0, s)
    else if !isMember x (bits h 30 16) tid then (.fault .crewMembership 0, s)
    else if (look x.bars (bits h 15 0)).isSome then (.fault .crewBusy 0, s)
    else (.done, setCtx s n (setBar x h { crew := bits h 30 16, scope := bits p 18 16, e := bits p 15 0 }))) s

/-- `bar.arrive` and `bar.drop`: a release, then the arrival (R125, R156, R389). -/
def arrival (drop : Bool) (d a : Reg) (s : State) : Host.Outcome State Fault Refusal :=
  issue { reads := [a], writes := [d], effect := true } (fun vs s =>
    let tid := s.cur
    let n := (thr s tid).ctx
    let x := ctx s n
    let h := (arg vs 0).toNat
    match barrierAt x tid h with
    | none => (.fault .crewMembership 0, s)
    | some b =>
      if 2 ^ 31 ≤ h then (.fault .malformedStructure 0, s)
      else if releaseHeld s tid then (.park .order, s)
      else match arrive b drop with
        | none => (.fault .overArrival 0, s)
        | some (b', q) => (.done, result (setCtx s n (setBar x h b')) tid d (q.setWidth 64) 1)) s

/-- bar.arrive (R389): Arrive at a barrier as a release and return the phase. -/
def execBarArrive (d a : Reg) (s : State) := arrival false d a s
/-- bar.drop (R389): Arrive and lower the expected count of later phases. -/
def execBarDrop (d a : Reg) (s : State) := arrival true d a s

/-- `bar.wait` (R158, R389). -/
def execBarWait (a b : Reg) (s : State) :=
  issue { reads := [a, b] } (fun vs s =>
    let tid := s.cur
    let h := (arg vs 0).toNat
    let q : BitVec 32 := (arg vs 1).setWidth 32
    if 2 ^ 32 ≤ (arg vs 1).toNat then (.fault .malformedStructure 0, s)
    else match barrierAt (ownCtx s) tid h with
      | none => (.fault .crewMembership 0, s)
      | some k =>
        if 2 ^ 31 ≤ h then (.fault .malformedStructure 0, s)
        else if phaseDone k q then (.done, acquireNow s tid)
        else if q == k.p || q == k.p + 1 then (.park .barrier, s)
        else (.fault .barrierPhase 0, s)) s

end Sys2Proof.Machine
end

