-- ==== Sys2Proof/Machine/Stage.lean ====
section
/-! DEFINITION. Major 0x24: tile semaphores, stage channels and the role table (R151, R152, R390-R392). -/

namespace Sys2Proof.Machine

/-- `sem.post` (R390): a release, then the count rises. -/
def execSemPost (d a b : Reg) (s : State) :=
  issue { reads := [a, b], writes := [d], effect := true } (fun vs s =>
    let tid := s.cur
    let m := (arg vs 0).toNat
    let n := (arg vs 1).toNat
    if 16 ≤ m || 2 ^ 16 ≤ n then (.fault .malformedStructure 0, s)
    else if releaseHeld s tid then (.park .release, s)
    else
      let x := tile s (tileOf tid)
      let old := lookD x.sems m 0
      (.done, result (setTile s (tileOf tid) { x with sems := put x.sems m (min (old + n) 65535) }) tid d (natWord old) 1)) s

/-- Parked waiters of a tile's semaphore that are served before a thread parked since `mine`, or before a new one (R390).
Within a cycle the order is that of (k - c) mod 8. -/
def waitersBefore (s : State) (tid m : Nat) (mine : Option Nat) : Nat :=
  let rank (t n : Nat) : Nat := n * 8 + (coreOf t % 8 + 8 - n % 8) % 8
  (s.threads.filter fun p =>
    p.1 != tid && tileOf p.1 == tileOf tid && p.2.life == .run &&
      match p.2.park with
      | some (.again (.sem m') n) => m' == m && (match mine with | some k => rank p.1 n < rank tid k | none => true)
      | _ => false).length

/-- `sem.wait` (R390). -/
def execSemWait (d a : Reg) (s : State) :=
  issue { reads := [a], writes := [d], effect := true } (fun vs s =>
    let tid := s.cur
    let m := (arg vs 0).toNat
    if 16 ≤ m then (.fault .malformedStructure 0, s)
    else
      let x := tile s (tileOf tid)
      let n := lookD x.sems m 0
      if n ≤ waitersBefore s tid m (parkedSince (thr s tid)) then (.park (.sem m), s)
      else
        let s := setTile s (tileOf tid) { x with sems := put x.sems m (n - 1) }
        (.done, result (acquireNow s tid) tid d (natWord (n - 1)) 1)) s

/-- A channel with one more element. -/
def putElt (c : Core) (k : Nat) (e : ChanElt) : Core := { c with chq := put c.chq k (lookD c.chq k [] ++ [e]) }

/-- `chan.put` (R391): a release, then the element enters. -/
def execChanPut (a : Reg) (k : BitVec 5) (s : State) :=
  issue { reads := [a], effect := true } (fun vs s =>
    let tid := s.cur
    let c := core s (coreOf tid)
    let q := lookD c.chq k.toNat []
    if 16 ≤ q.length then (.park .chan, s)
    else if releaseHeld s tid then (.park .order, s)
    else (.done, setCore s (coreOf tid) (putElt c k.toNat ⟨arg vs 0, (thr s tid).ctx, cycOf s (cmptOf tid) + 1⟩))) s

/-- The oldest element of a channel, from the cycle on in which it stands there (R391), and the rest. -/
def oldestElt (c : Core) (k now : Nat) : Option (ChanElt × List ChanElt) :=
  match lookD c.chq k [] with
  | [] => none
  | v :: q => if v.since ≤ now then some (v, q) else none

/-- `chan.get` (R391): the oldest element, as an acquire. -/
def execChanGet (d : Reg) (k : BitVec 5) (s : State) :=
  issue { writes := [d], effect := true } (fun _ s =>
    let tid := s.cur
    let c := core s (coreOf tid)
    match oldestElt c k.toNat (cycOf s (cmptOf tid)) with
    | none => (.park .chan, s)
    | some (v, q) =>
      let dry := if q.isEmpty && k = 0 then cycOf s (cmptOf tid) else c.dryFrom
      let s := setCore s (coreOf tid)
        { c with chq := put c.chq k.toNat q, dryFrom := dry }
      let t := thr s tid
      let s := if k = 0 then setThr s tid { t with fresh0 := false } else s
      (.done, result (acquireNow s tid) tid d v.val 1)) s

/-- Whether a role-table entry holds no reserved bit or value (R151). -/
def roleOk (v : Nat) : Bool := bits v 63 60 ≤ 4 && bits v 54 48 == 0 && bits v 31 16 == 0 && v % 2 == 0

/-- `recast` (R392). -/
def execRecast (d a b : Reg) (s : State) :=
  issue { prv := .s, reads := [a, b], writes := [d], effect := true } (fun vs s =>
    let tid := s.cur
    let n := (arg vs 0).toNat
    if 8 ≤ n || !roleOk (arg vs 1).toNat then (.fault .malformedStructure 0, s)
    else
      let x := tile s (tileOf tid)
      let old := lookD x.roles n 0
      (.done, result (setTile s (tileOf tid) { x with roles := put x.roles n (arg vs 1) }) tid d old 1)) s

end Sys2Proof.Machine
end

