-- ==== Sys2Proof/Machine/Yarder.lean ====
section
/-! DEFINITION. Yarder jobs, copy channels and the footprint scheduler: major 0x28 and the steps of a job
(R84-R108, R122, R134, R402-R405). -/

namespace Sys2Proof.Machine

/-! ## The job card (R87-R91) -/

/-- Word i of a card. -/
def cw (ws : List Word) (i : Nat) : Nat := (ws.getD i 0).toNat

/-- A job card (R88, R89). -/
structure Card where
  op : Nat
  chan : Nat
  wmk : Bool
  bar : Bool
  clip : Bool
  cfill : Bool
  mfo : Bool
  nrec : Bool
  cow : Bool
  /-- Unit of region lengths in bytes. -/
  unit : Nat
  /-- Element size in bytes. -/
  w : Nat
  prio : Nat
  nrd : Nat
  nwr : Nat
  tag : Nat
  barh : Nat
  src : Nat
  dst : Nat
  e0 : Nat
  e1 : Nat
  e2 : Nat
  s1 : Int
  s2 : Int
  d1 : Int
  d2 : Int
  o0 : Int
  o1 : Int
  o2 : Int
  b0 : Nat
  b1 : Nat
  b2 : Nat
  aux : Nat
  fill : Nat

/-- The fields of a card's words (R88, R89). -/
def cardOf (ws : List Word) : Card :=
  let h := cw ws 0
  let half (i k : Nat) : Nat := bits (cw ws i) (16 * k + 15) (16 * k)
  { op := bits h 63 60, chan := bits h 59 56, wmk := bit h 55, bar := bit h 54, clip := bit h 53, cfill := bit h 52
    mfo := bit h 51, nrec := bit h 50, cow := bit h 49, unit := if bit h 48 then 65536 else 64, w := 2 ^ bits h 47 46
    prio := bits h 45 44, nrd := bits h 43 41, nwr := bits h 40 38, tag := bits h 31 0, barh := cw ws 1
    src := bits (cw ws 2) 51 0, dst := bits (cw ws 3) 51 0, e0 := half 4 0, e1 := half 4 1, e2 := half 4 2
    s1 := signedOf (cw ws 5) 32, s2 := signedOf (bits (cw ws 5) 63 32) 32
    d1 := signedOf (cw ws 6) 32, d2 := signedOf (bits (cw ws 6) 63 32) 32
    o0 := signedOf (half 7 0) 16, o1 := signedOf (half 7 1) 16, o2 := signedOf (half 7 2) 16
    b0 := half 8 0, b1 := half 8 1, b2 := half 8 2, aux := bits (cw ws 9) 51 0, fill := cw ws 10 }

/-- The elements of the box. -/
def Card.count (c : Card) : Nat := c.e0 * c.e1 * c.e2

/-- Whether the op reads an index list (R94). -/
def Card.indexed (c : Card) : Bool := c.op == 1 || c.op == 2

/-- The byte range of a region word: first address and one past the last (R90). -/
def regionOf (unit w : Nat) : Nat × Nat := (bits w 45 0 * 64, bits w 45 0 * 64 + bits w 63 46 * unit)

/-- The read regions of a card (R90). -/
def Card.reads (c : Card) (ws : List Word) : List (Nat × Nat) := (List.range c.nrd).map fun i => regionOf c.unit (cw ws (16 + i))

/-- The write regions of a card (R90). -/
def Card.writes (c : Card) (ws : List Word) : List (Nat × Nat) := (List.range c.nwr).map fun i => regionOf c.unit (cw ws (20 + i))

/-- Whether two byte ranges share a byte. -/
def meets (x y : Nat × Nat) : Bool := max x.1 y.1 < min x.2 y.2

/-- A follow-on command read from `minst` and words 12-15 (R91): the multiplies of major 0x1C and the accumulator
instructions of major 0x1D with WAIT = 0, their A and B fields ignored; av1 and bv1 must be 0 where the instruction names no
register pair (R367). -/
def followOf (t : Thread) (tid : Nat) (ws : List Word) : Option MillOp :=
  let m := cw ws 11
  let f3 := bits m 9 7
  let f4 := bits m 31 28
  let d := bits m 14 10
  let o : MillOp :=
    { kind := .mma, tid := tid, ctx := t.ctx, launch := t.launch, seq := 0, acc := d, opt := f4, a0 := arg ws 12
      a1 := arg ws 13, b0 := arg ws 14, b1 := arg ws 15, rm := t.rm, prv := t.prv, serial := t.serial }
  let block (k : MillKind) : MillOp := { o with kind := k }
  if (bits m 6 0 = 0x3B && (cw ws 13 != 0 || cw ws 15 != 0)) then none
  else if bits m 27 25 != 0 || 2 ^ 32 ≤ m then none
  else if bits m 6 0 = 0x39 then
    if f3 = 0 && f4 < 6 && d < 16 then some o
    else if f3 = 1 && f4 < 6 && d < 16 then some { o with kind := .mmas }
    else if f3 = 2 && f4 < 4 && d < 16 then some { o with kind := .mmcb }
    else if f3 = 3 && f4 < 4 && d < 16 then some { o with kind := .mmr }
    else none
  else if bits m 6 0 = 0x3B then
    if f3 = 0 && f4 < 2 && d < 16 then some (block .mld)
    else if f3 = 1 && f4 < 2 && d < 16 then some (block .mst)
    else if f3 = 2 && d + f4 < 16 then some { block .mzero with a0 := 0, b0 := 0 }
    else if f3 = 3 && d + f4 < 16 then some { block .manc with b0 := 0 }
    else if f3 = 4 && d + f4 < 16 then some { block .mscl with b0 := 0 }
    else if f3 = 5 && f4 = 0 && d < 8 then some { block .mcbt with b0 := 0 }
    else if f3 = 6 && f4 < 6 && d < 16 then some (block .mfin)
    else none
  else none

/-! ## The checks at issue (R92) -/

/-- The first two rows of R92: reserved bits and values, and how the regions lie. -/
def cardOk (kind : Nat) (ws : List Word) (follow : Bool) : Bool :=
  let c := cardOf ws
  let h := cw ws 0
  let rd := c.reads ws
  let wr := c.writes ws
  let usesAux := c.indexed || c.cow
  let zero (i : Nat) : Bool := cw ws i == 0
  c.op == kind && bits h 37 32 == 0 && c.nrd ≤ 4 && 1 ≤ c.nwr && c.nwr ≤ 4
    && c.barh < 2 ^ 31 && (c.bar || c.barh == 0)
    && [2, 3, 9].all (fun i => cw ws i < 2 ^ 52) && [4, 7, 8].all (fun i => cw ws i < 2 ^ 48)
    && (List.range 4).all (fun i => (i < c.nrd || zero (16 + i)) && (i < c.nwr || zero (20 + i)))
    && (rd ++ wr).all (fun r => r.1 < r.2) && (usesAux || c.aux == 0) && (!c.cow || c.op == 0)
    && (if c.mfo then follow else [11, 12, 13, 14, 15].all zero)
    && !(rd.any fun x => wr.any fun y => meets x y)
    && (!usesAux || rd.any fun r => r.1 ≤ c.aux && c.aux < r.2)
    && (!c.cow || rd.any fun r => r.1 ≤ c.aux && c.aux + 64 ≤ r.2)

/-- A copy channel of a core. -/
def chanOf (s : State) (c n : Nat) : CopyChan := lookD (core s c).chans n {}

/-- Write a copy channel. -/
def setChan (s : State) (c n : Nat) (v : CopyChan) : State :=
  let k := core s c
  setCore s c { k with chans := put k.chans n v }

/-- A channel with base = limit is off (R104). -/
def CopyChan.active (ch : CopyChan) : Bool := ch.base != ch.limit

/-- Whether a watermark job's destination is contiguous and inside its channel (R92). -/
def markOk (c : Card) (ch : CopyChan) : Bool :=
  c.d1 == (c.e0 * c.w : Nat) && (c.e2 ≤ 1 || c.d2 == c.e1 * c.d1) && c.op != 2 && ch.active
    && ch.base ≤ c.dst && c.dst + c.count * c.w ≤ ch.limit

/-- Whether some bytes of untranslated code's memory lie in the private store of another core's ranger (R21). -/
def reachesPrivate (c lo hi : Nat) : Bool :=
  ((List.range ((hi - lo) / 0x8000 + 1)).map (lo + 0x8000 * ·) ++ [hi - 1]).any fun a => (rangerOf a).any fun r => c != 16384 + r

/-- The pages of the bytes from `va` to `hi`, each translated now (R55): `rd` and `w` say what every leaf must grant.
`fuel` bounds the number of pages. -/
def capture (s : State) (tid : Nat) (rd w : Bool) (hi : Nat) : Nat → Nat → Except Chk (List Page) × State
  | 0, _ => (.ok [], s)
  | fuel + 1, va =>
    if hi ≤ va then (.ok [], s)
    else
      let t := thr s tid
      let rest (s : State) (p : Page) : Except Chk (List Page) × State :=
        match capture s tid rd w hi fuel (p.va + p.size) with
        | (.error e, s) => (.error e, s)
        | (.ok ps, s) => (.ok (p :: ps), s)
      if 2 ^ 52 ≤ va then (.error (.fault .addressForm va), s)
      else if t.prv == .f then
        let lo := va / 65536 * 65536
        if placeOf va == .hole || reachesPrivate (coreOf tid) va (min hi (lo + 65536)) then (.error (.fault .physicalRange va), s)
        else rest s ⟨lo, 65536, s.pkg, lo, none⟩
      else
        match leafNow s (asker s tid) va with
        | (.error c, s) => (.error c, s)
        | (.ok l, s) =>
          if (t.prv == .u && l.s) || (rd && !l.rd) || (w && !l.w) then (.error (.fault .permission va), s)
          else rest s ⟨l.va, l.size, l.pkg, l.pa, some l.gen⟩

/-- The pages of several regions: each with its range and whether its leaves must grant rd and w. -/
def captureAll (s : State) (tid : Nat) : List ((Nat × Nat) × Bool × Bool) → Except Chk (List Page) × State
  | [] => (.ok [], s)
  | (r, rd, w) :: rest =>
    match capture s tid rd w r.2 ((r.2 - r.1) / 65536 + 2) r.1 with
    | (.error e, s) => (.error e, s)
    | (.ok ps, s) =>
      match captureAll s tid rest with
      | (.error e, s) => (.error e, s)
      | (.ok qs, s) => (.ok (ps ++ qs), s)

/-- How a failed capture ends the instruction: a walk in progress is waited for (R48). -/
def Chk.ends : Chk → Eff
  | .fault c a => .fault c (natWord a)
  | .walk _ => .park .walk

/-- The page of an address among captured ones. -/
def pageOf (ps : List Page) (va : Nat) : Option Page := ps.find? fun p => p.va ≤ va && va < p.va + p.size

/-- Where an address of a captured page lies. -/
def Page.at (p : Page) (va : Nat) : Nat := p.pa + (va - p.va)

/-- The pages of a region. -/
def pagesIn (ps : List Page) (r : Nat × Nat) : List Page := ps.filter fun p => p.va < r.2 && r.1 < p.va + p.size

/-- Whether a region has a page in a tier. -/
def inTier (ps : List Page) (t : Tier) (r : Nat × Nat) : Bool := (pagesIn ps r).any fun p => tierOf (placeOf p.pa) == some t

/-- The row of R92 on tiers. -/
def tiersOk (c : Card) (ps : List Page) (rd wr : List (Nat × Nat)) : Bool :=
  let ft (rs : List (Nat × Nat)) : Bool := match rs with | r :: _ => inTier ps .ft r | [] => false
  (if c.op = 4 then ft rd != ft wr else !(rd ++ wr).any (inTier ps .ft))
    && (!c.cow || !inTier ps .host (c.aux, c.aux + 64))

/-- The first region that reaches a window or store of a compartment outside the partition (R38, R92); no core's part of any
window is shorter than 0x2000. -/
def outside (s : State) (partn : Nat) (ps : List Page) (rs : List (Nat × Nat)) : Option Nat :=
  (rs.find? fun r => (pagesIn ps r).any fun p =>
    p.pkg == s.pkg && (let lo := p.at (max r.1 p.va); let hi := p.at (min r.2 (p.va + p.size)) - 1
      let n := if (unitCore (placeOf lo)).isSome then (hi - lo) / 0x2000 else 0
      ((List.range (n + 1)).map (lo + 0x2000 * ·) ++ [hi]).any fun a =>
        match unitCore (placeOf a) with | some c => !inPart s partn c | none => false)).map (·.1)

/-- The barrier a card counts in, and the phase of the thread's next arrival (R92, R106). -/
def cardPhase (s : State) (tid : Nat) (c : Card) : Except Cause (Option (Nat × BitVec 32)) :=
  if !c.bar then .ok none
  else match barrierAt (ctx s (thr s tid).ctx) tid c.barh with
    | none => .error .crewMembership
    | some b => match nextPhase b with
      | none => .error .barrierPhase
      | some 0 => .ok (some (c.barh, b.p))
      | some _ => .ok (some (c.barh, b.p + 1))

/-- Whether an address lies in a register, mill or instruction-store window. -/
def auxWindow (ps : List Page) (va : Nat) : Bool := (pageOf ps va).any fun p => isWindow (placeOf (p.at va))

/-- R92 in order: the captured pages and the counted phase. -/
def cardChecks (s : State) (tid kind : Nat) (ws : List Word) (follow : Option MillOp) :
    Res (List Page × Option (Nat × BitVec 32)) :=
  let c := cardOf ws
  let t := thr s tid
  let ch := chanOf s (coreOf tid) c.chan
  let rd := c.reads ws
  let wr := c.writes ws
  let va (n : Nat) : Word := natWord n
  if !cardOk kind ws follow.isSome then .stop (.fault .malformedStructure 0) s
  else if c.wmk && ch.active && ch.ctx != t.ctx then .stop (.fault .partition 0) s
  else if (c.wmk && !markOk c ch) || (c.indexed && (c.e2 != 1 || c.o0 != 0 || c.o1 != 0 || c.o2 != 0)) then
    .stop (.fault .malformedStructure 0) s
  else
    match captureAll s tid (rd.map (fun r => (r, true, false)) ++ wr.map (fun r => (r, false, true))
        ++ (if c.cow then [((c.aux, c.aux + 64), true, true)] else [])) with
    | (.error e, s) => .stop e.ends s
    | (.ok ps, s) =>
      if !tiersOk c ps rd wr then .stop (.fault .tier 0) s
      else if c.cow && auxWindow ps c.aux then .stop (.fault .windowAccess (va c.aux)) s
      else match if t.prv == .f then none else outside s (ctx s t.ctx).part ps (rd ++ wr) with
        | some a => .stop (.fault .partition (va a)) s
        | none => match cardPhase s tid c with
          | .error k => .stop (.fault k 0) s
          | .ok q => .ok (ps, q) s

/-! ## Issue (R93, R97, R402) -/

/-- The jobs of a core in flight (R93). -/
def jobCount (s : State) (c : Nat) : Nat := (s.jobs.filter fun p => p.2.core == c).length

/-- Enter a job with its regions; its pending copy is counted (R97, R106). -/
def enterJob (s : State) (tid : Nat) (j : Job) (rd wr : List (Nat × Nat)) : State :=
  let (n, s) := newId s
  let c := cmptOf tid
  let k := cmpt s c
  let e : Entry :=
    { id := n, ctx := j.ctx, tid := tid, core := coreOf tid, cycle := k.cyc, reads := rd, writes := wr, job := some n }
  let s := setCmpt { s with jobs := put s.jobs n j } c { k with arrivals := k.arrivals ++ [e] }
  match j.phase with
  | none => s
  | some (h, q) =>
    let x := ctx s j.ctx
    match look x.bars (bits h 15 0) with
    | some b => setCtx s j.ctx (setBar x h (countCopy b q true))
    | none => s

/-- The count of R93 and the scheduler's room for the job and its follow-on (R93, R100): the thread parks, or the job enters and
the count is its result. -/
def admitJob (s : State) (tid : Nat) (d : Reg) (j : Job) (rd wr : List (Nat × Nat)) : Eff × State :=
  let n := if j.follow.isSome then 2 else 1
  if 1024 ≤ jobCount s (coreOf tid) || 4096 < schedCount s (cmptOf tid) + n then (.park .jobs, s)
  else
    let s := enterJob s tid j rd wr
    (.done, result s tid d (natWord (jobCount s (coreOf tid))) 1)

/-- A job instruction of a kind (R84, R92, R402). -/
def yarder (kind : Nat) (d a : Reg) (s : State) : Host.Outcome State Fault Refusal :=
  issue { reads := [a], writes := [d], effect := true } (fun vs s =>
    let tid := s.cur
    let va := arg vs 0
    if va.toNat % 64 != 0 then (.fault .malformedStructure 0, s)
    else
      (ownWords s tid va 24 .malformedStructure).run fun ws s =>
        let t := thr s tid
        let c := cardOf ws
        let f := if c.mfo then followOf t tid ws else none
        (cardChecks s tid kind ws f).run fun r s =>
          match f.bind (millChecks s tid) with
          | some e => (e, s)
          | none =>
            let j : Job :=
              { mark := false, ctx := t.ctx, launch := t.launch, tid := tid, stid := logicalTid s tid, core := coreOf tid
                card := ws, pages := r.1, address := va.toNat, follow := f, before := s.ids, prv := t.prv, phase := r.2
                serial := t.serial }
            admitJob s tid d j (c.reads ws) (c.writes ws)) s

/-- yrd.copy (R402): Issue a COPY yarder job. -/
def execYrdCopy (d a : Reg) (s : State) := yarder 0 d a s
/-- yrd.gath (R402): Issue a gather job. -/
def execYrdGath (d a : Reg) (s : State) := yarder 1 d a s
/-- yrd.scat (R402): Issue a scatter job. -/
def execYrdScat (d a : Reg) (s : State) := yarder 2 d a s
/-- yrd.fill (R402): Issue a fill job. -/
def execYrdFill (d a : Reg) (s : State) := yarder 3 d a s
/-- yrd.far (R402): Issue a far-tier job. -/
def execYrdFar (d a : Reg) (s : State) := yarder 4 d a s

/-! ## Channels (R104, R105, R403-R405) -/

/-- The jobs of a core that advance a channel. -/
def jobsOn (s : State) (c n : Nat) : List (Nat × Job) :=
  s.jobs.filter fun p => p.2.core == c && !p.2.mark && (cardOf p.2.card).wmk && (cardOf p.2.card).chan == n

/-- What the threads of a core have read ahead is read again, since a pop above the new watermark waits for it (R105, R321). -/
def rereadCore (s : State) (c : Nat) : State :=
  { s with threads := s.threads.map fun p => if coreOf p.1 = c then (p.1, discardAhead p.2) else p }

/-- `yrd.chan` (R403). -/
def execYrdChan (d a b : Reg) (s : State) :=
  issue { reads := [a, b], writes := [d], effect := true } (fun vs s =>
    let tid := s.cur
    let v := (arg vs 0).toNat
    let limit := (arg vs 1).toNat
    let n := bits v 63 60
    let base := bits v 51 0
    let ch := chanOf s (coreOf tid) n
    if bits v 59 52 != 0 || 2 ^ 52 ≤ limit || limit < base then (.fault .malformedStructure 0, s)
    else if ch.active && ch.ctx != (thr s tid).ctx then (.fault .partition 0, s)
    else if !(jobsOn s (coreOf tid) n).isEmpty then (.park .chanJobs, s)
    else
      let s := setChan s (coreOf tid) n { ctx := (thr s tid).ctx, base := base, limit := limit, wm := base }
      (.done, result (rereadCore s (coreOf tid)) tid d (natWord ch.wm) 1)) s

/-- `yrd.wm` (R404). -/
def execYrdWm (d a : Reg) (s : State) :=
  issue { reads := [a], writes := [d], load := true } (fun vs s =>
    let tid := s.cur
    let n := (arg vs 0).toNat
    let ch := chanOf s (coreOf tid) n
    if 16 ≤ n then (.fault .malformedStructure 0, s)
    else if ch.active && ch.ctx != (thr s tid).ctx then (.fault .partition 0, s)
    else (.done, result s tid d (natWord (if ch.active then ch.wm else ch.base)) 1)) s

/-- Ask jobs to stop at their next element (R96, R108). -/
def askStop (s : State) (ids : List Nat) : State :=
  { s with jobs := s.jobs.map fun p => if ids.contains p.1 then (p.1, { p.2 with asked := true }) else p }

/-- The watermark goes to the limit, which releases every access that it held (R105). -/
def openChan (s : State) (c n : Nat) : State :=
  let ch := chanOf s c n
  setChan s c n { ch with wm := ch.limit, fill := [] }

/-- `yrd.stop` (R108, R405). (log 36: DEDUCED) -/
def execYrdStop (d a : Reg) (s : State) :=
  issue { reads := [a], writes := [d], effect := true } (fun vs s =>
    let tid := s.cur
    let t := thr s tid
    let c := coreOf tid
    match t.stopping with
    | some x =>
      if x.jobs.isEmpty then (.done, result (setThr s tid { t with stopping := none }) tid d (natWord x.ended) 1)
      else (.park .stopJobs, s)
    | none =>
      let v := (arg vs 0).toNat
      let ch := chanOf s c (v % 16)
      if 32 ≤ v then (.fault .malformedStructure 0, s)
      else if v < 16 && ch.active && ch.ctx != t.ctx then (.fault .partition 0, s)
      else if v < 16 && !ch.active then (.done, result s tid d 0 1)
      else
        let sel := if v < 16 then jobsOn s c v else s.jobs.filter fun p => p.2.core == c && !p.2.mark
        let ids := (sel.filter fun p => p.2.ctx == t.ctx).map (·.1)
        if ids.isEmpty then (.done, result (if v < 16 then openChan s c v else s) tid d 0 1)
        else
          let s := askStop s ids
          (.park .stopJobs, setThr s tid { thr s tid with stopping := some { jobs := ids, chan := if v < 16 then some v else none } })) s

/-! ## The scheduler (R97-R100) -/

/-- Whether an edge runs from an earlier entry to a later one (R98). -/
def edgeTo (x y : Entry) : Bool :=
  x.ctx == y.ctx && ((x.writes.any fun r => (y.reads ++ y.writes).any (meets r)) || (x.reads.any fun r => y.writes.any (meets r)))

/-- The order of arrival (R97). -/
def arrivalRank (e : Entry) : Nat := e.cycle * 512 + (e.core % 512 + 512 - e.cycle % 512) % 512

/-- The head of the arrival queue (R97). -/
def firstArrival : List Entry → Option Entry
  | [] => none
  | e :: es => match firstArrival es with
    | none => some e
    | some f => if arrivalRank f < arrivalRank e then some f else some e

/-- The edges of an entry from those accepted before it (R98). -/
def edgesOf (k : Cmpt) (e : Entry) : List Nat := (k.entries.filter fun x => edgeTo x e).map (·.id)

/-- The follow-on of a job enters right behind it, with an edge from it; it takes the next number of its thread's sequence, and
none when the thread is gone (R100). -/
def enterFollow (s : State) (c : Nat) (e : Entry) : State :=
  match e.job.bind fun n => (look s.jobs n).map fun j => (n, j) with
  | some (n, j) => match j.follow with
    | none => s
    | some o =>
      let s := { s with jobs := put s.jobs n { j with followed := true } }
      let t := thr s e.tid
      let o := { o with before := j.before }
      let s :=
        if t.serial = j.serial && t.life != .free then enterMill s e.tid o e.job [] true
        else
          let (id, s) := newId s
          let k := cmpt s c
          let f : Entry :=
            { id := id, ctx := o.ctx, tid := e.tid, core := e.core, cycle := k.cyc, reads := (millRegions o).1
              writes := (millRegions o).2, mill := some o, job := e.job }
          setCmpt s c { k with entries := k.entries ++ [f] }
      let k := cmpt s c
      match k.entries.reverse with
      | [] => s
      | f :: es =>
        let f := { f with edges := e.id :: ((es.filter fun x => x.id != e.id && edgeTo x f).map (·.id)), core := e.core }
        setCmpt s c { k with entries := (f :: es).reverse }
  | none => s

/-- FOOTPRINT_ACCEPT (R97, R98): one entry in a cycle, and none before the cycle of its arrival. -/
def footprintAccept (c : Nat) (s : State) : Option State :=
  (firstArrival (cmpt s c).arrivals).map fun e =>
    let s := tick s c (max e.cycle (cmpt s c).acceptAt)
    let k := cmpt s c
    let e' := { e with edges := edgesOf k e, taken := k.cyc }
    let s := setCmpt s c { k with arrivals := k.arrivals.filter fun x => x.id != e.id, entries := k.entries ++ [e']
                                  acceptAt := k.cyc + 1 }
    enterFollow s c e'

/-- A thread's mill instructions are dispatched in the order of their entries (R345). -/
def millTurn (k : Cmpt) (e : Entry) : Bool :=
  e.mill.all fun m => !(k.entries.takeWhile fun x => x.id != e.id).any fun x =>
    !x.dispatched && x.mill.any fun n => n.tid == m.tid && n.serial == m.serial

/-- Where an address of a captured page lies, as package and place. -/
def pagePlace (ps : List Page) (va : Nat) : Option (Nat × Place) := (pageOf ps va).map fun p => (p.pkg, placeOf (p.at va))

/-- The compartment of a place on chip. -/
def placeCmpt : Place → Option Nat
  | .store c _ => some (cmptOfCore c)
  | .regs t _ => some (cmptOf t)
  | .mill t _ | .code t _ => some (cmptOfTile t)
  | _ => none

/-- The yarder that leads a job (R85): a compartment's, the yarder of a pseudo-channel by its place in the package, a far-tier port, or one
of another package. -/
inductive Lead where
  | cmpt (k : Nat)
  | hbm (y : Nat)
  | far (d : Nat)
  | pkg (p : Nat)
  deriving DecidableEq, Repr

/-- The lead yarder of a job: the home of the first byte of read region 0, else of write region 0, and the issuer's for a HOST byte (R85). A
window's home is taken to be its compartment's yarder. (log 36: DEDUCED) -/
def leadOf (s : State) (j : Job) : Lead :=
  let c := cardOf j.card
  match ((c.reads j.card ++ c.writes j.card).head?).bind fun r => (pageOf j.pages r.1).map fun p => (p.pkg, p.at r.1) with
  | some (pkg, pa) =>
    if pkg != s.pkg then .pkg pkg
    else match placeOf pa with
      | .hbm => .hbm (bits pa 38 36 * 64 + bits pa 13 8)
      | .far d _ => .far d
      | p => .cmpt ((placeCmpt p).getD (cmptOf j.tid))
  | none => .cmpt (cmptOf j.tid)

/-- The bytes of a job whose footprint lies wholly in the issuer's compartment, in fixed-timing mode: its times are then published
(R209); none for another one. (log 42: DEDUCED) -/
def publishedBytes (s : State) (j : Job) : Option Nat :=
  let c := cardOf j.card
  let k := cmptOf j.tid
  let inside (va : Nat) : Bool := (pagePlace j.pages va).any fun q => q.1 == s.pkg && placeCmpt q.2 == some k
  let whole (r : Nat × Nat) : Bool :=
    (pagesIn j.pages r).all fun p => inside (max r.1 p.va) && inside (min r.2 (p.va + p.size) - 1)
  if !j.mark && (cmpt s k).fixt && (c.reads j.card ++ c.writes j.card).all whole then some (c.count * c.w) else none

/-- Send a job to its lead yarder (R85): over the network in the request class to another compartment's, as the 192 bytes of its card; to
an HBM yarder or a far-tier port, which it reaches at a time that is open; or over a peer port (log 34: DESIGN CHOICE). -/
def sendJob (s : State) (c n : Nat) (j : Job) : State :=
  let go (here : Bool) : State := { s with jobs := put s.jobs n { j with arrived := here, sent := some (cycOf s c) } }
  match leadOf s j with
  | .cmpt k => if k = c then go true else sendPacket (go false) .request c k (k * 512) 2 none (.job n)
  | .hbm _ | .far _ => go false
  | .pkg p =>
    let s := go false
    { s with away := s.away ++ [{ cls := .request, src := c, dst := c, body := .job n, core := awayCore p 0, flits := 2, stage := .ready
                                  time := cycOf s c }] }

/-- Send an entry without edges to its mill, its yarder or the marking engine (R85, R99, R201, R345); a mill instruction of a
thread with a held one is held behind it (R364). -/
def dispatchEntry (s : State) (c : Nat) (e : Entry) : State :=
  let k := cmpt s c
  let k := { k with entries := k.entries.map fun x => if x.id = e.id then { x with dispatched := true } else x }
  match e.mill, e.job with
  | some o, _ =>
    let s := setCmpt s c k
    let o := { o with sent := k.cyc }
    let t := thr s e.tid
    match if t.serial = o.serial then t.held else none with
    | some h => setThr s e.tid { t with held := some { h with followers := h.followers ++ [o] } }
    | none =>
      let x := tile s (tileOf e.tid)
      setTile s (tileOf e.tid) { x with dispatched := x.dispatched ++ [o] }
  | none, some n =>
    match look s.jobs n with
    | none => setCmpt s c k
    | some j =>
      if j.mark then setCmpt s c { k with markQ := k.markQ ++ [n] }
      else sendJob (setCmpt s c k) c n j
  | none, none => setCmpt s c k

/-- The cycle in which an entry is dispatched: a job whose times are published not before 4 cycles after its acceptance (R209). -/
def dispatchCycle (s : State) (e : Entry) : Nat :=
  match e.mill, e.job.bind (look s.jobs) with
  | none, some j => if (publishedBytes s j).isSome then e.taken + 4 else e.taken
  | _, _ => e.taken

/-- FOOTPRINT_DISPATCH (R99, R209). -/
def footprintDispatch (c n : Nat) (s : State) : Option State :=
  match (cmpt s c).entries.find? fun e => e.id == n with
  | none => none
  | some e =>
    if e.dispatched || !e.edges.isEmpty || !millTurn (cmpt s c) e then none
    else some (dispatchEntry (tick s c (dispatchCycle s e)) c e)

/-! ## The elements of a job (R94-R96, R107)

A yarder works on the elements in batches: it reads the sources of a batch, and writes its elements once they are there; the number of
elements in a batch is open (log 37: DESIGN CHOICE). -/

/-- The parts of an access at their homes by captured pages (R55). -/
def pageParts (ps : List Page) (va n : Nat) : Option (List Piece) :=
  (splitPage va n).mapM fun w => (pageOf ps w.1).map fun p => ⟨p.pkg, p.at w.1, w.2.1, w.2.2, p.gen, .rc⟩

/-- The parts of an element's access, when every byte lies in a region of the direction (R95). -/
def eltParts (j : Job) (rs : List (Nat × Nat)) (va n : Nat) : Option (List Piece) :=
  if (List.range n).all fun i => rs.any fun r => r.1 ≤ va + i && va + i < r.2 then pageParts j.pages va n else none

/-- The refusals of R39, R33 and R35 on a part of an element of `n` bytes. -/
def eltRefused (n pa len : Nat) : Option Nat :=
  match placeOf pa with
  | .far p off => if Config.farCapacity p < off + len then some 3 else none
  | .regs _ _ | .mill _ _ => if n != 8 || pa % 8 != 0 then some 6 else none
  | .hole => some 2
  | _ => none

/-- Whether a part's home will find that it cannot read a word that a write keeps in part (R61). -/
def keepsUnread (s : State) (p : Piece) : Bool :=
  match admitted s p.pkg p.pa p.gen with
  | .perform pkg pa => (unreadableFor s pkg pa p.len).isSome
  | _ => false

/-- The parts of an element's access, or the status with which the job stops there, since no part may be performed (R95, R96). -/
def eltAccess (s : State) (j : Job) (kind : AccKind) (va : Int) (n : Nat) : Except Nat (List Piece) :=
  let c := cardOf j.card
  match if va < 0 then none else eltParts j (if kind == .store then c.writes j.card else c.reads j.card) va.toNat n with
  | none => .error 2
  | some ps =>
    match ps.findSome? fun p => eltRefused n p.pa p.len with
    | some k => .error k
    | none =>
      if ps.any fun p => admitted s p.pkg p.pa p.gen == .stale then .error 4
      else if kind == .store && ps.any (keepsUnread s) then .error 5
      else .ok ps

/-- The accesses of a batch: the parts of as many elements as none refuses, each at its place in the batch's value, how many those are, and
the status of the first that is refused; an element without an address takes no access. -/
def batchParts (s : State) (j : Job) (kind : AccKind) (n : Nat) : Nat → List (Option Int) → List Piece × Nat × Option Nat
  | i, [] => ([], i, none)
  | i, none :: rest => batchParts s j kind n (i + 1) rest
  | i, some va :: rest =>
    match eltAccess s j kind va n with
    | .error k => ([], i, some k)
    | .ok ps =>
      let r := batchParts s j kind n (i + 1) rest
      ((ps.map fun p => { p with off := p.off + i * n }) ++ r.1, r.2)

/-- Parts that follow one another at one home are one part. -/
def joinPieces : List Piece → List Piece
  | [] => []
  | p :: ps =>
    match joinPieces ps with
    | [] => [p]
    | q :: qs =>
      if p.pkg = q.pkg && p.pa + p.len = q.pa && p.off + p.len = q.off && p.gen = q.gen then { p with len := p.len + q.len } :: qs
      else p :: q :: qs

/-- The bytes of a value that a part holds. -/
def partOf (v len off : Nat) : Nat := v / 2 ^ (8 * off) % 2 ^ (8 * len)

/-- Whether an element lies in the source bounds (R94). -/
def inBounds (c : Card) (i j k : Nat) : Bool :=
  let inside (o : Int) (n b : Nat) : Bool := 0 ≤ o + n && o + n < b
  inside c.o0 i c.b0 && inside c.o1 j c.b1 && inside c.o2 k c.b2

/-- What element m does (R94), `x` being its row's index. -/
def eltPlan (c : Card) (m x : Nat) : EltMove :=
  let i := m % c.e0
  let r := m / c.e0 % c.e1
  let k := m / (c.e0 * c.e1)
  let t : Int := c.dst + (i * c.w : Nat) + r * c.d1 + k * c.d2
  let clipped : EltMove := ⟨if c.cfill && c.op != 2 then some t else none, none⟩
  if c.op = 3 then ⟨some t, none⟩
  else if c.indexed then
    if c.clip && c.b1 ≤ x then clipped
    else if c.op = 1 then ⟨some t, some (c.src + x * c.s1 + (i * c.w : Nat))⟩
    else ⟨some (c.dst + x * c.d1 + (i * c.w : Nat)), some (c.src + r * c.s1 + (i * c.w : Nat))⟩
  else if c.clip && !inBounds c i r k then clipped
  else ⟨some t, some (c.src + (c.o0 + i) * c.w + (c.o1 + r) * c.s1 + (c.o2 + k) * c.s2)⟩

/-- The fill value of a card (R89). -/
def Card.fillValue (c : Card) : Nat := c.fill % 2 ^ (8 * c.w)

/-- A job that goes no further (R96): all that it has sent has been acknowledged. -/
def jobStop (j : Job) (status : Nat) : Job := { j with status := status, finished := true }

/-- The next element is completed: the record tells what has been clipped (R94, R102). -/
def eltDone (j : Job) (e : EltMove) : Job :=
  let c := cardOf j.card
  let clipped := c.op != 3 && e.from_.isNone
  { j with n := j.n + 1, clipd := j.clipd || clipped
           clipRows := j.clipRows + (if clipped && c.indexed && j.n % c.e0 = 0 then 1 else 0) }

/-- The elements of a batch are written, and the job ends there if a later one has failed (R96). -/
def batchDone (j : Job) (es : List EltMove) : Job :=
  let j := es.foldl eltDone j
  if j.status != 0 then jobStop j j.status else j

/-- The value that a batch writes: what its sources gave in `v`, or the fill value. -/
def batchValue (c : Card) (v : Nat) : Nat → List EltMove → Nat
  | _, [] => 0
  | i, e :: es => (if e.from_.isSome then partOf v c.w (i * c.w) else c.fillValue) * 2 ^ (8 * (i * c.w)) + batchValue c v (i + 1) es

/-! ### The accesses of a job (R64, R86, R110) -/

/-- The number that stands for a job's lead yarder among threads: the first slot of its compartment, or of the issuer's. -/
def leadThread (s : State) (j : Job) : Nat := (match leadOf s j with | .cmpt k => k | _ => cmptOf j.tid) * 8192

/-- The requests of a piece that an HBM yarder, a far-tier port or another package's yarder makes: they reach a local store through
its inbound port (R64), after a time that is open (log 40: DESIGN CHOICE). -/
def portReqs (s : State) (acc tid : Nat) (j : Job) (op : Nat → Nat → ReqOp) (p : Piece) : State :=
  (wordsOf p).foldl (fun s w =>
    let (n, s) := newId s
    let at_ := match placeOf w.1 with | .store c _ => cycOf s (cmptOfCore c) + 1 | _ => 0
    let rq : Req :=
      { acc := acc, tid := tid, ctx := j.ctx, cgen := (ctx s j.ctx).cgen, pkg := p.pkg, pa := w.1, len := w.2.1, off := w.2.2
        op := op w.2.1 w.2.2, gen := p.gen, src := 577, transit := 0, earliest := at_, piece := p.off, part := p.len, inOrder := true }
    { s with reqs := put s.reqs n rq }) s

/-- An access of a job, with the generation of its context and of its leaves (R86). Where its times are published, its requests can be
served at once (R209, log 42: DEDUCED). -/
def jobAccess (s : State) (id : Nat) (j : Job) (st : JobStep) (kind : AccKind) (va : Int) (n : Nat) (op : Nat → Nat → ReqOp)
    (ps : List Piece) : Job × State :=
  let tid := leadThread s j
  let q : Ask := { kind := kind, va := wordOf va, size := n, next := 0, op := op, agent := .job id, forCtx := some j.ctx
                   now := (publishedBytes s j).isSome }
  match leadOf s j with
  | .cmpt _ =>
    let (a, s) := addAccess s tid q ps true
    ({ j with acc := some (a, st) }, s)
  | _ =>
    let (a, s) := newId s
    let x : Access :=
      { tid := tid, ctx := j.ctx, launch := j.launch, left := (ps.map fun p => (wordsOf p).length).foldl (· + ·) 0, dests := []
        posted := true, covered := false, blocks := false, far := false, lo := q.va.toNat, size := n, next := 0, agent := q.agent }
    ({ j with acc := some (a, st) }, ps.foldl (fun s p => portReqs s a tid j op p) { s with accs := put s.accs a x })

/-- The job stops at an element that one of its words cannot be read for: the error is logged (R61, R96, R227). -/
def stopAt (s : State) (j : Job) (status : Nat) (va : Option Int) (n : Nat) : Job × State :=
  (jobStop j status, if status = 5 then ((pageParts j.pages (va.getD 0).toNat n).getD []).foldl (fun s p => noteWrite s p.pkg p.pa p.len) s else s)

/-- The first address of a batch. -/
def firstAddr (l : List (Option Int)) : Int := (l.findSome? id).getD 0

/-- Write the elements of a batch (R94, R96), as far as no home is known to refuse one. -/
def batchWrite (s : State) (id : Nat) (j : Job) (es : List EltMove) (v : Nat) : Job × State :=
  let c := cardOf j.card
  let at_ := es.map EltMove.to_
  match batchParts s j .store c.w 0 at_ with
  | (_, 0, some k) => stopAt s j k (at_.headD none) c.w
  | (ps, n, why) =>
    let j := if why.isSome then { j with status := 0 } else j
    let es := es.take n
    if ps.isEmpty then (batchDone j es, s)
    else
      let x := batchValue c v 0 es
      jobAccess s id j (.dest es) .store (firstAddr at_) (n * c.w) (fun k off => .write (partOf x k off)) (joinPieces ps)

/-- Read the sources of a batch (R94, R96), as far as no home is known to refuse one, and then write it. -/
def batchRead (s : State) (id : Nat) (j : Job) (es : List EltMove) : Job × State :=
  let c := cardOf j.card
  let at_ := es.map EltMove.from_
  match batchParts s j .load c.w 0 at_ with
  | (_, 0, some k) => (jobStop j k, s)
  | (ps, n, why) =>
    let j := if why.isSome then { j with status := 0 } else j
    let es := es.take n
    if ps.isEmpty then batchWrite s id j es 0
    else jobAccess s id j (.source es) .load (firstAddr at_) (n * c.w) (fun _ _ => .read) (joinPieces ps)

/-- The next `n` elements, with their rows' indices from the row of the first on (R94). -/
def batchOf (j : Job) (n v : Nat) : List EltMove :=
  let c := cardOf j.card
  (List.range n).map fun i => eltPlan c (j.n + i) (partOf v 4 (4 * ((j.n + i) / c.e0 - j.n / c.e0)))

/-- The elements among the next `n` whose index stands in the first `rows` rows. -/
def eltsIn (j : Job) (n rows : Nat) : Nat := min n ((j.n / (cardOf j.card).e0 + rows) * (cardOf j.card).e0 - j.n)

/-- Read the indices of the next `n` elements (R94, R95). -/
def batchIndex (s : State) (id : Nat) (j : Job) (n : Nat) : Job × State :=
  let c := cardOf j.card
  let row := j.n / c.e0
  let at_ : List (Option Int) := (List.range ((j.n + n - 1) / c.e0 + 1 - row)).map fun i => some ((c.aux + 4 * (row + i) : Nat) : Int)
  match batchParts s j .load 4 0 at_ with
  | (_, 0, some k) => (jobStop j k, s)
  | (ps, rows, _) => jobAccess s id j (.index (eltsIn j n rows)) .load (firstAddr at_) (4 * rows) (fun _ _ => .read) (joinPieces ps)

/-- The refcount before the copy: a payload with one holder is not copied, and the record then gives the 1 that was read (R107).
(log 40: DESIGN CHOICE) -/
def soleJob (j : Job) : Job := { jobStop j 1 with refc := 1 }

/-- The access of a step has given a value (R94, R107). -/
def jobValue (s : State) (id : Nat) (j : Job) (st : JobStep) (v : Nat) : Job × State :=
  match st with
  | .index n => batchRead s id j (batchOf j n v)
  | .source es => batchWrite s id j es v
  | .dest es => (batchDone j es, s)
  | .refRead => (if v = 1 then soleJob j else { j with cowRead := true }, s)
  | .refDrop => ({ j with finished := true, refc := min v 0xFFFF }, s)
  | .round => (j, s)

/-- The access of a step has failed at an offset: the elements before the one there are written, and it and the later ones are not
(R96). -/
def jobFailed (s : State) (id : Nat) (j : Job) (st : JobStep) (v status off : Nat) : Job × State :=
  let c := cardOf j.card
  let later := { j with status := status }
  match st with
  | .index n =>
    let k := eltsIn j n (off / 4)
    if k = 0 then (jobStop j status, s) else batchRead s id later (batchOf j k v)
  | .source es => if off / c.w = 0 then (jobStop j status, s) else batchWrite s id later (es.take (off / c.w)) v
  | .dest es => (jobStop ((es.take (off / c.w)).foldl eltDone j) status, s)
  | .refRead | .refDrop | .round => (jobStop j status, s)

/-- The answer to the access in flight. -/
def jobReply (s : State) (id : Nat) (j : Job) (a : Nat) (st : JobStep) : Option (Job × State) :=
  let j := { j with acc := none }
  match look s.accs a with
  | none => some (j, s)
  | some x =>
    if x.left != 0 || x.replies != 0 then none
    else
      let s := tick { s with accs := del s.accs a } (cmptOf x.tid) (x.done + 1)
      some (if x.poisoned || x.stale then jobFailed s id j st x.val (if x.poisoned then 5 else 4) (x.worst.getD 0)
        else jobValue s id j st x.val)

/-- An atomic on the refcount at aux, aligned or not (R107, log 40: DESIGN CHOICE). -/
def refcount (s : State) (id : Nat) (j : Job) (st : JobStep) (v : Nat) : Job × State :=
  let va : Int := (cardOf j.card).aux
  match eltAccess s j .load va 8 with
  | .error k => (jobStop j k, s)
  | .ok ps => jobAccess s id j st .atomic va 8 (fun k off => .amo 0 (partOf v k off)) ps

/-- The next accesses of a job: the refcount before the copy and after it (R107), or those of its next `n` elements. A job without elements
and with cow still reads the refcount and takes it down (log 40: DESIGN CHOICE). -/
def jobNext (s : State) (id : Nat) (j : Job) (n : Nat) : Job × State :=
  let c := cardOf j.card
  let left := c.count - j.n
  let n := if (publishedBytes s j).isSome then left else min (max n 1) left
  if c.cow && !j.cowRead then refcount s id j .refRead 0
  else if 0 < left then if c.indexed then batchIndex s id j n else batchRead s id j (batchOf j n 0)
  else if c.cow then refcount s id j .refDrop (2 ^ 64 - 1)
  else ({ j with finished := true }, s)

/-- A job reaches its lead yarder outside the compartments (R85): what has crossed a peer port is there. -/
def jobReaches (s : State) (id : Nat) (j : Job) : Option (Job × State) :=
  match leadOf s j with
  | .cmpt _ => none
  | _ => some ({ j with arrived := true }, { s with away := s.away.filter fun p => p.body != .job id })

/-- JOB_ARRIVAL (R85, R94, R96, R107): a job reaches its lead yarder, and takes its steps there after the issuing thread's earlier accesses
(R122, R134); the next batch has up to `n` elements, and in fixed-timing mode a job within the compartment has one (R209, log 37: DESIGN
CHOICE). A job that has been asked to stops before its next batch (R96). (log 36: DEDUCED) -/
def jobArrival (id n : Nat) (s : State) : Option State :=
  match look s.jobs id with
  | none => none
  | some j =>
    let save (r : Job × State) : State := { r.2 with jobs := put r.2.jobs id r.1 }
    if j.finished || j.mark || j.sent.isNone then none
    else if !j.arrived then (jobReaches s id j).map save
    else match j.acc with
      | some (a, st) => (jobReply s id j a st).map save
      | none =>
        if j.asked && (j.n < (cardOf j.card).count) then some (save (jobStop j 7, s))
        else if engineHeld s j.tid j.before then none
        else some (save (jobNext s id j n))

/-! ## Watermark reports and completion (R100-R104) -/

/-- Insert a range in a rising list of disjoint ranges, joining those that touch. -/
def joinRange (r : Nat × Nat) : List (Nat × Nat) → List (Nat × Nat)
  | [] => [r]
  | x :: xs =>
    if r.2 < x.1 then r :: x :: xs
    else if x.2 < r.1 then x :: joinRange r xs
    else joinRange (min r.1 x.1, max r.2 x.2) xs

/-- The watermark passes over the filled bytes that start at it (R104). -/
def absorb (wm : Nat) : List (Nat × Nat) → Nat × List (Nat × Nat)
  | [] => (wm, [])
  | x :: xs => if x.1 ≤ wm then absorb (max wm x.2) xs else (wm, x :: xs)

/-- A report of acknowledged bytes; none where it would make a 33rd range (R104). -/
def report (ch : CopyChan) (lo hi : Nat) : Option CopyChan :=
  if hi ≤ lo then some ch
  else
    let (wm, fill) := absorb ch.wm (joinRange (lo, hi) ch.fill)
    if 32 < fill.length then none else some { ch with wm := min wm ch.limit, fill := fill }

/-- WATERMARK_REPORT (R104): the next 256 bytes of a job's destination. (log 36: DEDUCED) -/
def watermarkReport (id : Nat) (s : State) : Option State :=
  match look s.jobs id with
  | none => none
  | some j =>
    let c := cardOf j.card
    let next := j.reported / 256 * 256 + 256
    if j.mark || !c.wmk || j.n * c.w < next then none
    else (report (chanOf s j.core c.chan) c.dst (c.dst + next)).map fun ch =>
      { setChan s j.core c.chan ch with jobs := put s.jobs id { j with reported := next } }

/-- The in-bounds box along one axis: its first element and its extent (R102); without clipping every element counts as in bounds.
(log 40: DESIGN CHOICE) -/
def axis (clip : Bool) (o : Int) (e b : Nat) : Nat × Nat :=
  if !clip then (0, e)
  else
    let lo := (max 0 (-o)).toNat
    (lo, (min (e : Int) (b - o) - lo).toNat)

/-- The completion record (R102); cbox of a FILL is 0 (log 40: DESIGN CHOICE). -/
def recordWords (j : Job) (fcan : Bool) : List Nat :=
  let c := cardOf j.card
  let (c0, f0) := axis c.clip c.o0 c.e0 c.b0
  let (c1, f1) := axis c.clip c.o1 c.e1 c.b1
  let (c2, f2) := axis c.clip c.o2 c.e2 c.b2
  let boxed := c.op == 0 || c.op == 4
  let none_ := f0 == 0 || f1 == 0 || f2 == 0
  let empty := c.count == 0 || (boxed && none_) || (c.indexed && j.clipRows == c.e1)
  let cbox := if boxed then (if none_ then 0 else c2 * 2 ^ 32 + c1 * 2 ^ 16 + c0) else if c.indexed then j.clipRows else 0
  let cext := if boxed && !none_ then f2 * 2 ^ 32 + f1 * 2 ^ 16 + f0 else 0
  [0x10 * 2 ^ 56 + j.status * 2 ^ 48 + bitAt fcan 43 + bitAt empty 42 + bitAt j.clipd 41 + c.chan * 2 ^ 36 + c.tag,
   j.n % 2 ^ 48, cbox, j.refc * 2 ^ 48 + cext]

/-- A record of four words for a landing (R187). -/
def recordEntry (s : State) (j : Job) (kind prio : Nat) (ws : List Nat) : LandEntry :=
  { kind := BitVec.ofNat 8 kind, len := 32, prio := prio, mcast := false, pkg := s.pkg, seq := 0, stid := j.stid, ctx := j.ctx
    data := wordBytes ws }

/-- Whether an entry is the follow-on of a job. -/
def isFollow (id : Nat) (e : Entry) : Bool := e.job == some id && e.mill.isSome

/-- The scheduler marks a job complete; its follow-on is cancelled, or sent to the mill when nothing else holds it (R100). -/
def endEntry (s : State) (c id : Nat) (cancel : Bool) : State :=
  let s := completeEntry s c fun e => e.id == id
  if cancel then completeEntry s c (isFollow id)
  else match (cmpt s c).entries.find? (isFollow id) with
    | some e => if e.edges.isEmpty && millTurn (cmpt s c) e then dispatchEntry s c e else s
    | none => s

/-- The end of a job as a thread in `yrd.stop` learns of it (R405). -/
def StopWait.told (x : StopWait) (id : Nat) (stopped : Bool) : StopWait :=
  if x.jobs.contains id then
    { x with jobs := x.jobs.filter fun i => i != id, ended := x.ended + (if stopped then 1 else 0) }
  else x

/-- The channel that a thread's `yrd.stop` opens once the job ends, the last that it waits for (R105). -/
def StopWait.opens (x : StopWait) (id : Nat) : Option Nat := if x.jobs.contains id && x.jobs.all (· == id) then x.chan else none

/-- The end of a job is told to threads in `yrd.stop` (R405), and the last one opens the channel (R105). -/
def tellStop (s : State) (id : Nat) (stopped : Bool) : State :=
  let open_ := s.threads.filterMap fun p => (p.2.stopping.bind fun x => x.opens id).map fun n => (coreOf p.1, n)
  let s := { s with threads := s.threads.map fun p => (p.1, { p.2 with stopping := p.2.stopping.map fun x => x.told id stopped }) }
  open_.foldl (fun s x => openChan s x.1 x.2) s

/-- The cycle in which a finished job completes (R209). -/
def completionCycle (s : State) (j : Job) : Nat :=
  match publishedBytes s j with
  | some n => j.sent.getD 0 + 8 + ceilDiv n 64
  | none => 0

/-- The first completion effects of R101: the last watermark advance, the barrier, the scheduler. None while the report waits. -/
def jobEffects (s : State) (id : Nat) (j : Job) : Option State :=
  let c := cardOf j.card
  match if c.wmk then report (chanOf s j.core c.chan) c.dst (c.dst + j.n * c.w) else some (chanOf s j.core c.chan) with
  | none => none
  | some ch =>
    let s := tick s (cmptOf j.tid) (completionCycle s j)
    let s := if c.wmk then setChan s j.core c.chan ch else s
    let s := match j.phase with
      | none => s
      | some (h, q) =>
        let x := ctx s j.ctx
        match look x.bars (bits h 15 0) with
        | some b => setCtx s j.ctx (setBar x h (countCopy b q false))
        | none => s
    let now := cycOf s (cmptOf j.tid)
    let at_ := if (publishedBytes s j).isSome && !c.nrec then now + 3 else now
    some { endEntry s (cmptOf j.tid) id (2 ≤ j.status) with jobs := put s.jobs id { j with ended := some at_ } }

/-- The last one: the record is posted, and the job is counted no more (R93, R101). -/
def jobRecord (s : State) (id : Nat) (j : Job) (at_ : Nat) : State :=
  let c := cardOf j.card
  let s := tick s (cmptOf j.tid) at_
  let s := if c.nrec then s
    else postRecord s j.core (recordEntry s j 0x10 c.prio (recordWords j (2 ≤ j.status && j.follow.isSome)))
  tellStop { s with jobs := del s.jobs id } id (j.status == 7)

/-- JOB_COMPLETION (R101): the completion effects in order. -/
def jobCompletion (id : Nat) (s : State) : Option State :=
  match look s.jobs id with
  | none => none
  | some j =>
    if j.mark || !j.finished then none
    else match j.ended with
      | none => jobEffects s id j
      | some at_ => some (jobRecord s id j at_)

/-- FOOTPRINT_ACCEPT (R97): The footprint scheduler accepts one entry per cycle from its arrival queue and records its edges. -/
def execFootprintAccept (c : Nat) (s : State) := event (footprintAccept c) s
/-- FOOTPRINT_DISPATCH (R99): An entry whose edges have all completed is dispatched to its yarder, marking engine or mill. -/
def execFootprintDispatch (c n : Nat) (s : State) := event (footprintDispatch c n) s
/-- JOB_ARRIVAL (R85): A job reaches its lead yarder, which starts its reads and posted writes in element order. -/
def execJobArrival (j n : Nat) (s : State) := event (jobArrival j n) s
/-- WATERMARK_REPORT (R104): A job reports its acknowledged prefix to its channel, which advances the watermark and releases parked accesses. -/
def execWatermarkReport (j : Nat) (s : State) := event (watermarkReport j) s
/-- JOB_COMPLETION (R101): When all of a job's writes are acknowledged, the final watermark, the barrier decrement, the scheduler completion and the record take place in order. -/
def execJobCompletion (j : Nat) (s : State) := event (jobCompletion j) s

end Sys2Proof.Machine
end

