-- ==== Sys2Proof/Machine/Marking.lean ====
section
/-! DEFINITION. The marking engine: major 0x2A and MARK_JOB_RUN (R200-R203, R402, R409). -/

namespace Sys2Proof.Machine

/-- A marking job (R200). -/
structure Marking where
  n : Nat
  rule : Nat
  alo : Bool
  prio : Nat
  rnd : Nat
  parm : Nat
  conf : Nat
  mask : Nat
  cand : Nat
  tok : Nat
  list : Nat
  map : Nat
  /-- L of R202. -/
  layers : Nat
  l0 : Nat
  p : Nat
  w : Nat
  gbase : Nat
  g : Nat

/-- The fields of a marking job's words (R200). -/
def markingOf (ws : List Word) : Marking :=
  let h := cw ws 0
  let at_ (i : Nat) : Nat := bits (cw ws i) 51 0
  { n := bits h 63 51, rule := bits h 50 48, alo := bit h 47, prio := bits h 46 45, rnd := bits h 31 0, parm := cw ws 1
    conf := at_ 2, mask := at_ 3, cand := at_ 4, tok := at_ 5, list := at_ 6, map := at_ 7
    layers := bits (cw ws 8) 63 56 + 1, l0 := bits (cw ws 8) 55 48, p := bits (cw ws 8) 47 32, w := bits (cw ws 8) 31 16
    gbase := bits (cw ws 9) 63 32, g := bits (cw ws 9) 31 0 }

/-- The granules of the block (R200). -/
def Marking.granules (m : Marking) : Nat := ceilDiv m.n 16

/-- The length and address of the schedule table (R200). -/
def Marking.sched (m : Marking) : Nat × Nat := (bits m.parm 63 52, bits m.parm 51 0)

/-- R200's constraint on `parm`. -/
def parmOk (m : Marking) : Bool :=
  match m.rule with
  | 0 => m.parm < 2 ^ 13
  | 1 => bits m.parm 31 0 != 0
  | 2 => m.parm < 2 ^ 32 && fval f32 m.parm != .nan
  | 3 => bits m.parm 63 52 != 0
  | _ => false

/-- The map words of a layer that the block's granules can touch: first and one past the last (R201). -/
def mapWords (m : Marking) (l : Nat) : Nat × Nat :=
  ((l * m.g + m.gbase) / 64, (l * m.g + m.gbase + m.granules - 1) / 64 + 1)

/-- The map regions of a job, layer by layer (R201). -/
def mapRegions (m : Marking) : List (Nat × Nat) :=
  (List.range m.layers).map fun l => let (a, b) := mapWords m l; (m.map + 8 * a, m.map + 8 * b)

/-- The read regions, and the write regions but for the map (R201). -/
def markRegions (m : Marking) : List (Nat × Nat) × List (Nat × Nat) :=
  ([(m.conf, m.conf + 4 * m.n), (m.cand, m.cand + 4 * m.n)]
     ++ (if m.rule = 3 then [(m.sched.2, m.sched.2 + 4 * m.sched.1)] else []),
   [(m.mask, m.mask + 8 * ceilDiv m.n 64), (m.tok, m.tok + 4 * m.n), (m.list, m.list + 4 * m.n)])

/-- Whether no region meets a later one. -/
def apart : List (Nat × Nat) → Bool
  | [] => true
  | r :: rs => !rs.any (meets r) && apart rs

/-- R200's constraints and alignments, and R201's on overlap. -/
def markingOk (ws : List Word) : Bool :=
  let m := markingOf ws
  let (rd, wr) := markRegions m
  1 ≤ m.n && m.n ≤ 4096 && parmOk m && bits (cw ws 0) 44 32 == 0 && (List.range 6).all (fun i => cw ws (2 + i) < 2 ^ 52)
    && bits (cw ws 8) 15 0 == 0 && m.gbase + m.granules ≤ m.g
    && [m.conf, m.cand, m.tok, m.list].all (fun a => a % 4 == 0) && [m.mask, m.map].all (fun a => a % 8 == 0)
    && apart (rd ++ wr) && !(mapRegions m).any (fun x => (rd ++ wr).any (meets x))

/-- The checks of R201 on captured regions, in the order of R92. -/
def markChecks (s : State) (tid : Nat) (m : Marking) : Res (List Page) :=
  let (rd, wr) := markRegions m
  let maps := mapRegions m
  let both (r : Nat × Nat) := (r, true, true)
  match captureAll s tid (rd.map (fun r => (r, true, false)) ++ (wr.take 1).map both ++ (wr.drop 1).map (fun r => (r, false, true))
      ++ maps.map both) with
  | (.error e, s) => .stop e.ends s
  | (.ok ps, s) =>
    let all := rd ++ wr ++ maps
    if all.any (inTier ps .ft) || maps.any (inTier ps .host) then .stop (.fault .tier 0) s
    else match all.find? fun r => (pagesIn ps r).any fun p => isWindow (placeOf p.pa) with
      | some r => .stop (.fault .windowAccess (natWord r.1)) s
      | none => match if (thr s tid).prv == .f then none else outside s (ctx s (thr s tid).ctx).part ps all with
        | some a => .stop (.fault .partition (natWord a)) s
        | none => .ok ps s

/-- `mark` (R200, R201, R402). -/
def execMark (d a : Reg) (s : State) :=
  issue { reads := [a], writes := [d], effect := true } (fun vs s =>
    let tid := s.cur
    let va := arg vs 0
    if va.toNat % 16 != 0 then (.fault .malformedStructure 0, s)
    else
      (ownWords s tid va 10 .malformedStructure).run fun ws s =>
        if !markingOk ws then (.fault .malformedStructure 0, s)
        else
          let m := markingOf ws
          (markChecks s tid m).run fun ps s =>
            let t := thr s tid
            let j : Job :=
              { mark := true, ctx := t.ctx, launch := t.launch, tid := tid, stid := logicalTid s tid, core := coreOf tid
                card := ws, pages := ps, address := va.toNat, follow := none, before := s.ids, prv := t.prv, phase := none
                serial := t.serial }
            let (rd, wr) := markRegions m
            admitJob s tid d j rd (wr ++ mapRegions m)) s

/-- `mark.st` (R409). -/
def execMarkSt (d : Reg) (s : State) :=
  issue { writes := [d], load := true } (fun _ s =>
    let c := coreOf s.cur
    let n := (thr s s.cur).ctx
    let pend := (s.jobs.filter fun p => p.2.mark && p.2.core == c && p.2.ctx == n).length
    let busy := match (cmpt s (cmptOf s.cur)).markQ with
      | j :: _ => (look s.jobs j).any fun b => b.ctx == n
      | [] => false
    (.done, result s s.cur d (natWord (pend * 2 ^ 32 + bitAt busy 31)) 1)) s

/-! ## One round (R202)

The engine reads in turn the mask, the confidences, the schedule and the candidates, and then makes its writes in one access, in order
(log 27: DESIGN CHOICE). -/

/-- Insert a masked position by key descending, then position ascending. -/
def insKey (x : Nat × FVal) : List (Nat × FVal) → List (Nat × FVal)
  | [] => [x]
  | y :: ys => if flt y.2 x.2 then x :: y :: ys else y :: insKey x ys

/-- The masked positions in rank order: those of lower position first among equal keys (R202). -/
def ranked (l : List (Nat × FVal)) : List (Nat × FVal) := l.foldl (fun r x => insKey x r) []

/-- How many positions a round commits (R202): `sched` is the count its schedule gives. -/
def commits (m : Marking) (rank : List (Nat × FVal)) (sched : Nat) : Nat :=
  let q := rank.length
  match m.rule with
  | 0 => min (bits m.parm 12 0) q
  | 1 => min (ceilDiv (bits m.parm 63 32 * q) (bits m.parm 31 0)) q
  | 2 =>
    let k := (rank.filter fun x => !flt x.2 (fval f32 m.parm)).length
    if m.alo && k == 0 && q != 0 then 1 else k
  | _ => min sched q

/-- Whether a round sets the map bit of layer l and granule h (R202). -/
def mapBit (m : Marking) (done : List Nat) (l h : Nat) : Bool :=
  let near (w : Nat) : Bool := done.any fun i => i / 16 ≤ h + w && h ≤ i / 16 + w
  near 0 || (m.l0 ≤ l && near m.w) || (m.p != 0 && m.rnd % m.p == 0)

/-- One write of a round: an address, a width, and the new value from the old one. -/
structure MarkWrite where
  va : Nat
  n : Nat
  /-- Whether the bits are set by an atomic OR. -/
  or_ : Bool
  v : Nat

/-- The writes of a round in order (R202): tokens and list, mask words whole, then map words by atomic OR. -/
def markWrites (m : Marking) (mask : List Nat) (done cands : List Nat) : List MarkWrite :=
  let pairs := (List.range done.length).zip (done.zip cands)
  let toks := pairs.flatMap fun (j, i, c) => [⟨m.tok + 4 * i, 4, false, c⟩, ⟨m.list + 4 * j, 4, false, i⟩]
  let cleared (k v : Nat) : Nat := done.foldl (fun v i => if i / 64 = k && bit v (i % 64) then v - 2 ^ (i % 64) else v) v
  let masks := ((List.range mask.length).zip mask).filterMap fun (k, v) =>
    if cleared k v = v then none else some ⟨m.mask + 8 * k, 8, false, cleared k v⟩
  let maps := (List.range m.layers).flatMap fun l =>
    let (a, b) := mapWords m l
    (List.range (b - a)).filterMap fun k =>
      let v := (List.range m.granules).foldl (fun v h =>
        let at_ := l * m.g + m.gbase + h
        if at_ / 64 = a + k && mapBit m done l h then v + 2 ^ (at_ % 64) else v) 0
      if v = 0 then none else some ⟨m.map + 8 * (a + k), 8, true, v⟩
  toks ++ masks ++ maps

/-! ### What the reads have given

`got` holds the mask, the confidences of the masked positions, the schedule's entry and the candidates, as far as they have been read. -/

/-- The words of `n` bytes that a read gave. -/
def gotWords (got : List Nat) (i n count : Nat) : List Nat := (List.range count).map fun k => partOf (got.getD i 0) n (n * k)

/-- The masked positions. -/
def masked (m : Marking) (got : List Nat) : List Nat := (List.range m.n).filter fun i => bit (got.getD 0 0) i

/-- Their confidences. -/
def confidences (m : Marking) (got : List Nat) : List FVal := (gotWords got 1 4 (masked m got).length).map (fval f32)

/-- The positions that the round commits, in rank order; a NaN ranks as -inf. -/
def committed (m : Marking) (got : List Nat) : List Nat :=
  let rank := ranked (((masked m got).zip (confidences m got)).map fun (i, v) => (i, if v == .nan then .inf true else v))
  (rank.take (commits m rank (got.getD 2 0))).map (·.1)

/-- The next read of a round: a width and its addresses. -/
def roundReads (m : Marking) (got : List Nat) : Nat × List Nat :=
  match got.length with
  | 0 => (8, (List.range (ceilDiv m.n 64)).map fun k => m.mask + 8 * k)
  | 1 => (4, (masked m got).map fun i => m.conf + 4 * i)
  | 2 => (4, if m.rule = 3 then [m.sched.2 + 4 * min m.rnd (m.sched.1 - 1)] else [])
  | _ => (4, (committed m got).map fun i => m.cand + 4 * i)

/-- The writes that what has been read calls for. -/
def roundWrites (m : Marking) (got : List Nat) : List MarkWrite :=
  let done := committed m got
  markWrites m (gotWords got 0 8 (ceilDiv m.n 64)) done (gotWords got 3 4 done.length)

/-- Writes with their places in the value of one access. -/
def placed : Nat → List MarkWrite → List (Nat × MarkWrite)
  | _, [] => []
  | o, w :: ws => (o, w) :: placed (o + w.n) ws

/-- The operation of a round's writes on the bytes at a place. -/
def markOp (ws : List (Nat × MarkWrite)) (n off : Nat) : ReqOp :=
  match ws.find? fun x => x.1 ≤ off && off < x.1 + x.2.n with
  | some (o, w) => if w.or_ then .amo 2 (partOf w.v n (off - o)) else .write (partOf w.v n (off - o))
  | none => .read

/-- The parts of words of a job at their places in one access. -/
def markParts (j : Job) (l : List (Nat × Nat × Nat)) : List Piece :=
  l.flatMap fun x => ((pageParts j.pages x.2.1 x.2.2).getD []).map fun p => { p with off := p.off + x.1 }

/-- What a round comes to: its status, the positions committed, those masked, and whether a confidence was NaN; none for what a
failure has left undefined. -/
structure Round where
  status : Nat
  k : Option Nat
  q : Option Nat
  nan : Option Bool

/-- A round that ends with a status, having committed `k` positions. -/
def roundEnd (j : Job) (status : Nat) (k : Option Nat) : Round :=
  let m := markingOf j.card
  { status := status, k := k, q := if j.got.isEmpty then none else some (masked m j.got).length
    nan := if 2 ≤ j.got.length then some ((confidences m j.got).any fun v => v == .nan) else none }

/-- An access of the marking engine of the issuer's compartment (R64, R86). -/
def roundAccess (s : State) (id : Nat) (j : Job) (kind : AccKind) (op : Nat → Nat → ReqOp) (ps : List Piece) : Job × State :=
  let va := ((ps.head?.map Piece.pa).getD 0 : Nat)
  let q : Ask := { kind := kind, va := natWord va, size := 0, next := 0, op := op, agent := .job id, forCtx := some j.ctx }
  let (a, s) := addAccess s (cmptOf j.tid * 8192) q ps true
  ({ j with acc := some (a, .round) }, s)

/-- A word that a write reads at its home and cannot (R61, R202). -/
def markUnread (s : State) (w : MarkWrite) (p : Piece) : Bool :=
  match w.or_, admitted s p.pkg p.pa p.gen with
  | true, .perform pkg pa => (readHome s pkg pa p.len).isNone
  | false, _ => keepsUnread s p
  | _, _ => false

/-- `mark_round` goes on to its next access, or to its end (R202): every read comes before any write, and a failed one leaves nothing
committed. -/
def roundRun : Nat → State → Nat → Job → Option Round × Job × State
  | 0, s, _, j => (none, j, s)
  | fuel + 1, s, id, j =>
    let m := markingOf j.card
    if j.got.length < 4 then
      let (n, at_) := roundReads m j.got
      if at_.isEmpty then roundRun fuel s id { j with got := j.got ++ [0] }
      else (none, roundAccess s id j .load (fun _ _ => .read)
        (joinPieces (markParts j (((List.range at_.length).map (· * n)).zip (at_.map fun a => (a, n))))))
    else
      let ws := placed 0 (roundWrites m j.got)
      let bad := ws.flatMap fun x => (markParts j [(x.1, x.2.va, x.2.n)]).filter (markUnread s x.2)
      if ws.isEmpty then (some (roundEnd j 0 (some 0)), j, s)
      else if !bad.isEmpty then (some (roundEnd j 5 (some 0)), j, noteParts s bad)
      else (none, roundAccess s id j .store (markOp ws) (markParts j (ws.map fun x => (x.1, x.2.va, x.2.n))))

/-- An access of a round has been answered (R202): a refused write stops the job, and those made before it stand. -/
def roundReply (s : State) (id : Nat) (j : Job) (x : Access) : Option Round × Job × State :=
  let j := { j with acc := none }
  let writing := 4 ≤ j.got.length
  if x.poisoned || x.stale then (some (roundEnd j (if x.poisoned then 5 else 4) (if writing then none else some 0)), j, s)
  else if writing then (some (roundEnd j 0 (some (committed (markingOf j.card) j.got).length)), j, s)
  else roundRun 5 s id { j with got := j.got ++ [x.val] }

/-- The completion record (R203). What a failure leaves undefined is open: the positions committed when a write was refused, and what
the reads had not yet given (log 27: DESIGN CHOICE). -/
def markRecord (s : State) (j : Job) (r : Round) : List Nat × State :=
  let m := markingOf j.card
  let head := 0x11 * 2 ^ 56 + r.status * 2 ^ 48 + m.rnd
  let (w, s) : Word × State := if r.k.isSome && r.q.isSome && r.nan.isSome then (0, s) else openWord s
  let v := w.toNat
  let q := r.q.getD (bits v 12 0)
  let empty := match r.q with | some q => q == 0 | none => bit v 62
  ([head + bitAt (r.nan.getD (bit v 63)) 41 + bitAt empty 40, r.k.getD (bits v 44 32) * 2 ^ 32 + q, j.address, 0], s)

/-- A round is over: its entry completes and its record is posted (R203). -/
def roundOver (s : State) (c n : Nat) (j : Job) (r : Round) : State :=
  let s := endEntry (setCmpt s c { cmpt s c with markQ := (cmpt s c).markQ.tail }) c n true
  let (ws, s) := markRecord s j r
  let s := postRecord s j.core (recordEntry s j 0x11 (markingOf j.card).prio ws)
  { s with jobs := del s.jobs n }

/-- The next step of a round; none while its access is in flight, or while the issuing thread's earlier accesses are (R134). -/
def roundStep (s : State) (n : Nat) (j : Job) : Option (Option Round × Job × State) :=
  match j.acc with
  | some (a, _) =>
    match look s.accs a with
    | none => some (roundRun 5 s n { j with acc := none })
    | some x =>
      if x.left != 0 || x.replies != 0 then none
      else some (roundReply (tick { s with accs := del s.accs a } (cmptOf x.tid) (x.done + 1)) n j x)
  | none => if engineHeld s j.tid j.before then none else some (roundRun 5 s n j)

/-- MARK_JOB_RUN (R202, R203): the engine goes on with its oldest job. -/
def markJobRun (c : Nat) (s : State) : Option State :=
  match (cmpt s c).markQ with
  | [] => none
  | n :: rest =>
    match look s.jobs n with
    | none => some (setCmpt s c { cmpt s c with markQ := rest })
    | some j => (roundStep s n j).map fun (r, j, s) =>
      match r with
      | some r => roundOver s c n j r
      | none => { s with jobs := put s.jobs n j }

/-- MARK_JOB_RUN (R202): The marking engine runs one job: it ranks, commits, sets map bits and posts the record. -/
def execMarkJobRun (c : Nat) (s : State) := event (markJobRun c) s

end Sys2Proof.Machine
end

