-- ==== Sys2Proof/Machine/Sfu.lean ====
section
/-! DEFINITION. Major 0x1B: the special functions, correctly rounded, and the tile's ring (R342-R344).

A function value is found in fixed point with 2^-768 as its unit and an error far below the distance to the next rounding
boundary of any format, and its magnitude is cut to 128 bits with a sticky bit below (log 14: DEDUCED). -/

namespace Sys2Proof.Machine

/-- Fraction bits of the fixed point. -/
def fxBits : Nat := 768
/-- One. -/
def fxOne : Int := (2 ^ fxBits : Nat)
/-- A product. -/
def fxMul (x y : Int) : Int := x * y / fxOne
/-- A quotient. -/
def fxDiv (x y : Int) : Int := x * fxOne / y

/-- 1 + r/(k+1) + r²/((k+1)(k+2)) + …, `n` terms: the tail of the exponential series. -/
def expTail (r : Int) (k : Nat) : Nat → Int
  | 0 => fxOne
  | n + 1 => fxOne + fxMul r (expTail r (k + 1) n) / (k + 1 : Nat)

/-- e^r for 0 ≤ r < 1. -/
def fxExp (r : Int) : Int := expTail r 0 180

/-- Σ z^(2i+1)/(2i+1): the inverse hyperbolic tangent, terms from index i. -/
def atanhTail (z2 : Int) (i : Nat) : Nat → Int
  | 0 => 0
  | n + 1 => fxOne / (2 * i + 1 : Nat) + fxMul z2 (atanhTail z2 (i + 1) n)

/-- ln of a fixed-point number in [1, 2). -/
def fxLn (m : Int) : Int :=
  let z := fxDiv (m - fxOne) (m + fxOne)
  2 * fxMul z (atanhTail (fxMul z z) 0 260)

/-- ln 2. -/
def fxLn2 : Int := fxLn (2 * fxOne - 1)

/-- Σ (−1)^i z^(2i+1)/(2i+1) with z = 1/q: the inverse tangent of a reciprocal. -/
def atanTail (q2 : Nat) (i : Nat) : Nat → Int
  | 0 => 0
  | n + 1 => fxOne / (2 * i + 1 : Nat) - atanTail q2 (i + 1) n / (q2 : Int)

/-- π by Machin's formula. -/
def fxPi : Int := 4 * (4 * (atanTail 25 0 180 / 5) - atanTail 57121 0 60 / 239)

/-- 1 − r²/((k+1)(k+2)) (1 − …): the tail of the sine and cosine series. -/
def trigTail (r2 : Int) (k : Nat) : Nat → Int
  | 0 => fxOne
  | n + 1 => fxOne - fxMul r2 (trigTail r2 (k + 2) n) / ((k + 1) * (k + 2) : Nat)

/-- sin of 0 ≤ θ < 1. -/
def fxSin (t : Int) : Int := fxMul t (trigTail (fxMul t t) 1 80)
/-- cos of 0 ≤ θ < 1. -/
def fxCos (t : Int) : Int := trigTail (fxMul t t) 0 80

/-- A positive fixed-point magnitude that is never representable, times 2^e: 128 bits and a sticky bit. -/
def sticky (neg : Bool) (v : Int) (e : Int) : FVal :=
  let n := v.toNat
  let k := Nat.log2 n - 127
  .fin neg (2 * (n / 2 ^ k) + 1) ((k : Int) - fxBits + e - 1)

/-- A value between 0 and every representable number. -/
def tiny (neg : Bool) : FVal := .fin neg 1 (-2000)
/-- A value above every finite number. -/
def huge (neg : Bool) : FVal := .fin neg 1 2000

/-- m × 2^e in fixed point. -/
def toFx (m : Nat) (e : Int) : Int :=
  let k := e + fxBits
  if k ≥ 0 then (m * 2 ^ k.toNat : Nat) else (m / 2 ^ (-k).toNat : Nat)

/-- e^x for a finite x ≠ 0. -/
def expE (neg : Bool) (m : Nat) (e : Int) : FVal :=
  if (Nat.log2 m : Int) + e > 9 then (if neg then tiny false else huge false)
  else
    let x := if neg then -toFx m e else toFx m e
    let k := x / fxLn2
    sticky false (fxExp (x - k * fxLn2)) k

/-- 2^x for a finite x: exact for integers. -/
def exp2E (neg : Bool) (m : Nat) (e : Int) : FVal :=
  if m = 0 then .fin false 1 0
  else if (Nat.log2 m : Int) + e > 9 then (if neg then tiny false else huge false)
  else
    let x := if neg then -toFx m e else toFx m e
    let k := x / fxOne
    let r := x - k * fxOne
    if r = 0 then .fin false 1 k else sticky false (fxExp (fxMul r fxLn2)) k

/-- A signed fixed-point number as a value that is not representable. -/
def stickyS (v : Int) : FVal := sticky (decide (v < 0)) v.natAbs 0

/-- ln x for a finite x > 0, x ≠ 1. -/
def lnE (m : Nat) (e : Int) : FVal :=
  let k := (Nat.log2 m : Int) + e
  let f := toFx m (e - k)
  -- just below 1, the sum of a whole ln 2 and a logarithm would cancel
  if k = -1 then stickyS (-(2 * (let z := fxDiv (fxOne - f / 2) (fxOne + f / 2); fxMul z (atanhTail (fxMul z z) 0 260))))
  else stickyS (fxLn f + k * fxLn2)

/-- log2 x for a finite x > 0: exact for powers of two. -/
def log2E (m : Nat) (e : Int) : FVal :=
  let k := (Nat.log2 m : Int) + e
  if m = 2 ^ Nat.log2 m then finOf k 0 false
  else
    let f := toFx m (e - k)
    if k = -1 then
      let z := fxDiv (fxOne - f / 2) (fxOne + f / 2)
      stickyS (-(fxDiv (2 * fxMul z (atanhTail (fxMul z z) 0 260)) fxLn2))
    else stickyS (fxDiv (fxLn f) fxLn2 + k * fxOne)

/-- The square root of a number by bits, rounded down. -/
def isqrtFrom (n : Nat) : Nat → Nat → Nat
  | 0, r => r
  | k + 1, r => let r' := r + 2 ^ k; isqrtFrom n k (if r' * r' ≤ n then r' else r)

/-- The square root of a number, rounded down. -/
def isqrt (n : Nat) : Nat := isqrtFrom n (Nat.log2 n / 2 + 1) 0

/-- A quotient or root cut to an integer, with a sticky bit when it was not exact. -/
def cut (neg : Bool) (n : Nat) (exact : Bool) (e : Int) : FVal :=
  if exact then .fin neg n e else .fin neg (2 * n + 1) (e - 1)

/-- √(m × 2^e), m ≠ 0. -/
def sqrtE (m : Nat) (e : Int) : FVal :=
  let odd := e % 2 == 1
  let n := (if odd then 2 * m else m) * 2 ^ 256
  let k := (if odd then e - 1 else e) / 2 - 128
  let r := isqrt n
  cut false r (r * r == n) k

/-- 1/√(m × 2^e), m ≠ 0. -/
def rsqrtE (m : Nat) (e : Int) : FVal :=
  let odd := e % 2 == 1
  let n := if odd then 2 * m else m
  let k := (if odd then e - 1 else e) / 2
  let r := isqrt (2 ^ 512 / n)
  cut false r (r * r * n == 2 ^ 512) (-256 - k)

/-- 1/(m × 2^e), m ≠ 0. -/
def rcpE (neg : Bool) (m : Nat) (e : Int) : FVal := cut neg (2 ^ 256 / m) (2 ^ 256 % m == 0) (-256 - e)

/-- sin or cos of π times f/2^fxBits for 0 < f < 1/2, not a quarter's exact value. -/
def trigQuarter (cosine : Bool) (f : Int) : Int :=
  -- reflect into 0..1/4 so that the angle stays below 1
  let half := fxOne / 2
  if f ≤ half / 2 then (if cosine then fxCos (fxMul f fxPi) else fxSin (fxMul f fxPi))
  else (if cosine then fxSin (fxMul (half - f) fxPi) else fxCos (fxMul (half - f) fxPi))

/-- sin(π y) for y = u / 2^fxBits in [0, 2), exact at multiples of one half. -/
def sinTurn (u : Int) : FVal :=
  let half := fxOne / 2
  let q := u / half
  let f := u % half
  let neg := decide (2 ≤ q)
  if f = 0 then (if q % 2 = 0 then .fin false 0 0 else .fin neg 1 0)
  else sticky neg (trigQuarter (q % 2 == 1) f) 0

/-- sin(π x) for a finite x ≠ 0 (R343: an integer gives 0 with its sign). -/
def sinpiE (neg : Bool) (m : Nat) (e : Int) : FVal :=
  let u : Int := if e ≥ 1 then 0 else toFx m e % (2 * fxOne)
  match sinTurn u with
  | .fin n k x => if k = 0 then .fin neg 0 0 else .fin (n != neg) k x
  | v => v

/-- cos(π x) = sin(π (x + 1/2)) for a finite x. -/
def cospiE (m : Nat) (e : Int) : FVal :=
  let u : Int := if e ≥ 1 then 0 else toFx m e % (2 * fxOne)
  -- a tiny x: cos is just below 1
  if (Nat.log2 m : Int) + e < -300 ∧ m ≠ 0 then sticky false (fxOne - 1) 0
  else sinTurn ((u + fxOne / 2) % (2 * fxOne))

/-- e^−x for a finite x > 0 below 512, in fixed point. -/
def expNeg (m : Nat) (e : Int) : Int :=
  let x := toFx m e
  let j := x / fxLn2
  fxExp ((j + 1) * fxLn2 - x) / (2 ^ (j + 1).toNat : Nat)

/-- tanh of a finite x ≠ 0: (1 − z) / (1 + z) with z = e^−2x. -/
def tanhE (neg : Bool) (m : Nat) (e : Int) : FVal :=
  let k := (Nat.log2 m : Int) + e
  if k > 6 then sticky neg (fxOne - 1) 0
  else if k < -80 then
    -- x − x³/3 and less: just below x
    .fin neg (m * 2 ^ 256 - 1) (e - 256)
  else
    let z := expNeg m (e + 1)
    sticky neg (fxDiv (fxOne - z) (fxOne + z)) 0

/-- 1/(1 + e^−x) of a finite x ≠ 0. -/
def sigmE (neg : Bool) (m : Nat) (e : Int) : FVal :=
  let k := (Nat.log2 m : Int) + e
  if k > 8 then (if neg then tiny false else sticky false (fxOne - 1) 0)
  else
    let y := expNeg m e
    if neg then sticky false (fxDiv y (fxOne + y)) 0 else sticky false (fxDiv fxOne (fxOne + y)) 0

/-- f(x) of R342 with the fixed cases of R343 and the flags NV and DZ. -/
def sfuValue (fn : Nat) (v : FVal) : FVal × FFlags :=
  match v with
  | .nan => (.nan, {})
  | .inf neg =>
    match fn with
    | 0 => (.fin neg 0 0, {})
    | 1 => if neg then (.nan, { nv := true }) else (.fin false 0 0, {})
    | 2 | 4 | 6 => if neg then (.nan, { nv := true }) else (.inf false, {})
    | 3 | 5 => if neg then (.fin false 0 0, {}) else (.inf false, {})
    | 7 | 8 => (.nan, { nv := true })
    | 9 => (.fin neg 1 0, {})
    | _ => if neg then (.fin false 0 0, {}) else (.fin false 1 0, {})
  | .fin neg m e =>
    if m = 0 then
      match fn with
      | 0 | 1 => (.inf neg, { dz := true })
      | 2 | 7 | 9 => (.fin neg 0 0, {})
      | 4 | 6 => (.inf true, { dz := true })
      | 10 => (.fin false 1 (-1), {})
      | _ => (.fin false 1 0, {})
    else
      match fn with
      | 0 => (rcpE neg m e, {})
      | 1 => if neg then (.nan, { nv := true }) else (rsqrtE m e, {})
      | 2 => if neg then (.nan, { nv := true }) else (sqrtE m e, {})
      | 3 => (exp2E neg m e, {})
      | 4 => if neg then (.nan, { nv := true }) else (log2E m e, {})
      | 5 => (expE neg m e, {})
      | 6 =>
        if neg then (.nan, { nv := true })
        else if m = 2 ^ Nat.log2 m && (Nat.log2 m : Int) + e == 0 then (.fin false 0 0, {}) else (lnE m e, {})
      | 7 => (sinpiE neg m e, {})
      | 8 => (cospiE m e, {})
      | 9 => (tanhE neg m e, {})
      | _ => (sigmE neg m e, {})

/-- The rounded result of a special function. -/
def sfuRound (fn : Nat) (ta td : Fmt) (mode : Rm) (a : Nat) : Nat × FFlags :=
  let (v, f) := sfuValue fn (fval ta a)
  let (r, g) := roundTo td mode v
  (r, orFlags f g)

/-- The payloads of `sfu` (R327). -/
def sfuAccepts (p : Nat) : Bool := fpAccepts1 p

/-- Requests on the ring whose eight cycles of service are not over in cycle c (R344, log 14: DEDUCED). -/
def ringAt (t : Tile) (c : Nat) : List (Nat × Nat) := t.sfuRing.filter fun r => c < r.2 + 8

/-- `sfu` (R342-R344): the request joins the ring, or the thread parks for room; `.pk` waits for the result. -/
def sfu (fn : Nat) (d a : Reg) (w : BitVec 3) (np : BitVec 1) (t : BitVec 2) (s : State) :
    Host.Outcome State Fault Refusal :=
  issue { reads := [a], writes := [d], accepts := some sfuAccepts, wait := w.toNat } (fun vs s =>
    let tid := s.cur
    let x := thr s tid
    let c := cycOf s (cmptOf tid)
    let tl := tileOf tid
    let k := tile s tl
    let ring := ringAt k c
    if 64 ≤ ring.length || 4 ≤ (x.pend.filter fun p => p.sfu).length then (.park .sfuRoom, s)
    else
      let begins := match ring.getLast? with | some r => r.2 + 8 | none => c
      let s := setTile s tl { k with sfuRing := ring ++ [(tid, begins)] }
      let (ta, _, td) := typesOf t.toNat (pendingPfx x)
      let r := sfuRound fn ta td (rmOf x.rm) (arg vs 0).toNat
      let n := 40 + 8 * ring.length
      (if np = 1 then .done else .upTo (c + n), result s tid d (natWord r.1) n r.2 true true)) s

/-- sfu.rcp (R342): Special-function reciprocal request. -/
def execSfuRcp (d a : Reg) (w : BitVec 3) (p : BitVec 1) (t : BitVec 2) (s : State) := sfu 0 d a w p t s
/-- sfu.rsqrt (R342): Reciprocal square root request. -/
def execSfuRsqrt (d a : Reg) (w : BitVec 3) (p : BitVec 1) (t : BitVec 2) (s : State) := sfu 1 d a w p t s
/-- sfu.sqrt (R342): Square root request. -/
def execSfuSqrt (d a : Reg) (w : BitVec 3) (p : BitVec 1) (t : BitVec 2) (s : State) := sfu 2 d a w p t s
/-- sfu.exp2 (R342): Base-2 exponential request. -/
def execSfuExp2 (d a : Reg) (w : BitVec 3) (p : BitVec 1) (t : BitVec 2) (s : State) := sfu 3 d a w p t s
/-- sfu.log2 (R342): Base-2 logarithm request. -/
def execSfuLog2 (d a : Reg) (w : BitVec 3) (p : BitVec 1) (t : BitVec 2) (s : State) := sfu 4 d a w p t s
/-- sfu.exp (R342): Natural exponential request. -/
def execSfuExp (d a : Reg) (w : BitVec 3) (p : BitVec 1) (t : BitVec 2) (s : State) := sfu 5 d a w p t s
/-- sfu.ln (R342): Natural logarithm request. -/
def execSfuLn (d a : Reg) (w : BitVec 3) (p : BitVec 1) (t : BitVec 2) (s : State) := sfu 6 d a w p t s
/-- sfu.sinpi (R342): sin(πx) request. -/
def execSfuSinpi (d a : Reg) (w : BitVec 3) (p : BitVec 1) (t : BitVec 2) (s : State) := sfu 7 d a w p t s
/-- sfu.cospi (R342): cos(πx) request. -/
def execSfuCospi (d a : Reg) (w : BitVec 3) (p : BitVec 1) (t : BitVec 2) (s : State) := sfu 8 d a w p t s
/-- sfu.tanh (R342): Hyperbolic tangent request. -/
def execSfuTanh (d a : Reg) (w : BitVec 3) (p : BitVec 1) (t : BitVec 2) (s : State) := sfu 9 d a w p t s
/-- sfu.sigm (R342): Logistic sigmoid request. -/
def execSfuSigm (d a : Reg) (w : BitVec 3) (p : BitVec 1) (t : BitVec 2) (s : State) := sfu 10 d a w p t s

end Sys2Proof.Machine
end

