-- ==== Sys2Proof/Machine/Engine.lean ====
section
/-! DEFINITION. The grader, the noise generator and sampling reductions: majors 0x29 and 0x2B, GRADER_ACCEPT and
REDUCTION_COMBINE (R190-R199, R204, R205, R406-R408, R410-R414). -/

namespace Sys2Proof.Machine

/-! ## The grader (R204-R205, R406-R408) -/

/-- A set that a context may use: unbound is malformed, another context's is the partition fault. -/
def ownSet (s : State) (tid n : Nat) : Except Cause GradeSet :=
  match look (tile s (tileOf tid)).sets n with
  | none => .error .malformedStructure
  | some g => if g.ctx = (thr s tid).ctx then .ok g else .error .partition

/-- Write a set of a tile. -/
def setSet (s : State) (tl n : Nat) (g : GradeSet) : State :=
  let x := tile s tl
  setTile s tl { x with sets := put x.sets n g }

/-- `grd.cfg` (R204, R406). -/
def execGrdCfg (a b : Reg) (s : State) :=
  issue { reads := [a, b], effect := true } (fun vs s =>
    let tid := s.cur
    let t := thr s tid
    let n := (arg vs 0).toNat
    let k := (arg vs 1).toNat
    if 4 ≤ n || k = 0 || 256 < k then (.fault .malformedStructure 0, s)
    else if (look (tile s (tileOf tid)).sets n).any fun g => g.ctx != t.ctx then (.fault .partition 0, s)
    else (.done, setSet s (tileOf tid) n { ctx := t.ctx, launch := t.launch, k := k })) s

/-- A posted store that no home serves: it is acknowledged when an engine takes it (R407). -/
def engineStore (s : State) (tid : Nat) : Nat × State :=
  let t := thr s tid
  let (n, s) := newId s
  let a : Access :=
    { tid := tid, ctx := t.ctx, launch := t.launch, left := 1, dests := [], posted := true, covered := true, blocks := false
      far := false, lo := 0, size := 0, next := 0 }
  (n, { s with accs := put s.accs n a })

/-- `grd.in` (R407). -/
def execGrdIn (a b : Reg) (s : State) :=
  issue { reads := [a, b], effect := true } (fun vs s =>
    let tid := s.cur
    let tl := tileOf tid
    let n := (arg vs 0).toNat
    if 4 ≤ n then (.fault .malformedStructure 0, s)
    else match ownSet s tid n with
      | .error c => (.fault c 0, s)
      | .ok _ =>
        if orderHeld s tid [] false then (.park .order, s)
        else if 32 ≤ (tile s tl).gradeQ.length then (.park .grader, s)
        else
          let (i, s) := engineStore s tid
          let x := tile s tl
          (.done, setTile s tl { x with gradeQ := x.gradeQ ++ [(i, n, arg vs 1)] })) s

/-- Whether pair x stands before pair y (R204). -/
def better (x y : Word) : Bool :=
  let k (v : Word) : Nat := bits v.toNat 63 32
  let i (v : Word) : Nat := bits v.toNat 31 0
  k y < k x || (k x == k y && i x < i y)

/-- Insert a pair in order. -/
def insPair (x : Word) : List Word → List Word
  | [] => [x]
  | y :: ys => if better x y then x :: y :: ys else y :: insPair x ys

/-- GRADER_ACCEPT (R204, R407): the oldest pair enters its set and its access is acknowledged. (log 37: DESIGN CHOICE) -/
def graderAccept (tl : Nat) (s : State) : Option State :=
  let x := tile s tl
  match x.gradeQ with
  | [] => none
  | (i, n, v) :: rest =>
    let who := (look s.accs i).map (·.ctx)
    let sets := match look x.sets n with
      | some g =>
        if who = some g.ctx then put x.sets n { g with best := (insPair v g.best).take g.k, accepted := g.accepted + 1 } else x.sets
      | none => x.sets
    some { setTile s tl { x with gradeQ := rest, sets := sets } with accs := del s.accs i }

/-- The entries of a set as `grd.out` writes them (R204, R408). -/
def gradeBytes (g : GradeSet) : List Byte :=
  wordBytes ((g.best.map BitVec.toNat ++ List.replicate g.k 0xFFFF_FFFF).take g.k)

/-- `grd.out` (R408). -/
def gradeOut (fin : Bool) (d a b : Reg) (s : State) : Host.Outcome State Fault Refusal :=
  issue { reads := [a, b], writes := [d], effect := true } (fun vs s =>
    let tid := s.cur
    let tl := tileOf tid
    let n := (arg vs 0).toNat
    let va := arg vs 1
    if 4 ≤ n then (.fault .malformedStructure 0, s)
    else match ownSet s tid n with
      | .error c => (.fault c 0, s)
      | .ok g =>
        if va.toNat % 8 != 0 then (.fault .alignment va, s)
        else
          (ownStore s tid va (8 * g.k) .store .tier).run fun ps s =>
            if (tile s tl).gradeQ.any fun q => (look s.accs q.1).any fun x => x.tid == tid then (.park .grader, s)
            else (storeOwn s tid va ps (gradeBytes g)).run fun _ s =>
              let x := tile s tl
              let s := if fin then setTile s tl { x with sets := del x.sets n } else s
              (.done, result s tid d (natWord g.best.length) 1)) s

/-- grd.out.keep (R408): Write the set's top-k to memory and keep the set. -/
def execGrdOutKeep (d a b : Reg) (s : State) := gradeOut false d a b s
/-- grd.out.fin (R408): Write the set's top-k and free the set. -/
def execGrdOutFin (d a b : Reg) (s : State) := gradeOut true d a b s

/-! ## Noise and sampling (R195-R197, R410, R411) -/

/-- The finaliser of R195. -/
def mix (z : BitVec 64) : BitVec 64 :=
  let z := z ^^^ (z >>> 31)
  let z := z * 0xD6E8_FEB8_6659_FD93
  let z := z ^^^ (z >>> 29)
  let z := z * 0xA3B1_9535_4A39_B70D
  z ^^^ (z >>> 32)

/-- R195: sequence, position and index are 32-bit numbers. -/
def noiseBits (seed : Word) (sq pos v : Nat) : Word :=
  let h := mix (seed ^^^ 0x5C4E_2B17_93D1_A6F3)
  let h := mix (h ^^^ natWord sq)
  mix (h ^^^ natWord (pos * 2 ^ 32 + v))

/-- R195: −ln(−ln u) with u = (h[63:40] + 0.5) / 2^24, rounded to f32. -/
def noiseGumbel (seed : Word) (sq pos v : Nat) : Nat :=
  let h := bits (noiseBits seed sq pos v).toNat 63 40
  match (lnE (2 * h + 1) (-25)).neg with
  | .fin _ m e => (roundTo f32 .nearest (lnE m e).neg).1
  | x => (roundTo f32 .nearest x).1

/-- The seed that a thread's noise uses (R196, R416): the one its launch captured. -/
def seedOf (s : State) (t : Thread) : Word :=
  match launchOf s t.launch with
  | some l => l.seed
  | none => (ctx s t.ctx).seed

/-- z of R197, the cases of its table first. (log 38: DEDUCED) -/
def perturbed (greedy : Bool) (l v : FVal) (noise : Nat) : Nat :=
  let positive := match v with | .fin false (_ + 1) _ => true | _ => false
  let above := match v with | .inf false => true | _ => positive
  let z : FVal :=
    if l == .nan then .nan
    else if l == .inf true then .inf true
    else if l == .inf false && above then .inf false
    else if !positive then .nan
    else if greedy then (fmulE l v).1
    else (sumE [(fmulE l v).1, fval f32 noise] false).1
  (roundTo f32 .nearest z).1

/-- `gnz` (R410). -/
def execGnz (d a b : Reg) (e g : BitVec 1) (s : State) :=
  issue { reads := [a, b, regNext b], writes := [d, regNext d] } (fun vs s =>
    let tid := s.cur
    let t := thr s tid
    let va := (arg vs 0).toNat
    let vb := (arg vs 1).toNat
    let vs2 := (arg vs 2).toNat
    let v := bits va 63 32
    if 2 ^ 32 ≤ vs2 then (.fault .malformedStructure 0, s)
    else
      let l := fval f32 (bits va 31 0)
      let z := perturbed (g == 1) l (fval f32 vs2) (noiseGumbel (seedOf s t) (bits vb 31 0) (bits vb 63 32) v)
      let nan := fval f32 z == .nan
      let ex := e == 1 || nan || fval f32 z == .inf true
      let x := if ex then 0xFFFF_FFFF else orderKey 8 false (natWord z) * 2 ^ 32 + v
      let s := result (result s tid d (natWord x) 24) tid (regNext d) (natWord (bitAt nan 1 + bitAt ex 0)) 24
      (.upTo (cycOf s (cmptOf tid) + 24), s)) s

/-- `rng` (R411). -/
def execRng (d a b : Reg) (s : State) :=
  issue { reads := [a, b], writes := [d] } (fun vs s =>
    let va := (arg vs 0).toNat
    let vb := (arg vs 1).toNat
    if 2 ^ 32 ≤ vb then (.fault .malformedStructure 0, s)
    else (.done, result s s.cur d (noiseBits (seedOf s (thr s s.cur)) (bits va 31 0) (bits va 63 32) vb) 8)) s

/-! ## Reductions (R190-R193, R412-R414) -/

/-- `smp.inj` (R412). -/
def execSmpInj (a b : Reg) (s : State) :=
  issue { reads := [a, b, regNext b], effect := true } (fun vs s =>
    let tid := s.cur
    let t := thr s tid
    let d := (arg vs 0).toNat
    let v := (arg vs 1).toNat
    let f := (arg vs 2).toNat
    let op := bits d 63 60
    let pkg := bits d 59 54
    let rem := bit d 53
    let own := bits d 52 39
    if 6 < op || (!rem && pkg != 0) || bits d 38 28 != 0 || 4 ≤ f then (.fault .malformedStructure 0, s)
    else
      let away := rem && pkg != s.pkg
      let dest := if away then (if own < Config.remoteCores t.ctx pkg then some (awayCore pkg own) else none) else physCore s tid own
      match dest with
      | none => (.fault .partition 0, s)
      | some c =>
        if !sendRoom s (coreOf tid) then (.park .combineRoom, s)
        else
          let ex := op == 0 && bit f 0
          let r : RedPacket :=
            { key := if ex then 0 else BitVec.ofNat 32 (v / 2 ^ 32), idx := if ex then 0xFFFF_FFFF#32 else BitVec.ofNat 32 v
              cnt := 1, cand := !ex, nan := bit f 1, op := op, red := bits d 27 0 }
          (.done, enqueue s tid .request [(.red r own (if away then pkg else s.pkg) t.launch, c)])) s

/-- The reduction of a number at a core. -/
def redOf (k : Core) (red : Nat) : Option Reduction := k.reds.find? fun r => r.red == red

/-- Replace a reduction. -/
def setRed (k : Core) (r : Reduction) : Core := { k with reds := k.reds.map fun x => if x.red = r.red then r else x }

/-- Whether a result is final (R192). -/
def Reduction.final (r : Reduction) : Bool := match r.acc with | some p => r.n ≤ p.cnt | none => false

/-- `smp.res.cfg` (R413). -/
def execSmpResCfg (d a b : Reg) (s : State) :=
  issue { reads := [a, b], writes := [d], effect := true } (fun vs s =>
    let tid := s.cur
    let v := (arg vs 0).toNat
    let va := arg vs 1
    let red := bits v 27 0
    let op := bits v 63 60
    if bits v 59 28 != 0 || 6 < op then (.fault .malformedStructure 0, s)
    else if va.toNat % 32 != 0 then (.fault .alignment va, s)
    else
      (ownWords s tid va 4 .tier).run fun ws s =>
        let w (i : Nat) : Nat := cw ws i
        let k := core s (coreOf tid)
        let t := thr s tid
        if bits (w 0) 63 40 = 0 || bits (w 0) 27 0 != 0 || 2 ^ 32 ≤ w 1 || w 3 != 0 || (redOf k red).isSome then
          (.fault .malformedStructure 0, s)
        else if (receivers s tid (w 1) (bits (w 0) 36 28) false).isNone
            || (List.range 64).any (fun p => bit (w 2) p && p != s.pkg && Config.remoteCores t.ctx p == 0) then
          (.fault .partition 0, s)
        else if 16 ≤ k.reds.length then (.park .reduction, s)
        else
          let s := nextSeq s tid
          let seq := (thr s tid).sendSeq
          let r : Reduction :=
            { red := red, op := op, n := bits (w 0) 63 40, bc := bit (w 0) 39, prio := bits (w 0) 38 37, k := bits (w 0) 36 28
              cmask := w 1, pmask := w 2, stid := logicalTid s tid, seq := seq, ctx := t.ctx, launch := t.launch }
          let k := core s (coreOf tid)
          (.done, result (setCore s (coreOf tid) { k with reds := k.reds ++ [r] }) tid d (seq.setWidth 64) 1)) s

/-- The two result words (R414). -/
def redWords (r : Reduction) (p : RedPacket) : Nat × Nat :=
  let none_ := r.final && !p.cand
  (if none_ then 0xFFFF_FFFF else p.key.toNat * 2 ^ 32 + p.idx.toNat,
   min p.cnt 0xFF_FFFF * 2 ^ 40 + bitAt p.cand 39 + bitAt p.nan 38 + bitAt r.mis 37 + bitAt none_ 36 + bitAt r.final 35)

/-- An entry is released once a final result has been read and every copy has left the send queue (R413, R414). -/
def freeRed (k : Core) (red : Nat) : Core :=
  { k with reds := k.reds.filter fun r => !(r.red == red && r.read && r.final && r.copies == 0) }

/-- `smp.res` (R414). With no packet taken yet the value is open (log 28: DESIGN CHOICE). -/
def redRead (wait : Bool) (d a : Reg) (s : State) : Host.Outcome State Fault Refusal :=
  issue { reads := [a], writes := [d, regNext d], effect := true } (fun vs s =>
    let tid := s.cur
    let c := coreOf tid
    let v := (arg vs 0).toNat
    match redOf (core s c) (v % 2 ^ 28) with
    | none => (.fault .malformedStructure 0, s)
    | some r =>
      if wait && !r.final then (.park .reduction, s)
      else
        let (x, y, s) : Nat × Nat × State := match r.acc with
          | some p => ((redWords r p).1, (redWords r p).2, s)
          | none =>
            let (o, s) := openWord s
            (o.toNat, bitAt r.mis 37, s)
        let s := if r.final then setCore s c (freeRed (setRed (core s c) { r with read := true }) r.red) else s
        let s := if wait then acquireNow s tid else s
        (.done, result (result s tid d (natWord x) 1) tid (regNext d) (natWord y) 1)) s

/-- smp.res.w (R414): Wait for and read a final reduction result as an acquire. -/
def execSmpResW (d a : Reg) (s : State) := redRead true d a s
/-- smp.res.nw (R414): Read a reduction result as it stands. -/
def execSmpResNw (d a : Reg) (s : State) := redRead false d a s

/-- The value of an op of R191 on two 64-bit values. -/
def redOp (op : Nat) (x y : BitVec 64) : BitVec 64 :=
  match op with
  | 1 => x + y
  | 2 => if y.slt x then y else x
  | 3 => if x.slt y then y else x
  | 4 => x &&& y
  | 5 => x ||| y
  | _ => x ^^^ y

/-- Combine two packets of one op (R191). -/
def combine (p q : RedPacket) : RedPacket :=
  let cnt := min (p.cnt + q.cnt) 0xFF_FFFF
  let nan := p.nan || q.nan
  if p.op = 0 then
    if !p.cand && !q.cand then { p with cnt := cnt, nan := nan, cand := false, key := 0, idx := 0xFFFF_FFFF#32 }
    else if !q.cand || (p.cand && (q.key < p.key || (p.key == q.key && p.idx < q.idx))) then { p with cnt := cnt, nan := nan, cand := true }
    else { p with cnt := cnt, nan := nan, cand := true, key := q.key, idx := q.idx }
  else
    let v := redOp p.op (p.key ++ p.idx) (q.key ++ q.idx)
    { p with cnt := cnt, nan := nan, cand := p.cand || q.cand, key := v.extractLsb' 32 32, idx := v.extractLsb' 0 32 }

/-- The copies of a final result: the landing message and its receivers (R413). -/
def redCopies (s : State) (c : Nat) (r : Reduction) (p : RedPacket) : List (Body × Nat) :=
  let (x, y) := redWords r p
  let msg (dest : Nat) : Body :=
    .msg { tgt := 1, prio := r.prio, len := 16, dest := dest, mcast := false, pkg := s.pkg, pc := 0, ctx := r.ctx, launch := r.launch
           stid := r.stid, seq := r.seq, data := wordBytes [x, y] }
  let cs := cmptsOf s ((cmpt s (cmptOfCore c)).part.getD 0)
  let masked := (List.range 32).filter fun i => bit r.cmask i
  let here := if r.pmask = 0 || bit r.pmask s.pkg then masked.filterMap fun i => (cs[i]?).map fun k => k * 512 + r.k else []
  let there := ((List.range 64).filter fun q => bit r.pmask q && q != s.pkg).flatMap fun q =>
    masked.map fun i => awayCore q (i * 512 + r.k)
  (here ++ there).map fun dest => (msg dest, dest)

/-- Broadcast copies enter the core's send queue while it has room (R146, R413). -/
def feedCopies (k : Core) : Core :=
  k.reds.foldl (fun k r =>
    let n := 16 - k.sendQ.length
    if r.owed.isEmpty || n = 0 then k
    else
      let k := setRed k { r with owed := r.owed.drop n }
      { k with sendQ := k.sendQ ++ (r.owed.take n).map fun b =>
          { tid := none, ctx := r.ctx, bodies := [b], cls := .dispatch, before := 0, launch := r.launch, bcast := some r.red } }) k

/-- The owner's combining unit takes a packet (R192, R413): it combines it or discards it, and a result that becomes final
is broadcast through the send queue. One that is final combines further packets of its op until it is released (log 28: DESIGN CHOICE). -/
def ownerTakes (s : State) (c : Nat) (p : RedPacket) : State :=
  let k := core s c
  match redOf k p.red with
  | none => scale s (cmptOfCore c) 0x08 1
  | some r =>
    if r.op != p.op then setCore s c (setRed k { r with mis := true })
    else
      let r' := { r with acc := some (match r.acc with | some q => combine q p | none => p) }
      if r'.final && !r.final && r'.bc then
        let copies := redCopies s c r' (r'.acc.getD p)
        setCore s c (feedCopies (setRed k { r' with copies := copies.length, owed := copies }))
      else setCore s c (setRed k r')

/-- REDUCTION_COMBINE (R191-R193): two packets that meet on the way to one owner combine when `other` names another packet,
and otherwise the owner takes the packet. -/
def reductionCombine (n m : Nat) (s : State) : Option State :=
  match look s.packets n with
  | some p =>
    match p.body with
    | .red r own pkg l =>
      if n = m then
        if p.stage == .ready then
          let s := tick s (cmptOfCore p.core) (p.time + 1)
          some (countRecv (ownerTakes { s with packets := del s.packets n } p.core r) p.core l r.cnt)
        else none
      else match look s.packets m with
        | some p' => match p'.body with
          | .red r' own' pkg' l' =>
            if own = own' && pkg = pkg' && p.core = p'.core && l = l' && r.op = r'.op && r.red = r'.red
                && r.cnt + r'.cnt ≤ 0xFF_FFFF && p.stage != .sending && p'.stage != .sending then
              some { s with packets := put (del s.packets m) n { p with body := .red (combine r r') own pkg l } }
            else none
          | _ => none
        | none => none
    | _ => none
  | none => none

/-- GRADER_ACCEPT (R204): The grader accepts one pair per cycle from the tile's input queue into its selection set. -/
def execGraderAccept (tl : Nat) (s : State) := event (graderAccept tl) s
/-- REDUCTION_COMBINE (R192): A router or the owner's combining unit takes a reduction packet and combines it, discards it or forwards it. -/
def execReductionCombine (n m : Nat) (s : State) := event (reductionCombine n m) s

end Sys2Proof.Machine
end

