-- ==== Sys2Proof/Machine/Net.lean ====
section
/-! DEFINITION. Majors 0x25 and 0x26: the net machine's allocation, relinking and reading (R164-R182, R393-R399). `link`,
`nfree` and `pref` run step by step, each access of theirs an access in flight (log 11: DEDUCED). -/

namespace Sys2Proof.Machine

/-! ## Port words (R166) -/

/-- The tag. -/
def tagOf (w : Word) : Nat := bits w.toNat 63 61
/-- The address of a node port or a cell. -/
def bodyOf (w : Word) : Word := w &&& 0x000F_FFFF_FFFF_FFFF
/-- PRI, AUX1 or AUX2. -/
def isNode (w : Word) : Bool := tagOf w == 1 || tagOf w == 2 || tagOf w == 3
/-- AUX1 or AUX2. -/
def isAux (w : Word) : Bool := tagOf w == 2 || tagOf w == 3
/-- SPLICE. -/
def isSplice (w : Word) : Bool := tagOf w == 4
/-- NUM, ERA or REF. -/
def isNullary (w : Word) : Bool := 5 ≤ tagOf w
/-- Whether the body holds no reserved bit; HOLE and ERA have an empty body. -/
def bodyGood (w : Word) : Bool :=
  let v := w.toNat
  match tagOf w with
  | 0 | 6 => bits v 60 0 == 0
  | 5 => true
  | 7 => bits v 60 32 == 0
  | _ => bits v 60 52 == 0
/-! ## Places of nodes and cells (R167) -/

/-- The checks of R167 on a translated address, and then those of R308 for an access of kind `k`, if one is made there. (log 47: DEDUCED) -/
def netLeaf (s : State) (tid : Nat) (k : Option AccKind) (va : Word) (n : Nat) (l : Leaf) : Except Cause Piece :=
  let w := asker s tid
  let q : Slice × Leaf := ((va.toNat, n, 0), l)
  match placeOf (l.pa + (va.toNat - l.va)) with
  | .store _ _ =>
    if l.ord == .uo then .error .kind
    else if k.any fun k => forbids w.prv k l then .error .permission
    else if leafFails s w .load false false .partition q then .error .partition
    else .ok (pieceOf q)
  | _ => .error .netAddress

/-- A node or cell address in code that runs untranslated (R29). -/
def netBare (s : State) (va : Word) (n : Nat) : Except Cause Piece :=
  match placeOf va.toNat with
  | .store _ _ => .ok ⟨s.pkg, va.toNat, n, 0, none, .rc⟩
  | _ => .error .netAddress

/-- The place of a node (32 bytes) or a cell (8 bytes); its alignment is looked at before its translation, as R308 does. (log 47: DEDUCED) -/
def netPiece (s : State) (tid : Nat) (k : Option AccKind) (va : Word) (n : Nat) : Res Piece :=
  let t := thr s tid
  let give (r : Except Cause Piece) : Res Piece := match r with | .error c => .stop (.fault c va) s | .ok p => .ok p s
  if 2 ^ 52 ≤ va.toNat then .stop (.fault .addressForm va) s
  else if va.toNat % n != 0 then .stop (.fault .netAddress va) s
  else if t.prv == .f then give (netBare s va n)
  else match cached s (tileOf tid) t.ctx va.toNat with
    | none => .stop (.park .walk) (startWalk s tid va.toNat va)
    | some l => give (netLeaf s tid k va n l)

/-- The check of R167 on what a port word names. -/
def portPlace (s : State) (tid : Nat) (w : Word) : Res Unit :=
  if isNode w then (netPiece s tid none (bodyOf w) 32).bind fun _ s => .ok () s
  else if isSplice w then (netPiece s tid none (bodyOf w) 8).bind fun _ s => .ok () s
  else .ok () s

/-! ## The accesses of an instruction under way -/

/-- Set the next step of an instruction under way. -/
def setNet (s : State) (tid : Nat) (x : NetStep) : State :=
  let t := thr s tid
  setThr s tid { t with net := t.net.map fun r => { r with step := x, got := none } }

/-- An access of an instruction under way to 8 bytes; `ar` makes it an acquire and a release. -/
def netAsk (k : AccKind) (ar : Bool) (va : Word) (op : ReqOp) : Ask :=
  { kind := k, acq := ar, rel := ar, va := va, size := 8, op := fun _ _ => op, next := 0, agent := .net }

/-- Store a word, posted (R172). -/
def netStore (s : State) (tid : Nat) (p : Piece) (va v : Word) : Res Unit :=
  let q := netAsk .store false va (.write v.toNat)
  match accessWait s tid q [p] with
  | some w => .stop (.park w) s
  | none => .ok () (addAccess s tid q [p] true).2

/-- Send an atomic to its home, whose reply the step `x` takes (R68, R172). -/
def netAtomic (s : State) (tid : Nat) (ar : Bool) (p : Piece) (va : Word) (op : ReqOp) (x : NetStep) : Res Unit :=
  let q := netAsk .atomic ar va op
  match accessWait s tid q [p] with
  | some w => .stop (.park w) s
  | none => .ok () (setNet (addAccess (countAccess s (cmptOf tid) [p] false) tid q [p] false).2 tid x)

/-- The same at a cell. -/
def cellAtomic (s : State) (tid : Nat) (c : Word) (op : ReqOp) (x : NetStep) : Res Unit :=
  (netPiece s tid (some .atomic) c 8).bind fun p s => netAtomic s tid true p c op x

/-- `point` of R170: write a word into the slot that a port names. -/
def point (s : State) (tid : Nat) (w v : Word) : Res Unit :=
  if isNode w then
    (netPiece s tid (some .store) (bodyOf w) 32).bind fun p s =>
      let o := 8 * tagOf w
      netStore s tid { p with pa := p.pa + o, len := 8 } (bodyOf w + natWord o) v
  else .ok () s

/-! ## Pools (R181, R182) -/

/-- The next block of a pool and the pool without it (R182). -/
def takeBlock (p : Pool) (size : Nat) : Option (Nat × Pool) :=
  match p.freed with
  | b :: bs => some (b, { p with freed := bs })
  | [] => if p.next + size ≤ p.hi then some (p.next, { p with next := p.next + size }) else none

/-- The block that the issuing core hands out to a thread: its offset, and the state without it. A thread under no launch has no pool, and
takes net-pool as with an empty one (log 48: DESIGN CHOICE). -/
def allocBlock (s : State) (tid : Nat) (node : Bool) : Option (Nat × State) :=
  match (thr s tid).launch with
  | none => none
  | some l =>
    match takeBlock (poolOf s (coreOf tid) l node) (if node then 32 else 8) with
    | none => none
    | some (b, p) => some (b, setPool s (coreOf tid) l node p)

/-- The virtual address of a block of the issuing core (R393). -/
def blockAddr (s : State) (tid off : Nat) : Word :=
  natWord ((ctx s (thr s tid).ctx).v0 + logicalTid s tid / 16 * 0x8000 + off)

/-- `release_cell` (R170, R181): a cell outside every pool is left holding HOLE. -/
def releaseCell (s : State) (tid : Nat) (c : Word) : Res Unit :=
  (netPiece s tid (some .store) c 8).bind fun p s =>
    let l := (thr s tid).launch
    if (pooled s l p.pkg p.pa false).isSome then .ok () (giveBlock s l p.pkg p.pa false) else netStore s tid p c 0

/-! ## Pairs (R175) -/

/-- The pair record of two ends: the anchor first. -/
def pairRecord (s : State) (tid : Nat) (a b : Word) : PairRec :=
  let t := thr s tid
  if isNullary b || (bodyOf a).toNat ≤ (bodyOf b).toNat then ⟨a, b, t.ctx, t.launch⟩ else ⟨b, a, t.ctx, t.launch⟩

/-- Where the queue of a physical address's home core is. -/
def homeCore (s : State) (pkg pa : Nat) : Option Nat :=
  match placeOf pa with
  | .store c _ => if pkg = s.pkg then some c else some (awayCore pkg c)
  | _ => none

/-- `push_pair` (R175): the record leaves through the send queue towards the anchor's core; while the queue and the ring there
are full the thread waits. It goes after every covered access that the thread has made (R121). -/
def pushPair (s : State) (tid : Nat) (a b : Word) : Res Unit :=
  let r := pairRecord s tid a b
  if releaseHeld s tid then .stop (.park .order) s
  else if !sendRoom s (coreOf tid) then .stop (.park .sendRoom) s
  else
    (netPiece s tid none (bodyOf r.anchor) 32).bind fun p s =>
      match homeCore s p.pkg p.pa with
      | some c =>
        if c < 65536 && !pairRoom s c r.launch then .stop (.park .overflow) s
        else .ok () (enqueue s tid .dispatch [(.pair r, c)])
      | none => .ok () s

/-! ## Relinking (R170) -/

/-- SPLICE of a cell. -/
def spliceOf (c : Word) : Word := 0x8000_0000_0000_0000 ||| c

/-- What the loop of `splice_link` does with the word that the exchange at a's cell gave (R170). -/
def afterSwap (a b w : Word) : NetStep :=
  let c := bodyOf a
  let stay : NetStep := if isAux b then .cas c b else .last 0
  if tagOf w = 0 then stay
  else if isSplice w then .release c w b false
  else if isAux w then stay
  else if isSplice b then .release c b w false
  else .release c w b true

/-- The ends of the pair that `join` pushes, if it pushes one (R170). -/
def joinPair (a b : Word) : Option (Word × Word) :=
  if tagOf a = 1 && (tagOf b = 1 || isNullary b) then some (a, b)
  else if tagOf b = 1 && isNullary a then some (b, a)
  else none

/-- One step of an instruction under way (R170, R394, R395, R399). `d` takes its result. -/
def netStep (s : State) (tid : Nat) (d : Reg) (r : NetRun) : Res Unit :=
  let go (x : NetStep) (s : State) : Res Unit := .ok () (setNet s tid x)
  let give (s : State) (v : Word) : Res Unit :=
    let s := setThr s tid { thr s tid with net := none }
    .stop .done (result (acquireNow s tid) tid d v 1)
  match r.step, r.got with
  | .enter a b, _ => if isSplice a then (point s tid b a).bind fun _ => go (.swap a b) else go (.join a b) s
  | .swap a b, _ => cellAtomic s tid (bodyOf a) (.amo 8 b.toNat) (.swapped a b)
  | .swapped a b, some w => go (afterSwap a b w) s
  | .cas c b, _ => cellAtomic s tid c (.cas b.toNat 0) .casDone
  | .casDone, some _ => go (.last 0) s
  | .release c a b joins, _ => (releaseCell s tid c).bind fun _ => go (if joins then .join a b else .enter a b)
  | .join a b, _ =>
    if isAux a && isAux b then
      match allocBlock s tid false with
      | none => .stop (.fault .netPool 0) s
      | some (off, s') =>
        let c := blockAddr s tid off
        (netPiece s tid (some .store) c 8).bind fun _ _ => go (.cell a b c 0) s'
    else (point s tid a b).bind fun _ => go (.back a b)
  | .back a b, _ =>
    (point s tid b a).bind fun _ => go (match joinPair a b with
      | some (x, y) => .push x y
      | none => .last (if isNullary a && isNullary b then 3 else 1))
  | .push a b, _ => (pushPair s tid a b).bind fun _ => go (.last 2)
  | .cell a b c n, _ =>
    (match n with
      | 0 => (netPiece s tid (some .store) c 8).bind fun p s => netStore s tid p c 0
      | 1 => point s tid a (spliceOf c)
      | _ => point s tid b (spliceOf c)).bind fun _ => go (if n < 2 then .cell a b c (n + 1) else .last 4)
  | .last v, _ => if releaseHeld s tid then .stop (.park .net) s else give s (natWord v)
  | .freed, some h =>
    if bits h.toNat 63 56 = 0 then .stop (.fault .netMalformed 0) s
    else .stop .done (setThr s tid { thr s tid with net := none })
  | .counted up, some old =>
    match counted up old.toNat with
    | none => .stop (.fault .netMalformed 0) s
    | some _ => give s old
  | .swapped _ _, none | .casDone, none | .freed, none | .counted _, none => .stop (.park .net) s

/-- The steps of an instruction under way, up to one that must wait; but for a walk, it waits between the thread's turns. -/
def netRun : Nat → State → Nat → Reg → Eff × State
  | 0, s, _, _ => (.park .net, s)
  | n + 1, s, tid, d =>
    match (thr s tid).net with
    | none => (.done, s)
    | some r =>
      match netStep s tid d r with
      | .ok _ s => netRun n s tid d
      | .stop (.park .walk) s => (.park .walk, s)
      | .stop (.park _) s => (.park .net, s)
      | .stop e s => (e, s)

/-- Change the next state of a step. -/
def mapNext (f : State → State) : Host.Outcome State Fault Refusal → Host.Outcome State Fault Refusal
  | .next s => .next (f s)
  | r => r

/-- Issue an instruction that runs step by step: `start` gives its first step, or makes its first access. Its operands are read once.
A thread that `tkill` has named is killed when the instruction is over (R417). -/
def netIssue (reads : List Reg) (writes : List Reg) (d : Reg) (start : List Word → State → Res NetStep) (s : State) :
    Host.Outcome State Fault Refusal :=
  let t := thr s s.cur
  let under := t.net.isSome
  let closed (u : State) : State := if (thr u s.cur).doomed && (thr u s.cur).net.isNone then killPair u s.cur else u
  mapNext closed <| issue { reads := if under then [] else reads, writes := writes, effect := true } (fun vs s =>
    let tid := s.cur
    if under then netRun 16 s tid d
    else (start vs s).run fun x s => netRun 16 (setThr s tid { thr s tid with net := some ⟨x, none, t.streams⟩ }) tid d) s

/-- Whether a port word may be passed to `link` (R395). -/
def linkable (w : Word) : Bool := tagOf w != 0 && bodyGood w

/-- `link` (R395): the exchange order of `splice_link` begins with an end in a cell, if there is one. -/
def execLink (d a b : Reg) (s : State) :=
  netIssue [a, b] [d] d (fun vs s =>
    let tid := s.cur
    let x := arg vs 0
    let y := arg vs 1
    if !linkable x || !linkable y then .stop (.fault .netMalformed 0) s
    else
      (portPlace s tid x).bind fun _ s => (portPlace s tid y).bind fun _ s =>
        .ok (if !isSplice x && isSplice y then .enter y x else .enter x y) s) s

/-- `pair` (R396). -/
def execPair (a b : Reg) (s : State) :=
  issue { reads := [a, b], effect := true } (fun vs s =>
    let tid := s.cur
    let x := arg vs 0
    let y := arg vs 1
    if tagOf x != 1 || !(tagOf y == 1 || isNullary y) || !bodyGood x || !bodyGood y then (.fault .netMalformed 0, s)
    else
      (portPlace s tid x).run fun _ s => (portPlace s tid y).run fun _ s =>
        (pushPair s tid x y).run fun _ s => (.done, s)) s

/-! ## Allocation and reading -/

/-- `nalloc` (R393). -/
def execNalloc (d : Reg) (s : State) :=
  issue { writes := [d], effect := true } (fun _ s =>
    let tid := s.cur
    match allocBlock s tid true with
    | none => (.fault .netPool 0, s)
    | some (off, s') =>
      let va := blockAddr s tid off
      let q : Ask := { kind := .store, va := va, size := 32, op := fun _ _ => .write 0, next := nextPc s 4 }
      (netPiece s tid (some .store) va 32).run fun p s1 =>
        match accessWait s1 tid q [p] with
        | some w => (.park w, s1)
        | none => (.done, result (addAccess s' tid q [p] true).2 tid d va 1)) s

/-- `nfree` (R394). -/
def execNfree (a : Reg) (s : State) :=
  netIssue [a] [] 0 (fun vs s =>
    let tid := s.cur
    (netPiece s tid (some .atomic) (arg vs 0) 32).bind fun p s =>
      (netAtomic s tid false { p with len := 8 } (arg vs 0) .free .freed).bind fun _ s => .ok .freed s) s

/-- `nread` (R397): four plain loads that never migrate. -/
def execNread (d a : Reg) (s : State) :=
  issue { reads := [a], writes := regsFrom d 4, load := true } (fun vs s =>
    let tid := s.cur
    let va := arg vs 0
    (netPiece s tid (some .load) va 32).run fun p s =>
      issueAccess s tid
        { kind := .load, va := va, size := 32, op := fun _ _ => .read
          dests := (List.range 4).map fun i => ⟨d + BitVec.ofNat 5 i, 8 * i, 8, false⟩, next := nextPc s 4 } [p]) s

/-- `nhdr` (R398): one exchange of the header. -/
def execNhdr (d a b : Reg) (s : State) :=
  issue { reads := [a, b], writes := [d], effect := true } (fun vs s =>
    let tid := s.cur
    let va := arg vs 0
    let h := (arg vs 1).toNat
    let c := bits h 63 56
    if c = 0 || (2 ≤ c && c < 16) || bits h 51 50 == 3 || bits h 49 48 == 3 then (.fault .netMalformed 0, s)
    else
      (netPiece s tid (some .atomic) va 32).run fun p s =>
        issueAccess s tid
          { kind := .atomic, va := va, size := 8, op := fun _ _ => .amo 8 h, dests := [⟨d, 0, 8, false⟩]
            next := nextPc s 4 } [{ p with len := 8 }]) s

/-- `pref` (R399): one atomic on the reference count, acting as `.ar`. -/
def pref (up : Bool) (d a : Reg) (s : State) : Host.Outcome State Fault Refusal :=
  netIssue [a] [d] d (fun vs s =>
    let tid := s.cur
    let h := (arg vs 0).toNat
    if 2 ^ 40 ≤ h then .stop (.fault .malformedStructure 0) s
    else
      let q := netAsk .atomic true (natWord (h * 64)) (.count up)
      (checkAsk s tid q).bind fun ps s =>
        match accessWait s tid q ps with
        | some w => .stop (.park w) s
        | none => .ok (.counted up) (addAccess (countAccess s (cmptOf tid) ps false) tid q ps false).2) s

/-- pref.inc (R399): Atomically increment a payload refcount. -/
def execPrefInc (d a : Reg) (s : State) := pref true d a s
/-- pref.dec (R399): Atomically decrement a payload refcount. -/
def execPrefDec (d a : Reg) (s : State) := pref false d a s

end Sys2Proof.Machine
end

