-- ==== Sys2Proof/Machine/System.lean ====
section
/-! DEFINITION. Majors 0x30 to 0x33: traps, state registers, privileged instructions and time reads
(R54, R222-R225, R230, R253-R256, R415-R422). -/

namespace Sys2Proof.Machine

/-! ## Traps (R222, R223, R415) -/

/-- trap (R415): Take the trap of cause 0x22. -/
def execTrap (a : Reg) (s : State) := issue { reads := [a] } (fun vs s => (.call .trap (arg vs 0), s)) s
/-- sysc (R415): System call, cause 0x21. -/
def execSysc (a : Reg) (s : State) := issue { reads := [a] } (fun vs s => (.call .systemCall (arg vs 0), s)) s

/-- `tret` (R275, R415): PPRV must name a level that the thread may return to, and TEPC an even address. -/
def execTret (s : State) :=
  issue { prv := .s } (fun _ s =>
    let t := thr s s.cur
    match prvOf t.pprv with
    | none => (.fault .privilege 0, s)
    | some p =>
      if p == .f && t.prv != .f then (.fault .privilege 0, s)
      else if t.tepc.getLsbD 0 then (.fault .alignment t.tepc, s)
      else (.jump t.tepc, setThr s s.cur (trapReturn t p))) s

/-! ## State registers (R253, R416) -/

/-- The privilege that a read of a state register needs (R253). -/
def readPrv (r : Nat) : Prv := if 5 ≤ r ∧ r ≤ 8 then .s else .u

/-- The privilege that a write of a state register needs (R253); a write to an RO register is ignored. -/
def writePrv (r : Nat) : Prv := if r = 0 ∨ (4 ≤ r ∧ r ≤ 8) ∨ r = 10 then .s else .u

/-- A state register (R253). No number reads the translation root of R42. (log 33: DEDUCED) -/
def stateReg (s : State) (tid r : Nat) : Word :=
  let t := thr s tid
  match r with
  | 0 => natWord (tsWord t)
  | 1 => natWord (fpcWord t)
  | 2 => natWord (logicalTid s tid)
  | 3 => t.wsp
  | 4 => natWord (wcw t)
  | 5 => (ctx s t.ctx).tvb
  | 6 => t.tca.setWidth 64
  | 7 => t.tepc
  | 8 => t.tval
  | 9 => natWord (crewWord t)
  | 10 => seedOf s t
  | _ => natWord (cycOf s (cmptOf tid))

/-- Write a state register (R253, R416). (log 33: DEDUCED) -/
def setStateReg (s : State) (tid r : Nat) (v : Word) : State :=
  let t := thr s tid
  match r with
  | 0 => setThr s tid (writeTs t v.toNat)
  | 1 => setThr s tid (writeFpc t v.toNat)
  | 3 => setThr s tid { t with wsp := wspMask v }
  | 4 => setThr s tid { t with depth := v.extractLsb' 32 32, olive := v.getLsbD 1 }
  | 5 => setCtx s t.ctx { ctx s t.ctx with tvb := tvbMask v }
  | 6 => setThr s tid { t with tca := v.setWidth 8 }
  | 7 => setThr s tid { t with tepc := v }
  | 8 => setThr s tid { t with tval := v }
  | 10 => setCtx s t.ctx { ctx s t.ctx with seed := v }
  | _ => s

/-- FPC waits for the flags of pending results, but for those of the special-function unit (R255, R325, R344). -/
def fpcPending (t : Thread) : Bool := t.pend.any fun p => p.fp && !p.sfu

/-- `srd` (R416). -/
def execSrd (d : Reg) (r : BitVec 7) (s : State) :=
  issue { writes := [d], prv := readPrv r.toNat } (fun _ s =>
    if r.toNat = 1 && fpcPending (thr s s.cur) then (.park .fpc, s)
    else (.done, result s s.cur d (stateReg s s.cur r.toNat) 1)) s

/-- `swr` (R416): a write of SEED is performed while its thread is parked, by its next turn. (log 38: DEDUCED) -/
def execSwr (d a : Reg) (r : BitVec 7) (s : State) :=
  issue { reads := [a], writes := [d], prv := writePrv r.toNat } (fun vs s =>
    let tid := s.cur
    let t := thr s tid
    if r.toNat = 1 && fpcPending t then (.park .fpc, s)
    else if r.toNat = 4 && wcw t / 4 % 2 = 1 then (.park .wcw, s)
    else if r.toNat = 10 && (match t.park with | some (.again .seed _) => false | _ => true) then (.park .seed, s)
    else
      let old := stateReg s tid r.toNat
      (.done, result (setStateReg s tid r.toNat (arg vs 0)) tid d old 1)) s

/-! ## Threads from outside (R225, R417, R418) -/

/-- Whether a thread is inside `link` (R172). -/
def inLink (t : Thread) : Bool :=
  t.net.any fun r => match r.step with | .freed | .counted _ => false | _ => true

/-- A thread and the other half of its pair, if it is one. -/
def halves (s : State) (n : Nat) : List Nat := n :: if (thr s n).lt then [partner (thr s n) n] else []

/-- `tkill` (R417): a thread inside `link` is killed when that `link` completes, and the instruction waits for it. -/
def execTkill (d a : Reg) (s : State) :=
  issue { reads := [a], writes := [d], prv := .f, effect := true } (fun vs s =>
    let n := (arg vs 0).toNat
    if 2 ^ 18 ≤ n then (.fault .malformedStructure 0, s)
    else
      let linked := (halves s n).filter fun m => inLink (thr s m)
      match (thr s s.cur).park with
      | some (.again .kill _) => if linked.any fun m => (thr s m).doomed then (.park .kill, s) else (.done, result s s.cur d 1 1)
      | _ =>
        if (thr s n).life == .free then (.done, result s s.cur d 0 1)
        else if linked.isEmpty then (.done, result (killPair s n) s.cur d 1 1)
        else (.park .kill, linked.foldl (fun s m => setThr s m { thr s m with doomed := true }) s)) s

/-- `tscrub` (R34, R417). -/
def execTscrub (d a : Reg) (s : State) :=
  issue { reads := [a], writes := [d], prv := .f, effect := true } (fun vs s =>
    let n := (arg vs 0).toNat
    if 2 ^ 18 ≤ n then (.fault .malformedStructure 0, s)
    else
      let t := thr s n
      if t.life == .free || t.life == .killed || t.life == .contained then
        (.done, result (setThr s n (scrub t)) s.cur d 0 1)
      else (.done, result s s.cur d 1 1)) s

/-- `win.map` (R418). -/
def execWinMap (d a : Reg) (s : State) :=
  issue { reads := [a], writes := [d], prv := .f } (fun vs s =>
    let n := (arg vs 0).toNat
    if 2 ^ 18 ≤ n then (.fault .malformedStructure 0, s)
    else
      let s := setThr s s.cur { thr s s.cur with winTarget := some n }
      (.done, result s s.cur d (if (thr s n).life == .contained then 0 else 1) 1)) s

/-- The items of R418. -/
def itemOk (i : Nat) : Bool := 1 ≤ i && i ≤ 0x27

/-- The window target while it is contained (R418). (log 38: DEDUCED) -/
def target (s : State) (tid : Nat) : Option Nat :=
  match (thr s tid).winTarget with
  | some n => if (thr s n).life == .contained then some n else none
  | none => none

/-- An item as `win.rd` reads it (R418); a register that names a stream is open (R251, log 7: DEDUCED). -/
def readItem (s : State) (n i : Nat) : Word :=
  let t := settle (thr s n) (cycOf s (cmptOf n) - 1)
  if i < 0x20 then outsideX t s.fresh i
  else match i with
    | 0x20 => natWord (tsWord t)
    | 0x21 => natWord (fpcWord t)
    | 0x22 => t.pc
    | 0x24 => t.tepc
    | 0x25 => t.tca.setWidth 64
    | 0x26 => t.tval
    | 0x27 => (ctx s t.ctx).tvb
    | _ => 0

/-- `win.rd` (R418). -/
def execWinRd (d a : Reg) (s : State) :=
  issue { reads := [a], writes := [d], prv := .f } (fun vs s =>
    let i := (arg vs 0).toNat
    if !itemOk i then (.fault .malformedStructure 0, s)
    else match target s s.cur with
      | none => (.done, result s s.cur d 0 1)
      | some n => (.done, result s s.cur d (readItem s n i) 1)) s

/-- FPC as `win.wr` writes it: by the access codes of R7, so a 1 clears a flag and a reserved rounding mode leaves RM (R9,
R255, R418). -/
def setFpc (t : Thread) (v : Nat) : Thread := writeFpc t v

/-- An item as `win.wr` writes it (R418); the resume word sets PC and the thread goes on at its next turn. x20 to x23 take no value while
they name streams (R251). (log 33: DEDUCED) -/
def writeItem (s : State) (n i : Nat) (v : Word) : State :=
  let t := settle (thr s n) (cycOf s (cmptOf n) - 1)
  if i < 0x20 then setThr s n (setOutsideX t i v)
  else match i with
    | 0x20 => setThr s n (writeTsAll t v.toNat (if bit v.toNat 16 then .s else .u))
    | 0x21 => setThr s n (setFpc t v.toNat)
    | 0x22 => setThr s n { t with pc := v }
    | 0x23 => setThr s n { t with pc := v, life := .run, why := none, turn := turnAfter (slotOf n) (cycOf s (cmptOf n)) }
    | 0x24 => setThr s n { t with tepc := v }
    | 0x25 => setThr s n { t with tca := v.setWidth 8 }
    | 0x26 => setThr s n { t with tval := v }
    | _ => s

/-- `win.wr` (R418): an odd PC is an alignment fault of the instruction (R275). -/
def execWinWr (d a b : Reg) (s : State) :=
  issue { reads := [a, b], writes := [d], prv := .f } (fun vs s =>
    let i := (arg vs 0).toNat
    if !itemOk i || (i = 0x20 && bit (arg vs 1).toNat 17) then (.fault .malformedStructure 0, s)
    else match target s s.cur with
      | none => (.done, result s s.cur d 1 1)
      | some n =>
        if (i = 0x22 || i = 0x23) && bit (arg vs 1).toNat 0 then (.fault .alignment (arg vs 1), s)
        else (.done, result (writeItem s n i (arg vs 1)) s.cur d 0 1)) s

/-! ## Error injection and invalidation (R54, R230, R419, R420) -/

/-- `ecc.inj` (R230, R419): one service at the home, for which the thread parks. -/
def execEccInj (a b : Reg) (s : State) :=
  issue { reads := [a, b, regNext b], prv := .f, effect := true } (fun vs s =>
    let tid := s.cur
    let pa := (arg vs 0).toNat
    let chk := (arg vs 2).toNat
    if 256 ≤ chk then (.fault .malformedStructure 0, s)
    else if pa % 8 != 0 then (.fault .alignment (arg vs 0), s)
    else
      let plain := match placeOf pa with | .hbm | .store _ _ => true | _ => false
      if !plain then (.fault .physicalRange (arg vs 0), s)
      else
        issueAccess s tid
          { kind := .atomic, va := arg vs 0, size := 8, op := fun _ _ => .inject (arg vs 1).toNat (BitVec.ofNat 8 chk), next := nextPc s 4 }
          [⟨s.pkg, pa, 8, 0, none, .rc⟩]) s

/-- Whether a tile lies within a scope of the issuing tile (R14, R54, R311): the core scope acts as tile, and package and
domain name every tile of the package. -/
def inScope (scope mine other : Nat) : Bool :=
  if scope ≤ 1 then mine == other
  else if scope = 2 then mine / 16 == other / 16 && (mine < 2048) == (other < 2048)
  else if scope = 3 then cmptOfTile mine == cmptOfTile other
  else if scope = 4 then cmptOfTile mine / 8 == cmptOfTile other / 8
  else true

/-- What an invalidation names (R54, R420): contexts and addresses. -/
structure Inval where
  scope : Nat
  ctx : Option Nat
  range : Option (Nat × Nat)

/-- The operands of `tlb.inv`, none where they break R420. -/
def invalOf (t : Thread) (a b : Nat) : Option Inval :=
  let scope := bits b 63 61
  let allc := bit b 60
  let allp := bit b 59
  let c := bits b 58 47
  let n := bits b 35 0
  if bits a 63 52 != 0 || bits a 15 0 != 0 || scope == 7 || bits b 46 36 != 0 || (allp && a != 0) || (!allp && n == 0)
      || (t.prv != .f && (allc || c != 0)) then none
  else some { scope := scope, ctx := if allc then none else some (if t.prv == .f then c else t.ctx)
              range := if allp then none else some (a, a + 65536 * n) }

/-- Whether an invalidation names some byte of a context. -/
def Inval.hits (v : Inval) (c lo n : Nat) : Bool :=
  v.ctx.all (· == c) && (match v.range with | none => true | some (a, b) => lo < b && a < lo + n)

/-- Step 2 of R54: matching entries drop, and walks that could install one are discarded. -/
def dropEntries (s : State) (mine : Nat) (v : Inval) : State :=
  { s with
    tiles := s.tiles.map fun p =>
      if inScope v.scope mine p.1 then (p.1, { p.2 with tlb := p.2.tlb.filter fun l => !v.hits l.ctx l.va l.size }) else p
    walks := s.walks.map fun p =>
      if inScope v.scope mine p.2.tile && v.hits p.2.ctx p.2.va 65536 then (p.1, { p.2 with discard := true }) else p }

/-- The invalidation of every page, whole, that holds a byte of its range: a page has at most 1 GiB (R42). -/
def Inval.wide (v : Inval) : Inval :=
  { v with range := v.range.map fun r => (r.1 / 2 ^ 30 * 2 ^ 30, (r.2 + 2 ^ 30 - 1) / 2 ^ 30 * 2 ^ 30) }

/-- Whether an access in scope that can have used a dropped entry is still to be performed (R54, step 3). One that a migrating
frame holds is not waited for, since R57 commits after the invalidation. (log 38: DEDUCED) -/
def usesDropped (s : State) (mine : Nat) (v : Inval) (n : Nat) : Bool :=
  s.accs.any fun p =>
    p.1 < n && inScope v.scope mine (tileOf p.2.tid) && v.wide.hits p.2.ctx p.2.lo (max p.2.size 1)
      && s.reqs.any fun r => r.2.acc == p.1 && !r.2.held

/-- `tlb.inv` (R54, R420): a release, then the drop, then the wait for accesses that used a dropped entry. -/
def execTlbInv (a b : Reg) (s : State) :=
  issue { reads := [a, b], prv := .s, effect := true } (fun vs s =>
    let tid := s.cur
    let t := thr s tid
    match invalOf t (arg vs 0).toNat (arg vs 1).toNat with
    | none => (.fault .malformedStructure 0, s)
    | some v =>
      let mine := tileOf tid
      let finish (s : State) (n : Nat) : Eff × State :=
        if usesDropped s mine v n then (.park .fence, setThr s tid { thr s tid with draining := some n })
        else (.done, setThr s tid { thr s tid with draining := none })
      match t.draining with
      | some n => finish s n
      | none => if releaseHeld s tid then (.park .order, s) else finish (dropEntries s mine v) s.ids) s

/-! ## Fault messages and time (R206, R224, R421, R422) -/

/-- The 64 bytes of a fault message (R224). -/
def faultBytes (m : FaultMsg) : List Byte :=
  wordBytes
    [0x20 * 2 ^ 56 + m.cause.code * 2 ^ 48 + m.ctx * 2 ^ 36 + (if m.nth then 0 else m.ptid), m.pc.toNat, m.val.toNat,
     bitAt m.lt 63 + bitAt m.inj 62 + (prvBits m.prv).toNat * 2 ^ 60 + bitAt m.nth 59 + m.inst.toNat, m.ts, m.cgen % 2 ^ 48, 0, 0]

/-- `halt` (R421): a message is taken before the deadline is looked at. -/
def execHalt (d a b : Reg) (s : State) :=
  issue { reads := [a, b], writes := [d], prv := .f, effect := true } (fun vs s =>
    let tid := s.cur
    let va := arg vs 0
    if va.toNat % 8 != 0 then (.fault .alignment va, s)
    else
      (ownStore s tid va 64 .store .tier).run fun ps s =>
        let c := cmptOf tid
        match if onRanger tid then (cmpt s c).faultQ else [] with
        | m :: rest =>
          (storeOwn s tid va ps (faultBytes m)).run fun _ s =>
            (.done, result (setCmpt s c { cmpt s c with faultQ := rest }) tid d 1 1)
        | [] => if (arg vs 1).toNat ≤ (cmpt s c).t then (.done, result s tid d 0 1) else (.park (.halt (arg vs 1)), s)) s

/-- cyc (R422): Read CYC. -/
def execCyc (d : Reg) (s : State) :=
  issue { writes := [d] } (fun _ s => (.done, result s s.cur d (natWord (cycOf s (cmptOf s.cur))) 1)) s

/-- The global timestamp as an instruction samples it: in elastic mode at a moment of the device's choice between the start
of the cycle and 5 network cycles later (R422). -/
def execTsc (d : Reg) (s : State) :=
  issue { writes := [d] } (fun _ s =>
    let k := cmpt s (cmptOf s.cur)
    if k.fixt then (.done, result s s.cur d (natWord k.t) 1)
    else
      let (w, s) := openWord s
      (.done, result s s.cur d (natWord (k.t + w.toNat % 6)) 1)) s

end Sys2Proof.Machine
end

