-- ==== Sys2Proof/Machine/Service.lean ====
section
/-! DEFINITION. The steps of the memory side and of a core's own units: requests served at banks, homes and windows, replies
and acknowledgements, page walks, frame retirement, pending results, spills, read-ahead, droop and scalers
(R48, R56-R77, R206, R249, R290, R308, R321, R344, R431, R445, R446). -/

namespace Sys2Proof.Machine

/-! ## Service (R56, R61-R68, R445, R446) -/

/-- Whether a request has arrived at its home and may be served (R112). -/
def servable (s : State) (n : Nat) (r : Req) : Bool := !r.travelling && !r.held && !mustWait s n r

/-- Whether a request is at a bank of a core. -/
def atBank (s : State) (core bank : Nat) (r : Req) : Bool :=
  r.pkg == s.pkg && (match placeOf r.pa with | .store c off => c == core && off / 8 % 64 == bank | _ => false)

/-- The number of the unit that serves a window: a core's registers, a tile's mill or its instruction store (R446). -/
def windowNo : Place → Option Nat
  | .regs t _ => some (2 ^ 20 + t / 16)
  | .mill t _ => some (2 ^ 20 + 2 ^ 15 + t)
  | .code t _ => some (2 ^ 20 + 2 ^ 16 + t)
  | _ => none

/-- The unit whose window a request names, no mill instruction standing before it (R36). -/
def windowUnit (s : State) (r : Req) : Option Nat :=
  if r.pkg == s.pkg && !millBusy s r.pa then windowNo (placeOf r.pa) else none

/-- The rank of a waiting request in cycle c (R65). -/
def bankRank (c : Nat) (r : Req) : Nat := r.earliest * 1024 + (r.src + 1024 - c % 1024) % 1024

/-- The request that R65 chooses in cycle c among those whose earliest service cycle has come. Of two of one source with one earliest
cycle, which both have come by the network, the one issued first goes first (log 34: DESIGN CHOICE). -/
def nextServed (c : Nat) (rs : List (Nat × Req)) : Option (Nat × Req) :=
  rs.foldl (fun b p =>
    if c < p.2.earliest then b
    else match b with
      | none => some p
      | some q => if bankRank c p.2 < bankRank c q.2 then some p else b) none

/-- The first cycle from `c` on in which a unit can serve one of some requests: not before it last served. -/
def serveCycle (k : Cmpt) (unit : Nat) (rs : List (Nat × Req)) : Nat :=
  let first := rs.foldl (fun m p => match m with | none => some p.2.earliest | some e => some (min e p.2.earliest)) (none : Option Nat)
  max (max k.cyc (first.getD 0)) (match look k.served unit with | some n => n + 1 | none => 0)

/-- One service of a unit of compartment `k` among its waiting requests (R63, R65). -/
def serveOne (s : State) (k unit : Nat) (rs : List (Nat × Req)) (only : Option Nat) : Option State :=
  let c := serveCycle (cmpt s k) unit rs
  match nextServed c rs with
  | none => none
  | some (n, r) =>
    if only.any (· != n) then none
    else
      let s := tick s k c
      let x := cmpt s k
      some (serve (setCmpt s k { x with served := put x.served unit c }) n (c + r.transit / 2))

/-- BANK_REQUEST (R65): a bank serves one waiting request. -/
def bankRequest (core bank : Nat) (s : State) : Option State :=
  serveOne s (cmptOfCore core) (core * 64 + bank) (s.reqs.filter fun p => atBank s core bank p.2 && servable s p.1 p.2) none

/-- WINDOW_ACCESS_SERVICE (R36, R446): the unit of a window serves the request that is next. -/
def windowService (n : Nat) (s : State) : Option State :=
  match look s.reqs n with
  | none => none
  | some r => match windowUnit s r, unitCore (placeOf r.pa) with
  | some u, some c =>
    serveOne s (cmptOfCore c) u
      (s.reqs.filter fun p => windowUnit s p.2 == some u && servable s p.1 p.2) (some n)
  | _, _ => none

/-- HOME_ACCESS (R41, R70, R110): HBM, the host, another package or a ranger's own store performs a request. (log 34: DESIGN CHOICE) -/
def homeAccess (n : Nat) (s : State) : Option State :=
  match look s.reqs n with
  | none => none
  | some r =>
    let banked := r.pkg == s.pkg && (match placeOf r.pa with | .store _ _ => true | p => isWindow p)
    if banked || !servable s n r then none else some (serve s n (cycOf s (cmptOf r.tid)))

/-! ## Replies (R66, R76, R77, R309, R322) -/

/-- A value as a destination takes it. -/
def destValue (v : Nat) (d : Dest) : Word :=
  let x := v / 2 ^ (8 * d.off) % 2 ^ (8 * d.len)
  if d.signed then wordOf (signedOf x (8 * d.len)) else natWord x

/-- The rotations that a load in the compartment lost are counted one by one (R66). -/
def countLost (s : State) (tid turn : Nat) (a : Access) : State :=
  if a.near && (!a.dests.isEmpty || a.lookup.isSome) then
    (List.range ((turn - (thr s tid).turn) / 16)).foldl (fun s _ => scale s (cmptOf tid) 0x01 1) s
  else s

/-- The cycle at whose end a thread has the result of an access: seven after the last entry for the sum of a `dcb` (R324, R341). -/
def Access.written (a : Access) : Nat := if a.lookup.isSome then a.done + 7 else a.done

/-- The destinations of an access are written together (R309). The lead of a pair hands the values on (R226). -/
def giveValues (s : State) (a : Access) : State :=
  let tid := a.tid
  let leads := (thr s tid).lt && !(thr s tid).trl
  match a.lookup with
  | none =>
    let s := a.dests.foldl (fun s d => putX s tid d.reg (destValue a.val d)) s
    if leads then giveQueued s (thr s tid) tid (a.dests.map (·.reg)) else s
  | some x =>
    let (v, fl) := x.sum a.val
    let s := result s tid x.reg v (a.written - cycOf s (cmptOf tid)) fl true
    if leads then setQueued s (thr s tid) tid (queued s (thr s tid) tid ++ [v, packFlags fl]) else s

/-- The registers that an access writes. -/
def Access.regs (a : Access) : List Reg := a.dests.map Dest.reg ++ (a.lookup.map Lookup.reg).toList

/-- A thread goes on after its access has replied; an acquire discards what streams have read ahead (R322). -/
def completeAccess (s : State) (a : Access) : State :=
  let tid := a.tid
  let turn := turnAfter (slotOf tid) a.written
  let s := giveValues (countLost s tid turn a) a
  let t := if a.acquire then discardAhead (thr s tid) else thr s tid
  setThr s tid { t with pc := a.next, park := none, turn := max t.turn turn }

/-- The fault of an access that was refused or could not read a word, taken by its thread as it stands in `t` (R56, R227). -/
def accessFault (s : State) (t : Thread) (a : Access) : State :=
  let s := setThr s a.tid { t with injSeen := a.inj }
  if a.poisoned then contain s a.tid .memoryError a.tval t.pc else takeFault s a.tid .staleGeneration a.tval t.pc

/-- Whether an access has failed. -/
def Access.failed (a : Access) : Bool := a.poisoned || a.stale

/-- The refusal of a store for which its thread does not wait: a trap at the thread's next turn (R308). -/
def refusedLate (s : State) (a : Access) : State :=
  let t := thr s a.tid
  let t := if a.poisoned then { t with injSeen := a.inj } else t
  if t.life == .run || t.life == .contained || t.life == .moving then
    setThr s a.tid { t with async := t.async ++ [⟨if a.poisoned then .memoryError else .staleGeneration, a.tval⟩] }
  else setThr s a.tid t

/-- The reply to the access of a thread's instruction. What an instruction has pushed is over (R310, R321): the refusal of an element is
that of a posted store, for which its thread may wait (R116). -/
def threadReply (s : State) (n : Nat) (a : Access) : State :=
  let t := thr s a.tid
  let waits := t.life == .run && t.park == some (.reply n)
  if a.push.isSome then
    if a.failed then refusedLate (if waits then setThr s a.tid { t with park := none } else s) a
    else if waits then awaitPush (completeAccess s a) a.tid a.undo a.next
    else s
  else if !waits then s
  else if a.failed then accessFault s { t with streams := unread a.undo } a
  else afterPush a.regs t a.undo (completeAccess s a) a.tid a.next

/-- The reply to an access of an instruction to its own store, which goes on with the value (R21). -/
def ownReply (s : State) (n : Nat) (a : Access) : State :=
  let t := thr s a.tid
  match t.own with
  | none => s
  | some o =>
    if o.acc != n then s
    else if a.failed then accessFault s { t with own := none } a
    else
      let t := if a.acquire then discardAhead t else t
      setThr s a.tid { t with own := some { o with got := some a.val } }

/-- The reply to an access of a net instruction under way (R170). -/
def netReply (s : State) (a : Access) : State :=
  let t := thr s a.tid
  match t.net with
  | none => s
  | some r =>
    if a.failed then accessFault s { t with streams := unread r.undo } a
    else
      let t := if a.acquire then discardAhead t else t
      setThr s a.tid { t with net := some { r with got := some (natWord a.val) } }

/-- The reply to an element read ahead: its value, or the fault that its pop will raise (R321). -/
def streamReply (s : State) (n j : Nat) (a : Access) : State :=
  let t := thr s a.tid
  let q := stream t j
  let e (x : Ahead) : Ahead :=
    match x with
    | .wait m home so =>
      if m != n then x
      else if a.failed then .bad (if a.poisoned then .memoryError else .staleGeneration) a.tval home a.inj
      else .val (q.extend a.val) home so
    | _ => x
  setThr s a.tid (setStream t j { q with ahead := q.ahead.map e })

/-- The reply to a word of a refill; a fault is taken at once by the `restore` that waits (R249). The lead of a pair hands the word on
(R226). -/
def refillReply (s : State) (n : Nat) (a : Access) : State :=
  let t := thr s a.tid
  if t.life != .run || t.refill != some n then s
  else if a.failed then accessFault s (noRefill t) a
  else
    let s := if t.lt then setQueued s t a.tid (queued s t a.tid ++ [natWord a.val]) else s
    setThr s a.tid { t with refilled := t.refilled ++ [natWord a.val], refill := none }

/-- ACCESS_REPLY (R63, R77, R227, R308): the value or refusal of an access that its thread, or a unit of it, waits for, written at
the end of its cycle. -/
def accessReply (n : Nat) (s : State) : Option State :=
  match look s.accs n with
  | none => none
  | some a =>
    if a.left != 0 || a.replies != 0 || a.posted then none
    else
      let s := tick { s with accs := del s.accs n } (cmptOf a.tid) (a.done + 1)
      let s := match a.agent with
        | .net => netReply s a
        | .words => ownReply s n a
        | .stream j => streamReply s n j a
        | .refill => refillReply s n a
        | _ => threadReply s n a
      some (checkKilled (closeDoomed s a.tid) a.tid)

/-- Whether no engine waits any more for an access that it made: its job, or its instruction, has been killed (R231). -/
def orphaned (s : State) (n : Nat) (a : Access) : Bool :=
  match a.agent with
  | .job j => (look s.jobs j).isNone
  | .mill tl => !((tile s tl).row.any fun r => r.1 == n)
  | .start c => !((core s c).prep.any fun p => p.acc == some n)
  | .ring c => !((core s c).ringAcc.any fun r => r.acc == n)
  | _ => false

/-- A posted access whose requests have all been answered. -/
def postedDone (s : State) (n : Nat) : Option Access :=
  match look s.accs n with
  | some a => if a.posted && a.left == 0 && a.replies == 0 && (a.agent.made || orphaned s n a) then some a else none
  | none => none

/-- The window is spilled once every word has been acknowledged (R249). -/
def spillEnd (s : State) (tid : Nat) : State :=
  let t := thr s tid
  if t.olive && t.spilled == 24 && !(s.accs.any fun p => p.2.tid == tid && p.2.agent == .spill) then
    setThr s tid { t with spilled := 0, olive := false, wsp := wspMask (t.wsp - 192) }
  else s

/-- The word of the window that a refused store of the spill engine was to write is sent again, once the fault has been taken (R249). -/
def unspill (t : Thread) (a : Access) : Nat :=
  let i := (a.lo - (t.wsp - 192).toNat) / 8
  if t.olive && (t.wsp - 192).toNat ≤ a.lo && i < t.spilled then i else t.spilled

/-- POSTED_STORE_ACK (R63, R76): the acknowledgement reaches the thread at the end of its cycle. -/
def postedAck (n : Nat) (s : State) : Option State :=
  (postedDone s n).bind fun a =>
    if a.failed && a.agent.made then none
    else
      let s := tick { s with accs := del s.accs n } (cmptOf a.tid) (a.done + 1)
      some (checkKilled (if a.agent == .spill then spillEnd s a.tid else s) a.tid)

/-- POSTED_STORE_REFUSAL (R56, R227, R249, R308): the thread takes the fault at its next turn; that of the spill engine is taken by the
instruction that takes a spill's fault. -/
def postedRefusal (n : Nat) (s : State) : Option State :=
  (postedDone s n).bind fun a =>
    if !(a.failed && a.agent.made) then none
    else
      let s := tick { s with accs := del s.accs n } (cmptOf a.tid) (a.done + 1)
      let t := thr s a.tid
      let c : Cause := if a.poisoned then .memoryError else .staleGeneration
      let s :=
        if a.agent == .spill then
          setThr s a.tid { t with spillFault := some (c, a.tval), spilled := unspill t a, injSeen := if a.poisoned then a.inj else t.injSeen }
        else refusedLate s a
      some (checkKilled s a.tid)

/-! ## Page walks (R48, R53, R54) -/

/-- Whether a thread waits for a walk. -/
def onWalk (t : Thread) : Bool := t.life == .run && (match t.park with | some (.again .walk _) => true | _ => false)

/-- PAGE_WALK_END (R48): the leaf is installed and the access issues again, or its thread takes the fault. -/
def pageWalkEnd (n : Nat) (s : State) : Option State :=
  match look s.walks n with
  | none => none
  | some w =>
    let s := { s with walks := del s.walks n }
    if w.discard then some s
    else
      let fails (c : Cause) (s : State) (p : Nat × Word) : State :=
        if onWalk (thr s p.1) then
          let s := if c = .memoryError then seenWalk s p.1 w.ctx w.va else s
          closeDoomed (takeFault s p.1 c p.2 (thr s p.1).pc) p.1
        else s
      match walkPage s w.ctx w.va with
      | .ok l => some (install (noteWalk s w.ctx w.va) w.tile l)
      | .error c => some (noteWalk (w.waiters.foldl (fails c) s) w.ctx w.va)

/-! ## Page retirement (R56-R58)

A frame is named by package × 2^32 + physical address / 65536. -/

/-- The first byte's key of a frame. -/
def frameKey (f : Nat) : Nat := f * 65536

/-- A frame's record. -/
def frame (s : State) (f : Nat) : Frame := lookD s.frames f {}

/-- Write a frame's record. -/
def setFrame (s : State) (f : Nat) (v : Frame) : State := { s with frames := put s.frames f v }

/-- FRAME_MIGRATING (R57, step 1). -/
def frameMigrating (old new gen : Nat) (s : State) : Option State :=
  if old = new || (frame s old).mode != .normal then none
  else
    let s := setFrame s new { frame s new with gen := gen % 16 }
    some (setFrame s old { frame s old with mode := .migrating new (gen % 16) false })

/-- The words with an error in a frame, as the copy of the frame reads them: corrected, or still unreadable (R61, R227). -/
def readFrame (s : State) (f : Nat) : State :=
  (s.flaws.filter fun p => p.1 / 65536 == f).foldl (fun s p =>
    let s := noteErrors s s.pkg (p.1 % 2 ^ 48) 8
    if (eccWord s p.1).isSome then correctWord s p.1 else s) s

/-- Copy a frame's bytes, and with them the errors that cannot be corrected (R57, step 2). -/
def copyFrame (s : State) (old new : Nat) : State :=
  let s := readFrame s old
  let cells := s.mem.filter fun c => c.1 / 65536 == old
  let rest := s.mem.filter fun c => c.1 / 65536 != new
  let moved := (s.flaws.filter fun p => p.1 / 65536 == old).map fun p => (frameKey new + p.1 % 65536, p.2)
  { s with mem := cells.foldl (fun m c => setByte m (frameKey new + c.1 % 65536) c.2) rest
           flaws := moved.foldl (fun m p => put m p.1 p.2) (s.flaws.filter fun p => p.1 / 65536 != new) }

/-- FRAME_COPY_COMPLETE (R57, step 2). -/
def frameCopied (old : Nat) (s : State) : Option State :=
  match (frame s old).mode with
  | .migrating new gen false =>
    let s := copyFrame s old new
    some (setFrame s old { frame s old with mode := .migrating new gen true })
  | _ => none

/-- FORWARDING_COMMIT (R56, R57, step 5): the held requests are redirected in order. -/
def forwardingCommit (old : Nat) (s : State) : Option State :=
  match (frame s old).mode with
  | .migrating new gen true =>
    let held := (frame s old).retry
    let s := setFrame s old { frame s old with mode := .forwarded new gen, reports := [], retry := [] }
    some (held.foldl (fun s n =>
      match look s.reqs n with
      | some r => serve { s with reqs := put s.reqs n { r with held := false } } n (cycOf s (cmptOf r.tid))
      | none => s) s)
  | _ => none

/-- The units that report a drain: the yarders and the 16 peer ports (R57, log 29: DEDUCED). -/
def drainUnits : List Nat := yarderUnits ++ (List.range 16).map (2564 + ·)

/-- Whether an access carrying a frame is outstanding anywhere (R57, step 6). -/
def frameInUse (s : State) (f : Nat) : Bool :=
  let g := (frame s f).gen
  s.reqs.any (fun p => keyOf p.2.pkg p.2.pa / 65536 == f && p.2.gen == some g)
    || s.jobs.any fun p => p.2.pages.any fun q =>
      q.gen == some g && keyOf q.pkg q.pa / 65536 ≤ f && f < (keyOf q.pkg q.pa + q.size) / 65536

/-- DRAIN_REPORT (R57, step 6; R58): once every unit has reported, the forwarding record is released, and the frame's
generation moves on. -/
def drainReport (old unit : Nat) (s : State) : Option State :=
  let f := frame s old
  match f.mode with
  | .forwarded _ _ =>
    if !drainUnits.contains unit || frameInUse s old then none
    else
      let reports := if f.reports.contains unit then f.reports else unit :: f.reports
      if drainUnits.all reports.contains then some (setFrame s old { gen := (f.gen + 1) % 16 })
      else some (setFrame s old { f with reports := reports })
  | _ => none

/-! ## A core's own units -/

/-- PENDING_RESULT_WRITE (R290): the oldest pending result is written at the end of its cycle. -/
def pendingWrite (tid : Nat) (s : State) : Option State :=
  match (thr s tid).pend with
  | [] => none
  | p :: _ =>
    let s := tick s (cmptOf tid) (p.land + 1)
    some (setThr s tid (settle (thr s tid) p.land))

/-- SFU_RESULT (R342, R344): the oldest request of a tile's ring is done, and its result is written. -/
def sfuResult (tl : Nat) (s : State) : Option State :=
  let x := tile s tl
  match x.sfuRing with
  | [] => none
  | (tid, _) :: rest =>
    let s := setTile s tl { x with sfuRing := rest }
    match (thr s tid).pend.find? fun p => p.sfu with
    | none => some s
    | some p =>
      let s := tick s (cmptOf tid) (p.land + 1)
      some (setThr s tid (settle (thr s tid) p.land))

/-- Whether a slot's turn in cycle c idles (R141). -/
def turnIdles (t : Thread) (c : Nat) : Bool := t.life != .run || t.park.isSome || c < t.turn

/-- The spill engine has sent a word, and goes on in a later turn (R249). -/
def spillNext (t : Thread) (c : Nat) : Thread := { t with spillTurn := c + 16, spilled := t.spilled + 1 }

/-- The word that the spill engine stores next, and its address (R249). -/
def spillWordOf (t : Thread) : Word × Word := (t.wsp - 192 + natWord (8 * t.spilled), lookD (otherWin t) t.spilled 0)

/-- What a pair compares of a word of a spill: the window, which may be a later one than that of the trail, the address and the data. -/
def spillOp (t : Thread) : List Word := [natWord t.saves, (spillWordOf t).1, (spillWordOf t).2]

/-- The trail of a pair compares its word with that of the lead, and stores nothing (R226). -/
def spillTrail (s : State) (tid c : Nat) : Option State :=
  let t := thr s tid
  let k := core s (coreOf tid)
  let n := 16 + leadSlot t tid
  match if lookD k.matched n false then none else look k.compare n with
  | none => none
  | some op =>
    let s := tick s (cmptOf tid) c
    if op.headD 0 != natWord t.saves then none
    else if op != spillOp t then some (pairMismatch s tid)
    else
      let s := setCore s (coreOf tid) { core s (coreOf tid) with matched := put k.matched n true }
      let t := spillNext (thr s tid) c
      some (setThr s tid (if t.spilled = 24 then { t with spilled := 0, olive := false, wsp := wspMask (t.wsp - 192) } else t))

/-- The lead's word waits in the store comparator until the trail has brought the same one (R226). -/
def spillLead (s : State) (tid c : Nat) : Option State :=
  let t := thr s tid
  let k := core s (coreOf tid)
  let n := 16 + leadSlot t tid
  if (look k.compare n).isSome then none
  else
    let s := tick s (cmptOf tid) c
    some (setCore s (coreOf tid) { core s (coreOf tid) with compare := put k.compare n (spillOp t) })

/-- Whether the comparator lets the lead's word go (R226). -/
def spillMatched (s : State) (t : Thread) (tid : Nat) : Bool := !t.lt || lookD (core s (coreOf tid)).matched (16 + leadSlot t tid) false

/-- SPILL_WORD (R141, R249): in an idle turn, one word of the older window is stored, a plain store of the thread, which a pair compares
first (R226). -/
def spillWord (tid : Nat) (s : State) : Option State :=
  let t := thr s tid
  let k := cmptOf tid
  let c := turnAt (slotOf tid) (max (cycOf s k) t.spillTurn)
  if !t.olive || 24 ≤ t.spilled || t.spillFault.isSome || t.life == .free || t.life == .killed || !turnIdles t c then none
  else if t.trl then spillTrail s tid c
  else if !spillMatched s t tid then spillLead s tid c
  else
    let v := (spillWordOf t).2.toNat
    let q : Ask :=
      { kind := .store, va := (spillWordOf t).1, size := 8, next := 0, agent := .spill
        op := fun n off => .write (v / 2 ^ (8 * off) % 2 ^ (8 * n)) }
    match piecesNow s (asker s tid) .store q.va 8 with
    | (.error (.fault cause a), s) =>
      let s := tick (if cause = .memoryError then seenWalk s tid t.ctx a else s) k c
      some (setThr s tid { thr s tid with spillFault := some (cause, natWord a) })
    | (.error (.walk _), s') => waiting s s'
    | (.ok ps, s) =>
      if (accessWait s tid q ps).isSome then none
      else
        let s := spillSent (addAccess (tick s k c) tid q ps true).2 t tid
        some (setThr s tid (spillNext (thr s tid) c))

/-- STREAM_READ_AHEAD (R321): a bound read stream reads its next element, by an access of its own. The trail of a pair takes its
elements from the lead (R226). -/
def readAhead (tid j : Nat) (s : State) : Option State :=
  let t := thr s tid
  let q := stream t j
  let n := q.pos + q.ahead.length
  let bad := q.ahead.any fun e => match e with | .bad _ _ _ _ => true | _ => false
  if t.life != .run || t.trl || 4 ≤ j || !t.qb.getLsbD j || q.write || bad || 16 ≤ q.ahead.length || q.count ≤ n then none
  else
    let a : Ask := { kind := .load, va := elemAddr q n, size := q.width, op := fun _ _ => .read, next := 0, agent := .stream j }
    let add (s : State) (e : Ahead) : State := setThr s tid (setStream (thr s tid) j { q with ahead := q.ahead ++ [e] })
    match piecesNow s (asker s tid) .load a.va q.width with
    | (.error (.fault c v), s) => some (add s (.bad c (natWord v) [] (c == .memoryError && walkInjected s t.ctx v)))
    | (.error (.walk _), s') => waiting s s'
    | (.ok ps, s) =>
      if (accessWait s tid a ps).isSome || ownPending s tid ps then none
      else
        let (m, s) := addAccess s tid a ps false
        some (add s (.wait m (ps.map fun p => (p.pkg, p.pa, p.len)) (ps.any fun p => p.ord == .so)))

/-- DROOP_TRIP (R206): in elastic mode the next cycle lasts between 1 and 1.5 nominal periods, and in fixed-timing mode the
trip is only counted. (log 9: DESIGN CHOICE) -/
def droopTrip (k stretch : Nat) (s : State) : Option State :=
  let x := cmpt s k
  let s := if x.fixt then s else setCmpt s k { x with stretch := min stretch 1 }
  some (scale s k 0x07 1)

/-- A word of a local store or of HBM comes to hold an error (R61, R227); a word that a test has marked keeps its mark until it is written
(R230). -/
def upset (s : State) (pa : Nat) (chk : Byte) (lasting : Bool) : State :=
  match placeOf pa with
  | .hbm | .store _ _ =>
    let k := keyOf s.pkg pa / 8 * 8
    { s with flaws := put s.flaws k ⟨chk, (look s.flaws k).any Flaw.inj, lasting⟩ }
  | _ => s

/-- SCALER_CONFIG (R431): a reserved event leaves the field (R9). -/
def scalerConfig (k i : Nat) (v : Word) (s : State) : Option State :=
  if 16 ≤ i then none
  else
    let x := cmpt s k
    let a := lookD x.scalers i {}
    let a := { a with en := bit v.toNat 7, ev := if 1 ≤ bits v.toNat 6 0 && bits v.toNat 6 0 ≤ 8 then bits v.toNat 6 0 else a.ev }
    let a := if bit v.toNat 8 then { a with count := 0, min := 0, max := 0, bins := [] } else a
    some (setCmpt s k { x with scalers := put x.scalers i a })

/-- ILLEGAL_ENCODING (R9, R220, R288): the thread that fetched the bits is contained, whatever prefix is pending. -/
def execIllegalEncoding (b : BitVec 32) (s : State) : Host.Outcome State Fault Refusal :=
  if s.power then
    let t := settle (thr s s.cur) (cycOf s (cmptOf s.cur) - 1)
    .next (finish {} t (.fault .illegalEncoding 0, setThr s s.cur { t with ir := b }))
  else .fault .noPower

/-- BANK_REQUEST (R65): A local-store bank serves one waiting request per cycle in age and rotation order, and performs the access or atomic. -/
def execBankRequest (c b : Nat) (s : State) := event (bankRequest c b) s
/-- HOME_ACCESS (R56): An access arrives at an HBM or remote home, which performs it, holds it, redirects it or refuses it as stale according to the frame state. -/
def execHomeAccess (n : Nat) (s : State) := event (homeAccess n) s
/-- WINDOW_ACCESS_SERVICE (R446): A register, mill or instruction-store window serves one request per cycle under its own wait rules. -/
def execWindowAccessService (n : Nat) (s : State) := event (windowService n) s
/-- ACCESS_REPLY (R77): A value or acknowledgement reaches a parked thread, which issues in its first slot after the write. -/
def execAccessReply (n : Nat) (s : State) := event (accessReply n) s
/-- POSTED_STORE_ACK (R76): The acknowledgement of a posted store arrives, freeing one of the thread's 8 posted slots. -/
def execPostedStoreAck (n : Nat) (s : State) := event (postedAck n) s
/-- POSTED_STORE_REFUSAL (R308): A stale refusal of a posted store arrives and is taken as a stale-generation trap at the thread's next turn. -/
def execPostedStoreRefusal (n : Nat) (s : State) := event (postedRefusal n) s
/-- PAGE_WALK_END (R48): A walker finishes a walk, installs the leaf or raises the translation fault, and the parked thread resumes. -/
def execPageWalkEnd (n : Nat) (s : State) := event (pageWalkEnd n) s
/-- FRAME_MIGRATING (R57): The firmware sets the new frame's generation and marks the old frame MIGRATING at its home yarder. -/
def execFrameMigrating (o n g : Nat) (s : State) := event (frameMigrating o n g) s
/-- FRAME_COPY_COMPLETE (R57): The home yarder's copy of the old frame to the new frame completes. -/
def execFrameCopyComplete (o : Nat) (s : State) := event (frameCopied o) s
/-- FORWARDING_COMMIT (R57): The old frame becomes FORWARDED, and the retry queue is re-presented and redirected in order. -/
def execForwardingCommit (o : Nat) (s : State) := event (forwardingCommit o) s
/-- DRAIN_REPORT (R57): A yarder or peer port reports that no access with the old generation is outstanding, and after the last report the forwarding record is released. -/
def execDrainReport (o u : Nat) (s : State) := event (drainReport o u) s
/-- PENDING_RESULT_WRITE (R290): A pending multi-cycle result lands in its register, overwriting any window write made meanwhile. -/
def execPendingResultWrite (t : Nat) (s : State) := event (pendingWrite t) s
/-- SFU_RESULT (R344): The special-function unit writes a result 40 + 8q cycles after issue and sets its flags. -/
def execSfuResult (t : Nat) (s : State) := event (sfuResult t) s
/-- SPILL_WORD (R249): In an idle turn the spill engine writes one word of the other window buffer, and after word 23 it moves WSP and clears olive. -/
def execSpillWord (t : Nat) (s : State) := event (spillWord t) s
/-- STREAM_READ_AHEAD (R321): A bound read stream reads its next element ahead of pos in a spare memory cycle. -/
def execStreamReadAhead (t j : Nat) (s : State) := event (readAhead t j) s
/-- DROOP_TRIP (R206): A droop detector trips: in elastic mode it stretches the next cycle, and in fixed-timing mode it is only counted. -/
def execDroopTrip (k n : Nat) (s : State) := event (droopTrip k n) s
/-- SCALER_CONFIG (R431): A write of a scaler's configuration word selects its event and enable, and clr zeroes its captures. -/
def execScalerConfig (k i : Nat) (v : Word) (s : State) := event (scalerConfig k i v) s

end Sys2Proof.Machine
end

