-- ==== Sys2Proof/Machine/Network.lean ====
section
/-! DEFINITION. The time-division network and the dispatch and system classes: departures, flits, crossings and what is
written at a core (R71-R73, R78-R80, R120, R127, R146, R161, R175, R184-R186, R206, R208, R227, R376-R378, R444, R445). -/

namespace Sys2Proof.Machine

/-! ## What a core accepts (R79, R146, R175, R186, R378) -/

/-- Packets of the system class that wait at a core: its system buffer (R378). -/
def systemWaiting (s : State) (c : Nat) : List (Nat × Packet) :=
  s.packets.filter fun p => p.2.stage == .ready && p.2.cls == .system && p.2.core == c

/-- Whether a landing accepts an entry of a priority: held records enter first (R186). -/
def landingRoom (k : Core) (prio : Nat) : Bool := atPrio k prio < 16 && !(k.heldRecs.any fun h => h.prio == prio)

/-- Whether the receiver of a packet has room for it; a request or a reply always finds the space reserved for it (R184). -/
def hasRoom (s : State) (p : Packet) : Bool :=
  let k := core s p.core
  match p.cls, p.body with
  | .dispatch, .msg m => if m.tgt = 1 then landingRoom k m.prio else k.intake.length < 4
  | .dispatch, .pair r => pairRoom s p.core r.launch
  | .dispatch, _ => k.intake.length < 4
  | .system, _ => (systemWaiting s p.core).length < 4
  | _, _ => true

/-- The tile discards the instruction bytes that it fetched or buffered (R127). -/
def fetchFence (s : State) (c : Nat) : State :=
  let t := tileOfCore c
  if (tile s t).buffered.isEmpty then s else setTile s t { tile s t with buffered := [] }

/-! ## Leaving a core (R71, R72, R146, R376, R377, R444) -/

/-- Bytes of a packet (R72, R190, R444). -/
def packetBytes : Body → Nat
  | .msg m => 16 + m.len
  | .mig _ => 264
  | _ => 16

/-- Whether two packets at a core wait for the same place: one landing priority, the intake, or the active-pair queue. -/
def samePlace (a b : Body) : Bool :=
  match a, b with
  | .msg m, .msg n => (m.tgt == 1) == (n.tgt == 1) && (m.tgt != 1 || m.prio == n.prio)
  | .msg m, .mig _ => m.tgt != 1
  | .mig _, .msg m => m.tgt != 1
  | .mig _, .mig _ => true
  | .pair _, .pair _ => true
  | _, _ => false

/-- Whether a body can leave core `c` for its receiver: the receiver has room, or no packet of the compartment stands on that route
before it, whose last stage holds one packet (R146, R185, R444, log 41: DEDUCED). -/
def routeFree (s : State) (c : Nat) (cls : Class) (b : Body × Nat) : Bool :=
  let k := cmptOfCore c
  let p : Packet := { cls := cls, src := k, dst := cmptOfCore b.2, body := b.1, core := b.2, flits := 1, stage := .sending }
  65536 ≤ b.2 || hasRoom s p || !s.packets.any fun q => q.2.src == k && q.2.core == b.2 && q.2.cls == cls && samePlace q.2.body b.1

/-- Two reduction packets for one owner combine, if they may (R190, R191). -/
def joinRed : Body → Body → Option Body
  | .red r own pkg l, .red r' own' pkg' l' =>
    if own = own' && pkg = pkg' && l = l' && r.op = r'.op && r.red = r'.red && r.cnt + r'.cnt ≤ 0xFF_FFFF then
      some (.red (combine r r') own pkg l)
    else none
  | _, _ => none

/-- A packet crosses a peer port, one of a reduction combined with another that waits there (R193). (log 34: DESIGN CHOICE) -/
def crossPort (s : State) (p : Packet) : State :=
  match s.away.findIdx? fun q => q.core == p.core && (joinRed q.body p.body).isSome with
  | none => { s with away := s.away ++ [p] }
  | some i => { s with away := s.away.modify i fun q => { q with body := (joinRed q.body p.body).getD q.body } }

/-- A body leaves core `c` in the cycle its compartment is in: by the butterflies inside the compartment (R444), over the
network to another one, or out of the package (R41). (log 34: DESIGN CHOICE) -/
def leave (s : State) (c : Nat) (cls : Class) (sender : Option (Nat × Nat)) (b : Body) (dest : Nat) : State :=
  let k := cmptOfCore c
  let flits := ceilDiv (packetBytes b) 128
  if 65536 ≤ dest then
    crossPort s { cls := cls, src := k, dst := k, body := b, core := dest, flits := flits, stage := .ready, time := cycOf s k }
  else if cmptOfCore dest = k then
    let (n, s) := newId s
    let at_ := cycOf s k + (transit c dest + 1) / 2 + ceilDiv (packetBytes b) 64 - 1
    let p : Packet :=
      { cls := cls, src := k, dst := k, body := b, core := dest, flits := flits, stage := .ready, time := at_, sender := sender }
    let s := { s with packets := put s.packets n p }
    if cls == .system then fetchFence s dest else s
  else sendPacket s cls k (cmptOfCore dest) dest flits sender b

/-- Whether a body is counted when it leaves core `c` for `dest` (R161): a pair record to another core, a reduction packet, a broadcast
copy, and a message inside the compartment, which has no flits. A message to another compartment is counted when its last flit
leaves. (log 22: DEDUCED) -/
def countsSent (c dest : Nat) (copy : Bool) : Body → Bool
  | .pair _ => c != dest && dest < 65536
  | .msg _ => dest < 65536 && (copy || cmptOfCore dest == cmptOfCore c)
  | .red _ _ _ _ => dest < 65536
  | _ => false

/-- Whether an entry of the send queue may leave (R376, R412): a message and a reduction packet wait for the accesses that their
release covers, and every body for its route. -/
def entryReady (s : State) (c : Nat) (e : SendEntry) : Bool :=
  (match e.tid with
    | none => true
    | some t => (e.bodies.all fun b => match b.1 with | .pair _ => true | _ => false) || !releaseHeldBefore s t e.before)
  && e.bodies.all (routeFree s c e.cls)

/-- Whether two entries are of one thread and one class, whose messages leave in send order (R376). -/
def SendEntry.follows (e f : SendEntry) : Bool := e.tid.isSome && f.tid == e.tid && f.serial == e.serial && f.cls == e.cls

/-- The place of the entry that leaves next: the oldest one, or one of a class that waits behind no dispatch (R146), in the order in which its
thread has sent (R376). -/
def nextEntry (s : State) (c : Nat) (q : List SendEntry) : Option (Nat × SendEntry) :=
  let es := (List.range q.length).zip q
  match es.head? with
  | none => none
  | some e =>
    if entryReady s c e.2 then some e
    else es.find? fun e => e.2.cls != .dispatch && entryReady s c e.2 && !(q.take e.1).any e.2.follows

/-- SEND_QUEUE_DEPART (R146, R161, R376, R377, R444). -/
def sendDepart (c : Nat) (s : State) : Option State :=
  let k := cmptOfCore c
  match nextEntry s c (core s c).sendQ with
  | none => none
  | some (i, e) =>
    let s := tick s k (max (cycOf s k) (core s c).nextBeat)
    let n := e.bodies.foldl (fun n b => max n (ceilDiv (packetBytes b.1) 64)) 1
    let x := core s c
    let x := { x with sendQ := x.sendQ.eraseIdx i, nextBeat := cycOf s k + n }
    let x := match e.bcast with
      | none => x
      | some r => match redOf x r with
        | some d => freeRed (setRed x { d with copies := d.copies - 1 }) r
        | none => x
    let s := setCore s c (feedCopies x)
    some (e.bodies.foldl (fun s b =>
      let s := if countsSent c b.2 e.bcast.isSome b.1 then countSent s c e.launch 1 else s
      leave s c e.cls (e.tid.map fun t => (t, e.serial)) b.1 b.2) s)

/-! ## Migration (R71-R73) -/

/-- Replace a member's name in the crews of a context: membership is kept across migration (R73, R154). -/
def renameMember (s : State) (n old new : Nat) : State :=
  let x := ctx s n
  if x.crews.any fun p => p.2.members.contains old then
    setCtx s n { x with crews := x.crews.map fun p => (p.1, { p.2 with members := p.2.members.map fun m => if m = old then new else m }) }
  else s

/-- The name under which a thread that is held by the network stands in its crews. -/
def travelName (pkt : Nat) : Nat := 2 ^ 40 + pkt

/-- The slot that a migrating thread leaves is free once the last flit of packet `pkt` has gone (R71); its crews keep the
thread. -/
def leaveSlot (s : State) (tid pkt : Nat) : State :=
  let s := renameMember s (thr s tid).ctx tid (travelName pkt)
  freeSlot (setThr s tid { thr s tid with crew := [none, none, none, none] }) tid

/-- What a packet of R72 and the thread's record carry: the registers as the thread sees them, and no other window. -/
def travelImage (t : Thread) : Thread := setOtherWin { t with park := none, goal := none, fresh0 := false, held := none } []

/-- MIGRATION_DEPART (R71, R72, R249): the packet departs when nothing of the thread is outstanding. -/
def migrationDepart (tid : Nat) (s : State) : Option State :=
  let t := thr s tid
  let c := coreOf tid
  let k := cmptOf tid
  match if t.life == .moving then t.goal else none with
  | none => none
  | some dest =>
    match t.spillFault with
    | some (cause, va) =>
      some (takeFault (setThr s tid { t with life := .run, goal := none, spillFault := none }) tid cause va t.pc)
    | none =>
      if !departReady s tid then none
      else
        let n := s.ids
        let s := setThr s tid { t with goal := none }
        let m : MigPacket := { origin := tid, name := n, ctx := t.ctx, launch := t.launch, image := travelImage t }
        let s := leave s c .dispatch none (.mig m) dest
        some (if cmptOfCore dest = k then leaveSlot (countSent s c t.launch 1) tid n else s)

/-! ## Slots, flits and crossings (R78-R80, R206, R208) -/

/-- The first network cycle at or after `n` that the pair owns (R78). -/
def nextOwned (src dst n : Nat) : Nat :=
  let j := (dst + 31 - src) % 32
  let m := n % 64
  n + (if m ≤ j then j - m else if m ≤ j + 31 then j + 31 - m else j + 64 - m)

/-- The packets of a pair that wait for a slot and whose class has credit, oldest first. -/
def waitingPair (s : State) (src dst : Nat) : List (Nat × Packet) :=
  s.packets.filter fun p => p.2.src == src && p.2.dst == dst && p.2.stage == .sending && hasRoom s p.2

/-- A pre-emption, or a refused store, that reached a thread after its packet was formed travels with the packet (R159, R373). -/
def takeAsync (s : State) (m : MigPacket) : MigPacket :=
  { m with image := { m.image with async := (thr s m.origin).async } }

/-- What sending the last flit of a packet does: a message and a migration are counted, and the slot that a thread has left is free
(R71, R161). -/
def lastFlit (s : State) (p : Packet) : State :=
  match p.body, p.sender with
  | .mig m, _ => leaveSlot (countSent s (coreOf m.origin) m.launch 1) m.origin m.name
  | .msg m, some t => countSent s (coreOf t.1) m.launch 1
  | _, _ => s

/-- The slot in which a pair sends its next flit: the first that it owns once a flit is eligible; one that has waited for credit goes in
a slot that is still to come (R78, R79). -/
def slotOfPair (s : State) (src dst : Nat) (p : Nat × Packet) (rest : List (Nat × Packet)) : Nat :=
  let first := rest.foldl (fun m q => min m q.2.time) p.2.time
  nextOwned src dst (max (max first s.now) (lookD s.pairNext (32 * src + dst) 0))

/-- PAIR_SLOT_SEND (R78, R79, R208): in the next slot that the pair owns, the oldest flit whose class has credit is sent. -/
def pairSlotSend (src dst : Nat) (s : State) : Option State :=
  let ps := waitingPair s src dst
  match ps with
  | [] => none
  | p :: rest =>
    let n := slotOfPair s src dst p rest
    match ps.find? fun q => q.2.time ≤ n with
    | none => none
    | some (i, q) =>
      let last := q.sent + 1 = q.flits
      let q' := { q with sent := q.sent + 1, time := if last then n else n + 1, stage := if last then .flying else .sending
                         body := match q.body with | .mig m => .mig (takeAsync s m) | b => b }
      let s := { s with packets := put s.packets i q', pairNext := put s.pairNext (32 * src + dst) (n + 1), now := max s.now n }
      some (if last then lastFlit s q' else s)

/-- Die boundaries between two compartments (R14, R80). -/
def boundaries (a b : Nat) : Nat :=
  let x := (a / 8) ^^^ (b / 8)
  if x = 0 then 0 else if x = 3 then 2 else 1

/-- The latency of a flit (R80). -/
def flitLatency (a b : Nat) : Nat := 8 + 12 * boundaries a b

/-- A link whose flit fails a second time (R227): the contexts that use it end, and its compartments leave service. (log 25: DEDUCED) -/
def linkFails (s : State) (a b : Nat) : State :=
  let s := logErr s 0x03 true false 3 (64 * b) (32 * a + b) 0
  let parts := [(cmpt s a).part, (cmpt s b).part]
  let users := s.ctxs.filter fun p => p.2.live && parts.contains (some p.2.part)
  let s := users.foldl (fun s p => if (ctx s p.1).killing.isSome then s else killCtx s p.1 none 0) s
  let s := setCmpt s a { cmpt s a with part := none }
  let s := setCmpt s b { cmpt s b with part := none }
  { s with dead := (a :: b :: s.dead).eraseDups }

/-- Whether a context uses the peer ports: it holds a partition on another package. (log 49: DESIGN CHOICE) -/
def usesPorts (s : State) (n : Nat) : Bool := (List.range 64).any fun q => q != s.pkg && Config.remoteCores n q != 0

/-- A flit on a peer port fails its check once, and is sent again; or twice, which ends every context that uses the port and takes it out of
service (R227). (log 49: DESIGN CHOICE) -/
def portFlit (p bad : Nat) (s : State) : Option State :=
  if bad = 0 || (s.away.isEmpty && !s.reqs.any fun r => r.2.pkg != s.pkg) then none
  else if bad = 1 then some (logErr s 0x04 false false 0 4095 p 0)
  else
    let s := logErr s 0x04 true false 3 4095 p 0
    let users := s.ctxs.filter fun x => x.2.live && usesPorts s x.1
    let s := users.foldl (fun s x => if (ctx s x.1).killing.isSome then s else killCtx s x.1 none 0) s
    some { s with dead := ((32 + p) :: s.dead).eraseDups }

/-- The peer port that a name of FLIT_ARRIVAL stands for, beyond every packet's name. (log 49: DESIGN CHOICE) -/
def portNamed (n : Nat) : Option Nat := if 2 ^ 48 ≤ n ∧ n < 2 ^ 48 + 16 then some (n - 2 ^ 48) else none

/-- FLIT_ARRIVAL (R80, R227): `bad` tells how often the transmission fails its check. A flit that fails once is sent again
and logged; one that fails again ends the use of the link. -/
def flitArrival (n bad : Nat) (s : State) : Option State :=
  match look s.packets n with
  | none => (portNamed n).bind fun p => portFlit p bad s
  | some p =>
    if !(p.stage == .sending || p.stage == .flying) || p.sent ≤ p.arrived then none
    else if bad = 0 then
      let all := p.arrived + 1 = p.flits
      let p' := { p with arrived := p.arrived + 1 }
      let p' := if all then { p' with stage := .port, time := p.time + flitLatency p.src p.dst } else p'
      some { s with packets := put s.packets n p', now := if all then max s.now p'.time else s.now }
    else if bad = 1 then
      let s := logErr s 0x03 false false 0 (64 * p.dst) (32 * p.src + p.dst) 0
      some { s with packets := put s.packets n { p with sent := p.sent - 1, stage := .sending, time := p.time + flitLatency p.src p.dst } }
    else some (linkFails { s with packets := del s.packets n } p.src p.dst)

/-- The first cycle of a compartment that starts at or after a network time (R208). -/
def cycleAt (k : Cmpt) (t : Nat) : Nat := if k.fixt then ceilDiv (7 * t) 15 else k.cyc + ceilDiv (t - k.t) 2

/-- Whether a packet of the dispatch or system class waits at the port for an earlier one of its pair that goes to the same place, whose flit is
sent again (R120, R186, R227). -/
def overtakes (s : State) (n : Nat) (p : Packet) : Bool :=
  (p.cls == .dispatch || p.cls == .system) && s.packets.any fun q =>
    q.1 < n && q.2.cls == p.cls && q.2.src == p.src && q.2.dst == p.dst && q.2.core == p.core && q.2.stage != .ready
      && samePlace q.2.body p.body

/-- A packet of the request or reply class is written at its receiver in cycle `c` (R85, R445). -/
def taken (s : State) (n : Nat) (p : Packet) (c : Nat) : State :=
  match p.body with
  | .req rs =>
    rs.foldl (fun s r => match look s.reqs r with
      | some q => { s with reqs := put s.reqs r { q with travelling := false, earliest := c, src := 577 } }
      | none => s) { s with packets := del s.packets n }
  | .reply a =>
    let s := { s with packets := del s.packets n }
    match look s.accs a with
    | some x => { s with accs := put s.accs a { x with replies := x.replies - 1, done := max x.done c } }
    | none => s
  | .job j =>
    let s := { s with packets := del s.packets n }
    match look s.jobs j with
    | some x => { s with jobs := put s.jobs j { x with arrived := true } }
    | none => s
  | _ => { s with packets := put s.packets n { p with stage := .ready, time := c } }

/-- ELASTIC_FIFO_DELIVERY (R206, R208, R445): the oldest packet at a compartment's port crosses into its clock. In elastic
mode the crossing takes 2 to 5 network cycles; a `delay` outside that range leaves the number open. An acknowledgement that has
crossed is there at the end of its cycle (R71). -/
def fifoDelivery (n delay : Nat) (s : State) : Option State :=
  match look s.packets n with
  | none => none
  | some p =>
    if p.stage == .ready then
      if p.body == .ack then some (tick { s with packets := del s.packets n } p.dst (p.time + 1)) else none
    else if p.stage != .port || overtakes s n p
      || s.packets.any fun q => q.2.stage == .port && q.2.dst == p.dst && q.2.time < p.time && !overtakes s q.1 q.2 then none
    else
      let (d, s) := if 2 ≤ delay && delay ≤ 5 && !(cmpt s p.dst).fixt then (delay, s) else crossing s p.dst
      let c := s.packets.foldl (fun c q =>
        if q.2.stage == .ready && q.2.src == p.src && q.2.dst == p.dst && q.2.cls == p.cls then max c q.2.time else c)
        (cycleAt (cmpt s p.dst) (p.time + d))
      let s := taken s n p c
      some (if p.cls == .system then fetchFence s p.core else s)

/-! ## Arrivals at a core (R71, R127, R146, R161, R175, R186) -/

/-- The acknowledgement that a packet has been written, to the core of the thread that sent it (R71). Inside one compartment it takes half a
transit (log 50: DESIGN CHOICE). -/
def acknowledge (s : State) (p : Packet) : State :=
  match p.sender with
  | none => s
  | some (tid, serial) =>
    let k := cmptOfCore p.core
    if k = cmptOf tid then
      let (n, s) := newId s
      let a : Packet :=
        { cls := .reply, src := k, dst := k, body := .ack, core := coreOf tid, flits := 1, stage := .ready
          time := p.time + transit p.core (coreOf tid) / 2, sender := some (tid, serial) }
      { s with packets := put s.packets n a }
    else sendPacket s .reply k (cmptOf tid) (coreOf tid) 1 (some (tid, serial)) .ack

/-- A dispatch-class packet that stands first for its place at its core and finds room there, the compartment brought to
the cycle after the one in which it is written. (log 23: DEDUCED) -/
def written (s : State) (n : Nat) : Option (Packet × State) :=
  match look s.packets n with
  | none => none
  | some p =>
    let behind := s.packets.any fun q =>
      q.2.stage == .ready && q.2.cls == .dispatch && q.2.core == p.core && samePlace q.2.body p.body
        && (q.2.time < p.time || (q.2.time == p.time && q.2.src == p.src && q.1 < n))
    if p.stage != .ready || p.cls != .dispatch || behind || !hasRoom s p then none
    else
      let s := tick s (cmptOfCore p.core) (p.time + 1)
      some (p, acknowledge { s with packets := del s.packets n } { p with time := cycOf s (cmptOfCore p.core) - 1 })

/-- DISPATCH_INTAKE_ARRIVAL (R127, R146, R160, R161). -/
def intakeArrival (n : Nat) (s : State) : Option State :=
  match written s n with
  | none => none
  | some (p, s) =>
    let enter (s : State) (cn : Nat) (l : Option Nat) : State :=
      let s := countRecv (fetchFence s p.core) p.core l 1
      let e := (cycOf s (cmptOfCore p.core), p.body)
      if withheld s cn p.core then setSaved s cn p.core fun v => { v with intake := v.intake ++ [e] }
      else
        let k := core s p.core
        setCore s p.core { k with intake := k.intake ++ [e] }
    match p.body with
    | .mig m => some (enter s m.ctx m.launch)
    | .msg m => if m.tgt = 1 then none else some (enter s m.ctx m.launch)
    | _ => none

/-- LANDING_MESSAGE_ARRIVAL (R161, R186, R187): a taker can have the message from the next cycle on (R379). One of a context that is
pre-empted there joins what has been moved out (R160, R257). -/
def landingArrival (n : Nat) (s : State) : Option State :=
  match written s n with
  | none => none
  | some (p, s) =>
    match p.body with
    | .msg m =>
      if m.tgt != 1 then none
      else
        let k := core s p.core
        let e := { entryOf m with since := cycOf s (cmptOfCore p.core) }
        let s := if withheld s m.ctx p.core then setSaved s m.ctx p.core fun v => { v with landing := v.landing ++ [e] }
          else setCore s p.core { k with landing := k.landing ++ [e] }
        some (countRecv s p.core m.launch 1)
    | _ => none

/-- The queue unit of a core as it reaches the overflow rings of a context. -/
def queueUnit (c cn : Nat) : Asker := ⟨c, tileOfCore c, cn, .s⟩

/-- An access of a core to the ring of a launch (R175), `at_` the place of the record. -/
def ringAccess (s : State) (c l at_ : Nat) (kind : AccKind) (op : Nat → Nat → ReqOp) (r : Option PairRec) :
    Option (Except Chk State × State) :=
  (ringOf s c l).map fun (base, cap, cn) =>
    let va := natWord (base + at_ % cap * 16)
    match piecesNow s (queueUnit c cn) kind va 16 with
    | (.error e, s) => (.error e, s)
    | (.ok ps, s) =>
      let q : Ask := { kind := kind, va := va, size := 16, op := op, next := 0, agent := .ring c, forCtx := some cn }
      let (n, t) := addAccess s (c * 16) q ps true
      (.ok (setCore t c { core t c with ringAcc := some { acc := n, launch := l, record := r } }), s)

/-- A core's full active-pair queue puts a record behind those in the overflow ring of its launch, 16 bytes (R175). -/
def storeRing (s : State) (c : Nat) (r : PairRec) : Option (Except Chk State × State) :=
  r.launch.bind fun l =>
    let (lo, n) := lookD (core s c).rings l (0, 0)
    ringAccess s c l (lo + n) .store (fun k off => .write (sliceOf (r.anchor.toNat + 2 ^ 64 * r.other.toNat) k off)) (some r)

/-- The message of a ring access that has failed, which involves no thread (R221, R224). -/
def ringFault (s : State) (c l : Nat) (k : Cause) (r : Option PairRec) (inj : Bool) : State :=
  faultNoThread s (cmptOfCore c) k (((look s.launches l).map Launch.ctx).getD 0) ((r.map PairRec.anchor).getD 0) ((r.map PairRec.other).getD 0) inj

/-- A core's ring of a launch without its oldest record. -/
def dropOldest (s : State) (c l : Nat) : State :=
  let k := core s c
  match ringOf s c l, lookD k.rings l (0, 0) with
  | some (_, cap, _), (lo, n) => setCore s c { k with rings := if n ≤ 1 then del k.rings l else put k.rings l ((lo + 1) % cap, n - 1) }
  | none, _ => s

/-- The access of the rings in flight is over (R175): a record that has been stored stands in the ring, and one that has been read enters the
queue, or what has been moved out of it (R160). One whose access fails is lost to both (log 24: DEDUCED). -/
def ringReply (s : State) (c : Nat) (r : RingAccess) (a : Access) : State :=
  let s := setCore s c { core s c with ringAcc := none }
  let k := core s c
  let cause : Cause := if a.poisoned then .memoryError else .staleGeneration
  match r.record, a.failed with
  | some x, true => ringFault s c r.launch cause (some x) a.inj
  | none, true => dropOldest (ringFault s c r.launch cause none a.inj) c r.launch
  | some _, false =>
    let (lo, n) := lookD k.rings r.launch (0, 0)
    setCore s c { k with rings := put k.rings r.launch (lo, n + 1) }
  | none, false =>
    let s := dropOldest s c r.launch
    let x : PairRec := ⟨natWord a.val, natWord (a.val / 2 ^ 64), a.ctx, some r.launch⟩
    if withheld s a.ctx c then setSaved s a.ctx c fun v => { v with pairQ := v.pairQ ++ [x] }
    else setCore s c { core s c with pairQ := (core s c).pairQ ++ [x] }

/-- PAIR_RECORD_ARRIVAL (R121, R127, R161, R175): a pair record enters its core's active-pair queue, or the overflow ring of its launch
when the queue is full. -/
def pairArrival (n : Nat) (s : State) : Option State :=
  match written s n with
  | none => none
  | some (p, s1) =>
    match p.body with
    | .pair r =>
      let own := match p.sender with | some t => coreOf t.1 == p.core | none => false
      let s1 := fetchFence s1 p.core
      let s1 := if own then s1 else countRecv s1 p.core r.launch 1
      let k := core s1 p.core
      if withheld s1 r.ctx p.core then some (setSaved s1 r.ctx p.core fun v => { v with pairQ := v.pairQ ++ [r] })
      else if k.pairQ.length < 256 then some (setCore s1 p.core { k with pairQ := k.pairQ ++ [r] })
      else match storeRing s1 p.core r with
        | some (.ok s, _) => some s
        | some (.error (.fault k a), s) =>
          some (ringFault s p.core (r.launch.getD 0) k (some r) (k == .memoryError && walkInjected s r.ctx a))
        | some (.error (.walk _), _) => (storeRing s p.core r).bind fun x => waiting s x.2
        | none => none
    | _ => none

/-- OVERFLOW_RING_REFILL (R175): the oldest record of a ring enters the queue, by an access that this step begins and ends; among several
launches' rings, the lowest launch name goes first (log 51: DESIGN CHOICE). -/
def ringRefill (c : Nat) (s : State) : Option State :=
  let k := core s c
  match k.ringAcc with
  | some r =>
    match look s.accs r.acc with
    | none => some (setCore s c { k with ringAcc := none })
    | some a =>
      if a.left != 0 || a.replies != 0 || (r.record.isNone && 256 ≤ k.pairQ.length) then none
      else some (ringReply (tick { s with accs := del s.accs r.acc } (cmptOfCore c) (a.done + 1)) c r a)
  | none =>
    if 256 ≤ k.pairQ.length then none
    else match k.rings.find? fun p => p.2.2 != 0 && !(look s.launches p.1).any (fun l => withheld s l.ctx c) with
      | none => none
      | some (l, lo, _) =>
        match ringAccess s c l lo .load (fun _ _ => .read) none with
        | some (.ok s, _) => some s
        | some (.error (.fault e a), s) =>
          some (dropOldest (ringFault s c l e none (e == .memoryError && walkInjected s (((look s.launches l).map Launch.ctx).getD 0) a)) c l)
        | some (.error (.walk _), s') => waiting s s'
        | none => none

/-- SEND_QUEUE_DEPART (R376): A message, pair record, reduction packet or broadcast copy leaves the core's send queue once its release holds. -/
def execSendQueueDepart (c : Nat) (s : State) := event (sendDepart c) s
/-- MIGRATION_DEPART (R71): Once all outstanding stores, atomics and sends are acknowledged, the migration packet departs and the origin slot is freed. -/
def execMigrationDepart (t : Nat) (s : State) := event (migrationDepart t) s
/-- PAIR_SLOT_SEND (R78): In each owned frame cycle of a compartment pair, the sender sends the oldest flit of any class with credit at the receiver. -/
def execPairSlotSend (a b : Nat) (s : State) := event (pairSlotSend a b) s
/-- FLIT_ARRIVAL (R80): A TDN flit arrives at its destination port in its class buffer. -/
def execFlitArrival (n b : Nat) (s : State) := event (flitArrival n b) s
/-- ELASTIC_FIFO_DELIVERY (R80): A flit that has arrived at a compartment port crosses the clock boundary and is written at its receiver some network cycles later. -/
def execElasticFifoDelivery (n d : Nat) (s : State) := event (fifoDelivery n d) s
/-- DISPATCH_INTAKE_ARRIVAL (R146): A migration or active-message packet is written into a core's dispatch intake, whose fullness withholds credit. -/
def execDispatchIntakeArrival (n : Nat) (s : State) := event (intakeArrival n) s
/-- LANDING_MESSAGE_ARRIVAL (R186): A landing message or record is written into a landing priority and becomes eligible in the next cycle. -/
def execLandingMessageArrival (n : Nat) (s : State) := event (landingArrival n) s
/-- PAIR_RECORD_ARRIVAL (R175): A pair record reaches the anchor core's active-pair queue, or its overflow ring when the queue is full. -/
def execPairRecordArrival (n : Nat) (s : State) := event (pairArrival n) s
/-- OVERFLOW_RING_REFILL (R175): The active-pair queue refills in order from the core's overflow ring in HBM. -/
def execOverflowRingRefill (c : Nat) (s : State) := event (ringRefill c) s

end Sys2Proof.Machine
end

