-- ==== Sys2Proof/Machine/Start.lean ====
section
/-! DEFINITION. The start unit of a core and what feeds it, traps taken at a turn, fault messages and deadlines
(R142-R153, R159, R173-R177, R214, R222-R224, R226, R250, R364, R373, R378, R391, R421). -/

namespace Sys2Proof.Machine

/-! ## Starts (R142-R145, R250) -/

/-- Where the start unit finds a start (R144). -/
inductive Source where
  | intake | prepared | task (l : Nat) | stage | deck (i : Nat) | stolen
  deriving DecidableEq, Repr

/-- A start: whose it is, where it begins, with which registers, and the first cycle in which it stands in its source. -/
structure Begin where
  ctx : Nat
  launch : Option Nat
  pc : Word
  regs : Tab Word
  lt : Bool := false
  fresh0 : Bool := false
  /-- A migrating thread and the name of its packet. -/
  image : Option (Nat × Thread) := none
  ready : Nat

/-- Words in rising registers from `n`. -/
def regsAt (n : Nat) (ws : List Word) : Tab Word := ((List.range ws.length).map (n + ·)).zip ws

/-- x1-x7 as the launch header gives them (R143). -/
def headerRegs (s : State) (l : Option Nat) : Tab Word :=
  match launchOf s l with
  | some x => regsAt 1 (x.xinit.take 7)
  | none => []

/-- A payload as x8-x15, zero-filled (R143). -/
def payloadRegs (bs : List Byte) : Tab Word :=
  regsAt 8 ((List.range 8).map fun i => natWord (ofBytes ((bs.drop (8 * i)).take 8)))

/-- WSP at a start (R250). -/
def startWsp (s : State) (tid : Nat) (l : Option Nat) : Word :=
  match launchOf s l with
  | none => 0
  | some x =>
    if x.wbase = 0 then 0
    else
      let n := logIn x.gone (cmptsOf s x.part) (coreOf tid) 0 * 16 + slotOf tid
      wspMask (natWord (x.wbase + (n + 1) * x.wsz * 192))

/-- A thread as a start makes it (R143, R250, R254, R255): every register that its source does not give is 0. -/
def newThread (s : State) (tid : Nat) (b : Begin) (prv : Prv) (trl : Bool) (turn : Nat) : Thread :=
  { life := .run, ctx := b.ctx, launch := b.launch, pc := b.pc, g := b.regs.filter fun p => p.1 < 8
    win0 := (b.regs.filter fun p => 8 ≤ p.1).map fun p => (p.1 - 8, p.2)
    wsp := startWsp s tid b.launch, prv := prv, lt := b.lt, trl := trl, det := deterministic s b.launch
    fixt := (cmpt s (cmptOf tid)).fixt, rm := (ctx s b.ctx).rm, turn := turn, fresh0 := b.fresh0
    start := ⟨b.pc, b.regs, false⟩, serial := (thr s tid).serial + 1 }

/-- The next task of a launch on a core (R214). -/
def nextTask (s : State) (c : Nat) (x : Launch) (l : Nat) : Option Task :=
  (lookD x.lists (logIn x.gone (cmptsOf s x.part) c 0) [])[lookD (core s c).tasks l 0]?

/-- The next task start of every running launch that has one (R143, R144): among those that stand there, that of the lowest launch name goes
first (log 51: DESIGN CHOICE). -/
def taskStarts (s : State) (c : Nat) : List (Source × Begin) :=
  s.launches.filterMap fun (l, x) =>
    if !x.running || !((cmpt s (cmptOfCore c)).part == some x.part) || withheld s x.ctx c || x.gone.contains c then none
    else (nextTask s c x l).map fun k =>
      (.task l,
        { ctx := x.ctx, launch := some l, pc := natWord k.entry.toNat, regs := headerRegs s (some l) ++ regsAt 8 k.regs, lt := k.lt
          ready := lookD x.avail (cmptOfCore c) 0 })

/-- The stage start of a core (R152, R391). -/
def stageStart (s : State) (c : Nat) : Option (Source × Begin) :=
  let e := roleOf s c
  match stageLaunch s c with
  | none => none
  | some l =>
    let cn := ((look s.launches l).map (·.ctx)).getD 0
    if inputWaits s c && !withheld s cn c then
      some (.stage, { ctx := cn, launch := some l, pc := natWord (bits e 15 0), regs := headerRegs s (some l), fresh0 := true
                      ready := ((lookD (core s c).chq 0 [])[freshThreads s c]?.map ChanElt.since).getD 0 })
    else none

/-- A task record as a start (R143, R148), its deck serving from cycle `from_` on. -/
def deckBegin (s : State) (r : TaskRec) (from_ : Nat) : Begin :=
  { ctx := r.ctx, launch := r.launch, pc := r.words.headD 0, regs := headerRegs s r.launch ++ regsAt 8 ((r.words.drop 1).take 7)
    ready := max r.since from_ }

/-- The oldest packet of an intake as a start (R143). -/
def intakeBegin (s : State) (e : Nat × Body) : Option Begin :=
  match e.2 with
  | .mig m =>
    some { ctx := m.ctx, launch := m.launch, pc := m.image.pc, regs := [], image := some (m.name, m.image), ready := e.1 }
  | .msg m =>
    some { ctx := m.ctx, launch := m.launch, pc := m.pc, regs := headerRegs s m.launch ++ payloadRegs m.data, ready := e.1 }
  | _ => none

/-- A prepared pair as a start (R143, R176). -/
def pairBegin (s : State) (p : Prepared) : Begin :=
  { ctx := p.record.ctx, launch := p.record.launch, pc := natWord p.entry, regs := headerRegs s p.record.launch ++ p.image, lt := p.lt
    ready := p.since }

/-- The start of the youngest record of a core's own deck (R148). -/
def deckStart (s : State) (c : Nat) : Option (Source × Begin) :=
  let k := core s c
  ((((List.range k.deck.length).zip k.deck).filter fun r => !withheld s r.2.ctx c).getLast?).map fun r =>
    (.deck r.1, deckBegin s r.2 k.deckAt)

/-- The starts that the sources of a core hold, in the order of R144. A stage start stands among the launch tasks (R152).
(log 24: DEDUCED) -/
def sources (s : State) (c : Nat) : List (Source × Begin) :=
  let k := core s c
  ((k.intake.head?).bind (intakeBegin s)).toList.map (fun b => (.intake, b))
    ++ k.prepared.toList.map (fun p => (.prepared, pairBegin s p))
    ++ taskStarts s c ++ (stageStart s c).toList ++ (deckStart s c).toList
    ++ k.stolen.head?.toList.map fun r => (.stolen, deckBegin s r 0)

/-- Take a start out of its source in cycle `t`. -/
def dropStart (k : Core) (t : Nat) : Source → Core
  | .intake => { k with intake := k.intake.tail }
  | .prepared => { k with prepared := none }
  | .task l => { k with tasks := put k.tasks l (lookD k.tasks l 0 + 1) }
  | .stage => k
  | .deck i => { k with deck := k.deck.eraseIdx i, deckAt := t + 1 }
  | .stolen => { k with stolen := k.stolen.tail }

/-- Whether a slot of a core is free. -/
def freeAt (s : State) (c i : Nat) : Bool := (thr s (c * 16 + i)).life == .free

/-- The slot that a start claims (R145): the lowest free one of 1-15, or the lowest of 1-7 that is free together with the
slot eight above it. -/
def slotFor (s : State) (c : Nat) (lt : Bool) : Option Nat :=
  if lt then ((List.range 7).map (· + 1)).find? fun i => freeAt s c i && freeAt s c (i + 8)
  else ((List.range 15).map (· + 1)).find? (freeAt s c)

/-- The first cycle t from `n` on with (t + 6) mod 16 = slot (R145). -/
def takeCycle (slot n : Nat) : Nat := n + (slot + 16 - (n + 6) % 16) % 16

/-- The first of `n` cycles from `t` on in which the start that the unit considers, the first of those that stand there, claims the slot
of that cycle, `one` or `pair` being the slots that an unpaired start and a paired one would claim (R144, R145). -/
def takeFrom (l : List (Source × Begin)) (one pair : Option Nat) : Nat → Nat → Option (Nat × Source × Begin)
  | 0, _ => none
  | n + 1, t =>
    match l.find? fun b => b.2.ready ≤ t with
    | some (src, b) => if (if b.lt then pair else one) = some ((t + 6) % 16) then some (t, src, b) else takeFrom l one pair n (t + 1)
    | none => takeFrom l one pair n (t + 1)

/-- The cycle in which the start unit takes its next start, and that start; an earlier source that comes to hold one before then is seen
within 16 cycles of it. (log 24: DEDUCED) -/
def nextTaken (s : State) (c : Nat) : Option (Nat × Source × Begin) :=
  let l := sources s c
  match l.map fun b => b.2.ready with
  | [] => none
  | r :: rs => takeFrom l (slotFor s c false) (slotFor s c true) 128 (max (max (cycOf s (cmptOfCore c)) (core s c).nextStart) (rs.foldl min r))

/-- A migrating thread in its new slot (R73): its crews know it under its new name. -/
def landThread (s : State) (tid name turn : Nat) (t : Thread) : State :=
  setThr (renameMember s t.ctx (travelName name) tid) tid
    { t with life := .run, turn := turn, serial := (thr s tid).serial + 1 }

/-- Nothing waits between the halves of a pair any more (R226). -/
def clearPair (s : State) (c i : Nat) : State :=
  let x := core s c
  setCore s c { x with compare := del (del x.compare i) (16 + i), matched := del (del x.matched i) (16 + i), lvq := del x.lvq i }

/-- The two halves of a pair as a start makes them; they spill to one area, since their stores are compared (R226, log 12: DEDUCED). -/
def startPair (s : State) (c i : Nat) (b : Begin) (lead trail : Nat) (f : Thread → Thread) : State :=
  let s := clearPair s c i
  let tid := c * 16 + i
  let x := newThread s tid b .u false lead
  setThr (setThr s tid (f x)) (tid + 8) (f { newThread s (tid + 8) b .u true trail with wsp := x.wsp })

/-- The privilege at which a thread starts on a core; a ranger's code runs untranslated (R21). -/
def startPrv (c : Nat) : Prv := if c < 16384 then .u else .f

/-- THREAD_START (R142-R145, R214, R226): the unit takes one start. -/
def threadStart (c : Nat) (s : State) : Option State :=
  let k := cmptOfCore c
  (nextTaken s c).map fun (t, src, b) =>
    let s := scale (tick s k t) k 0x02 (t - b.ready)
    let s := setCore s c { dropStart (core s c) t src with nextStart := t + 1 }
    let i := (t + 6) % 16
    let tid := c * 16 + i
    match b.image with
    | some (name, x) => landThread s tid name (t + 6) x
    | none =>
      if b.lt then startPair s c i b (t + 6) (t + 14) id else setThr s tid (newThread s tid b (startPrv c) false (t + 6))

/-- The cycle in which a pair that a mismatch has killed starts again: both halves stand killed with no reply outstanding (R225, R226). -/
def restartCycle (s : State) (tid : Nat) : Option Nat :=
  let gone (n : Nat) : Bool := (thr s n).restart && answered s n
  let c := coreOf tid
  if slotOf tid < 8 && gone tid && gone (tid + 8) then
    some (takeCycle (slotOf tid) (max (cycOf s (cmptOf tid)) (core s c).nextStart))
  else none

/-- The task of a pair starts again from its start record, once, in the slots of the pair (R226, R250). (log 12: DEDUCED) -/
def restartPair (tid : Nat) (s : State) : Option State :=
  (restartCycle s tid).map fun t =>
    let x := thr s tid
    let c := coreOf tid
    let s := tick s (cmptOf tid) t
    let s := setCore s c { core s c with nextStart := t + 1 }
    let s := leaveCrews (leaveCrews (cancelHeld (cancelHeld s tid) (tid + 8)) tid) (tid + 8)
    let b : Begin := { ctx := x.ctx, launch := x.launch, pc := x.start.pc, regs := x.start.regs, lt := true, ready := t }
    startPair s c (slotOf tid) b (t + 6) (t + 14) fun y => { y with start := { y.start with retried := true } }

/-- The oldest start in a core's system buffer (R378). -/
def firstSystem (s : State) (c : Nat) : Option (Nat × Packet) :=
  (systemWaiting s c).foldl (fun b p =>
    match b with
    | none => some p
    | some q => if p.2.time < q.2.time then some p else some q) (none : Option (Nat × Packet))

/-- The cycle in which a system-class start is taken (R145). -/
def systemCycle (s : State) (c : Nat) (p : Packet) : Nat :=
  takeCycle 0 (max (max (cycOf s (cmptOfCore c)) (core s c).nextStart) (p.time + 1))

/-- SYSTEM_CLASS_START (R142, R145, R378): the oldest start of the system buffer begins in slot 0 at privilege S. -/
def systemStart (c : Nat) (s : State) : Option State :=
  let k := cmptOfCore c
  match firstSystem s c with
  | none => none
  | some (n, p) =>
    match p.body with
    | .msg m =>
      if !freeAt s c 0 then none
      else
        let t := systemCycle s c p
        let s := scale (tick s k t) k 0x02 (t - (p.time + 1))
        let s := { s with packets := del s.packets n }
        let s := setCore s c { core s c with nextStart := t + 1 }
        let b : Begin := { ctx := m.ctx, launch := none, pc := m.pc, regs := payloadRegs m.data, ready := 0 }
        some (setThr s (c * 16) (newThread s (c * 16) b .s false (t + 6)))
    | _ => none

/-! ## Pair dispatch (R173-R177) -/

/-- One end of a pair record as the start unit reads it. -/
inductive PairEnd where
  /-- A node: its port word, its class and its four words. -/
  | node (port : Word) (cls : Nat) (words : List Word)
  /-- A nullary word and the class it stands for (R165). -/
  | nullary (port : Word) (cls : Nat)
  | bad (c : Cause)

/-- The start unit of a core as it reads a context's memory. -/
def startUnit (c cn : Nat) : Asker := ⟨c, tileOfCore c, cn, .s⟩

/-- An end whose four words are `v` (R164, R165, R176): a reserved payload kind is refused as R9 says. -/
def endOf (w : Word) (v : Nat) : PairEnd :=
  let h := v % 2 ^ 64
  let cls := bits h 63 56
  if tagOf w = 1 then
    if cls = 0 || (2 ≤ cls && cls < 16) || bits h 51 50 == 3 then .bad .netMalformed
    else if bits h 49 48 == 3 then .bad .malformedStructure
    else .node w cls ((List.range 4).map fun i => natWord (v / 2 ^ (64 * i)))
  else if isNullary w then .nullary w (tagOf w - 3)
  else .bad .netMalformed

/-- The class of an end. -/
def PairEnd.cls : PairEnd → Nat
  | .node _ k _ => k
  | .nullary _ k => k
  | .bad _ => 0

/-- The image of R177, side a being a node. -/
def pairImage (wa : List Word) (pa : Word) : PairEnd → Tab Word
  | .node _ _ wb => regsAt 8 (wa ++ wb)
  | .nullary w k => regsAt 8 (wa ++ [natWord (k * 2 ^ 56), pa, w, 0])
  | _ => []

/-- Two ends in the order of R176: side a is a node, of the lower class, or the anchor; none when there is no node. -/
def sidesOf (a b : PairEnd) : Option (Word × Nat × List Word × PairEnd) :=
  match a, b with
  | .node pa ka wa, .node pb kb wb => some (if kb < ka then (pb, kb, wb, a) else (pa, ka, wa, b))
  | .node pa ka wa, b => some (pa, ka, wa, b)
  | _, _ => none

/-- The key of the rule of two classes (R173). -/
def ruleKey (x y : Nat) : Nat := 256 * min x y + max x y

/-- Where the rule-table entry of a key stands (R173). -/
def ruleAddr (s : State) (cn key : Nat) : Word := natWord ((ctx s cn).rules + 8 * key)

/-- The entry of a key in the tile's rule cache (R174). -/
def cachedRule (s : State) (c cn key : Nat) : Option Word := (look (tile s (tileOfCore c)).rules cn).bind fun r => look r key

/-- An entry that has been read enters the rule cache, which holds 1024 (R174, log 24: DEDUCED). -/
def installRule (s : State) (c cn key : Nat) (v : Word) : State :=
  let x := tile s (tileOfCore c)
  let rules := if 1024 ≤ x.rules.foldl (fun n r => n + r.2.length) 0 then [] else x.rules
  setTile s (tileOfCore c) { x with rules := put rules cn (put (lookD rules cn []) key v) }

/-- How far the start unit has come with the head of its queue. -/
def setPrep (s : State) (c : Nat) (p : Option Prep) : State := setCore s c { core s c with prep := p }

/-- The head of the active-pair queue leaves it. -/
def dropPair (s : State) (c : Nat) : State := setPrep (setCore s c { core s c with pairQ := (core s c).pairQ.tail }) c none

/-- A record that is not started: a fault message with both port words (R176, R224). -/
def pairFault (s : State) (c : Nat) (k : Cause) (r : PairRec) (inj : Bool := false) : State :=
  faultNoThread (dropPair s c) (cmptOfCore c) k r.ctx r.anchor r.other inj

/-- A read of the start unit, by request and reply (R64, R176), `got` being what its earlier ones gave. -/
def prepRead (s : State) (c : Nat) (r : PairRec) (got : List Nat) (va : Word) (n : Nat) : Option State :=
  match piecesNow s (startUnit c r.ctx) .load va n with
  | (.error (.fault k a), s) => some (pairFault s c k r (k == .memoryError && walkInjected s r.ctx a))
  | (.error (.walk _), s') => waiting s s'
  | (.ok ps, s) =>
    let q : Ask := { kind := .load, va := va, size := n, op := fun _ _ => .read, next := 0, agent := .start c, forCtx := some r.ctx }
    let (a, s) := addAccess s (c * 16) q ps true
    some (setPrep s c (some { acc := some a, got := got }))

/-- The executing core, by the home of the side that the rule names (R173, R176). -/
def prepGo (s : State) (c : Nat) (r : PairRec) (pa : Word) (wa : List Word) (b : PairEnd) (v : Nat) : Option State :=
  if !bit v 63 then some (pairFault s c .noRule r)
  else if bits v 60 16 != 0 || bit v 0 then some (pairFault s c .malformedStructure r)
  else
    let port := match b with | .node pb _ _ => if bit v 62 then pb else pa | _ => pa
    match piecesNow s (startUnit c r.ctx) .load (bodyOf port) 32 with
    | (.error (.fault k a), s) => some (pairFault s c k r (k == .memoryError && walkInjected s r.ctx a))
    | (.error (.walk _), s') => waiting s s'
    | (.ok ps, s) =>
      match ps.head?.bind fun p => homeCore s p.pkg p.pa with
      | none => some (pairFault s c .netAddress r)
      | some h =>
        if h = c then
          let s := dropPair s c
          let e : Prepared :=
            { record := r, image := pairImage wa pa b, entry := bits v 15 0, lt := bit v 61, since := cycOf s (cmptOfCore c) + 1 }
          some (setCore s c { core s c with prepared := some e })
        else if !sendRoom s c then none
        else
          let s := dropPair s c
          let k := core s c
          let e : SendEntry := { tid := none, ctx := r.ctx, bodies := [(.pair r, h)], cls := .dispatch, before := 0, launch := r.launch }
          some (setCore s c { k with sendQ := k.sendQ ++ [e] })

/-- Read an end: a node's four words, or nothing. -/
def prepEnd (s : State) (c : Nat) (r : PairRec) (got : List Nat) (w : Word) (next : State → Nat → Option State) : Option State :=
  if tagOf w = 1 then prepRead s c r got (bodyOf w) 32
  else match endOf w 0 with
    | .bad k => some (pairFault s c k r)
    | _ => next s 0

/-- Steps 3 to 5 of R176, from the rule on. -/
def prepRule (s : State) (c : Nat) (r : PairRec) (va vb : Nat) : Option State :=
  let a := endOf r.anchor va
  let b := endOf r.other vb
  match a, b with
  | .bad k, _ | _, .bad k => some (pairFault s c k r)
  | _, _ =>
    match sidesOf a b with
    | none => some (pairFault s c .netMalformed r)
    | some (pa, ka, wa, y) =>
      let key := ruleKey ka y.cls
      match cachedRule s c r.ctx key with
      | some w => prepGo s c r pa wa y w.toNat
      | none => prepRead s c r [va, vb] (ruleAddr s r.ctx key) 8

/-- The second end, when the first is good. -/
def prepOther (s : State) (c : Nat) (r : PairRec) (va : Nat) : Option State :=
  match endOf r.anchor va with
  | .bad k => some (pairFault s c k r)
  | _ => prepEnd s c r [va] r.other fun s vb => prepRule s c r va vb

/-- Go on from what has been read. -/
def prepFrom (s : State) (c : Nat) (r : PairRec) (got : List Nat) : Option State :=
  match got with
  | [] => prepEnd s c r [] r.anchor fun s va => prepOther s c r va
  | [va] => prepOther s c r va
  | va :: vb :: _ => prepRule s c r va vb

/-- The key of the rule that a record waits for. -/
def waitedRule (r : PairRec) (va vb : Nat) : Nat :=
  match sidesOf (endOf r.anchor va) (endOf r.other vb) with
  | some (_, ka, _, b) => ruleKey ka b.cls
  | none => 0

/-- A read of the start unit has been answered (R176). -/
def prepReply (s : State) (c : Nat) (r : PairRec) (got : List Nat) (x : Access) : State :=
  if x.failed then pairFault s c (if x.poisoned then .memoryError else .staleGeneration) r x.inj
  else
    let (s, got) : State × List Nat := match got with
      | [va, vb] => (installRule s c r.ctx (waitedRule r va vb) (natWord x.val), got)
      | _ => (s, got ++ [x.val])
    let s := setPrep s c (some { got := got })
    (prepFrom s c r got).getD s

/-- PAIR_PREPARE (R176): the oldest record of the active-pair queue, step by step. -/
def pairPrepare (c : Nat) (s : State) : Option State :=
  match (core s c).prepared, (core s c).pairQ with
  | none, r :: _ =>
    let p := (core s c).prep.getD {}
    match p.acc with
    | none => if withheld s r.ctx c then none else prepFrom s c r p.got
    | some a =>
      match look s.accs a with
      | none => some (setPrep s c none)
      | some x =>
        if x.left != 0 || x.replies != 0 then none
        else some (prepReply (tick { s with accs := del s.accs a } (cmptOfCore c) (x.done + 1)) c r p.got x)
  | _, _ => none

/-! ## Stealing, recasting and channels (R149, R150, R153, R391) -/

/-- Whether a core's task lists are finished. -/
def tasksDone (s : State) (c : Nat) : Bool := (taskStarts s c).isEmpty

/-- Whether a core is idle for stealing (R149). -/
def idleToSteal (s : State) (c : Nat) : Bool :=
  let k := core s c
  (List.range 15).all (fun i => freeAt s c (i + 1)) && k.intake.isEmpty && k.pairQ.isEmpty && k.prepared.isNone && k.deck.isEmpty
    && k.stolen.isEmpty && tasksDone s c

/-- The victims in the order in which a core asks them (R149). -/
def victims (c : Nat) : List Nat :=
  ((List.range 7).map fun i => c / 8 * 8 + (c + 1 + i) % 8)
    ++ (List.range 15).map fun i => c / 128 * 128 + (c / 8 + 1 + i) % 16 * 8 + c % 8

/-- Whether a record may go to a thief (R149, R150): its launch runs on the thief's partition and lets records be stolen. -/
def stealable (s : State) (c : Nat) (r : TaskRec) : Bool :=
  match launchOf s r.launch with
  | none => false
  | some x => x.running && !x.det && !x.nsteal && (cmpt s (cmptOfCore c)).part == some x.part && !x.gone.contains c

/-- The victim that a core asks next, and the cycle in which its deck serves the request, after an operation of its owner (R148, R149). -/
def nextSteal (s : State) (c : Nat) : Nat × Nat :=
  let x := core s c
  let v := (victims c).getD (x.stealNext % (victims c).length) c
  (v, max (max (cycOf s (cmptOfCore c)) x.stealAt) (core s v).deckAt)

/-- STEAL_REQUEST (R148-R150, R161): the oldest record of the victim's deck that the thief may take. -/
def stealRequest (c : Nat) (s : State) : Option State :=
  let k := cmptOfCore c
  if (cmpt s k).fixt || !(core s c).mapped || !idleToSteal s c then none
  else
    let (v, at_) := nextSteal s c
    let sent := max (cycOf s k) (core s c).stealAt
    let s := tick s k at_
    let x := core s c
    let s := setCore s c { x with stealAt := sent + 16, stealNext := (x.stealNext + 1) % (victims c).length }
    let y := core s v
    match ((List.range y.deck.length).zip y.deck).find? fun r => stealable s c r.2 && !withheld s r.2.ctx v with
    | none => some s
    | some (i, r) =>
      let s := countSent (setCore s v { y with deck := y.deck.eraseIdx i, deckAt := at_ + 1 }) v r.launch 1
      let x := core s c
      let s := setCore s c { x with stolen := x.stolen ++ [{ r with since := at_ + 1 }], stealNext := 0 }
      some (countRecv s c r.launch 1)

/-- The stage cores of a tile with their entries and how many elements their ch0 holds. -/
def stageCores (s : State) (tl : Nat) : List (Nat × Nat × Nat) :=
  (List.range 8).filterMap fun i =>
    let e := roleOf s (tl * 8 + i)
    if isStage e then some (tl * 8 + i, e, (lookD (core s (tl * 8 + i)).chq 0 []).length) else none

/-- AUTO_RECAST (R153): the core takes the stage whose input holds the most elements, the lowest stage among equals. The dry time counts anew
from the start of a launch and from an automatic recast, and not from a `recast` (log 52: DESIGN CHOICE). -/
def autoRecast (c : Nat) (s : State) : Option State :=
  let k := cmptOfCore c
  let e := roleOf s c
  let x := core s c
  let dry := bits e 47 32
  let ordinary := (launchOf s (stageLaunch s c)).any fun l => !l.det && !l.nrcst
  if !isStage e || !bit e 55 || dry = 0 || !(lookD x.chq 0 []).isEmpty || (cmpt s k).fixt || !ordinary then none
  else
    let best := (stageCores s (tileOfCore c)).foldl (fun (b : Option (Nat × Nat × Nat)) p =>
      match b with
      | none => some p
      | some q =>
        if q.2.2 < p.2.2 || (q.2.2 == p.2.2 && bits p.2.1 59 56 < bits q.2.1 59 56) then some p else some q) none
    match best with
    | none => none
    | some (_, b, _) =>
      if bits b 59 56 = bits e 59 56 then none
      else
        let s := tick s k (max (cycOf s k) (x.dryFrom + 16 * dry))
        let t := tile s (tileOfCore c)
        let e' := e - bits e 59 56 * 2 ^ 56 - bits e 15 0 + bits b 59 56 * 2 ^ 56 + bits b 15 0
        let s := setTile s (tileOfCore c) { t with roles := put t.roles (c % 8) (natWord e') }
        some (setCore s c { core s c with dryFrom := cycOf s k })

/-- The cycle in which a channel's oldest element can move: one that stands there, and not the same as the one before (R391). -/
def moveCycle (s : State) (c k : Nat) : Nat :=
  let x := core s c
  max (cycOf s (cmptOfCore c)) (max (((lookD x.chq k []).head?.map ChanElt.since).getD 0) (lookD x.chanAt k 0))

/-- CHANNEL_ELEMENT_MOVE (R391): the oldest element of an output channel goes to the target stage's core with the fewest
elements, the lowest core among equals; one element of a channel moves in a cycle. -/
def channelMove (c k : Nat) (s : State) : Option State :=
  let e := roleOf s c
  match if k = 0 || 8 ≤ k || !isStage e then [] else lookD (core s c).chq k [] with
  | [] => none
  | v :: q =>
    let goal := (bits e 59 56 + k) % 16
    let best := ((stageCores s (tileOfCore c)).filter fun p => bits p.2.1 59 56 == goal).foldl (fun (b : Option (Nat × Nat × Nat)) p =>
      match b with
      | none => some p
      | some r => if p.2.2 < r.2.2 then some p else some r) none
    match best with
    | none => none
    | some (d, _, n) =>
      if 16 ≤ n then none
      else
        let s := tick s (cmptOfCore c) (moveCycle s c k)
        let next := cycOf s (cmptOfCore c) + 1
        let x := core s c
        let s := setCore s c { x with chq := put x.chq k q, chanAt := put x.chanAt k next }
        some (setCore s d (putElt (core s d) 0 { v with since := next }))

/-! ## Traps taken at a turn (R159, R222, R223, R308, R364, R373) -/

/-- Whether a trap that the thread's own instruction did not raise abandons a wait: a pre-emption abandons the waits of
class W that have changed nothing and those of `save` and `restore`, and another report `mwait` and the waits of R159's second row
(R159, R305, R364, R373). (log 16: DEDUCED) -/
def abandons (c : Cause) : Wait → Bool
  | .watermark | .barrier | .sem _ | .chan | .landing _ | .peek | .seqKey _ => true
  | .sendRoom | .release | .jobs | .chanJobs | .grader | .reduction | .combineRoom | .spill | .refill => c == .preEmption
  | .mill _ => c != .preEmption
  | _ => false

/-- The oldest trap that a thread can take at its next turn: not in a handler, not while it ends, and not before an instruction that
completes first (R159, R223), such as a net instruction under way (R172). -/
def trapDue (t : Thread) : Option Async :=
  if t.life != .run || t.it || t.net.isSome then none
  else t.async.find? fun a =>
    match t.park with
    | none => true
    | some (.again w _) => abandons a.cause w
    | some (.reply _) => false

/-- TRAP_ENTRY (R222): at the thread's turn, TEPC names the instruction at PC. A refill that it abandons runs again in full (R305). -/
def trapEntry (tid : Nat) (s : State) : Option State :=
  match trapDue (thr s tid) with
  | none => none
  | some a =>
    let k := cmptOf tid
    let s := tick s k (turnAt (slotOf tid) (max (cycOf s k) (thr s tid).turn))
    let t := settle (thr s tid) (cycOf s k - 1)
    let s := setThr s tid (noRefill { t with async := t.async.erase a })
    some (takeFault s tid a.cause a.tval t.pc)

/-- FAULT_MESSAGE (R224): the oldest message on its way enters the ranger's queue. -/
def faultMessage (c : Nat) (s : State) : Option State :=
  let k := cmpt s c
  match k.faultNet with
  | [] => none
  | m :: rest =>
    if 256 ≤ k.faultQ.length then none else some (setCmpt s c { k with faultNet := rest, faultQ := k.faultQ ++ [m] })

/-- The firmware as released takes the oldest message of a ranger's queue and ends its containment: the thread enters its
trap routine as R222 sets it, with TEPC at the faulting instruction (R225, log 19: DESIGN CHOICE). A message without a thread, one of code
at F, and one whose thread has been resumed or killed since end nothing. -/
def reflect (c : Nat) (s : State) : Option State :=
  match (cmpt s c).faultQ with
  | [] => none
  | m :: rest =>
    let s := setCmpt s c { cmpt s c with faultQ := rest }
    let t := thr s m.ptid
    some (if m.nth || m.prv == .f || t.life != .contained then s
      else enterTrap (setThr s m.ptid { t with life := .run, why := none }) m.ptid m.cause m.val m.pc)

/-- HALT_DEADLINE (R421): the global timestamp reaches the deadline that a thread waits for. -/
def haltDeadline (tid : Nat) (s : State) : Option State :=
  match (thr s tid).life, (thr s tid).park with
  | .run, some (.again (.halt d) _) =>
    let k := cmptOf tid
    if d.toNat ≤ (cmpt s k).t then none
    else
      let s := tickTo s k d.toNat
      let t := thr s tid
      some (setThr s tid { t with turn := max t.turn (turnAt (slotOf tid) (cycOf s k)) })
  | _, _ => none

/-- SYSTEM_CLASS_START (R378): A system-class start at the receiving core waits in its buffer and starts in slot 0 at privilege S once the slot is free. -/
def execSystemClassStart (c : Nat) (s : State) := event (systemStart c) s
/-- THREAD_START (R145): The start unit takes one start in the cycle that matches the claimed slot, loads its registers and issues its first instruction 6 cycles later. -/
def execThreadStart (c : Nat) (s : State) := event (threadStart c) s
/-- PAIR_PREPARE (R176): The start unit reads both nodes and the rule, orders the sides and forwards or starts the pair dispatch. -/
def execPairPrepare (c : Nat) (s : State) := event (pairPrepare c) s
/-- STEAL_REQUEST (R149): An idle core sends one steal request to a victim, at most every 16 cycles, and a stolen record arrives as a deck start. -/
def execStealRequest (c : Nat) (s : State) := event (stealRequest c) s
/-- AUTO_RECAST (R153): A stage core whose input has stayed empty for its dry time is recast to the stage with the fullest input. -/
def execAutoRecast (c : Nat) (s : State) := event (autoRecast c) s
/-- CHANNEL_ELEMENT_MOVE (R391): One element per cycle moves from an output channel to ch0 of the least-filled core of the target stage. -/
def execChannelElementMove (c k : Nat) (s : State) := event (channelMove c k) s
/-- TRAP_ENTRY (R222): A thread takes a pending trap at its turn: TEPC, TCA, TVAL and TS are set and PC moves to the vector. -/
def execTrapEntry (t : Nat) (s : State) := event (trapEntry t) s
/-- FAULT_MESSAGE (R224): A fault message arrives in the ranger's fault queue of 256 entries, or waits in the network while the queue is full. -/
def execFaultMessage (c : Nat) (s : State) := event (faultMessage c) s
/-- HALT_DEADLINE (R421): The global timestamp reaches the deadline of a parked halt, which then writes 0 and resumes the thread. -/
def execHaltDeadline (t : Nat) (s : State) := event (haltDeadline t) s

end Sys2Proof.Machine
end

