-- ==== Sys2Proof/Machine/HostLink.lean ====
section
/-! DEFINITION. Power, boot, the host link and the firmware's work: partitions, contexts, launches, the cruise, pre-emption,
kills, the log and attestation (R2, R22, R26, R52, R109, R159-R163, R174, R207, R213-R219, R231, R423-R430, R448). -/

namespace Sys2Proof.Machine

/-! ## Power and boot (R2, R426) -/

/-- Whether a byte is no part of the device: host memory behind the host window, or another package's (R2, R40). -/
def elsewhere (own key : Nat) : Bool :=
  key / 2 ^ 48 != own || (match placeOf (key % 2 ^ 48) with | .host _ => true | _ => false)

/-- What stands when the device's own state is lost (R2): host memory and other packages keep theirs. A frame of another package keeps its
state and generation, and nothing that this one holds or has reported for it; the state of the host window's frames stood at home yarders
of the device, and is lost (log 55: DESIGN CHOICE). The package's number is what its firmware will give it again; the steps still to come
and the count of open values are the model's own. -/
def cold (s : State) : State :=
  { State.reset with
    mem := s.mem.filter fun c => elsewhere s.pkg c.1
    frames := (s.frames.filter fun f => f.1 / 2 ^ 32 != s.pkg).map fun f => (f.1, { f.2 with reports := [], retry := [] })
    pkg := s.pkg, agenda := s.agenda, fresh := s.fresh }

/-- POWER_ON (R2). -/
def execPowerOn (s : State) : Host.Outcome State Fault Refusal := .next (if s.power then s else cold s)

/-- POWER_OFF (R2): every piece of device state is lost. -/
def powerOff (s : State) : Option State := some { cold s with power := false }

/-- Change the host link. -/
def setHost (s : State) (f : HostLink → HostLink) : State := { s with host := f s.host }

/-- Word n of a packet. -/
def pw (ws : List Word) (n : Nat) : Nat := (ws.getD n 0).toNat
/-- The sequence number of a packet. -/
def seqOf (ws : List Word) : BitVec 32 := BitVec.ofNat 32 (bits (pw ws 0) 63 32)
/-- The kind of a packet. -/
def kindOf (ws : List Word) : Nat := bits (pw ws 0) 31 24
/-- The context that a packet names. -/
def ctxOf (ws : List Word) : Nat := bits (pw ws 0) 23 12

/-- BOOT_IMAGE (R29, R426, R448): an image that passes is measured and runs, with no record posted yet, and the first to run assigns the
package its number; after one that fails, the package answers only a new image and attestation, and drops the other packets it has taken. -/
def bootImage (image : List Byte) (s : State) : Option State :=
  if Config.imageGood image then
    some (setHost { s with booted := true, measures := s.measures ++ [Config.digest image]
                           pkg := if s.measures.isEmpty then Config.packageNumber.toNat else s.pkg }
      fun h => { h with posted := 0, consumed := 0 })
  else some (setHost { s with booted := false } fun h => { h with taken := h.taken.filter (fun ws => kindOf ws == 6), calls := [] })

/-- The host writes data by the host link, into its own memory or into HBM (R2, R426). -/
def hostWrite (pa : Nat) (bs : List Byte) (s : State) : Option State :=
  if within pa bs.length .hbm || within pa bs.length .host then some (writeByteList s s.pkg pa bs) else none

/-! ## The intake and the kick register (R423, R424) -/

/-- The network cycles of 100 ns (R5). -/
def poll : Nat := 120
/-- The network cycles of 4 µs. -/
def kickLimit : Nat := 4800
/-- The network cycles of 1 µs. -/
def microsecond : Nat := 1200

/-- The record of a kick that is dropped (R424, R425); a package that runs no image posts none (R426). -/
def kickRecord (s : State) (kind : Nat) (v : Word) (ts : Nat) : State :=
  if s.booted then hostRecord s { kind := kind, status := 0, seq := v.setWidth 32, tag := 0, ts := ts, cnt := 0 } else s

/-- KICK (R424): a kick that finds 16 waiting is dropped with a bad-kick record. -/
def kick (v : Word) (s : State) : Option State :=
  if 16 ≤ s.host.kicks.length then some (kickRecord s 0x32 v s.now)
  else some (setHost s fun h => { h with kicks := h.kicks ++ [(v, s.now)] })

/-- INTAKE_SLOT_WRITE (R423): the host writes the 16 words of a slot. -/
def slotWrite (i : Nat) (ws : List Word) (s : State) : Option State :=
  some (setHost s fun h => { h with slots := put h.slots (i % 256) ((ws ++ List.replicate 16 0).take 16) })

/-- A packet that has been taken: refused at once for a reserved bit or kind (R8, R423). A package that runs no image
answers attestation only (R426). (log 32: DEDUCED) -/
def takePacket (s : State) (ws : List Word) : State :=
  let k := kindOf ws
  if !s.booted && k != 6 then s
  else if bits (pw ws 0) 11 0 != 0 || k = 0 || 10 ≤ k || ((k = 2 || k = 5 || k = 6) && ctxOf ws != 0) then packetDone s (seqOf ws) 1 0
  else setHost s fun h => { h with taken := h.taken ++ [ws] }

/-- Whether the head kick passes step 1 of R424. -/
def kickGood (h : HostLink) (v : Word) : Bool := v.toNat < 2 ^ 32 && v.setWidth 32 == h.last + 1

/-- The slot that a kick names, when its sequence number is the kick's (R424). -/
def matching (h : HostLink) (v : Word) : Option (List Word) :=
  match look h.slots (v.toNat % 256) with
  | some ws => if bits (pw ws 0) 63 32 = v.toNat then some ws else none
  | none => none

/-- The time of the next read of a kick's slot: every 100 ns from its arrival. -/
def pollTime (s : State) (at_ : Nat) : Nat := at_ + poll * max 1 (ceilDiv (s.now - at_) poll)

/-- KICK_SLOT_POLL (R424): the next read of the head kick's slot, 100 ns after the one before, until 4 µs have passed since its arrival.
(log 32: DEDUCED) -/
def slotPoll (s : State) : Option State :=
  match s.host.kicks with
  | [] => none
  | (v, at_) :: rest =>
    let drop (s : State) : State := setHost s fun h => { h with kicks := rest }
    let t := pollTime s at_
    if !kickGood s.host v then some (kickRecord (drop s) 0x32 v s.now)
    else if at_ + kickLimit < t then none
    else
      match matching s.host v with
      | some ws => some (takePacket { setHost (drop s) (fun h => { h with last := v.setWidth 32 }) with now := t } ws)
      | none => some { s with now := t + 1 }

/-- KICK_AHEAD_OF_PACKET (R424): 4 µs have passed after the kick's arrival without a match. (log 32: DEDUCED) -/
def kickAhead (s : State) : Option State :=
  match s.host.kicks with
  | [] => none
  | (v, at_) :: rest =>
    if !kickGood s.host v || (s.now ≤ at_ + kickLimit && (matching s.host v).isSome) then none
    else
      let s := { setHost s (fun h => { h with kicks := rest }) with now := max s.now (at_ + kickLimit) }
      some (kickRecord s 0x31 v (at_ + kickLimit))

/-- The oldest packet taken, when it is of a kind, and the state without it. -/
def packetOf (s : State) (kind : Nat) : Option (List Word × State) :=
  match s.host.taken with
  | ws :: rest => if kindOf ws = kind then some (ws, setHost s fun h => { h with taken := rest }) else none
  | [] => none

/-- Whether words from `i` on are 0. -/
def clearFrom (ws : List Word) (i : Nat) : Bool := (List.range (16 - i)).all fun j => pw ws (i + j) == 0

/-! ## The completion ring (R425, R448) -/

/-- The words of a host record (R425). -/
def hostWords (r : Record) : List Nat := [r.kind * 2 ^ 56 + r.status * 2 ^ 48 + r.seq.toNat, r.tag, r.ts, r.cnt]

/-- CONSUMED_REGISTER (R448). -/
def consumedWrite (v : Word) (s : State) : Option State :=
  if s.host.consumed.toNat ≤ v.toNat && v.toNat ≤ s.host.posted then some (setHost s fun h => { h with consumed := v }) else none

/-- The physical address of an entry of the completion ring (R425, log 6: DESIGN CHOICE). -/
def ringEntry (n : Nat) : Nat := 0x2000_0000_0000 + Config.ringBase % 2 ^ 43 + n % 256 * 32

/-- HOST_RECORD_POST (R425, R448). -/
def recordPost (s : State) : Option State :=
  match s.host.waiting with
  | [] => none
  | r :: rest =>
    if s.host.posted - s.host.consumed.toNat < 256 then
      let s := writeByteList s s.pkg (ringEntry s.host.posted) (wordBytes (hostWords r))
      some (setHost s fun h => { h with waiting := rest, posted := h.posted + 1 })
    else none

/-- Write bytes at a host memory address (R40): those inside the host window are bytes of this memory. (log 34: DESIGN CHOICE) -/
def writeHost (s : State) (a : Nat) (bs : List Byte) : State :=
  if Config.hostBase ≤ a && a + bs.length ≤ Config.hostBase + 0x1000_0000_0000 then
    writeByteList s s.pkg (0x2000_0000_0000 + (a - Config.hostBase)) bs
  else s

/-! ## Partitions (R22, R207, R427) -/

/-- The partition byte of a compartment in a setup packet (R427). -/
def setupByte (ws : List Word) (c : Nat) : Nat := bits (pw ws (1 + c / 8)) (8 * (c % 8) + 7) (8 * (c % 8))

/-- The partition that a setup gives a compartment; one that left service stays out of every partition (R227, log 25: DEDUCED). -/
def setupPart (s : State) (ws : List Word) (c : Nat) : Option Nat :=
  if setupByte ws c < 32 && !s.dead.contains c then some (setupByte ws c) else none

/-- The compartments of a partition after a setup. -/
def setupCmpts (s : State) (ws : List Word) (p : Nat) : List Nat := (List.range 32).filter fun c => setupPart s ws c == some p

/-- PARTITION_SETUP (R22, R207, R427). -/
def partitionSetup (s : State) : Option State :=
  (packetOf s 2).map fun (ws, s) =>
    let n := seqOf ws
    if !clearFrom ws 5 || (List.range 32).any (fun c => 32 ≤ setupByte ws c && setupByte ws c != 255) then packetDone s n 1 0
    else if s.ctxs.any fun x => x.2.live && setupCmpts s ws x.2.part != cmptsOf s x.2.part then packetDone s n 2 0
    else
      let changed := (List.range 32).filter fun p => setupCmpts s ws p != cmptsOf s p
      let s' := (List.range 32).foldl (fun t c =>
        let k := cmpt t c
        let new := setupPart s ws c
        let el := match new with | some p => changed.contains p | none => k.part.isSome
        let t := if el then tickTo t c t.now else t
        setCmpt t c { cmpt t c with part := new, fixt := k.fixt && !el }) s
      packetDone s' n 0 0

/-! ## Contexts (R52, R428, R429) -/

/-- CREATE_CONTEXT (R428). -/
def createContext (s : State) : Option State :=
  (packetOf s 7).map fun (ws, s) =>
    let n := seqOf ws
    let w := pw ws
    if bits (w 1) 63 48 != 0 || bits (w 1) 13 0 != 0 || bits (w 1) 15 14 == 2 || bits (w 2) 63 37 != 0 || bits (w 2) 31 13 != 0
        || bits (w 2) 7 0 != 0 || 6 ≤ bits (w 2) 10 8 || bits (w 3) 63 52 != 0 || bits (w 4) 63 52 != 0 || bits (w 5) 63 52 != 0
        || bits (w 5) 7 0 != 0 || bits (w 7) 63 32 != 0 || bits (w 8) 63 52 != 0 || !clearFrom ws 9
        || w 3 % 65536 != 0 || w 4 % 32768 != 0 || w 8 % 64 != 0 then packetDone s n 1 0
    else
      let c := ctxOf ws
      let p := bits (w 2) 36 32
      if c = 0 || (ctx s c).live || (cmptsOf s p).isEmpty then packetDone s n 3 0
      else
        let x : Ctx :=
          { live := true, root := bits (w 1) 47 16 * 65536, part := p, d2ok := bit (w 2) 12, fixt := bit (w 2) 11
            rm := BitVec.ofNat 3 (bits (w 2) 10 8), rules := w 3, v0 := w 4, tvb := natWord (w 5), seed := natWord (w 6)
            pdl := if w 7 = 0 then 1000 else w 7, save := w 8 }
        packetDone (setCtx s c x) n 0 0

/-- Whether a launch of a context is enqueued or running. -/
def launchesOf (s : State) (c : Nat) : Bool :=
  s.launches.any fun l => l.2.ctx == c && (l.2.running || (part s l.2.part).queue.contains l.1)

/-- RELEASE_CONTEXT (R52, R429): a kill of the context ends first. (log 30: DEDUCED) -/
def releaseContext (s : State) : Option State :=
  match packetOf s 8 with
  | none => none
  | some (ws, s) =>
    let n := seqOf ws
    let c := ctxOf ws
    if !clearFrom ws 1 then some (packetDone s n 1 0)
    else if !(ctx s c).live then some (packetDone s n 3 0)
    else if (ctx s c).killing.isSome then none
    else if launchesOf s c || !(holders s c).isEmpty then some (packetDone s n 2 0)
    else
      let s := { s with
        tiles := s.tiles.map (fun p => (p.1, { p.2 with tlb := p.2.tlb.filter (fun l => l.ctx != c), rules := del p.2.rules c }))
        walks := s.walks.map (fun p => if p.2.ctx = c then (p.1, { p.2 with discard := true }) else p)
        cmpts := s.cmpts.map (fun p => (p.1, { p.2 with ran := if p.2.ran = c then 0 else p.2.ran }))
        ctxs := del s.ctxs c }
      some (packetDone s n 0 0)

/-! ## Launches (R207, R213-R219) -/

/-- What the firmware's reading of a context's memory comes to: what it reads, a wait for a frame that migrates (R56), or a refusal; the log
has what the reads have met (R227). -/
inductive Read (α : Type) where
  | val (a : α) (s : State)
  | wait
  | bad (s : State)

/-- Go on reading. -/
def Read.bind {α β : Type} (r : Read α) (f : α → State → Read β) : Read β :=
  match r with
  | .val a s => f a s
  | .wait => .wait
  | .bad s => .bad s

/-- Some bytes of one page as the firmware reads them; refused where no leaf maps them or they cannot be read. -/
def readSlice (s : State) (c va n : Nat) : Read Nat :=
  match walkPage s c va with
  | .error _ => .bad (noteWalk s c va)
  | .ok l =>
    let s := noteWalk s c va
    let pa := l.pa + (va - l.va)
    match if l.tier == .ft then .stale else admitted s l.pkg pa (some l.gen) with
    | .stale => .bad s
    | .hold _ => .wait
    | .perform pkg pa =>
      match readHome s pkg pa n with
      | some v => .val v (noteErrors s pkg pa n)
      | none => .bad (noteErrors s pkg pa n)

/-- The parts of a word, lowest first. -/
def readSlices (s : State) (c : Nat) : List Slice → Read Nat
  | [] => .val 0 s
  | w :: ws => (readSlice s c w.1 w.2.1).bind fun v s => (readSlices s c ws).bind fun hi s => .val (v + 2 ^ (8 * w.2.1) * hi) s

/-- A word of a context's memory as the firmware reads it. -/
def readVa (s : State) (c va : Nat) : Read Nat := if 2 ^ 52 < va + 8 then .bad s else readSlices s c (splitPage va 8)

/-- `n` words from an address. -/
def readWords (s : State) (c va : Nat) : Nat → Read (List Nat)
  | 0 => .val [] s
  | n + 1 => (readVa s c va).bind fun w s => (readWords s c (va + 8) n).bind fun ws s => .val (w :: ws) s

/-- The tasks of a list (R214): refused for a reserved bit or an unreadable entry. -/
def readTasks (s : State) (c va : Nat) : Nat → Read (List Task)
  | 0 => .val [] s
  | n + 1 =>
    (readWords s c va 10).bind fun ws s =>
      let w (i : Nat) : Nat := ws.getD i 0
      if 65536 ≤ w 0 || w 0 % 2 != 0 || bits (w 9) 62 0 != 0 then .bad s
      else
        (readTasks s c (va + 80) n).bind fun ts s =>
          .val ({ entry := BitVec.ofNat 16 (w 0), regs := ((ws.drop 1).take 8).map natWord, lt := bit (w 9) 63 } :: ts) s

/-- The task lists of logical cores `i` to `i + n − 1` (R214). -/
def readLists (s : State) (c tlist i : Nat) : Nat → Read (Tab (List Task))
  | 0 => .val [] s
  | n + 1 =>
    (readWords s c (tlist + 16 * i) 2).bind fun w s =>
      let a := w.getD 0 0
      let k := w.getD 1 0
      if 2 ^ 52 ≤ a || 2 ^ 32 ≤ k || a % 16 != 0 then .bad s
      else (readTasks s c a k).bind fun ts s => (readLists s c tlist (i + 1) n).bind fun r s => .val ((i, ts) :: r) s

/-- The role image (R151, R213): refused for a reserved bit or value. -/
def readRoles (s : State) (c va i : Nat) : Nat → Read (Tab Word)
  | 0 => .val [] s
  | n + 1 =>
    (readVa s c (va + 8 * i)).bind fun v s =>
      if roleOk v then (readRoles s c va (i + 1) n).bind fun r s => .val ((i, natWord v) :: r) s else .bad s

/-- Whether a header lies where R213 lets it lie. -/
def headerPlace (s : State) (c va : Nat) : Bool :=
  va < 2 ^ 52 && va % 64 == 0 && [va, va + 64].all fun a =>
    match walkPage s c a with
    | .ok l => l.tier == .on || l.tier == .hbm
    | .error _ => false

/-- The refusals of R215 that a header shows by itself. -/
def headerBad (s : State) (c : Nat) (w : Nat → Nat) : Bool :=
  let noff := bits (w 10) 63 48
  let nsz := bits (w 10) 47 32
  let coff := bits (w 10) 31 16
  let csz := bits (w 10) 15 0
  bits (w 0) 58 47 != 0 || 2 ^ 52 ≤ w 1 || 2 ^ 52 ≤ w 12 || bits (w 13) 45 0 != 0 || w 15 != 0
    || bit (w 0) 62 != (ctx s c).fixt || (bit (w 0) 59 && !bit (w 0) 62)
    || noff % 32 != 0 || nsz % 32 != 0 || coff % 8 != 0 || csz % 8 != 0 || 0x8000 < noff + nsz || 0x8000 < coff + csz
    || (0 < nsz && 0 < csz && noff < coff + csz && coff < noff + nsz)
    || (bits (w 14) 63 52 != 0 && bits (w 14) 51 0 == 0) || bits (w 11) 63 52 == 0 || bits (w 0) 46 32 == 0
    || (bit (w 0) 63 && (List.range 8).any fun i => bits (w 9) (8 * i + 7) (8 * i) == 0)

/-- A launch as its header and what it names give it, or its refusal by R215. -/
def captureLaunch (s : State) (c : Nat) (seq : BitVec 32) (ws : List Nat) : Read Launch :=
  let w (i : Nat) : Nat := ws.getD i 0
  let p := (ctx s c).part
  let gone := goneNow s
  let n := bits (w 0) 46 32
  if headerBad s c w || usable s p gone < n || (bit (w 13) 63 && usable s p gone ≤ bits (w 13) 60 46) then .bad s
  else
    (readLists s c (w 1) 0 n).bind fun lists s =>
      (if w 12 = 0 then .val [] s else readRoles s c (w 12) 0 (8 * ceilDiv n 8)).bind fun roles s => .val
           { ctx := c, part := p, seq := seq, det := bit (w 0) 63, fixt := bit (w 0) 62, nsteal := bit (w 0) 61, nrcst := bit (w 0) 60
             nsb := bit (w 0) 59, ccnt := n, tag := BitVec.ofNat 32 (w 0), xinit := ((ws.drop 2).take 7).map natWord, sf := natWord (w 9)
             noff := bits (w 10) 63 48, nsz := bits (w 10) 47 32, coff := bits (w 10) 31 16, csz := bits (w 10) 15 0
             rsz := bits (w 11) 63 52, rbase := bits (w 11) 51 0, etgt := bit (w 13) 63, eprio := bits (w 13) 62 61
             ecore := bits (w 13) 60 46, wsz := bits (w 14) 63 52, wbase := bits (w 14) 51 0, seed := (ctx s c).seed
             lists := lists, roles := roles, gone := gone } s

/-- The launch-end record (R213, R215, R425): to the host ring, or to a landing. -/
def endRecord (s : State) (c : Nat) (seq : BitVec 32) (tag status : Nat) (target : Option (Nat × Nat)) (gone : List Nat) : State :=
  let r : Record := { kind := 0x30, status := status, seq := seq, tag := tag, ts := s.now, cnt := 0 }
  match target.bind fun t => (physIn gone (cmptsOf s (ctx s c).part) t.2).map fun k => (t.1, k) with
  | none => hostRecord s r
  | some (prio, k) =>
    postRecord s k { kind := 0x30, len := 32, prio := prio, mcast := false, pkg := s.pkg, seq := 0, stid := 0, ctx := c
                     data := wordBytes (hostWords r) }

/-- The header of a launch and all that it names are captured and the launch is enqueued, or it is refused whole (R213-R215, R429); none
while a frame that it reads migrates (R56). -/
def enqueueLaunch (s : State) (c : Nat) (n : BitVec 32) (header : Nat) : Option State :=
  if !(ctx s c).live then some (endRecord s c n 0 3 none [])
  else if !headerPlace s c header then some (endRecord s c n 0 1 none [])
  else match readWords s c header 16 with
    | .wait => none
    | .bad s => some (endRecord s c n 0 1 none [])
    | .val hs s =>
      match captureLaunch s c n hs with
      | .wait => none
      | .bad s =>
        let e := hs.getD 13 0
        some (endRecord s c n (bits (hs.getD 0 0) 31 0) 1 (if bit e 63 then some (bits e 62 61, bits e 60 46) else none) (goneNow s))
      | .val l s =>
        let (i, s) := newId s
        let s := { s with launches := put s.launches i l }
        some (pump (setPart s l.part { part s l.part with queue := (part s l.part).queue ++ [i] }) l.part)

/-- LAUNCH (R213-R215, R423): a launch by a packet, whose further words hold nothing. -/
def launchPacket (s : State) : Option State :=
  (packetOf s 1).bind fun (ws, s) =>
    if !clearFrom ws 2 then some (packetDone s (seqOf ws) 1 0) else enqueueLaunch s (ctxOf ws) (seqOf ws) (pw ws 1)

/-- A launch by a system call, which the firmware carries out for a context once no frame that it reads migrates; no packet's number goes with
it (R213, log 43: DESIGN CHOICE). -/
def systemLaunch (c : Nat) (header : Word) (s : State) : Option State :=
  match enqueueLaunch (setHost s fun h => { h with calls := h.calls.erase (c, header) }) c 0 header.toNat with
  | some s => some s
  | none =>
    if s.host.calls.contains (c, header) then none else some (setHost s fun h => { h with calls := h.calls ++ [(c, header)] })

/-- Whatever a compartment has scheduled keeps its distance from its cycle when CYC takes another value (R207). (log 35: DEDUCED) -/
def rebase (s : State) (k new : Nat) : State :=
  let old := cycOf s k
  let move (n : Nat) : Nat := new + n - old
  let since (r : TaskRec) : TaskRec := { r with since := move r.since }
  let landed (e : LandEntry) : LandEntry := { e with since := move e.since }
  let mill (o : MillOp) : MillOp := { o with sent := move o.sent, began := move o.began }
  let entry (e : Entry) : Entry := { e with cycle := move e.cycle, taken := move e.taken, mill := e.mill.map mill }
  { s with
    threads := s.threads.map (fun p =>
      if cmptOf p.1 = k then
        (p.1, { p.2 with turn := turnAt (slotOf p.1) (move p.2.turn), pend := p.2.pend.map (fun q => { q with land := move q.land })
                         spillTurn := move p.2.spillTurn
                         park := match p.2.park with | some (.again w n) => some (.again w (min n new)) | q => q })
      else p)
    cores := s.cores.map (fun p =>
      if cmptOfCore p.1 = k then
        (p.1, { p.2 with nextBeat := move p.2.nextBeat, nextStart := move p.2.nextStart, stealAt := move p.2.stealAt, dryFrom := move p.2.dryFrom
                         deckAt := move p.2.deckAt, deck := p.2.deck.map since, stolen := p.2.stolen.map since
                         intake := p.2.intake.map (fun q => (move q.1, q.2))
                         landing := p.2.landing.map landed, heldRecs := p.2.heldRecs.map landed, takeAt := move p.2.takeAt
                         chanAt := p.2.chanAt.map (fun q => (q.1, move q.2))
                         prepared := p.2.prepared.map (fun q => { q with since := move q.since })
                         chq := p.2.chq.map (fun q => (q.1, q.2.map fun e => { e with since := move e.since })) })
      else p)
    tiles := s.tiles.map (fun p =>
      if cmptOfTile p.1 = k then
        (p.1, { p.2 with dispatched := p.2.dispatched.map mill, millQ := p.2.millQ.map mill
                         sfuRing := p.2.sfuRing.map fun r => (r.1, move r.2) })
      else p)
    cmpts := s.cmpts.map (fun p =>
      if p.1 = k then
        (p.1, { p.2 with arrivals := p.2.arrivals.map entry, entries := p.2.entries.map entry, acceptAt := move p.2.acceptAt })
      else p)
    jobs := s.jobs.map (fun p =>
      if cmptOfCore p.2.core = k then (p.1, { p.2 with sent := p.2.sent.map move, ended := p.2.ended.map move }) else p)
    reqs := s.reqs.map (fun p => if cmptOf p.2.tid = k then (p.1, { p.2 with earliest := move p.2.earliest }) else p)
    accs := s.accs.map (fun p => if cmptOf p.2.tid = k then (p.1, { p.2 with done := move p.2.done }) else p)
    packets := s.packets.map (fun p => if p.2.stage == .ready && p.2.dst == k then (p.1, { p.2 with time := move p.2.time }) else p) }

/-- A compartment enters a clock mode at a network time (R206, R207): fixed timing takes CYC from the timestamp at once, and
elastic mode counts on. -/
def enterMode (s : State) (t : Nat) (fixt : Bool) (k : Nat) : State :=
  let s := tickTo s k t
  let x := cmpt s k
  if fixt && !x.fixt then
    let c := 7 * x.t / 15
    let s := rebase s k c
    setCmpt s k { cmpt s k with fixt := true, cyc := c, served := [] }
  else setCmpt s k { x with fixt := fixt }

/-- MODE_CHANGE_COMPLETE (R207): a launch that has come to the head of the queue meanwhile may ask for the other mode. -/
def modeChanged (p : Nat) (s : State) : Option State :=
  match (part s p).change with
  | none => none
  | some (fixt, t) =>
    let s := { s with now := max s.now t }
    let s := setPart s p { part s p with change := none }
    some (pump ((cmptsOf s p).foldl (fun s k => enterMode s t fixt k) s) p)

/-- Whether a compartment's tiles pass to a context that is about to run there (R367, R390): what they hold is another's. (log 39: DEDUCED) -/
def passes (s : State) (c k : Nat) : Bool := (cmpt s k).ran != c

/-- Whether a compartment's mills have finished what was issued to them. -/
def millsDone (s : State) (k : Nat) : Bool :=
  s.tiles.all fun t => cmptOfTile t.1 != k || (t.2.dispatched.isEmpty && t.2.millQ.isEmpty)

/-- Whether the tiles of compartments can be handed to a context: those that pass have finished what was issued to them. -/
def tilesReady (s : State) (c : Nat) (ks : List Nat) : Bool := ks.all fun k => !passes s c k || millsDone s k

/-- What the firmware leaves of a tile that passes to another context (R367, R390). -/
def Tile.cleaned (x : Tile) : Tile := { x with acc := [], anchors := [], staging := [], staged := none, books := [], sems := [] }

/-- Hand a compartment's tiles to a context (R367, R390). -/
def handOver (c : Nat) (s : State) (k : Nat) : State :=
  if passes s c k then
    let s := { s with tiles := s.tiles.map fun t => (t.1, if cmptOfTile t.1 = k then t.2.cleaned else t.2) }
    setCmpt s k { cmpt s k with ran := c }
  else s

/-- Whether a launch may start (R207): no change of mode runs, its mode is the partition's, and no launch of the other mode
waits ahead of it. -/
def mayStart (s : State) (i : Nat) (l : Launch) : Bool :=
  let q := part s l.part
  let ahead := q.queue.takeWhile fun j => j != i
  q.queue.contains i && q.change.isNone && l.fixt == clockMode s l.part
    && (ahead.all fun j => match look s.launches j with | some m => m.fixt == l.fixt | none => true)
    && tilesReady s l.ctx (cmptsOf s l.part)

/-- The cycle of a compartment from which a launch that starts at a network time makes its tasks available (R206, R219). (log 35: DEDUCED) -/
def availFrom (s : State) (l : Launch) (now k : Nat) : Nat :=
  if l.det && l.fixt then (7 * now / 15 / 448 + 1) * 448 else cycOf s k + 1

/-- The role table of the partition as a launch writes it (R151, R213). (log 39: DEDUCED) -/
def writeRoles (s : State) (l : Launch) : State :=
  let cs := cmptsOf s l.part
  if l.roles.isEmpty then
    { s with tiles := s.tiles.map fun p => if cs.contains (cmptOfTile p.1) then (p.1, { p.2 with roles := [] }) else p }
  else
    l.roles.foldl (fun s r =>
      match physIn l.gone cs r.1 with
      | none => s
      | some c =>
        let x := tile s (tileOfCore c)
        let s := setTile s (tileOfCore c) { x with roles := put x.roles (c % 8) r.2 }
        setCore s c { core s c with dryFrom := cycOf s (cmptOfCore c) }) s

/-- LAUNCH_START (R127, R174, R207, R213, R219, R367, R390). -/
def launchStart (i : Nat) (s : State) : Option State :=
  match look s.launches i with
  | none => none
  | some l =>
    if !mayStart s i l then none
    else
      let cs := cmptsOf s l.part
      let clear (p : Nat × Tile) : Nat × Tile :=
        if cs.contains (cmptOfTile p.1) then (p.1, { p.2 with rules := del p.2.rules l.ctx, buffered := [] }) else p
      let s := cs.foldl (handOver l.ctx) { s with tiles := s.tiles.map clear }
      let now := s.now
      let s := cs.foldl (fun t k => tickTo t k now) s
      let q := part s l.part
      let s := setPart s l.part { q with queue := q.queue.filter fun j => j != i }
      let s := writeRoles s l
      some { s with launches := put s.launches i { l with running := true, avail := cs.map fun k => (k, availFrom s l now k) } }

/-! ## The cruise (R161-R163) -/

/-- The launch that a body belongs to. -/
def bodyLaunch : Body → Option Nat
  | .msg m => m.launch
  | .mig m => m.launch
  | .pair r => r.launch
  | .red _ _ _ l => l
  | _ => none

/-- Whether a packet keeps a core not idle for a launch (R162, R163): a message that has left its queue and is not counted yet, since its last
flit has not gone (R161), or a pair record on its way to the core that sent it, which is never counted. -/
def uncounted (i c : Nat) (p : Packet) : Bool :=
  bodyLaunch p.body == some i && match p.body, p.sender with
    | .msg _, some t => coreOf t.1 == c && p.stage == .sending
    | .pair _, some t => coreOf t.1 == c && p.core == c
    | _, _ => false

/-- Whether a core holds nothing of a launch (R162). -/
def coreQuiet (i : Nat) (k : Core) : Bool :=
  let l := some i
  !(k.intake.any (fun b => bodyLaunch b.2 == l)) && !(k.pairQ.any fun r => r.launch == l) && (lookD k.rings i (0, 0)).2 == 0
    && !(k.prepared.any fun p => p.record.launch == l) && !(k.deck.any fun r => r.launch == l)
    && !(k.stolen.any fun r => r.launch == l) && !(k.sendQ.any fun e => e.launch == l)
    && !(k.ringAcc.any fun r => r.launch == i) && !(k.reds.any fun r => r.launch == l && !r.owed.isEmpty)

/-- Whether a core is idle for a launch (R162); what pre-emption has moved out of it is still to run. (log 30: DEDUCED) -/
def coreIdle (s : State) (i : Nat) (x : Launch) (c : Nat) : Bool :=
  let l := some i
  let mine (o : MillOp) : Bool := o.launch == l && coreOf o.tid == c
  !(s.threads.any fun t => coreOf t.1 == c && t.2.life != .free && t.2.launch == l && slotOf t.1 != 0)
    && coreQuiet i (core s c) && !(s.packets.any fun p => uncounted i c p.2)
    && (lookD x.lists (logIn x.gone (cmptsOf s x.part) c 0) []).length ≤ lookD (core s c).tasks i 0
    && !(s.jobs.any fun j => j.2.launch == l && j.2.core == c)
    && !((tile s (tileOfCore c)).dispatched ++ (tile s (tileOfCore c)).millQ).any mine
    && !((cmpt s (cmptOfCore c)).entries ++ (cmpt s (cmptOfCore c)).arrivals).any (fun e => e.mill.any mine)
    && !(s.accs.any fun a => a.2.posted && a.2.launch == l && coreOf a.2.tid == c)
    && !(ctx s x.ctx).stopped.contains (cmptOfCore c)

/-- The cores of a partition that a sweep of a launch reads: all that hold anything (R162, R163). -/
def sweptCores (s : State) (i : Nat) (x : Launch) : List Nat :=
  let cs := cmptsOf s x.part
  let listed := x.lists.filterMap fun t => physIn x.gone cs t.1
  let hold := (s.threads.filter fun t => t.2.launch == some i).map fun t => coreOf t.1
  let sent := s.packets.filterMap fun p => p.2.sender.map fun t => coreOf t.1
  ((s.cores.map (·.1) ++ listed ++ hold ++ sent ++ s.jobs.map fun j => j.2.core).filter fun c => cs.contains (cmptOfCore c)).eraseDups

/-- Whether every core is idle for a launch at this moment. (log 30: DEDUCED) -/
def launchIdle (s : State) (i : Nat) (x : Launch) : Bool := (sweptCores s i x).all (coreIdle s i x) && (ctx s x.ctx).stopped.isEmpty

/-- The sums of a launch's counts (R163). -/
def counts (s : State) (i : Nat) : Nat × Nat :=
  s.cores.foldl (fun n c => (n.1 + lookD c.2.sent i 0, n.2 + lookD c.2.recv i 0)) (0, 0)

/-- The launch ends (R163, R204): its record is posted, and the selection sets that it bound are freed. -/
def endLaunch (s : State) (i : Nat) (x : Launch) : State :=
  let s := { s with
    launches := put s.launches i { x with running := false, ended := true }
    tiles := s.tiles.map fun t => (t.1, { t.2 with sets := t.2.sets.filter fun g => g.2.launch != some i }) }
  let s := endRecord s x.ctx x.seq x.tag.toNat 0 (if x.etgt then some (x.eprio, x.ecore) else none) x.gone
  pump s x.part

/-- A sweep has read every core: the second of two that agree ends the launch (R163). -/
def sweepEnd (s : State) (i : Nat) (x : Launch) (r : Sweep) : State :=
  let x := { x with reading := none }
  if r.idle && r.sent = r.recv then
    if x.sweep = some (r.sent, r.recv) then endLaunch s i x
    else { s with launches := put s.launches i { x with sweep := some (r.sent, r.recv) } }
  else { s with launches := put s.launches i { x with sweep := none } }

/-- CRUISE_SWEEP (R163): a sweep reads the next core, in an open order; with the last one it is over. -/
def cruiseSweep (i : Nat) (s : State) : Option State :=
  match look s.launches i with
  | none => none
  | some x =>
    if !x.running then none
    else
      let r := x.reading.getD {}
      let left := (sweptCores s i x).filter fun c => !r.seen.contains c
      match left with
      | [] => some (sweepEnd s i x { r with idle := r.idle && (ctx s x.ctx).stopped.isEmpty })
      | c0 :: _ =>
        let (w, s) := openWord s
        let c := left.getD (w.toNat % left.length) c0
        let k := core s c
        let r : Sweep :=
          { seen := c :: r.seen, idle := r.idle && coreIdle s i x c, sent := r.sent + lookD k.sent i 0, recv := r.recv + lookD k.recv i 0 }
        some (if left.length = 1 then sweepEnd s i x { r with idle := r.idle && (ctx s x.ctx).stopped.isEmpty }
          else { s with launches := put s.launches i { x with reading := some r } })

/-! ## Pre-emption (R159, R160, R257, R429) -/

/-- The physical compartments that a mask names in a context's partition (R429). -/
def maskCmpts (s : State) (c mask : Nat) : List Nat := (cmptsOf s (ctx s c).part).filter fun k => mask = 0 || bit mask k

/-- Whether words 1-15 of a pre-empt or resume packet hold no reserved bit (R429). -/
def maskOk (ws : List Word) : Bool := pw ws 1 < 2 ^ 32 && clearFrom ws 2

/-- A word of a context's save area takes an open value (R160), since the form of what the ranger stores is not given; a word without a place
is not stored, and none is while its frame migrates (R56). (log 53: DESIGN CHOICE) -/
def saveWord (n va : Nat) (s : State) : Option State :=
  match walkPage s n va with
  | .error _ => some s
  | .ok l =>
    match admitted s l.pkg (l.pa + (va - l.va)) (some l.gen) with
    | .hold _ => none
    | .stale => some s
    | .perform pkg pa =>
      let (w, s) := openWord s
      some (writeHome s pkg pa 8 w.toNat)

/-- Every item that has been moved out takes 64 bytes of the save area, in rising order: those numbered from `i` on. (log 53: DESIGN CHOICE) -/
def saveItems (n : Nat) (s : State) (i m : Nat) : Option State :=
  ((List.range (8 * m)).map fun j => (ctx s n).save + 64 * i + 8 * j).foldl (fun s va => s.bind (saveWord n va)) (some s)

/-- How many items have been moved out of a core. -/
def Saved.items (v : Saved) : Nat :=
  v.intake.length + v.pairQ.length + v.deck.length + v.landing.length + v.heldRecs.length + v.tasks.length
    + (v.chq.map fun q => q.2.length).foldl (· + ·) 0

/-- How many items of a context have been moved out. -/
def itemsOut (s : State) (n : Nat) : Nat := ((ctx s n).saved.map Saved.items).foldl (· + ·) 0

/-- The task lists of a context that a core has not finished: the launch, the next entry, and how many there are (R160, R214). -/
def unfinished (s : State) (n c : Nat) : List (Nat × Nat × Nat) :=
  s.launches.filterMap fun (l, x) =>
    let m := (lookD x.lists (logIn x.gone (cmptsOf s x.part) c 0) []).length
    let i := lookD (core s c).tasks l 0
    if x.ctx = n && x.running && (cmpt s (cmptOfCore c)).part == some x.part && !x.gone.contains c && i < m then some (l, i, m) else none

/-- What pre-emption moves out of a core (R160, R257): the context's items, each in its order, and how many of its threads the core holds that
will end through their save routine. -/
def takeOut (s : State) (n c : Nat) : State :=
  let k := core s c
  let mine (m : Nat) : Bool := m == n
  let inn := k.intake.filter fun b => bodyCtx b.2 == some n
  let prep := match k.prepared with | some p => if mine p.record.ctx then [p.record] else [] | none => []
  let part (q : Tab (List ChanElt)) (f : ChanElt → Bool) : Tab (List ChanElt) := q.map fun p => (p.1, p.2.filter f)
  let held := (s.threads.filter fun t => coreOf t.1 == c && t.2.life != .free && t.2.life != .killed && !ending t.2 && t.2.ctx == n).length
  let todo := unfinished s n c
  let left := part k.chq fun e => !mine e.ctx
  let s := setCore s c
    { k with intake := k.intake.filter fun b => bodyCtx b.2 != some n
             pairQ := k.pairQ.filter fun r => !mine r.ctx
             prepared := if prep.isEmpty then k.prepared else none
             prep := if (k.pairQ.head?.any fun r => mine r.ctx) then none else k.prep
             tasks := todo.foldl (fun q t => put q t.1 t.2.2) k.tasks
             dryFrom := if (lookD left 0 []).isEmpty && !(lookD k.chq 0 []).isEmpty then cycOf s (cmptOfCore c) else k.dryFrom
             deck := k.deck.filter fun r => !mine r.ctx
             stolen := k.stolen.filter fun r => !mine r.ctx
             landing := k.landing.filter fun e => !mine e.ctx
             heldRecs := k.heldRecs.filter fun e => !mine e.ctx
             chq := left }
  let s := fillLanding s c
  setSaved s n c fun v =>
    { v with intake := v.intake ++ inn, pairQ := v.pairQ ++ prep ++ k.pairQ.filter fun r => mine r.ctx
             deck := v.deck ++ (k.stolen.filter fun r => mine r.ctx) ++ k.deck.filter fun r => mine r.ctx
             landing := v.landing ++ k.landing.filter fun e => mine e.ctx
             heldRecs := v.heldRecs ++ k.heldRecs.filter fun e => mine e.ctx
             chq := (part k.chq fun e => mine e.ctx).foldl (fun q p => put q p.1 (lookD q p.1 [] ++ p.2)) v.chq
             tasks := todo.foldl (fun q t => put q t.1 t.2.1) v.tasks, threads := v.threads + held }

/-- The same, with the save area that it fills. -/
def moveOut (n : Nat) (s : State) (c : Nat) : Option State :=
  let i := itemsOut s n
  let s := takeOut s n c
  saveItems n s i (itemsOut s n - i)

/-- PRE_EMPT_CONTEXT (R159, R160, R429). -/
def preEmpt (s : State) : Option State :=
  match packetOf s 3 with
  | none => none
  | some (ws, s) =>
    let n := ctxOf ws
    let x := ctx s n
    if !maskOk ws then some (packetDone s (seqOf ws) 1 0)
    else if !x.live then some (packetDone s (seqOf ws) 3 0)
    else if x.preempt.isSome || x.killing.isSome then none
    else
      let ks := maskCmpts s n (pw ws 1)
      let s := setCtx s n { x with stopped := (x.stopped ++ ks).eraseDups
                                   preempt := some (ks, seqOf ws, s.now + x.pdl * microsecond) }
      let cores := ((s.cores.map (·.1)) ++ s.threads.map fun t => coreOf t.1).eraseDups
      ((cores.filter fun c => ks.contains (cmptOfCore c)).foldl (fun s c => s.bind (moveOut n · c)) (some s)).map fun s =>
        checkPreempt ((holders s n).foldl (fun s p =>
          let t := thr s p.1
          if ks.contains (cmptOf p.1) && t.life != .killed && !ending t then
            setThr s p.1 { t with async := t.async ++ [⟨.preEmption, 0⟩] }
          else s) s) n

/-- PRE_EMPTION_DEADLINE (R160, R429): a thread has not ended when the deadline passes, and the context is killed. -/
def preEmptDeadline (n : Nat) (s : State) : Option State :=
  match (ctx s n).preempt with
  | none => none
  | some (_, seq, t) => some (killCtx { s with now := max s.now t } n (some seq) 4)

/-- What pre-emption moved out of a core goes back, before what has come since (R160, log 31: DESIGN CHOICE). The entries of the landing enter it
as records do, as far as it has room (R186). -/
def putBack (s : State) (v : Saved) : State :=
  let now := cycOf s (cmptOfCore v.core) + 1
  let k := core s v.core
  let s := setCore s v.core
    { k with intake := v.intake.map (fun e => (now, e.2)) ++ k.intake, pairQ := v.pairQ ++ k.pairQ
             prep := if v.pairQ.isEmpty then k.prep else none
             deck := v.deck.map (fun r => { r with since := now }) ++ k.deck
             tasks := v.tasks.foldl (fun q t => put q t.1 t.2) k.tasks
             chq := v.chq.foldl (fun q p => put q p.1 (p.2.map (fun e => { e with since := now }) ++ lookD q p.1 [])) k.chq }
  let s := v.landing.foldl (fun s e => postRecord s v.core e) s
  fillLanding (setCore s v.core { core s v.core with heldRecs := (core s v.core).heldRecs ++ v.heldRecs }) v.core

/-- The start that resumes a core's threads (R429). -/
def resumeStart (s : State) (n : Nat) (v : Saved) : State :=
  let m : Msg :=
    { tgt := 2, prio := 0, len := 8, dest := v.core, mcast := false, pkg := s.pkg, pc := (ctx s n).tvb + 0x100, ctx := n, launch := none
      stid := 0, seq := 0, data := toBytes 8 v.threads }
  let k := cmptOfCore v.core
  let (i, s) := newId s
  let p : Packet :=
    { cls := .system, src := k, dst := k, body := .msg m, core := v.core, flits := 1, stage := .ready, time := cycOf s k }
  fetchFence { s with packets := put s.packets i p } v.core

/-- RESUME_CONTEXT (R160, R429): done once every start has found room in its core's system buffer. -/
def resumeContext (s : State) : Option State :=
  match packetOf s 9 with
  | none => none
  | some (ws, s) =>
    let n := ctxOf ws
    let x := ctx s n
    if !maskOk ws then some (packetDone s (seqOf ws) 1 0)
    else if !x.live then some (packetDone s (seqOf ws) 3 0)
    else
      let ks := maskCmpts s n (pw ws 1)
      let vs := x.saved.filter fun v => ks.contains (cmptOfCore v.core)
      let starts := vs.filter fun v => v.threads != 0
      if x.preempt.isSome || x.killing.isSome || !tilesReady s n ks || starts.any (fun v => 4 ≤ (systemWaiting s v.core).length) then none
      else
        let s := setCtx s n { x with stopped := x.stopped.filter fun k => !ks.contains k
                                     saved := x.saved.filter fun v => !ks.contains (cmptOfCore v.core) }
        let s := vs.foldl putBack (ks.foldl (handOver n) s)
        some (packetDone (starts.foldl (fun s v => resumeStart s n v) s) (seqOf ws) 0 0)

/-! ## Kills (R109, R231, R429) -/

/-- KILL_CONTEXT (R109, R231): a kill or a pre-emption under way ends first. (log 30: DEDUCED) -/
def killContext (s : State) : Option State :=
  match packetOf s 4 with
  | none => none
  | some (ws, s) =>
    let n := ctxOf ws
    if !clearFrom ws 1 then some (packetDone s (seqOf ws) 1 0)
    else if !(ctx s n).live then some (packetDone s (seqOf ws) 3 0)
    else if (ctx s n).killing.isSome || (ctx s n).preempt.isSome then none
    else some (killCtx s n (some (seqOf ws)) 0)

/-- Whether a write of a job of a killed generation of a context is still to reach its home (R109). -/
def killedWrites (s : State) (n : Nat) : Bool := s.reqs.any fun p => p.2.ctx == n && killedWrite s p.2

/-- YARDER_KILL_REPORT (R109, R231): a unit has no write of the killed generation outstanding. -/
def killReport (n unit : Nat) (s : State) : Option State :=
  let x := ctx s n
  match x.killing with
  | some (reply, status, units) =>
    if units.contains unit && !killedWrites s n then
      some (checkKill (setCtx s n { x with killing := some (reply, status, units.filter fun u => u != unit) }) n)
    else none
  | none => none

/-! ## The log and attestation (R426, R429, R430) -/

/-- The words of a log entry (R430). -/
def logWords (e : LogEntry) : List Nat :=
  [0x40 * 2 ^ 56 + e.err * 2 ^ 48 + bitAt e.last 47 + bitAt e.inj 46 + e.act * 2 ^ 44 + e.src * 2 ^ 32 + e.lost, e.ts, e.place, e.det]

/-- The firmware reads a scaler for itself or for a context's system call, and leaves what it has read in HBM or host memory (R431): its
configuration word, the count, the minimum, the maximum, and the bins two to a word. (log 54: DESIGN CHOICE) -/
def scalerRead (k i pa : Nat) (s : State) : Option State :=
  let x := lookD (cmpt s k).scalers i {}
  let ws := [bitAt x.en 7 + x.ev, x.count, x.min, x.max]
    ++ (List.range 16).map fun j => lookD x.bins (2 * j) 0 + 2 ^ 32 * lookD x.bins (2 * j + 1) 0
  if i < 16 then hostWrite pa (wordBytes ws) s else none

/-- READ_LOG (R429, R430). -/
def readLog (s : State) : Option State :=
  (packetOf s 5).map fun (ws, s) =>
    let a := pw ws 1
    let n := pw ws 2
    if a % 32 != 0 || n = 0 || 4096 < n || !clearFrom ws 3 then packetDone s (seqOf ws) 1 0
    else
      let es := s.log.take n
      let s := writeHost { s with log := s.log.drop n } a (es.flatMap fun e => wordBytes (logWords e))
      packetDone s (seqOf ws) 0 es.length

/-- The attestation reply without its signature (R429). -/
def attestBody (s : State) (ws : List Word) : List Byte :=
  toBytes 8 s.measures.length ++ s.measures.flatMap (fun d => (d ++ List.replicate 64 0).take 64)
    ++ (List.range 32).map Config.fuseByte ++ wordBytes ((List.range 8).map fun i => pw ws (1 + i))

/-- ATTEST (R426, R429). -/
def attest (s : State) : Option State :=
  (packetOf s 6).map fun (ws, s) =>
    let a := pw ws 9
    let body := attestBody s ws
    let n := body.length + 4627
    if a % 64 != 0 || 2 ^ 32 ≤ pw ws 10 || !clearFrom ws 11 || pw ws 10 < n then packetDone s (seqOf ws) 1 0
    else packetDone (writeHost s a (body ++ (List.range 4627).map (Config.signatureByte body))) (seqOf ws) 0 n

/-- POWER_OFF (R2): Power is removed and every piece of device state is lost. -/
def execPowerOff (s : State) := event powerOff s
/-- BOOT_IMAGE (R426): The die-0 boot ROM receives a firmware image, checks its signature, records its digest in a measurement register and runs it. -/
def execBootImage (v : List Byte) (s : State) := event (bootImage v) s
/-- KICK (R424): A host write to the kick register enters the kick queue, or is dropped with a bad-kick record when the queue is full. -/
def execKick (v : Word) (s : State) := event (kick v) s
/-- KICK_SLOT_POLL (R424): Every 100 ns the device reads the intake slot of the head kick and takes the packet when the slot's seq matches. -/
def execKickSlotPoll (s : State) := event slotPoll s
/-- KICK_AHEAD_OF_PACKET (R424): 4 µs after a kick arrived with no matching slot, a kick-ahead-of-packet record is posted and the kick is dropped. -/
def execKickAheadOfPacket (s : State) := event kickAhead s
/-- INTAKE_SLOT_WRITE (R423): The host's write of a command packet into an intake slot of the control region lands. -/
def execIntakeSlotWrite (i : Nat) (ws : List Word) (s : State) := event (slotWrite i ws) s
/-- CONSUMED_REGISTER (R448): A host write gives the number of completion-ring records taken; a write that would lower the value or exceed the posted count is ignored. -/
def execConsumedRegister (v : Word) (s : State) := event (consumedWrite v) s
/-- HOST_RECORD_POST (R425): A waiting record is written into the host completion ring once the ring has room. -/
def execHostRecordPost (s : State) := event recordPost s
/-- LAUNCH (R213): A launch packet, kind 0x01, captures its header, seed, task lists and role image and enqueues the launch, or refuses it. -/
def execLaunch (s : State) := event launchPacket s
/-- LAUNCH_START (R207): An enqueued launch starts: it clears the context's rule-cache entries, resets the pools and makes its tasks available to the start units. -/
def execLaunchStart (i : Nat) (s : State) := event (launchStart i) s
/-- MODE_CHANGE_COMPLETE (R207): The 50 µs change of a partition's clock mode completes, and the waiting launch of the other mode can start. -/
def execModeChangeComplete (p : Nat) (s : State) := event (modeChanged p) s
/-- CRUISE_SWEEP (R163): One sweep of the cruise reads every core's idle state and its sent and received counts. -/
def execCruiseSweep (i : Nat) (s : State) := event (cruiseSweep i) s
/-- PARTITION_SETUP (R427): A partition-setup packet, kind 0x02, assigns compartments to partitions, or is refused whole. -/
def execPartitionSetup (s : State) := event partitionSetup s
/-- PRE_EMPT_CONTEXT (R429): A pre-empt packet, kind 0x03, makes the ranger pre-empt the context's threads in the masked compartments. -/
def execPreEmptContext (s : State) := event preEmpt s
/-- PRE_EMPTION_DEADLINE (R160): The pre-emption deadline of a context expires with a thread not yet ended, and the firmware kills the context. -/
def execPreEmptionDeadline (n : Nat) (s : State) := event (preEmptDeadline n) s
/-- KILL_CONTEXT (R231): A kill packet, kind 0x04, advances the context generation, kills its threads, stops its jobs and discards its queued work. -/
def execKillContext (s : State) := event killContext s
/-- YARDER_KILL_REPORT (R109): A yarder reports that it has no write of a killed generation outstanding. -/
def execYarderKillReport (n u : Nat) (s : State) := event (killReport n u) s
/-- READ_LOG (R429): A read-log packet, kind 0x05, writes the oldest log entries to host memory and removes them from the log. -/
def execReadLog (s : State) := event readLog s
/-- ATTEST (R426): An attest packet, kind 0x06, writes the measured digests, the fuse identity and the nonce, signed by the device identity key. -/
def execAttest (s : State) := event attest s
/-- CREATE_CONTEXT (R428): A create-context packet, kind 0x07, checks the context record and then sets up the context, its page tables, its crew table and its seed. -/
def execCreateContext (s : State) := event createContext s
/-- RELEASE_CONTEXT (R429): A release-context packet, kind 0x08, reports busy, or invalidates the context's translations and frees its resources. -/
def execReleaseContext (s : State) := event releaseContext s
/-- RESUME_CONTEXT (R429): A resume packet, kind 0x09, puts back the moved items and issues a system-class start on each core that held a saved thread. -/
def execResumeContext (s : State) := event resumeContext s

end Sys2Proof.Machine
end

