-- ==== Sys2Proof/Machine/Rns.lean ====
section
/-! DEFINITION. Major 0x1F: residue instructions and the residue map (R269-R273, R228, R229, R368-R372). -/

namespace Sys2Proof.Machine

/-- H of R269. -/
def rnsH : Nat := 105252413875823

/-- A byte of a word. -/
def byteOf (w : Word) (j : Nat) : Nat := lane w 8 j

/-- The inverse of `p` modulo `m`, searched among `n` candidates. -/
def inverseFrom (p m : Nat) : Nat → Nat
  | 0 => 0
  | n + 1 => if p * n % m = 1 % m then n else inverseFrom p m n

/-- Chinese remaindering over channels with residues `r` (R272): the least non-negative solution and the modulus. -/
def crtFold (r : Nat → Nat) : List Nat → Nat × Nat
  | [] => (0, 1)
  | j :: js =>
    let (x, p) := crtFold r js
    let m := modulus j
    let k := (r j + m - x % m) * inverseFrom (p % m) m m % m
    (x + p * k, p * m)

/-- crt(r, T) of R272: centred, none (∞) when a channel is inconsistent, which only a data channel can be (R269). -/
def crt (r : Nat → Nat) (t : List Nat) : Option Int :=
  if t.any (fun j => j < 6 && modulus j ≤ r j) then none
  else
    let (x, p) := crtFold r t
    some (if 2 * x < p then (x : Int) else (x : Int) - p)

/-- What a decode reports (R272). -/
inductive RnsResult where
  | ok (v : Int)
  | corr (v : Int) (ch : Nat)
  | range
  | unprot (v : Int)
  | uncorr
  deriving DecidableEq, Repr

/-- Whether a decoded value is within a bound. -/
def withinBound (v : Option Int) (l : Nat) : Bool := match v with | some x => x.natAbs ≤ l | none => false

/-- `rns_decode` (R272); `uncorr` stands for its memory-error fault. -/
def rnsDecode (x : Tile) (w : Word) (b : Nat) : RnsResult :=
  let s := (List.range 8).filter fun j => !failed x j
  let r := byteOf w
  if x.rnsMode = 2 then .unprot ((crt (fun j => r j % modulus j) s).getD 0)
  else
    let l := min b rnsH
    let v := crt r s
    if withinBound v l then .ok (v.getD 0)
    else
      let f := if x.rnsMode = 0 then s.filter fun j => withinBound (crt r (s.filter (· != j))) l else []
      match f with
      | [j] => .corr ((crt r (s.filter (· != j))).getD 0) j
      | _ => if rnsH < b then .range else .uncorr

/-- The status word of R371. -/
def rnsStatus (x : Tile) (r : RnsResult) : Word :=
  natWord (x.rnsMode.toNat * 2 ^ 11 + match r with
    | .ok _ => 0
    | .corr _ ch => ch * 256 + 1
    | .range => 2
    | .unprot _ => 3
    | .uncorr => 4)

/-- The value of R371. -/
def rnsValue : RnsResult → Word
  | .ok v | .corr v _ | .unprot v => wordOf v
  | _ => 0

/-- One residue operation of a tile is counted; a located channel is logged, lasting when the same channel was located
within the last 2^20 operations: the firmware then has to degrade the tile (R228). -/
def rnsCount (s : State) (tl : Nat) (r : Option RnsResult) : State :=
  let x := tile s tl
  let n := x.rnsOps + 1
  match r with
  | some (.corr _ ch) =>
    let again := match look x.located ch with | some m => n ≤ m + 2 ^ 20 | none => false
    let x := if again then { x with degrade := some ch } else x
    logErr (setTile s tl { x with rnsOps := n, located := put x.located ch n }) 0x06 again false 0 (64 * cmptOfTile tl) tl ch
  | _ => setTile s tl { x with rnsOps := n }

/-- Write a residue pair after `n` cycles (R309, R369). -/
def pairResult (s : State) (d : Reg) (v b : Word) (n : Nat) : State :=
  result (result s s.cur d v n) s.cur (regNext d) b n

/-- A residue instruction: refused in D2 without the context's permission (R229). -/
def residue (f : Form) (body : Tile → List Word → State → Eff × State) (s : State) : Host.Outcome State Fault Refusal :=
  issue f (fun vs s =>
    let tl := tileOf s.cur
    if residueOk s tl (thr s s.cur).ctx then body (tile s tl) vs s else (.fault .residueUnavailable 0, s)) s

/-- rnsf (R370): Encode an integer as a residue pair. -/
def execRnsf (d a : Reg) (w : BitVec 3) (s : State) :=
  residue { reads := [a], writes := [d, regNext d], wait := w.toNat } (fun x vs s =>
    let v := (arg vs 0).toInt
    let s := rnsCount s (tileOf s.cur) none
    (.done, pairResult s d (natWord (byChannel x fun _ => v)) (natWord v.natAbs) 8)) s

/-- Channel-wise arithmetic with the bound it gives (R370). -/
def rnsArith (d a b : Reg) (w : BitVec 3) (op : Int → Int → Int) (bound : Nat → Nat → Nat) (s : State) :
    Host.Outcome State Fault Refusal :=
  residue { reads := [a, regNext a, b, regNext b], writes := [d, regNext d], wait := w.toNat } (fun x vs s =>
    let r := byChannel x fun j => op (byteOf (arg vs 0) j) (byteOf (arg vs 2) j)
    let s := rnsCount s (tileOf s.cur) none
    (.done, pairResult s d (natWord r) (natWord (min (bound (arg vs 1).toNat (arg vs 3).toNat) (2 ^ 64 - 1))) 8)) s

/-- rnsadd (R370): Residue add by channel. -/
def execRnsadd (d a b : Reg) (w : BitVec 3) (s : State) := rnsArith d a b w (· + ·) (· + ·) s
/-- rnsadd.sub (R370): Residue subtract by channel. -/
def execRnsaddSub (d a b : Reg) (w : BitVec 3) (s : State) := rnsArith d a b w (· - ·) (· + ·) s
/-- rnsmul (R370): Residue multiply by channel. -/
def execRnsmul (d a b : Reg) (w : BitVec 3) (s : State) := rnsArith d a b w (· * ·) (· * ·) s

/-- rnsr (R371): Decode a residue pair, writing its value and status. -/
def execRnsr (d a : Reg) (w : BitVec 3) (s : State) :=
  residue { reads := [a, regNext a], writes := [d, regNext d], wait := w.toNat } (fun x vs s =>
    let r := rnsDecode x (arg vs 0) (arg vs 1).toNat
    let s := rnsCount s (tileOf s.cur) (some r)
    if r = .uncorr then (.fault .memoryError (arg vs 0), setThr s s.cur { thr s s.cur with injSeen := false })
    else (.done, pairResult s d (rnsValue r) (rnsStatus x r) 20)) s

/-- rnschk (R371): Check a residue pair, reporting UNCORR where rnsr would contain the thread. -/
def execRnschk (d a : Reg) (w : BitVec 3) (s : State) :=
  residue { reads := [a, regNext a], writes := [d], wait := w.toNat } (fun x vs s =>
    let r := rnsDecode x (arg vs 0) (arg vs 1).toNat
    (.done, result (rnsCount s (tileOf s.cur) (some r)) s.cur d (rnsStatus x r) 20)) s

/-- Whether a map is one of the three that `rnsmap` takes (R372). -/
def mapOk (a : Nat) : Bool :=
  let fb := bits a 5 3
  let fa := bits a 2 0
  a < 256 && (match bits a 7 6 with
    | 0 => fa == 0 && fb == 0
    | 1 => fb == 0
    | 2 => fa < fb
    | _ => false)

/-- The map as a word (R271). -/
def mapWord (x : Tile) : Nat := x.rnsMode.toNat * 64 + x.rnsFb.toNat * 8 + x.rnsFa.toNat

/-- `rnsmap` (R372): the mill stops accepting `mmr`, the instruction parks until none is unretired there, and the map
changes. -/
def execRnsmap (d a b : Reg) (w : BitVec 3) (s : State) :=
  issue { prv := .f, reads := [a, b], writes := [d], wait := w.toNat } (fun vs s =>
    let m := (arg vs 0).toNat
    let tl := (arg vs 1).toNat
    if !mapOk m || 2048 ≤ tl then (.fault .malformedStructure 0, s)
    else
      let x := tile s tl
      if x.millQ.any (fun o => o.kind == .mmr) then (.park .mapWait, setTile s tl { x with mmrStop := true })
      else
        let old := mapWord x
        let s := setTile s tl { x with mmrStop := false, rnsMode := BitVec.ofNat 2 (bits m 7 6)
                                       rnsFb := BitVec.ofNat 3 (bits m 5 3), rnsFa := BitVec.ofNat 3 (bits m 2 0) }
        (.done, result s s.cur d (natWord old) 1)) s

/-- The firmware's `rnsmap` on a tile with a channel that failed for good (R228): the map marks that channel, in the order of R372. In a
mode other than Normal no channel is located. (log 38: DEDUCED) -/
def degradeTile (tl : Nat) (s : State) : Option State :=
  let x := tile s tl
  match x.degrade with
  | none => none
  | some ch =>
    if x.millQ.any (fun o => o.kind == .mmr) then
      if x.mmrStop then none else some (setTile s tl { x with mmrStop := true })
    else
      let x := { x with mmrStop := false, degrade := none }
      some (setTile s tl (if x.rnsMode = 0 then { x with rnsMode := 1, rnsFa := BitVec.ofNat 3 ch, rnsFb := 0 } else x))

end Sys2Proof.Machine
end

