-- ==== Sys2Proof/Machine/Dispatch.lean ====
section
/-! DEFINITION. One arm per constructor of Instr: the meaning of each instruction and each step of another agent. -/

namespace Sys2Proof.Machine

def exec (i : Instr) (s : State) : Host.Outcome State Fault Refusal :=
  match i with
  | .bootImage v0 => Sys2Proof.Machine.execBootImage v0 s
  | .kick v0 => Sys2Proof.Machine.execKick v0 s
  | .consumedRegister v0 => Sys2Proof.Machine.execConsumedRegister v0 s
  | .modeChangeComplete v0 => Sys2Proof.Machine.execModeChangeComplete v0 s
  | .launchStart v0 => Sys2Proof.Machine.execLaunchStart v0 s
  | .cruiseSweep v0 => Sys2Proof.Machine.execCruiseSweep v0 s
  | .preEmptionDeadline v0 => Sys2Proof.Machine.execPreEmptionDeadline v0 s
  | .trapEntry v0 => Sys2Proof.Machine.execTrapEntry v0 s
  | .faultMessage v0 => Sys2Proof.Machine.execFaultMessage v0 s
  | .systemClassStart v0 => Sys2Proof.Machine.execSystemClassStart v0 s
  | .threadStart v0 => Sys2Proof.Machine.execThreadStart v0 s
  | .dispatchIntakeArrival v0 => Sys2Proof.Machine.execDispatchIntakeArrival v0 s
  | .landingMessageArrival v0 => Sys2Proof.Machine.execLandingMessageArrival v0 s
  | .migrationDepart v0 => Sys2Proof.Machine.execMigrationDepart v0 s
  | .sendQueueDepart v0 => Sys2Proof.Machine.execSendQueueDepart v0 s
  | .pairRecordArrival v0 => Sys2Proof.Machine.execPairRecordArrival v0 s
  | .overflowRingRefill v0 => Sys2Proof.Machine.execOverflowRingRefill v0 s
  | .pairPrepare v0 => Sys2Proof.Machine.execPairPrepare v0 s
  | .stealRequest v0 => Sys2Proof.Machine.execStealRequest v0 s
  | .autoRecast v0 => Sys2Proof.Machine.execAutoRecast v0 s
  | .channelElementMove v0 v1 => Sys2Proof.Machine.execChannelElementMove v0 v1 s
  | .bankRequest v0 v1 => Sys2Proof.Machine.execBankRequest v0 v1 s
  | .homeAccess v0 => Sys2Proof.Machine.execHomeAccess v0 s
  | .windowAccessService v0 => Sys2Proof.Machine.execWindowAccessService v0 s
  | .accessReply v0 => Sys2Proof.Machine.execAccessReply v0 s
  | .postedStoreAck v0 => Sys2Proof.Machine.execPostedStoreAck v0 s
  | .postedStoreRefusal v0 => Sys2Proof.Machine.execPostedStoreRefusal v0 s
  | .flitArrival v0 v1 => Sys2Proof.Machine.execFlitArrival v0 v1 s
  | .pageWalkEnd v0 => Sys2Proof.Machine.execPageWalkEnd v0 s
  | .frameMigrating v0 v1 v2 => Sys2Proof.Machine.execFrameMigrating v0 v1 v2 s
  | .frameCopyComplete v0 => Sys2Proof.Machine.execFrameCopyComplete v0 s
  | .forwardingCommit v0 => Sys2Proof.Machine.execForwardingCommit v0 s
  | .drainReport v0 v1 => Sys2Proof.Machine.execDrainReport v0 v1 s
  | .footprintAccept v0 => Sys2Proof.Machine.execFootprintAccept v0 s
  | .footprintDispatch v0 v1 => Sys2Proof.Machine.execFootprintDispatch v0 v1 s
  | .jobArrival v0 v1 => Sys2Proof.Machine.execJobArrival v0 v1 s
  | .watermarkReport v0 => Sys2Proof.Machine.execWatermarkReport v0 s
  | .jobCompletion v0 => Sys2Proof.Machine.execJobCompletion v0 s
  | .yarderKillReport v0 v1 => Sys2Proof.Machine.execYarderKillReport v0 v1 s
  | .millAccept v0 => Sys2Proof.Machine.execMillAccept v0 s
  | .millRowRead v0 => Sys2Proof.Machine.execMillRowRead v0 s
  | .millRetire v0 => Sys2Proof.Machine.execMillRetire v0 s
  | .millPipeFault v0 => Sys2Proof.Machine.execMillPipeFault v0 s
  | .sfuResult v0 => Sys2Proof.Machine.execSfuResult v0 s
  | .pendingResultWrite v0 => Sys2Proof.Machine.execPendingResultWrite v0 s
  | .spillWord v0 => Sys2Proof.Machine.execSpillWord v0 s
  | .streamReadAhead v0 v1 => Sys2Proof.Machine.execStreamReadAhead v0 v1 s
  | .reductionCombine v0 v1 => Sys2Proof.Machine.execReductionCombine v0 v1 s
  | .graderAccept v0 => Sys2Proof.Machine.execGraderAccept v0 s
  | .markJobRun v0 => Sys2Proof.Machine.execMarkJobRun v0 s
  | .droopTrip v0 v1 => Sys2Proof.Machine.execDroopTrip v0 v1 s
  | .scalerConfig v0 v1 v2 => Sys2Proof.Machine.execScalerConfig v0 v1 v2 s
  | .illegalEncoding v0 => Sys2Proof.Machine.execIllegalEncoding v0 s
  | .pairSlotSend v0 v1 => Sys2Proof.Machine.execPairSlotSend v0 v1 s
  | .elasticFifoDelivery v0 v1 => Sys2Proof.Machine.execElasticFifoDelivery v0 v1 s
  | .haltDeadline v0 => Sys2Proof.Machine.execHaltDeadline v0 s
  | .intakeSlotWrite v0 v1 => Sys2Proof.Machine.execIntakeSlotWrite v0 v1 s
  | .add v0 v1 v2 => Sys2Proof.Machine.execAdd v0 v1 v2 s
  | .sub v0 v1 v2 => Sys2Proof.Machine.execSub v0 v1 v2 s
  | .and v0 v1 v2 => Sys2Proof.Machine.execAnd v0 v1 v2 s
  | .or v0 v1 v2 => Sys2Proof.Machine.execOr v0 v1 v2 s
  | .xor v0 v1 v2 => Sys2Proof.Machine.execXor v0 v1 v2 s
  | .andn v0 v1 v2 => Sys2Proof.Machine.execAndn v0 v1 v2 s
  | .orn v0 v1 v2 => Sys2Proof.Machine.execOrn v0 v1 v2 s
  | .addi v0 v1 v2 => Sys2Proof.Machine.execAddi v0 v1 v2 s
  | .andi v0 v1 v2 => Sys2Proof.Machine.execAndi v0 v1 v2 s
  | .ori v0 v1 v2 => Sys2Proof.Machine.execOri v0 v1 v2 s
  | .xori v0 v1 v2 => Sys2Proof.Machine.execXori v0 v1 v2 s
  | .slti v0 v1 v2 => Sys2Proof.Machine.execSlti v0 v1 v2 s
  | .sltiN v0 v1 v2 => Sys2Proof.Machine.execSltiN v0 v1 v2 s
  | .shl v0 v1 v2 => Sys2Proof.Machine.execShl v0 v1 v2 s
  | .shr v0 v1 v2 => Sys2Proof.Machine.execShr v0 v1 v2 s
  | .sar v0 v1 v2 => Sys2Proof.Machine.execSar v0 v1 v2 s
  | .rotl v0 v1 v2 => Sys2Proof.Machine.execRotl v0 v1 v2 s
  | .rotr v0 v1 v2 => Sys2Proof.Machine.execRotr v0 v1 v2 s
  | .clz v0 v1 => Sys2Proof.Machine.execClz v0 v1 s
  | .ctz v0 v1 => Sys2Proof.Machine.execCtz v0 v1 s
  | .popc v0 v1 => Sys2Proof.Machine.execPopc v0 v1 s
  | .brev v0 v1 => Sys2Proof.Machine.execBrev v0 v1 s
  | .bswap v0 v1 => Sys2Proof.Machine.execBswap v0 v1 s
  | .bfx v0 v1 v2 => Sys2Proof.Machine.execBfx v0 v1 v2 s
  | .bfxs v0 v1 v2 => Sys2Proof.Machine.execBfxs v0 v1 v2 s
  | .bfi v0 v1 v2 => Sys2Proof.Machine.execBfi v0 v1 v2 s
  | .shli v0 v1 v2 => Sys2Proof.Machine.execShli v0 v1 v2 s
  | .shri v0 v1 v2 => Sys2Proof.Machine.execShri v0 v1 v2 s
  | .sari v0 v1 v2 => Sys2Proof.Machine.execSari v0 v1 v2 s
  | .mul v0 v1 v2 => Sys2Proof.Machine.execMul v0 v1 v2 s
  | .mulh v0 v1 v2 => Sys2Proof.Machine.execMulh v0 v1 v2 s
  | .mulhN v0 v1 v2 => Sys2Proof.Machine.execMulhN v0 v1 v2 s
  | .madd v0 v1 v2 v3 => Sys2Proof.Machine.execMadd v0 v1 v2 v3 s
  | .msub v0 v1 v2 v3 => Sys2Proof.Machine.execMsub v0 v1 v2 v3 s
  | .div v0 v1 v2 v3 => Sys2Proof.Machine.execDiv v0 v1 v2 v3 s
  | .divN v0 v1 v2 v3 => Sys2Proof.Machine.execDivN v0 v1 v2 v3 s
  | .rem v0 v1 v2 v3 => Sys2Proof.Machine.execRem v0 v1 v2 v3 s
  | .remN v0 v1 v2 v3 => Sys2Proof.Machine.execRemN v0 v1 v2 v3 s
  | .li v0 v1 => Sys2Proof.Machine.execLi v0 v1 s
  | .liN v0 v1 => Sys2Proof.Machine.execLiN v0 v1 s
  | .lih v0 v1 v2 => Sys2Proof.Machine.execLih v0 v1 v2 s
  | .adr v0 v1 => Sys2Proof.Machine.execAdr v0 v1 s
  | .min v0 v1 v2 => Sys2Proof.Machine.execMin v0 v1 v2 s
  | .minN v0 v1 v2 => Sys2Proof.Machine.execMinN v0 v1 v2 s
  | .max v0 v1 v2 => Sys2Proof.Machine.execMax v0 v1 v2 s
  | .maxN v0 v1 v2 => Sys2Proof.Machine.execMaxN v0 v1 v2 s
  | .slt v0 v1 v2 => Sys2Proof.Machine.execSlt v0 v1 v2 s
  | .sltN v0 v1 v2 => Sys2Proof.Machine.execSltN v0 v1 v2 s
  | .seq v0 v1 v2 => Sys2Proof.Machine.execSeq v0 v1 v2 s
  | .sel v0 v1 v2 v3 => Sys2Proof.Machine.execSel v0 v1 v2 v3 s
  | .beq v0 v1 v2 => Sys2Proof.Machine.execBeq v0 v1 v2 s
  | .bne v0 v1 v2 => Sys2Proof.Machine.execBne v0 v1 v2 s
  | .blt v0 v1 v2 => Sys2Proof.Machine.execBlt v0 v1 v2 s
  | .bge v0 v1 v2 => Sys2Proof.Machine.execBge v0 v1 v2 s
  | .bz v0 v1 => Sys2Proof.Machine.execBz v0 v1 s
  | .bnz v0 v1 => Sys2Proof.Machine.execBnz v0 v1 s
  | .bltN v0 v1 v2 => Sys2Proof.Machine.execBltN v0 v1 v2 s
  | .bgeN v0 v1 v2 => Sys2Proof.Machine.execBgeN v0 v1 v2 s
  | .j v0 => Sys2Proof.Machine.execJ v0 s
  | .jal v0 v1 => Sys2Proof.Machine.execJal v0 v1 s
  | .jr v0 v1 => Sys2Proof.Machine.execJr v0 v1 s
  | .jalr v0 v1 v2 => Sys2Proof.Machine.execJalr v0 v1 v2 s
  | .rep v0 v1 => Sys2Proof.Machine.execRep v0 v1 s
  | .ld v0 v1 v2 v3 => Sys2Proof.Machine.execLd v0 v1 v2 v3 s
  | .ldN v0 v1 v2 v3 => Sys2Proof.Machine.execLdN v0 v1 v2 v3 s
  | .ldAcq v0 v1 v2 v3 v4 v5 => Sys2Proof.Machine.execLdAcq v0 v1 v2 v3 v4 v5 s
  | .st v0 v1 v2 v3 => Sys2Proof.Machine.execSt v0 v1 v2 v3 s
  | .stRel v0 v1 v2 v3 v4 => Sys2Proof.Machine.execStRel v0 v1 v2 v3 v4 s
  | .ldp v0 v1 v2 => Sys2Proof.Machine.execLdp v0 v1 v2 s
  | .stp v0 v1 v2 => Sys2Proof.Machine.execStp v0 v1 v2 s
  | .ldm v0 v1 v2 v3 => Sys2Proof.Machine.execLdm v0 v1 v2 v3 s
  | .stm v0 v1 v2 v3 => Sys2Proof.Machine.execStm v0 v1 v2 v3 s
  | .amoAdd v0 v1 v2 v3 v4 v5 => Sys2Proof.Machine.execAmoAdd v0 v1 v2 v3 v4 v5 s
  | .amoAnd v0 v1 v2 v3 v4 v5 => Sys2Proof.Machine.execAmoAnd v0 v1 v2 v3 v4 v5 s
  | .amoOr v0 v1 v2 v3 v4 v5 => Sys2Proof.Machine.execAmoOr v0 v1 v2 v3 v4 v5 s
  | .amoXor v0 v1 v2 v3 v4 v5 => Sys2Proof.Machine.execAmoXor v0 v1 v2 v3 v4 v5 s
  | .amoMin v0 v1 v2 v3 v4 v5 => Sys2Proof.Machine.execAmoMin v0 v1 v2 v3 v4 v5 s
  | .amoMax v0 v1 v2 v3 v4 v5 => Sys2Proof.Machine.execAmoMax v0 v1 v2 v3 v4 v5 s
  | .amoNMin v0 v1 v2 v3 v4 v5 => Sys2Proof.Machine.execAmoNMin v0 v1 v2 v3 v4 v5 s
  | .amoNMax v0 v1 v2 v3 v4 v5 => Sys2Proof.Machine.execAmoNMax v0 v1 v2 v3 v4 v5 s
  | .amoXchg v0 v1 v2 v3 v4 v5 => Sys2Proof.Machine.execAmoXchg v0 v1 v2 v3 v4 v5 s
  | .cas v0 v1 v2 v3 v4 => Sys2Proof.Machine.execCas v0 v1 v2 v3 v4 s
  | .fence v0 v1 v2 => Sys2Proof.Machine.execFence v0 v1 v2 s
  | .lx v0 v1 v2 v3 v4 => Sys2Proof.Machine.execLx v0 v1 v2 v3 v4 s
  | .sqCfg v0 v1 v2 => Sys2Proof.Machine.execSqCfg v0 v1 v2 s
  | .sqBind v0 v1 => Sys2Proof.Machine.execSqBind v0 v1 s
  | .sqOff v0 => Sys2Proof.Machine.execSqOff v0 s
  | .sqWait v0 => Sys2Proof.Machine.execSqWait v0 s
  | .sqStat v0 v1 => Sys2Proof.Machine.execSqStat v0 v1 s
  | .padd v0 v1 v2 v3 => Sys2Proof.Machine.execPadd v0 v1 v2 v3 s
  | .psub v0 v1 v2 v3 => Sys2Proof.Machine.execPsub v0 v1 v2 v3 s
  | .padds v0 v1 v2 v3 => Sys2Proof.Machine.execPadds v0 v1 v2 v3 s
  | .psubs v0 v1 v2 v3 => Sys2Proof.Machine.execPsubs v0 v1 v2 v3 s
  | .pmul v0 v1 v2 v3 => Sys2Proof.Machine.execPmul v0 v1 v2 v3 s
  | .pmulh v0 v1 v2 v3 => Sys2Proof.Machine.execPmulh v0 v1 v2 v3 s
  | .pmin v0 v1 v2 v3 => Sys2Proof.Machine.execPmin v0 v1 v2 v3 s
  | .pmax v0 v1 v2 v3 => Sys2Proof.Machine.execPmax v0 v1 v2 v3 s
  | .pabs v0 v1 v2 => Sys2Proof.Machine.execPabs v0 v1 v2 s
  | .pavg v0 v1 v2 v3 => Sys2Proof.Machine.execPavg v0 v1 v2 v3 s
  | .pcmpEq v0 v1 v2 v3 => Sys2Proof.Machine.execPcmpEq v0 v1 v2 v3 s
  | .pcmpLt v0 v1 v2 v3 => Sys2Proof.Machine.execPcmpLt v0 v1 v2 v3 s
  | .pcmpLe v0 v1 v2 v3 => Sys2Proof.Machine.execPcmpLe v0 v1 v2 v3 s
  | .pdot v0 v1 v2 v3 => Sys2Proof.Machine.execPdot v0 v1 v2 v3 s
  | .pshf v0 v1 v2 => Sys2Proof.Machine.execPshf v0 v1 v2 s
  | .ppk v0 v1 v2 v3 => Sys2Proof.Machine.execPpk v0 v1 v2 v3 s
  | .pup v0 v1 v2 v3 => Sys2Proof.Machine.execPup v0 v1 v2 v3 s
  | .pbc v0 v1 v2 v3 => Sys2Proof.Machine.execPbc v0 v1 v2 v3 s
  | .psel v0 v1 v2 v3 => Sys2Proof.Machine.execPsel v0 v1 v2 v3 s
  | .fli v0 v1 v2 v3 => Sys2Proof.Machine.execFli v0 v1 v2 v3 s
  | .fadd v0 v1 v2 v3 v4 => Sys2Proof.Machine.execFadd v0 v1 v2 v3 v4 s
  | .fsub v0 v1 v2 v3 v4 => Sys2Proof.Machine.execFsub v0 v1 v2 v3 v4 s
  | .fmul v0 v1 v2 v3 v4 => Sys2Proof.Machine.execFmul v0 v1 v2 v3 v4 s
  | .fmin v0 v1 v2 v3 => Sys2Proof.Machine.execFmin v0 v1 v2 v3 s
  | .fmax v0 v1 v2 v3 => Sys2Proof.Machine.execFmax v0 v1 v2 v3 s
  | .fneg v0 v1 v2 => Sys2Proof.Machine.execFneg v0 v1 v2 s
  | .fabs v0 v1 v2 => Sys2Proof.Machine.execFabs v0 v1 v2 s
  | .fcmpEq v0 v1 v2 v3 => Sys2Proof.Machine.execFcmpEq v0 v1 v2 v3 s
  | .fcmpLt v0 v1 v2 v3 => Sys2Proof.Machine.execFcmpLt v0 v1 v2 v3 s
  | .fcmpLe v0 v1 v2 v3 => Sys2Proof.Machine.execFcmpLe v0 v1 v2 v3 s
  | .fsum v0 v1 v2 v3 v4 => Sys2Proof.Machine.execFsum v0 v1 v2 v3 v4 s
  | .fma v0 v1 v2 v3 v4 => Sys2Proof.Machine.execFma v0 v1 v2 v3 v4 s
  | .fms v0 v1 v2 v3 v4 => Sys2Proof.Machine.execFms v0 v1 v2 v3 v4 s
  | .fcvt v0 v1 v2 v3 v4 => Sys2Proof.Machine.execFcvt v0 v1 v2 v3 v4 s
  | .icvt v0 v1 v2 v3 v4 v5 => Sys2Proof.Machine.execIcvt v0 v1 v2 v3 v4 v5 s
  | .fcls v0 v1 v2 => Sys2Proof.Machine.execFcls v0 v1 v2 s
  | .okey v0 v1 v2 v3 v4 => Sys2Proof.Machine.execOkey v0 v1 v2 v3 v4 s
  | .dl2 v0 v1 v2 v3 => Sys2Proof.Machine.execDl2 v0 v1 v2 v3 s
  | .dip v0 v1 v2 v3 => Sys2Proof.Machine.execDip v0 v1 v2 v3 s
  | .dipE4m3 v0 v1 v2 => Sys2Proof.Machine.execDipE4m3 v0 v1 v2 s
  | .dham v0 v1 v2 => Sys2Proof.Machine.execDham v0 v1 v2 s
  | .dcb v0 v1 v2 v3 => Sys2Proof.Machine.execDcb v0 v1 v2 v3 s
  | .sfuRcp v0 v1 v2 v3 v4 => Sys2Proof.Machine.execSfuRcp v0 v1 v2 v3 v4 s
  | .sfuRsqrt v0 v1 v2 v3 v4 => Sys2Proof.Machine.execSfuRsqrt v0 v1 v2 v3 v4 s
  | .sfuSqrt v0 v1 v2 v3 v4 => Sys2Proof.Machine.execSfuSqrt v0 v1 v2 v3 v4 s
  | .sfuExp2 v0 v1 v2 v3 v4 => Sys2Proof.Machine.execSfuExp2 v0 v1 v2 v3 v4 s
  | .sfuLog2 v0 v1 v2 v3 v4 => Sys2Proof.Machine.execSfuLog2 v0 v1 v2 v3 v4 s
  | .sfuExp v0 v1 v2 v3 v4 => Sys2Proof.Machine.execSfuExp v0 v1 v2 v3 v4 s
  | .sfuLn v0 v1 v2 v3 v4 => Sys2Proof.Machine.execSfuLn v0 v1 v2 v3 v4 s
  | .sfuSinpi v0 v1 v2 v3 v4 => Sys2Proof.Machine.execSfuSinpi v0 v1 v2 v3 v4 s
  | .sfuCospi v0 v1 v2 v3 v4 => Sys2Proof.Machine.execSfuCospi v0 v1 v2 v3 v4 s
  | .sfuTanh v0 v1 v2 v3 v4 => Sys2Proof.Machine.execSfuTanh v0 v1 v2 v3 v4 s
  | .sfuSigm v0 v1 v2 v3 v4 => Sys2Proof.Machine.execSfuSigm v0 v1 v2 v3 v4 s
  | .mma v0 v1 v2 v3 v4 => Sys2Proof.Machine.execMma v0 v1 v2 v3 v4 s
  | .mmas v0 v1 v2 v3 v4 => Sys2Proof.Machine.execMmas v0 v1 v2 v3 v4 s
  | .mmcb v0 v1 v2 v3 v4 => Sys2Proof.Machine.execMmcb v0 v1 v2 v3 v4 s
  | .mmr v0 v1 v2 v3 v4 => Sys2Proof.Machine.execMmr v0 v1 v2 v3 v4 s
  | .mld v0 v1 v2 v3 v4 => Sys2Proof.Machine.execMld v0 v1 v2 v3 v4 s
  | .mst v0 v1 v2 v3 v4 => Sys2Proof.Machine.execMst v0 v1 v2 v3 v4 s
  | .mzero v0 v1 v2 => Sys2Proof.Machine.execMzero v0 v1 v2 s
  | .manc v0 v1 v2 v3 => Sys2Proof.Machine.execManc v0 v1 v2 v3 s
  | .mscl v0 v1 v2 v3 => Sys2Proof.Machine.execMscl v0 v1 v2 v3 s
  | .mcbt v0 v1 v2 => Sys2Proof.Machine.execMcbt v0 v1 v2 s
  | .mfin v0 v1 v2 v3 v4 => Sys2Proof.Machine.execMfin v0 v1 v2 v3 v4 s
  | .mseq v0 v1 => Sys2Proof.Machine.execMseq v0 v1 s
  | .mwait v0 v1 => Sys2Proof.Machine.execMwait v0 v1 s
  | .mwaitAll v0 => Sys2Proof.Machine.execMwaitAll v0 s
  | .mprogRd v0 v1 => Sys2Proof.Machine.execMprogRd v0 v1 s
  | .mprogGo v0 => Sys2Proof.Machine.execMprogGo v0 s
  | .mprogCancel v0 => Sys2Proof.Machine.execMprogCancel v0 s
  | .rnsf v0 v1 v2 => Sys2Proof.Machine.execRnsf v0 v1 v2 s
  | .rnsr v0 v1 v2 => Sys2Proof.Machine.execRnsr v0 v1 v2 s
  | .rnsadd v0 v1 v2 v3 => Sys2Proof.Machine.execRnsadd v0 v1 v2 v3 s
  | .rnsaddSub v0 v1 v2 v3 => Sys2Proof.Machine.execRnsaddSub v0 v1 v2 v3 s
  | .rnsmul v0 v1 v2 v3 => Sys2Proof.Machine.execRnsmul v0 v1 v2 v3 s
  | .rnschk v0 v1 v2 => Sys2Proof.Machine.execRnschk v0 v1 v2 s
  | .rnsmap v0 v1 v2 v3 => Sys2Proof.Machine.execRnsmap v0 v1 v2 v3 s
  | .send v0 v1 v2 => Sys2Proof.Machine.execSend v0 v1 v2 s
  | .sendm v0 v1 v2 v3 => Sys2Proof.Machine.execSendm v0 v1 v2 v3 s
  | .lndGet v0 v1 v2 v3 => Sys2Proof.Machine.execLndGet v0 v1 v2 v3 s
  | .lndPeek v0 v1 v2 v3 => Sys2Proof.Machine.execLndPeek v0 v1 v2 v3 s
  | .lndCnt v0 => Sys2Proof.Machine.execLndCnt v0 s
  | .waitSeq v0 v1 v2 => Sys2Proof.Machine.execWaitSeq v0 v1 v2 s
  | .mig v0 v1 => Sys2Proof.Machine.execMig v0 v1 s
  | .spawn v0 v1 => Sys2Proof.Machine.execSpawn v0 v1 s
  | .yield v0 v1 => Sys2Proof.Machine.execYield v0 v1 s
  | .crewNew v0 => Sys2Proof.Machine.execCrewNew v0 s
  | .crewJoin v0 => Sys2Proof.Machine.execCrewJoin v0 s
  | .crewLeave v0 => Sys2Proof.Machine.execCrewLeave v0 s
  | .crewDel v0 => Sys2Proof.Machine.execCrewDel v0 s
  | .barInit v0 v1 => Sys2Proof.Machine.execBarInit v0 v1 s
  | .barArrive v0 v1 => Sys2Proof.Machine.execBarArrive v0 v1 s
  | .barDrop v0 v1 => Sys2Proof.Machine.execBarDrop v0 v1 s
  | .barWait v0 v1 => Sys2Proof.Machine.execBarWait v0 v1 s
  | .semPost v0 v1 v2 => Sys2Proof.Machine.execSemPost v0 v1 v2 s
  | .semWait v0 v1 => Sys2Proof.Machine.execSemWait v0 v1 s
  | .chanPut v0 v1 => Sys2Proof.Machine.execChanPut v0 v1 s
  | .chanGet v0 v1 => Sys2Proof.Machine.execChanGet v0 v1 s
  | .recast v0 v1 v2 => Sys2Proof.Machine.execRecast v0 v1 v2 s
  | .nalloc v0 => Sys2Proof.Machine.execNalloc v0 s
  | .nfree v0 => Sys2Proof.Machine.execNfree v0 s
  | .link v0 v1 v2 => Sys2Proof.Machine.execLink v0 v1 v2 s
  | .pair v0 v1 => Sys2Proof.Machine.execPair v0 v1 s
  | .nread v0 v1 => Sys2Proof.Machine.execNread v0 v1 s
  | .nhdr v0 v1 v2 => Sys2Proof.Machine.execNhdr v0 v1 v2 s
  | .prefInc v0 v1 => Sys2Proof.Machine.execPrefInc v0 v1 s
  | .prefDec v0 v1 => Sys2Proof.Machine.execPrefDec v0 v1 s
  | .yrdCopy v0 v1 => Sys2Proof.Machine.execYrdCopy v0 v1 s
  | .yrdGath v0 v1 => Sys2Proof.Machine.execYrdGath v0 v1 s
  | .yrdScat v0 v1 => Sys2Proof.Machine.execYrdScat v0 v1 s
  | .yrdFill v0 v1 => Sys2Proof.Machine.execYrdFill v0 v1 s
  | .yrdFar v0 v1 => Sys2Proof.Machine.execYrdFar v0 v1 s
  | .yrdChan v0 v1 v2 => Sys2Proof.Machine.execYrdChan v0 v1 v2 s
  | .yrdWm v0 v1 => Sys2Proof.Machine.execYrdWm v0 v1 s
  | .yrdStop v0 v1 => Sys2Proof.Machine.execYrdStop v0 v1 s
  | .grdCfg v0 v1 => Sys2Proof.Machine.execGrdCfg v0 v1 s
  | .grdIn v0 v1 => Sys2Proof.Machine.execGrdIn v0 v1 s
  | .grdOutKeep v0 v1 v2 => Sys2Proof.Machine.execGrdOutKeep v0 v1 v2 s
  | .grdOutFin v0 v1 v2 => Sys2Proof.Machine.execGrdOutFin v0 v1 v2 s
  | .mark v0 v1 => Sys2Proof.Machine.execMark v0 v1 s
  | .markSt v0 => Sys2Proof.Machine.execMarkSt v0 s
  | .smpInj v0 v1 => Sys2Proof.Machine.execSmpInj v0 v1 s
  | .smpResW v0 v1 => Sys2Proof.Machine.execSmpResW v0 v1 s
  | .smpResNw v0 v1 => Sys2Proof.Machine.execSmpResNw v0 v1 s
  | .smpResCfg v0 v1 v2 => Sys2Proof.Machine.execSmpResCfg v0 v1 v2 s
  | .gnz v0 v1 v2 v3 v4 => Sys2Proof.Machine.execGnz v0 v1 v2 v3 v4 s
  | .rng v0 v1 v2 => Sys2Proof.Machine.execRng v0 v1 v2 s
  | .trap v0 => Sys2Proof.Machine.execTrap v0 s
  | .sysc v0 => Sys2Proof.Machine.execSysc v0 s
  | .srd v0 v1 => Sys2Proof.Machine.execSrd v0 v1 s
  | .swr v0 v1 v2 => Sys2Proof.Machine.execSwr v0 v1 v2 s
  | .tkill v0 v1 => Sys2Proof.Machine.execTkill v0 v1 s
  | .tscrub v0 v1 => Sys2Proof.Machine.execTscrub v0 v1 s
  | .winMap v0 v1 => Sys2Proof.Machine.execWinMap v0 v1 s
  | .winRd v0 v1 => Sys2Proof.Machine.execWinRd v0 v1 s
  | .winWr v0 v1 v2 => Sys2Proof.Machine.execWinWr v0 v1 v2 s
  | .eccInj v0 v1 => Sys2Proof.Machine.execEccInj v0 v1 s
  | .tlbInv v0 v1 => Sys2Proof.Machine.execTlbInv v0 v1 s
  | .halt v0 v1 v2 => Sys2Proof.Machine.execHalt v0 v1 v2 s
  | .cyc v0 => Sys2Proof.Machine.execCyc v0 s
  | .tsc v0 => Sys2Proof.Machine.execTsc v0 s
  | .c16Add v0 v1 => Sys2Proof.Machine.execC16Add v0 v1 s
  | .c16Sub v0 v1 => Sys2Proof.Machine.execC16Sub v0 v1 s
  | .c16And v0 v1 => Sys2Proof.Machine.execC16And v0 v1 s
  | .c16Or v0 v1 => Sys2Proof.Machine.execC16Or v0 v1 s
  | .c16Xor v0 v1 => Sys2Proof.Machine.execC16Xor v0 v1 s
  | .c16Move v0 v1 => Sys2Proof.Machine.execC16Move v0 v1 s
  | .c16Mul v0 v1 => Sys2Proof.Machine.execC16Mul v0 v1 s
  | .c16Ld v0 v1 => Sys2Proof.Machine.execC16Ld v0 v1 s
  | .c16St v0 v1 => Sys2Proof.Machine.execC16St v0 v1 s
  | .c16Addi v0 v1 => Sys2Proof.Machine.execC16Addi v0 v1 s
  | .c16Li v0 v1 => Sys2Proof.Machine.execC16Li v0 v1 s
  | .c16Shli v0 v1 => Sys2Proof.Machine.execC16Shli v0 v1 s
  | .c16Shri v0 v1 => Sys2Proof.Machine.execC16Shri v0 v1 s
  | .c16Sari v0 v1 => Sys2Proof.Machine.execC16Sari v0 v1 s
  | .c16Andi v0 v1 => Sys2Proof.Machine.execC16Andi v0 v1 s
  | .c16LdX2 v0 v1 => Sys2Proof.Machine.execC16LdX2 v0 v1 s
  | .c16StX2 v0 v1 => Sys2Proof.Machine.execC16StX2 v0 v1 s
  | .c16LdX3 v0 v1 => Sys2Proof.Machine.execC16LdX3 v0 v1 s
  | .c16StX3 v0 v1 => Sys2Proof.Machine.execC16StX3 v0 v1 s
  | .c16Addi16 v0 v1 => Sys2Proof.Machine.execC16Addi16 v0 v1 s
  | .c16Bz v0 v1 => Sys2Proof.Machine.execC16Bz v0 v1 s
  | .c16Bnz v0 v1 => Sys2Proof.Machine.execC16Bnz v0 v1 s
  | .c16J v0 => Sys2Proof.Machine.execC16J v0 s
  | .c16Jal v0 => Sys2Proof.Machine.execC16Jal v0 s
  | .c16Jr v0 => Sys2Proof.Machine.execC16Jr v0 s
  | .c16Jalr v0 => Sys2Proof.Machine.execC16Jalr v0 s
  | .pfx v0 => Sys2Proof.Machine.execPfx v0 s
  | .powerOn => Sys2Proof.Machine.execPowerOn s
  | .powerOff => Sys2Proof.Machine.execPowerOff s
  | .kickSlotPoll => Sys2Proof.Machine.execKickSlotPoll s
  | .kickAheadOfPacket => Sys2Proof.Machine.execKickAheadOfPacket s
  | .hostRecordPost => Sys2Proof.Machine.execHostRecordPost s
  | .launch => Sys2Proof.Machine.execLaunch s
  | .partitionSetup => Sys2Proof.Machine.execPartitionSetup s
  | .preEmptContext => Sys2Proof.Machine.execPreEmptContext s
  | .killContext => Sys2Proof.Machine.execKillContext s
  | .readLog => Sys2Proof.Machine.execReadLog s
  | .attest => Sys2Proof.Machine.execAttest s
  | .createContext => Sys2Proof.Machine.execCreateContext s
  | .releaseContext => Sys2Proof.Machine.execReleaseContext s
  | .resumeContext => Sys2Proof.Machine.execResumeContext s
  | .save => Sys2Proof.Machine.execSave s
  | .restore => Sys2Proof.Machine.execRestore s
  | .ret => Sys2Proof.Machine.execRet s
  | .nop => Sys2Proof.Machine.execNop s
  | .endThread => Sys2Proof.Machine.execEndThread s
  | .tret => Sys2Proof.Machine.execTret s
  | .c16Ret => Sys2Proof.Machine.execC16Ret s
  | .c16Save => Sys2Proof.Machine.execC16Save s
  | .c16Restore => Sys2Proof.Machine.execC16Restore s
  | .c16Nop => Sys2Proof.Machine.execC16Nop s

end Sys2Proof.Machine
end

