-- ==== Sys2Proof/Machine/Turn.lean ====
section
/-! DEFINITION. A thread's turn: when it issues, the bytes it fetches, and what it runs
(R22, R127, R140, R141, R159, R274, R275, R364). -/

namespace Sys2Proof.Machine

/-- Whether a thread waits with an instruction that completes between its turns (R188, R373); a trap that is due waits for a turn. -/
def completesBetween (t : Thread) : Bool :=
  (match t.park with | some (.again w _) => w.between | _ => false) && (trapDue t).isNone

/-- Whether a thread waits for an entry of its core's landing. -/
def forLanding (t : Thread) : Bool :=
  match t.park with | some (.again (.landing _) _) | some (.again .peek _) | some (.again (.seqKey _) _) => true | _ => false

/-- The cycle in which a thread issues next (R140), or in which an instruction that it waits with is tried again: that of the present time
(R206), in which the landing can serve it (R379). -/
def issueCycle (s : State) (tid : Nat) : Nat :=
  let t := thr s tid
  let k := cmpt s (cmptOf tid)
  if completesBetween t then
    max (max k.cyc (cycleAt k s.now)) (if forLanding t then landingAt (core s (coreOf tid)) else 0)
  else turnAt (slotOf tid) (max k.cyc t.turn)

/-- Whether the mill of a thread's tile owes it stores: in fixed timing a wait that covers their published duration ends after them (R124). -/
def millOwes (s : State) (tid : Nat) : Bool :=
  let tl := tileOf tid
  (cmpt s (cmptOf tid)).fixt && owesStores s tl tid (issueCycle s tid) 0 (tile s tl).millQ

/-- Whether a thread can issue at its next turn: it runs in a compartment of a partition, or on a ranger, and waits neither for a reply nor
for stores of its mill (R22, R77, R124, R141). -/
def canIssue (s : State) (tid : Nat) : Bool :=
  let t := thr s tid
  t.life == .run && (onRanger tid || (cmpt s (cmptOf tid)).part.isSome)
    && (match t.park with | some (.reply _) => false | _ => true) && !millOwes s tid

/-- An aligned word of an instruction store as a fetch sees it: where stores have changed it since the last start message,
the word as it stands now or an earlier one, by an open value (R127). -/
def fetchWord (s : State) (tl w : Nat) : BitVec 64 × State :=
  let now := BitVec.ofNat 64 (bytesAt s.mem (keyOf s.pkg (codeBase tl + 8 * w)) 8)
  match lookD (tile s tl).buffered w [] with
  | [] => (now, s)
  | old =>
    let (v, s) := openWord s
    ((now :: old).getD (v.toNat % (old.length + 1)) now, s)

/-- The two bytes at an even offset, from the word that holds them. -/
def halfOf (w : BitVec 64) (off : Nat) : List Byte :=
  [w.extractLsb' (8 * (off % 8)) 8, w.extractLsb' (8 * (off % 8) + 8) 8]

/-- The bytes that a tile's fetch at offset PC[15:0] gives: none beyond the end of the store (R275). -/
def fetch (s : State) (tl : Nat) (pc : Word) : List Byte × State :=
  let off := pc.toNat % 65536 / 2 * 2
  let (w, s) := fetchWord s tl (off / 8)
  if off = 0xFFFE then (halfOf w off, s)
  else if off % 8 = 6 then
    let (v, s) := fetchWord s tl (off / 8 + 1)
    (halfOf w off ++ halfOf v (off + 2), s)
  else (halfOf w off ++ halfOf w (off + 2), s)

/-- The bits of an instruction that starts with these bytes, a halfword in the low 16 (R224, R274). -/
def instBits : List Byte → BitVec 32
  | b0 :: b1 :: rest =>
    if b0.getLsbD 0 then
      match rest with
      | b2 :: b3 :: _ => b3 ++ (b2 ++ (b1 ++ b0))
      | _ => (b1 ++ b0).setWidth 32
    else (b1 ++ b0).setWidth 32
  | _ => 0

/-- What bytes stand for: the instruction, or the illegal encoding (R287). -/
noncomputable def instOf (bs : List Byte) : Instr :=
  match decode bs with
  | .ok (i, _) => i
  | .error _ => .illegalEncoding (instBits bs)

/-- The state in which a thread's fetched instruction runs: it is the thread that issues, its bits are kept (R224), and the
turn is not idle for its spill engine unless the thread is parked (R141). -/
def atTurn (s : State) (tid : Nat) (bs : List Byte) : State :=
  let t := thr s tid
  let n := if t.park.isNone then max t.spillTurn (cycOf s (cmptOf tid) + 1) else t.spillTurn
  { setThr s tid { t with ir := instBits bs, spillTurn := n } with cur := tid }

/-- The thread fetches, decodes and runs its instruction in the cycle its compartment is in. -/
noncomputable def runTurn (tid : Nat) (s : State) : Host.Outcome State Fault Refusal :=
  let r := fetch s (tileOf tid) (thr s tid).pc
  exec (instOf r.1) (atTurn r.2 tid r.1)

/-- Whether a thread still waits with its instruction. -/
def stillWaits (s : State) (tid : Nat) : Bool := match (thr s tid).park with | some (.again _ _) => true | _ => false

/-- Whether a thread that a trap is due for takes it without trying again what it waits with: it waits in `save` or `restore`, which then
run again in full (R305), or in `mwait` for an instruction that has not retired, a held one included (R364). -/
def heldUpTo (s : State) (tid : Nat) : Park → Bool
  | .again .spill _ | .again .refill _ => true
  | .again (.mill target) _ => (unretired s tid).any fun q => (target - q).toNat < 2 ^ 31
  | _ => false

/-- A thread's turn. A trap that is due is taken (R222); a wait that it abandons and whose condition holds in this cycle
completes instead, an `mwait` only when nothing that it waits for is held (R159, R364). A thread that cannot issue leaves its turn idle
(R141). -/
noncomputable def issueTurn (tid : Nat) (s : State) : Host.Outcome State Fault Refusal :=
  if !s.power then .fault .noPower
  else if !canIssue s tid then .next s
  else
    let s := tick s (cmptOf tid) (issueCycle s tid)
    match trapDue (thr s tid) with
    | none => runTurn tid s
    | some _ =>
      let trap := (trapEntry tid s).getD s
      match (thr s tid).park with
      | none => .next trap
      | some p =>
        if heldUpTo s tid p then .next trap
        else match runTurn tid s with
          | .next s' => .next (if stillWaits s' tid then trap else s')
          | r => r

/-- Whether running a thread's waiting instruction now would change what it waits for. -/
noncomputable def moves (s : State) (tid : Nat) : Bool :=
  match issueTurn tid s with
  | .next s' => (thr s' tid).park != (thr s tid).park || (thr s' tid).net != (thr s tid).net
  | _ => false

end Sys2Proof.Machine
end

