-- ==== Sys2Proof/Machine/Due.lean ====
section
/-! DEFINITION. The model's own order of steps when its agenda is empty (log 1: DESIGN CHOICE): the step whose network time is least, a unit's
step before a thread's turn, and among threads that issue in one cycle the order of their tile and of R65. -/

namespace Sys2Proof.Machine

/-- The network time at which a cycle of a compartment starts (R206). -/
def timeOf (k : Cmpt) (c : Nat) : Nat := if k.fixt then ceilDiv (15 * c) 7 else k.t + 2 * (c - k.cyc)

/-- A step that may come next: its time, its rank among equals, and what it is. -/
structure Next where
  time : Nat
  rank : Nat
  step : Choice

/-- A step of a unit, when it is enabled. -/
def unitStep (time : Nat) (r : Option State) (e : Instr) (rank : Nat := 0) : List Next :=
  if r.isSome then [⟨time, rank, .event e⟩] else []

/-- The time of the first cycle from the present one on that is not before `c`. -/
def timeFrom (s : State) (k c : Nat) : Nat := timeOf (cmpt s k) (max c (cycOf s k))

/-- The time of a compartment's current cycle. -/
def nowOf (s : State) (k : Nat) : Nat := (cmpt s k).t

/-- The turns of threads and the steps of their own units. A thread that waits for what comes about between its turns goes on in the
cycle in which it can. -/
noncomputable def dueThreads (s : State) : List Next :=
  s.threads.flatMap fun p =>
    let tid := p.1
    let k := cmptOf tid
    let at_ (c : Nat) : Nat := timeFrom s k c
    let c := issueCycle s tid
    (if canIssue s tid && (!completesBetween p.2 || moves s tid) then
        [⟨at_ c, 1 + tileOf tid * 8 + (coreOf tid % 8 + 8 - c % 8) % 8, .issue tid⟩] else [])
      ++ unitStep (at_ ((p.2.pend.head?.map (·.land)).getD 0 + 1)) (pendingWrite tid s) (.pendingResultWrite tid)
      ++ unitStep (at_ (turnAt (slotOf tid) (max (cycOf s k) p.2.spillTurn))) (spillWord tid s) (.spillWord tid)
      ++ unitStep (nowOf s k) (migrationDepart tid s) (.migrationDepart tid)
      ++ (match restartCycle s tid with | some t => [⟨at_ t, 20001, .restart tid⟩] | none => [])
      ++ (List.range 4).flatMap fun j =>
        if p.2.qb.getLsbD j then unitStep (nowOf s k) (readAhead tid j s) (.streamReadAhead tid j) else []

/-- The time at which a unit of a compartment can serve a request: not before it last served. -/
def serveTime (s : State) (k unit earliest : Nat) : Nat :=
  timeFrom s k (max earliest (match look (cmpt s k).served unit with | some n => n + 1 | none => 0))

/-- Requests at their homes, replies and walks. -/
def dueMemory (s : State) : List Next :=
  (s.reqs.flatMap fun p =>
    let home := unitStep (nowOf s (cmptOf p.2.tid)) (homeAccess p.1 s) (.homeAccess p.1)
    match placeOf p.2.pa, unitCore (placeOf p.2.pa) with
    | .store c off, _ =>
      if p.2.pkg = s.pkg then
        let b := off / 8 % 64
        unitStep (serveTime s (cmptOfCore c) (c * 64 + b) p.2.earliest) (bankRequest c b s) (.bankRequest c b)
      else home
    | w, some c =>
      unitStep (serveTime s (cmptOfCore c) ((windowNo w).getD 0) p.2.earliest) (windowService p.1 s) (.windowAccessService p.1) ++ home
    | _, none => home)
    ++ (s.accs.flatMap fun p =>
      let t := timeFrom s (cmptOf p.2.tid) (p.2.done + 1)
      unitStep t (accessReply p.1 s) (.accessReply p.1) ++ unitStep t (postedAck p.1 s) (.postedStoreAck p.1)
        ++ unitStep t (postedRefusal p.1 s) (.postedStoreRefusal p.1))
    ++ s.walks.flatMap fun p => unitStep (nowOf s (cmptOfTile p.2.tile)) (pageWalkEnd p.1 s) (.pageWalkEnd p.1)

/-- The time of the slot in which a pair sends next (R78). -/
def slotTime (s : State) (src dst : Nat) : Nat :=
  match waitingPair s src dst with
  | [] => 0
  | p :: rest => slotOfPair s src dst p rest

/-- Packets on their way. -/
def dueNetwork (s : State) : List Next :=
  s.packets.flatMap fun p =>
    let n := p.1
    let q := p.2
    let written := timeFrom s (cmptOfCore q.core) (q.time + 1)
    match q.stage with
    | .sending => unitStep (slotTime s q.src q.dst) (pairSlotSend q.src q.dst s) (.pairSlotSend q.src q.dst)
    | .flying => unitStep (q.time + flitLatency q.src q.dst) (flitArrival n 0 s) (.flitArrival n 0)
    | .port => unitStep (q.time + 2) (fifoDelivery n 0 s) (.elasticFifoDelivery n 0)
    | .ready =>
      unitStep written (intakeArrival n s) (.dispatchIntakeArrival n)
        ++ unitStep written (landingArrival n s) (.landingMessageArrival n)
        ++ unitStep written (pairArrival n s) (.pairRecordArrival n)
        ++ unitStep written (reductionCombine n n s) (.reductionCombine n n)
        ++ unitStep written (fifoDelivery n 0 s) (.elasticFifoDelivery n 0)
        ++ (match firstSystem s q.core with
          | some (_, x) =>
            unitStep (timeFrom s (cmptOfCore q.core) (systemCycle s q.core x)) (systemStart q.core s) (.systemClassStart q.core) 20001
          | none => [])

/-- The start unit of a core. -/
def dueStart (s : State) (c : Nat) : List Next :=
  match nextTaken s c with
  | some (t, _) => unitStep (timeFrom s (cmptOfCore c) t) (threadStart c s) (.threadStart c) 20001
  | none => []

/-- The time at which an access that a unit of a compartment has made is over. -/
def doneTime (s : State) (k : Nat) (acc : Option Nat) : Nat :=
  match acc.bind (look s.accs) with
  | some a => timeFrom s (cmptOf a.tid) (a.done + 1)
  | none => nowOf s k

/-- A step of an engine, when it moves anything. -/
def engineStep (s : State) (time : Nat) (r : Option State) (e : Instr) : List Next :=
  if r.any (· != s) then [⟨time, 0, .event e⟩] else []

/-- The units of cores. The owner of a deck reaches it before a thief (R148). -/
def dueCores (s : State) : List Next :=
  s.cores.flatMap fun p =>
    let c := p.1
    let k := cmptOfCore c
    unitStep (timeFrom s k p.2.nextBeat) (sendDepart c s) (.sendQueueDepart c) ++ dueStart s c
      ++ unitStep (doneTime s k (p.2.prep.bind Prep.acc)) (pairPrepare c s) (.pairPrepare c) 20002
      ++ unitStep (doneTime s k (p.2.ringAcc.map RingAccess.acc)) (ringRefill c s) (.overflowRingRefill c)
      ++ unitStep (timeFrom s k (p.2.dryFrom + 16 * bits (roleOf s c) 47 32)) (autoRecast c s) (.autoRecast c) 20004
      ++ ((List.range 7).flatMap fun i =>
        unitStep (timeFrom s k (moveCycle s c (i + 1))) (channelMove c (i + 1) s) (.channelElementMove c (i + 1)))
      ++ if (victims c).any fun v => (core s v).deck.any (stealable s c) then
          unitStep (timeFrom s k (nextSteal s c).2) (stealRequest c s) (.stealRequest c) 20003 else []

/-- Cores that a running launch has tasks for and that have no row yet. -/
def dueLaunches (s : State) : List Next :=
  s.launches.flatMap fun l =>
    if l.2.running then
      l.2.lists.flatMap fun t =>
        match physIn l.2.gone (cmptsOf s l.2.part) t.1 with
        | some c => if (look s.cores c).isNone then dueStart s c else []
        | none => []
    else []

/-- Whether a ranger has a thread of its own: its program then answers its fault messages. -/
def rangerRuns (s : State) (k : Nat) : Bool := s.threads.any fun p => onRanger p.1 && cmptOf p.1 == k && p.2.life != .free

/-- The units of tiles and compartments. The scheduler takes an entry after every thread of its cycle has issued (R97). -/
def dueUnits (s : State) : List Next :=
  (s.tiles.flatMap fun p =>
    let n := p.1
    let k := cmptOfTile n
    let t := nowOf s k
    unitStep t (millAccept n s) (.millAccept n) ++ unitStep t (millPipeFault n s) (.millPipeFault n)
      ++ unitStep (doneTime s k (p.2.row.map (·.1))) (millRow n s) (.millRowRead n)
      ++ unitStep (timeFrom s k ((p.2.millQ.head?.map (retireCycle s n)).getD 0)) (millRetire n s) (.millRetire n)
      ++ unitStep t (graderAccept n s) (.graderAccept n)
      ++ if (degradeTile n s).isSome then [⟨t, 0, .degrade n⟩] else [])
    ++ s.cmpts.flatMap fun p =>
      let k := p.1
      let t := p.2.t
      unitStep (timeFrom s k (max ((firstArrival p.2.arrivals).map (·.cycle) |>.getD 0) p.2.acceptAt)) (footprintAccept k s)
          (.footprintAccept k) 20000
        ++ (p.2.entries.flatMap fun e =>
          unitStep (timeFrom s k (dispatchCycle s e)) (footprintDispatch k e.id s) (.footprintDispatch k e.id))
        ++ engineStep s (doneTime s k ((p.2.markQ.head?.bind (look s.jobs)).bind fun j => j.acc.map (·.1))) (markJobRun k s) (.markJobRun k)
        ++ unitStep t (faultMessage k s) (.faultMessage k)
        ++ if p.2.faultQ.isEmpty || rangerRuns s k then [] else [⟨t, 0, .firmware k⟩]

/-- Jobs at their yarders. -/
def dueJobs (s : State) : List Next :=
  s.jobs.flatMap fun p =>
    let j := p.1
    let k := cmptOfCore p.2.core
    let t := nowOf s k
    engineStep s (doneTime s k (p.2.acc.map (·.1))) (jobArrival j 64 s) (.jobArrival j 64)
      ++ unitStep t (watermarkReport j s) (.watermarkReport j)
      ++ unitStep (timeFrom s k (p.2.ended.getD (completionCycle s p.2))) (jobCompletion j s) (.jobCompletion j)

/-- The step of a packet by its kind (R423). -/
noncomputable def packetStep (s : State) (k : Nat) : List Next :=
  match k with
  | 1 => unitStep s.now (launchPacket s) .launch
  | 2 => unitStep s.now (partitionSetup s) .partitionSetup
  | 3 => unitStep s.now (preEmpt s) .preEmptContext
  | 4 => unitStep s.now (killContext s) .killContext
  | 5 => unitStep s.now (readLog s) .readLog
  | 6 => unitStep s.now (attest s) .attest
  | 7 => unitStep s.now (createContext s) .createContext
  | 8 => unitStep s.now (releaseContext s) .releaseContext
  | _ => unitStep s.now (resumeContext s) .resumeContext

/-- The host link and the firmware. -/
noncomputable def dueHost (s : State) : List Next :=
  (match s.host.kicks with
    | [] => []
    | (v, t) :: _ =>
      unitStep (if kickGood s.host v then pollTime s t else s.now) (slotPoll s) .kickSlotPoll
        ++ unitStep (max s.now (t + kickLimit)) (kickAhead s) .kickAheadOfPacket)
    ++ (match s.host.taken with | [] => [] | ws :: _ => packetStep s (kindOf ws))
    ++ (match s.host.calls with
      | (c, h) :: _ => if (systemLaunch c h s).isSome then [⟨s.now, 0, .systemLaunch c h⟩] else []
      | [] => [])
    ++ unitStep s.now (recordPost s) .hostRecordPost
    ++ (s.parts.flatMap fun p => match p.2.change with | some (_, t) => unitStep t (modeChanged p.1 s) (.modeChangeComplete p.1) | none => [])
    ++ (s.launches.flatMap fun l =>
      unitStep s.now (launchStart l.1 s) (.launchStart l.1)
        ++ if l.2.running && launchIdle s l.1 l.2 && (counts s l.1).1 == (counts s l.1).2 || l.2.running && l.2.reading.isSome then
          unitStep s.now (cruiseSweep l.1 s) (.cruiseSweep l.1) else [])
    ++ s.ctxs.flatMap fun x =>
      (match x.2.preempt with | some (_, _, t) => unitStep t (preEmptDeadline x.1 s) (.preEmptionDeadline x.1) | none => [])
        ++ (match x.2.killing with
          | some (_, _, u :: _) => unitStep s.now (killReport x.1 u s) (.yarderKillReport x.1 u)
          | _ => [])

/-- The first of some steps by time and rank. -/
def firstOf : List Next → Option Next
  | [] => none
  | x :: xs =>
    match firstOf xs with
    | none => some x
    | some y => if y.time < x.time || (y.time == x.time && y.rank < x.rank) then some y else some x

/-- What comes next when the agenda is empty; none when nothing can move. -/
noncomputable def due (s : State) : Option Choice :=
  if s.power then
    (firstOf (dueThreads s ++ dueMemory s ++ dueNetwork s ++ dueCores s ++ dueLaunches s ++ dueUnits s ++ dueJobs s ++ dueHost s)).map (·.step)
  else none

end Sys2Proof.Machine
end

