-- ==== Sys2Proof/Machine/Step.lean ====
section
/-! DEFINITION. One step of the package: the oldest choice of the agenda, or what is due (log 1: DESIGN CHOICE). -/

namespace Sys2Proof.Machine

/-- Carry out a choice. -/
noncomputable def act (c : Choice) (s : State) : Host.Outcome State Fault Refusal :=
  match c with
  | .issue tid => issueTurn tid s
  | .event e => exec e s
  | .firmware c => event (reflect c) s
  | .mapOutCore c => event (fun s => some (mapOutCore s c)) s
  | .mapOutTile t => event (fun s => some (mapOutTile s t)) s
  | .degrade t => event (degradeTile t) s
  | .restart tid => event (restartPair tid) s
  | .systemLaunch c header => event (systemLaunch c header) s
  | .upset pa chk lasting => event (fun s => some (upset s pa chk lasting)) s
  | .hostWrite pa bs => event (hostWrite pa bs) s
  | .scalerRead k i pa => event (scalerRead k i pa) s

/-- One step; a package in which nothing can move stays as it is. -/
noncomputable def step (s : State) : Host.Outcome State Fault Refusal :=
  match s.agenda with
  | c :: rest => act c { s with agenda := rest }
  | [] =>
    match due s with
    | some c => act c s
    | none => if s.power then .next s else .fault .noPower

/-- The thread that `withFetchWord` lets issue: slot 1 of core 0. -/
def probeThread : Nat := 1

/-- A state in which the next step runs the instruction with the given bits: power is on, compartment 0 is partition 0 of
context 1, and slot 1 of core 0 runs at offset 0 of its tile's instruction store, where the bytes stand; its turn comes next
(log 5: DESIGN CHOICE). It stands for the launch that brings a program to a core. -/
def State.withFetchWord (s : State) (nbits w : Nat) : State :=
  let s := { s with power := true }
  let s := setCmpt s 0 { cmpt s 0 with part := some 0 }
  let s := setCtx s 1 { ctx s 1 with live := true, part := 0 }
  let s := setThr s probeThread { ctx := 1, life := .run, turn := turnAt 1 (cycOf s 0) }
  let s := setTile s 0 { tile s 0 with buffered := [] }
  { s with mem := setBytes s.mem (keyOf s.pkg (codeBase 0)) 4 (w % 2 ^ nbits), agenda := [.issue probeThread] }

end Sys2Proof.Machine
end

