-- ==== Sys2Proof/Safety.lean ====
section
/-! DEFINITION. The words in which statements speak of a turn: the thread that issues, the conditions of R288 under which its
instruction has its effect, and the state in which it has gone on. -/

namespace Sys2Proof.Machine

/-- The thread that issues, with every result written that lands by the end of the cycle before (R211, R290). -/
def issuer (s : State) : Thread := settle (thr s s.cur) (cycOf s (cmptOf s.cur) - 1)

/-- The state at issue: those results are in their registers. -/
def base (s : State) : State := setThr s s.cur (issuer s)

/-- The cycle of issue. -/
def cyc (s : State) : Nat := cycOf s (cmptOf s.cur)

/-- The word that the issuing thread reads in a register (R246). -/
def reg (s : State) (r : Reg) : Word := getX (issuer s) r.toNat

/-- The checks that R288 makes of any instruction hold: power is on (R2), the privilege suffices (R220), a pending prefix is
one that the instruction accepts (R286), and no register named has a result still to be written, unless the launch runs
without the scoreboard (R211, R212). No register named stands for a stream (R251). -/
structure Ready (s : State) (p : Prv) (rs : List Reg) (accepts : Nat → Bool := fun _ => false) : Prop where
  power : s.power = true
  privilege : allows p (issuer s).prv = true
  prefixed : ∀ x, pendingPfx (issuer s) = some x → accepts x.toNat = true
  written : noBoard s (issuer s) = true ∨ pendingOn (issuer s) rs = false
  unbound : ∀ r ∈ rs, boundAt (issuer s) r = none

/-- The thread is no half of a lead/trail pair (R226). -/
def Single (s : State) : Prop := (issuer s).lt = false

/-- The issuing thread goes on as `x` at `pc` in state `t`: a prefix that applied is used up (R286), no park is left, nor what the instruction
has had from its own store, and the thread skips its next `wait` turns (R279). -/
def goes (s t : State) (x : Thread) (pc : Word) (wait : Nat := 0) : State :=
  setThr t s.cur { x with pc := pc, pp := x.pp && (pendingPfx (issuer s)).isNone, park := none, own := none
                          turn := nextTurn (issuer s).park (slotOf s.cur) (cyc s) wait }

/-- The thread after a branch or an indirect jump: its bound streams read their elements ahead again (R113, R322; log 8: DEDUCED). -/
def turned (s : State) : Thread := if (issuer s).qb = 0 then issuer s else discardAhead (issuer s)

/-- The address `len` bytes on. -/
def nextAt (s : State) (len : Nat) : Word := (issuer s).pc + BitVec.ofNat 64 len

/-- The instruction of `len` bytes writes one register, which the next turn reads (class A of R290). -/
def writes (s : State) (len : Nat) (d : Reg) (v : Word) : State := goes s s (setX (overtake (issuer s) d (cyc s)) d.toNat v) (nextAt s len)

/-- A result that is written `n` cycles after issue, with the flags that merge then (R290, R324, R325). -/
def pending (s : State) (x : Thread) (d : Reg) (v : Word) (n : Nat) (fl : FFlags := {}) (fp : Bool := false)
    (sfu : Bool := false) : Thread :=
  if d = 0 ∧ fp = false then x else { x with pend := insPend ⟨d, v, cyc s + n, fl, fp, sfu⟩ x.pend }

/-- The instruction of `len` bytes has one such result. -/
def lands (s : State) (len wait : Nat) (d : Reg) (v : Word) (n : Nat) (fl : FFlags := {}) (fp : Bool := false) : State :=
  goes s s (pending s (issuer s) d v n fl fp) (nextAt s len) wait

/-- The thread has issued an access and waits for its reply (R70, R77): the access knows where the thread goes on. -/
def awaits (s t : State) (n : Nat) (next : Word) : State :=
  let a := lookD t.accs n { tid := 0, ctx := 0, launch := none, left := 0, dests := [], posted := false, covered := false
                            blocks := false, far := false, lo := 0, size := 0, next := 0 }
  setThr { t with accs := put t.accs n { a with undo := (issuer s).streams, next := next } } s.cur
    { thr t s.cur with park := some (.reply n), turn := max (thr t s.cur).turn (cyc s + 16) }

/-- An access passes the checks of R308 as the pieces `ps`, and nothing holds it back: no watermark (R105), no earlier access
that it is ordered behind (R114, R116), no limit of posted accesses (R76), and no migration (R71, R74). -/
structure Clear (s : State) (q : Ask) (ps : List Piece) : Prop where
  checks : checkAsk (base s) s.cur q = .ok ps (base s)
  free : accessWait (base s) s.cur q ps = none
  here : q.migrates = false ∨ stays (base s) s.cur = true
    ∨ ∀ p c, ps.head? = some p → reachOf (base s) (cmptOf s.cur) p ≠ .far c

/-- Whether an access is posted: a store, unless it is of kind SO and leaves the compartment (R76, R116). -/
def posts (s : State) (q : Ask) (ps : List Piece) : Bool :=
  q.kind == .store && postedStore (base s) s.cur ps

/-- The access in flight, and its name (R60, R70). -/
def asks (s : State) (q : Ask) (ps : List Piece) : Nat × State :=
  addAccess (countAccess (base s) (cmptOf s.cur) ps (posts s q ps)) s.cur q ps (posts s q ps)

/-- An instruction of `len` bytes has issued its access: the thread goes on when it is posted, and waits for its reply
otherwise. -/
def accesses (s : State) (len : Nat) (q : Ask) (ps : List Piece) : State :=
  let (n, t) := asks s q ps
  if posts s q ps then goes s t (thr t s.cur) (nextAt s len) else awaits s t n (nextAt s len)

/-- In state `t` a result waits to be written to a register `n` cycles after issue; x0 takes none (R246, R290). -/
def Lands (s t : State) (d : Reg) (v : Word) (n : Nat) : Prop :=
  d ≠ 0 → ∃ p ∈ (thr t s.cur).pend, p.reg = d ∧ p.val = v ∧ p.land = cyc s + n

/-- The number that a finite value stands for; 0 for the others (R259). -/
def FVal.toRat : FVal → Rat
  | .fin neg m e => (signedM neg m : Rat) * 2 ^ e.toNat / 2 ^ (-e).toNat
  | _ => 0

/-- Every byte of memory reads the same in two states. -/
def SameMemory (s t : State) : Prop := ∀ a, byteAt t.mem a = byteAt s.mem a

/-- The memory has its canonical form (R4). -/
def MemoryOk (s : State) : Prop := Memory.wf s.mem = true

/-- An instruction answers a next state of which `p` holds. -/
def Does (s : State) (i : Instr) (p : State → Prop) : Prop := ∃ t, exec i s = .next t ∧ p t

/-- What an instruction leaves as it was in the thread that issues: every register but those named (R246), the flags and the
rounding mode (R255), the window state and WSP (R247, R248), the mode bits and the trap registers (R222, R254). -/
structure RestKept (s t : State) (ds : List Reg) : Prop where
  regs : ∀ r : Reg, r ∉ ds → getX (thr t s.cur) r.toNat = reg s r
  flags : (thr t s.cur).flags = (issuer s).flags
  rm : (thr t s.cur).rm = (issuer s).rm
  wsp : (thr t s.cur).wsp = (issuer s).wsp
  depth : (thr t s.cur).depth = (issuer s).depth
  other : otherWin (thr t s.cur) = otherWin (issuer s)
  prv : (thr t s.cur).prv = (issuer s).prv
  it : (thr t s.cur).it = (issuer s).it
  pprv : (thr t s.cur).pprv = (issuer s).pprv
  tepc : (thr t s.cur).tepc = (issuer s).tepc
  tca : (thr t s.cur).tca = (issuer s).tca
  tval : (thr t s.cur).tval = (issuer s).tval

/-- The issuing thread has gone on past an instruction of `len` bytes that writes the registers `ds`. -/
def Past (s t : State) (ds : List Reg := []) (len : Nat := 4) : Prop := (thr t s.cur).pc = nextAt s len ∧ RestKept s t ds

/-- It has gone on, and a register has its result; x0 takes none (R246). -/
def Gives (s t : State) (d : Reg) (v : Word) (len : Nat := 4) : Prop :=
  Past s t [d] len ∧ (d ≠ 0 → getX (thr t s.cur) d.toNat = v)

/-- The state in which a fault of the issuing thread is taken: nothing has been popped, and an element whose read gave a fault is
read again (R310, R322). -/
def atFault (s : State) : State := setThr s s.cur { issuer s with streams := afterFault (before (issuer s)) }

/-- The access that the thread's instruction has made to its core's own store has given `v` (R21). -/
def Had (s : State) (v : Nat) : Prop := ∃ o, (issuer s).own = some o ∧ o.got = some v

/-- An instruction that has not yet had the words of its own store asks for them, an access of `n` bytes that passes the checks of R308 and
waits for nothing, and stays at its PC (R21, log 45: DEDUCED). -/
def Asks (s : State) (i : Instr) (k : AccKind) (va : Word) (n : Nat) (outside : Cause) : Prop :=
  ∀ ps, (issuer s).own = none → ownStore (base s) s.cur va n k outside = .ok ps (base s) →
    ∃ t o a, exec i s = .next t ∧ t.mem = s.mem ∧ (thr t s.cur).pc = (issuer s).pc
      ∧ (thr t s.cur).own = some o ∧ o.got = none ∧ look t.accs o.acc = some a ∧ a.lo = va.toNat ∧ a.size = n ∧ a.agent = .words
      ∧ ∃ since, (thr t s.cur).park = some (.again .own since)

/-- The instruction has taken the fault of a cause (R221-R223). -/
def Faults (s : State) (i : Instr) (c : Cause) (tval : Word := 0) : Prop :=
  exec i s = .next (takeFault (atFault s) s.cur c tval (issuer s).pc)

/-- A home of plain memory, with no word in error and the canonical form: no view of a register or of a mill (R4, R33, R35). -/
structure Plain (s : State) (pkg pa : Nat) : Prop where
  ok : MemoryOk s
  sound : s.flaws = []
  store : pkg ≠ s.pkg ∨ ∀ t o, placeOf pa ≠ .regs t o ∧ placeOf pa ≠ .mill t o

/-- `n` bytes at a home hold `v`, and every byte outside them reads as before. -/
def Wrote (s t : State) (pkg pa n v : Nat) : Prop :=
  bytesAt t.mem (keyOf pkg pa) n = v ∧ ∀ x, (x < keyOf pkg pa ∨ keyOf pkg pa + n ≤ x) → byteAt t.mem x = byteAt s.mem x

/-- No watermark of the thread's context holds an access back (R105). -/
def Below (s : State) (va : Word) (n : Nat) : Prop :=
  (issuer s).prv = .f ∨ aboveMark (base s) (coreOf s.cur) (issuer s).ctx va.toNat n = false

/-- In fixed-timing mode a compartment's cycle is the one its network time lies in (R206). -/
def ClockOk (s : State) : Prop := ∀ k, (cmpt s k).fixt = true → 7 * (cmpt s k).t / 15 = (cmpt s k).cyc

/-- The instructions of firmware on another thread (R225, R417, R418). -/
def namesThread : Instr → Bool
  | .tkill .. | .tscrub .. | .winWr .. => true
  | _ => false

end Sys2Proof.Machine
end

