-- ==== Sys2Proof/Certificates/Slice0/Obligations.lean ====
section
/-! DEFINITION. The statements about the model, family by family. A statement of what an instruction does is an equation of
`exec` under `Ready`, the conditions of R288 on any instruction, and the conditions its own rule names; the state on its right
side is written out, so that whatever it does not change stays as it is. -/

open Sys2Proof Sys2Proof.Machine Host

/-! ## Whole-machine rules -/
/-- R274, R276, R282, R287: the decoder reads every well-formed instruction back from its bytes, whatever stands after them. -/
def Obligations.DecodeEncode : Prop :=  ∀ (i : Instr) (rest : List Byte), i.wf = true → encode i ≠ [] → decode (encode i ++ rest) = .ok (i, (encode i).length)

/-- R287: what the decoder takes for an instruction is well-formed, and its bytes are those of that instruction: every bit is a
field's or is fixed. -/
def Obligations.DecodedIsEncoded : Prop :=  ∀ (bs : List Byte) (i : Instr) (n : Nat), decode bs = .ok (i, n) → i.wf = true ∧ n = i.len ∧ encode i = bs.take n

/-- Words that the spec writes out, beside the instruction each stands for. -/
def Obligations.SpecWords : Prop :=  decode32 0x00B52403#32 = .ok (.add 9 10 11) ∧ decode32 0xCDEFA40B#32 = .ok (.liN 9 0xCDEF)
  ∧ decode32 0x0123278B#32 = .ok (.lih 9 0x0123 3) ∧ decode32 0xFE04F291#32 = .ok (.bnz 9 (-4))
  ∧ decode16 0xE26C#16 = .ok (.c16Bnz 9 (-4)) ∧ decode32 0xD802A799#32 = .ok (.ldAcq 9 5 6 3 0 0)
  ∧ decode32 0x6062839B#32 = .ok (.stRel 5 6 3 0 3) ∧ decode32 0x009E819B#32 = .ok (.st 29 9 0 3)
  ∧ decode32 0x00000317#32 = .ok .nop ∧ decode16 0x003C#16 = .ok .c16Nop

/-- R140, R274, R275: a turn. The agenda's oldest choice, or what is due, lets a thread that can issue and has no trap to take
issue in a cycle of its own slot, or in the cycle its compartment is in where its instruction waits for what comes about between
turns; it runs the instruction whose bytes stand at its PC. The fetch of R275: the halfword at PC[15:0], with the one after it
where the store has one, from a store that nothing has changed since the last start message (R127). A step of another agent that
the agenda names is that step (log 1). -/
def Obligations.StepRunsDecoded : Prop :=
  (∀ (s u : State) (tid : Nat) (bs : List Byte),
     (∃ v, ((∃ rest, s.agenda = .issue tid :: rest ∧ v = { s with agenda := rest })
         ∨ (s.agenda = [] ∧ due s = some (.issue tid) ∧ v = s))
       ∧ v.power = true ∧ canIssue v tid = true
       ∧ ∃ w, w = tick v (cmptOf tid) (issueCycle v tid) ∧ trapDue (thr w tid) = none
         ∧ fetch w (tileOf tid) (thr w tid).pc = (bs, u)) →
     (completesBetween (thr s tid) = false → cycOf u (cmptOf tid) % 16 = slotOf tid)
     ∧ (∀ i n, decode bs = .ok (i, n) → step s = exec i (atTurn u tid bs))
     ∧ ∀ e, decode bs = .error e → step s = exec (.illegalEncoding (instBits bs)) (atTurn u tid bs))
  ∧ (∀ (s : State) (tl : Nat) (pc : Word), (tile s tl).buffered = [] →
       let off := pc.toNat % 65536 / 2 * 2
       let at_ (n : Nat) : Byte := byteAt s.mem (keyOf s.pkg (codeBase tl + off + n))
       fetch s tl pc = (if off = 0xFFFE then [at_ 0, at_ 1] else [at_ 0, at_ 1, at_ 2, at_ 3], s))
  ∧ (∀ (s : State) (e : Instr) (rest : List Choice),
       (s.agenda = .event e :: rest → step s = exec e { s with agenda := rest })
       ∧ (s.agenda = [] → due s = some (.event e) → step s = exec e s))

/-- R4: every step keeps the memory's canonical form, so that equal memories are equal data. -/
def Obligations.StepKeepsMemory : Prop := ∀ s t : State, MemoryOk s → step s = .next t → MemoryOk t

/-- R206: every step keeps the cycle of a compartment in fixed-timing mode the one that its network time lies in. -/
def Obligations.StepKeepsClock : Prop := ∀ s t : State, ClockOk s → step s = .next t → ClockOk t

/-- R220, R222, R254: no instruction of a user thread raises its privilege but by taking a trap, whose handler runs at S. -/
def Obligations.UserStaysUser : Prop :=  ∀ (s t : State) (i : Instr), encode i ≠ [] → (issuer s).prv = .u → exec i s = .next t →
    (thr t s.cur).prv = .u ∨ ((thr t s.cur).prv = .s ∧ (thr t s.cur).it = true)

/-- R110, R225, R231: an encoded instruction changes no byte of memory at its issue; and one of a single thread leaves every
other thread as it was, but for the firmware's instructions on another thread, and for the elements that threads of the core
have read ahead when `yrd.chan` arms a channel (R105, R321). -/
def Obligations.InstructionsReachNoFurther : Prop :=  ∀ (s t : State) (i : Instr), encode i ≠ [] → exec i s = .next t →
    SameMemory s t
    ∧ (namesThread i = false → Single s → (∀ h, (issuer s).held = some h → h.op.tid = s.cur) → ∀ n, n ≠ s.cur → thr t n = thr s n
      ∨ (∃ d a b, i = .yrdChan d a b) ∧ thr t n = discardAhead (thr s n))

/-- R2, R4, R206: after power is applied nothing is left of what the package held: no byte of its memory, register, context,
launch, translation, log entry or message. Host memory and the bytes of other packages stay. That an unwritten byte reads 0 is
the model's choice (log 3). -/
def Obligations.PowerLosesState : Prop :=  MemoryOk State.reset ∧ ClockOk State.reset ∧ (∀ a, byteAt State.reset.mem a = 0)
  ∧ ∀ s : State,
    let kept (on : Bool) (mem : List Host.Cell) (frames : Tab Frame) : State :=
      { State.reset with power := on, pkg := s.pkg, mem := mem, frames := frames, agenda := s.agenda, fresh := s.fresh }
    ∃ (mem : List Host.Cell) (frames : Tab Frame), (s.power = false → exec .powerOn s = .next (kept true mem frames))
      ∧ (s.power = true → exec .powerOn s = .next s ∧ exec .powerOff s = .next (kept false mem frames))
      ∧ ∀ pkg pa, pa < 2 ^ 48 →
        ((pkg ≠ s.pkg ∨ ∃ o, placeOf pa = .host o) → byteAt mem (keyOf pkg pa) = byteAt s.mem (keyOf pkg pa))
        ∧ (pkg = s.pkg → (∀ o, placeOf pa ≠ .host o) → byteAt mem (keyOf pkg pa) = 0)


/-! ## Integer, address and control instructions -/
/-- R292, R301: the two-operand forms of class A. R293, R299, R300: the forms of class A with an immediate, and the address of a
label. R283, R284: the 16-bit forms that compute in registers do what their expansions do, and the next instruction is two bytes
on. -/
def Obligations.IntegerArithmetic : Prop :=
  (∀ (s : State) (d a b : Reg), Ready s .u [a, b, d] →
     let x := reg s a
     let y := reg s b
     exec (.add d a b) s = .next (writes s 4 d (x + y)) ∧ exec (.sub d a b) s = .next (writes s 4 d (x - y))
     ∧ exec (.and d a b) s = .next (writes s 4 d (x &&& y)) ∧ exec (.or d a b) s = .next (writes s 4 d (x ||| y))
     ∧ exec (.xor d a b) s = .next (writes s 4 d (x ^^^ y)) ∧ exec (.andn d a b) s = .next (writes s 4 d (x &&& ~~~y))
     ∧ exec (.orn d a b) s = .next (writes s 4 d (x ||| ~~~y))
     ∧ exec (.min d a b) s = .next (writes s 4 d (if x.toInt ≤ y.toInt then x else y))
     ∧ exec (.minN d a b) s = .next (writes s 4 d (if x.toNat ≤ y.toNat then x else y))
     ∧ exec (.max d a b) s = .next (writes s 4 d (if x.toInt ≤ y.toInt then y else x))
     ∧ exec (.maxN d a b) s = .next (writes s 4 d (if x.toNat ≤ y.toNat then y else x))
     ∧ exec (.slt d a b) s = .next (writes s 4 d (if x.toInt < y.toInt then 1 else 0))
     ∧ exec (.sltN d a b) s = .next (writes s 4 d (if x.toNat < y.toNat then 1 else 0))
     ∧ exec (.seq d a b) s = .next (writes s 4 d (if x = y then 1 else 0))
     ∧ ∀ c, Ready s .u [a, b, c, d] →
         exec (.sel d a b c) s = .next (writes s 4 d (if reg s c = 0 then y else x)))
  ∧ (∀ (s : State) (d a : Reg), Ready s .u [a, d] →
       let x := reg s a
       (∀ i : BitVec 12,
         let v : Word := i.signExtend 64
         exec (.addi d a i) s = .next (writes s 4 d (x + v)) ∧ exec (.andi d a i) s = .next (writes s 4 d (x &&& v))
         ∧ exec (.ori d a i) s = .next (writes s 4 d (x ||| v)) ∧ exec (.xori d a i) s = .next (writes s 4 d (x ^^^ v))
         ∧ exec (.slti d a i) s = .next (writes s 4 d (if x.toInt < v.toInt then 1 else 0))
         ∧ exec (.sltiN d a i) s = .next (writes s 4 d (if x.toNat < v.toNat then 1 else 0)))
       ∧ (∀ k : BitVec 16,
         exec (.li d k) s = .next (writes s 4 d (k.signExtend 64)) ∧ exec (.liN d k) s = .next (writes s 4 d (k.setWidth 64))
         ∧ ∀ h : BitVec 2, ∃ v : Word, exec (.lih d k h) s = .next (writes s 4 d v)
             ∧ ∀ j : Nat, v.extractLsb' (16 * j) 16
                 = if j = h.toNat then k else (reg s d).extractLsb' (16 * j) 16)
       ∧ ∀ o : BitVec 17, exec (.adr d o) s = .next (writes s 4 d ((issuer s).pc + 2 * o.signExtend 64)))
  ∧ (∀ (s : State) (d b : Reg) (k : BitVec 5), Ready s .u [d, b] →
       let x := reg s d
       let y := reg s b
       exec (.c16Add d b) s = .next (writes s 2 d (x + y)) ∧ exec (.c16Sub d b) s = .next (writes s 2 d (x - y))
       ∧ exec (.c16And d b) s = .next (writes s 2 d (x &&& y)) ∧ exec (.c16Or d b) s = .next (writes s 2 d (x ||| y))
       ∧ exec (.c16Xor d b) s = .next (writes s 2 d (x ^^^ y)) ∧ exec (.c16Move d b) s = .next (writes s 2 d y)
       ∧ exec (.c16Mul d b) s = .next (lands s 2 0 d (x * y) 4)
       ∧ exec (.c16Addi d k) s = .next (writes s 2 d (x + k.signExtend 64))
       ∧ exec (.c16Andi d k) s = .next (writes s 2 d (x &&& k.signExtend 64))
       ∧ exec (.c16Addi16 d k) s = .next (writes s 2 d (x + 16 * k.signExtend 64))
       ∧ exec (.c16Li d k) s = .next (writes s 2 d (k.signExtend 64))
       ∧ exec (.c16Shli d k) s = .next (writes s 2 d (x <<< k.toNat))
       ∧ exec (.c16Shri d k) s = .next (writes s 2 d (x >>> k.toNat))
       ∧ exec (.c16Sari d k) s = .next (writes s 2 d (x.sshiftRight k.toNat))
       ∧ exec .c16Nop s = .next (goes s s (issuer s) (nextAt s 2)) ∧ exec .nop s = .next (goes s s (issuer s) (nextAt s 4)))

/-- R294, R295, R296: shifts, rotations, bit counts, reversals and bit fields. R290, R297: the multiplications, whose results
are written four cycles after issue. R290, R298: division, with its quotients and remainders by 0 and its one overflow; the
results are written forty cycles after issue, and the thread skips as many turns as WAIT says (R279). -/
def Obligations.BitsAndProducts : Prop :=
  (∀ (s : State) (d a b : Reg), Ready s .u [a, b, d] →
     let x := reg s a
     let y := reg s b
     let n := y.toNat % 64
     let w := min (y.toNat / 256 % 128) (64 - n)
     exec (.shl d a b) s = .next (writes s 4 d (x <<< n)) ∧ exec (.shr d a b) s = .next (writes s 4 d (x >>> n))
     ∧ exec (.sar d a b) s = .next (writes s 4 d (x.sshiftRight n))
     ∧ exec (.rotl d a b) s = .next (writes s 4 d (x <<< n ||| x >>> (64 - n)))
     ∧ exec (.rotr d a b) s = .next (writes s 4 d (x >>> n ||| x <<< (64 - n)))
     ∧ (∀ k : BitVec 6, exec (.shli d a k) s = .next (writes s 4 d (x <<< k.toNat))
       ∧ exec (.shri d a k) s = .next (writes s 4 d (x >>> k.toNat))
       ∧ exec (.sari d a k) s = .next (writes s 4 d (x.sshiftRight k.toNat)))
     ∧ (∃ c ≤ 64, exec (.clz d a) s = .next (writes s 4 d (BitVec.ofNat 64 c))
       ∧ (∀ i, 64 - c ≤ i → x.getLsbD i = false) ∧ (c < 64 → x.getLsbD (63 - c) = true))
     ∧ (∃ c ≤ 64, exec (.ctz d a) s = .next (writes s 4 d (BitVec.ofNat 64 c))
       ∧ (∀ i, i < c → x.getLsbD i = false) ∧ (c < 64 → x.getLsbD c = true))
     ∧ exec (.popc d a) s = .next (writes s 4 d (BitVec.ofNat 64 ((List.range 64).filter x.getLsbD).length))
     ∧ (∃ v : Word, exec (.brev d a) s = .next (writes s 4 d v) ∧ ∀ i < 64, v.getLsbD i = x.getLsbD (63 - i))
     ∧ (∃ v : Word, exec (.bswap d a) s = .next (writes s 4 d v)
       ∧ ∀ j < 8, v.extractLsb' (8 * j) 8 = x.extractLsb' (56 - 8 * j) 8)
     ∧ exec (.bfx d a b) s = .next (writes s 4 d (BitVec.ofNat 64 (x.toNat / 2 ^ n % 2 ^ w)))
     ∧ (∃ v : Word, exec (.bfxs d a b) s = .next (writes s 4 d v)
       ∧ ∀ i < 64, v.getLsbD i = (decide (w ≠ 0) && x.getLsbD (n + min i (w - 1))))
     ∧ ∃ v : Word, exec (.bfi d a b) s = .next (writes s 4 d v)
       ∧ ∀ i < 64, v.getLsbD i = if n ≤ i ∧ i < n + w then x.getLsbD (i - n) else (reg s d).getLsbD i)
  ∧ (∀ (s : State) (d a b c : Reg), Ready s .u [a, b, c, d] →
       let x := reg s a
       let y := reg s b
       let z := reg s c
       exec (.mul d a b) s = .next (lands s 4 0 d (x * y) 4)
       ∧ exec (.mulh d a b) s = .next (lands s 4 0 d (BitVec.ofInt 64 (x.toInt * y.toInt / 2 ^ 64)) 4)
       ∧ exec (.mulhN d a b) s = .next (lands s 4 0 d (BitVec.ofNat 64 (x.toNat * y.toNat / 2 ^ 64)) 4)
       ∧ exec (.madd d a b c) s = .next (lands s 4 0 d (x * y + z) 4)
       ∧ exec (.msub d a b c) s = .next (lands s 4 0 d (z - x * y) 4))
  ∧ (∀ (s : State) (d a b : Reg) (w : BitVec 3), Ready s .u [a, b, d] →
       let x := reg s a
       let y := reg s b
       exec (.div d a b w) s
           = .next (lands s 4 w.toNat d (if y = 0 then BitVec.allOnes 64 else BitVec.ofInt 64 (x.toInt.tdiv y.toInt)) 40)
       ∧ exec (.rem d a b w) s = .next (lands s 4 w.toNat d (if y = 0 then x else BitVec.ofInt 64 (x.toInt.tmod y.toInt)) 40)
       ∧ exec (.divN d a b w) s
           = .next (lands s 4 w.toNat d (if y = 0 then BitVec.allOnes 64 else BitVec.ofNat 64 (x.toNat / y.toNat)) 40)
       ∧ exec (.remN d a b w) s = .next (lands s 4 w.toNat d (BitVec.ofNat 64 (x.toNat % y.toNat)) 40))

/-- R302: the conditional branches. A thread with a stream bound reads its elements ahead again at each of them, whatever its
operands come from (log 8). R303, R304: the jumps. The link is the address of the next instruction, the target is formed before
the link is written, and an odd target is the alignment fault with nothing written. After an indirect jump streams read ahead
again (log 8). R306: `rep` counts its register down, stops at 0 and branches while it is not 0; with x0 it never branches.
Streams read ahead again (log 8). That the streams read ahead again after every conditional branch, every indirect jump and
every pass of rep is the model's reading (log 8: DEDUCED). -/
def Obligations.ControlFlow : Prop :=
  (∀ (s : State) (a b : Reg) (o : BitVec 12) (k : BitVec 5), Ready s .u [a, b] →
     let x := reg s a
     let y := reg s b
     let go (taken : Prop) [Decidable taken] (len : Nat) (by_ : Word) : Outcome State Fault Refusal :=
       .next (goes s s (turned s) (if taken then (issuer s).pc + 2 * by_ else nextAt s len))
     exec (.beq a b o) s = go (x = y) 4 (o.signExtend 64) ∧ exec (.bne a b o) s = go (x ≠ y) 4 (o.signExtend 64)
     ∧ exec (.blt a b o) s = go (x.toInt < y.toInt) 4 (o.signExtend 64)
     ∧ exec (.bge a b o) s = go (y.toInt ≤ x.toInt) 4 (o.signExtend 64)
     ∧ exec (.bltN a b o) s = go (x.toNat < y.toNat) 4 (o.signExtend 64)
     ∧ exec (.bgeN a b o) s = go (y.toNat ≤ x.toNat) 4 (o.signExtend 64)
     ∧ exec (.bz a o) s = go (x = 0) 4 (o.signExtend 64) ∧ exec (.bnz a o) s = go (x ≠ 0) 4 (o.signExtend 64)
     ∧ exec (.c16Bz a k) s = go (x = 0) 2 (k.signExtend 64) ∧ exec (.c16Bnz a k) s = go (x ≠ 0) 2 (k.signExtend 64))
  ∧ (∀ (s : State) (d a : Reg) (o : BitVec 17) (p : BitVec 10) (i : BitVec 12), Ready s .u [a, d] →
       let pc := (issuer s).pc
       let t := reg s a + i.signExtend 64
       exec (.j o) s = .next (goes s s (issuer s) (pc + 2 * o.signExtend 64))
       ∧ exec (.c16J p) s = .next (goes s s (issuer s) (pc + 2 * p.signExtend 64))
       ∧ exec (.jal d o) s = .next (goes s s (setX (overtake (issuer s) d (cyc s)) d.toNat (pc + 4)) (pc + 2 * o.signExtend 64))
       ∧ (t.getLsbD 0 = false → exec (.jr a i) s = .next (goes s s (turned s) t)
         ∧ exec (.jalr d a i) s = .next (goes s s (setX (overtake (turned s) d (cyc s)) d.toNat (pc + 4)) t))
       ∧ (t.getLsbD 0 = true → exec (.jr a i) s = .next (takeFault (atFault s) s.cur .alignment t pc)
         ∧ exec (.jalr d a i) s = .next (takeFault (atFault s) s.cur .alignment t pc))
       ∧ ((reg s a).getLsbD 0 = false → exec (.c16Jr a) s = .next (goes s s (turned s) (reg s a)))
       ∧ ((reg s a).getLsbD 0 = true → exec (.c16Jr a) s = .next (takeFault (atFault s) s.cur .alignment (reg s a) pc))
       ∧ (Ready s .u [1] →
         exec (.c16Jal p) s = .next (goes s s (setX (overtake (issuer s) 1 (cyc s)) 1 (pc + 2)) (pc + 2 * p.signExtend 64))
         ∧ ((reg s a).getLsbD 0 = false →
           exec (.c16Jalr a) s = .next (goes s s (setX (overtake (turned s) 1 (cyc s)) 1 (pc + 2)) (reg s a)))
         ∧ ((reg s a).getLsbD 0 = true → exec (.c16Jalr a) s = .next (takeFault (atFault s) s.cur .alignment (reg s a) pc))
         ∧ ((reg s 1).getLsbD 0 = false → exec .ret s = .next (goes s s (turned s) (reg s 1))
           ∧ exec .c16Ret s = .next (goes s s (turned s) (reg s 1)))
         ∧ ((reg s 1).getLsbD 0 = true → exec .ret s = .next (takeFault (atFault s) s.cur .alignment (reg s 1) pc)
           ∧ exec .c16Ret s = .next (takeFault (atFault s) s.cur .alignment (reg s 1) pc))))
  ∧ (∀ (s : State) (d : Reg) (i : BitVec 12), Ready s .u [d] →
       let n := reg s d
       exec (.rep d i) s =
         .next (goes s s (setX (overtake (turned s) d (cyc s)) d.toNat (if n = 0 then 0 else n - 1))
           (if n = 0 ∨ n = 1 then nextAt s 4 else (issuer s).pc + 2 * i.signExtend 64)))

/-- R248, R249: `save` turns to the other window when the spill engine has emptied it: its entry registers are the old call
registers, its working and call registers are 0. `restore` turns back and returns the entry registers to the call registers; the
caller's other registers are as they were, and so are x1 to x7. R286: `pfx` sets the prefix of the next instruction; in a trap
handler it is the illegal-prefix cause. -/
def Obligations.WindowsAndPrefix : Prop :=
  (∀ (s : State), Ready s .u [] → ((issuer s).lt = false ∨ (issuer s).trl = true) → (issuer s).spillFault = none → (issuer s).pend = [] →
     let t := issuer s
     ((issuer s).olive = false →
       ∃ u : Thread, exec .save s = .next (goes s s u (nextAt s 4)) ∧ exec .c16Save s = .next (goes s s u (nextAt s 2))
         ∧ u.depth = t.depth + 1 ∧ u.olive = true ∧ u.cur = !t.cur
         ∧ (∀ r < 8, getX u r = getX t r) ∧ (∀ i < 8, getX u (8 + i) = getX t (24 + i))
         ∧ (∀ i < 16, getX u (16 + i) = 0) ∧ otherWin u = curWin t)
     ∧ ((issuer s).olive = true → t.depth ≠ 0 →
       ∃ u : Thread, exec .restore s = .next (goes s s u (nextAt s 4)) ∧ exec .c16Restore s = .next (goes s s u (nextAt s 2))
         ∧ u.depth = t.depth - 1 ∧ u.olive = false ∧ u.cur = !t.cur
         ∧ (∀ r < 8, getX u r = getX t r) ∧ (∀ i < 8, getX u (24 + i) = getX t (8 + i))
         ∧ ∀ i < 16, getX u (8 + i) = lookD (otherWin t) i 0)
     ∧ (t.depth = 0 → exec .restore s = .next (takeFault (atFault s) s.cur .windowAccess t.wsp t.pc)))
  ∧ (∀ (s : State) (p : BitVec 10), Ready s .u [] →
       ((issuer s).it = false →
         exec (.pfx p) s = .next (goes s s { issuer s with pp := true, pfx := p } (nextAt s 2)))
       ∧ ((issuer s).it = true →
         exec (.pfx p) s = .next (contain (atFault s) s.cur .illegalPfx ((issuer s).pfx.setWidth 64) (issuer s).pc)))


/-! ## Memory and streams -/
/-- R308, R312, R314, R283: a load whose address passes the checks has issued an access of its width at x[A] + offset, and the
thread waits for the reply; its destination is written when that comes (AccessReplies). R308, R313, R283: a store whose address
passes the checks has issued a write of the low bytes of x[B] at x[A] + offset; the thread goes on, unless the store is of kind
SO and leaves the compartment (R76, R116). -/
def Obligations.LoadsAndStores : Prop :=
  (∀ (s : State) (d a : Reg), Ready s .u [a, d] → Single s → ∀ (ps : List Piece) (w : BitVec 2),
     let ask (len : Nat) (off : Word) (w : Nat) (signed acq migrates : Bool) : Ask :=
       { kind := .load, acq := acq, va := reg s a + off, size := 2 ^ w, op := fun _ _ => .read
         dests := [⟨d, 0, 2 ^ w, signed⟩], migrates := migrates, next := nextAt s len }
     let does (i : Instr) (len : Nat) (q : Ask) : Prop := Clear s q ps → exec i s = .next (accesses s len q ps)
     (∀ i : BitVec 12, does (.ld d a i w) 4 (ask 4 (i.signExtend 64) w.toNat true false true)
       ∧ does (.ldN d a i w) 4 (ask 4 (i.signExtend 64) w.toNat false false true))
     ∧ (∀ (sc : BitVec 3) (e : BitVec 1) (o : BitVec 6),
       does (.ldAcq d a sc w e o) 4 (ask 4 (o.signExtend 64) w.toNat (e == 0) true false))
     ∧ (∀ (e : BitVec 1) (o : BitVec 11), does (.lx d a e o w) 4 (ask 4 (o.signExtend 64) w.toNat (e == 0) false false))
     ∧ does (.c16Ld d a) 2 (ask 2 0 3 true false true)
     ∧ ∀ k : BitVec 5, (a = 2 → does (.c16LdX2 d k) 2 (ask 2 (8 * k.setWidth 64) 3 true false true))
       ∧ (a = 3 → does (.c16LdX3 d k) 2 (ask 2 (8 * k.setWidth 64) 3 true false true)))
  ∧ (∀ (s : State) (a b : Reg), Ready s .u [a, b] → Single s → ∀ (ps : List Piece) (w : BitVec 2),
       let ask (len : Nat) (off : Word) (w : Nat) (rel : Bool) : Ask :=
         { kind := .store, rel := rel, va := reg s a + off, size := 2 ^ w
           op := fun n o => .write ((reg s b).toNat / 2 ^ (8 * o) % 2 ^ (8 * n)), next := nextAt s len }
       let does (i : Instr) (len : Nat) (q : Ask) : Prop := Clear s q ps → exec i s = .next (accesses s len q ps)
       (∀ i : BitVec 12, does (.st a b i w) 4 (ask 4 (i.signExtend 64) w.toNat false))
       ∧ (∀ (sc : BitVec 3) (o : BitVec 9), does (.stRel a b sc o w) 4 (ask 4 (o.signExtend 64) w.toNat true))
       ∧ does (.c16St b a) 2 (ask 2 0 3 false)
       ∧ ∀ k : BitVec 5, (a = 2 → does (.c16StX2 b k) 2 (ask 2 (8 * k.setWidth 64) 3 false))
         ∧ (a = 3 → does (.c16StX3 b k) 2 (ask 2 (8 * k.setWidth 64) 3 false)))

/-- R309, R316: pairs and multiples are one access of 8-byte words. Every source and the base are read at issue, and the
destinations rise from x[D] with the words. R317, R318: an atomic whose address passes the checks has issued one access of 4 or
8 bytes, aligned to its width, which does the operation at the home; the thread waits for the old value. R317: the new values of
the atomic operations on w bytes, signed comparisons taking two's-complement values. R118, R315, R322: a fence with no access
outstanding costs one turn; its kinds acq and full make streams read ahead again. While an access that it waits for is
outstanding, the thread stays at it. -/
def Obligations.MultiplesAndAtomics : Prop :=
  (∀ (s : State) (d a e : Reg) (ps : List Piece) (i : BitVec 12) (k : BitVec 7), Single s →
     let load (n : Nat) (off : Word) : Ask :=
       { kind := .load, va := reg s a + off, size := 8 * n, op := fun _ _ => .read
         dests := (List.range n).map fun j => ⟨d + BitVec.ofNat 5 j, 8 * j, 8, false⟩, migrates := true, next := nextAt s 4 }
     let store (n : Nat) (off : Word) : Ask :=
       { kind := .store, va := reg s a + off, size := 8 * n
         op := fun m o => .write (joinWords ((regsFrom d n).map (reg s)) / 2 ^ (8 * o) % 2 ^ (8 * m)), next := nextAt s 4 }
     let n := e.toNat - d.toNat + 1
     let off : Word := 8 * k.signExtend 64
     (Ready s .u (a :: regsFrom d 2) →
       (Clear s (load 2 (i.signExtend 64)) ps → exec (.ldp d a i) s = .next (accesses s 4 (load 2 (i.signExtend 64)) ps))
       ∧ (Clear s (store 2 (i.signExtend 64)) ps → exec (.stp a d i) s = .next (accesses s 4 (store 2 (i.signExtend 64)) ps)))
     ∧ (Ready s .u (a :: regsFrom d n) →
       (Clear s (load n off) ps → exec (.ldm d a e k) s = .next (accesses s 4 (load n off) ps))
       ∧ (Clear s (store n off) ps → exec (.stm a d e k) s = .next (accesses s 4 (store n off) ps))))
  ∧ (∀ (s : State) (d a b : Reg) (r : BitVec 2) (ps : List Piece), Single s →
       let ask (n : Nat) (signed : Bool) (op : Nat → Nat → ReqOp) : Ask :=
         { kind := .atomic, acq := r.getLsbD 0, rel := r.getLsbD 1, va := reg s a, size := n, align := n, op := op
           dests := [⟨d, 0, n, signed⟩], next := nextAt s 4 }
       (Ready s .u [a, b, d] → ∀ (w : BitVec 1) (sc : BitVec 3),
         let n := if w = 1 then 8 else 4
         let does (i : Instr) (op : Nat) : Prop :=
           let q := ask n true fun k _ => .amo op ((reg s b).toNat % 2 ^ (8 * k))
           Clear s q ps → exec i s = .next (accesses s 4 q ps)
         does (.amoAdd d a b w r sc) 0 ∧ does (.amoAnd d a b w r sc) 1 ∧ does (.amoOr d a b w r sc) 2
         ∧ does (.amoXor d a b w r sc) 3 ∧ does (.amoMin d a b w r sc) 4 ∧ does (.amoMax d a b w r sc) 5
         ∧ does (.amoNMin d a b w r sc) 6 ∧ does (.amoNMax d a b w r sc) 7 ∧ does (.amoXchg d a b w r sc) 8)
       ∧ ∀ c : Reg, Ready s .u [a, b, c, d] →
         let q := ask 8 false fun _ _ => .cas (reg s c).toNat (reg s b).toNat
         Clear s q ps → exec (.cas d a b c r) s = .next (accesses s 4 q ps))
  ∧ (∀ (w : Nat) (old b : BitVec (8 * w)), 0 < w →
       let is (op : Nat) (v : BitVec (8 * w)) : Prop := amoNew op w old.toNat b.toNat = v.toNat
       is 0 (old + b) ∧ is 1 (old &&& b) ∧ is 2 (old ||| b) ∧ is 3 (old ^^^ b)
       ∧ is 4 (if b.slt old then b else old) ∧ is 5 (if old.slt b then b else old)
       ∧ is 6 (if b.ult old then b else old) ∧ is 7 (if old.ult b then b else old) ∧ is 8 b)
  ∧ (∀ (s : State) (u : BitVec 1) (sc : BitVec 3) (k : BitVec 2), Ready s .u [] →
       let waits := (accsOf (base s) s.cur).any fun p => (u == 1 || p.2.covered) && (k != 1 || !p.2.posted)
       (waits = false → exec (.fence u sc k) s =
         .next (goes s s (if k = 2 then issuer s else discardAhead (issuer s)) (nextAt s 4)))
       ∧ (waits = true → ∃ t, exec (.fence u sc k) s = .next t ∧ (thr t s.cur).pc = (issuer s).pc ∧ SameMemory s t
         ∧ ∃ since, (thr t s.cur).park = some (.again .fence since)))

/-- R4: the home of plain memory gives back the bytes last written there, little-endian, and a write leaves every byte outside
it alone. R60: an access has one request for each aligned word that it touches: they cover its bytes once, in ascending order,
and no memory changes before they are performed. R60, R61, R68, R110, R230, R317, R318, R419: a request performed at a plain
home is one service: it gives the bytes that stood there, and leaves there what its operation says, changing no other byte. An
injected word has its check byte from then on. -/
def Obligations.ServiceAtHomes : Prop :=
  (∀ (s : State) (pkg pa n v : Nat), MemoryOk s → s.flaws = [] →
     (pkg ≠ s.pkg ∨ ∀ t o, placeOf pa ≠ .regs t o ∧ placeOf pa ≠ .mill t o) →
     readHome (writeHome s pkg pa n v) pkg pa n = some (v % 2 ^ (8 * n))
     ∧ MemoryOk (writeHome s pkg pa n v)
     ∧ ∀ a, (a < keyOf pkg pa ∨ keyOf pkg pa + n ≤ a) → byteAt (writeHome s pkg pa n v).mem a = byteAt s.mem a)
  ∧ ((∀ p : Piece, 0 < p.len →
       (∀ x ∈ wordsOf p, x.1 / 8 = (x.1 + x.2.1 - 1) / 8 ∧ 0 < x.2.1 ∧ x.2.2 = p.off + (x.1 - p.pa) ∧ p.pa ≤ x.1
         ∧ x.1 + x.2.1 ≤ p.pa + p.len)
       ∧ ∀ a, p.pa ≤ a → a < p.pa + p.len → ∃ x ∈ wordsOf p, x.1 ≤ a ∧ a < x.1 + x.2.1)
     ∧ ∀ (s : State) (q : Ask) (ps : List Piece), (asks s q ps).2.mem = s.mem)
  ∧ (∀ (s : State) (n : Nat) (r : Req) (a : Access) (pa done : Nat),
       MemoryOk s → s.flaws = [] → look s.accs r.acc = some a → r.remote = false →
       r.pkg = s.pkg → (∀ t o, placeOf pa ≠ .regs t o ∧ placeOf pa ≠ .mill t o) →
       let old := bytesAt s.mem (keyOf r.pkg pa) r.len
       let new : Nat := match r.op with
         | .read => old
         | .write v => v % 2 ^ (8 * r.len)
         | .amo op b => amoNew op r.len old b % 2 ^ (8 * r.len)
         | .cas e b => if old = e then b % 2 ^ (8 * r.len) else old
         | .free => if old / 2 ^ 56 % 256 = 0 then old else 0
         | .count up => (counted up old).getD old % 2 ^ (8 * r.len)
         | .inject v _ => v % 2 ^ (8 * r.len)
       let t := perform s n r r.pkg pa done
       bytesAt t.mem (keyOf r.pkg pa) r.len = new
       ∧ (∀ x, (x < keyOf r.pkg pa ∨ keyOf r.pkg pa + r.len ≤ x) → byteAt t.mem x = byteAt s.mem x)
       ∧ look t.reqs n = look (del s.reqs n) n
       ∧ ∃ b, look t.accs r.acc = some b ∧ b.left = a.left - 1 ∧ b.dests = a.dests ∧ b.done = max a.done done
         ∧ b.val = (match r.op with | .write _ | .inject _ _ => a.val | _ => a.val + old * 2 ^ (8 * r.off))
         ∧ ∀ (v : Nat) (c : Byte), r.op = .inject v c → look t.flaws (keyOf r.pkg pa) = some { chk := c })

/-- R50, R56, R77, R308: ACCESS_REPLY. When every request of an access has been performed, its reply writes the destinations of
the thread that waits for it, a signed one sign-extended from its own width, and the thread goes on after its instruction. An
access refused as stale is the stale-generation fault at its instruction, with the address of the lowest part that was refused,
and no register written: outside a handler TEPC, TCA and TVAL say so, and in a handler the double fault contains the thread
(R222, R223). The sum of a `dcb` is written seven cycles after its last entry has been read (R324, R341). -/
def Obligations.RepliesAndFences : Prop :=  ∀ (s : State) (n : Nat) (a : Access), s.power = true → look s.accs n = some a → a.left = 0 → a.replies = 0 →
    a.posted = false → a.agent = .thread → a.push = none → a.poisoned = false → (thr s a.tid).doomed = false → (thr s a.tid).life = .run → (thr s a.tid).park = some (.reply n) →
    (thr s a.tid).lt = false → (thr s a.tid).qb = 0 →
    (a.stale = true → ∃ u t, exec (.accessReply n) s = .next t ∧ t.mem = s.mem ∧ t = takeFault u a.tid .staleGeneration a.tval (thr s a.tid).pc
      ∧ (∀ r, getX (thr t a.tid) r = getX (thr s a.tid) r) ∧ (thr t a.tid).flags = (thr s a.tid).flags
      ∧ ((thr s a.tid).it = false → (thr s a.tid).prv ≠ .f → (thr t a.tid).tepc = (thr s a.tid).pc ∧ (thr t a.tid).tca = 0x08
        ∧ (thr t a.tid).tval = a.tval ∧ (thr t a.tid).it = true ∧ (thr t a.tid).prv = .s ∧ (thr t a.tid).park = none)
      ∧ ((thr s a.tid).it = true ∨ (thr s a.tid).prv = .f →
        (thr t a.tid).life = .contained ∧ (thr t a.tid).why = some .doubleFault ∧ (thr t a.tid).pc = (thr s a.tid).pc))
    ∧ (a.lookup = none → a.stale = false → ∃ t, exec (.accessReply n) s = .next t ∧ t.mem = s.mem
        ∧ look t.accs n = look (del s.accs n) n ∧ (thr t a.tid).pc = a.next ∧ (thr t a.tid).park = none
        ∧ (∀ d : Dest, a.dests = [d] → d.reg ≠ 0 → getX (thr t a.tid) d.reg.toNat =
            (if d.signed then BitVec.ofInt 64 (signedOf (a.val / 2 ^ (8 * d.off) % 2 ^ (8 * d.len)) (8 * d.len))
             else BitVec.ofNat 64 (a.val / 2 ^ (8 * d.off) % 2 ^ (8 * d.len))))
        ∧ ∀ r, (∀ d ∈ a.dests, d.reg.toNat ≠ r) → getX (thr t a.tid) r = getX (thr s a.tid) r)
    ∧ ∀ x : Lookup, a.lookup = some x → a.stale = false → cycOf s (cmptOf a.tid) ≤ a.done + 1 →
      ∃ t, exec (.accessReply n) s = .next t ∧ t.mem = s.mem ∧ (thr t a.tid).pc = a.next ∧ (thr t a.tid).park = none
        ∧ ∃ p ∈ (thr t a.tid).pend, p.reg = x.reg ∧ p.val = (x.sum a.val).1 ∧ p.flags = (x.sum a.val).2 ∧ p.land = a.done + 7

/-- R21, R319, R320: binding a stream puts its position at the least of b[31:0] and its count and clears ovr; `sq.off` unbinds
it and drops what was read ahead; `sq.wait` goes on where it has nothing to wait for; `sq.stat` reads the status word of R320;
`sq.cfg` asks for the descriptor at its address, and with its words unbinds the stream and captures it (log 45). R319: a
descriptor's fields; one with a reserved bit or value set is refused. -/
def Obligations.Streams : Prop :=
  (∀ (s : State) (q a d : Reg) (j : Nat), j < 4 → q.toNat = 20 + j → Ready s .u [a, d] →
     let x := stream (issuer s) j
     (∃ u : Thread, exec (.sqBind q a) s = .next (goes s s u (nextAt s 4))
       ∧ (∀ k < 4, u.qb.getLsbD k = (decide (k = j) || (issuer s).qb.getLsbD k))
       ∧ stream u j = { x with pos := min ((reg s a).toNat % 2 ^ 32) (x.e0 * x.e1 * x.e2), ovr := false, ahead := [] })
     ∧ (∃ u : Thread, exec (.sqOff q) s = .next (goes s s u (nextAt s 4))
       ∧ (∀ k < 4, u.qb.getLsbD k = (!decide (k = j) && (issuer s).qb.getLsbD k)) ∧ stream u j = { x with ahead := [] })
     ∧ ((issuer s).qb.getLsbD j = false ∨ x.pos = x.e0 * x.e1 * x.e2 ∨ (x.write = true ∧ unacked (base s) s.cur j = false)
         ∨ (x.write = false ∧ ∃ e r, x.ahead = e :: r ∧ ∀ m h so, e ≠ .wait m h so) →
       exec (.sqWait q) s = .next (goes s s (issuer s) (nextAt s 4)))
     ∧ (∃ v : Word, exec (.sqStat d q) s = .next (writes s 4 d v)
       ∧ (x.ahead.length ≤ 16 → x.pos < 2 ^ 32 →
         (v.extractLsb' 0 32).toNat = x.pos ∧ (v.extractLsb' 32 5).toNat = (x.ahead.filter Ahead.isRead).length
         ∧ v.getLsbD 44 = unacked (base s) s.cur j ∧ v.getLsbD 45 = x.ovr ∧ v.getLsbD 46 = x.write ∧ v.getLsbD 47 = (issuer s).qb.getLsbD j
         ∧ v.extractLsb' 48 16 = 0))
     ∧ ∀ (i : BitVec 12), (reg s a + i.signExtend 64).toNat % 32 = 0 →
       Asks s (.sqCfg q a i) .load (reg s a + i.signExtend 64) 32 .malformedStructure
       ∧ ∀ (w0 w1 w2 w3 : Word) (y : Stream),
         Had s (w0.toNat + 2 ^ 64 * (w1.toNat + 2 ^ 64 * (w2.toNat + 2 ^ 64 * w3.toNat))) →
         readDescriptor w0.toNat w1.toNat w2.toNat w3.toNat = some y →
         exec (.sqCfg q a i) s = .next (goes s s (setStream (unbind (issuer s) j) j { y with pos := x.pos, ovr := x.ovr }) (nextAt s 4)))
  ∧ (∀ w0 w1 w2 w3 : Word,
       let dir := w0.getLsbD 63
       let ext := w0.getLsbD 60
       let esz := (w0.extractLsb' 61 2).toNat
       ((w0.extractLsb' 52 8 ≠ 0 ∨ w1.extractLsb' 48 16 ≠ 0 ∨ (ext = true ∧ (dir = true ∨ esz = 3))) →
         readDescriptor w0.toNat w1.toNat w2.toNat w3.toNat = none)
       ∧ (w0.extractLsb' 52 8 = 0 → w1.extractLsb' 48 16 = 0 → ¬(ext = true ∧ (dir = true ∨ esz = 3)) →
         readDescriptor w0.toNat w1.toNat w2.toNat w3.toNat =
           some { write := dir, esz := esz, zeroExt := ext, base := (w0.extractLsb' 0 52).toNat
                  e0 := (w1.extractLsb' 0 16).toNat, e1 := (w1.extractLsb' 16 16).toNat, e2 := (w1.extractLsb' 32 16).toNat
                  s1 := (w2.extractLsb' 0 32).toInt, s2 := (w2.extractLsb' 32 32).toInt, fill := w3 }))


/-! ## Packed and floating-point instructions -/
/-- R323, R324, R328: the packed operations take lane j of both sources as the lane type and write lane j of x[D], eight cycles
after issue. R330: byte shuffles, packs, unpacks, broadcasts and selections. R329, R340, R341: the sums of products and
distances, which add to the old x[D]; a float sum is exact and is rounded once to f32. `dcb` reads the sixteen table entries
that its codes name, when they lie in its own local store, and adds them; the sum is written when they have been read
(AccessReplies). -/
def Obligations.PackedForms : Prop :=
  (∀ (s : State) (d a b : Reg) (t : BitVec 3), Ready s .u [a, b, d] → t.toNat < 6 →
     let w := 8 * 2 ^ (t.toNat / 2)
     let signed := t.getLsbD 0 = false
     let lo : Int := if signed then -2 ^ (w - 1) else 0
     let hi : Int := if signed then 2 ^ (w - 1) - 1 else 2 ^ w - 1
     let sat (v : Int) : Int := max lo (min hi v)
     let does (i : Instr) (op : Int → Int → Int) : Prop :=
       ∃ v : Word, exec i s = .next (lands s 4 0 d v 8 {} true)
         ∧ ∀ j < 64 / w, lane v w j = narrow (op (intOf t.toNat (lane (reg s a) w j)) (intOf t.toNat (lane (reg s b) w j))) w
     does (.padd d a b t) (fun x y => x + y) ∧ does (.psub d a b t) (fun x y => x - y)
     ∧ does (.padds d a b t) (fun x y => sat (x + y)) ∧ does (.psubs d a b t) (fun x y => sat (x - y))
     ∧ does (.pmul d a b t) (fun x y => x * y) ∧ does (.pmulh d a b t) (fun x y => x * y / 2 ^ w)
     ∧ does (.pmin d a b t) min ∧ does (.pmax d a b t) max ∧ does (.pavg d a b t) (fun x y => (x + y + 1) / 2)
     ∧ does (.pcmpEq d a b t) (fun x y => if x = y then -1 else 0)
     ∧ does (.pcmpLt d a b t) (fun x y => if x < y then -1 else 0)
     ∧ does (.pcmpLe d a b t) (fun x y => if x ≤ y then -1 else 0)
     ∧ (signed → does (.pabs d a t) (fun x _ => sat (if x < 0 then -x else x))))
  ∧ (∀ (s : State) (d a b c : Reg), Ready s .u [a, b, c, d] →
       let x := reg s a
       let y := reg s b
       let does (i : Instr) (p : Word → Prop) : Prop := ∃ v : Word, exec i s = .next (lands s 4 0 d v 8 {} true) ∧ p v
       does (.pshf d a b) (fun v => ∀ j < 8,
         lane v 8 j = if y.getLsbD (8 * j + 7) then 0 else lane x 8 (lane y 8 j % 8))
       ∧ exec (.psel d a b c) s = .next (lands s 4 0 d ((reg s c &&& x) ||| (~~~(reg s c) &&& y)) 8 {} true)
       ∧ ∀ (t : BitVec 3) (h : BitVec 1), t.toNat < 6 →
         let w := 8 * 2 ^ (t.toNat / 2)
         let half := 32 / w
         does (.ppk d a b t) (fun v => ∀ j < 2 * half,
           lane v w j = narrow (saturate t.toNat (signedOf (if j < half then lane x (2 * w) j else lane y (2 * w) (j - half)) (2 * w))) w)
         ∧ does (.pup d a h t) (fun v => ∀ j < half, lane v (2 * w) j = narrow (intOf t.toNat (lane x w (half * h.toNat + j))) (2 * w))
         ∧ does (.pbc d a b t) (fun v => ∀ j < 64 / w, lane v w j = lane x w (y.toNat % (64 / w))))
  ∧ (∀ (s : State) (d a b : Reg), Ready s .u [a, b, d] →
       let x := reg s a
       let y := reg s b
       let z := reg s d
       let sum (n : Nat) (g : Nat → Int) : Int := ((List.range n).map g).foldl (· + ·) 0
       let put (r : Nat × FFlags) : Outcome State Fault Refusal := .next (lands s 4 0 d (BitVec.ofNat 64 r.1) 8 r.2 true)
       let puti (v : Int) : Outcome State Fault Refusal := .next (lands s 4 0 d (BitVec.ofInt 64 v) 8 {} true)
       let rm := rmOf (issuer s).rm
       (∀ t : BitVec 1,
         exec (.dl2 d a b t) s
           = puti (z.toInt + sum 8 fun j => (intOf t.toNat (lane x 8 j) - intOf t.toNat (lane y 8 j)) ^ 2)
         ∧ exec (.dip d a b t) s = puti (z.toInt + sum 8 fun j => intOf t.toNat (lane x 8 j) * intOf t.toNat (lane y 8 j)))
       ∧ exec (.dipE4m3 d a b) s = put (dotFloat e4m3 e4m3 rm z x y)
       ∧ exec (.dham d a b) s = puti (z.toNat + ((List.range 64).filter (x ^^^ y).getLsbD).length)
       ∧ (pendingPfx (issuer s) = none → ∀ t : BitVec 3, t.toNat < 4 →
         let w := 8 * 2 ^ (t.toNat / 2)
         exec (.pdot d a b t) s
           = puti (z.toInt + sum (64 / w) fun j => intOf t.toNat (lane x w j) * intOf t.toNat (lane y w j)))
       ∧ ∀ (t : BitVec 1) (ps : List Piece), Single s → y.toNat % 512 = 0 → y.toNat + 512 ≤ 2 ^ 52 →
         let parts := (List.range 16).map fun m => ((y + BitVec.ofNat 64 (32 * m + 2 * lane x 4 m)).toNat, 2, 2 * m)
         ownParts (base s) s.cur .load .tier parts = .ok ps → orderHeld (base s) s.cur ps false = false →
         (∀ e ∈ parts, Below s (BitVec.ofNat 64 e.1) 2) →
         let k : Lookup := { int := t == 0, plus := z, rm := (issuer s).rm, reg := d, table := y, codes := x }
         let q : Ask := { kind := .load, va := y, size := 512, op := fun _ _ => .read, next := nextAt s 4, lookup := some k }
         let u := addAccess (base s) s.cur q ps false
         exec (.dcb d a b t) s = .next (awaits s u.2 u.1 (nextAt s 4))
         ∧ ∀ v : Nat,
           let es := (List.range 16).map fun m => v / 2 ^ (16 * m) % 2 ^ 16
           (t = 0 → (k.sum v).1 = BitVec.ofInt 64 (z.toInt + (es.map fun e => signedOf e 16).foldl (· + ·) 0))
           ∧ (t = 1 → (k.sum v).1
             = BitVec.ofNat 64 (roundTo f32 rm (sumE (fval f32 z.toNat :: es.map fun e => fval f16 e) false).1).1))

/-- R327, R332, R333, R334, R335: scalar floating point: the exact value of the operands in their types, rounded once to the
destination type in the field's mode or FPC's, with the flags of R261 and NV for an invalid operation. -/
def Obligations.FloatArithmetic : Prop :=  ∀ (s : State) (d a b c : Reg) (m t : BitVec 3),
    let p := pendingPfx (issuer s)
    let (ta, tb, td) := typesOf t.toNat p
    let x := fval ta (reg s a).toNat
    let y := fval tb (reg s b).toNat
    let z := fval td (reg s c).toNat
    let rm := (issuer s).rm
    let does (i : Instr) (n : Nat) (mode : Rm) (v : FVal × Bool) : Prop :=
      let r := roundTo td mode v.1
      exec i s = .next (lands s 4 0 d (BitVec.ofNat 64 r.1) n { r.2 with nv := r.2.nv || v.2 } true)
    let is (i : Instr) (v : Bool) : Prop := exec i s = .next (lands s 4 0 d (if v then 1 else 0) 12 {} true)
    (Ready s .u [a, b, d] fpAccepts →
      does (.fadd d a b m t) 12 (modeOf m rm) (faddE (modeOf m rm) x y)
      ∧ does (.fsub d a b m t) 12 (modeOf m rm) (faddE (modeOf m rm) x y.neg)
      ∧ does (.fmul d a b m t) 12 (modeOf m rm) (fmulE x y)
      ∧ does (.fmin d a b t) 12 (rmOf rm) (fminE x y, false) ∧ does (.fmax d a b t) 12 (rmOf rm) (fmaxE x y, false))
    ∧ (Ready s .u [a, d] fpAccepts1 →
      does (.fneg d a t) 12 (rmOf rm) (x.neg, false) ∧ does (.fabs d a t) 12 (rmOf rm) (x.abs, false))
    ∧ (Ready s .u [a, b, d] cmpAccepts →
      is (.fcmpEq d a b t) (feq x y) ∧ is (.fcmpLt d a b t) (flt x y) ∧ is (.fcmpLe d a b t) (flt x y || feq x y))
    ∧ (Ready s .u [a, b, c, d] fpAccepts → x ≠ .nan → y ≠ .nan → z ≠ .nan →
      let q := fmulE x y
      let sum (z : FVal) : FVal × Bool := ((faddE (rmOf rm) q.1 z).1, q.2 || (faddE (rmOf rm) q.1 z).2)
      does (.fma d a b c t) 12 (rmOf rm) (sum z) ∧ does (.fms d a b c t) 12 (rmOf rm) (sum z.neg))
    ∧ (Ready s .u [a, b, c, d] fpAccepts → (x = .nan ∨ y = .nan ∨ z = .nan) →
      does (.fma d a b c t) 12 (rmOf rm) (.nan, false) ∧ does (.fms d a b c t) 12 (rmOf rm) (.nan, false))
    ∧ ∀ (f : BitVec 4) (w : BitVec 3), Ready s .u [a, b, d] →
      let r := laneSum (fmtOfSum f.toNat) (rmOf rm) (reg s a) (reg s b)
      exec (.fsum d a b f w) s = .next (lands s 4 w.toNat d (BitVec.ofNat 64 r.1) 20 r.2 true)

/-- R331, R336, R337, R338, R339: float immediates, conversions, classes and order keys. R338: the classes, for a whole encoding
of each format. R339: unsigned key order is value order, the zeros share a key, NaN has the least key, and `.inv` reverses the
order. -/
def Obligations.FloatConversions : Prop :=
  (∀ (s : State) (d a b : Reg) (f m t : BitVec 3), Ready s .u [a, b, d] →
     let x := reg s a
     let rm := modeOf m (issuer s).rm
     let put (r : Nat × FFlags) (n : Nat) : Outcome State Fault Refusal :=
       .next (lands s 4 0 d (BitVec.ofNat 64 r.1) n r.2 true)
     exec (.fcvt d a f m t) s = put (roundTo (fmtOfCvt f.toNat) rm (fval (fmtOfCvt t.toNat) x.toNat)) 12
     ∧ exec (.icvt d a 0 f m t) s
         = put (let v := intOf t.toNat x.toNat; roundTo (fmtOfCvt f.toNat) rm (.fin (v < 0) v.natAbs 0)) 12
     ∧ (∀ neg k e, fval (fmtOfCvt f.toNat) x.toNat = .fin neg k e →
       let r := roundInt rm neg k e
       let c := saturate t.toNat r.1
       exec (.icvt d a 1 f m t) s = put (narrow c 64, { nv := c != r.1, nx := c == r.1 && !r.2 }) 12)
     ∧ (fval (fmtOfCvt f.toNat) x.toNat = .nan → exec (.icvt d a 1 f m t) s = put (0, { nv := true }) 12)
     ∧ exec (.fcls d a f) s = put (classOf (fmtOfCvt f.toNat) x.toNat, {}) 12
     ∧ (∀ (v : BitVec 1) (k : BitVec 4),
       exec (.okey d a b v k) s = put (orderKey k.toNat (v == 1) x * 2 ^ 32 + (reg s b).toNat % 2 ^ 32, {}) 8)
     ∧ ∀ (k : BitVec 16) (l : BitVec 1), exec (.fli d k l f) s = .next (writes s 4 d (BitVec.ofNat 64 (floatImm k l f))))
  ∧ (∀ f ∈ [f32, bf16, f16, e4m3, e5m2], ∀ v < 2 ^ f.width,
       let neg := v / 2 ^ (f.eb + f.fb) = 1
       let e := v / 2 ^ f.fb % 2 ^ f.eb
       let fr := v % 2 ^ f.fb
       let nan := e = 2 ^ f.eb - 1 ∧ (if f.noInf then fr = 2 ^ f.fb - 1 else fr ≠ 0)
       let inf := f.noInf = false ∧ e = 2 ^ f.eb - 1 ∧ fr = 0
       classOf f v =
         if nan then 2 ^ 8 else if inf then (if neg then 2 ^ 0 else 2 ^ 7)
         else if e = 0 ∧ fr = 0 then (if neg then 2 ^ 3 else 2 ^ 4)
         else if e = 0 then (if neg then 2 ^ 2 else 2 ^ 5) else if neg then 2 ^ 1 else 2 ^ 6)
  ∧ (∀ (t : Nat) (a b : Word), 8 ≤ t → t ≤ 12 →
       let x := fval (fmtOfPfx t) a.toNat
       let y := fval (fmtOfPfx t) b.toNat
       (x = .nan → ∀ inv, orderKey t inv a = 0)
       ∧ (x ≠ .nan → y ≠ .nan →
         (orderKey t false a < orderKey t false b ↔ flt x y = true) ∧ (orderKey t true a < orderKey t true b ↔ flt y x = true)
         ∧ (orderKey t false a = orderKey t false b ↔ feq x y = true) ∧ 0 < orderKey t false a))

/-- R261: a rounded finite value that does not overflow is the value itself where the format holds it, and NX says whether it
is; no value of the format lies between the two; the nearest modes give a nearest value and the directed modes keep their
direction. R259, R333: sums and products of finite values are exact, and comparisons are those of the values. -/
def Obligations.RoundingIsCorrect : Prop :=
  (∀ f ∈ [f32, bf16, f16, e4m3, e5m2], ∀ (mode : Rm) (neg : Bool) (m : Nat) (e : Int), m ≠ 0 →
     let v := FVal.fin neg m e
     let r := roundTo f mode v
     let y := (fval f r.1).toRat
     r.2.ofl = false →
       r.1 < 2 ^ f.width ∧ (r.2.nx = false ↔ y = v.toRat) ∧ (y = 0 → ∃ k, fval f r.1 = .fin neg 0 k)
       ∧ (∀ x n k j, fval f x = .fin n k j → let q := (fval f x).toRat
         ¬(v.toRat < q ∧ q < y) ∧ ¬(y < q ∧ q < v.toRat)
         ∧ (mode = .nearest ∨ mode = .away → |y - v.toRat| ≤ |q - v.toRat|))
       ∧ (mode = .up → v.toRat ≤ y) ∧ (mode = .down → y ≤ v.toRat) ∧ (mode = .zero → |y| ≤ |v.toRat|))
  ∧ (∀ (mode : Rm) (a b : Bool) (m n : Nat) (e k : Int),
       let x := FVal.fin a m e
       let y := FVal.fin b n k
       (faddE mode x y).1.toRat = x.toRat + y.toRat ∧ (faddE mode x y).2 = false
       ∧ (fmulE x y).1.toRat = x.toRat * y.toRat ∧ (fmulE x y).2 = false
       ∧ (flt x y = true ↔ x.toRat < y.toRat) ∧ (feq x y = true ↔ x.toRat = y.toRat))

/-- R262: the overflow step. -/
def Obligations.Overflow : Prop :=  ∀ f ∈ [f32, bf16, f16, e4m3, e5m2], ∀ (mode : Rm) (neg : Bool) (m : Nat) (e : Int), m ≠ 0 →
    let r := roundTo f mode (.fin neg m e)
    r.2.ofl = true →
      r.2.nx = true
      ∧ (f.noInf = false → (mode = .nearest ∨ mode = .away ∨ (mode = .down ∧ neg = true) ∨ (mode = .up ∧ neg = false)) →
        fval f r.1 = .inf neg)
      ∧ (f.noInf = true ∨ mode = .zero ∨ mode = .odd ∨ (mode = .down ∧ neg = false) ∨ (mode = .up ∧ neg = true) →
        r.1 = (if neg then 2 ^ (f.eb + f.fb) else 0) + f.maxBits)


/-! ## Special functions, the mill and residues -/
/-- R324, R342, R344: a request joins the tile's ring behind the q that it still serves and its result lands 40 + 8 q cycles
after issue: the rounded value of the function, with its flags. `.np` goes on; `.pk` issues next in its first turn after that.
R343: the fixed cases of the special functions. How long a request counts in the ring is the model's reading (log 14). -/
def Obligations.SpecialFunctions : Prop :=
  (∀ (s : State) (d a : Reg) (w : BitVec 3) (np : BitVec 1) (t : BitVec 2), Ready s .u [a, d] sfuAccepts → d ≠ 0 →
     let ring := ringAt (tile s (tileOf s.cur)) (cyc s)
     ring.length < 64 → ((issuer s).pend.filter fun p => p.sfu).length < 4 →
     let n := cyc s + 40 + 8 * ring.length
     let does (i : Instr) (fn : Nat) : Prop :=
       let (ta, _, td) := typesOf t.toNat (pendingPfx (issuer s))
       let r := sfuRound fn ta td (rmOf (issuer s).rm) (reg s a).toNat
       ∃ u, exec i s = .next u ∧ SameMemory s u ∧ Past s u
         ∧ (∃ p ∈ (thr u s.cur).pend, p.reg = d ∧ p.val = BitVec.ofNat 64 r.1 ∧ p.land = n ∧ p.flags = r.2)
         ∧ (tile u (tileOf s.cur)).sfuRing.length = ring.length + 1 ∧ (np = 0 → n < (thr u s.cur).turn)
     does (.sfuRcp d a w np t) 0 ∧ does (.sfuRsqrt d a w np t) 1 ∧ does (.sfuSqrt d a w np t) 2 ∧ does (.sfuExp2 d a w np t) 3
     ∧ does (.sfuLog2 d a w np t) 4 ∧ does (.sfuExp d a w np t) 5 ∧ does (.sfuLn d a w np t) 6
     ∧ does (.sfuSinpi d a w np t) 7 ∧ does (.sfuCospi d a w np t) 8 ∧ does (.sfuTanh d a w np t) 9
     ∧ does (.sfuSigm d a w np t) 10)
  ∧ (∀ (neg : Bool) (m : Nat) (e : Int), m ≠ 0 →
       let zero (n : Bool) : FVal := .fin n 0 0
       let f := sfuValue
       (∀ k ≤ 10, f k .nan = (.nan, {}))
       ∧ f 0 (.fin neg 0 e) = (.inf neg, { dz := true }) ∧ f 0 (.inf neg) = (zero neg, {})
       ∧ f 1 (.fin neg 0 e) = (.inf neg, { dz := true }) ∧ f 1 (.inf false) = (zero false, {})
       ∧ f 1 (.fin true m e) = (.nan, { nv := true }) ∧ f 2 (.fin true 0 e) = (zero true, {})
       ∧ f 2 (.fin true m e) = (.nan, { nv := true }) ∧ f 2 (.inf false) = (.inf false, {})
       ∧ (∀ k, k = 4 ∨ k = 6 →
         f k (.fin neg 0 e) = (.inf true, { dz := true }) ∧ f k (.fin true m e) = (.nan, { nv := true })
         ∧ (f k (.fin false 1 0)).1.isZero = true ∧ f k (.inf false) = (.inf false, {}))
       ∧ (∀ k, k = 3 ∨ k = 5 → f k (.inf true) = (zero false, {}) ∧ f k (.inf false) = (.inf false, {}))
       ∧ (∀ k, k = 7 ∨ k = 8 → f k (.inf neg) = (.nan, { nv := true }))
       ∧ f 7 (.fin neg 0 e) = (zero neg, {}) ∧ (0 ≤ e → f 7 (.fin neg m e) = (zero neg, {}))
       ∧ f 9 (.inf neg) = (.fin neg 1 0, {}) ∧ f 9 (.fin neg 0 e) = (zero neg, {})
       ∧ f 10 (.inf true) = (zero false, {}) ∧ f 10 (.inf false) = (.fin false 1 0, {}) ∧ f 10 (.fin neg 0 e) = (.fin false 1 (-1), {}))

/-- R345, R346, R347: a mill instruction that passes its checks captures its registers, FPC.RM and any prefix, takes the next
number of the thread's sequence and goes to the footprint scheduler; the thread goes on. R345, R346: the entry that a mill
instruction makes: the next number, one more arrival at the scheduler, nothing else of the thread, no byte of memory. -/
def Obligations.MillIssue : Prop :=
  (∀ (s : State) (a b c : Reg) (w : BitVec 3), Single s →
     let t := issuer s
     let op (kind : MillKind) (opt : Nat) (a0 a1 b0 b1 : Word) : MillOp :=
       { kind := kind, tid := s.cur, ctx := t.ctx, launch := t.launch, seq := 0, acc := c.toNat, opt := opt, a0 := a0, a1 := a1
         b0 := b0, b1 := b1, rm := t.rm, pfx := pendingPfx t, prv := t.prv }
     let does (i : Instr) (o : MillOp) : Prop := millChecks (base s) s.cur o = none →
       let u := enterMill (base s) s.cur o none [] false
       exec i s = .next (goes s u (thr u s.cur) (nextAt s 4) w.toNat)
     let x := reg s a
     let y := reg s b
     (∀ k : BitVec 4, Ready s .u [a, a + 1, b, b + 1] mmaAccepts →
       does (.mma a b c k w) (op .mma k.toNat x (reg s (a + 1)) y (reg s (b + 1)))
       ∧ does (.mmas a b c k w) (op .mmas k.toNat x (reg s (a + 1)) y (reg s (b + 1))))
     ∧ (∀ (k : BitVec 4) (p : BitVec 2), Ready s .u [a, a + 1, b, b + 1] →
       does (.mmr a b c k w) (op .mmr k.toNat x (reg s (a + 1)) y (reg s (b + 1)))
       ∧ does (.mmcb a b c p w) (op .mmcb p.toNat x (reg s (a + 1)) y (reg s (b + 1))))
     ∧ (∀ (f : BitVec 1) (k : BitVec 4), Ready s .u [a, b] →
       does (.mld a b c f w) (op .mld f.toNat x 0 y 0) ∧ does (.mst a b c f w) (op .mst f.toNat x 0 y 0)
       ∧ does (.mfin a b c k w) (op .mfin k.toNat x 0 y 0))
     ∧ ∀ n : BitVec 4, Ready s .u [a] →
       does (.mzero c n w) (op .mzero n.toNat 0 0 0 0) ∧ does (.manc a c n w) (op .manc n.toNat x 0 0 0)
       ∧ does (.mscl a c n w) (op .mscl n.toNat x 0 0 0) ∧ does (.mcbt a w c) (op .mcbt 0 x 0 0 0))
  ∧ (∀ (s : State) (tid : Nat) (o : MillOp),
       let u := enterMill s tid o none [] false
       thr u tid = { thr s tid with millSeq := (thr s tid).millSeq + 1 } ∧ u.mem = s.mem
       ∧ (∀ n, n ≠ tid → thr u n = thr s n)
       ∧ ∃ e : Entry, (cmpt u (cmptOf tid)).arrivals = (cmpt s (cmptOf tid)).arrivals ++ [e] ∧ e.tid = tid
         ∧ (e.reads, e.writes) = millRegions o
         ∧ ∃ m, e.mill = some m ∧ m.seq = (thr s tid).millSeq + 1 ∧ m.a0 = o.a0 ∧ m.a1 = o.a1 ∧ m.b0 = o.b0 ∧ m.b1 = o.b1
           ∧ m.rm = o.rm ∧ m.pfx = o.pfx ∧ m.kind = o.kind ∧ m.acc = o.acc ∧ m.opt = o.opt)

/-- R346, R363, R365: `mseq` reads the sequence number; a wait for a number that the mill has reached completes and is an
acquire; `mprog.rd` reads the mill record; `mprog.go` gives the held instruction and its followers to the mill again, and
`mprog.cancel` retires them with the flags of the completed rows, which reach FPC at the end of the cycle; each does nothing
when nothing is held. -/
def Obligations.MillProgress : Prop :=  ∀ (s : State) (d a : Reg) (w : BitVec 3), Ready s .u [a, d] →
    let t := issuer s
    let n := t.millSeq
    let q : BitVec 32 := (reg s a).setWidth 32
    let target := if 2 ^ 31 ≤ (n - q).toNat then n else q
    let go (i : Instr) (x : Thread) : Prop := exec i s = .next (goes s s x (nextAt s 4) w.toNat)
    go (.mseq d w) (setX (overtake t d (cyc s)) d.toNat (n.setWidth 64))
    ∧ (millWaits (base s) s.cur target = false → go (.mwait a w) (discardAhead t))
    ∧ (millWaits (base s) s.cur n = false → go (.mwaitAll w) (discardAhead t))
    ∧ (∃ v : Word, go (.mprogRd d w) (setX (overtake t d (cyc s)) d.toNat v) ∧ (t.held = none → v = 0)
      ∧ ∀ h, t.held = some h → h.op.p ≤ 64 →
        v.extractLsb' 32 32 = h.op.seq ∧ v.getLsbD 31 = true ∧ (v.extractLsb' 16 8).toNat
          = min ((unretired s s.cur).filter fun q => q != h.op.seq && (q - h.op.seq).toNat < 2 ^ 31).length 255
        ∧ (v.extractLsb' 0 7).toNat = h.op.p)
    ∧ (t.held = none → go (.mprogGo w) t ∧ go (.mprogCancel w) t)
    ∧ ∀ h, t.held = some h →
      (∃ u, exec (.mprogGo w) s = .next u ∧ (thr u s.cur).held = none ∧ SameMemory s u
        ∧ ((tile u (tileOf s.cur)).dispatched.map fun o => (o.seq, o.p))
          = ((tile s (tileOf s.cur)).dispatched ++ h.op :: h.followers).map fun o => (o.seq, o.p))
      ∧ ∃ u, exec (.mprogCancel w) s = .next u ∧ (thr u s.cur).held = none ∧ SameMemory s u
        ∧ (h.op.tid = s.cur → h.op.serial = t.serial → h.op.flags ≠ {} → ∃ f ∈ (thr u s.cur).pend, f.reg = 0 ∧ f.flags = h.op.flags)

/-- R265, R266: a finite product adds its value in units of 2^anch, floored, unless it is out of range: then the element enters
an infinity of its sign, with OF; NaN and infinite products set the special records. R266, R267: the products that enter an
element may come in any order: the element and the flags are the same. R348, R349, R351: row i of a multiply adds, for each
column j below cv, the products of row i of A and row j of B to element (i, j) of the block, and touches no other element. -/
def Obligations.ProductsEnter : Prop :=
  (∀ (anch : Int) (e : Elem) (neg nv : Bool) (m : Nat) (x : Int),
     let v := (FVal.fin neg m x).toRat
     (∀ n : Int, (n : Rat) ≤ v / (FVal.fin false 1 anch).toRat → v / (FVal.fin false 1 anch).toRat < n + 1 →
       let r := accAdd anch e (.fin neg m x, nv)
       (n.natAbs < 2 ^ 126 → r.1 = { e with a := e.a + BitVec.ofInt 128 n })
       ∧ (2 ^ 126 ≤ n.natAbs → r.1 = (enterInf e neg).1 ∧ r.2.ofl = true)
       ∧ (r.2.nxa = true ↔ (n : Rat) ≠ v / (FVal.fin false 1 anch).toRat))
     ∧ accAdd anch e (.nan, nv) = ({ e with qn := true }, { nv := nv })
     ∧ accAdd anch e (.inf false, nv) = ({ e with pi := true }, { nv := e.ni })
     ∧ accAdd anch e (.inf true, nv) = ({ e with ni := true }, { nv := e.pi }))
  ∧ (∀ (anch : Int) (e : Elem) (ps qs : List (FVal × Bool)), ps.Perm qs → accAddAll anch e ps = accAddAll anch e qs)
  ∧ (∀ (x : Tile) (o : MillOp) (i : Nat) (row : List Byte),
       let d := mulDesc o.a1 o.b1
       let u := (enterRow x o i row).1
       let at_ (j : Nat) : Nat := (o.acc + i / 16 * (d.n / 16) + j / 16) * 256 + i % 16 * 16 + j % 16
       (∀ j < d.cv, lookD u.acc (at_ j) {}
         = (rowElem x o row (o.rowsB.getD j []) (anchorOf x (blockAcc o.acc d.n i j)) (lookD x.acc (at_ j) {})).1)
       ∧ (∀ k, (∀ j < d.cv, k ≠ at_ j) → lookD u.acc k {} = lookD x.acc k {})
       ∧ u.anchors = x.anchors ∧ u.staging = x.staging ∧ u.books = x.books)

/-- R64, R111, R345, R349, R359, R364, R447: the mill's own steps, each with the conditions on the state alone under which it
happens. MILL_ACCEPT takes an instruction that has been dispatched. MILL_ROW_READ asks for the next row, as one access of the
mill's pipes, and, when that is over, gives the row its effect: a row of a multiply enters the accumulators and counts in the
progress. MILL_RETIRE retires a finished instruction, whose flags reach FPC at the end of the cycle (R255). A row of `mst` has
the elements of the block, `mld` replaces them, `manc` and `mscl` set the anchors and `mscl` keeps each value, floored to its
new units (R358, R359). MILL_PIPE_FAULT holds one that met a fault, with its progress, and tells its thread. -/
def Obligations.MillSteps : Prop :=  ∀ (s : State) (tl : Nat), s.power = true →
    let x := tile s tl
    let k := cmptOfTile tl
    (∀ o, x.millQ.length < 64 → nextAccepted x = some o → windowWaits s tl o = false →
      exec (.millAccept tl) s = .next (setTile s tl
        { x with dispatched := x.dispatched.filter (fun q => !o.same q)
                 millQ := x.millQ ++ [{ o with began := max o.sent (cycOf s k) }] }))
    ∧ ∀ o q, x.millQ = o :: q → x.pipeFault = none →
      (∀ va n store ps u, x.row = none → nextRow x o = some (va, n, store) → engineHeld s o.tid o.before = false → 0 < n →
        (o.kind = .mmr → residueOk s tl o.ctx = true) →
        (store = none → aboveMark s (coreOf o.tid) o.ctx va.toNat n = false) →
        piecesNow s ⟨coreOf o.tid, tl, o.ctx, o.prv⟩ (if store.isSome then .store else .load) va n = (.ok ps, u) →
        (∀ p ∈ ps, (o.kind.multiplies = true → isWindow (placeOf p.pa) = false) ∧ admitted u p.pkg p.pa p.gen ≠ .stale) →
        ∃ t a, exec (.millRowRead tl) s = .next t ∧ (tile t tl).row = some (a, (store.map (·.2)).getD {}) ∧ SameMemory s t
          ∧ ∃ y, look t.accs a = some y ∧ y.tid = o.tid ∧ y.posted = true ∧ y.lo = va.toNat ∧ y.size = n)
      ∧ (∀ va n v fl, o.kind = .mst → isSt o = false → nextRow x o = some (va, n, some (v, fl)) →
        ∀ j < (blockDesc o.b0).cv, v / 2 ^ (128 * j) % 2 ^ 128
          = (lookD x.acc (elemKey (blockAcc o.acc (blockDesc o.b0).n o.p j) o.p j) {}).a.toNat)
      ∧ (∀ n fl a, x.row = some (n, fl) → look s.accs n = some a → a.left = 0 → a.replies = 0 → a.poisoned = false → a.stale = false →
        let y := { x with row := none }
        let u := setTile (tick { s with accs := del s.accs n } k a.done) tl y
        exec (.millRowRead tl) s = .next (servedReads tl (rowEffect u tl o a.val fl))
        ∧ (o.kind.multiplies = true → rowsB o ≤ o.rowsB.length →
          let r := enterRow y o o.p (toBytes (rowLen o false) a.val)
          tile (rowEffect u tl o a.val fl) tl = { r.1 with millQ := { r.2 with p := o.p + 1 } :: r.1.millQ.drop 1 })
        ∧ (o.kind = .mld → isSt o = false → ∀ j < (blockDesc o.b0).cv,
          lookD (tile (rowEffect u tl o a.val fl) tl).acc (elemKey (blockAcc o.acc (blockDesc o.b0).n o.p j) o.p j) {}
            = { a := BitVec.ofNat 128 (a.val / 2 ^ (128 * j)) }))
      ∧ (x.row = none → rowsB o ≤ o.rowsB.length → rowsOf o ≤ o.p →
        (o.kind = .mmr → (o.p = 0 ∧ rowsB o = 0) → residueOk s tl o.ctx = true) →
        ∃ t, exec (.millRetire tl) s = .next t ∧ (tile t tl).millQ.map (·.seq) = q.map (·.seq) ∧ SameMemory s t
          ∧ (∀ e ∈ (cmpt t (cmptOf o.tid)).entries, isMill o e = false)
          ∧ (o.kind = .mzero → ∀ k ∈ accsNamed o, ∀ i < 256, lookD (tile t tl).acc (k * 256 + i) {} = {})
          ∧ (o.kind = .manc ∨ o.kind = .mscl → ∀ k ∈ accsNamed o, anchorOf (tile t tl) k = signedOf o.a0.toNat 16)
          ∧ (o.kind = .mscl → ∀ k ∈ accsNamed o, ∀ i < 256, ∀ n : Int,
            let e := lookD x.acc (k * 256 + i) {}
            let v := (FVal.fin (e.a.toInt < 0) e.a.toInt.natAbs (anchorOf x k)).toRat / (FVal.fin false 1 (signedOf o.a0.toNat 16)).toRat
            (n : Rat) ≤ v → v < n + 1 → n.natAbs < 2 ^ 126 →
            lookD (tile t tl).acc (k * 256 + i) {} = { e with a := BitVec.ofInt 128 n })
          ∧ ((thr s o.tid).life = .run → (thr s o.tid).serial = o.serial → rowsOf o ≠ 0 → o.flags ≠ {} →
            ∃ f ∈ (thr t o.tid).pend, f.reg = 0 ∧ f.flags = o.flags ∧ f.land = cycOf t (cmptOf o.tid)))
    ∧ ∀ o q c va, x.millQ = o :: q → x.pipeFault = some (c, va) → (thr s o.tid).serial = o.serial → (thr s o.tid).life = .run →
      c.contains = false →
        ∃ t, exec (.millPipeFault tl) s = .next t ∧ (tile t tl).pipeFault = none ∧ SameMemory s t
          ∧ (thr t o.tid).async = (thr s o.tid).async ++ [⟨c, va⟩]
          ∧ ∃ h, (thr t o.tid).held = some h ∧ h.op = o

/-- R270, R368, R369, R370: the residue forms write a residue word and its bound eight cycles after issue: each byte is taken
modulo its channel's modulus, and a failed channel's byte is 0. R371: `rnsr` writes the decoded value and the status word,
`rnschk` the status word alone; an uncorrectable word is contained by `rnsr` with memory-error. R220, R271, R372: `rnsmap` at F
writes the map of a tile whose mill holds no `mmr` and returns the old one; below F it is the privilege cause. -/
def Obligations.ResidueForms : Prop :=
  (∀ (s : State) (d a b : Reg) (w : BitVec 3), Ready s .u [a, a + 1, b, b + 1, d, d + 1] →
     let x := tile s (tileOf s.cur)
     residueOk (base s) (tileOf s.cur) (issuer s).ctx = true →
     let m (c : Nat) : Int := [253, 251, 247, 241, 239, 233, 256, 255].getD c 256
     let byte (v : Word) (c : Nat) : Int := (v.extractLsb' (8 * c) 8).toNat
     let does (i : Instr) (val : Nat → Int) (bound : Nat) : Prop :=
       ∃ (t : State) (v : Word), exec i s = .next t ∧ SameMemory s t ∧ Past s t [d]
         ∧ Lands s t d v 8 ∧ Lands s t (d + 1) (BitVec.ofNat 64 (min bound (2 ^ 64 - 1))) 8
         ∧ ∀ c < 8, byte v c = if failed x c then 0 else val c % m c
     let p := reg s a
     let q := reg s b
     let pb := (reg s (a + 1)).toNat
     let qb := (reg s (b + 1)).toNat
     does (.rnsf d a w) (fun _ => p.toInt) p.toInt.natAbs
     ∧ does (.rnsadd d a b w) (fun c => byte p c + byte q c) (pb + qb)
     ∧ does (.rnsaddSub d a b w) (fun c => byte p c - byte q c) (pb + qb)
     ∧ does (.rnsmul d a b w) (fun c => byte p c * byte q c) (pb * qb))
  ∧ (∀ (s : State) (d a : Reg) (w : BitVec 3), Ready s .u [a, a + 1, d, d + 1] →
       let x := tile s (tileOf s.cur)
       residueOk (base s) (tileOf s.cur) (issuer s).ctx = true →
       let r := rnsDecode x (reg s a) (reg s (a + 1)).toNat
       let status : Word := BitVec.ofNat 64 (x.rnsMode.toNat * 2 ^ 11
         + match r with | .ok _ => 0 | .corr _ c => c * 256 + 1 | .range => 2 | .unprot _ => 3 | .uncorr => 4)
       let value : Int := match r with | .ok v => v | .corr v _ => v | .unprot v => v | _ => 0
       (r ≠ .uncorr → ∃ t, exec (.rnsr d a w) s = .next t ∧ SameMemory s t ∧ Past s t [d]
         ∧ Lands s t d (BitVec.ofInt 64 value) 20 ∧ Lands s t (d + 1) status 20)
       ∧ (r = .uncorr → ∃ t, exec (.rnsr d a w) s = .next t ∧ (thr t s.cur).life = .contained
         ∧ (thr t s.cur).why = some .memoryError)
       ∧ ∃ t, exec (.rnschk d a w) s = .next t ∧ SameMemory s t ∧ Past s t [d] ∧ Lands s t d status 20)
  ∧ (∀ (s : State) (d a b : Reg) (w : BitVec 3),
       let m := (reg s a).toNat
       let tl := (reg s b).toNat
       let x := tile s tl
       (Ready s .f [a, b, d] → mapOk m = true → tl < 2048 → (x.millQ.any fun o => o.kind == .mmr) = false →
         ∃ t, exec (.rnsmap d a b w) s = .next t ∧ SameMemory s t ∧ Past s t [d]
           ∧ ((tile t tl).rnsMode, (tile t tl).rnsFb, (tile t tl).rnsFa)
             = (BitVec.ofNat 2 (m / 64), BitVec.ofNat 3 (m / 8), BitVec.ofNat 3 m)
           ∧ (d ≠ 0 → getX (thr t s.cur) d.toNat = BitVec.ofNat 64 (x.rnsMode.toNat * 64 + x.rnsFb.toNat * 8 + x.rnsFa.toNat)))
       ∧ (s.power = true → (issuer s).prv ≠ .f →
         exec (.rnsmap d a b w) s = .next (contain (atFault s) s.cur .privilege 0 (issuer s).pc)))

/-- R269, R272: under the normal map a word decodes to the value it encodes, for every value in range within its bound, and one
wrong byte, whichever it is and whatever it holds, is located and corrected. -/
def Obligations.ResidueCode : Prop :=  ∀ (x : Tile) (w : Word) (v : Int) (b : Nat), x.rnsMode = 0 → v.natAbs ≤ b → v.natAbs ≤ 105252413875823 →
    let m (c : Nat) : Int := [253, 251, 247, 241, 239, 233, 256, 255].getD c 256
    let right (c : Nat) : Prop := ((w.extractLsb' (8 * c) 8).toNat : Int) = v % m c
    ((∀ c < 8, right c) → rnsDecode x w b = .ok v)
    ∧ ∀ j < 8, ¬right j → (∀ c < 8, c ≠ j → right c) → rnsDecode x w b = .corr v j


/-! ## Messages, threads, crews, semaphores and channels -/
/-- R375, R376, R377: a send that passes its checks, with room in the core's send queue, takes the next sequence number of the
thread, enters one message with its payload (a multicast one copy for each receiver under the one number) and writes the number
to x[D]; a multicast with no receiver enters nothing and sets bit 32. R220, R378: a system-class start below F is the privilege
cause, and nothing is sent. -/
def Obligations.Sends : Prop :=
  (∀ (s : State) (d a b c : Reg), Single s →
     let m := msgDesc (reg s a)
     let c0 := coreOf s.cur
     let n := (issuer s).sendSeq + 1
     let data (p : Reg) := payload (reg s a) ((payRegs p (reg s a)).map (reg s))
     let sent (t : State) (x : Word) : Prop := SameMemory s t ∧ Past s t [d] ∧ (thr t s.cur).sendSeq = n
       ∧ (d ≠ 0 → getX (thr t s.cur) d.toNat = x)
     (Ready s .u (a :: d :: payRegs b (reg s a)) → msgOk b (reg s a) false = true → (m.tgt = 2 → (issuer s).prv = .f) →
       ∀ r, receiver (base s) s.cur m = some r → (core s c0).sendQ.length < 16 →
       ∃ t, exec (.send d a b) s = .next t ∧ sent t (n.setWidth 64)
         ∧ ∃ (e : SendEntry) (g : Msg), (core t c0).sendQ = (core s c0).sendQ ++ [e] ∧ e.tid = some s.cur ∧ e.bodies = [(.msg g, r)] ∧ g.seq = n
           ∧ g.data = data b ∧ g.len = m.len ∧ g.prio = m.prio ∧ g.tgt = m.tgt ∧ e.cls = (if m.tgt = 2 then .system else .dispatch))
     ∧ (Ready s .u (a :: b :: d :: payRegs c (reg s a)) → msgOk c (reg s a) true = true → (reg s b).toNat < 2 ^ 32 →
       ∀ rs, receivers (base s) s.cur (reg s b).toNat m.dest m.nos = some rs →
       (rs ≠ [] → (core s c0).sendQ.length < 16 →
         ∃ t, exec (.sendm d a b c) s = .next t ∧ sent t (n.setWidth 64)
           ∧ ∃ e : SendEntry, (core t c0).sendQ = (core s c0).sendQ ++ [e] ∧ e.bodies.map (·.2) = rs
             ∧ ∀ x ∈ e.bodies, ∃ g : Msg, x.1 = .msg g ∧ g.seq = n ∧ g.data = data c ∧ g.mcast = true)
       ∧ (rs = [] → ∃ t, exec (.sendm d a b c) s = .next t ∧ sent t (1#32 ++ n) ∧ (core t c0).sendQ = (core s c0).sendQ)))
  ∧ (∀ (s : State) (d a b : Reg), Single s → Ready s .u (a :: d :: payRegs b (reg s a)) → (msgDesc (reg s a)).tgt = 2 →
       (issuer s).prv ≠ .f → exec (.send d a b) s = .next (contain (atFault s) s.cur .privilege 0 (issuer s).pc))

/-- R379, R380, R382: a landing entry that is taken leaves the landing and gives its two descriptor words to x[D] and x[D + 1],
none where D is 0; a peek leaves it there; with `.nw` and nothing eligible both registers are 0. Where A names an area, the
instruction first stores the entry's bytes there, filled up with zeros to 64, and takes the entry when they are written (log 45:
DEDUCED). -/
def Obligations.LandingTakes : Prop :=  ∀ (s : State) (d a b : Reg) (pm : BitVec 4) (nw : BitVec 1) (e : LandEntry), Ready s .u ([a, b] ++ pairRegs d) → Single s →
    let c := coreOf s.cur
    let past (t : State) (v w : Word) : Prop := SameMemory s t ∧ Past s t (pairRegs d)
      ∧ (d ≠ 0 → getX (thr t s.cur) d.toNat = v) ∧ (d ≠ 0 → d ≠ 31 → getX (thr t s.cur) (d + 1).toNat = w)
    let gives (i : Instr) (taken : Bool) : Prop := ∃ t, exec i s = .next t ∧ past t (landWords e).1 (landWords e).2
      ∧ (taken = true → (core s c).heldRecs = [] → (core t c).landing = (core s c).landing.erase e)
      ∧ (taken = false → core t c = core s c)
    let first (since : Option Nat) : Option LandEntry :=
      (firstEntry (eligibleEntry (base s) s.cur pm.toNat) (leftFor (base s) s.cur since false)).map (·.2)
    let since := parkedSince (issuer s)
    let keyed : Option LandEntry := (keyEntry (base s) s.cur (reg s b) (leftFor (base s) s.cur since true)).map (·.2)
    let stores (i : Instr) (taken : Bool) : Prop :=
      Asks s i .store (reg s a) 64 .tier
      ∧ ∀ ps t, (issuer s).own = none → ownStore (base s) s.cur (reg s a) 64 .store .tier = .ok ps (base s) → exec i s = .next t →
        (∃ o, (thr t s.cur).own = some o ∧ o.entry = some e ∧ o.takes = taken)
        ∧ ∀ r ∈ t.reqs, r ∉ s.reqs → r.2.op
          = .write (ofBytes ((e.data ++ List.replicate 64 0).take 64) / 2 ^ (8 * r.2.off) % 2 ^ (8 * r.2.len))
    (a = 0 → (issuer s).own = none →
      (first since = some e → gives (.lndGet d a nw pm) true) ∧ (first none = some e → gives (.lndPeek d a nw pm) false)
      ∧ (keyOk (reg s b).toNat = true → keyed = some e → gives (.waitSeq d a b) true)
      ∧ ((core s c).takeAt ≤ cyc s →
        (first since = none → ∃ t, exec (.lndGet d a 1 pm) s = .next t ∧ past t 0 0)
        ∧ (first none = none → ∃ t, exec (.lndPeek d a 1 pm) s = .next t ∧ past t 0 0)))
    ∧ (a ≠ 0 → (reg s a).toNat % 8 = 0 →
      ((first since = some e → stores (.lndGet d a nw pm) true) ∧ (first none = some e → stores (.lndPeek d a nw pm) false)
        ∧ (keyOk (reg s b).toNat = true → keyed = some e → stores (.waitSeq d a b) true))
      ∧ ∀ o v, (issuer s).own = some o → o.got = some v → o.entry = some e →
        gives (.lndGet d a nw pm) true ∧ gives (.lndPeek d a nw pm) false
        ∧ (keyOk (reg s b).toNat = true → gives (.waitSeq d a b) true))

/-- R381: the counts of the landing. -/
def Obligations.LandingCounts : Prop :=  ∀ (s : State) (d : Reg), Ready s .u [d] → Single s →
    let k := core s (coreOf s.cur)
    let mine (e : LandEntry) : Bool := e.ctx == (issuer s).ctx
    let n (p : Nat) := (k.landing.filter fun e => e.prio == p && mine e).length
    (∀ p < 4, n p ≤ 16) →
    ∃ v : Word, exec (.lndCnt d) s = .next (writes s 4 d v) ∧ v.extractLsb' 40 24 = 0
      ∧ (v.extractLsb' 32 8).toNat = min (k.heldRecs.filter mine).length 255
      ∧ ∀ p < 4, (v.extractLsb' (8 * p) 8).toNat = n p

/-- R148, R383, R384, R385, R386: moving, spawning, yielding and ending. The task record comes from the core's own store, in an
access that the instruction makes first (log 45: DEDUCED). -/
def Obligations.ThreadControl : Prop :=  ∀ (s : State) (d a : Reg), Ready s .u [a, d] → Single s →
    let t := issuer s
    let c := coreOf s.cur
    let l := (reg s a).toNat
    let rest (u : State) : Prop := SameMemory s u ∧ (thr u s.cur).life = .free ∧ ∀ n, isMember (ctx u t.ctx) n s.cur = true →
      some n ∉ t.crew
    let still := t.held = none ∧ t.pend = [] ∧ unretired s s.cur = [] ∧ accsOf s s.cur = []
    (∀ r, l < 2 ^ 14 → physCore (base s) s.cur l = some r → (r = c ∨ stays (base s) s.cur = true) →
      exec (.mig d a) s = .next (writes s 4 d 0))
    ∧ (∀ r, l < 2 ^ 14 → physCore (base s) s.cur l = some r → r ≠ c → stays (base s) s.cur = false → t.spillFault = none →
      departReady (base s) s.cur = true →
      ∃ u, exec (.mig d a) s = .next u ∧ (thr u s.cur).life = .moving ∧ (thr u s.cur).goal = some r
        ∧ Past s u [d] ∧ (d ≠ 0 → getX (thr u s.cur) d.toNat = 1) ∧ SameMemory s u)
    ∧ ((reg s a).toNat % 64 = 0 → Asks s (.spawn d a) .load (reg s a) 64 .tier
      ∧ (ending t = false → Asks s (.yield d a) .load (reg s a) 64 .tier))
    ∧ (∀ v, Had s v → (reg s a).toNat % 64 = 0 → v % 2 ^ 64 < 2 ^ 16 → v % 2 = 0 → releaseHeld (base s) s.cur = false →
      let ws := wordsOfNat v 8
      ((core s c).deck.length < 64 → ∃ u, exec (.spawn d a) s = .next u ∧ Past s u [d] ∧ SameMemory s u
        ∧ (d ≠ 0 → getX (thr u s.cur) d.toNat = 1)
        ∧ (core u c).deck = (core s c).deck ++ [⟨ws, t.ctx, t.launch, cyc s + 1⟩])
      ∧ (64 ≤ (core s c).deck.length → exec (.spawn d a) s = .next (writes s 4 d 0))
      ∧ (ending t = false →
        let yields := slotOf s.cur ≠ 0 ∧ slotFree (base s) c = false ∧ startWaits (base s) c = true ∧ (core s c).deck.length < 64
        (¬yields → exec (.yield d a) s = .next (writes s 4 d 0))
        ∧ (yields → still → ∃ u, exec (.yield d a) s = .next u ∧ rest u
          ∧ (core u c).deck = (core s c).deck ++ [⟨ws, t.ctx, t.launch, cyc s + 1⟩])))
    ∧ (still → ∃ u, exec .endThread s = .next u ∧ rest u)

/-- R154, R387: the crew instructions. R155, R156, R158, R388, R389: the barrier instructions, for a member of the barrier's
crew. R156, R157: an arrival counts in the current phase while it has room, else in the next one, else it is an over-arrival; a
phase whose arrivals reach its count, with no copy pending, completes: its drops lower the count and the next phase becomes the
current one. That the crew table changes in the step of issue is the model's choice (log 20). -/
def Obligations.CrewsAndBarriers : Prop :=
  (∀ (s : State) (a : Reg), Ready s .u [a] → Single s → (reg s a).toNat < 2 ^ 15 →
     let t := issuer s
     let n := t.ctx
     let c := (reg s a).toNat
     let x := ctx s n
     let traps (i : Instr) (k : Cause) : Prop := exec i s = .next (takeFault (atFault s) s.cur k 0 t.pc)
     let does (i : Instr) (p : Ctx → List (Option Nat) → Prop) : Prop :=
       ∃ u, exec i s = .next u ∧ SameMemory s u ∧ Past s u ∧ p (ctx u n) (thr u s.cur).crew
     (look x.crews c = none →
       traps (.crewJoin a) .crewMembership ∧ traps (.crewLeave a) .crewMembership ∧ traps (.crewDel a) .crewMembership
       ∧ (crewsFull t = true → traps (.crewNew a) .crewLimit)
       ∧ (crewsFull t = false → does (.crewNew a) fun y es => look y.crews c = some ⟨[s.cur]⟩ ∧ some c ∈ es))
     ∧ ∀ k, look x.crews c = some k →
       traps (.crewNew a) .crewBusy
       ∧ (s.cur ∈ k.members → does (.crewJoin a) fun y es => y = x ∧ es = t.crew)
       ∧ (s.cur ∉ k.members → crewsFull t = true → traps (.crewJoin a) .crewLimit)
       ∧ (s.cur ∉ k.members → crewsFull t = false →
         does (.crewJoin a) fun y es => look y.crews c = some ⟨k.members ++ [s.cur]⟩ ∧ some c ∈ es)
       ∧ (s.cur ∉ k.members → traps (.crewLeave a) .crewMembership ∧ traps (.crewDel a) .crewMembership)
       ∧ (s.cur ∈ k.members → does (.crewLeave a) fun y es =>
           look y.crews c = some ⟨k.members.filter fun m => m != s.cur⟩ ∧ some c ∉ es ∧ y.bars = x.bars)
       ∧ (s.cur ∈ k.members → (∃ m ∈ k.members, m ≠ s.cur) → traps (.crewDel a) .crewBusy)
       ∧ (s.cur ∈ k.members → (∀ m ∈ k.members, m = s.cur) → rising x.crews = true → does (.crewDel a) fun y es =>
           look y.crews c = none ∧ some c ∉ es ∧ ∀ p ∈ y.bars, p.2.crew ≠ c))
  ∧ (∀ (s : State) (d a b : Reg), Ready s .u [a, b, d] → Single s → (reg s a).toNat < 2 ^ 31 →
       let t := issuer s
       let n := t.ctx
       let h := (reg s a).toNat
       let bar := h % 2 ^ 16
       let crew := h / 2 ^ 16
       let traps (i : Instr) (k : Cause) : Prop := exec i s = .next (takeFault (atFault s) s.cur k 0 t.pc)
       let does (i : Instr) (v : Word) (k : Barrier) : Prop :=
         ∃ u, exec i s = .next u ∧ SameMemory s u ∧ Past s u [d] ∧ look (ctx u n).bars bar = some k
           ∧ (d ≠ 0 → getX (thr u s.cur) d.toNat = v)
       isMember (ctx s n) crew s.cur = true →
         (look (ctx s n).bars bar = none → ∀ e sc : Nat, 1 ≤ e → e < 2 ^ 16 → sc < 7 → (reg s b).toNat = sc * 2 ^ 16 + e →
           ∃ u, exec (.barInit a b) s = .next u ∧ Past s u ∧ SameMemory s u
             ∧ look (ctx u n).bars bar = some { crew := crew, scope := sc, e := e })
         ∧ ∀ k, look (ctx s n).bars bar = some k → k.crew = crew →
           (releaseHeld (base s) s.cur = false →
             (∀ k' q, arrive k false = some (k', q) → does (.barArrive d a) (q.setWidth 64) k')
             ∧ (∀ k' q, arrive k true = some (k', q) → does (.barDrop d a) (q.setWidth 64) k')
             ∧ (arrive k false = none → traps (.barArrive d a) .overArrival ∧ traps (.barDrop d a) .overArrival))
           ∧ ((reg s b).toNat < 2 ^ 32 →
             let q : BitVec 32 := (reg s b).setWidth 32
             (phaseDone k q = true → exec (.barWait a b) s = .next (goes s s (discardAhead t) (nextAt s 4)))
             ∧ (phaseDone k q = false → q ≠ k.p → q ≠ k.p + 1 → traps (.barWait a b) .barrierPhase)))
  ∧ (∀ (b : Barrier) (drop : Bool),
       let n := if drop then 1 else 0
       (b.a0 + 1 < b.e → arrive b drop = some ({ b with a0 := b.a0 + 1, d0 := b.d0 + n }, b.p))
       ∧ (b.a0 + 1 = b.e → 0 < b.c0 → arrive b drop = some ({ b with a0 := b.a0 + 1, d0 := b.d0 + n }, b.p))
       ∧ (b.a0 + 1 = b.e → b.c0 = 0 → b.a1 < b.e - (b.d0 + n) → ∃ b', arrive b drop = some (b', b.p) ∧ b'.p = b.p + 1
         ∧ b'.e = b.e - (b.d0 + n) ∧ b'.a0 = b.a1 ∧ b'.d0 = b.d1 ∧ b'.c0 = b.c1 ∧ b'.a1 = 0 ∧ b'.d1 = 0 ∧ b'.c1 = 0)
       ∧ (b.e ≤ b.a0 → b.a1 < b.e - b.d0 → (b.a0 ≠ b.e ∨ 0 < b.c0) →
         arrive b drop = some ({ b with a1 := b.a1 + 1, d1 := b.d1 + n }, b.p + 1))
       ∧ (b.e ≤ b.a0 → b.e - b.d0 ≤ b.a1 → arrive b drop = none))

/-- R151, R390, R391, R392: semaphores, channels and the role table. -/
def Obligations.StageUnits : Prop :=  ∀ (s : State) (d a b : Reg) (k : BitVec 5), Ready s .u [a, b, d] → Single s →
    let tl := tileOf s.cur
    let c := coreOf s.cur
    let x := tile s tl
    let m := (reg s a).toNat
    let old := lookD x.sems m 0
    let q := lookD (core s c).chq k.toNat []
    let does (i : Instr) (v : Word) (p : State → Prop) : Prop :=
      ∃ u, exec i s = .next u ∧ SameMemory s u ∧ Past s u [d] ∧ (d ≠ 0 → getX (thr u s.cur) d.toNat = v) ∧ p u
    (m < 16 → (reg s b).toNat < 2 ^ 16 → releaseHeld (base s) s.cur = false → does (.semPost d a b) (BitVec.ofNat 64 old) fun u =>
      lookD (tile u tl).sems m 0 = min (old + (reg s b).toNat) 65535)
    ∧ (m < 16 → waitersBefore (base s) s.cur m (parkedSince (issuer s)) < old → does (.semWait d a) (BitVec.ofNat 64 (old - 1)) fun u =>
      lookD (tile u tl).sems m 0 = old - 1)
    ∧ (q.length < 16 → releaseHeld (base s) s.cur = false → ∃ u, exec (.chanPut a k) s = .next u ∧ SameMemory s u
      ∧ Past s u ∧ lookD (core u c).chq k.toNat [] = q ++ [⟨reg s a, (issuer s).ctx, cyc s + 1⟩])
    ∧ (∀ v r, q = v :: r → v.since ≤ cyc s → does (.chanGet d k) v.val fun u => lookD (core u c).chq k.toNat [] = r)
    ∧ (allows .s (issuer s).prv = true → m < 8 → roleOk (reg s b).toNat = true → does (.recast d a b) (lookD x.roles m 0) fun u =>
      lookD (tile u tl).roles m 0 = reg s b)


/-! ## The net machine -/
/-- R68, R167, R172, R181, R182, R393, R394, R399: `nalloc` hands out the next block of the issuing core's node pool, with one
posted store that zeroes it, and gives its address; an empty pool is net-pool. `nfree` and `pref` send one atomic to the home
(Services says what it does there) and complete with its reply: a FREE header, and a refcount at its limit, are net-malformed. A
freed block goes back to its home core's pool, unless the launch is deterministic. R170, R172, R395: `link` runs `splice_link`
on its two ends, each exchange an atomic at the home and each other write a posted store. Two nullary ends write nothing and
give 3. An auxiliary port joined to a nullary end takes that end, by one posted store, and the instruction gives 1. It
completes, as an acquire, when all it has written is performed; a hole, or a body with a reserved bit, is net-malformed. A
thread that `tkill` has named is killed then (R417). R170, R171: the branches of `splice_link`, one step after another. What the
loop does next depends on the word that its exchange found in the cell: a hole, or an auxiliary port, ends it, by a
compare-and-swap where the other end is an auxiliary port; a splice makes it go on with the cell that the splice names; any
other end is joined, or the loop goes on at the other end's cell. R121, R175, R396: `pair` sends the record of its two ends to
the home core of the anchor, the node of the lower address, when every earlier access that a link orders is performed. R167,
R397, R398: `nread` has issued four plain loads of the node's words to x[D] to x[D + 3]; `nhdr` has issued one exchange of its
header, and a header of a class that no node carries, of arity 3 or of pk 3 is net-malformed. The steps in which link, nfree and
pref run, that a pool belongs to a core and a launch, and that a thread under no launch has none, are the model's readings and
its choice (log 11, log 21, log 48). -/
def Obligations.NetInstructions : Prop :=
  (∀ (s : State) (d a : Reg) (l : Nat) (ps : List Piece), Single s → (issuer s).doomed = false → (issuer s).launch = some l →
     let u := base s
     let me := s.cur
     let under (t : State) (x : NetStep) (va : Word) : Prop := SameMemory s t ∧ (thr t me).pc = (issuer s).pc
       ∧ (thr t me).net = some ⟨x, none, (issuer s).streams⟩ ∧ (∃ since : Nat, (thr t me).park = some (.again .net since))
       ∧ ∃ (n : Nat) (y : Access), look t.accs n = some y ∧ y.tid = me ∧ y.agent = .net ∧ y.posted = false ∧ y.lo = va.toNat ∧ y.size = 8
     let after := discardAhead { issuer s with net := none }
     ((issuer s).net = none →
       (Ready s .u [d] →
         (∀ (off : Nat) (q : Pool), takeBlock (poolOf u (coreOf me) l true) 32 = some (off, q) →
           let va := BitVec.ofNat 64 ((ctx s (issuer s).ctx).v0 + logicalTid u me / 16 * 0x8000 + off)
           let ask : Ask := { kind := .store, va := va, size := 32, op := fun _ _ => .write 0, next := nextAt s 4 }
           ∀ p : Piece, netPiece u me (some .store) va 32 = .ok p u → accessWait u me ask [p] = none →
           let t := (addAccess (setPool u (coreOf me) l true q) me ask [p] true).2
           exec (.nalloc d) s = .next (goes s t (setX (overtake (thr t me) d (cyc s)) d.toNat va) (nextAt s 4)))
         ∧ (takeBlock (poolOf u (coreOf me) l true) 32 = none → Faults s (.nalloc d) .netPool))
       ∧ (Ready s .u [a] → ∀ p, netPiece u me (some .atomic) (reg s a) 32 = .ok p u →
         accessWait u me (netAsk .atomic false (reg s a) .free) [{ p with len := 8 }] = none →
         ∃ t, exec (.nfree a) s = .next t ∧ under t .freed (reg s a))
       ∧ (Ready s .u [a, d] → (reg s a).toNat < 2 ^ 40 →
         let va := BitVec.ofNat 64 ((reg s a).toNat * 64)
         ∀ up : Bool, checkAsk u me (netAsk .atomic true va (.count up)) = .ok ps u →
           accessWait u me (netAsk .atomic true va (.count up)) ps = none →
           ∃ t, exec (if up then .prefInc d a else .prefDec d a) s = .next t ∧ under t (.counted up) va))
     ∧ (∀ (h : Word) (q : Tab Stream), Ready s .u [] → (issuer s).net = some ⟨.freed, some h, q⟩ →
       (h.toNat / 2 ^ 56 ≠ 0 → exec (.nfree a) s = .next (goes s s { issuer s with net := none } (nextAt s 4)))
       ∧ (h.toNat / 2 ^ 56 = 0 → Faults s (.nfree a) .netMalformed))
     ∧ (∀ (up : Bool) (old : Word) (q : Tab Stream), Ready s .u [d] → (issuer s).net = some ⟨.counted up, some old, q⟩ →
       let i : Instr := if up then .prefInc d a else .prefDec d a
       let atLimit := if up then old = BitVec.allOnes 64 else old = 0
       (¬atLimit → exec i s = .next (goes s s (setX (overtake after d (cyc s)) d.toNat old) (nextAt s 4)))
       ∧ (atLimit → Faults s i .netMalformed))
     ∧ ∀ (pkg pa k c off : Nat), pooled s (some l) pkg pa true = some (k, c, off) →
       poolOf (giveBlock s (some l) pkg pa true) c k true
         = if deterministic s (some l) then poolOf s c k true
           else { poolOf s c k true with freed := off :: (poolOf s c k true).freed })
  ∧ (∀ (s : State) (d a b : Reg), Single s →
       let u := base s
       let me := s.cur
       let x := reg s a
       let y := reg s b
       let after := discardAhead { issuer s with net := none }
       let gives (v : Word) : Prop := exec (.link d a b) s = .next (goes s s (setX (overtake after d (cyc s)) d.toNat v) (nextAt s 4))
       ((issuer s).doomed = true → ∀ (v : Nat) (g : Option Word) (q : Tab Stream), Ready s .u [d] → (issuer s).net = some ⟨.last v, g, q⟩ →
         releaseHeld u me = false → Does s (.link d a b) fun t => (thr t me).life = .killed ∨ (thr t me).life = .free)
       ∧ ((issuer s).doomed = false → Ready s .u [a, b, d] → (issuer s).net = none →
         (tagOf x = 0 ∨ tagOf y = 0 ∨ bodyGood x = false ∨ bodyGood y = false → Faults s (.link d a b) .netMalformed)
         ∧ (isNullary x = true → isNullary y = true → bodyGood x = true → bodyGood y = true → releaseHeld u me = false → gives 3)
         ∧ ∀ p : Piece, isAux x = true → isNullary y = true → bodyGood x = true → bodyGood y = true →
           netPiece u me none (bodyOf x) 32 = .ok p u → netPiece u me (some .store) (bodyOf x) 32 = .ok p u →
           let va := bodyOf x + BitVec.ofNat 64 (8 * tagOf x)
           accessWait u me (netAsk .store false va (.write y.toNat)) [{ p with pa := p.pa + 8 * tagOf x, len := 8 }] = none →
           ∃ t, exec (.link d a b) s = .next t ∧ SameMemory s t ∧ (thr t me).pc = (issuer s).pc
             ∧ (thr t me).net = some ⟨.last 1, none, (issuer s).streams⟩
             ∧ ∃ (n : Nat) (q : Access), look t.accs n = some q ∧ q.tid = me ∧ q.posted = true ∧ q.lo = va.toNat ∧ q.size = 8)
       ∧ ∀ (v : Nat) (g : Option Word) (q : Tab Stream), Ready s .u [d] → (issuer s).net = some ⟨.last v, g, q⟩ →
         (releaseHeld u me = false → (issuer s).doomed = false → gives (BitVec.ofNat 64 v))
         ∧ (releaseHeld u me = true → ∃ t, exec (.link d a b) s = .next t ∧ (thr t me).net = (issuer s).net ∧ SameMemory s t))
  ∧ ((∀ a b w : Word,
       let stop : NetStep := if isAux b then .cas (bodyOf a) b else .last 0
       (tagOf w = 0 ∨ isAux w = true → afterSwap a b w = stop)
       ∧ (isSplice w = true → afterSwap a b w = .release (bodyOf a) w b false)
       ∧ (tagOf w ≠ 0 → isAux w = false → isSplice w = false →
         (isSplice b = true → afterSwap a b w = .release (bodyOf a) b w false)
         ∧ (isSplice b = false → afterSwap a b w = .release (bodyOf a) w b true)))
     ∧ ∀ (s : State) (me : Nat) (d : Reg) (g : Option Word) (q : Tab Stream),
       let next (x y : NetStep) (t : State) : Prop := netStep s me d ⟨x, g, q⟩ = .ok () (setNet t me y)
       (∀ a b, (isSplice a = false → next (.enter a b) (.join a b) s)
         ∧ (isSplice a = true → isNode b = false → next (.enter a b) (.swap a b) s)
         ∧ (∀ w, g = some w → next (.swapped a b) (afterSwap a b w) s)
         ∧ (isAux a = true → isAux b = true →
           (allocBlock s me false = none → netStep s me d ⟨.join a b, g, q⟩ = .stop (.fault .netPool 0) s)
           ∧ ∀ off t p, allocBlock s me false = some (off, t) → netPiece s me (some .store) (blockAddr s me off) 8 = .ok p s →
             next (.join a b) (.cell a b (blockAddr s me off) 0) t)
         ∧ (isNode a = false → isNode b = false → next (.join a b) (.back a b) s)
         ∧ (isNode b = false → next (.back a b) (if tagOf a = 1 ∧ isNullary b = true then .push a b
             else .last (if isNullary a = true ∧ isNullary b = true then 3 else 1)) s))
       ∧ (g ≠ none → next .casDone (.last 0) s))
  ∧ (∀ (s : State) (a b : Reg), Single s → Ready s .u [a, b] →
       let u := base s
       let me := s.cur
       let x := reg s a
       let y := reg s b
       tagOf x = 1 → (tagOf y = 1 ∨ isNullary y = true) → bodyGood x = true → bodyGood y = true →
       portPlace u me x = .ok () u → portPlace u me y = .ok () u → releaseHeld u me = false → (core s (coreOf me)).sendQ.length < 16 →
       let first := isNullary y = true ∨ (bodyOf x).toNat ≤ (bodyOf y).toNat
       let anchor := if first then x else y
       let other := if first then y else x
       ∀ (p : Piece) (c : Nat), netPiece u me none (bodyOf anchor) 32 = .ok p u → homeCore u p.pkg p.pa = some c →
         (c < 65536 → pairRoom u c (issuer s).launch = true) →
         Does s (.pair a b) fun t => Past s t ∧ SameMemory s t ∧ ∃ e : SendEntry, (core t (coreOf me)).sendQ = (core s (coreOf me)).sendQ ++ [e]
           ∧ e.bodies = [(.pair ⟨anchor, other, (issuer s).ctx, (issuer s).launch⟩, c)] ∧ e.cls = .dispatch)
  ∧ (∀ (s : State) (d a b : Reg) (p : Piece), Single s →
       (Ready s .u (a :: regsFrom d 4) → netPiece (base s) s.cur (some .load) (reg s a) 32 = .ok p (base s) →
         let q : Ask := { kind := .load, va := reg s a, size := 32, op := fun _ _ => .read
                          dests := (List.range 4).map fun i => ⟨d + BitVec.ofNat 5 i, 8 * i, 8, false⟩, next := nextAt s 4 }
         accessWait (base s) s.cur q [p] = none → exec (.nread d a) s = .next (accesses s 4 q [p]))
       ∧ (Ready s .u [a, b, d] →
         let h := (reg s b).toNat
         let good := (h / 2 ^ 56 = 1 ∨ 16 ≤ h / 2 ^ 56) ∧ h / 2 ^ 50 % 4 ≠ 3 ∧ h / 2 ^ 48 % 4 ≠ 3
         (¬good → Faults s (.nhdr d a b) .netMalformed)
         ∧ (good → netPiece (base s) s.cur (some .atomic) (reg s a) 32 = .ok p (base s) →
           let q : Ask := { kind := .atomic, va := reg s a, size := 8, op := fun _ _ => .amo 8 h, dests := [⟨d, 0, 8, false⟩]
                            next := nextAt s 4 }
           accessWait (base s) s.cur q [{ p with len := 8 }] = none → exec (.nhdr d a b) s = .next (accesses s 4 q [{ p with len := 8 }]))))


/-! ## Engines -/
/-- R92, R93, R97, R402: a job instruction whose card passes the checks, with room under the limits, enters the card with its
captured pages and its regions in the compartment's scheduler and gives the core's count of jobs in flight; a misaligned card or
marking job, and one with a reserved value, is malformed-structure. The words come from the core's own store, in an access that
the instruction makes first (log 45: DEDUCED). R104, R105, R108, R403, R404, R405, R409: `yrd.chan` binds a channel that no job
uses and gives the old watermark, `yrd.wm` reads the watermark, or the base of a channel that is off, and `yrd.stop` asks the
jobs it selects to stop, giving 0 at once where it selects none, with the channel open, and otherwise the number stopped once
all have ended and the channel is open; a channel of another context is the partition fault. `mark.st` reads the status word.
The order of the checks of a follow-on command and a job's lead for a window are the model's readings (log 36). -/
def Obligations.Jobs : Prop :=
  (∀ (s u : State) (d a : Reg) (ws : List Word) (ps : List Page), Single s → Ready s .u [a, d] → look s.jobs s.ids = none →
     let me := s.cur
     let c := coreOf me
     let k := cmptOf me
     let enters (i : Instr) (mark : Bool) (f : Option MillOp) (q : Option (Nat × BitVec 32)) (rd wr : List (Nat × Nat)) : Prop :=
       Does s i fun t => Gives s t d (BitVec.ofNat 64 (jobCount s c + 1)) ∧ SameMemory s t ∧ jobCount t c = jobCount s c + 1
         ∧ ∃ j e, look t.jobs s.ids = some j ∧ j.mark = mark ∧ j.card = ws ∧ j.pages = ps ∧ j.core = c ∧ j.ctx = (issuer s).ctx
           ∧ j.follow = f ∧ j.phase = q ∧ j.n = 0 ∧ j.finished = false
           ∧ (cmpt t k).arrivals = (cmpt s k).arrivals ++ [e] ∧ e.job = some s.ids ∧ e.reads = rd ∧ e.writes = wr
     (∀ x ∈ [(0, Instr.yrdCopy d a), (1, .yrdGath d a), (2, .yrdScat d a), (3, .yrdFill d a), (4, .yrdFar d a)],
       ((reg s a).toNat % 64 ≠ 0 → Faults s x.2 .malformedStructure)
       ∧ ((reg s a).toNat % 64 = 0 → Asks s x.2 .load (reg s a) 192 .malformedStructure ∧ ∀ v, Had s v → ws = wordsOfNat v 24 →
         let f := if (cardOf ws).mfo then followOf (issuer s) me ws else none
         (cardOk x.1 ws f.isSome = false → Faults s x.2 .malformedStructure)
         ∧ ∀ q, cardChecks (base s) me x.1 ws f = .ok (ps, q) u → (∀ o, f = some o → millChecks u me o = none) →
           jobCount s c < 1024 → schedCount s k + (if f.isSome then 2 else 1) ≤ 4096 → enters x.2 false f q ((cardOf ws).reads ws) ((cardOf ws).writes ws)))
     ∧ ((reg s a).toNat % 16 ≠ 0 → Faults s (.mark d a) .malformedStructure)
     ∧ ((reg s a).toNat % 16 = 0 → Asks s (.mark d a) .load (reg s a) 80 .malformedStructure ∧ ∀ v, Had s v → ws = wordsOfNat v 10 →
       (markingOk ws = false → Faults s (.mark d a) .malformedStructure)
       ∧ (markingOk ws = true → markChecks (base s) me (markingOf ws) = .ok ps u → jobCount s c < 1024 → schedCount s k < 4096 →
         let m := markingOf ws
         enters (.mark d a) true none none (markRegions m).1 ((markRegions m).2 ++ mapRegions m))))
  ∧ (∀ (s : State) (d a b : Reg), Single s → Ready s .u [a, b, d] →
       let t := issuer s
       let c := coreOf s.cur
       let v := (reg s a).toNat
       let limit := (reg s b).toNat
       let chan (n : Nat) := lookD (core s c).chans n {}
       let other (n : Nat) : Prop := (chan n).base ≠ (chan n).limit ∧ (chan n).ctx ≠ t.ctx
       (v / 2 ^ 52 % 2 ^ 8 = 0 → limit < 2 ^ 52 → v % 2 ^ 52 ≤ limit →
         let n := v / 2 ^ 60
         (other n → Faults s (.yrdChan d a b) .partition)
         ∧ (¬other n → jobsOn s c n = [] → Does s (.yrdChan d a b) fun u => Gives s u d (BitVec.ofNat 64 (chan n).wm) ∧ SameMemory s u
           ∧ lookD (core u c).chans n {} = { ctx := t.ctx, base := v % 2 ^ 52, limit := limit, wm := v % 2 ^ 52 }))
       ∧ (16 ≤ v → Faults s (.yrdWm d a) .malformedStructure)
       ∧ (v < 16 → (other v → Faults s (.yrdWm d a) .partition)
         ∧ (¬other v → exec (.yrdWm d a) s =
           .next (writes s 4 d (BitVec.ofNat 64 (if (chan v).base = (chan v).limit then (chan v).base else (chan v).wm)))))
       ∧ (t.stopping = none → v < 32 →
         let open_ := v < 16 ∧ (chan v).base ≠ (chan v).limit
         let named (j : Job) : Prop := j.core = c ∧ j.ctx = t.ctx ∧ j.mark = false
           ∧ (16 ≤ v ∨ ((cardOf j.card).wmk = true ∧ (cardOf j.card).chan = v))
         let none_ := ∀ p ∈ s.jobs, ¬named p.2
         (v < 16 → other v → Faults s (.yrdStop d a) .partition)
         ∧ ((v < 16 → ¬other v) →
           (v < 16 ∧ ¬open_ ∨ none_ → Does s (.yrdStop d a) fun u => Gives s u d 0 ∧ SameMemory s u
             ∧ (open_ → (lookD (core u c).chans v {}).wm = (chan v).limit) ∧ (v < 16 → ¬open_ → core u c = core s c))
           ∧ ((16 ≤ v ∨ open_) → ¬none_ → Does s (.yrdStop d a) fun u => (thr u s.cur).pc = t.pc ∧ SameMemory s u
             ∧ core u c = core s c ∧ (∀ p ∈ s.jobs, named p.2 → (p.1, { p.2 with asked := true }) ∈ u.jobs)
             ∧ ∃ since x, (thr u s.cur).park = some (.again .stopJobs since) ∧ (thr u s.cur).stopping = some x ∧ x.ended = 0
               ∧ x.chan = (if v < 16 then some v else none) ∧ ∀ p ∈ s.jobs, named p.2 → p.1 ∈ x.jobs)))
       ∧ (∀ n c, t.stopping = some ⟨[], n, c⟩ → Does s (.yrdStop d a) fun u => Gives s u d (BitVec.ofNat 64 n) ∧ (thr u s.cur).stopping = none)
       ∧ ∃ w : Word, exec (.markSt d) s = .next (writes s 4 d w)
         ∧ let mine (j : Job) : Bool := j.mark && j.core == c && j.ctx == t.ctx
           ((s.jobs.filter fun p => mine p.2).length < 2 ^ 16 →
             (w.extractLsb' 32 16).toNat = (s.jobs.filter fun p => mine p.2).length ∧ w.extractLsb' 0 31 = 0 ∧ w.extractLsb' 48 16 = 0
             ∧ (w.getLsbD 31 = true ↔ ∃ j x, (cmpt s (cmptOf s.cur)).markQ.head? = some j ∧ look s.jobs j = some x ∧ x.ctx = t.ctx)))

/-- R85, R97, R98, R99, R100, R345, R364: the scheduler accepts the arrival that came first, among equals the one whose core
number follows the cycle soonest; it records an edge from every entry of the context not yet completed that writes what the new
one reads, reads what it writes, or writes what it writes. A job's follow-on enters right behind it with an edge from it and the
thread's next mill number. An entry is sent to its engine only without an edge, the mill instructions of a thread in the order
of their entries, and one of a thread with a held instruction is held behind it; a job goes to its lead yarder, over the network
to another compartment's, to an HBM yarder or a far-tier port, or over a peer port to another package's. -/
def Obligations.FootprintScheduler : Prop :=  ∀ (s : State) (c : Nat), s.power = true →
    let k := cmpt s c
    let slot (e : Entry) : Nat := (e.core + 512 - e.cycle % 512) % 512
    let before (e f : Entry) : Prop := e.cycle < f.cycle ∨ (e.cycle = f.cycle ∧ slot e < slot f)
    let share (xs ys : List (Nat × Nat)) : Prop := ∃ x ∈ xs, ∃ y ∈ ys, ∃ n : Nat, x.1 ≤ n ∧ n < x.2 ∧ y.1 ≤ n ∧ n < y.2
    let edge (x e : Entry) : Prop := x.ctx = e.ctx ∧ (share x.writes e.reads ∨ share x.reads e.writes ∨ share x.writes e.writes)
    (∀ (a : List Entry) (e : Entry) (b : List Entry), k.arrivals = a ++ e :: b → (∀ x ∈ a, before e x) → (∀ x ∈ b, ¬before x e) → cmptOf e.tid = c →
      let job := e.job.bind (look s.jobs)
      let follow := job.bind (·.follow)
      let at_ := max k.cyc (max e.cycle k.acceptAt)
      Does s (.footprintAccept c) fun t => SameMemory s t ∧ (∀ x : Entry, x ∈ (cmpt t c).arrivals ↔ x ∈ k.arrivals ∧ x.id ≠ e.id)
        ∧ (cmpt t c).acceptAt = at_ + 1
        ∧ ∃ (e' : Entry) (more : List Entry), (cmpt t c).entries = k.entries ++ e' :: more ∧ e' = { e with edges := e'.edges, taken := at_ }
          ∧ (∀ n : Nat, n ∈ e'.edges ↔ ∃ x ∈ k.entries, x.id = n ∧ edge x e) ∧ (follow = none → more = [])
          ∧ (follow.isSome = true → ∃ (f : Entry) (m : MillOp), more = [f] ∧ f.job = e.job ∧ f.mill = some m
            ∧ (∀ n : Nat, n ∈ f.edges ↔ n = e.id ∨ ∃ x ∈ k.entries, x.id = n ∧ edge x f)
            ∧ ((∀ j, job = some j → (thr s e.tid).serial = j.serial) → (thr s e.tid).life ≠ .free →
              m.seq = (thr s e.tid).millSeq + 1 ∧ (thr t e.tid).millSeq = m.seq)))
    ∧ ∀ (a : List Entry) (e : Entry) (b : List Entry), k.entries = a ++ e :: b → (∀ x ∈ a, x.id ≠ e.id) → e.dispatched = false →
      let follows (x : Entry) : Prop := ∃ (m n : MillOp), x.mill = some m ∧ e.mill = some n ∧ m.tid = n.tid ∧ m.serial = n.serial
      (e.edges ≠ [] → exec (.footprintDispatch c e.id) s = .next s)
      ∧ ((∃ x ∈ a, x.dispatched = false ∧ follows x) → exec (.footprintDispatch c e.id) s = .next s)
      ∧ (e.edges = [] → (∀ x ∈ a, x.dispatched = false → ¬follows x) →
       Does s (.footprintDispatch c e.id) fun t => SameMemory s t ∧ { e with dispatched := true } ∈ (cmpt t c).entries
        ∧ (∀ o : MillOp, e.mill = some o →
          let o' := { o with sent := max k.cyc e.taken }
          let x := thr s e.tid
          let sent := (tile s (tileOf e.tid)).dispatched
          ((x.held = none ∨ x.serial ≠ o.serial) → (tile t (tileOf e.tid)).dispatched = sent ++ [o'])
          ∧ ∀ h : Held, x.held = some h → x.serial = o.serial → (tile t (tileOf e.tid)).dispatched = sent
            ∧ (thr t e.tid).held = some { h with followers := h.followers ++ [o'] })
        ∧ (e.mill = none → ∀ (n : Nat) (j : Job), e.job = some n → look s.jobs n = some j →
          (j.mark = true → (cmpt t c).markQ = k.markQ ++ [n])
          ∧ (j.mark = false → ∃ q, look t.jobs n = some q ∧ q = { j with arrived := q.arrived, sent := some (cycOf t c) }
            ∧ (q.arrived = true ↔ leadOf s j = .cmpt c)
            ∧ (∀ k', leadOf s j = .cmpt k' → k' ≠ c →
              ∃ p ∈ t.packets, p.2.body = .job n ∧ p.2.cls = .request ∧ p.2.src = c ∧ p.2.dst = k' ∧ p.2.flits = 2)
            ∧ ∀ k', leadOf s j = .pkg k' →
              ∃ p ∈ t.away, p.body = .job n ∧ p.cls = .request ∧ p.src = c ∧ p.core = awayCore k' 0 ∧ p.flits = 2)))

/-- R85, R86, R94, R95, R96, R103, R107: a job at its lead yarder takes its next elements, up to `m` of them and all that are
left where its times are published (log 37: DESIGN CHOICE): it reads the row indices, then the sources, and then writes, each as
its op says: a fill, a move of an element from its source to its destination, the row that the index list names, or what
clipping leaves of it. Its requests carry the generation of the context and of the captured leaf. The first element that a home
refuses, that cannot be read, or that lies outside the footprint, ends the job when those before it are written; `yrd.stop` ends
it before its next elements. With cow the refcount is read first, a payload held once is not moved, and at the end it falls by
1. R209: in fixed-timing mode a job whose footprint lies wholly in the compartment goes to its yarder 4 cycles after its
acceptance, and the requests of an access that it makes there can be served at once, so that only its time as a whole is
published (log 42: DEDUCED). How many elements a batch has, the bytes that the published time counts, refc of a job that ends
SOLE, and the box without clipping, are the model's readings and choices (log 36, log 37, log 40, log 42). -/
def Obligations.JobElements : Prop :=
  (∀ (s : State) (id m : Nat) (j : Job), s.power = true → look s.jobs id = some j → j.finished = false → j.mark = false → j.sent.isSome = true →
     let c := cardOf j.card
     let count := c.e0 * c.e1 * c.e2
     let becomes (x : Job) : Prop := Does s (.jobArrival id m) fun t => SameMemory s t ∧ look t.jobs id = some x
     let stops (x : Job) (status : Nat) : Prop := becomes { x with status := status, finished := true }
     let field (v n o : Nat) : Nat := v / 2 ^ (8 * o) % 2 ^ (8 * n)
     -- element p, whose row's index is x
     let elt (p x : Nat) : EltMove :=
       let i := p % c.e0
       let r := p / c.e0 % c.e1
       let k := p / (c.e0 * c.e1)
       let inside (o : Int) (n b : Nat) : Prop := 0 ≤ o + n ∧ o + n < b
       let to_ : Int := c.dst + (i * c.w : Nat) + r * c.d1 + k * c.d2
       let clipped : EltMove := ⟨if c.cfill = true ∧ c.op ≠ 2 then some to_ else none, none⟩
       if c.op = 3 then ⟨some to_, none⟩
       else if c.op = 1 ∨ c.op = 2 then
         if c.clip = true ∧ c.b1 ≤ x then clipped
         else if c.op = 1 then ⟨some to_, some (c.src + x * c.s1 + (i * c.w : Nat))⟩
         else ⟨some (c.dst + x * c.d1 + (i * c.w : Nat)), some (c.src + r * c.s1 + (i * c.w : Nat))⟩
       else if c.clip = true ∧ ¬(inside c.o0 i c.b0 ∧ inside c.o1 r c.b1 ∧ inside c.o2 k c.b2) then clipped
       else ⟨some to_, some (c.src + (c.o0 + i) * c.w + (c.o1 + r) * c.s1 + (c.o2 + k) * c.s2)⟩
     let indexed := c.op = 1 ∨ c.op = 2
     let moves (n v : Nat) : List EltMove := (List.range n).map fun i => elt (j.n + i) (field v 4 (4 * ((j.n + i) / c.e0 - j.n / c.e0)))
     let upTo (n rows : Nat) : Nat := min n ((j.n / c.e0 + rows) * c.e0 - j.n)
     -- what the elements es leave of the job once they are written
     let past (x : Job) (es : List EltMove) : Job :=
       let clips (i : Nat) : Bool := c.op != 3 && (es.getD i ⟨none, none⟩).from_.isNone
       let skips := (List.range es.length).filter clips
       { x with n := x.n + es.length, clipd := x.clipd || !skips.isEmpty
                clipRows := x.clipRows + (skips.filter fun i => c.indexed && (x.n + i) % c.e0 = 0).length }
     -- an access of the parts ps is under way
     let sends (x : Job) (st : JobStep) (op : Nat → Nat → ReqOp) (ps : List Piece) : Prop := Does s (.jobArrival id m) fun t => SameMemory s t
       ∧ ∃ (a : Nat) (y : Access), look t.jobs id = some { x with acc := some (a, st) } ∧ look t.accs a = some y ∧ y.agent = .job id
         ∧ y.left = (ps.map fun p => (wordsOf p).length).foldl (· + ·) 0
         ∧ ∀ p ∈ ps, ∀ w ∈ wordsOf p, ∃ (q : Nat) (z : Req), look t.reqs q = some z ∧ z.acc = a ∧ z.pkg = p.pkg ∧ z.pa = w.1
           ∧ z.len = w.2.1 ∧ z.off = w.2.2 ∧ z.op = op w.2.1 w.2.2 ∧ z.gen = p.gen ∧ z.ctx = j.ctx ∧ z.cgen = (ctx s j.ctx).cgen
     -- n bytes at each address, as far as no home refuses one: go has the job, how many elements those are, and their parts
     let runs (x : Job) (kind : AccKind) (n : Nat) (at_ : List (Option Int)) (go : Job → Nat → List Piece → Prop) : Prop :=
       ∀ (k : Nat) (f : Nat → List Piece), k ≤ at_.length →
         (∀ i < k, match at_.getD i none with | none => f i = [] | some va => eltAccess s j kind va n = .ok (f i)) →
         let ps := joinPieces ((List.range k).flatMap fun i => (f i).map fun p => { p with off := p.off + i * n })
         (k = at_.length → go x k ps)
         ∧ ∀ va e, k < at_.length → at_.getD k none = some va → eltAccess s j kind va n = .error e →
           (k = 0 → stops x e) ∧ (0 < k → go { x with status := 0 } k ps)
     let writes (x : Job) (es : List EltMove) (v : Nat) : Prop := runs x .store c.w (es.map (·.to_)) fun x k ps =>
       let value := ((List.range k).map fun i =>
         (if (es.getD i ⟨none, none⟩).from_.isSome then field v c.w (i * c.w) else c.fill % 2 ^ (8 * c.w)) * 2 ^ (8 * (i * c.w))).sum
       (ps = [] → becomes { past x (es.take k) with finished := decide (x.status ≠ 0) })
       ∧ (ps ≠ [] → sends x (.dest (es.take k)) (fun n o => .write (field value n o)) ps)
     let reads (x : Job) (es : List EltMove) : Prop := runs x .load c.w (es.map (·.from_)) fun x k ps =>
       (ps = [] → writes x (es.take k) 0) ∧ (ps ≠ [] → sends x (.source (es.take k)) (fun _ _ => .read) ps)
     let refcount (st : JobStep) (v : Nat) : Prop :=
       (∀ e, eltAccess s j .load c.aux 8 = .error e → stops j e)
       ∧ ∀ ps, eltAccess s j .load c.aux 8 = .ok ps → sends j st (fun n o => .amo 0 (field v n o)) ps
     (∀ (kind : AccKind) (va : Int) (n : Nat) (ps : List Piece),
       let dir := if kind = .store then c.writes j.card else c.reads j.card
       ((va < 0 ∨ eltParts j dir va.toNat n = none) → eltAccess s j kind va n = .error 2)
       ∧ (0 ≤ va → eltParts j dir va.toNat n = some ps → (∀ p ∈ ps, eltRefused n p.pa p.len = none) →
         ((∃ p ∈ ps, admitted s p.pkg p.pa p.gen = .stale) → eltAccess s j kind va n = .error 4)
         ∧ ((∀ p ∈ ps, admitted s p.pkg p.pa p.gen ≠ .stale) →
           ((kind = .store ∧ ∃ p ∈ ps, keepsUnread s p = true) → eltAccess s j kind va n = .error 5)
           ∧ ((kind ≠ .store ∨ ∀ p ∈ ps, keepsUnread s p = false) → eltAccess s j kind va n = .ok ps))))
     ∧ (j.arrived = false → ((∃ k, leadOf s j = .cmpt k) → exec (.jobArrival id m) s = .next s)
       ∧ ((∀ k, leadOf s j ≠ .cmpt k) → becomes { j with arrived := true }))
     ∧ (j.arrived = true → j.acc = none → j.asked = true → j.n < count → stops j 7)
     ∧ (j.arrived = true → j.acc = none → (j.asked = false ∨ count ≤ j.n) →
       (engineHeld s j.tid j.before = true → exec (.jobArrival id m) s = .next s)
       ∧ (engineHeld s j.tid j.before = false →
         (c.cow = true → j.cowRead = false → refcount .refRead 0)
         ∧ (c.cow = true → j.cowRead = true → count ≤ j.n → refcount .refDrop (2 ^ 64 - 1))
         ∧ (c.cow = false → count ≤ j.n → becomes { j with finished := true })
         ∧ ((c.cow = false ∨ j.cowRead = true) → j.n < count →
           let n := if (publishedBytes s j).isSome then count - j.n else min (max m 1) (count - j.n)
           let rows := (j.n + n - 1) / c.e0 + 1 - j.n / c.e0
           (¬indexed → reads j (moves n 0))
           ∧ (indexed → runs j .load 4 ((List.range rows).map fun i => some ((c.aux + 4 * (j.n / c.e0 + i) : Nat) : Int)) fun _ k ps =>
             sends j (.index (upTo n k)) (fun _ _ => .read) ps))))
     ∧ ∀ a st x, j.arrived = true → j.acc = some (a, st) → look s.accs a = some x →
       let j' := { j with acc := none }
       let failure := if x.poisoned = true then 5 else 4
       let later := { j' with status := failure }
       let off := x.worst.getD 0
       (x.left ≠ 0 ∨ x.replies ≠ 0 → exec (.jobArrival id m) s = .next s)
       ∧ (x.left = 0 → x.replies = 0 → x.poisoned = false → x.stale = false →
         (∀ n, st = .index n → reads j' (moves n x.val))
         ∧ (∀ es, st = .source es → writes j' es x.val)
         ∧ (∀ es, st = .dest es → becomes { past j' es with finished := decide (j.status ≠ 0) })
         ∧ (st = .refRead → (x.val = 1 → becomes { j' with status := 1, finished := true, refc := 1 })
           ∧ (x.val ≠ 1 → becomes { j' with cowRead := true }))
         ∧ (st = .refDrop → becomes { j' with finished := true, refc := min x.val 0xFFFF }))
       ∧ (x.left = 0 → x.replies = 0 → (x.poisoned = true ∨ x.stale = true) →
         (∀ n, st = .index n → (upTo n (off / 4) = 0 → stops j' failure) ∧ (0 < upTo n (off / 4) → reads later (moves (upTo n (off / 4)) x.val)))
         ∧ (∀ es, st = .source es → (off / c.w = 0 → stops j' failure) ∧ (0 < off / c.w → writes later (es.take (off / c.w)) x.val))
         ∧ (∀ es, st = .dest es → stops (past j' (es.take (off / c.w))) failure)
         ∧ (st = .refRead ∨ st = .refDrop → stops j' failure)))
  ∧ (∀ (s : State) (id bytes : Nat) (j : Job), s.power = true → look s.jobs id = some j → publishedBytes s j = some bytes →
       (∀ (c : Nat) (e : Entry), (cmpt s c).entries.find? (fun x => x.id == e.id) = some e → e.dispatched = false → e.edges = [] →
         e.mill = none → e.job = some id →
         Does s (.footprintDispatch c e.id) fun t => SameMemory s t
           ∧ ∃ q, look t.jobs id = some q ∧ q.sent = some (max (cycOf s c) (e.taken + 4)))
       ∧ ∀ (m k : Nat), leadOf s j = .cmpt k → j.arrived = true → j.finished = false → j.sent.isSome = true →
         j.acc = none → (j.asked = false ∨ (cardOf j.card).count ≤ j.n) → engineHeld s j.tid j.before = false →
         Does s (.jobArrival id m) fun t => SameMemory s t ∧ ∀ r ∈ t.reqs, r ∉ s.reqs →
           r.2.transit = 0 ∧ (r.2.remote = false → r.2.earliest = cycOf s k))

/-- R101, R102, R104, R105, R106, R209: WATERMARK_REPORT adds its range to what the channel holds filled, and the watermark
passes over every filled byte that starts at it. JOB_COMPLETION of a job that has written everything advances its channel,
counts its barrier copy, takes it out of the scheduler with every edge from it, and cancels its follow-on when it stopped early;
then it posts the record, which waits where the landing priority is full. A thread in `yrd.stop` learns of the end, and the last
job that it waits for opens its channel (R105). That a report waits where it would make a 33rd range is the model's reading (log
36). -/
def Obligations.JobCompletion : Prop :=  ∀ (s : State) (id : Nat) (j : Job), s.power = true → look s.jobs id = some j → j.mark = false →
    let c := cardOf j.card
    let k := cmptOf j.tid
    let ch := lookD (core s j.core).chans c.chan {}
    let filled (x : CopyChan) (n : Nat) : Prop := n < x.wm ∨ ∃ r ∈ x.fill, r.1 ≤ n ∧ n < r.2
    let room := atPrio (core s j.core) c.prio < 16 ∧ ∀ x ∈ (core s j.core).heldRecs, x.prio ≠ c.prio
    (ch.fill.length < 32 → (∀ r ∈ ch.fill, r.1 < r.2) → ch.fill.Pairwise (fun x y => x.2 < y.1) → c.wmk = true →
      let next := j.reported / 256 * 256 + 256
      (j.n * c.w < next → exec (.watermarkReport id) s = .next s)
      ∧ (next ≤ j.n * c.w → Does s (.watermarkReport id) fun t => SameMemory s t ∧ look t.jobs id = some { j with reported := next }
        ∧ let y := lookD (core t j.core).chans c.chan {}
          y.base = ch.base ∧ y.limit = ch.limit ∧ y.wm ≤ ch.limit ∧ (∀ r ∈ y.fill, y.wm < r.1)
          ∧ ∀ n : Nat, n < ch.limit → (filled y n ↔ filled ch n ∨ (c.dst ≤ n ∧ n < c.dst + next))))
    ∧ (j.finished = false → exec (.jobCompletion id) s = .next s)
    ∧ (j.finished = true → j.ended = none → (∃ e ∈ (cmpt s k).entries, e.id = id) → rising s.jobs = true →
      (c.wmk = true → report ch c.dst (c.dst + j.n * c.w) = none → exec (.jobCompletion id) s = .next s)
      ∧ ((c.wmk = true → (report ch c.dst (c.dst + j.n * c.w)).isSome = true) → Does s (.jobCompletion id) fun t => SameMemory s t
        ∧ (∃ at_, look t.jobs id = some { j with ended := some at_ } ∧ (publishedBytes s j = none → at_ = cycOf s k)
          ∧ ∀ n, publishedBytes s j = some n → at_ = max (cycOf s k) (j.sent.getD 0 + 8 + ceilDiv n 64) + if c.nrec then 0 else 3)
        ∧ (∀ e ∈ (cmpt t k).entries, e.id ≠ id ∧ id ∉ e.edges)
        ∧ (2 ≤ j.status → ∀ e ∈ (cmpt t k).entries, e.job = some id → e.mill = none)
        ∧ (∀ (h : Nat) (q : BitVec 32) (b : Barrier), j.phase = some (h, q) → look (ctx s j.ctx).bars (h % 2 ^ 16) = some b →
          look (ctx t j.ctx).bars (h % 2 ^ 16) = some (countCopy b q false))
        ∧ (c.wmk = false → core t j.core = core s j.core)
        ∧ ∀ y, c.wmk = true → report ch c.dst (c.dst + j.n * c.w) = some y → lookD (core t j.core).chans c.chan {} = y))
    ∧ ∀ at_, j.finished = true → j.ended = some at_ → rising s.jobs = true → withheld s j.ctx j.core = false →
      Does s (.jobCompletion id) fun t => SameMemory s t ∧ look t.jobs id = none ∧ at_ ≤ cycOf t k
        ∧ (∀ (th : Nat) (x : StopWait), (thr s th).stopping = some x → id ∈ x.jobs →
          (thr t th).stopping = some { x with jobs := x.jobs.filter (fun i => i != id), ended := x.ended + if j.status = 7 then 1 else 0 }
          ∧ ∀ n, x.chan = some n → (∀ i ∈ x.jobs, i = id) →
            let open_ := lookD (core t (coreOf th)).chans n {}
            open_.wm = (lookD (core s (coreOf th)).chans n {}).limit ∧ open_.fill = [])
        ∧ (c.nrec = true → (core t j.core).landing = (core s j.core).landing ∧ (core t j.core).heldRecs = (core s j.core).heldRecs)
        ∧ (c.nrec = false → ∃ (r : LandEntry) (ws : List Nat), r.kind = 0x10 ∧ r.len = 32 ∧ r.prio = c.prio ∧ r.ctx = j.ctx ∧ r.stid = j.stid ∧ r.data = wordBytes ws
          ∧ ws.length = 4 ∧ (j.status < 2 ^ 8 → ws.getD 0 0 / 2 ^ 56 = 0x10 ∧ ws.getD 0 0 / 2 ^ 48 % 2 ^ 8 = j.status)
          ∧ ws.getD 0 0 % 2 ^ 32 = c.tag ∧ ws.getD 0 0 / 2 ^ 36 % 2 ^ 4 = c.chan ∧ ws.getD 1 0 = j.n % 2 ^ 48
          ∧ ws.getD 3 0 / 2 ^ 48 = j.refc
          ∧ (room → (core t j.core).landing = (core s j.core).landing ++ [r])
          ∧ (¬room → (core t j.core).heldRecs = (core s j.core).heldRecs ++ [r]))

/-- R202, R203: the rank order holds every masked position once, by key descending and position ascending; a round commits as
many as its rule gives, and sets the map bits of the committed granules, of those within W from layer l0 on, and of all in a
refresh round. The engine reads the mask, the confidences, the schedule's entry and the candidates, each once it has what it
calls for, and then writes in one access, in order (log 27: DESIGN CHOICE); a read that fails leaves nothing committed. When the
round is over the job leaves the engine and posts its record. What the record's counts read after a failure is open (log 27). -/
def Obligations.MarkingRounds : Prop :=  (∀ (l : List (Nat × FVal)), l.Pairwise (fun x y => x.1 < y.1) → (∀ x ∈ l, x.2 ≠ .nan) →
      (ranked l).Perm l ∧ (ranked l).Pairwise fun x y => flt y.2 x.2 = true ∨ (flt x.2 y.2 = false ∧ x.1 < y.1))
  ∧ (∀ (m : Marking) (rank : List (Nat × FVal)) (n : Nat),
    let q := rank.length
    (m.rule = 0 → commits m rank n = min (m.parm % 2 ^ 13) q)
    ∧ (m.rule = 1 → m.parm % 2 ^ 32 ≠ 0 → m.parm < 2 ^ 64 →
      let num := m.parm / 2 ^ 32
      let den := m.parm % 2 ^ 32
      let k := commits m rank n
      k ≤ q ∧ (k < q → num * q ≤ k * den) ∧ (0 < k → (k - 1) * den < num * q))
    ∧ (m.rule = 2 → let k := (rank.filter fun x => !flt x.2 (fval f32 m.parm)).length
      commits m rank n = if m.alo = true ∧ k = 0 ∧ 0 < q then 1 else k)
    ∧ (m.rule = 3 → commits m rank n = min n q))
  ∧ (∀ (m : Marking) (done : List Nat) (l h : Nat), mapBit m done l h = true ↔
    (∃ i ∈ done, i / 16 = h) ∨ (m.l0 ≤ l ∧ ∃ i ∈ done, i / 16 ≤ h + m.w ∧ h ≤ i / 16 + m.w) ∨ (0 < m.p ∧ m.rnd % m.p = 0))
  ∧ ∀ (s : State) (c id : Nat) (rest : List Nat) (j : Job), s.power = true → (cmpt s c).markQ = id :: rest → look s.jobs id = some j →
    let m := markingOf j.card
    let field (v n o : Nat) : Nat := v / 2 ^ (8 * o) % 2 ^ (8 * n)
    let words (got : List Nat) (i n count : Nat) : List Nat := (List.range count).map fun k => field (got.getD i 0) n (n * k)
    let maskWords := (m.n + 63) / 64
    let maskedIn (got : List Nat) : List Nat := (List.range m.n).filter fun i => (got.getD 0 0).testBit i
    let conf (got : List Nat) : List FVal := (words got 1 4 (maskedIn got).length).map (fval f32)
    let rank (got : List Nat) : List (Nat × FVal) :=
      ranked (((maskedIn got).zip (conf got)).map fun x => (x.1, if x.2 = .nan then .inf true else x.2))
    let done (got : List Nat) : List Nat := ((rank got).take (commits m (rank got) (got.getD 2 0))).map (·.1)
    -- the width and the addresses of the next read
    let next (got : List Nat) : Nat × List Nat :=
      if got.length = 0 then (8, (List.range maskWords).map fun k => m.mask + 8 * k)
      else if got.length = 1 then (4, (maskedIn got).map fun i => m.conf + 4 * i)
      else if got.length = 2 then (4, if m.rule = 3 then [m.sched.2 + 4 * min m.rnd (m.sched.1 - 1)] else [])
      else (4, (done got).map fun i => m.cand + 4 * i)
    let edits (got : List Nat) : List MarkWrite := markWrites m (words got 0 8 maskWords) (done got) (words got 3 4 (done got).length)
    let home (o va n : Nat) : List Piece := ((pageParts j.pages va n).getD []).map fun p => { p with off := p.off + o }
    let sends (x : Job) (ps : List Piece) (ordered : Prop) (op : Nat → Nat → ReqOp) : Prop := Does s (.markJobRun c) fun t => SameMemory s t
      ∧ (cmpt t c).markQ = id :: rest ∧ ∃ (a : Nat) (y : Access), look t.jobs id = some { x with acc := some (a, .round) } ∧ look t.accs a = some y
        ∧ y.agent = .job id ∧ ∀ p ∈ ps, ∀ w ∈ wordsOf p, ∃ (q : Nat) (z : Req), look t.reqs q = some z ∧ z.acc = a ∧ z.pkg = p.pkg ∧ z.pa = w.1
          ∧ z.len = w.2.1 ∧ z.off = w.2.2 ∧ z.op = op w.2.1 w.2.2 ∧ z.gen = p.gen ∧ (ordered → z.inOrder = true)
    let ends (x : Job) (status : Nat) (count : Option Nat) : Prop := rising s.jobs = true → withheld s j.ctx j.core = false → j.address < 2 ^ 52 →
      Does s (.markJobRun c) fun t => SameMemory s t ∧ (cmpt t c).markQ = rest ∧ look t.jobs id = none ∧ (∀ e ∈ (cmpt t c).entries, e.id ≠ id)
        ∧ ∃ (e : LandEntry) (ws : List Nat), e.kind = 0x11 ∧ e.len = 32 ∧ e.prio = m.prio ∧ e.ctx = j.ctx ∧ e.stid = j.stid ∧ e.data = wordBytes ws
          ∧ ws.getD 0 0 / 2 ^ 56 = 0x11 ∧ ws.getD 0 0 / 2 ^ 48 % 2 ^ 8 = status ∧ ws.getD 0 0 % 2 ^ 32 = m.rnd
          ∧ ws.getD 2 0 = j.address ∧ ws.getD 3 0 = 0
          ∧ (∀ k, count = some k → ws.getD 1 0 / 2 ^ 32 = k)
          ∧ (x.got ≠ [] → ws.getD 1 0 % 2 ^ 32 = (maskedIn x.got).length ∧ (ws.getD 0 0 / 2 ^ 40 % 2 = 1 ↔ maskedIn x.got = []))
          ∧ (2 ≤ x.got.length → (ws.getD 0 0 / 2 ^ 41 % 2 = 1 ↔ FVal.nan ∈ conf x.got))
          ∧ let room := atPrio (core s j.core) m.prio < 16 ∧ ∀ x ∈ (core s j.core).heldRecs, x.prio ≠ m.prio
            (room → (core t j.core).landing = (core s j.core).landing ++ [e])
            ∧ (¬room → (core t j.core).heldRecs = (core s j.core).heldRecs ++ [e])
    -- a read without addresses gives nothing: z of them, and then what the round does
    let goesOn (x : Job) : Prop := ∀ z : Nat, (∀ i < z, x.got.length + i < 4 ∧ (next (x.got ++ List.replicate i 0)).2 = []) →
      let y := { x with got := x.got ++ List.replicate z 0 }
      (y.got.length < 4 → (next y.got).2 ≠ [] →
        sends y (joinPieces ((List.range (next y.got).2.length).flatMap fun i =>
          home (i * (next y.got).1) ((next y.got).2.getD i 0) (next y.got).1)) False fun _ _ => .read)
      ∧ (y.got.length = 4 →
        let es := edits y.got
        let place (i : Nat) : Nat := ((es.take i).map MarkWrite.n).sum
        let bad := ∃ w ∈ es, ∃ p ∈ home 0 w.va w.n, markUnread s w p = true
        (es = [] → ends y 0 (some 0))
        ∧ (bad → ends y 5 (some 0))
        ∧ (es ≠ [] → ¬bad → sends y ((List.range es.length).flatMap fun i => (es[i]?.map fun w => home (place i) w.va w.n).getD []) True fun n o =>
          match (List.range es.length).findSome? fun i => es[i]?.bind fun w => if place i ≤ o ∧ o < place i + w.n then some (place i, w) else none with
          | some (p, w) => if w.or_ = true then .amo 2 (field w.v n (o - p)) else .write (field w.v n (o - p))
          | none => .read))
    (j.acc = none → engineHeld s j.tid j.before = true → exec (.markJobRun c) s = .next s)
    ∧ (j.acc = none → engineHeld s j.tid j.before = false → j.got.length ≤ 4 → goesOn j)
    ∧ ∀ a st x, j.acc = some (a, st) → look s.accs a = some x →
      let j' := { j with acc := none }
      (x.left ≠ 0 ∨ x.replies ≠ 0 → exec (.markJobRun c) s = .next s)
      ∧ (x.left = 0 → x.replies = 0 → (x.poisoned = true ∨ x.stale = true) →
        ends j' (if x.poisoned = true then 5 else 4) (if 4 ≤ j.got.length then none else some 0))
      ∧ (x.left = 0 → x.replies = 0 → x.poisoned = false → x.stale = false →
        (j.got.length < 4 → goesOn { j' with got := j.got ++ [x.val] })
        ∧ (4 ≤ j.got.length → ends j' 0 (some (done j.got).length)))

/-- R204, R406, R407, R408: `grd.cfg` binds an empty set, `grd.in` enters its pair in the tile's queue as a store that is not
yet acknowledged, the grader puts the oldest pair in its place among the k greatest, and `grd.out` writes the k entries, those
beyond the count as key 0 and index 0xFFFF_FFFF, gives the count when they are written and with `.fin` frees the set. A set of
another context is the partition fault. (log 45: DEDUCED) R195, R196, R197, R410, R411: `rng` gives the noise bits of the
captured seed, and `gnz` the order key of the perturbed value with its index, or key 0 and index 0xFFFF_FFFF for an excluded, a
NaN or a −∞ one, with its two flags; both are malformed where a word that must be narrow is not. -/
def Obligations.GradingAndNoise : Prop :=
  (∀ (s : State) (d a b : Reg) (tl n : Nat),
     let t := issuer s
     let set := look (tile s tl).sets n
     (Single s → Ready s .u [a, b, d] → tl = tileOf s.cur → n = (reg s a).toNat → n < 4 →
       (∀ k, k = (reg s b).toNat → 1 ≤ k → k ≤ 256 →
         ((∃ g, set = some g ∧ g.ctx ≠ t.ctx) → Faults s (.grdCfg a b) .partition)
         ∧ ((∀ g, set = some g → g.ctx = t.ctx) → Does s (.grdCfg a b) fun u => Past s u ∧ SameMemory s u
           ∧ look (tile u tl).sets n = some { ctx := t.ctx, launch := t.launch, k := k }))
       ∧ (set = none → Faults s (.grdIn a b) .malformedStructure ∧ Faults s (.grdOutKeep d a b) .malformedStructure
         ∧ Faults s (.grdOutFin d a b) .malformedStructure)
       ∧ ∀ g, set = some g → g.ctx = t.ctx →
         (orderHeld (base s) s.cur [] false = false → (tile s tl).gradeQ.length < 32 →
           Does s (.grdIn a b) fun u => Past s u ∧ SameMemory s u ∧ (tile u tl).gradeQ = (tile s tl).gradeQ ++ [(s.ids, n, reg s b)]
             ∧ ∃ x, look u.accs s.ids = some x ∧ x.tid = s.cur ∧ x.ctx = t.ctx ∧ x.covered = true ∧ x.posted = true ∧ x.left = 1)
         ∧ ∀ fin, (reg s b).toNat % 8 = 0 → rising (tile s tl).sets = true →
           ((tile s tl).gradeQ.any fun q => (look s.accs q.1).any fun x => x.tid == s.cur) = false →
           let i : Instr := if fin = true then .grdOutFin d a b else .grdOutKeep d a b
           Asks s i .store (reg s b) (8 * g.k) .tier
           ∧ (∀ ps t, (issuer s).own = none → g.best.length ≤ g.k → ownStore (base s) s.cur (reg s b) (8 * g.k) .store .tier = .ok ps (base s) →
             exec i s = .next t → ∀ r ∈ t.reqs, r ∉ s.reqs → ∃ v, r.2.op = .write v ∧ ∀ j < g.k, r.2.off = 8 * j → r.2.len = 8 →
               v = ((g.best[j]?).map BitVec.toNat).getD 0xFFFF_FFFF)
           ∧ ∀ v, Had s v → Does s i fun u => Gives s u d (BitVec.ofNat 64 g.best.length) ∧ SameMemory s u
             ∧ look (tile u tl).sets n = if fin = true then none else some g)
     ∧ ∀ i v rest x g, s.power = true → (tile s tl).gradeQ = (i, n, v) :: rest → look s.accs i = some x → set = some g → g.ctx = x.ctx →
       rising s.accs = true → g.best.Pairwise (fun y z => better z y = false) →
       Does s (.graderAccept tl) fun u => SameMemory s u ∧ (tile u tl).gradeQ = rest ∧ look u.accs i = none
         ∧ ∃ (g' : GradeSet) (l : List Word), look (tile u tl).sets n = some g' ∧ g'.k = g.k ∧ g'.accepted = g.accepted + 1 ∧ g'.best = l.take g.k
           ∧ l.Perm (v :: g.best) ∧ l.Pairwise fun y z => better z y = false)
  ∧ (∀ (s : State) (d a b : Reg) (e g : BitVec 1),
       let mix (z : BitVec 64) : BitVec 64 :=
         let z := (z ^^^ (z >>> 31)) * 0xD6E8_FEB8_6659_FD93
         let z := (z ^^^ (z >>> 29)) * 0xA3B1_9535_4A39_B70D
         z ^^^ (z >>> 32)
       let seed := match (issuer s).launch.bind (look s.launches) with | some l => l.seed | none => (ctx s (issuer s).ctx).seed
       let noise (x y : Word) (v : BitVec 32) : Word :=
         mix (mix (mix (seed ^^^ 0x5C4E_2B17_93D1_A6F3) ^^^ BitVec.setWidth 64 (x.extractLsb' 0 32)) ^^^ (y.extractLsb' 32 32 ++ v))
       let va := reg s a
       let vb := reg s b
       let s2 := reg s (b + 1)
       (Ready s .u [a, b, d] →
         (vb.toNat < 2 ^ 32 → exec (.rng d a b) s = .next (lands s 4 0 d (noise va va (vb.setWidth 32)) 8))
         ∧ (2 ^ 32 ≤ vb.toNat → Faults s (.rng d a b) .malformedStructure))
       ∧ (Ready s .u [a, b, b + 1, d, d + 1] →
         (2 ^ 32 ≤ s2.toNat → Faults s (.gnz d a b e g) .malformedStructure)
         ∧ (s2.toNat < 2 ^ 32 →
           let l := fval f32 (va.toNat % 2 ^ 32)
           let h := ((noise vb vb (va.extractLsb' 32 32)).extractLsb' 40 24).toNat
           let z := perturbed (g == 1) l (fval f32 s2.toNat) (noiseGumbel seed (vb.toNat % 2 ^ 32) (vb.toNat / 2 ^ 32) (va.toNat / 2 ^ 32))
           let nan := fval f32 z == .nan
           let ex := e == 1 || nan || fval f32 z == .inf true
           (bits (noiseBits seed (vb.toNat % 2 ^ 32) (vb.toNat / 2 ^ 32) (va.toNat / 2 ^ 32)).toNat 63 40 = h)
           ∧ Does s (.gnz d a b e g) fun t => Past s t ∧ SameMemory s t
             ∧ Lands s t d (if ex then 0xFFFF_FFFF else BitVec.ofNat 64 (orderKey 8 false (BitVec.ofNat 64 z) * 2 ^ 32 + va.toNat / 2 ^ 32)) 24
             ∧ Lands s t (d + 1) (BitVec.ofNat 64 ((if nan then 2 else 0) + (if ex then 1 else 0))) 24)))

/-- R190, R191, R192: two packets of one reduction combine as R191 says, and neither the order nor the grouping of what is
combined changes the result. -/
def Obligations.Combining : Prop :=  ∀ p q r : RedPacket, p.op = q.op → q.op = r.op → p.red = q.red → q.red = r.red →
    let v (x : RedPacket) : BitVec 64 := x.key ++ x.idx
    let c := combine p q
    c = combine q p ∧ combine c r = combine p (combine q r)
    ∧ c.cnt = min (p.cnt + q.cnt) 0xFF_FFFF ∧ c.nan = (p.nan || q.nan) ∧ c.op = p.op ∧ c.red = p.red ∧ c.cand = (p.cand || q.cand)
    ∧ (p.op = 0 →
      (p.cand = false → q.cand = false → c.key = 0 ∧ c.idx = 0xFFFF_FFFF)
      ∧ (p.cand = true → (q.cand = false ∨ q.key < p.key ∨ (p.key = q.key ∧ p.idx < q.idx)) → c.key = p.key ∧ c.idx = p.idx)
      ∧ (q.cand = true → (p.cand = false ∨ p.key < q.key ∨ (p.key = q.key ∧ ¬p.idx < q.idx)) → c.key = q.key ∧ c.idx = q.idx))
    ∧ (p.op = 1 → v c = v p + v q) ∧ (p.op = 2 → v c = if (v q).slt (v p) then v q else v p)
    ∧ (p.op = 3 → v c = if (v p).slt (v q) then v q else v p) ∧ (p.op = 4 → v c = v p &&& v q) ∧ (p.op = 5 → v c = v p ||| v q)
    ∧ (p.op = 6 → v c = v p ^^^ v q)

/-- R192, R412, R413, R414: `smp.inj` enters the packet of its operands in the send queue, `smp.res.cfg` the reduction of its
block at the issuing core under the thread's next sequence number; a packet that reaches its owner combines with what came
before, or sets the mismatch flag when its op is another, and `smp.res` reads the value and the status word, releasing a final
result that has no copy left to send. The block comes from the core's own store, in an access that the instruction makes first
(log 45: DEDUCED). What a reduction reads before its first packet is open (log 28). -/
def Obligations.Reductions : Prop :=  ∀ (s : State) (d a b : Reg), Single s →
    let c := coreOf s.cur
    let v := (reg s a).toNat
    let red := v % 2 ^ 28
    let own := v / 2 ^ 39 % 2 ^ 14
    let pkg := v / 2 ^ 54 % 2 ^ 6
    let away := v / 2 ^ 53 % 2 = 1 ∧ pkg ≠ s.pkg
    (Ready s .u [a, b, b + 1] → v / 2 ^ 60 ≤ 6 → (v / 2 ^ 53 % 2 = 1 ∨ pkg = 0) → v / 2 ^ 28 % 2 ^ 11 = 0 →
      (reg s (b + 1)).toNat < 4 → (core s c).sendQ.length < 16 →
      ∀ o : Nat, (away → own < Config.remoteCores (issuer s).ctx pkg ∧ o = awayCore pkg own) →
      (¬away → physCore (base s) s.cur own = some o) →
      Does s (.smpInj a b) fun t => Past s t ∧ SameMemory s t ∧ ∃ (e : SendEntry) (r : RedPacket), (core t c).sendQ = (core s c).sendQ ++ [e]
        ∧ e.bodies = [(.red r own (if away then pkg else s.pkg) (issuer s).launch, o)] ∧ e.cls = .request ∧ e.tid = some s.cur
        ∧ r.cnt = 1 ∧ r.op = v / 2 ^ 60 ∧ r.red = red ∧ r.nan = (reg s (b + 1)).getLsbD 1
        ∧ if r.op = 0 ∧ (reg s (b + 1)).getLsbD 0 = true then r.cand = false ∧ r.key = 0 ∧ r.idx = 0xFFFF_FFFF
          else r.cand = true ∧ r.key ++ r.idx = reg s b)
    ∧ (Ready s .u [a, b, d] → v / 2 ^ 28 % 2 ^ 32 = 0 → v / 2 ^ 60 ≤ 6 → (reg s b).toNat % 32 = 0 →
      Asks s (.smpResCfg d a b) .load (reg s b) 32 .tier ∧ ∀ x, Had s x →
      let w (i : Nat) := x / 2 ^ (64 * i) % 2 ^ 64
      1 ≤ w 0 / 2 ^ 40 → w 0 % 2 ^ 28 = 0 → w 1 < 2 ^ 32 →
      (∀ p < 64, (w 2).testBit p = true → p ≠ s.pkg → Config.remoteCores (issuer s).ctx p ≠ 0) → w 3 = 0 → redOf (core s c) red = none →
      (receivers (base s) s.cur (w 1) (w 0 / 2 ^ 28 % 2 ^ 9) false).isSome = true → (core s c).reds.length < 16 →
      let q := (issuer s).sendSeq + 1
      Does s (.smpResCfg d a b) fun t => Gives s t d (q.setWidth 64) ∧ SameMemory s t ∧ (thr t s.cur).sendSeq = q
        ∧ ∃ r : Reduction, (core t c).reds = (core s c).reds ++ [r] ∧ r.red = red ∧ r.op = v / 2 ^ 60 ∧ r.n = w 0 / 2 ^ 40 ∧ r.seq = q
          ∧ r.cmask = w 1 ∧ r.pmask = w 2 ∧ r.acc = none ∧ r.mis = false)
    ∧ (∀ (r : Reduction) (p : RedPacket), Ready s .u [a, d, d + 1] → redOf (core s c) red = some r → r.acc = some p →
      let fin := decide (r.n ≤ p.cnt)
      let lost := fin && !p.cand
      let value : Word := if lost then 0xFFFF_FFFF else p.key ++ p.idx
      let reads (t : State) : Prop := Past s t [d, d + 1] ∧ SameMemory s t ∧ (d ≠ 0 → getX (thr t s.cur) d.toNat = value)
        ∧ ∃ y : Word, (d ≠ 31 → getX (thr t s.cur) (d + 1).toNat = y) ∧ (y.extractLsb' 40 24).toNat = min p.cnt 0xFF_FFFF
          ∧ y.getLsbD 39 = p.cand ∧ y.getLsbD 38 = p.nan ∧ y.getLsbD 37 = r.mis ∧ y.getLsbD 36 = lost ∧ y.getLsbD 35 = fin
          ∧ y.extractLsb' 0 35 = 0
      (Does s (.smpResNw d a) fun t => reads t ∧ (fin = true → r.copies = 0 → redOf (core t c) red = none))
      ∧ (fin = true → Does s (.smpResW d a) fun t => reads t ∧ (r.copies = 0 → redOf (core t c) red = none)))
    ∧ ∀ (n m : Nat) (x y : Packet) (p : RedPacket) (own pkg : Nat) (l : Option Nat), s.power = true → look s.packets n = some x → x.body = .red p own pkg l → rising s.packets = true →
      (x.stage = .ready → Does s (.reductionCombine n n) fun t => look t.packets n = none
        ∧ ∀ r : Reduction, redOf (core s x.core) p.red = some r → ∃ r' : Reduction, redOf (core t x.core) p.red = some r'
          ∧ (r.op ≠ p.op → r'.acc = r.acc ∧ r'.mis = true)
          ∧ (r.op = p.op → r'.mis = r.mis ∧ r'.acc = some (match r.acc with | some q => combine q p | none => p)))
      ∧ ∀ q : RedPacket, n ≠ m → look s.packets m = some y → y.body = .red q own pkg l → x.core = y.core → p.op = q.op → p.red = q.red →
        p.cnt + q.cnt ≤ 0xFF_FFFF → x.stage ≠ .sending → y.stage ≠ .sending →
        Does s (.reductionCombine n m) fun t => look t.packets m = none
          ∧ look t.packets n = some { x with body := .red (combine p q) own pkg l }


/-! ## Exceptions, state registers and privileged instructions -/
/-- R221-R224: a cause that traps saves the address, the code, the value and the privilege, sets IT and S, and goes on at the
vector of the context, where the streams read their elements again at S (R321); a cause that contains, and any cause inside a
handler or at F, halts the thread at the address with its registers and prefix kept and sends the compartment's ranger one
message. No byte of memory and no other thread changes. R222, R223, R415: `trap` and `sysc` take their traps with x[A] as the
value and the next instruction as TEPC, and inside a handler or at F are contained as a double fault; `tret` clears IT and goes
on at TEPC with the privilege of PPRV, an odd TEPC is the alignment fault (R275), and one that would return to F or to no level
from S is contained. The value that a double fault carries is the model's reading (log 26). -/
def Obligations.TakingExceptions : Prop :=
  ((∀ x ∈ [(Cause.addressForm, 0x01, false), (.translationInvalid, 0x02, false), (.malformedEntry, 0x03, false),
       (.permission, 0x04, false), (.kind, 0x05, false), (.tier, 0x06, false), (.partition, 0x07, false),
       (.staleGeneration, 0x08, false), (.windowAccess, 0x09, false), (.alignment, 0x0A, false), (.malformedStructure, 0x0B, false),
       (.physicalRange, 0x0C, true), (.netAddress, 0x0D, false), (.netMalformed, 0x0E, false), (.netPool, 0x0F, false),
       (.crewMembership, 0x11, false), (.crewBusy, 0x12, false), (.crewLimit, 0x13, false), (.barrierPhase, 0x14, false),
       (.overArrival, 0x15, true), (.waitCount, 0x16, false), (.illegalEncoding, 0x17, true), (.illegalPfx, 0x18, true),
       (.privilege, 0x19, true), (.memoryError, 0x1A, true), (.pairMismatch, 0x1B, true), (.residueUnavailable, 0x1C, false),
       (.doubleFault, 0x1D, true), (.preEmption, 0x20, false), (.systemCall, 0x21, false), (.trap, 0x22, false)],
     x.1.code = x.2.1 ∧ x.1.contains = x.2.2
     ∧ x.1.vector = if x.1 = .preEmption then 0x040 else if x.1 = .systemCall then 0x080 else if x.1 = .trap then 0x0C0 else 0)
   ∧ ∀ (s : State) (n : Nat) (c : Cause) (val pc : Word),
     let t := thr s n
     let u := takeFault s n c val pc
     let held := c.contains = true ∨ t.it = true ∨ t.prv = .f
     let k := if c.contains then c else .doubleFault
     SameMemory s u ∧ (∀ m : Nat, m ≠ n → thr u m = thr s m)
     ∧ (¬held → thr u n =
         { discardAhead t with
           tepc := pc, tca := BitVec.ofNat 8 c.code, tval := val, pprv := prvBits t.prv, it := true, prv := .s
           pc := (ctx s t.ctx).tvb + BitVec.ofNat 64 c.vector, park := none, net := none, own := none, turn := (thr u n).turn }
       ∧ (cmpt u (cmptOf n)).faultNet = (cmpt s (cmptOf n)).faultNet)
     ∧ (held → thr u n = { t with life := .contained, pc := pc, park := none, net := none, own := none, why := some k }
       ∧ ∃ m : FaultMsg, (cmpt u (cmptOf n)).faultNet = (cmpt s (cmptOf n)).faultNet ++ [m] ∧ m.cause = k ∧ m.ctx = t.ctx ∧ m.ptid = n % 262144
         ∧ m.pc = pc ∧ m.val = val ∧ m.lt = t.lt ∧ m.prv = t.prv ∧ m.nth = false ∧ m.inst = t.ir ∧ m.ts = timeAt s m.src ∧ m.src = 64 * cmptOf n
         ∧ m.cgen = (ctx s t.ctx).cgen ∧ m.inj = (decide (k = .memoryError) && t.injSeen)))
  ∧ (∀ (s : State) (a : Reg),
       let t := issuer s
       (Ready s .u [a] →
         ∀ x ∈ [(Instr.trap a, Cause.trap), (.sysc a, .systemCall)],
         (t.it = false → t.prv ≠ .f → exec x.1 s = .next (enterTrap (base s) s.cur x.2 (reg s a) (nextAt s 4)))
         ∧ (t.it = true ∨ t.prv = .f → exec x.1 s = .next (contain (base s) s.cur .doubleFault (reg s a) t.pc)))
       ∧ (Ready s .s [] →
         (∀ p : Prv, t.pprv = prvBits p → (p ≠ .f ∨ t.prv = .f) →
           (t.tepc.getLsbD 0 = true → exec .tret s = .next (takeFault (atFault s) s.cur .alignment t.tepc t.pc))
           ∧ (t.tepc.getLsbD 0 = false → Does s .tret fun u => SameMemory s u ∧
           (thr u s.cur).it = false ∧ (thr u s.cur).prv = p ∧ (thr u s.cur).pc = t.tepc ∧ ∀ r : Nat, getX (thr u s.cur) r = getX t r))
         ∧ (t.pprv.toNat = 3 ∨ (t.pprv.toNat = 2 ∧ t.prv ≠ .f) → exec .tret s = .next (contain (atFault s) s.cur .privilege 0 t.pc))))

/-- R211, R286, R288: the checks of any instruction stand in this order: the privilege, the pending prefix, the scoreboard. The
first that fails decides, and nothing of the instruction takes place. R220, R253: every privileged instruction below the
privilege that it needs is contained with the privilege cause. R287 item 1: the reserved majors and OP5 0x00 are no instruction;
bits that are none are the illegal-encoding cause, contained at the instruction (R224). -/
def Obligations.IssueChecks : Prop :=
  (∀ (s : State) (f : Form) (body : List Word → State → Eff × State), s.power = true →
     let t := issuer s
     let refused := ∃ p : BitVec 10, pendingPfx t = some p ∧ ∀ g : Nat → Bool, f.accepts = some g → g p.toNat = false
     (allows f.prv t.prv = false → issue f body s = .next (contain (atFault s) s.cur .privilege 0 t.pc))
     ∧ (allows f.prv t.prv = true → refused → issue f body s = .next (contain (atFault s) s.cur .illegalPfx (t.pfx.setWidth 64) t.pc))
     ∧ (allows f.prv t.prv = true → ¬refused → noBoard s t = false → pendingOn t (f.reads ++ f.writes) = true →
       issue f body s = .next (takeFault (atFault s) s.cur .waitCount 0 t.pc)))
  ∧ (∀ (s : State) (d a b : Reg) (r : BitVec 7) (w : BitVec 3) (i : Instr), s.power = true →
       (i ∈ [Instr.tret, .tlbInv a b, .recast d a b] ∨ (i = .srd d r ∧ 5 ≤ r.toNat ∧ r.toNat ≤ 8)
         ∨ (i = .swr d a r ∧ (r.toNat = 0 ∨ (4 ≤ r.toNat ∧ r.toNat ≤ 8) ∨ r.toNat = 10)) → (issuer s).prv = .u →
         exec i s = .next (contain (atFault s) s.cur .privilege 0 (issuer s).pc))
       ∧ (i ∈ [Instr.tkill d a, .tscrub d a, .winMap d a, .winRd d a, .winWr d a b, .eccInj a b, .halt d a b, .rnsmap d a b w] → (issuer s).prv ≠ .f →
         exec i s = .next (contain (atFault s) s.cur .privilege 0 (issuer s).pc)))
  ∧ ((∀ (r : Raw32) (m : Nat), r.op.toNat = 2 * m + 1 →
       m ∈ [0x00, 0x13, 0x27, 0x2C, 0x2D, 0x2E, 0x2F] ∨ 0x34 ≤ m → decodeRaw32 r = .error .reservedMajor)
     ∧ (∀ r : Raw16, r.op = 0 → decodeRaw16 r = .error .reservedMajor)
     ∧ ∀ (s : State) (b : BitVec 32), s.power = true →
       exec (.illegalEncoding b) s
         = .next (contain (setThr s s.cur { issuer s with ir := b, streams := afterFault (before (issuer s)) }) s.cur .illegalEncoding 0 (issuer s).pc))

/-- R253-R256, R416: `srd` reads the state registers by their layouts; `swr` gives the old value, writes what R253 and R254 let
it write, clears the flags of FPC that it writes as 1, and leaves a read-only register as it is. A write of SEED parks the
thread until it is performed. That 0b11 leaves PPRV as it is, that a write of TCA keeps its code whole, and how SEED is written,
are the model's readings (log 33, log 38). -/
def Obligations.StateRegisters : Prop :=  ∀ (s : State) (d a : Reg) (r : BitVec 7), r.toNat < 12 → (r.toNat = 1 → ∀ p ∈ (issuer s).pend, p.fp = false ∨ p.sfu = true) →
    let t := issuer s
    let n := r.toNat
    let v := reg s a
    let f := t.flags
    let prvS (n : Nat) : Prv := if 5 ≤ n ∧ n ≤ 8 then .s else .u
    let prvW (n : Nat) : Prv := if n = 0 ∨ (4 ≤ n ∧ n ≤ 8) ∨ n = 10 then .s else .u
    let holds (w : Word) : Prop :=
      (n = 0 → w = 0#32 ++ (t.pfx ++ BitVec.ofBool t.pp ++ BitVec.ofBool t.it ++ t.pprv ++ prvBits t.prv ++ BitVec.ofBool t.lt
        ++ BitVec.ofBool t.trl ++ BitVec.ofBool t.det ++ BitVec.ofBool t.fixt ++ t.qb ++ 0#8))
      ∧ (n = 1 → w = 0#48 ++ (BitVec.ofBool f.spz ++ BitVec.ofBool f.nxa ++ BitVec.ofBool f.nv ++ BitVec.ofBool f.dz
        ++ BitVec.ofBool f.ofl ++ BitVec.ofBool f.ufl ++ BitVec.ofBool f.nx ++ 0#6 ++ t.rm))
      ∧ (n = 2 → w = BitVec.ofNat 64 (logicalTid (base s) s.cur)) ∧ (n = 3 → w = t.wsp)
      ∧ (n = 4 → w.extractLsb' 32 32 = t.depth ∧ w.extractLsb' 3 29 = 0 ∧ w.getLsbD 1 = t.olive ∧ w.getLsbD 0 = t.cur
        ∧ (w.getLsbD 2 = true ↔ 0 < t.spilled ∨ ∃ x : Nat, t.park = some (.again .refill x)))
      ∧ (n = 5 → w = (ctx s t.ctx).tvb) ∧ (n = 6 → w = t.tca.setWidth 64) ∧ (n = 7 → w = t.tepc) ∧ (n = 8 → w = t.tval)
      ∧ (n = 9 → ∀ i < 4, (w.extractLsb' (16 * i) 16).toNat = match t.crew[i]? with | some (some c) => 0x8000 + c % 0x8000 | _ => 0)
      ∧ (n = 10 → w = match t.launch.bind (look s.launches) with | some l => l.seed | none => (ctx s t.ctx).seed)
      ∧ (n = 11 → w = BitVec.ofNat 64 (cyc s))
    (Ready s (prvS n) [d] → ∃ w, exec (.srd d r) s = .next (writes s 4 d w) ∧ holds w)
    ∧ (Ready s .s [a, d] → n = 10 → (∀ x : Nat, t.park ≠ some (.again .seed x)) → Does s (.swr d a r) fun u =>
      SameMemory s u ∧ (thr u s.cur).pc = t.pc ∧ u.ctxs = s.ctxs ∧ ∃ x, (thr u s.cur).park = some (.again .seed x))
    ∧ (Ready s (prvW n) [a, d] → (n = 4 → t.spilled = 0 ∧ ∀ x : Nat, t.park ≠ some (.again .refill x)) →
      (n = 10 → ∃ x : Nat, t.park = some (.again .seed x)) →
      ∃ (w : Word) (x : Thread) (k : State), exec (.swr d a r) s = .next (goes s k (setX (overtake x d (cyc s)) d.toNat w) (nextAt s 4)) ∧ holds w
        ∧ (n ≠ 5 → n ≠ 10 → k = s)
        ∧ (n = 5 → k = setCtx s t.ctx { ctx s t.ctx with tvb := v &&& 0x000F_FFFF_FFFF_FF00 })
        ∧ (n = 10 → k = setCtx s t.ctx { ctx s t.ctx with seed := v })
        ∧ ((n = 2 ∨ n = 5 ∨ 9 ≤ n) → x = t)
        ∧ (n = 0 → x = { t with pfx := if v.extractLsb' 28 4 < 14 ∧ v.extractLsb' 24 4 ≠ 14 ∧ v.extractLsb' 22 2 ≠ 3 then v.extractLsb' 22 10 else t.pfx
                                pp := v.getLsbD 21, it := v.getLsbD 20, pprv := if v.extractLsb' 18 2 = 3 then t.pprv else v.extractLsb' 18 2 })
        ∧ (n = 1 → x = { t with
            flags := { spz := f.spz && !v.getLsbD 15, nxa := f.nxa && !v.getLsbD 14, nv := f.nv && !v.getLsbD 13, dz := f.dz && !v.getLsbD 12
                       ofl := f.ofl && !v.getLsbD 11, ufl := f.ufl && !v.getLsbD 10, nx := f.nx && !v.getLsbD 9 }
            rm := if (v.extractLsb' 0 3).toNat < 6 then v.extractLsb' 0 3 else t.rm })
        ∧ (n = 3 → x = { t with wsp := v &&& 0x000F_FFFF_FFFF_FFF8 }) ∧ (n = 4 → x = { t with depth := v.extractLsb' 32 32, olive := v.getLsbD 1 })
        ∧ (n = 6 → x = { t with tca := v.setWidth 8 }) ∧ (n = 7 → x = { t with tepc := v }) ∧ (n = 8 → x = { t with tval := v }))

/-- R225, R417, R418: `tkill` and `tscrub` on a physical thread, and the window on a contained one: `win.rd` reads its
registers, PC and trap registers, `win.wr` writes them (an odd PC or resume word is the alignment fault, R275, and a register
that names a stream neither is read nor takes one, R251), the resume word starts it again, and a target that is not contained
reads 0 and takes nothing. A thread inside `link` is killed when that completes, and `tkill` parks until then. R54, R230, R419,
R420, R421: `ecc.inj` issues one access, for which the thread waits, that writes a word with its check byte (Services),
`tlb.inv` leaves no translation that it names in the caches of its scope and keeps the others, and `halt` hands over the oldest
fault message, whose bytes it first stores in its own store (log 45: DEDUCED), or gives 0 from the deadline on. That win.wr
clears the FPC flags whose bits are 1 is the model's reading of a write (log 33: DEDUCED). -/
def Obligations.FirmwareInstructions : Prop :=
  (∀ (s : State) (d a b : Reg), Single s → Ready s .f [a, b, d] →
     let n := (reg s a).toNat
     let v := reg s b
     let gone (t : State) (w : Word) (single : Prop) : Prop := (thr t s.cur).pc = nextAt s 4
       ∧ (n ≠ s.cur ∨ w ≠ 0 → d ≠ 0 → getX (thr t s.cur) d.toNat = w) ∧ (n ≠ s.cur → single → RestKept s t [d])
     (n < 2 ^ 18 →
       ((∀ x : Nat, (issuer s).park ≠ some (.again .kill x)) →
         ((thr s n).life = .free → exec (.tkill d a) s = .next (writes s 4 d 0))
         ∧ ((thr s n).life ≠ .free → (∀ m ∈ halves s n, inLink (thr s m) = false) → Does s (.tkill d a) fun t =>
           gone t 1 ((thr s n).lt = false) ∧ ((thr t n).life = .killed ∨ (thr t n).life = .free))
         ∧ ((thr s n).life ≠ .free → (∃ m ∈ halves s n, inLink (thr s m) = true) → Does s (.tkill d a) fun t => SameMemory s t
           ∧ (thr t s.cur).pc = (issuer s).pc ∧ (∃ x, (thr t s.cur).park = some (.again .kill x))
           ∧ ∀ m ∈ halves s n, inLink (thr s m) = true → (thr t m).doomed = true))
       ∧ (∀ x : Nat, (issuer s).park = some (.again .kill x) → (∀ m ∈ halves s n, inLink (thr s m) = true → (thr s m).doomed = false) →
         exec (.tkill d a) s = .next (writes s 4 d 1))
       ∧ ((thr s n).life = .run ∨ (thr s n).life = .moving → exec (.tscrub d a) s = .next (writes s 4 d 1))
       ∧ ((thr s n).life ≠ .run → (thr s n).life ≠ .moving → Does s (.tscrub d a) fun t => gone t 0 True
         ∧ (∀ r : Nat, getX (thr t n) r = 0) ∧ (thr t n).win0 = [] ∧ (thr t n).win1 = [] ∧ tsWord (thr t n) = 0 ∧ fpcWord (thr t n) = 0
         ∧ wcw { thr t n with park := none } = 0 ∧ (thr t n).streams = [] ∧ (thr t n).millSeq = 0 ∧ (thr t n).life = (thr s n).life)
       ∧ Does s (.winMap d a) fun t => Gives s t d (if (thr s n).life = .contained then 0 else 1) ∧ (thr t s.cur).winTarget = some n)
     ∧ (2 ^ 18 ≤ n → Faults s (.tkill d a) .malformedStructure ∧ Faults s (.tscrub d a) .malformedStructure
       ∧ Faults s (.winMap d a) .malformedStructure)
     ∧ (n = 0 ∨ 0x27 < n → Faults s (.winRd d a) .malformedStructure ∧ Faults s (.winWr d a b) .malformedStructure)
     ∧ (n = 0x20 → v.getLsbD 17 = true → Faults s (.winWr d a b) .malformedStructure)
     ∧ ((n = 0x22 ∨ n = 0x23) → v.getLsbD 0 = true → ∀ m : Nat, (issuer s).winTarget = some m → (thr (base s) m).life = .contained →
       Faults s (.winWr d a b) .alignment v)
     ∧ (1 ≤ n → n ≤ 0x27 → (∀ m : Nat, (issuer s).winTarget = some m → (thr (base s) m).life ≠ .contained) →
       exec (.winRd d a) s = .next (writes s 4 d 0)
       ∧ ((n = 0x20 → v.getLsbD 17 = false) → exec (.winWr d a b) s = .next (writes s 4 d 1)))
     ∧ ∀ m : Nat, (issuer s).winTarget = some m → m ≠ s.cur → (thr s m).life = .contained → 1 ≤ n → n ≤ 0x27 →
       let x := settle (thr s m) (cycOf s (cmptOf m) - 1)
       (∃ w, exec (.winRd d a) s = .next (writes s 4 d w)
         ∧ (n < 0x20 → boundAt x (BitVec.ofNat 5 n) = none → w = getX x n) ∧ (n = 0x20 → w.toNat = tsWord x) ∧ (n = 0x21 → w.toNat = fpcWord x) ∧ (n = 0x22 → w = x.pc)
         ∧ (n = 0x23 → w = 0) ∧ (n = 0x24 → w = x.tepc) ∧ (n = 0x25 → w = x.tca.setWidth 64) ∧ (n = 0x26 → w = x.tval)
         ∧ (n = 0x27 → w = (ctx s x.ctx).tvb))
       ∧ ((n = 0x20 → v.getLsbD 17 = false) → (n = 0x22 ∨ n = 0x23 → v.getLsbD 0 = false) → Does s (.winWr d a b) fun t => Gives s t d 0 ∧ SameMemory s t
         ∧ (n < 0x20 → thr t m = if (boundAt x (BitVec.ofNat 5 n)).isSome then x else setX x n v) ∧ (n = 0x22 → thr t m = { x with pc := v })
         ∧ (n = 0x23 → (thr t m).life = .run ∧ (thr t m).pc = v ∧ ∀ r : Nat, getX (thr t m) r = getX x r)
         ∧ (n ≠ 0x23 → n ≠ 0x27 → (thr t m).life = .contained)
         ∧ (n = 0x20 → (thr t m).prv = (if v.getLsbD 16 then .s else .u) ∧ (thr t m).it = v.getLsbD 20 ∧ (thr t m).pp = v.getLsbD 21
           ∧ (thr t m).qb = v.extractLsb' 8 4)
         ∧ (n = 0x21 → (thr t m).flags = ⟨x.flags.spz && !v.getLsbD 15, x.flags.nxa && !v.getLsbD 14, x.flags.nv && !v.getLsbD 13,
             x.flags.dz && !v.getLsbD 12, x.flags.ofl && !v.getLsbD 11, x.flags.ufl && !v.getLsbD 10, x.flags.nx && !v.getLsbD 9⟩
           ∧ (thr t m).rm = if (v.extractLsb' 0 3).toNat < 6 then v.extractLsb' 0 3 else x.rm)
         ∧ (n = 0x24 → thr t m = { x with tepc := v }) ∧ (n = 0x25 → thr t m = { x with tca := v.setWidth 8 })
         ∧ (n = 0x26 → thr t m = { x with tval := v }) ∧ (n = 0x27 → thr t m = thr s m)))
  ∧ (∀ (s : State) (d a b : Reg), Single s →
       let u := base s
       let me := s.cur
       let va := reg s a
       (Ready s .f [a, b, b + 1] →
         ((reg s (b + 1)).toNat < 256 → va.toNat % 8 = 0 →
           let p : Piece := ⟨s.pkg, va.toNat, 8, 0, none, .rc⟩
           let q : Ask := { kind := .atomic, va := va, size := 8, next := nextAt s 4
                            op := fun _ _ => .inject (reg s b).toNat ((reg s (b + 1)).setWidth 8) }
           ((placeOf va.toNat = .hbm ∨ ∃ c o, placeOf va.toNat = .store c o) → accessWait u me q [p] = none →
             exec (.eccInj a b) s = .next (accesses s 4 q [p]))
           ∧ (¬(placeOf va.toNat = .hbm ∨ ∃ c o, placeOf va.toNat = .store c o) → Faults s (.eccInj a b) .physicalRange va))
         ∧ ((reg s (b + 1)).toNat < 256 → va.toNat % 8 ≠ 0 → Faults s (.eccInj a b) .alignment va))
       ∧ (Ready s .s [a, b] → (issuer s).draining = none → ∀ v, invalOf (issuer s) va.toNat (reg s b).toNat = some v →
         releaseHeld u me = false → usesDropped u (tileOf me) v s.ids = false →
         Does s (.tlbInv a b) fun t => Past s t ∧ SameMemory s t ∧ ∀ p ∈ s.tiles,
           (p.1, { p.2 with tlb := p.2.tlb.filter fun l => !(inScope v.scope (tileOf me) p.1 && v.hits l.ctx l.va l.size) }) ∈ t.tiles)
       ∧ (Ready s .f [a, b, d] → va.toNat % 8 = 0 → ∀ ps, ownStore u me va 64 .store .tier = .ok ps u →
         let q := if onRanger me then (cmpt s (cmptOf me)).faultQ else []
         (∀ (m : FaultMsg) (rest : List FaultMsg), q = m :: rest → Asks s (.halt d a b) .store va 64 .tier
           ∧ (∀ t, (issuer s).own = none → exec (.halt d a b) s = .next t → ∀ r ∈ t.reqs, r ∉ s.reqs →
             r.2.op = .write (ofBytes (faultBytes m) / 2 ^ (8 * r.2.off) % 2 ^ (8 * r.2.len)))
           ∧ ∀ v, Had s v → Does s (.halt d a b) fun t => Gives s t d 1 ∧ SameMemory s t ∧ (cmpt t (cmptOf me)).faultQ = rest)
         ∧ (q = [] → (reg s b).toNat ≤ (cmpt s (cmptOf me)).t → exec (.halt d a b) s = .next (writes s 4 d 0))
         ∧ (q = [] → (cmpt s (cmptOf me)).t < (reg s b).toNat → Does s (.halt d a b) fun t => (thr t me).pc = (issuer s).pc ∧ SameMemory s t
           ∧ ∃ since, (thr t me).park = some (.again (.halt (reg s b)) since))))

/-- R422: `cyc` gives CYC and `tsc` the global timestamp, at the start of the issue cycle in fixed-timing mode and up to 5
network cycles later in elastic mode, whatever accesses are outstanding. The moment of the sample in elastic mode is open (log
2). -/
def Obligations.Clocks : Prop :=  ∀ (s : State) (d : Reg), Ready s .u [d] →
    let k := cmpt s (cmptOf s.cur)
    exec (.cyc d) s = .next (writes s 4 d (BitVec.ofNat 64 k.cyc))
    ∧ (k.fixt = true → exec (.tsc d) s = .next (writes s 4 d (BitVec.ofNat 64 k.t)))
    ∧ (k.fixt = false → Does s (.tsc d) fun t => ∃ e ≤ 5, Gives s t d (BitVec.ofNat 64 (k.t + e)) ∧ t.accs = s.accs ∧ SameMemory s t)


/-! ## Steps of the machine -/
/-- R36, R41, R50, R56, R65, R109, R446: a bank serves, in the first cycle in which it can, the request whose earliest cycle is
lowest, and among equals the one whose source stands first after the cycle; the unit of a window serves its requests so too, and
a home elsewhere one that has arrived. A request with a generation is performed in a frame that is normal and at the successor
of one that forwards, held while the frame migrates, and not performed where the generations differ, where an earlier part of an
access in order was refused, or where it is a write of a killed context's job (R109). R48, R56, R76, R227, R249, R308: an
acknowledged posted access is forgotten, with that of the last word of a window the spill is over, and one that was refused
leaves its thread a trap to take, or its spill a fault and the word to be sent again; a walk that ends with a leaf installs it,
and one that ends with a fault is the fault of the threads that wait for it. R56, R57, R58: retiring a frame: it is marked with
its successor and the successor's generation, its bytes are copied, the commit makes it forward, and when every unit has
reported it is normal again with its generation advanced by 1 modulo 16. The numbers of the peer ports that report a drain, and
that other homes take no cycles, are the model's reading and choice (log 29: DEDUCED, log 37: DESIGN CHOICE). What a word in
error reads as is open (log 13: DESIGN CHOICE). -/
def Obligations.HomesAndFrames : Prop :=
  (∀ (s : State) (n : Nat) (r : Req), s.power = true → look s.reqs n = some r →
     (∀ core bank,
       let k := cmptOfCore core
       let rs := s.reqs.filter fun p => atBank s core bank p.2 && servable s p.1 p.2
       let c := serveCycle (cmpt s k) (core * 64 + bank) rs
       let u := tick s k c
       (n, r) ∈ rs → r.earliest ≤ c → r.src < 1024 →
       (∀ q ∈ rs, q ≠ (n, r) → q.2.src < 1024 ∧ (r.earliest < q.2.earliest
         ∨ (r.earliest = q.2.earliest ∧ (r.src + 1024 - c % 1024) % 1024 < (q.2.src + 1024 - c % 1024) % 1024))) →
       exec (.bankRequest core bank) s = .next (serve (setCmpt u k { cmpt u k with served := put (cmpt u k).served (core * 64 + bank) c })
         n (c + r.transit / 2)))
     ∧ (r.travelling = false → r.held = false → mustWait s n r = false →
       (r.pkg ≠ s.pkg ∨ (isWindow (placeOf r.pa) = false ∧ ∀ c o, placeOf r.pa ≠ .store c o) →
         exec (.homeAccess n) s = .next (serve s n (cycOf s (cmptOf r.tid))))
       ∧ ∀ u c, windowUnit s r = some u → unitCore (placeOf r.pa) = some c →
         (∀ q ∈ s.reqs, windowUnit s q.2 = some u → q.2.held = false → q.2.travelling = false → q = (n, r)) →
         let k := cmptOfCore c
         let t := serveCycle (cmpt s k) u [(n, r)]
         let v := tick s k t
         exec (.windowAccessService n) s = .next (serve (setCmpt v k { cmpt v k with served := put (cmpt v k).served u t })
           n (t + r.transit / 2)))
     ∧ ∀ g done, r.gen = some g →
       let f := lookD s.frames (keyOf r.pkg r.pa / 65536) {}
       let t := serve s n done
       let goesOn := g = f.gen ∧ refusedBefore s r = false ∧ killedWrite s r = false
       (g ≠ f.gen ∨ refusedBefore s r = true ∨ killedWrite s r = true → SameMemory s t ∧ (∀ a, look s.accs r.acc = some a →
         ∃ b, look t.accs r.acc = some b ∧ b.stale = true ∧ b.left = a.left - 1 ∧ b.val = a.val
           ∧ b.worst = some (min r.off (a.worst.getD r.off))))
       ∧ (goesOn → f.mode = .normal → t = perform s n r r.pkg r.pa done)
       ∧ (goesOn → ∀ new h, f.mode = .forwarded new h → (lookD s.frames new {}).gen = h → (lookD s.frames new {}).mode = .normal →
         t = perform s n r (new / 2 ^ 32) (new % 2 ^ 32 * 65536 + r.pa % 65536) done)
       ∧ (goesOn → ∀ new h c, f.mode = .migrating new h c → SameMemory s t ∧ t.accs = s.accs
         ∧ look t.reqs n = some { r with held := true } ∧ (lookD t.frames (keyOf r.pkg r.pa / 65536) {}).retry = f.retry ++ [n]))
  ∧ (∀ (s : State) (n : Nat), s.power = true →
       (∀ a, look s.accs n = some a → rising s.accs = true → a.posted = true → a.left = 0 → a.replies = 0 → a.agent.made = true →
         let gone (t : State) : Prop := look t.accs n = none ∧ SameMemory s t
         let cause : Cause := if a.poisoned then .memoryError else .staleGeneration
         (a.failed = false → Does s (.postedStoreAck n) fun t => gone t
           ∧ (a.agent = .spill → (thr s a.tid).olive = true → (thr s a.tid).spilled = 24 → (thr s a.tid).life = .run →
             (∀ p ∈ s.accs, p.1 ≠ n → p.2.tid ≠ a.tid ∨ p.2.agent ≠ .spill) →
             (thr t a.tid).olive = false ∧ (thr t a.tid).spilled = 0 ∧ (thr t a.tid).wsp = wspMask ((thr s a.tid).wsp - 192)))
         ∧ (a.failed = true → a.agent ≠ .spill → (thr s a.tid).life = .run ∨ (thr s a.tid).life = .moving →
           Does s (.postedStoreRefusal n) fun t => gone t ∧ (thr t a.tid).async = (thr s a.tid).async ++ [⟨cause, a.tval⟩])
         ∧ (a.failed = true → a.agent = .spill → (thr s a.tid).life = .run →
           Does s (.postedStoreRefusal n) fun t => gone t ∧ (thr t a.tid).spillFault = some (cause, a.tval)
             ∧ ∀ i < (thr s a.tid).spilled, (thr s a.tid).olive = true → a.lo = ((thr s a.tid).wsp - 192).toNat + 8 * i →
               (thr t a.tid).spilled = i))
       ∧ ∀ w, look s.walks n = some w → rising s.walks = true →
         let gone (t : State) : Prop := look t.walks n = none ∧ SameMemory s t
         (w.discard = true → exec (.pageWalkEnd n) s = .next { s with walks := del s.walks n })
         ∧ (∀ l, w.discard = false → walkPage s w.ctx w.va = .ok l → Does s (.pageWalkEnd n) fun t => gone t
           ∧ l ∈ (tile t w.tile).tlb ∧ t.threads = s.threads)
         ∧ ∀ c id va since, w.discard = false → walkPage s w.ctx w.va = .error c → w.waiters = [(id, va)] → (thr s id).life = .run →
           (thr s id).park = some (.again .walk since) → (thr s id).doomed = false → Does s (.pageWalkEnd n) fun t => gone t
             ∧ (tile t w.tile).tlb = (tile s w.tile).tlb
             ∧ ∃ inj, thr t id = thr (takeFault (setThr s id { thr s id with injSeen := inj }) id c va (thr s id).pc) id)
  ∧ (∀ (s : State) (old new gen : Nat), s.power = true → old ≠ new →
       let f := frame s old
       (f.mode = .normal → Does s (.frameMigrating old new gen) fun t => (frame t old).mode = .migrating new (gen % 16) false
         ∧ (frame t new).gen = gen % 16 ∧ SameMemory s t)
       ∧ (f.mode = .migrating new gen false → s.flaws = [] → MemoryOk s → Does s (.frameCopyComplete old) fun t =>
         (frame t old).mode = .migrating new gen true ∧ MemoryOk t
         ∧ (∀ k < 65536, byteAt t.mem (new * 65536 + k) = byteAt s.mem (old * 65536 + k))
         ∧ ∀ x, x / 65536 ≠ new → byteAt t.mem x = byteAt s.mem x)
       ∧ (f.mode = .migrating new gen true → Does s (.forwardingCommit old) fun t => (frame t old).mode = .forwarded new gen
         ∧ (frame t old).retry = [] ∧ (f.retry = [] → SameMemory s t))
       ∧ ∀ unit ∈ drainUnits, f.mode = .forwarded new gen → frameInUse s old = false →
         ((∀ u ∈ drainUnits, u = unit ∨ u ∈ f.reports) → Does s (.drainReport old unit) fun t => SameMemory s t
           ∧ frame t old = { gen := (f.gen + 1) % 16 })
         ∧ ((∃ u ∈ drainUnits, u ≠ unit ∧ u ∉ f.reports) → Does s (.drainReport old unit) fun t => SameMemory s t
           ∧ (frame t old).mode = .forwarded new gen ∧ unit ∈ (frame t old).reports))

/-- R206, R249, R251, R290, R321, R344, R431: the units of a core. PENDING_RESULT_WRITE and SFU_RESULT write the oldest result
with its flags, but for a register whose number names a stream; SPILL_WORD stores the next word of the older window, which the
two halves of a pair compare first (R226); STREAM_READ_AHEAD makes the access of a stream's next element, whose value its reply
gives; DROOP_TRIP stretches the next elastic cycle; SCALER_CONFIG gives a scaler its configuration. The length of an elastic
cycle is the model's choice (log 9). -/
def Obligations.CoreUnits : Prop :=  ∀ (s : State) (id : Nat), s.power = true →
    let t := thr s id
    (∀ p rest, t.pend = p :: rest → (∀ q ∈ rest, p.land < q.land) →
      let done (u : State) : Prop := (thr u id).pend = rest
        ∧ (p.reg ≠ 0 → boundAt t p.reg = none → getX (thr u id) p.reg.toNat = p.val)
        ∧ (∀ r : Reg, (r ≠ p.reg ∨ boundAt t r ≠ none) → getX (thr u id) r.toNat = getX t r.toNat)
        ∧ (thr u id).flags = orFlags t.flags p.flags ∧ SameMemory s u ∧ p.land < cycOf u (cmptOf id)
      Does s (.pendingResultWrite id) done
      ∧ ∀ tl x q, (tile s tl).sfuRing = (id, x) :: q → p.sfu = true → Does s (.sfuResult tl) fun u => done u ∧ (tile u tl).sfuRing = q)
    ∧ (let c := turnAt (slotOf id) (max (cycOf s (cmptOf id)) t.spillTurn)
      let va := t.wsp - 192 + BitVec.ofNat 64 (8 * t.spilled)
      let word := lookD (otherWin t) t.spilled 0
      let ask : Ask :=
        { kind := .store, va := va, size := 8, next := 0, agent := .spill, op := fun n off => .write (sliceOf word.toNat n off) }
      let k := core s (coreOf id)
      let m := 16 + leadSlot t id
      let moved (u : State) : Prop := SameMemory s u ∧ (thr u id).spillTurn = c + 16 ∧ (thr u id).spilled = t.spilled + 1
        ∧ (thr u id).olive = true ∧ (thr u id).wsp = t.wsp
      t.olive = true → t.spilled < 24 → t.spillFault = none → t.life ≠ .free → t.life ≠ .killed → turnIdles t c = true →
        (t.trl = true → lookD k.matched m false = false → look k.compare m = some [BitVec.ofNat 64 t.saves, va, word] →
          Does s (.spillWord id) fun u => SameMemory s u ∧ lookD (core u (coreOf id)).matched m false = true ∧ u.reqs = s.reqs
            ∧ (t.spilled < 23 → moved u)
            ∧ (t.spilled = 23 → (thr u id).spilled = 0 ∧ (thr u id).olive = false ∧ (thr u id).wsp = wspMask (t.wsp - 192)))
        ∧ (t.trl = false → t.lt = true → lookD k.matched m false = false → look k.compare m = none →
          Does s (.spillWord id) fun u => SameMemory s u ∧ look (core u (coreOf id)).compare m = some [BitVec.ofNat 64 t.saves, va, word]
            ∧ thr u id = t)
        ∧ (t.trl = false → (t.lt = true → lookD k.matched m false = true) → ∀ ps, piecesNow s (asker s id) .store va 8 = (.ok ps, s) → accessWait s id ask ps = none →
          Does s (.spillWord id) fun u => moved u ∧ u.reqs = (addAccess (tick s (cmptOf id) c) id ask ps true).2.reqs
            ∧ ∃ a, look u.accs s.ids = some a ∧ a.agent = .spill ∧ a.posted = true ∧ a.tid = id ∧ a.lo = va.toNat ∧ a.size = 8)
        ∧ (t.trl = false → (t.lt = true → lookD k.matched m false = true) → ∀ f a u,
          piecesNow s (asker s id) .store va 8 = (.error (.fault f a), u) →
          Does s (.spillWord id) fun w => (thr w id).spillFault = some (f, BitVec.ofNat 64 a)))
    ∧ (∀ j, let q := stream t j
      let va := elemAddr q (q.pos + q.ahead.length)
      let ask : Ask := { kind := .load, va := va, size := q.width, op := fun _ _ => .read, next := 0, agent := .stream j }
      (j < 4 → t.life = .run → t.trl = false → t.qb.getLsbD j = true → q.write = false → (∀ c w h i, .bad c w h i ∉ q.ahead) →
        q.ahead.length < 16 → q.pos + q.ahead.length < q.count →
        (∀ ps, piecesNow s (asker s id) .load va q.width = (.ok ps, s) → accessWait s id ask ps = none → ownPending s id ps = false →
          Does s (.streamReadAhead id j) fun w => SameMemory s w
            ∧ stream (thr w id) j = { q with
                ahead := q.ahead ++ [.wait s.ids (ps.map fun p => (p.pkg, p.pa, p.len)) (ps.any fun p => p.ord == .so)] }
            ∧ ∃ a, look w.accs s.ids = some a ∧ a.agent = .stream j ∧ a.posted = false ∧ a.tid = id ∧ a.lo = va.toNat ∧ a.size = q.width)
        ∧ ∀ c a u, piecesNow s (asker s id) .load va q.width = (.error (.fault c a), u) →
          Does s (.streamReadAhead id j) fun w => ∃ inj, stream (thr w id) j = { q with ahead := q.ahead ++ [.bad c (BitVec.ofNat 64 a) [] inj] })
      ∧ ∀ n a l r h so, look s.accs n = some a → a.tid = id → a.agent = .stream j → a.posted = false → a.left = 0 → a.replies = 0 →
        a.failed = false → t.life = .run → t.doomed = false → q.ahead = l ++ .wait n h so :: r → (∀ h so, .wait n h so ∉ l ++ r) →
        Does s (.accessReply n) fun w => SameMemory s w
          ∧ stream (thr w id) j = { q with ahead := l ++ .val (q.extend a.val) h so :: r })
    ∧ ∀ k n i v, Does s (.droopTrip k n) (fun u => (cmpt u k).cyc = (cmpt s k).cyc ∧ SameMemory s u
        ∧ (cmpt u k).stretch = if (cmpt s k).fixt then (cmpt s k).stretch else min n 1)
      ∧ (i < 16 → Does s (.scalerConfig k i v) fun u =>
        let a := lookD (cmpt u k).scalers i {}
        let b := lookD (cmpt s k).scalers i {}
        let e := (v.extractLsb' 0 7).toNat
        a.en = v.getLsbD 7 ∧ a.ev = (if 1 ≤ e ∧ e ≤ 8 then e else b.ev)
        ∧ (v.getLsbD 8 = true → a.count = 0 ∧ a.min = 0 ∧ a.max = 0 ∧ a.bins = [])
        ∧ (v.getLsbD 8 = false → a.count = b.count ∧ a.min = b.min ∧ a.max = b.max ∧ a.bins = b.bins))

/-- R41, R71, R146, R161, R193, R377, R444: the oldest entry of a send queue that may leave takes its beats, counts what R161
counts, and each of its copies sets out: inside the compartment it arrives after its transit and its beats, to another
compartment it waits for its slots, and to another package it leaves this one. A migrating thread's packet sets out when nothing
of it is outstanding. R71, R78, R79, R80, R85, R161, R206, R208, R227, R445: the pair's next owned slot carries the oldest
waiting flit, with the last of which a message is counted and a migrating thread's slot is free; a flit arrives 8 network cycles
later and 12 more for each die boundary, one that fails its check is sent again and logged, and one that fails again takes both
compartments out of service; in fixed-timing mode a packet crosses in the first cycle that starts two network cycles after its
arrival, and in elastic mode 2 to 5 of them later. R71, R127, R146, R161, R175, R186, R187: a dispatch packet that stands alone
at its core and finds room is written there, counted and acknowledged: an active message or a migration in the intake, a landing
message in the landing, a pair record in the active-pair queue; the overflow ring refills the queue from its oldest record, by
an access to it that the record follows; the access that stored a record counts it. The tile drops the instruction bytes that it
had fetched. The two network cycles of an elastic cycle and the time of an acknowledgement inside a compartment are the model's
choices (log 9, log 50); that a message inside a compartment counts as sent when it leaves the queue, the order at a place, and
what a failed link ends, are its readings (log 22, log 23, log 25). -/
def Obligations.NetworkSteps : Prop :=
  (∀ (s : State), s.power = true →
     let beats (b : Body) : Nat := ceilDiv (packetBytes b) 64
     let sets (t : State) (c now : Nat) (b : Body) (dest : Nat) : Prop :=
       (65536 ≤ dest → (∀ r o k l, b ≠ .red r o k l) → ∃ p ∈ t.away, p.body = b ∧ p.core = dest)
       ∧ (dest < 65536 → cmptOfCore dest = cmptOfCore c → ∃ (n : Nat) (p : Packet), look t.packets n = some p ∧ p.body = b ∧ p.core = dest ∧ p.stage = .ready
         ∧ p.time + 1 = now + (transit c dest + 1) / 2 + beats b)
       ∧ (dest < 65536 → cmptOfCore dest ≠ cmptOfCore c → ∃ (n : Nat) (p : Packet), look t.packets n = some p ∧ p.body = b ∧ p.core = dest
         ∧ p.stage = .sending ∧ p.sent = 0 ∧ p.flits = ceilDiv (packetBytes b) 128 ∧ p.src = cmptOfCore c ∧ p.dst = cmptOfCore dest)
     (∀ (c : Nat) (e : SendEntry) (q : List SendEntry), (core s c).sendQ = e :: q → entryReady s c e = true → e.bcast = none →
       (∀ p ∈ s.packets, p.1 < s.ids) → (∀ r ∈ (core s c).reds, r.owed = []) →
       let now := max (cycOf s (cmptOfCore c)) (core s c).nextBeat
       Does s (.sendQueueDepart c) fun t => (core t c).sendQ = q ∧ SameMemory s t ∧ cycOf t (cmptOfCore c) = now
         ∧ (core t c).nextBeat = now + e.bodies.foldl (fun n b => max n (beats b.1)) 1 ∧ (∀ x ∈ e.bodies, sets t c now x.1 x.2)
         ∧ ∀ l : Nat, e.launch = some l → lookD (core t c).sent l 0 = lookD (core s c).sent l 0
           + (e.bodies.filter fun b => countsSent c b.2 false b.1).length)
     ∧ ∀ (id dest : Nat), (thr s id).life = .moving → (thr s id).goal = some dest → (thr s id).spillFault = none → departReady s id = true →
       (∀ p ∈ s.packets, p.1 < s.ids) → dest < 65536 →
       let m : MigPacket := { origin := id, name := s.ids, ctx := (thr s id).ctx, launch := (thr s id).launch, image := travelImage (thr s id) }
       Does s (.migrationDepart id) fun t => SameMemory s t ∧ sets t (coreOf id) (cycOf s (cmptOf id)) (.mig m) dest
         ∧ (cmptOfCore dest = cmptOf id → (thr t id).life = .free) ∧ (cmptOfCore dest ≠ cmptOf id → thr t id = { thr s id with goal := none }))
  ∧ (∀ (s : State) (n : Nat) (p : Packet), s.power = true → look s.packets n = some p →
       (∀ (i : Nat) (q : Packet), waitingPair s p.src p.dst = [(i, q)] → p.src < 32 → p.dst < 32 → p.src ≠ p.dst →
         let from_ := max (max q.time s.now) (lookD s.pairNext (32 * p.src + p.dst) 0)
         let owned (m : Nat) : Prop := m % 64 < 62 ∧ p.dst = (p.src + 1 + m % 64 % 31) % 32
         let last := q.sent + 1 = q.flits
         ∃ m : Nat, from_ ≤ m ∧ owned m ∧ (∀ k : Nat, from_ ≤ k → k < m → ¬owned k) ∧ Does s (.pairSlotSend p.src p.dst) fun t =>
           lookD t.pairNext (32 * p.src + p.dst) 0 = m + 1 ∧ m ≤ t.now ∧ SameMemory s t
           ∧ (∃ r : Packet, look t.packets i = some r ∧ r.sent = q.sent + 1 ∧ ((∀ x, q.body ≠ .mig x) → r.body = q.body)
             ∧ (r.stage = .flying ↔ last) ∧ (last → r.time = m))
           ∧ (∀ x, q.body = .mig x → last → (thr t x.origin).life = .free)
           ∧ ∀ g id l, q.body = .msg g → q.sender = some id → g.launch = some l → last →
             lookD (core t (coreOf id.1)).sent l 0 = lookD (core s (coreOf id.1)).sent l 0 + 1)
       ∧ (p.stage = .sending ∨ p.stage = .flying → p.arrived < p.sent →
         let h := if p.src / 8 = p.dst / 8 then 0 else if (p.src / 8) ^^^ (p.dst / 8) = 3 then 2 else 1
         Does s (.flitArrival n 0) (fun t => SameMemory s t ∧ ∃ r : Packet, look t.packets n = some r ∧ r.arrived = p.arrived + 1 ∧ r.body = p.body
           ∧ (p.arrived + 1 = p.flits → r.stage = .port ∧ r.time = p.time + 8 + 12 * h) ∧ (p.arrived + 1 ≠ p.flits → r.stage = p.stage))
         ∧ Does s (.flitArrival n 1) (fun t => SameMemory s t ∧ (∃ r : Packet, look t.packets n = some r ∧ r.sent = p.sent - 1 ∧ r.stage = .sending)
           ∧ (s.log.length < 4096 → ∃ e : LogEntry, t.log.Perm (e :: s.log) ∧ e.err = 0x03 ∧ e.last = false))
         ∧ Does s (.flitArrival n 2) (fun t => SameMemory s t ∧ p.src ∈ t.dead ∧ p.dst ∈ t.dead ∧ (cmpt t p.src).part = none
           ∧ (cmpt t p.dst).part = none))
       ∧ (p.stage = .port → rising s.packets = true → (∀ q ∈ s.packets, q.1 ≠ n → q.2.dst ≠ p.dst) → ∀ delay,
         let k := cmpt s p.dst
         ∃ e : Nat, 2 ≤ e ∧ e ≤ 5 ∧ (k.fixt = true → e = 2) ∧ (k.fixt = false → 2 ≤ delay → delay ≤ 5 → e = delay) ∧
           let c := if k.fixt then ceilDiv (7 * (p.time + e)) 15 else k.cyc + ceilDiv (p.time + e - k.t) 2
           (∀ (rs : List Nat) (r : Nat) (q : Req), p.body = .req rs → r ∈ rs → look s.reqs r = some q → Does s (.elasticFifoDelivery n delay) fun t =>
             look t.reqs r = some { q with travelling := false, earliest := c, src := 577 } ∧ SameMemory s t)
           ∧ (∀ (a : Nat) (x : Access), p.body = .reply a → look s.accs a = some x → Does s (.elasticFifoDelivery n delay) fun t =>
             look t.accs a = some { x with replies := x.replies - 1, done := max x.done c } ∧ SameMemory s t)
           ∧ (∀ (j : Nat) (x : Job), p.body = .job j → look s.jobs j = some x → Does s (.elasticFifoDelivery n delay) fun t =>
             look t.jobs j = some { x with arrived := true } ∧ SameMemory s t)
           ∧ ((∀ rs, p.body ≠ .req rs) → (∀ a, p.body ≠ .reply a) → (∀ j, p.body ≠ .job j) → Does s (.elasticFifoDelivery n delay) fun t =>
             look t.packets n = some { p with stage := .ready, time := c } ∧ SameMemory s t))
       ∧ (p.stage = .ready → p.body = .ack → rising s.packets = true → ∀ delay, Does s (.elasticFifoDelivery n delay) fun t =>
         look t.packets n = none ∧ p.time < cycOf t p.dst ∧ SameMemory s t))
  ∧ (∀ (s : State) (n : Nat) (p : Packet), s.power = true → look s.packets n = some p → rising s.packets = true →
       (∀ q ∈ s.packets, q.1 < s.ids) →
       (p.stage = .ready → p.cls = .dispatch → (∀ q ∈ s.packets, q.1 ≠ n → q.2.core ≠ p.core) →
       let c := p.core
       let k := core s c
       let at_ := max (cycOf s (cmptOfCore c)) (p.time + 1)
       let counted (t : State) (l : Option Nat) : Prop := look t.packets n = none ∧ SameMemory s t ∧ cycOf t (cmptOfCore c) = at_
         ∧ (∀ i, p.sender = some i → ∃ q, look t.packets s.ids = some q ∧ q.body = .ack ∧ q.dst = cmptOf i.1 ∧ q.core = coreOf i.1
           ∧ q.sender = some i)
         ∧ ∀ i : Nat, l = some i → lookD (core t c).recv i 0 = lookD k.recv i 0 + 1
       let free (m : Nat) : Prop := cmptOfCore c ∉ (ctx s m).stopped
       (∀ m : Msg, p.body = .msg m → m.tgt ≠ 1 → k.intake.length < 4 → free m.ctx → Does s (.dispatchIntakeArrival n) fun t =>
         counted t m.launch ∧ (core t c).intake = k.intake ++ [(at_, p.body)] ∧ (tile t (tileOfCore c)).buffered = [])
       ∧ (∀ m : MigPacket, p.body = .mig m → k.intake.length < 4 → free m.ctx → Does s (.dispatchIntakeArrival n) fun t =>
         counted t m.launch ∧ (core t c).intake = k.intake ++ [(at_, p.body)] ∧ (tile t (tileOfCore c)).buffered = [])
       ∧ (∀ m : Msg, p.body = .msg m → m.tgt = 1 → landingRoom k m.prio = true → free m.ctx → Does s (.landingMessageArrival n) fun t =>
         counted t m.launch ∧ ∃ e : LandEntry, (core t c).landing = k.landing ++ [e] ∧ e.kind = 0x01 ∧ e.len = m.len ∧ e.prio = m.prio
           ∧ e.mcast = m.mcast ∧ e.pkg = m.pkg ∧ e.seq = m.seq ∧ e.stid = m.stid ∧ e.ctx = m.ctx ∧ e.data = m.data)
       ∧ ∀ r : PairRec, p.body = .pair r → k.pairQ.length < 256 → free r.ctx → (∀ i, p.sender = some i → coreOf i.1 ≠ c) →
         Does s (.pairRecordArrival n) fun t => counted t r.launch ∧ (core t c).pairQ = k.pairQ ++ [r]
           ∧ (tile t (tileOfCore c)).buffered = [])
       ∧ ∀ (c l lo len base cap cn : Nat), ringOf s c l = some (base, cap, cn) → lookD (core s c).rings l (0, 0) = (lo, len) →
         let k := core s c
         let access (t : State) (at_ : Nat) (r : Option PairRec) : Prop := ∃ i a, (core t c).ringAcc = some ⟨i, l, r⟩ ∧ look t.accs i = some a
           ∧ a.agent = .ring c ∧ a.lo = (BitVec.ofNat 64 (base + at_ % cap * 16)).toNat ∧ a.size = 16 ∧ a.ctx = cn ∧ SameMemory s t
         (k.ringAcc = none → k.pairQ.length < 256 → k.rings = [(l, lo, len)] → 0 < len → cmptOfCore c ∉ (ctx s cn).stopped → ∀ ps,
           piecesNow s (queueUnit c cn) .load (BitVec.ofNat 64 (base + lo % cap * 16)) 16 = (.ok ps, s) →
           Does s (.overflowRingRefill c) fun t => access t lo none ∧ (core t c).rings = k.rings ∧ (core t c).pairQ = k.pairQ)
         ∧ ∀ i a, look s.accs i = some a → a.left = 0 → a.replies = 0 → a.poisoned = false → a.stale = false → cmptOfCore c ∉ (ctx s a.ctx).stopped →
           (k.ringAcc = some ⟨i, l, none⟩ → k.pairQ.length < 256 → Does s (.overflowRingRefill c) fun t => SameMemory s t
             ∧ (core t c).ringAcc = none
             ∧ (core t c).pairQ = k.pairQ ++ [⟨BitVec.ofNat 64 a.val, BitVec.ofNat 64 (a.val / 2 ^ 64), a.ctx, some l⟩]
             ∧ (1 < len → look (core t c).rings l = some ((lo + 1) % cap, len - 1)))
           ∧ ∀ r, k.ringAcc = some ⟨i, l, some r⟩ → Does s (.overflowRingRefill c) fun t => SameMemory s t ∧ (core t c).ringAcc = none
             ∧ (core t c).pairQ = k.pairQ ∧ look (core t c).rings l = some (lo, len + 1))

/-- R142-R145, R148, R226, R250, R254, R378: the start unit takes a start in the cycle six before the turn of the slot that it
claims, the lowest free one of 1 to 15 or the lowest pair of free slots (a ranger's code runs at F, R21): the first cycle in
which the first start of R144 that stands there claims the slot of that cycle. The thread starts with the registers of its
source and every other one 0; a migrating thread goes on as it left; a system-class start takes slot 0 at privilege S. Which
launch a stage start belongs to, and that a start without a slot holds back the lower sources, are the model's readings (log
24). -/
def Obligations.ThreadStarts : Prop :=  ∀ (s : State) (c : Nat), s.power = true →
    let k := cmptOfCore c
    let idle (i : Nat) : Prop := (thr s (c * 16 + i)).life = .free
    let from_ := max (cycOf s k) (core s c).nextStart
    let within_ (i from_ at_ : Nat) : Prop := (at_ + 6) % 16 = i ∧ from_ ≤ at_ ∧ at_ < from_ + 16
    let claims (b : Begin) (i : Nat) : Prop :=
      (b.lt = false → 1 ≤ i ∧ i ≤ 15 ∧ idle i ∧ ∀ j, 1 ≤ j → j < i → ¬idle j)
      ∧ (b.lt = true → 1 ≤ i ∧ i ≤ 7 ∧ idle i ∧ idle (i + 8) ∧ ∀ j, 1 ≤ j → j < i → ¬(idle j ∧ idle (j + 8)))
    let first (n : Nat) (x : Source × Begin) : Prop := x.2.ready ≤ n ∧ ∃ l r, sources s c = l ++ x :: r ∧ ∀ y ∈ l, n < y.2.ready
    let started (t : State) (b : Begin) (i : Nat) (p : Prv) (trail : Bool) (turn : Nat) : Prop :=
      let x := thr t (c * 16 + i)
      x.life = .run ∧ x.ctx = b.ctx ∧ x.launch = b.launch ∧ x.pc = b.pc ∧ x.prv = p ∧ x.lt = b.lt ∧ x.trl = trail ∧ x.turn = turn
      ∧ x.it = false ∧ x.pp = false ∧ x.qb = 0 ∧ x.flags = {} ∧ x.rm = (ctx s b.ctx).rm ∧ x.fixt = (cmpt s k).fixt
      ∧ ∀ r : Reg, r ≠ 0 → getX x r.toNat = lookD b.regs r.toNat 0
    let payload (ds : List Byte) (regs : Tab Word) : Prop :=
      ∀ i < 8, lookD regs (8 + i) 0 = BitVec.ofNat 64 (ofBytes ((ds.drop (8 * i)).take 8))
    let rank (x : Source × Begin) : Nat :=
      match x.1 with | .intake => 0 | .prepared => 1 | .task _ => 2 | .stage => 3 | .deck _ => 4 | .stolen => 5
    (∀ (src : Source) (b : Begin) (at_ : Nat), nextTaken s c = some (at_, src, b) →
      let i := (at_ + 6) % 16
      from_ ≤ at_ ∧ first at_ (src, b) ∧ claims b i ∧ (∀ n x, from_ ≤ n → n < at_ → first n x → ¬claims x.2 ((n + 6) % 16))
      ∧ Does s (.threadStart c) fun t => SameMemory s t ∧ (core t c).nextStart = at_ + 1
        ∧ (b.image = none → started t b i (if b.lt = true ∨ c < 16384 then .u else .f) false (at_ + 6) ∧ (b.lt = true → started t b (i + 8) .u true (at_ + 14)))
        ∧ ∀ (n : Nat) (x : Thread), b.image = some (n, x) →
          thr t (c * 16 + i) = { x with life := .run, turn := at_ + 6, serial := (thr s (c * 16 + i)).serial + 1 })
    ∧ (∀ src b i, sources s c = [(src, b)] → claims b i → ∃ at_, within_ i (max from_ b.ready) at_ ∧ nextTaken s c = some (at_, src, b))
    ∧ (sources s c).Pairwise (fun x y => rank x ≤ rank y)
    ∧ (∀ (at_ : Nat) (m : Msg) (q : List (Nat × Body)), (core s c).intake = (at_, .msg m) :: q → ∃ b : Begin, (.intake, b) ∈ sources s c
      ∧ b.pc = m.pc ∧ b.ctx = m.ctx ∧ b.launch = m.launch ∧ b.lt = false ∧ b.image = none ∧ b.ready = at_ ∧ payload m.data b.regs)
    ∧ (∀ (at_ : Nat) (m : MigPacket) (q : List (Nat × Body)), (core s c).intake = (at_, .mig m) :: q → ∃ b : Begin,
      (.intake, b) ∈ sources s c ∧ b.image = some (m.name, m.image) ∧ b.lt = false ∧ b.ready = at_)
    ∧ (∀ (q : List TaskRec) (r : TaskRec), (core s c).deck = q ++ [r] → k ∉ (ctx s r.ctx).stopped → ∃ b : Begin,
      (.deck q.length, b) ∈ sources s c ∧ b.pc = r.words.headD 0 ∧ b.ctx = r.ctx ∧ b.launch = r.launch ∧ b.lt = false
        ∧ b.ready = max r.since (core s c).deckAt ∧ (r.words.length = 8 → ∀ i < 7, lookD b.regs (8 + i) 0 = r.words.getD (1 + i) 0))
    ∧ ∀ (n : Nat) (p : Packet) (m : Msg), systemWaiting s c = [(n, p)] → p.body = .msg m → idle 0 →
      ∃ at_ : Nat, within_ 0 (max from_ (p.time + 1)) at_ ∧ Does s (.systemClassStart c) fun t =>
        SameMemory s t ∧ ∃ b : Begin, started t b 0 .s false (at_ + 6) ∧ b.ctx = m.ctx ∧ b.launch = none ∧ b.pc = m.pc ∧ b.lt = false
          ∧ payload m.data b.regs ∧ (∀ i : Nat, (i < 8 ∨ 16 ≤ i) → lookD b.regs i 0 = 0) ∧ (thr t (c * 16)).wsp = 0

/-- R159, R222, R223, R224, R421: a trap that waits for its thread is taken at its turn with TEPC at the instruction it stands
at, never inside a handler; the oldest fault message enters the ranger's queue while that holds fewer than 256, and a thread
that waits for a deadline has it reached. R225: the firmware as released ends the oldest containment of its queue: the thread
enters its trap routine with TEPC at the faulting instruction (that it does so in one step is the model's choice, log 19). Which
waits a trap abandons is the model's reading (log 16). -/
def Obligations.TrapsAtTurns : Prop :=  ∀ (s : State) (id : Nat), s.power = true →
    let t := thr s id
    (∀ (a : Async) (rest : List Async), t.async = a :: rest → t.life = .run → t.it = false → t.net = none → t.prv ≠ .f →
      a.cause.contains = false →
      (t.park = none ∨ ∃ (w : Wait) (since : Nat), t.park = some (.again w since) ∧ abandons a.cause w = true) →
      Does s (.trapEntry id) fun u => SameMemory s u ∧ (thr u id).async = rest ∧ (thr u id).it = true ∧ (thr u id).prv = .s
        ∧ (thr u id).pc = (ctx s t.ctx).tvb + BitVec.ofNat 64 a.cause.vector ∧ (thr u id).tepc = t.pc
        ∧ (thr u id).tca = BitVec.ofNat 8 a.cause.code ∧ (thr u id).tval = a.tval ∧ (thr u id).pprv = prvBits t.prv
        ∧ (thr u id).pp = t.pp ∧ (thr u id).pfx = t.pfx)
    ∧ (t.it = true → exec (.trapEntry id) s = .next s)
    ∧ (∀ (c : Nat) (m : FaultMsg) (rest : List FaultMsg), (cmpt s c).faultNet = m :: rest →
      ((cmpt s c).faultQ.length < 256 → Does s (.faultMessage c) fun u => SameMemory s u ∧ (cmpt u c).faultNet = rest
        ∧ (cmpt u c).faultQ = (cmpt s c).faultQ ++ [m])
      ∧ (256 ≤ (cmpt s c).faultQ.length → exec (.faultMessage c) s = .next s))
    ∧ (∀ (d : Word) (since : Nat), ClockOk s → t.life = .run → t.park = some (.again (.halt d) since) → (cmpt s (cmptOf id)).t < d.toNat →
      Does s (.haltDeadline id) fun u => SameMemory s u ∧ d.toNat ≤ (cmpt u (cmptOf id)).t ∧ (thr u id).pc = t.pc
        ∧ (thr u id).park = t.park)
    ∧ ∀ (c : Nat) (m : FaultMsg) (q : List FaultMsg) (r : List Choice), s.agenda = .firmware c :: r → (cmpt s c).faultQ = m :: q →
      let x := thr s m.ptid
      (m.nth = false → m.prv ≠ .f → m.cause.contains = true → x.life = .contained →
        ∃ u, step s = .next u ∧ SameMemory s u ∧ (cmpt u c).faultQ = q ∧ (thr u m.ptid).life = .run ∧ (thr u m.ptid).pc = (ctx s x.ctx).tvb
          ∧ (thr u m.ptid).tepc = m.pc ∧ (thr u m.ptid).tca = BitVec.ofNat 8 m.cause.code ∧ (thr u m.ptid).tval = m.val
          ∧ (thr u m.ptid).prv = .s ∧ (thr u m.ptid).it = true ∧ (thr u m.ptid).pprv = prvBits x.prv ∧ (thr u m.ptid).pp = x.pp
          ∧ (thr u m.ptid).pfx = x.pfx ∧ ∀ n : Reg, getX (thr u m.ptid) n.toNat = getX x n.toNat)
      ∧ (x.life ≠ .contained → ∃ u, step s = .next u ∧ SameMemory s u ∧ (cmpt u c).faultQ = q ∧ thr u m.ptid = x)

/-- R64, R165, R173-R177: the start unit reads the two ends of the oldest pair record and their rule, each by an access of its
own, orders the ends and, on the executing core, makes the image of R177 ready; it sends the record to that core from another
one. A record with a bad end, with no rule or with a malformed one, or whose words cannot be read, starts nothing and is
reported. R148, R149, R150, R151, R153, R391: an idle core takes the oldest record of its victim that its launch lets go;
nothing is stolen or recast in fixed-timing mode, nor where the launch forbids it; a dry stage core takes the stage whose input
is longest, the lowest among equals; an output element moves to the shortest input of its target stage, the lowest core among
equals. The order of victims and the step that a record is prepared in are the model's readings (log 24). -/
def Obligations.DispatchAndStealing : Prop :=
  (∀ (s : State) (c : Nat) (r : PairRec) (q : List PairRec), s.power = true →
     (core s c).prepared = none → (core s c).pairQ = r :: q → cmptOfCore c ∉ (ctx s r.ctx).stopped →
     let does (p : State → Prop) : Prop := Does s (.pairPrepare c) p
     let reported (e : Cause) : Prop := does fun t => (core t c).pairQ = q ∧ (core t c).prepared = none ∧ (core t c).prep = none ∧ SameMemory s t
       ∧ ∃ m : FaultMsg, (cmpt t (cmptOfCore c)).faultNet = (cmpt s (cmptOfCore c)).faultNet ++ [m] ∧ m.cause = e ∧ m.nth = true ∧ m.pc = r.anchor
         ∧ m.val = r.other ∧ m.ctx = r.ctx
     let asks (got : List Nat) (va : Word) (n : Nat) : Prop := ∀ ps, piecesNow s (startUnit c r.ctx) .load va n = (.ok ps, s) → does fun t =>
       SameMemory s t ∧ (core t c).pairQ = r :: q ∧ ∃ i x, (core t c).prep = some ⟨some i, got⟩ ∧ look t.accs i = some x ∧ x.agent = .start c
         ∧ x.lo = va.toNat ∧ x.size = n ∧ x.ctx = r.ctx
     let known (v : Nat) : Prop := (v / 2 ^ 56 % 256 = 1 ∨ 16 ≤ v / 2 ^ 56 % 256) ∧ v / 2 ^ 50 % 4 ≠ 3
     let good (v : Nat) : Prop := known v ∧ v / 2 ^ 48 % 4 ≠ 3
     ((core s c).prep = none →
       (tagOf r.anchor = 0 ∨ tagOf r.anchor = 2 ∨ tagOf r.anchor = 3 ∨ tagOf r.anchor = 4 → reported .netMalformed)
       ∧ (tagOf r.anchor = 1 → asks [] (bodyOf r.anchor) 32))
     ∧ (∀ va, tagOf r.anchor = 1 → (core s c).prep = some ⟨none, [va]⟩ →
       (¬known va → reported .netMalformed) ∧ (known va → ¬good va → reported .malformedStructure)
       ∧ (good va → (tagOf r.other = 1 → asks [va] (bodyOf r.other) 32)
         ∧ (tagOf r.other = 0 ∨ tagOf r.other = 2 ∨ tagOf r.other = 3 ∨ tagOf r.other = 4 → reported .netMalformed)))
     ∧ (∀ i x got, (core s c).prep = some ⟨some i, got⟩ → look s.accs i = some x → x.left = 0 → x.replies = 0 →
       (x.poisoned = true → reported .memoryError) ∧ (x.poisoned = false → x.stale = true → reported .staleGeneration)
       ∧ (x.poisoned = false → x.stale = false →
         let u := tick { s with accs := del s.accs i } (cmptOfCore c) (x.done + 1)
         (got.length < 2 → exec (.pairPrepare c) s = exec (.pairPrepare c) (setPrep u c (some ⟨none, got ++ [x.val]⟩)))
         ∧ ∀ va vb, got = [va, vb] → exec (.pairPrepare c) s = exec (.pairPrepare c)
           (setPrep (installRule u c r.ctx (waitedRule r va vb) (BitVec.ofNat 64 x.val)) c (some ⟨none, got⟩))))
     ∧ ∀ va vb, (core s c).prep = some ⟨none, [va, vb]⟩ ∨ ((core s c).prep = some ⟨none, [va]⟩ ∧ isNullary r.other = true ∧ vb = 0) →
       tagOf r.anchor = 1 → good va →
       let node := tagOf r.other = 1
       (node → ¬known vb → reported .netMalformed) ∧ (node → known vb → ¬good vb → reported .malformedStructure)
       ∧ (node ∧ good vb ∨ isNullary r.other = true →
         let ka := va / 2 ^ 56 % 256
         let kb := if node then vb / 2 ^ 56 % 256 else tagOf r.other - 3
         let key := 256 * min ka kb + max ka kb
         let swap := node ∧ kb < ka
         let word (v i : Nat) : Word := BitVec.ofNat 64 (v / 2 ^ (64 * i))
         waitedRule r va vb = key
         ∧ (cachedRule s c r.ctx key = none → asks [va, vb] (BitVec.ofNat 64 ((ctx s r.ctx).rules + 8 * key)) 8)
         ∧ ∀ v : Word, cachedRule s c r.ctx key = some v →
           (v.getLsbD 63 = false → reported .noRule)
           ∧ (v.getLsbD 63 = true → v.extractLsb' 16 45 ≠ 0 ∨ v.getLsbD 0 = true → reported .malformedStructure)
           ∧ (v.getLsbD 63 = true → v.extractLsb' 16 45 = 0 → v.getLsbD 0 = false →
             let second := node ∧ v.getLsbD 62 = true
             let port := if (swap ∧ ¬second) ∨ (¬swap ∧ second) then r.other else r.anchor
             ∀ p ps h, piecesNow s (startUnit c r.ctx) .load (bodyOf port) 32 = (.ok (p :: ps), s) → homeCore s p.pkg p.pa = some h →
             (h = c → does fun t => SameMemory s t ∧ (core t c).pairQ = q ∧ ∃ e : Prepared, (core t c).prepared = some e ∧ e.record = r
               ∧ e.entry = (v.extractLsb' 0 16).toNat ∧ e.lt = v.getLsbD 61
               ∧ (∀ i < 4, lookD e.image (8 + i) 0 = word (if swap then vb else va) i)
               ∧ (node → ∀ i < 4, lookD e.image (12 + i) 0 = word (if swap then va else vb) i)
               ∧ (¬node → lookD e.image 12 0 = BitVec.ofNat 64 (kb * 2 ^ 56) ∧ lookD e.image 13 0 = r.anchor ∧ lookD e.image 14 0 = r.other
                 ∧ lookD e.image 15 0 = 0))
             ∧ (h ≠ c → (core s c).sendQ.length < 16 → does fun t => SameMemory s t ∧ (core t c).pairQ = q ∧ ∃ e : SendEntry,
               (core t c).sendQ = (core s c).sendQ ++ [e] ∧ e.bodies = [(.pair r, h)] ∧ e.cls = .dispatch))))
  ∧ (∀ (s : State) (c : Nat), s.power = true →
       let k := cmptOfCore c
       let x := core s c
       let tl := tileOfCore c
       let input (d : Nat) : Nat := (lookD (core s d).chq 0 []).length
       let stage (d : Nat) : Nat := roleOf s d / 2 ^ 56 % 16
       let isOne (d : Nat) : Prop := d / 8 = tl ∧ roleOf s d / 2 ^ 60 % 16 = 4
       ((cmpt s k).fixt = true → exec (.stealRequest c) s = .next s ∧ exec (.autoRecast c) s = .next s)
       ∧ (c < 16384 → ∀ (v : Nat) (r : TaskRec) (a b : List TaskRec), v = (victims c).getD (x.stealNext % 22) c → v ≠ c → (cmpt s k).fixt = false → x.mapped = true →
         idleToSteal s c = true → (core s v).deck = a ++ r :: b → (∀ y ∈ a, stealable s c y = false) → stealable s c r = true →
         cmptOfCore v ∉ (ctx s r.ctx).stopped →
         Does s (.stealRequest c) fun t => SameMemory s t ∧ (core t v).deck = a ++ b ∧ ∃ y : TaskRec, (core t c).stolen = x.stolen ++ [y]
           ∧ y.words = r.words ∧ y.ctx = r.ctx ∧ y.launch = r.launch)
       ∧ (∀ (t : State) (d : Nat) (r : TaskRec), exec (.stealRequest c) s = .next t → r ∈ (core s d).deck →
         (∀ l : Launch, r.launch.bind (look s.launches) = some l → l.det = true ∨ l.nsteal = true) → r ∈ (core t d).deck)
       ∧ (c < 16384 → ∀ (d : Nat) (l : Launch), isOne c → roleOf s c / 2 ^ 55 % 2 = 1 → roleOf s c / 2 ^ 32 % 2 ^ 16 ≠ 0 → input c = 0 →
         (cmpt s k).fixt = false → (stageLaunch s c).bind (look s.launches) = some l → l.det = false → l.nrcst = false → isOne d →
         stage d ≠ stage c →
         (∀ e : Nat, isOne e → e ≠ d → input e < input d ∨ (input e = input d ∧ (stage d < stage e ∨ (stage e = stage d ∧ d < e)))) →
         Does s (.autoRecast c) fun t => SameMemory s t ∧ roleOf t c / 2 ^ 56 % 16 = stage d
           ∧ roleOf t c % 2 ^ 16 = roleOf s d % 2 ^ 16 ∧ roleOf t c / 2 ^ 60 = roleOf s c / 2 ^ 60
           ∧ roleOf t c / 2 ^ 16 % 2 ^ 40 = roleOf s c / 2 ^ 16 % 2 ^ 40)
       ∧ ∀ (d j : Nat) (v : ChanElt) (q : List ChanElt), c < 16384 → 1 ≤ j → j < 8 → isOne c → lookD x.chq j [] = v :: q → isOne d →
         stage d = (stage c + j) % 16 → input d < 16 →
         (∀ e : Nat, isOne e → e ≠ d → stage e = stage d → input d < input e ∨ (input e = input d ∧ d < e)) →
         Does s (.channelElementMove c j) fun t => SameMemory s t ∧ lookD (core t c).chq j [] = q
           ∧ ∃ y : ChanElt, lookD (core t d).chq 0 [] = lookD (core s d).chq 0 [] ++ [y] ∧ y.val = v.val ∧ y.ctx = v.ctx ∧ v.since < y.since
             ∧ cycOf s k < y.since ∧ lookD x.chanAt j 0 < y.since ∧ lookD (core t c).chanAt j 0 = y.since)


/-! ## The host and the firmware -/
/-- R423-R426, R448: an image that passes is measured and runs with no record posted yet, and after one that fails the package
answers only a new image and attestation. A kick waits unless 16 do; a bad one is dropped, one whose slot matches takes the
slot's packet at a read of its 100 ns grid, and one without a match for 4 µs is answered. A record enters the completion ring
while the host has consumed enough. Whether an image passes is open (log 18: DESIGN CHOICE). That a kick which comes to the head
too late is dropped, and what becomes of packets and kicks before an image runs, are the model's readings (log 32: DEDUCED). -/
def Obligations.HostQueues : Prop :=  ∀ (s : State), s.power = true →
    let h := s.host
    let note (kind : Nat) (v : Word) (ts : Nat) : Record := { kind := kind, status := 0, seq := v.setWidth 32, tag := 0, ts := ts, cnt := 0 }
    let noted (kind : Nat) (v : Word) (ts : Nat) : List Record := h.waiting ++ if s.booted = true then [note kind v ts] else []
    (∀ im, (Config.imageGood im = true → Does s (.bootImage im) fun t => t.booted = true ∧ t.measures = s.measures ++ [Config.digest im]
        ∧ SameMemory s t ∧ t.host = { h with posted := 0, consumed := 0 } ∧ t.pkg = if s.measures = [] then Config.packageNumber.toNat else s.pkg)
      ∧ (Config.imageGood im = false → exec (.bootImage im) s = .next { s with
        booted := false
        host := { h with taken := h.taken.filter (fun ws => (ws.headD 0).toNat / 2 ^ 24 % 2 ^ 8 == 6), calls := [] } }))
    ∧ (∀ v, (16 ≤ h.kicks.length → exec (.kick v) s = .next { s with host := { h with waiting := noted 0x32 v s.now } })
      ∧ (h.kicks.length < 16 → exec (.kick v) s = .next { s with host := { h with kicks := h.kicks ++ [(v, s.now)] } }))
    ∧ (∀ i ws, i < 256 → ws.length = 16 → exec (.intakeSlotWrite i ws) s = .next { s with host := { h with slots := put h.slots i ws } })
    ∧ (∀ v at_ rest, h.kicks = (v, at_) :: rest → at_ ≤ s.now →
      let good := v.toNat < 2 ^ 32 ∧ v.setWidth 32 = h.last + 1
      let matches_ (ws : List Word) : Prop := look h.slots (v.toNat % 256) = some ws ∧ (ws.headD 0).toNat / 2 ^ 32 = v.toNat
      let read := at_ + 120 * max 1 ((s.now - at_ + 119) / 120)
      let ahead : State := { s with
        now := max s.now (at_ + 4800)
        host := { h with kicks := rest, waiting := noted 0x31 v (at_ + 4800) } }
      (¬good → exec .kickSlotPoll s = .next { s with host := { h with kicks := rest, waiting := noted 0x32 v s.now } })
      ∧ (good → at_ + 4800 < read → exec .kickSlotPoll s = .next s)
      ∧ (good → (∀ ws, ¬matches_ ws) → (read ≤ at_ + 4800 → exec .kickSlotPoll s = .next { s with now := read + 1 })
        ∧ exec .kickAheadOfPacket s = .next ahead)
      ∧ (good → at_ + 4800 < s.now → exec .kickAheadOfPacket s = .next ahead)
      ∧ (good → read ≤ at_ + 4800 → ∀ ws, matches_ ws → exec .kickAheadOfPacket s = .next s ∧ Does s .kickSlotPoll fun t =>
        let kind := (ws.headD 0).toNat / 2 ^ 24 % 2 ^ 8
        let cn := (ws.headD 0).toNat / 2 ^ 12 % 2 ^ 12
        let bad := (ws.headD 0).toNat % 2 ^ 12 ≠ 0 ∨ kind = 0 ∨ 10 ≤ kind ∨ (kind ∈ [2, 5, 6] ∧ cn ≠ 0)
        SameMemory s t ∧ t.now = read ∧ t.host.kicks = rest
        ∧ t.host.last = v.setWidth 32
        ∧ (s.booted = true → ¬bad → t.host.taken = h.taken ++ [ws] ∧ t.host.waiting = h.waiting)
        ∧ (s.booted = true → bad → t.host.taken = h.taken
          ∧ t.host.waiting = h.waiting ++ [{ note 0x33 v t.now with status := 1 }])
        ∧ (s.booted = false → kind ≠ 6 → t.host.taken = h.taken ∧ t.host.waiting = h.waiting)))
    ∧ (∀ v, (h.consumed.toNat ≤ v.toNat → v.toNat ≤ h.posted →
        exec (.consumedRegister v) s = .next { s with host := { h with consumed := v } })
      ∧ (v.toNat < h.consumed.toNat ∨ h.posted < v.toNat → exec (.consumedRegister v) s = .next s))
    ∧ ∀ r rest, h.waiting = r :: rest →
      let key := keyOf s.pkg (ringEntry h.posted)
      (h.consumed.toNat + 256 ≤ h.posted → exec .hostRecordPost s = .next s)
      ∧ (h.posted < h.consumed.toNat + 256 → MemoryOk s → s.flaws = [] → Does s .hostRecordPost fun t =>
        t.host = { h with waiting := rest, posted := h.posted + 1 }
        ∧ bytesAt t.mem key 8 = (r.kind * 2 ^ 56 + r.status * 2 ^ 48 + r.seq.toNat) % 2 ^ 64 ∧ bytesAt t.mem (key + 8) 8 = r.tag % 2 ^ 64
        ∧ bytesAt t.mem (key + 16) 8 = r.ts % 2 ^ 64 ∧ bytesAt t.mem (key + 24) 8 = r.cnt % 2 ^ 64
        ∧ ∀ x, (x < key ∨ key + 32 ≤ x) → byteAt t.mem x = byteAt s.mem x)

/-- R22, R52, R207, R213-R215, R427-R429: a partition setup moves no compartment of a partition with a live context, and puts a
partition that changes in elastic mode; a context is created with the fields of its packet and released once no launch and no
thread of it is left; a launch is enqueued with all that its header names, or refused whole, as a packet with anything in its
reserved words is. R127, R163, R174, R204, R207, R213, R219, R367, R390: a launch starts when nothing of the other mode stands
before it, with its tasks available from the cycles that its mode gives (in a deterministic one the first with CYC a multiple of
448 after the cycle that fixed timing gives this moment), and what another context left in the tiles' accumulators and
semaphores is zeroed (log 39 says when a tile passes); a sweep of the cruise reads one core after another, and two that find
them all idle with the same equal counts end it; a change of mode gives every compartment of the partition its mode, fixed
timing takes CYC from the timestamp, and no other change follows unless a launch of the other mode is at the head of the queue.
The generation of a new context, the cycle in which a deterministic launch's tasks become available, what keeps its distance at
a change of mode, and when a tile passes to another context, are the model's readings (log 32, log 35, log 39). -/
def Obligations.FirmwareWork : Prop :=
  (∀ (s : State) (ws : List Word) (rest : List (List Word)), s.power = true → s.host.taken = ws :: rest →
     let w (i : Nat) : Nat := (ws.getD i 0).toNat
     let kind := w 0 / 2 ^ 24 % 2 ^ 8
     let n := w 0 / 2 ^ 12 % 2 ^ 12
     let zeroFrom (i : Nat) : Prop := ∀ j, i ≤ j → j < 16 → w j = 0
     let answers (i : Instr) (r : Record) (p : State → Prop) : Prop := Does s i fun t => SameMemory s t
       ∧ t.host = { s.host with taken := rest, waiting := s.host.waiting ++ [r] } ∧ p t
     let done (status : Nat) : Record := { kind := 0x33, status := status, seq := BitVec.ofNat 32 (w 0 / 2 ^ 32), tag := 0, ts := s.now, cnt := 0 }
     let ended (status tag : Nat) : Record := { done status with kind := 0x30, tag := tag }
     let quietly (t : State) : Prop := t = { s with host := t.host }
     let p : State := { s with host := { s.host with taken := rest } }
     (kind = 2 →
       let byte (c : Nat) : Nat := w (1 + c / 8) / 2 ^ (8 * (c % 8)) % 2 ^ 8
       let legal := zeroFrom 5 ∧ ∀ c < 32, byte c < 32 ∨ byte c = 255
       let new (c : Nat) : Option Nat := if byte c < 32 ∧ c ∉ s.dead then some (byte c) else none
       let keeps (p : Nat) : Prop := (List.range 32).filter (fun c => new c == some p) = cmptsOf s p
       (¬legal → answers .partitionSetup (done 1) quietly)
       ∧ (legal → (∃ x ∈ s.ctxs, x.2.live = true ∧ ¬keeps x.2.part) → answers .partitionSetup (done 2) quietly)
       ∧ (legal → (∀ x ∈ s.ctxs, x.2.live = true → keeps x.2.part) → Does s .partitionSetup fun t => SameMemory s t
         ∧ t.host = { s.host with taken := rest, waiting := s.host.waiting ++ [{ done 0 with ts := t.now }] } ∧ s.now ≤ t.now
         ∧ ∀ c < 32, (cmpt t c).part = new c ∧ ∀ p, new c = some p → (keeps p → (cmpt t c).fixt = (cmpt s c).fixt)
           ∧ (¬keeps p → (cmpt t c).fixt = false)))
     ∧ (kind = 7 →
       let legal := w 1 / 2 ^ 48 = 0 ∧ w 1 % 2 ^ 14 = 0 ∧ w 1 / 2 ^ 14 % 4 ≠ 2 ∧ w 2 / 2 ^ 37 = 0 ∧ w 2 / 2 ^ 13 % 2 ^ 19 = 0 ∧ w 2 % 2 ^ 8 = 0
         ∧ w 2 / 2 ^ 8 % 8 < 6 ∧ w 3 < 2 ^ 52 ∧ w 3 % 65536 = 0 ∧ w 4 < 2 ^ 52 ∧ w 4 % 32768 = 0 ∧ w 5 < 2 ^ 52 ∧ w 5 % 256 = 0 ∧ w 7 < 2 ^ 32
         ∧ w 8 < 2 ^ 52 ∧ w 8 % 64 = 0 ∧ zeroFrom 9
       let part := w 2 / 2 ^ 32 % 2 ^ 5
       let free := n ≠ 0 ∧ (ctx s n).live = false ∧ cmptsOf s part ≠ []
       (¬legal → answers .createContext (done 1) quietly)
       ∧ (legal → ¬free → answers .createContext (done 3) quietly)
       ∧ (legal → free → answers .createContext (done 0) fun t => ctx t n =
         { live := true, root := w 1 / 2 ^ 16 * 2 ^ 16, part := part, d2ok := decide (w 2 / 2 ^ 12 % 2 = 1), fixt := decide (w 2 / 2 ^ 11 % 2 = 1)
           rm := BitVec.ofNat 3 (w 2 / 2 ^ 8), rules := w 3, v0 := w 4, tvb := ws.getD 5 0, seed := ws.getD 6 0
           pdl := if w 7 = 0 then 1000 else w 7, save := w 8 }))
     ∧ (kind = 8 →
       let busy := launchesOf s n = true ∨ ∃ p ∈ s.threads, p.2.life ≠ .free ∧ p.2.ctx = n
       let free := (ctx s n).live = true ∧ (ctx s n).killing = none
       (¬zeroFrom 1 → answers .releaseContext (done 1) quietly)
       ∧ (zeroFrom 1 → (ctx s n).live = false → answers .releaseContext (done 3) quietly)
       ∧ (zeroFrom 1 → (ctx s n).live = true → (ctx s n).killing ≠ none → exec .releaseContext s = .next s)
       ∧ (zeroFrom 1 → free → busy → answers .releaseContext (done 2) quietly)
       ∧ (zeroFrom 1 → free → ¬busy → rising s.ctxs = true → answers .releaseContext (done 0) fun t =>
         (ctx t n).live = false ∧ (∀ m, m ≠ n → ctx t m = ctx s m) ∧ ∀ tl, ∀ l ∈ (tile t tl).tlb, l.ctx ≠ n))
     ∧ (kind = 1 →
       let place (a : Nat) : Prop := ∃ l, walkPage s n a = .ok l ∧ (l.tier = .on ∨ l.tier = .hbm)
       let stands := w 1 < 2 ^ 52 ∧ w 1 % 64 = 0 ∧ place (w 1) ∧ place (w 1 + 64)
       let held (r : Read (List Nat)) : Prop := match r with
         | .wait => exec .launch s = .next s
         | .bad _ => answers .launch (ended 1 0) fun _ => True
         | .val hs u =>
           let hw (i : Nat) : Nat := hs.getD i 0
           (hw 0 / 2 ^ 32 % 2 ^ 15 = 0 ∨ decide (hw 0 / 2 ^ 62 % 2 = 1) ≠ (ctx s n).fixt ∨ hw 15 ≠ 0 →
             captureLaunch u n (BitVec.ofNat 32 (w 0 / 2 ^ 32)) hs = .bad u)
           ∧ match captureLaunch u n (BitVec.ofNat 32 (w 0 / 2 ^ 32)) hs with
             | .wait => exec .launch s = .next s
             | .bad _ => hw 13 / 2 ^ 63 % 2 = 0 → answers .launch (ended 1 (hw 0 % 2 ^ 32)) fun _ => True
             | .val l v => Does s .launch fun t => SameMemory s t
               ∧ t.host = { s.host with taken := rest } ∧ look t.launches v.ids = some l ∧ l.running = false ∧ l.ctx = n ∧ l.part = (ctx s n).part
               ∧ l.tag.toNat = hw 0 % 2 ^ 32 ∧ l.fixt = (ctx s n).fixt ∧ l.seed = (ctx s n).seed ∧ l.gone = goneNow u
               ∧ (part t l.part).queue = (part v l.part).queue ++ [v.ids]
       (¬zeroFrom 2 → answers .launch (done 1) quietly)
       ∧ (zeroFrom 2 → (ctx s n).live = false → answers .launch (ended 3 0) quietly)
       ∧ (zeroFrom 2 → (ctx s n).live = true → ¬stands → answers .launch (ended 1 0) quietly)
       ∧ (zeroFrom 2 → (ctx s n).live = true → stands → held (readWords p n (w 1) 16))))
  ∧ (∀ (s : State) (i : Nat) (l : Launch), s.power = true → look s.launches i = some l →
       (∀ a b, (part s l.part).queue = a ++ i :: b → i ∉ a ++ b → (part s l.part).change = none → clockMode s l.part = l.fixt →
         (∀ j ∈ a, ∀ m, look s.launches j = some m → m.fixt = l.fixt) → tilesReady s l.ctx (cmptsOf s l.part) = true →
         Does s (.launchStart i) fun t => SameMemory s t
           ∧ (part t l.part).queue = a ++ b ∧ (∀ x, cmptOfTile x ∈ cmptsOf s l.part → (tile t x).buffered = [])
           ∧ (∀ x, cmptOfTile x ∈ cmptsOf s l.part → passes s l.ctx (cmptOfTile x) = true → (cmpt t (cmptOfTile x)).ran = l.ctx
             ∧ (tile t x).acc = [] ∧ (tile t x).anchors = [] ∧ (tile t x).staging = [] ∧ (tile t x).books = [] ∧ (tile t x).sems = [])
           ∧ (∀ x, passes s l.ctx (cmptOfTile x) = false → (tile t x).acc = (tile s x).acc ∧ (tile t x).sems = (tile s x).sems)
           ∧ ∃ m, look t.launches i = some m ∧ m.running = true ∧ ∀ k ∈ cmptsOf s l.part,
             let from_ := lookD m.avail k 0
             if l.det = true ∧ l.fixt = true then from_ % 448 = 0 ∧ 7 * s.now / 15 < from_ ∧ from_ ≤ 7 * s.now / 15 + 448
             else from_ = cycOf t k + 1)
       ∧ (((part s l.part).change ≠ none ∨ i ∉ (part s l.part).queue ∨ clockMode s l.part ≠ l.fixt
           ∨ tilesReady s l.ctx (cmptsOf s l.part) = false) → exec (.launchStart i) s = .next s)
       ∧ (let r := l.reading.getD {}
         let left := (sweptCores s i l).filter fun c => !r.seen.contains c
         let reads (c : Nat) : Sweep :=
           { seen := c :: r.seen, idle := r.idle && coreIdle s i l c, sent := r.sent + lookD (core s c).sent i 0
             recv := r.recv + lookD (core s c).recv i 0 }
         let swept (x : Sweep) : Prop :=
           let agrees := x.idle = true ∧ (ctx s l.ctx).stopped = [] ∧ x.sent = x.recv
           let becomes (y : Launch) : Prop := Does s (.cruiseSweep i) fun t => SameMemory s t ∧ t.host = s.host ∧ look t.launches i = some y
           (¬agrees → becomes { l with reading := none, sweep := none })
           ∧ (agrees → l.sweep ≠ some (x.sent, x.recv) → becomes { l with reading := none, sweep := some (x.sent, x.recv) })
           ∧ (agrees → l.sweep = some (x.sent, x.recv) → l.etgt = false → Does s (.cruiseSweep i) fun t => SameMemory s t
             ∧ look t.launches i = some { l with reading := none, running := false, ended := true }
             ∧ (∀ x, ∀ g ∈ (tile t x).sets, g.2.launch ≠ some i)
             ∧ t.host = { s.host with waiting := s.host.waiting ++ [⟨0x30, 0, l.seq, l.tag.toNat, s.now, 0, 4095⟩] })
         (l.running = false → exec (.cruiseSweep i) s = .next s)
         ∧ (l.running = true → left = [] → swept r)
         ∧ (l.running = true → ∀ c, left = [c] → swept (reads c))
         ∧ (l.running = true → 2 ≤ left.length → Does s (.cruiseSweep i) fun t => SameMemory s t ∧ t.host = s.host
           ∧ ∃ c ∈ left, look t.launches i = some { l with reading := some (reads c) }))
       ∧ ∀ p fixt time, (part s p).change = some (fixt, time) → ClockOk s → rising s.cmpts = true → Does s (.modeChangeComplete p) fun t => SameMemory s t
         ∧ time ≤ t.now
           ∧ (cmptsOf s p ≠ [] → (∀ j rest m, (part s p).queue = j :: rest → look s.launches j = some m → m.fixt = fixt) → (part t p).change = none)
           ∧ ∀ k ∈ cmptsOf s p, (cmpt t k).fixt = fixt ∧ time ≤ (cmpt t k).t
           ∧ (fixt = true → (cmpt s k).fixt = false → (cmpt t k).cyc = 7 * (cmpt t k).t / 15))

/-- R109, R159, R160, R225, R231, R429: a pre-emption takes what the context holds out of the cores of its mask and sends each
of its threads there the pre-emption trap, a resume puts it all back in front, but for what has come into a landing meanwhile,
and starts each core's save routine, and a kill, by packet or at the deadline, advances the generation and frees or kills every
thread. A kill is answered when every unit has reported and no thread is left. A packet waits while an earlier pre-emption or
kill of its context is under way. What is written to the save area is open (log 53: DESIGN CHOICE). That moved items come back
in front, and that packets wait for one another, are the model's (log 31: DESIGN CHOICE, log 30: DEDUCED). -/
def Obligations.ContextControl : Prop :=  ∀ (s : State) (n : Nat), s.power = true →
    let x := ctx s n
    let dying (t : State) (reply : Option (BitVec 32)) (status : Nat) : Prop := SameMemory s t ∧ (ctx t n).cgen = x.cgen + 1
      ∧ (ctx t n).killing = some (reply, status, yarderUnits) ∧ (∀ j ∈ t.jobs, j.2.ctx ≠ n)
      ∧ (∀ id, (thr s id).ctx = n → (thr t id).life = .free ∨ (thr t id).life = .killed)
      ∧ ∀ c, (∀ r ∈ (core t c).deck, r.ctx ≠ n) ∧ (∀ r ∈ (core t c).pairQ, r.ctx ≠ n) ∧ ∀ e ∈ (core t c).landing, e.ctx ≠ n
    (∀ ks seq time, x.preempt = some (ks, seq, time) → Does s (.preEmptionDeadline n) fun t => dying t (some seq) 4 ∧ time ≤ t.now)
    ∧ (∀ r st units u, x.killing = some (r, st, units) → let left := units.filter fun v => v != u
      (u ∉ units ∨ killedWrites s n = true → exec (.yarderKillReport n u) s = .next s)
      ∧ (killedWrites s n = false → u ∈ units → left ≠ [] ∨ holders s n ≠ [] → Does s (.yarderKillReport n u) fun t => SameMemory s t
        ∧ (ctx t n).killing = some (r, st, left) ∧ t.host = s.host)
      ∧ (killedWrites s n = false → u ∈ units → left = [] → holders s n = [] → Does s (.yarderKillReport n u) fun t => SameMemory s t ∧ (ctx t n).killing = none
        ∧ t.host.waiting = s.host.waiting ++ match r with | some q => [⟨0x33, st, q, 0, s.now, 0, 4095⟩] | none => []))
    ∧ ∀ ws rest, s.host.taken = ws :: rest → (ws.headD 0).toNat / 2 ^ 12 % 2 ^ 12 = n → x.live = true →
      let w (i : Nat) : Nat := (ws.getD i 0).toNat
      let kind := w 0 / 2 ^ 24 % 2 ^ 8
      let seq := BitVec.ofNat 32 (w 0 / 2 ^ 32)
      let zeroFrom (i : Nat) : Prop := ∀ j, i ≤ j → j < 16 → w j = 0
      let ks := (cmptsOf s x.part).filter fun k => w 1 == 0 || (w 1).testBit k
      let named (c : Nat) : Prop := cmptOfCore c ∈ ks
      let idle := x.preempt = none ∧ x.killing = none
      (¬idle → (kind = 4 → zeroFrom 1 → exec .killContext s = .next s)
        ∧ (kind = 3 → w 1 < 2 ^ 32 → zeroFrom 2 → exec .preEmptContext s = .next s)
        ∧ (kind = 9 → w 1 < 2 ^ 32 → zeroFrom 2 → exec .resumeContext s = .next s))
      ∧ (kind = 4 → zeroFrom 1 → idle → Does s .killContext fun t => dying t (some seq) 0 ∧ t.host.taken = rest)
      ∧ (kind = 3 → w 1 < 2 ^ 32 → zeroFrom 2 → idle → (∀ f ∈ s.frames, ∀ a b c, f.2.mode ≠ .migrating a b c) → Does s .preEmptContext fun t =>
        ((∀ a ≥ x.save, ∃ e, walkPage s n a = .error e) → SameMemory s t)
        ∧ t.host.taken = rest ∧ (∀ k ∈ ks, k ∈ (ctx t n).stopped)
        ∧ (∀ c, named c → (∀ r ∈ (core t c).deck, r.ctx ≠ n) ∧ (∀ r ∈ (core t c).pairQ, r.ctx ≠ n) ∧ ∀ e ∈ (core t c).landing, e.ctx ≠ n)
        ∧ (∀ id, (thr s id).ctx = n → (thr s id).life ≠ .free → (thr s id).life ≠ .killed → ending (thr s id) = false → cmptOf id ∈ ks →
          ⟨.preEmption, 0⟩ ∈ (thr t id).async)
        ∧ ((∃ p ∈ s.threads, p.2.ctx = n ∧ p.2.life ≠ .free ∧ cmptOf p.1 ∈ ks) →
          (ctx t n).preempt = some (ks, seq, s.now + x.pdl * 1200) ∧ t.host.waiting = s.host.waiting)
        ∧ ((∀ p ∈ s.threads, p.2.ctx = n → cmptOf p.1 ∈ ks → p.2.life = .free) → (ctx t n).preempt = none
          ∧ t.host.waiting = s.host.waiting ++ [⟨0x33, 0, seq, 0, s.now, 0, 4095⟩]))
      ∧ (kind = 9 → w 1 < 2 ^ 32 → zeroFrom 2 → idle →
        (∀ v ∈ x.saved, named v.core → v.threads ≠ 0 → (systemWaiting s v.core).length < 4) →
        x.saved.Pairwise (fun a b => a.core ≠ b.core) → (∀ v ∈ x.saved, ∀ e ∈ v.landing, e.ctx = n) → tilesReady s n ks = true → Does s .resumeContext fun t => SameMemory s t
          ∧ (∀ k ∈ (ctx t n).stopped, k ∉ ks) ∧ (∀ v ∈ (ctx t n).saved, ¬named v.core)
          ∧ t.host = { s.host with taken := rest, waiting := s.host.waiting ++ [⟨0x33, 0, seq, 0, s.now, 0, 4095⟩] }
          ∧ ∀ v ∈ x.saved, named v.core →
            let now := cycOf s (cmptOfCore v.core) + 1
            let waits (ls hs : List LandEntry) (p : Nat) : List (BitVec 8 × Nat × BitVec 32) :=
              ((ls ++ hs).filter fun e => e.prio == p).map fun e => (e.kind, e.stid, e.seq)
            (core t v.core).deck = v.deck.map (fun r => { r with since := now }) ++ (core s v.core).deck
            ∧ (core t v.core).pairQ = v.pairQ ++ (core s v.core).pairQ
            ∧ (core t v.core).intake = v.intake.map (fun e => (now, e.2)) ++ (core s v.core).intake
            ∧ (∀ p, waits (core t v.core).landing (core t v.core).heldRecs p
              = waits (core s v.core).landing (core s v.core).heldRecs p ++ waits v.landing v.heldRecs p)
            ∧ (v.threads ≠ 0 → ∃ q p m, look t.packets q = some p ∧ p.cls = .system ∧ p.stage = .ready ∧ p.core = v.core ∧ p.body = .msg m
              ∧ m.pc = x.tvb + 0x100 ∧ m.ctx = n ∧ m.data = toBytes 8 v.threads))

/-- R426, R429, R430: a log read gives the oldest entries and takes them out; an attestation gives the measurements, the fuse
identity, the nonce and the signature. Both write host memory from the address of their packet on. The digests, fuses, signature
and the base of the host window are open (log 6, log 18). -/
def Obligations.LogAndAttestation : Prop :=  ∀ (s : State) (ws : List Word) (rest : List (List Word)), s.power = true → s.host.taken = ws :: rest → MemoryOk s → s.flaws = [] →
    let w (i : Nat) : Nat := (ws.getD i 0).toNat
    let kind := w 0 / 2 ^ 24 % 2 ^ 8
    let zeroFrom (i : Nat) : Prop := ∀ j, i ≤ j → j < 16 → w j = 0
    let key (a : Nat) : Nat := keyOf s.pkg (0x2000_0000_0000 + (a - Config.hostBase))
    let inWindow (a n : Nat) : Prop := Config.hostBase ≤ a ∧ a + n ≤ Config.hostBase + 0x1000_0000_0000
    let answers (i : Instr) (status cnt : Nat) (p : State → Prop) : Prop := Does s i fun t => p t
      ∧ t.host = { s.host with
          taken := rest
          waiting := s.host.waiting ++ [⟨0x33, status, BitVec.ofNat 32 (w 0 / 2 ^ 32), 0, s.now, cnt, 4095⟩] }
    (kind = 5 →
      let a := w 1
      let legal := a % 32 = 0 ∧ 1 ≤ w 2 ∧ w 2 ≤ 4096 ∧ zeroFrom 3
      let es := s.log.take (w 2)
      (¬legal → answers .readLog 1 0 fun t => SameMemory s t ∧ t.log = s.log)
      ∧ (legal → inWindow a (32 * es.length) → answers .readLog 0 es.length fun t => t.log = s.log.drop (w 2)
        ∧ (∀ i e, es[i]? = some e →
          bytesAt t.mem (key a + 32 * i) 8 = (0x40 * 2 ^ 56 + e.err * 2 ^ 48 + (if e.last then 2 ^ 47 else 0) + (if e.inj then 2 ^ 46 else 0)
            + e.act * 2 ^ 44 + e.src * 2 ^ 32 + e.lost) % 2 ^ 64
          ∧ bytesAt t.mem (key a + 32 * i + 8) 8 = e.ts % 2 ^ 64 ∧ bytesAt t.mem (key a + 32 * i + 16) 8 = e.place % 2 ^ 64
          ∧ bytesAt t.mem (key a + 32 * i + 24) 8 = e.det % 2 ^ 64)
        ∧ ∀ x, (x < key a ∨ key a + 32 * es.length ≤ x) → byteAt t.mem x = byteAt s.mem x))
    ∧ (kind = 6 →
      let a := w 9
      let m := s.measures.length
      let n := 8 + 64 * m + 32 + 64 + 4627
      let legal := a % 64 = 0 ∧ w 10 < 2 ^ 32 ∧ n ≤ w 10 ∧ zeroFrom 11
      (¬legal → answers .attest 1 0 fun t => SameMemory s t)
      ∧ (legal → inWindow a n → answers .attest 0 n fun t => bytesAt t.mem (key a) 8 = m % 2 ^ 64
        ∧ (∀ i d, s.measures[i]? = some d → d.length = 64 → ∀ j < 64, byteAt t.mem (key a + 8 + 64 * i + j) = d.getD j 0)
        ∧ (∀ j < 32, byteAt t.mem (key a + 8 + 64 * m + j) = Config.fuseByte j)
        ∧ (∀ i < 8, bytesAt t.mem (key a + 40 + 64 * m + 8 * i) 8 = w (1 + i))
        ∧ (∃ body, ∀ j < 4627, byteAt t.mem (key a + 104 + 64 * m + j) = Config.signatureByte body j)
        ∧ ∀ x, (x < key a ∨ key a + n ≤ x) → byteAt t.mem x = byteAt s.mem x))
end

