-- ==== Sys2Proof/Laws/Tab.lean ====
section
/-! SUPPORT. Sparse tables: what a row reads as after a write, a removal or a map. -/

namespace Sys2Proof.Machine

variable {α : Type}

@[simp] theorem look_put (t : Tab α) (n : Nat) (x : α) : look (put t n x) n = some x := by
  induction t with
  | nil => simp [put, look]
  | cons p t ih =>
    obtain ⟨k, v⟩ := p
    simp only [put]
    split
    · simp [look]
    · split
      · simp [look]
      · simp_all [look]

theorem look_put_ne (t : Tab α) {n m : Nat} (x : α) (h : n ≠ m) : look (put t n x) m = look t m := by
  induction t with
  | nil => simp [put, look, h]
  | cons p t ih =>
    obtain ⟨k, v⟩ := p
    simp only [put]
    split
    · next hk => subst hk; simp [look, h]
    · split <;> simp_all [look]

@[simp] theorem lookD_put (t : Tab α) (n : Nat) (x d : α) : lookD (put t n x) n d = x := by simp [lookD]

theorem lookD_put_ne (t : Tab α) {n m : Nat} (x d : α) (h : n ≠ m) : lookD (put t n x) m d = lookD t m d := by
  simp [lookD, look_put_ne t x h]

/-- The row of any key after a write. -/
theorem look_put_eq (t : Tab α) (n m : Nat) (x : α) : look (put t n x) m = if n = m then some x else look t m := by
  split
  · next h => subst h; simp
  · next h => exact look_put_ne t x h

/-- A later write of a row replaces an earlier one. -/
@[simp] theorem put_put (t : Tab α) (n : Nat) (x y : α) : put (put t n x) n y = put t n y := by
  induction t with
  | nil => simp [put]
  | cons p t ih =>
    obtain ⟨k, v⟩ := p
    simp only [put]
    split
    · simp [put]
    · split
      · simp [put]
      · next hk hn => simp [put, hk, hn, ih]

theorem rising_tail {p : Nat × α} {t : Tab α} (h : rising (p :: t) = true) : rising t = true := by
  cases t with
  | nil => rfl
  | cons q t => simp [rising] at h; exact h.2

/-- A write keeps the keys rising. -/
theorem rising_put {t : Tab α} (h : rising t = true) (n : Nat) (x : α) : rising (put t n x) = true := by
  induction t with
  | nil => rfl
  | cons p t ih =>
    obtain ⟨k, v⟩ := p
    simp only [put]
    split
    · next hk => subst hk; cases t <;> simp_all [rising]
    · split
      · simp_all [rising]
      · next hk hn =>
        have := ih (rising_tail h)
        cases t with
        | nil => simp [put, rising]; omega
        | cons q t =>
          obtain ⟨k', v'⟩ := q
          simp only [rising, Bool.and_eq_true, decide_eq_true_eq] at h
          simp only [put] at this ⊢
          split
          · next e => simp_all [rising]
          · split <;> simp_all [rising]; omega

/-- Below every key a table has no row. -/
theorem look_below {p : Nat × α} {t : Tab α} (h : rising (p :: t) = true) {m : Nat} (hm : m ≤ p.1) : look t m = none := by
  induction t generalizing p with
  | nil => rfl
  | cons q t ih =>
    obtain ⟨k, v⟩ := q
    simp only [rising, Bool.and_eq_true, decide_eq_true_eq] at h
    have hk : k ≠ m := by omega
    simp only [look, hk, if_false]
    exact ih h.2 (by omega)

/-- A removed row is gone. -/
theorem look_del {t : Tab α} (h : rising t = true) (n : Nat) : look (del t n) n = none := by
  induction t with
  | nil => rfl
  | cons p t ih =>
    obtain ⟨k, v⟩ := p
    simp only [del]
    split
    · next hk => exact look_below h (by simp [hk])
    · next hk => simp [look, hk, ih (rising_tail h)]

theorem look_del_ne (t : Tab α) {n m : Nat} (h : n ≠ m) : look (del t n) m = look t m := by
  induction t with
  | nil => rfl
  | cons p t ih =>
    obtain ⟨k, v⟩ := p
    simp only [del]
    split
    · next hk => subst hk; simp [look, h]
    · simp [look, ih]

end Sys2Proof.Machine
end

