-- ==== Sys2Proof/Laws/State.lean ====
section
/-! SUPPORT. What each named update leaves in every field of the state, and what its row reads as. -/

namespace Sys2Proof.Machine

@[simp] theorem setThr_power (s : State) (t : Nat) (v : Thread) : (setThr s t v).power = s.power := rfl
@[simp] theorem setThr_booted (s : State) (t : Nat) (v : Thread) : (setThr s t v).booted = s.booted := rfl
@[simp] theorem setThr_measures (s : State) (t : Nat) (v : Thread) : (setThr s t v).measures = s.measures := rfl
@[simp] theorem setThr_pkg (s : State) (t : Nat) (v : Thread) : (setThr s t v).pkg = s.pkg := rfl
@[simp] theorem setThr_now (s : State) (t : Nat) (v : Thread) : (setThr s t v).now = s.now := rfl
@[simp] theorem setThr_mem (s : State) (t : Nat) (v : Thread) : (setThr s t v).mem = s.mem := rfl
@[simp] theorem setThr_flaws (s : State) (t : Nat) (v : Thread) : (setThr s t v).flaws = s.flaws := rfl
@[simp] theorem setThr_frames (s : State) (t : Nat) (v : Thread) : (setThr s t v).frames = s.frames := rfl
@[simp] theorem setThr_threads (s : State) (t : Nat) (v : Thread) : (setThr s t v).threads = put s.threads t v := rfl
@[simp] theorem setThr_cores (s : State) (t : Nat) (v : Thread) : (setThr s t v).cores = s.cores := rfl
@[simp] theorem setThr_tiles (s : State) (t : Nat) (v : Thread) : (setThr s t v).tiles = s.tiles := rfl
@[simp] theorem setThr_cmpts (s : State) (t : Nat) (v : Thread) : (setThr s t v).cmpts = s.cmpts := rfl
@[simp] theorem setThr_ctxs (s : State) (t : Nat) (v : Thread) : (setThr s t v).ctxs = s.ctxs := rfl
@[simp] theorem setThr_launches (s : State) (t : Nat) (v : Thread) : (setThr s t v).launches = s.launches := rfl
@[simp] theorem setThr_parts (s : State) (t : Nat) (v : Thread) : (setThr s t v).parts = s.parts := rfl
@[simp] theorem setThr_reqs (s : State) (t : Nat) (v : Thread) : (setThr s t v).reqs = s.reqs := rfl
@[simp] theorem setThr_accs (s : State) (t : Nat) (v : Thread) : (setThr s t v).accs = s.accs := rfl
@[simp] theorem setThr_walks (s : State) (t : Nat) (v : Thread) : (setThr s t v).walks = s.walks := rfl
@[simp] theorem setThr_packets (s : State) (t : Nat) (v : Thread) : (setThr s t v).packets = s.packets := rfl
@[simp] theorem setThr_jobs (s : State) (t : Nat) (v : Thread) : (setThr s t v).jobs = s.jobs := rfl
@[simp] theorem setThr_away (s : State) (t : Nat) (v : Thread) : (setThr s t v).away = s.away := rfl
@[simp] theorem setThr_log (s : State) (t : Nat) (v : Thread) : (setThr s t v).log = s.log := rfl
@[simp] theorem setThr_lost (s : State) (t : Nat) (v : Thread) : (setThr s t v).lost = s.lost := rfl
@[simp] theorem setThr_dead (s : State) (t : Nat) (v : Thread) : (setThr s t v).dead = s.dead := rfl
@[simp] theorem setThr_pairNext (s : State) (t : Nat) (v : Thread) : (setThr s t v).pairNext = s.pairNext := rfl
@[simp] theorem setThr_host (s : State) (t : Nat) (v : Thread) : (setThr s t v).host = s.host := rfl
@[simp] theorem setThr_agenda (s : State) (t : Nat) (v : Thread) : (setThr s t v).agenda = s.agenda := rfl
@[simp] theorem setThr_cur (s : State) (t : Nat) (v : Thread) : (setThr s t v).cur = s.cur := rfl
@[simp] theorem setThr_fresh (s : State) (t : Nat) (v : Thread) : (setThr s t v).fresh = s.fresh := rfl
@[simp] theorem setThr_ids (s : State) (t : Nat) (v : Thread) : (setThr s t v).ids = s.ids := rfl

@[simp] theorem setCore_power (s : State) (c : Nat) (v : Core) : (setCore s c v).power = s.power := rfl
@[simp] theorem setCore_booted (s : State) (c : Nat) (v : Core) : (setCore s c v).booted = s.booted := rfl
@[simp] theorem setCore_measures (s : State) (c : Nat) (v : Core) : (setCore s c v).measures = s.measures := rfl
@[simp] theorem setCore_pkg (s : State) (c : Nat) (v : Core) : (setCore s c v).pkg = s.pkg := rfl
@[simp] theorem setCore_now (s : State) (c : Nat) (v : Core) : (setCore s c v).now = s.now := rfl
@[simp] theorem setCore_mem (s : State) (c : Nat) (v : Core) : (setCore s c v).mem = s.mem := rfl
@[simp] theorem setCore_flaws (s : State) (c : Nat) (v : Core) : (setCore s c v).flaws = s.flaws := rfl
@[simp] theorem setCore_frames (s : State) (c : Nat) (v : Core) : (setCore s c v).frames = s.frames := rfl
@[simp] theorem setCore_threads (s : State) (c : Nat) (v : Core) : (setCore s c v).threads = s.threads := rfl
@[simp] theorem setCore_cores (s : State) (c : Nat) (v : Core) : (setCore s c v).cores = put s.cores c v := rfl
@[simp] theorem setCore_tiles (s : State) (c : Nat) (v : Core) : (setCore s c v).tiles = s.tiles := rfl
@[simp] theorem setCore_cmpts (s : State) (c : Nat) (v : Core) : (setCore s c v).cmpts = s.cmpts := rfl
@[simp] theorem setCore_ctxs (s : State) (c : Nat) (v : Core) : (setCore s c v).ctxs = s.ctxs := rfl
@[simp] theorem setCore_launches (s : State) (c : Nat) (v : Core) : (setCore s c v).launches = s.launches := rfl
@[simp] theorem setCore_parts (s : State) (c : Nat) (v : Core) : (setCore s c v).parts = s.parts := rfl
@[simp] theorem setCore_reqs (s : State) (c : Nat) (v : Core) : (setCore s c v).reqs = s.reqs := rfl
@[simp] theorem setCore_accs (s : State) (c : Nat) (v : Core) : (setCore s c v).accs = s.accs := rfl
@[simp] theorem setCore_walks (s : State) (c : Nat) (v : Core) : (setCore s c v).walks = s.walks := rfl
@[simp] theorem setCore_packets (s : State) (c : Nat) (v : Core) : (setCore s c v).packets = s.packets := rfl
@[simp] theorem setCore_jobs (s : State) (c : Nat) (v : Core) : (setCore s c v).jobs = s.jobs := rfl
@[simp] theorem setCore_away (s : State) (c : Nat) (v : Core) : (setCore s c v).away = s.away := rfl
@[simp] theorem setCore_log (s : State) (c : Nat) (v : Core) : (setCore s c v).log = s.log := rfl
@[simp] theorem setCore_lost (s : State) (c : Nat) (v : Core) : (setCore s c v).lost = s.lost := rfl
@[simp] theorem setCore_dead (s : State) (c : Nat) (v : Core) : (setCore s c v).dead = s.dead := rfl
@[simp] theorem setCore_pairNext (s : State) (c : Nat) (v : Core) : (setCore s c v).pairNext = s.pairNext := rfl
@[simp] theorem setCore_host (s : State) (c : Nat) (v : Core) : (setCore s c v).host = s.host := rfl
@[simp] theorem setCore_agenda (s : State) (c : Nat) (v : Core) : (setCore s c v).agenda = s.agenda := rfl
@[simp] theorem setCore_cur (s : State) (c : Nat) (v : Core) : (setCore s c v).cur = s.cur := rfl
@[simp] theorem setCore_fresh (s : State) (c : Nat) (v : Core) : (setCore s c v).fresh = s.fresh := rfl
@[simp] theorem setCore_ids (s : State) (c : Nat) (v : Core) : (setCore s c v).ids = s.ids := rfl

@[simp] theorem setTile_power (s : State) (t : Nat) (v : Tile) : (setTile s t v).power = s.power := rfl
@[simp] theorem setTile_booted (s : State) (t : Nat) (v : Tile) : (setTile s t v).booted = s.booted := rfl
@[simp] theorem setTile_measures (s : State) (t : Nat) (v : Tile) : (setTile s t v).measures = s.measures := rfl
@[simp] theorem setTile_pkg (s : State) (t : Nat) (v : Tile) : (setTile s t v).pkg = s.pkg := rfl
@[simp] theorem setTile_now (s : State) (t : Nat) (v : Tile) : (setTile s t v).now = s.now := rfl
@[simp] theorem setTile_mem (s : State) (t : Nat) (v : Tile) : (setTile s t v).mem = s.mem := rfl
@[simp] theorem setTile_flaws (s : State) (t : Nat) (v : Tile) : (setTile s t v).flaws = s.flaws := rfl
@[simp] theorem setTile_frames (s : State) (t : Nat) (v : Tile) : (setTile s t v).frames = s.frames := rfl
@[simp] theorem setTile_threads (s : State) (t : Nat) (v : Tile) : (setTile s t v).threads = s.threads := rfl
@[simp] theorem setTile_cores (s : State) (t : Nat) (v : Tile) : (setTile s t v).cores = s.cores := rfl
@[simp] theorem setTile_tiles (s : State) (t : Nat) (v : Tile) : (setTile s t v).tiles = put s.tiles t v := rfl
@[simp] theorem setTile_cmpts (s : State) (t : Nat) (v : Tile) : (setTile s t v).cmpts = s.cmpts := rfl
@[simp] theorem setTile_ctxs (s : State) (t : Nat) (v : Tile) : (setTile s t v).ctxs = s.ctxs := rfl
@[simp] theorem setTile_launches (s : State) (t : Nat) (v : Tile) : (setTile s t v).launches = s.launches := rfl
@[simp] theorem setTile_parts (s : State) (t : Nat) (v : Tile) : (setTile s t v).parts = s.parts := rfl
@[simp] theorem setTile_reqs (s : State) (t : Nat) (v : Tile) : (setTile s t v).reqs = s.reqs := rfl
@[simp] theorem setTile_accs (s : State) (t : Nat) (v : Tile) : (setTile s t v).accs = s.accs := rfl
@[simp] theorem setTile_walks (s : State) (t : Nat) (v : Tile) : (setTile s t v).walks = s.walks := rfl
@[simp] theorem setTile_packets (s : State) (t : Nat) (v : Tile) : (setTile s t v).packets = s.packets := rfl
@[simp] theorem setTile_jobs (s : State) (t : Nat) (v : Tile) : (setTile s t v).jobs = s.jobs := rfl
@[simp] theorem setTile_away (s : State) (t : Nat) (v : Tile) : (setTile s t v).away = s.away := rfl
@[simp] theorem setTile_log (s : State) (t : Nat) (v : Tile) : (setTile s t v).log = s.log := rfl
@[simp] theorem setTile_lost (s : State) (t : Nat) (v : Tile) : (setTile s t v).lost = s.lost := rfl
@[simp] theorem setTile_dead (s : State) (t : Nat) (v : Tile) : (setTile s t v).dead = s.dead := rfl
@[simp] theorem setTile_pairNext (s : State) (t : Nat) (v : Tile) : (setTile s t v).pairNext = s.pairNext := rfl
@[simp] theorem setTile_host (s : State) (t : Nat) (v : Tile) : (setTile s t v).host = s.host := rfl
@[simp] theorem setTile_agenda (s : State) (t : Nat) (v : Tile) : (setTile s t v).agenda = s.agenda := rfl
@[simp] theorem setTile_cur (s : State) (t : Nat) (v : Tile) : (setTile s t v).cur = s.cur := rfl
@[simp] theorem setTile_fresh (s : State) (t : Nat) (v : Tile) : (setTile s t v).fresh = s.fresh := rfl
@[simp] theorem setTile_ids (s : State) (t : Nat) (v : Tile) : (setTile s t v).ids = s.ids := rfl

@[simp] theorem setCmpt_power (s : State) (c : Nat) (v : Cmpt) : (setCmpt s c v).power = s.power := rfl
@[simp] theorem setCmpt_booted (s : State) (c : Nat) (v : Cmpt) : (setCmpt s c v).booted = s.booted := rfl
@[simp] theorem setCmpt_measures (s : State) (c : Nat) (v : Cmpt) : (setCmpt s c v).measures = s.measures := rfl
@[simp] theorem setCmpt_pkg (s : State) (c : Nat) (v : Cmpt) : (setCmpt s c v).pkg = s.pkg := rfl
@[simp] theorem setCmpt_now (s : State) (c : Nat) (v : Cmpt) : (setCmpt s c v).now = s.now := rfl
@[simp] theorem setCmpt_mem (s : State) (c : Nat) (v : Cmpt) : (setCmpt s c v).mem = s.mem := rfl
@[simp] theorem setCmpt_flaws (s : State) (c : Nat) (v : Cmpt) : (setCmpt s c v).flaws = s.flaws := rfl
@[simp] theorem setCmpt_frames (s : State) (c : Nat) (v : Cmpt) : (setCmpt s c v).frames = s.frames := rfl
@[simp] theorem setCmpt_threads (s : State) (c : Nat) (v : Cmpt) : (setCmpt s c v).threads = s.threads := rfl
@[simp] theorem setCmpt_cores (s : State) (c : Nat) (v : Cmpt) : (setCmpt s c v).cores = s.cores := rfl
@[simp] theorem setCmpt_tiles (s : State) (c : Nat) (v : Cmpt) : (setCmpt s c v).tiles = s.tiles := rfl
@[simp] theorem setCmpt_cmpts (s : State) (c : Nat) (v : Cmpt) : (setCmpt s c v).cmpts = put s.cmpts c v := rfl
@[simp] theorem setCmpt_ctxs (s : State) (c : Nat) (v : Cmpt) : (setCmpt s c v).ctxs = s.ctxs := rfl
@[simp] theorem setCmpt_launches (s : State) (c : Nat) (v : Cmpt) : (setCmpt s c v).launches = s.launches := rfl
@[simp] theorem setCmpt_parts (s : State) (c : Nat) (v : Cmpt) : (setCmpt s c v).parts = s.parts := rfl
@[simp] theorem setCmpt_reqs (s : State) (c : Nat) (v : Cmpt) : (setCmpt s c v).reqs = s.reqs := rfl
@[simp] theorem setCmpt_accs (s : State) (c : Nat) (v : Cmpt) : (setCmpt s c v).accs = s.accs := rfl
@[simp] theorem setCmpt_walks (s : State) (c : Nat) (v : Cmpt) : (setCmpt s c v).walks = s.walks := rfl
@[simp] theorem setCmpt_packets (s : State) (c : Nat) (v : Cmpt) : (setCmpt s c v).packets = s.packets := rfl
@[simp] theorem setCmpt_jobs (s : State) (c : Nat) (v : Cmpt) : (setCmpt s c v).jobs = s.jobs := rfl
@[simp] theorem setCmpt_away (s : State) (c : Nat) (v : Cmpt) : (setCmpt s c v).away = s.away := rfl
@[simp] theorem setCmpt_log (s : State) (c : Nat) (v : Cmpt) : (setCmpt s c v).log = s.log := rfl
@[simp] theorem setCmpt_lost (s : State) (c : Nat) (v : Cmpt) : (setCmpt s c v).lost = s.lost := rfl
@[simp] theorem setCmpt_dead (s : State) (c : Nat) (v : Cmpt) : (setCmpt s c v).dead = s.dead := rfl
@[simp] theorem setCmpt_pairNext (s : State) (c : Nat) (v : Cmpt) : (setCmpt s c v).pairNext = s.pairNext := rfl
@[simp] theorem setCmpt_host (s : State) (c : Nat) (v : Cmpt) : (setCmpt s c v).host = s.host := rfl
@[simp] theorem setCmpt_agenda (s : State) (c : Nat) (v : Cmpt) : (setCmpt s c v).agenda = s.agenda := rfl
@[simp] theorem setCmpt_cur (s : State) (c : Nat) (v : Cmpt) : (setCmpt s c v).cur = s.cur := rfl
@[simp] theorem setCmpt_fresh (s : State) (c : Nat) (v : Cmpt) : (setCmpt s c v).fresh = s.fresh := rfl
@[simp] theorem setCmpt_ids (s : State) (c : Nat) (v : Cmpt) : (setCmpt s c v).ids = s.ids := rfl

@[simp] theorem setCtx_power (s : State) (n : Nat) (v : Ctx) : (setCtx s n v).power = s.power := rfl
@[simp] theorem setCtx_booted (s : State) (n : Nat) (v : Ctx) : (setCtx s n v).booted = s.booted := rfl
@[simp] theorem setCtx_measures (s : State) (n : Nat) (v : Ctx) : (setCtx s n v).measures = s.measures := rfl
@[simp] theorem setCtx_pkg (s : State) (n : Nat) (v : Ctx) : (setCtx s n v).pkg = s.pkg := rfl
@[simp] theorem setCtx_now (s : State) (n : Nat) (v : Ctx) : (setCtx s n v).now = s.now := rfl
@[simp] theorem setCtx_mem (s : State) (n : Nat) (v : Ctx) : (setCtx s n v).mem = s.mem := rfl
@[simp] theorem setCtx_flaws (s : State) (n : Nat) (v : Ctx) : (setCtx s n v).flaws = s.flaws := rfl
@[simp] theorem setCtx_frames (s : State) (n : Nat) (v : Ctx) : (setCtx s n v).frames = s.frames := rfl
@[simp] theorem setCtx_threads (s : State) (n : Nat) (v : Ctx) : (setCtx s n v).threads = s.threads := rfl
@[simp] theorem setCtx_cores (s : State) (n : Nat) (v : Ctx) : (setCtx s n v).cores = s.cores := rfl
@[simp] theorem setCtx_tiles (s : State) (n : Nat) (v : Ctx) : (setCtx s n v).tiles = s.tiles := rfl
@[simp] theorem setCtx_cmpts (s : State) (n : Nat) (v : Ctx) : (setCtx s n v).cmpts = s.cmpts := rfl
@[simp] theorem setCtx_ctxs (s : State) (n : Nat) (v : Ctx) : (setCtx s n v).ctxs = put s.ctxs n v := rfl
@[simp] theorem setCtx_launches (s : State) (n : Nat) (v : Ctx) : (setCtx s n v).launches = s.launches := rfl
@[simp] theorem setCtx_parts (s : State) (n : Nat) (v : Ctx) : (setCtx s n v).parts = s.parts := rfl
@[simp] theorem setCtx_reqs (s : State) (n : Nat) (v : Ctx) : (setCtx s n v).reqs = s.reqs := rfl
@[simp] theorem setCtx_accs (s : State) (n : Nat) (v : Ctx) : (setCtx s n v).accs = s.accs := rfl
@[simp] theorem setCtx_walks (s : State) (n : Nat) (v : Ctx) : (setCtx s n v).walks = s.walks := rfl
@[simp] theorem setCtx_packets (s : State) (n : Nat) (v : Ctx) : (setCtx s n v).packets = s.packets := rfl
@[simp] theorem setCtx_jobs (s : State) (n : Nat) (v : Ctx) : (setCtx s n v).jobs = s.jobs := rfl
@[simp] theorem setCtx_away (s : State) (n : Nat) (v : Ctx) : (setCtx s n v).away = s.away := rfl
@[simp] theorem setCtx_log (s : State) (n : Nat) (v : Ctx) : (setCtx s n v).log = s.log := rfl
@[simp] theorem setCtx_lost (s : State) (n : Nat) (v : Ctx) : (setCtx s n v).lost = s.lost := rfl
@[simp] theorem setCtx_dead (s : State) (n : Nat) (v : Ctx) : (setCtx s n v).dead = s.dead := rfl
@[simp] theorem setCtx_pairNext (s : State) (n : Nat) (v : Ctx) : (setCtx s n v).pairNext = s.pairNext := rfl
@[simp] theorem setCtx_host (s : State) (n : Nat) (v : Ctx) : (setCtx s n v).host = s.host := rfl
@[simp] theorem setCtx_agenda (s : State) (n : Nat) (v : Ctx) : (setCtx s n v).agenda = s.agenda := rfl
@[simp] theorem setCtx_cur (s : State) (n : Nat) (v : Ctx) : (setCtx s n v).cur = s.cur := rfl
@[simp] theorem setCtx_fresh (s : State) (n : Nat) (v : Ctx) : (setCtx s n v).fresh = s.fresh := rfl
@[simp] theorem setCtx_ids (s : State) (n : Nat) (v : Ctx) : (setCtx s n v).ids = s.ids := rfl

@[simp] theorem setPart_power (s : State) (p : Nat) (v : Part) : (setPart s p v).power = s.power := rfl
@[simp] theorem setPart_booted (s : State) (p : Nat) (v : Part) : (setPart s p v).booted = s.booted := rfl
@[simp] theorem setPart_measures (s : State) (p : Nat) (v : Part) : (setPart s p v).measures = s.measures := rfl
@[simp] theorem setPart_pkg (s : State) (p : Nat) (v : Part) : (setPart s p v).pkg = s.pkg := rfl
@[simp] theorem setPart_now (s : State) (p : Nat) (v : Part) : (setPart s p v).now = s.now := rfl
@[simp] theorem setPart_mem (s : State) (p : Nat) (v : Part) : (setPart s p v).mem = s.mem := rfl
@[simp] theorem setPart_flaws (s : State) (p : Nat) (v : Part) : (setPart s p v).flaws = s.flaws := rfl
@[simp] theorem setPart_frames (s : State) (p : Nat) (v : Part) : (setPart s p v).frames = s.frames := rfl
@[simp] theorem setPart_threads (s : State) (p : Nat) (v : Part) : (setPart s p v).threads = s.threads := rfl
@[simp] theorem setPart_cores (s : State) (p : Nat) (v : Part) : (setPart s p v).cores = s.cores := rfl
@[simp] theorem setPart_tiles (s : State) (p : Nat) (v : Part) : (setPart s p v).tiles = s.tiles := rfl
@[simp] theorem setPart_cmpts (s : State) (p : Nat) (v : Part) : (setPart s p v).cmpts = s.cmpts := rfl
@[simp] theorem setPart_ctxs (s : State) (p : Nat) (v : Part) : (setPart s p v).ctxs = s.ctxs := rfl
@[simp] theorem setPart_launches (s : State) (p : Nat) (v : Part) : (setPart s p v).launches = s.launches := rfl
@[simp] theorem setPart_parts (s : State) (p : Nat) (v : Part) : (setPart s p v).parts = put s.parts p v := rfl
@[simp] theorem setPart_reqs (s : State) (p : Nat) (v : Part) : (setPart s p v).reqs = s.reqs := rfl
@[simp] theorem setPart_accs (s : State) (p : Nat) (v : Part) : (setPart s p v).accs = s.accs := rfl
@[simp] theorem setPart_walks (s : State) (p : Nat) (v : Part) : (setPart s p v).walks = s.walks := rfl
@[simp] theorem setPart_packets (s : State) (p : Nat) (v : Part) : (setPart s p v).packets = s.packets := rfl
@[simp] theorem setPart_jobs (s : State) (p : Nat) (v : Part) : (setPart s p v).jobs = s.jobs := rfl
@[simp] theorem setPart_away (s : State) (p : Nat) (v : Part) : (setPart s p v).away = s.away := rfl
@[simp] theorem setPart_log (s : State) (p : Nat) (v : Part) : (setPart s p v).log = s.log := rfl
@[simp] theorem setPart_lost (s : State) (p : Nat) (v : Part) : (setPart s p v).lost = s.lost := rfl
@[simp] theorem setPart_dead (s : State) (p : Nat) (v : Part) : (setPart s p v).dead = s.dead := rfl
@[simp] theorem setPart_pairNext (s : State) (p : Nat) (v : Part) : (setPart s p v).pairNext = s.pairNext := rfl
@[simp] theorem setPart_host (s : State) (p : Nat) (v : Part) : (setPart s p v).host = s.host := rfl
@[simp] theorem setPart_agenda (s : State) (p : Nat) (v : Part) : (setPart s p v).agenda = s.agenda := rfl
@[simp] theorem setPart_cur (s : State) (p : Nat) (v : Part) : (setPart s p v).cur = s.cur := rfl
@[simp] theorem setPart_fresh (s : State) (p : Nat) (v : Part) : (setPart s p v).fresh = s.fresh := rfl
@[simp] theorem setPart_ids (s : State) (p : Nat) (v : Part) : (setPart s p v).ids = s.ids := rfl

@[simp] theorem newId_power (s : State) : (newId s).2.power = s.power := rfl
@[simp] theorem newId_booted (s : State) : (newId s).2.booted = s.booted := rfl
@[simp] theorem newId_measures (s : State) : (newId s).2.measures = s.measures := rfl
@[simp] theorem newId_pkg (s : State) : (newId s).2.pkg = s.pkg := rfl
@[simp] theorem newId_now (s : State) : (newId s).2.now = s.now := rfl
@[simp] theorem newId_mem (s : State) : (newId s).2.mem = s.mem := rfl
@[simp] theorem newId_flaws (s : State) : (newId s).2.flaws = s.flaws := rfl
@[simp] theorem newId_frames (s : State) : (newId s).2.frames = s.frames := rfl
@[simp] theorem newId_threads (s : State) : (newId s).2.threads = s.threads := rfl
@[simp] theorem newId_cores (s : State) : (newId s).2.cores = s.cores := rfl
@[simp] theorem newId_tiles (s : State) : (newId s).2.tiles = s.tiles := rfl
@[simp] theorem newId_cmpts (s : State) : (newId s).2.cmpts = s.cmpts := rfl
@[simp] theorem newId_ctxs (s : State) : (newId s).2.ctxs = s.ctxs := rfl
@[simp] theorem newId_launches (s : State) : (newId s).2.launches = s.launches := rfl
@[simp] theorem newId_parts (s : State) : (newId s).2.parts = s.parts := rfl
@[simp] theorem newId_reqs (s : State) : (newId s).2.reqs = s.reqs := rfl
@[simp] theorem newId_accs (s : State) : (newId s).2.accs = s.accs := rfl
@[simp] theorem newId_walks (s : State) : (newId s).2.walks = s.walks := rfl
@[simp] theorem newId_packets (s : State) : (newId s).2.packets = s.packets := rfl
@[simp] theorem newId_jobs (s : State) : (newId s).2.jobs = s.jobs := rfl
@[simp] theorem newId_away (s : State) : (newId s).2.away = s.away := rfl
@[simp] theorem newId_log (s : State) : (newId s).2.log = s.log := rfl
@[simp] theorem newId_lost (s : State) : (newId s).2.lost = s.lost := rfl
@[simp] theorem newId_dead (s : State) : (newId s).2.dead = s.dead := rfl
@[simp] theorem newId_pairNext (s : State) : (newId s).2.pairNext = s.pairNext := rfl
@[simp] theorem newId_host (s : State) : (newId s).2.host = s.host := rfl
@[simp] theorem newId_agenda (s : State) : (newId s).2.agenda = s.agenda := rfl
@[simp] theorem newId_cur (s : State) : (newId s).2.cur = s.cur := rfl
@[simp] theorem newId_fresh (s : State) : (newId s).2.fresh = s.fresh := rfl
@[simp] theorem newId_ids (s : State) : (newId s).2.ids = s.ids + 1 := rfl

@[simp] theorem openWord_power (s : State) : (openWord s).2.power = s.power := rfl
@[simp] theorem openWord_booted (s : State) : (openWord s).2.booted = s.booted := rfl
@[simp] theorem openWord_measures (s : State) : (openWord s).2.measures = s.measures := rfl
@[simp] theorem openWord_pkg (s : State) : (openWord s).2.pkg = s.pkg := rfl
@[simp] theorem openWord_now (s : State) : (openWord s).2.now = s.now := rfl
@[simp] theorem openWord_mem (s : State) : (openWord s).2.mem = s.mem := rfl
@[simp] theorem openWord_flaws (s : State) : (openWord s).2.flaws = s.flaws := rfl
@[simp] theorem openWord_frames (s : State) : (openWord s).2.frames = s.frames := rfl
@[simp] theorem openWord_threads (s : State) : (openWord s).2.threads = s.threads := rfl
@[simp] theorem openWord_cores (s : State) : (openWord s).2.cores = s.cores := rfl
@[simp] theorem openWord_tiles (s : State) : (openWord s).2.tiles = s.tiles := rfl
@[simp] theorem openWord_cmpts (s : State) : (openWord s).2.cmpts = s.cmpts := rfl
@[simp] theorem openWord_ctxs (s : State) : (openWord s).2.ctxs = s.ctxs := rfl
@[simp] theorem openWord_launches (s : State) : (openWord s).2.launches = s.launches := rfl
@[simp] theorem openWord_parts (s : State) : (openWord s).2.parts = s.parts := rfl
@[simp] theorem openWord_reqs (s : State) : (openWord s).2.reqs = s.reqs := rfl
@[simp] theorem openWord_accs (s : State) : (openWord s).2.accs = s.accs := rfl
@[simp] theorem openWord_walks (s : State) : (openWord s).2.walks = s.walks := rfl
@[simp] theorem openWord_packets (s : State) : (openWord s).2.packets = s.packets := rfl
@[simp] theorem openWord_jobs (s : State) : (openWord s).2.jobs = s.jobs := rfl
@[simp] theorem openWord_away (s : State) : (openWord s).2.away = s.away := rfl
@[simp] theorem openWord_log (s : State) : (openWord s).2.log = s.log := rfl
@[simp] theorem openWord_lost (s : State) : (openWord s).2.lost = s.lost := rfl
@[simp] theorem openWord_dead (s : State) : (openWord s).2.dead = s.dead := rfl
@[simp] theorem openWord_pairNext (s : State) : (openWord s).2.pairNext = s.pairNext := rfl
@[simp] theorem openWord_host (s : State) : (openWord s).2.host = s.host := rfl
@[simp] theorem openWord_agenda (s : State) : (openWord s).2.agenda = s.agenda := rfl
@[simp] theorem openWord_cur (s : State) : (openWord s).2.cur = s.cur := rfl
@[simp] theorem openWord_fresh (s : State) : (openWord s).2.fresh = s.fresh + 1 := rfl
@[simp] theorem openWord_ids (s : State) : (openWord s).2.ids = s.ids := rfl

@[simp] theorem newId_name (s : State) : (newId s).1 = s.ids := rfl
@[simp] theorem openWord_value (s : State) : (openWord s).1 = Config.freeWord s.fresh := rfl

@[simp] theorem thr_setThr (s : State) (n : Nat) (v : Thread) : thr (setThr s n v) n = v := by simp [thr, setThr]
theorem thr_setThr_ne (s : State) {n m : Nat} (v : Thread) (h : n ≠ m) : thr (setThr s n v) m = thr s m := by
  simp [thr, setThr, lookD_put_ne _ _ _ h]
@[simp] theorem setThr_setThr (s : State) (n : Nat) (v w : Thread) : setThr (setThr s n v) n w = setThr s n w := by simp [setThr]
@[simp] theorem thr_setCore (s : State) (n m : Nat) (v : Core) : thr (setCore s n v) m = thr s m := rfl
@[simp] theorem thr_setTile (s : State) (n m : Nat) (v : Tile) : thr (setTile s n v) m = thr s m := rfl
@[simp] theorem thr_setCmpt (s : State) (n m : Nat) (v : Cmpt) : thr (setCmpt s n v) m = thr s m := rfl
@[simp] theorem thr_setCtx (s : State) (n m : Nat) (v : Ctx) : thr (setCtx s n v) m = thr s m := rfl
@[simp] theorem thr_setPart (s : State) (n m : Nat) (v : Part) : thr (setPart s n v) m = thr s m := rfl

@[simp] theorem core_setCore (s : State) (n : Nat) (v : Core) : core (setCore s n v) n = v := by simp [core, setCore]
theorem core_setCore_ne (s : State) {n m : Nat} (v : Core) (h : n ≠ m) : core (setCore s n v) m = core s m := by
  simp [core, setCore, lookD_put_ne _ _ _ h]
@[simp] theorem setCore_setCore (s : State) (n : Nat) (v w : Core) : setCore (setCore s n v) n w = setCore s n w := by simp [setCore]
@[simp] theorem core_setThr (s : State) (n m : Nat) (v : Thread) : core (setThr s n v) m = core s m := rfl
@[simp] theorem core_setTile (s : State) (n m : Nat) (v : Tile) : core (setTile s n v) m = core s m := rfl
@[simp] theorem core_setCmpt (s : State) (n m : Nat) (v : Cmpt) : core (setCmpt s n v) m = core s m := rfl
@[simp] theorem core_setCtx (s : State) (n m : Nat) (v : Ctx) : core (setCtx s n v) m = core s m := rfl
@[simp] theorem core_setPart (s : State) (n m : Nat) (v : Part) : core (setPart s n v) m = core s m := rfl

@[simp] theorem tile_setTile (s : State) (n : Nat) (v : Tile) : tile (setTile s n v) n = v := by simp [tile, setTile]
theorem tile_setTile_ne (s : State) {n m : Nat} (v : Tile) (h : n ≠ m) : tile (setTile s n v) m = tile s m := by
  simp [tile, setTile, lookD_put_ne _ _ _ h]
@[simp] theorem setTile_setTile (s : State) (n : Nat) (v w : Tile) : setTile (setTile s n v) n w = setTile s n w := by simp [setTile]
@[simp] theorem tile_setThr (s : State) (n m : Nat) (v : Thread) : tile (setThr s n v) m = tile s m := rfl
@[simp] theorem tile_setCore (s : State) (n m : Nat) (v : Core) : tile (setCore s n v) m = tile s m := rfl
@[simp] theorem tile_setCmpt (s : State) (n m : Nat) (v : Cmpt) : tile (setCmpt s n v) m = tile s m := rfl
@[simp] theorem tile_setCtx (s : State) (n m : Nat) (v : Ctx) : tile (setCtx s n v) m = tile s m := rfl
@[simp] theorem tile_setPart (s : State) (n m : Nat) (v : Part) : tile (setPart s n v) m = tile s m := rfl

@[simp] theorem cmpt_setCmpt (s : State) (n : Nat) (v : Cmpt) : cmpt (setCmpt s n v) n = v := by simp [cmpt, setCmpt]
theorem cmpt_setCmpt_ne (s : State) {n m : Nat} (v : Cmpt) (h : n ≠ m) : cmpt (setCmpt s n v) m = cmpt s m := by
  simp [cmpt, setCmpt, lookD_put_ne _ _ _ h]
@[simp] theorem setCmpt_setCmpt (s : State) (n : Nat) (v w : Cmpt) : setCmpt (setCmpt s n v) n w = setCmpt s n w := by simp [setCmpt]
@[simp] theorem cmpt_setThr (s : State) (n m : Nat) (v : Thread) : cmpt (setThr s n v) m = cmpt s m := rfl
@[simp] theorem cmpt_setCore (s : State) (n m : Nat) (v : Core) : cmpt (setCore s n v) m = cmpt s m := rfl
@[simp] theorem cmpt_setTile (s : State) (n m : Nat) (v : Tile) : cmpt (setTile s n v) m = cmpt s m := rfl
@[simp] theorem cmpt_setCtx (s : State) (n m : Nat) (v : Ctx) : cmpt (setCtx s n v) m = cmpt s m := rfl
@[simp] theorem cmpt_setPart (s : State) (n m : Nat) (v : Part) : cmpt (setPart s n v) m = cmpt s m := rfl

@[simp] theorem ctx_setCtx (s : State) (n : Nat) (v : Ctx) : ctx (setCtx s n v) n = v := by simp [ctx, setCtx]
theorem ctx_setCtx_ne (s : State) {n m : Nat} (v : Ctx) (h : n ≠ m) : ctx (setCtx s n v) m = ctx s m := by
  simp [ctx, setCtx, lookD_put_ne _ _ _ h]
@[simp] theorem setCtx_setCtx (s : State) (n : Nat) (v w : Ctx) : setCtx (setCtx s n v) n w = setCtx s n w := by simp [setCtx]
@[simp] theorem ctx_setThr (s : State) (n m : Nat) (v : Thread) : ctx (setThr s n v) m = ctx s m := rfl
@[simp] theorem ctx_setCore (s : State) (n m : Nat) (v : Core) : ctx (setCore s n v) m = ctx s m := rfl
@[simp] theorem ctx_setTile (s : State) (n m : Nat) (v : Tile) : ctx (setTile s n v) m = ctx s m := rfl
@[simp] theorem ctx_setCmpt (s : State) (n m : Nat) (v : Cmpt) : ctx (setCmpt s n v) m = ctx s m := rfl
@[simp] theorem ctx_setPart (s : State) (n m : Nat) (v : Part) : ctx (setPart s n v) m = ctx s m := rfl

@[simp] theorem part_setPart (s : State) (n : Nat) (v : Part) : part (setPart s n v) n = v := by simp [part, setPart]
theorem part_setPart_ne (s : State) {n m : Nat} (v : Part) (h : n ≠ m) : part (setPart s n v) m = part s m := by
  simp [part, setPart, lookD_put_ne _ _ _ h]
@[simp] theorem setPart_setPart (s : State) (n : Nat) (v w : Part) : setPart (setPart s n v) n w = setPart s n w := by simp [setPart]
@[simp] theorem part_setThr (s : State) (n m : Nat) (v : Thread) : part (setThr s n v) m = part s m := rfl
@[simp] theorem part_setCore (s : State) (n m : Nat) (v : Core) : part (setCore s n v) m = part s m := rfl
@[simp] theorem part_setTile (s : State) (n m : Nat) (v : Tile) : part (setTile s n v) m = part s m := rfl
@[simp] theorem part_setCmpt (s : State) (n m : Nat) (v : Cmpt) : part (setCmpt s n v) m = part s m := rfl
@[simp] theorem part_setCtx (s : State) (n m : Nat) (v : Ctx) : part (setCtx s n v) m = part s m := rfl

@[simp] theorem cycOf_setThr (s : State) (n c : Nat) (v : Thread) : cycOf (setThr s n v) c = cycOf s c := rfl
@[simp] theorem cycOf_setCore (s : State) (n c : Nat) (v : Core) : cycOf (setCore s n v) c = cycOf s c := rfl
@[simp] theorem cycOf_setTile (s : State) (n c : Nat) (v : Tile) : cycOf (setTile s n v) c = cycOf s c := rfl
@[simp] theorem cycOf_setCtx (s : State) (n c : Nat) (v : Ctx) : cycOf (setCtx s n v) c = cycOf s c := rfl

theorem setThr_setCore (s : State) (n m : Nat) (v : Thread) (w : Core) : setThr (setCore s m w) n v = setCore (setThr s n v) m w := rfl
theorem setThr_setTile (s : State) (n m : Nat) (v : Thread) (w : Tile) : setThr (setTile s m w) n v = setTile (setThr s n v) m w := rfl
theorem setThr_setCmpt (s : State) (n m : Nat) (v : Thread) (w : Cmpt) : setThr (setCmpt s m w) n v = setCmpt (setThr s n v) m w := rfl
theorem setThr_setCtx (s : State) (n m : Nat) (v : Thread) (w : Ctx) : setThr (setCtx s m w) n v = setCtx (setThr s n v) m w := rfl
theorem setThr_setPart (s : State) (n m : Nat) (v : Thread) (w : Part) : setThr (setPart s m w) n v = setPart (setThr s n v) m w := rfl
theorem setCore_setTile (s : State) (n m : Nat) (v : Core) (w : Tile) : setCore (setTile s m w) n v = setTile (setCore s n v) m w := rfl
theorem setCore_setCmpt (s : State) (n m : Nat) (v : Core) (w : Cmpt) : setCore (setCmpt s m w) n v = setCmpt (setCore s n v) m w := rfl
theorem setCore_setCtx (s : State) (n m : Nat) (v : Core) (w : Ctx) : setCore (setCtx s m w) n v = setCtx (setCore s n v) m w := rfl
theorem setCore_setPart (s : State) (n m : Nat) (v : Core) (w : Part) : setCore (setPart s m w) n v = setPart (setCore s n v) m w := rfl
theorem setTile_setCmpt (s : State) (n m : Nat) (v : Tile) (w : Cmpt) : setTile (setCmpt s m w) n v = setCmpt (setTile s n v) m w := rfl
theorem setTile_setCtx (s : State) (n m : Nat) (v : Tile) (w : Ctx) : setTile (setCtx s m w) n v = setCtx (setTile s n v) m w := rfl
theorem setTile_setPart (s : State) (n m : Nat) (v : Tile) (w : Part) : setTile (setPart s m w) n v = setPart (setTile s n v) m w := rfl
theorem setCmpt_setCtx (s : State) (n m : Nat) (v : Cmpt) (w : Ctx) : setCmpt (setCtx s m w) n v = setCtx (setCmpt s n v) m w := rfl
theorem setCmpt_setPart (s : State) (n m : Nat) (v : Cmpt) (w : Part) : setCmpt (setPart s m w) n v = setPart (setCmpt s n v) m w := rfl
theorem setCtx_setPart (s : State) (n m : Nat) (v : Ctx) (w : Part) : setCtx (setPart s m w) n v = setPart (setCtx s n v) m w := rfl

end Sys2Proof.Machine
end

