-- ==== Sys2Proof/Laws/Registers.lean ====
section
/-! SUPPORT. Registers: what a write of one leaves in every field of the thread, what each register reads as afterwards, and
what landing results change. -/

namespace Sys2Proof.Machine

@[simp] theorem setX_life (t : Thread) (r : Nat) (v : Word) : (setX t r v).life = t.life := by
  unfold setX setCurWin; split_ifs <;> rfl
@[simp] theorem setX_ctx (t : Thread) (r : Nat) (v : Word) : (setX t r v).ctx = t.ctx := by
  unfold setX setCurWin; split_ifs <;> rfl
@[simp] theorem setX_launch (t : Thread) (r : Nat) (v : Word) : (setX t r v).launch = t.launch := by
  unfold setX setCurWin; split_ifs <;> rfl
@[simp] theorem setX_pc (t : Thread) (r : Nat) (v : Word) : (setX t r v).pc = t.pc := by
  unfold setX setCurWin; split_ifs <;> rfl
@[simp] theorem setX_cur (t : Thread) (r : Nat) (v : Word) : (setX t r v).cur = t.cur := by
  unfold setX setCurWin; split_ifs <;> rfl
@[simp] theorem setX_olive (t : Thread) (r : Nat) (v : Word) : (setX t r v).olive = t.olive := by
  unfold setX setCurWin; split_ifs <;> rfl
@[simp] theorem setX_depth (t : Thread) (r : Nat) (v : Word) : (setX t r v).depth = t.depth := by
  unfold setX setCurWin; split_ifs <;> rfl
@[simp] theorem setX_spilled (t : Thread) (r : Nat) (v : Word) : (setX t r v).spilled = t.spilled := by
  unfold setX setCurWin; split_ifs <;> rfl
@[simp] theorem setX_refilled (t : Thread) (r : Nat) (v : Word) : (setX t r v).refilled = t.refilled := by
  unfold setX setCurWin; split_ifs <;> rfl
@[simp] theorem setX_refill (t : Thread) (r : Nat) (v : Word) : (setX t r v).refill = t.refill := by
  unfold setX setCurWin; split_ifs <;> rfl
@[simp] theorem setX_spillFault (t : Thread) (r : Nat) (v : Word) : (setX t r v).spillFault = t.spillFault := by
  unfold setX setCurWin; split_ifs <;> rfl
@[simp] theorem setX_spillTurn (t : Thread) (r : Nat) (v : Word) : (setX t r v).spillTurn = t.spillTurn := by
  unfold setX setCurWin; split_ifs <;> rfl
@[simp] theorem setX_saves (t : Thread) (r : Nat) (v : Word) : (setX t r v).saves = t.saves := by
  unfold setX setCurWin; split_ifs <;> rfl
@[simp] theorem setX_wsp (t : Thread) (r : Nat) (v : Word) : (setX t r v).wsp = t.wsp := by
  unfold setX setCurWin; split_ifs <;> rfl
@[simp] theorem setX_pfx (t : Thread) (r : Nat) (v : Word) : (setX t r v).pfx = t.pfx := by
  unfold setX setCurWin; split_ifs <;> rfl
@[simp] theorem setX_pp (t : Thread) (r : Nat) (v : Word) : (setX t r v).pp = t.pp := by
  unfold setX setCurWin; split_ifs <;> rfl
@[simp] theorem setX_it (t : Thread) (r : Nat) (v : Word) : (setX t r v).it = t.it := by
  unfold setX setCurWin; split_ifs <;> rfl
@[simp] theorem setX_pprv (t : Thread) (r : Nat) (v : Word) : (setX t r v).pprv = t.pprv := by
  unfold setX setCurWin; split_ifs <;> rfl
@[simp] theorem setX_prv (t : Thread) (r : Nat) (v : Word) : (setX t r v).prv = t.prv := by
  unfold setX setCurWin; split_ifs <;> rfl
@[simp] theorem setX_lt (t : Thread) (r : Nat) (v : Word) : (setX t r v).lt = t.lt := by
  unfold setX setCurWin; split_ifs <;> rfl
@[simp] theorem setX_trl (t : Thread) (r : Nat) (v : Word) : (setX t r v).trl = t.trl := by
  unfold setX setCurWin; split_ifs <;> rfl
@[simp] theorem setX_det (t : Thread) (r : Nat) (v : Word) : (setX t r v).det = t.det := by
  unfold setX setCurWin; split_ifs <;> rfl
@[simp] theorem setX_fixt (t : Thread) (r : Nat) (v : Word) : (setX t r v).fixt = t.fixt := by
  unfold setX setCurWin; split_ifs <;> rfl
@[simp] theorem setX_qb (t : Thread) (r : Nat) (v : Word) : (setX t r v).qb = t.qb := by
  unfold setX setCurWin; split_ifs <;> rfl
@[simp] theorem setX_flags (t : Thread) (r : Nat) (v : Word) : (setX t r v).flags = t.flags := by
  unfold setX setCurWin; split_ifs <;> rfl
@[simp] theorem setX_rm (t : Thread) (r : Nat) (v : Word) : (setX t r v).rm = t.rm := by
  unfold setX setCurWin; split_ifs <;> rfl
@[simp] theorem setX_tca (t : Thread) (r : Nat) (v : Word) : (setX t r v).tca = t.tca := by
  unfold setX setCurWin; split_ifs <;> rfl
@[simp] theorem setX_tepc (t : Thread) (r : Nat) (v : Word) : (setX t r v).tepc = t.tepc := by
  unfold setX setCurWin; split_ifs <;> rfl
@[simp] theorem setX_tval (t : Thread) (r : Nat) (v : Word) : (setX t r v).tval = t.tval := by
  unfold setX setCurWin; split_ifs <;> rfl
@[simp] theorem setX_crew (t : Thread) (r : Nat) (v : Word) : (setX t r v).crew = t.crew := by
  unfold setX setCurWin; split_ifs <;> rfl
@[simp] theorem setX_sendSeq (t : Thread) (r : Nat) (v : Word) : (setX t r v).sendSeq = t.sendSeq := by
  unfold setX setCurWin; split_ifs <;> rfl
@[simp] theorem setX_millSeq (t : Thread) (r : Nat) (v : Word) : (setX t r v).millSeq = t.millSeq := by
  unfold setX setCurWin; split_ifs <;> rfl
@[simp] theorem setX_held (t : Thread) (r : Nat) (v : Word) : (setX t r v).held = t.held := by
  unfold setX setCurWin; split_ifs <;> rfl
@[simp] theorem setX_streams (t : Thread) (r : Nat) (v : Word) : (setX t r v).streams = t.streams := by
  unfold setX setCurWin; split_ifs <;> rfl
@[simp] theorem setX_pend (t : Thread) (r : Nat) (v : Word) : (setX t r v).pend = t.pend := by
  unfold setX setCurWin; split_ifs <;> rfl
@[simp] theorem setX_turn (t : Thread) (r : Nat) (v : Word) : (setX t r v).turn = t.turn := by
  unfold setX setCurWin; split_ifs <;> rfl
@[simp] theorem setX_ir (t : Thread) (r : Nat) (v : Word) : (setX t r v).ir = t.ir := by
  unfold setX setCurWin; split_ifs <;> rfl
@[simp] theorem setX_park (t : Thread) (r : Nat) (v : Word) : (setX t r v).park = t.park := by
  unfold setX setCurWin; split_ifs <;> rfl
@[simp] theorem setX_net (t : Thread) (r : Nat) (v : Word) : (setX t r v).net = t.net := by
  unfold setX setCurWin; split_ifs <;> rfl
@[simp] theorem setX_own (t : Thread) (r : Nat) (v : Word) : (setX t r v).own = t.own := by
  unfold setX setCurWin; split_ifs <;> rfl
@[simp] theorem setX_async (t : Thread) (r : Nat) (v : Word) : (setX t r v).async = t.async := by
  unfold setX setCurWin; split_ifs <;> rfl
@[simp] theorem setX_winTarget (t : Thread) (r : Nat) (v : Word) : (setX t r v).winTarget = t.winTarget := by
  unfold setX setCurWin; split_ifs <;> rfl
@[simp] theorem setX_stopping (t : Thread) (r : Nat) (v : Word) : (setX t r v).stopping = t.stopping := by
  unfold setX setCurWin; split_ifs <;> rfl
@[simp] theorem setX_draining (t : Thread) (r : Nat) (v : Word) : (setX t r v).draining = t.draining := by
  unfold setX setCurWin; split_ifs <;> rfl
@[simp] theorem setX_fresh0 (t : Thread) (r : Nat) (v : Word) : (setX t r v).fresh0 = t.fresh0 := by
  unfold setX setCurWin; split_ifs <;> rfl
@[simp] theorem setX_goal (t : Thread) (r : Nat) (v : Word) : (setX t r v).goal = t.goal := by
  unfold setX setCurWin; split_ifs <;> rfl
@[simp] theorem setX_why (t : Thread) (r : Nat) (v : Word) : (setX t r v).why = t.why := by
  unfold setX setCurWin; split_ifs <;> rfl
@[simp] theorem setX_injSeen (t : Thread) (r : Nat) (v : Word) : (setX t r v).injSeen = t.injSeen := by
  unfold setX setCurWin; split_ifs <;> rfl
@[simp] theorem setX_start (t : Thread) (r : Nat) (v : Word) : (setX t r v).start = t.start := by
  unfold setX setCurWin; split_ifs <;> rfl
@[simp] theorem setX_restart (t : Thread) (r : Nat) (v : Word) : (setX t r v).restart = t.restart := by
  unfold setX setCurWin; split_ifs <;> rfl
@[simp] theorem setX_doomed (t : Thread) (r : Nat) (v : Word) : (setX t r v).doomed = t.doomed := by
  unfold setX setCurWin; split_ifs <;> rfl
@[simp] theorem setX_serial (t : Thread) (r : Nat) (v : Word) : (setX t r v).serial = t.serial := by
  unfold setX setCurWin; split_ifs <;> rfl
@[simp] theorem land_life (t : Thread) (p : Pend) : (land t p).life = t.life := by
  unfold land; split_ifs <;> simp
@[simp] theorem land_ctx (t : Thread) (p : Pend) : (land t p).ctx = t.ctx := by
  unfold land; split_ifs <;> simp
@[simp] theorem land_launch (t : Thread) (p : Pend) : (land t p).launch = t.launch := by
  unfold land; split_ifs <;> simp
@[simp] theorem land_pc (t : Thread) (p : Pend) : (land t p).pc = t.pc := by
  unfold land; split_ifs <;> simp
@[simp] theorem land_cur (t : Thread) (p : Pend) : (land t p).cur = t.cur := by
  unfold land; split_ifs <;> simp
@[simp] theorem land_olive (t : Thread) (p : Pend) : (land t p).olive = t.olive := by
  unfold land; split_ifs <;> simp
@[simp] theorem land_depth (t : Thread) (p : Pend) : (land t p).depth = t.depth := by
  unfold land; split_ifs <;> simp
@[simp] theorem land_spilled (t : Thread) (p : Pend) : (land t p).spilled = t.spilled := by
  unfold land; split_ifs <;> simp
@[simp] theorem land_refilled (t : Thread) (p : Pend) : (land t p).refilled = t.refilled := by
  unfold land; split_ifs <;> simp
@[simp] theorem land_refill (t : Thread) (p : Pend) : (land t p).refill = t.refill := by
  unfold land; split_ifs <;> simp
@[simp] theorem land_spillFault (t : Thread) (p : Pend) : (land t p).spillFault = t.spillFault := by
  unfold land; split_ifs <;> simp
@[simp] theorem land_spillTurn (t : Thread) (p : Pend) : (land t p).spillTurn = t.spillTurn := by
  unfold land; split_ifs <;> simp
@[simp] theorem land_saves (t : Thread) (p : Pend) : (land t p).saves = t.saves := by
  unfold land; split_ifs <;> simp
@[simp] theorem land_wsp (t : Thread) (p : Pend) : (land t p).wsp = t.wsp := by
  unfold land; split_ifs <;> simp
@[simp] theorem land_pfx (t : Thread) (p : Pend) : (land t p).pfx = t.pfx := by
  unfold land; split_ifs <;> simp
@[simp] theorem land_pp (t : Thread) (p : Pend) : (land t p).pp = t.pp := by
  unfold land; split_ifs <;> simp
@[simp] theorem land_it (t : Thread) (p : Pend) : (land t p).it = t.it := by
  unfold land; split_ifs <;> simp
@[simp] theorem land_pprv (t : Thread) (p : Pend) : (land t p).pprv = t.pprv := by
  unfold land; split_ifs <;> simp
@[simp] theorem land_prv (t : Thread) (p : Pend) : (land t p).prv = t.prv := by
  unfold land; split_ifs <;> simp
@[simp] theorem land_lt (t : Thread) (p : Pend) : (land t p).lt = t.lt := by
  unfold land; split_ifs <;> simp
@[simp] theorem land_trl (t : Thread) (p : Pend) : (land t p).trl = t.trl := by
  unfold land; split_ifs <;> simp
@[simp] theorem land_det (t : Thread) (p : Pend) : (land t p).det = t.det := by
  unfold land; split_ifs <;> simp
@[simp] theorem land_fixt (t : Thread) (p : Pend) : (land t p).fixt = t.fixt := by
  unfold land; split_ifs <;> simp
@[simp] theorem land_qb (t : Thread) (p : Pend) : (land t p).qb = t.qb := by
  unfold land; split_ifs <;> simp
@[simp] theorem land_rm (t : Thread) (p : Pend) : (land t p).rm = t.rm := by
  unfold land; split_ifs <;> simp
@[simp] theorem land_tca (t : Thread) (p : Pend) : (land t p).tca = t.tca := by
  unfold land; split_ifs <;> simp
@[simp] theorem land_tepc (t : Thread) (p : Pend) : (land t p).tepc = t.tepc := by
  unfold land; split_ifs <;> simp
@[simp] theorem land_tval (t : Thread) (p : Pend) : (land t p).tval = t.tval := by
  unfold land; split_ifs <;> simp
@[simp] theorem land_crew (t : Thread) (p : Pend) : (land t p).crew = t.crew := by
  unfold land; split_ifs <;> simp
@[simp] theorem land_sendSeq (t : Thread) (p : Pend) : (land t p).sendSeq = t.sendSeq := by
  unfold land; split_ifs <;> simp
@[simp] theorem land_millSeq (t : Thread) (p : Pend) : (land t p).millSeq = t.millSeq := by
  unfold land; split_ifs <;> simp
@[simp] theorem land_held (t : Thread) (p : Pend) : (land t p).held = t.held := by
  unfold land; split_ifs <;> simp
@[simp] theorem land_streams (t : Thread) (p : Pend) : (land t p).streams = t.streams := by
  unfold land; split_ifs <;> simp
@[simp] theorem land_turn (t : Thread) (p : Pend) : (land t p).turn = t.turn := by
  unfold land; split_ifs <;> simp
@[simp] theorem land_ir (t : Thread) (p : Pend) : (land t p).ir = t.ir := by
  unfold land; split_ifs <;> simp
@[simp] theorem land_park (t : Thread) (p : Pend) : (land t p).park = t.park := by
  unfold land; split_ifs <;> simp
@[simp] theorem land_net (t : Thread) (p : Pend) : (land t p).net = t.net := by
  unfold land; split_ifs <;> simp
@[simp] theorem land_own (t : Thread) (p : Pend) : (land t p).own = t.own := by
  unfold land; split_ifs <;> simp
@[simp] theorem land_async (t : Thread) (p : Pend) : (land t p).async = t.async := by
  unfold land; split_ifs <;> simp
@[simp] theorem land_winTarget (t : Thread) (p : Pend) : (land t p).winTarget = t.winTarget := by
  unfold land; split_ifs <;> simp
@[simp] theorem land_stopping (t : Thread) (p : Pend) : (land t p).stopping = t.stopping := by
  unfold land; split_ifs <;> simp
@[simp] theorem land_draining (t : Thread) (p : Pend) : (land t p).draining = t.draining := by
  unfold land; split_ifs <;> simp
@[simp] theorem land_fresh0 (t : Thread) (p : Pend) : (land t p).fresh0 = t.fresh0 := by
  unfold land; split_ifs <;> simp
@[simp] theorem land_goal (t : Thread) (p : Pend) : (land t p).goal = t.goal := by
  unfold land; split_ifs <;> simp
@[simp] theorem land_why (t : Thread) (p : Pend) : (land t p).why = t.why := by
  unfold land; split_ifs <;> simp
@[simp] theorem land_injSeen (t : Thread) (p : Pend) : (land t p).injSeen = t.injSeen := by
  unfold land; split_ifs <;> simp
@[simp] theorem land_start (t : Thread) (p : Pend) : (land t p).start = t.start := by
  unfold land; split_ifs <;> simp
@[simp] theorem land_restart (t : Thread) (p : Pend) : (land t p).restart = t.restart := by
  unfold land; split_ifs <;> simp
@[simp] theorem land_doomed (t : Thread) (p : Pend) : (land t p).doomed = t.doomed := by
  unfold land; split_ifs <;> simp
@[simp] theorem land_serial (t : Thread) (p : Pend) : (land t p).serial = t.serial := by
  unfold land; split_ifs <;> simp
@[simp] theorem land_pend (t : Thread) (p : Pend) : (land t p).pend = t.pend := by
  unfold land; split_ifs <;> simp
theorem foldl_land_life (l : List Pend) (t : Thread) : (l.foldl land t).life = t.life := by
  induction l generalizing t with
  | nil => rfl
  | cons p l ih => simp [ih]
@[simp] theorem settle_life (t : Thread) (n : Nat) : (settle t n).life = t.life := by simp [settle, foldl_land_life]
theorem foldl_land_ctx (l : List Pend) (t : Thread) : (l.foldl land t).ctx = t.ctx := by
  induction l generalizing t with
  | nil => rfl
  | cons p l ih => simp [ih]
@[simp] theorem settle_ctx (t : Thread) (n : Nat) : (settle t n).ctx = t.ctx := by simp [settle, foldl_land_ctx]
theorem foldl_land_launch (l : List Pend) (t : Thread) : (l.foldl land t).launch = t.launch := by
  induction l generalizing t with
  | nil => rfl
  | cons p l ih => simp [ih]
@[simp] theorem settle_launch (t : Thread) (n : Nat) : (settle t n).launch = t.launch := by simp [settle, foldl_land_launch]
theorem foldl_land_pc (l : List Pend) (t : Thread) : (l.foldl land t).pc = t.pc := by
  induction l generalizing t with
  | nil => rfl
  | cons p l ih => simp [ih]
@[simp] theorem settle_pc (t : Thread) (n : Nat) : (settle t n).pc = t.pc := by simp [settle, foldl_land_pc]
theorem foldl_land_cur (l : List Pend) (t : Thread) : (l.foldl land t).cur = t.cur := by
  induction l generalizing t with
  | nil => rfl
  | cons p l ih => simp [ih]
@[simp] theorem settle_cur (t : Thread) (n : Nat) : (settle t n).cur = t.cur := by simp [settle, foldl_land_cur]
theorem foldl_land_olive (l : List Pend) (t : Thread) : (l.foldl land t).olive = t.olive := by
  induction l generalizing t with
  | nil => rfl
  | cons p l ih => simp [ih]
@[simp] theorem settle_olive (t : Thread) (n : Nat) : (settle t n).olive = t.olive := by simp [settle, foldl_land_olive]
theorem foldl_land_depth (l : List Pend) (t : Thread) : (l.foldl land t).depth = t.depth := by
  induction l generalizing t with
  | nil => rfl
  | cons p l ih => simp [ih]
@[simp] theorem settle_depth (t : Thread) (n : Nat) : (settle t n).depth = t.depth := by simp [settle, foldl_land_depth]
theorem foldl_land_spilled (l : List Pend) (t : Thread) : (l.foldl land t).spilled = t.spilled := by
  induction l generalizing t with
  | nil => rfl
  | cons p l ih => simp [ih]
@[simp] theorem settle_spilled (t : Thread) (n : Nat) : (settle t n).spilled = t.spilled := by simp [settle, foldl_land_spilled]
theorem foldl_land_refilled (l : List Pend) (t : Thread) : (l.foldl land t).refilled = t.refilled := by
  induction l generalizing t with
  | nil => rfl
  | cons p l ih => simp [ih]
@[simp] theorem settle_refilled (t : Thread) (n : Nat) : (settle t n).refilled = t.refilled := by simp [settle, foldl_land_refilled]
theorem foldl_land_refill (l : List Pend) (t : Thread) : (l.foldl land t).refill = t.refill := by
  induction l generalizing t with
  | nil => rfl
  | cons p l ih => simp [ih]
@[simp] theorem settle_refill (t : Thread) (n : Nat) : (settle t n).refill = t.refill := by simp [settle, foldl_land_refill]
theorem foldl_land_spillFault (l : List Pend) (t : Thread) : (l.foldl land t).spillFault = t.spillFault := by
  induction l generalizing t with
  | nil => rfl
  | cons p l ih => simp [ih]
@[simp] theorem settle_spillFault (t : Thread) (n : Nat) : (settle t n).spillFault = t.spillFault := by simp [settle, foldl_land_spillFault]
theorem foldl_land_spillTurn (l : List Pend) (t : Thread) : (l.foldl land t).spillTurn = t.spillTurn := by
  induction l generalizing t with
  | nil => rfl
  | cons p l ih => simp [ih]
@[simp] theorem settle_spillTurn (t : Thread) (n : Nat) : (settle t n).spillTurn = t.spillTurn := by simp [settle, foldl_land_spillTurn]
theorem foldl_land_saves (l : List Pend) (t : Thread) : (l.foldl land t).saves = t.saves := by
  induction l generalizing t with
  | nil => rfl
  | cons p l ih => simp [ih]
@[simp] theorem settle_saves (t : Thread) (n : Nat) : (settle t n).saves = t.saves := by simp [settle, foldl_land_saves]
theorem foldl_land_wsp (l : List Pend) (t : Thread) : (l.foldl land t).wsp = t.wsp := by
  induction l generalizing t with
  | nil => rfl
  | cons p l ih => simp [ih]
@[simp] theorem settle_wsp (t : Thread) (n : Nat) : (settle t n).wsp = t.wsp := by simp [settle, foldl_land_wsp]
theorem foldl_land_pfx (l : List Pend) (t : Thread) : (l.foldl land t).pfx = t.pfx := by
  induction l generalizing t with
  | nil => rfl
  | cons p l ih => simp [ih]
@[simp] theorem settle_pfx (t : Thread) (n : Nat) : (settle t n).pfx = t.pfx := by simp [settle, foldl_land_pfx]
theorem foldl_land_pp (l : List Pend) (t : Thread) : (l.foldl land t).pp = t.pp := by
  induction l generalizing t with
  | nil => rfl
  | cons p l ih => simp [ih]
@[simp] theorem settle_pp (t : Thread) (n : Nat) : (settle t n).pp = t.pp := by simp [settle, foldl_land_pp]
theorem foldl_land_it (l : List Pend) (t : Thread) : (l.foldl land t).it = t.it := by
  induction l generalizing t with
  | nil => rfl
  | cons p l ih => simp [ih]
@[simp] theorem settle_it (t : Thread) (n : Nat) : (settle t n).it = t.it := by simp [settle, foldl_land_it]
theorem foldl_land_pprv (l : List Pend) (t : Thread) : (l.foldl land t).pprv = t.pprv := by
  induction l generalizing t with
  | nil => rfl
  | cons p l ih => simp [ih]
@[simp] theorem settle_pprv (t : Thread) (n : Nat) : (settle t n).pprv = t.pprv := by simp [settle, foldl_land_pprv]
theorem foldl_land_prv (l : List Pend) (t : Thread) : (l.foldl land t).prv = t.prv := by
  induction l generalizing t with
  | nil => rfl
  | cons p l ih => simp [ih]
@[simp] theorem settle_prv (t : Thread) (n : Nat) : (settle t n).prv = t.prv := by simp [settle, foldl_land_prv]
theorem foldl_land_lt (l : List Pend) (t : Thread) : (l.foldl land t).lt = t.lt := by
  induction l generalizing t with
  | nil => rfl
  | cons p l ih => simp [ih]
@[simp] theorem settle_lt (t : Thread) (n : Nat) : (settle t n).lt = t.lt := by simp [settle, foldl_land_lt]
theorem foldl_land_trl (l : List Pend) (t : Thread) : (l.foldl land t).trl = t.trl := by
  induction l generalizing t with
  | nil => rfl
  | cons p l ih => simp [ih]
@[simp] theorem settle_trl (t : Thread) (n : Nat) : (settle t n).trl = t.trl := by simp [settle, foldl_land_trl]
theorem foldl_land_det (l : List Pend) (t : Thread) : (l.foldl land t).det = t.det := by
  induction l generalizing t with
  | nil => rfl
  | cons p l ih => simp [ih]
@[simp] theorem settle_det (t : Thread) (n : Nat) : (settle t n).det = t.det := by simp [settle, foldl_land_det]
theorem foldl_land_fixt (l : List Pend) (t : Thread) : (l.foldl land t).fixt = t.fixt := by
  induction l generalizing t with
  | nil => rfl
  | cons p l ih => simp [ih]
@[simp] theorem settle_fixt (t : Thread) (n : Nat) : (settle t n).fixt = t.fixt := by simp [settle, foldl_land_fixt]
theorem foldl_land_qb (l : List Pend) (t : Thread) : (l.foldl land t).qb = t.qb := by
  induction l generalizing t with
  | nil => rfl
  | cons p l ih => simp [ih]
@[simp] theorem settle_qb (t : Thread) (n : Nat) : (settle t n).qb = t.qb := by simp [settle, foldl_land_qb]
theorem foldl_land_rm (l : List Pend) (t : Thread) : (l.foldl land t).rm = t.rm := by
  induction l generalizing t with
  | nil => rfl
  | cons p l ih => simp [ih]
@[simp] theorem settle_rm (t : Thread) (n : Nat) : (settle t n).rm = t.rm := by simp [settle, foldl_land_rm]
theorem foldl_land_tca (l : List Pend) (t : Thread) : (l.foldl land t).tca = t.tca := by
  induction l generalizing t with
  | nil => rfl
  | cons p l ih => simp [ih]
@[simp] theorem settle_tca (t : Thread) (n : Nat) : (settle t n).tca = t.tca := by simp [settle, foldl_land_tca]
theorem foldl_land_tepc (l : List Pend) (t : Thread) : (l.foldl land t).tepc = t.tepc := by
  induction l generalizing t with
  | nil => rfl
  | cons p l ih => simp [ih]
@[simp] theorem settle_tepc (t : Thread) (n : Nat) : (settle t n).tepc = t.tepc := by simp [settle, foldl_land_tepc]
theorem foldl_land_tval (l : List Pend) (t : Thread) : (l.foldl land t).tval = t.tval := by
  induction l generalizing t with
  | nil => rfl
  | cons p l ih => simp [ih]
@[simp] theorem settle_tval (t : Thread) (n : Nat) : (settle t n).tval = t.tval := by simp [settle, foldl_land_tval]
theorem foldl_land_crew (l : List Pend) (t : Thread) : (l.foldl land t).crew = t.crew := by
  induction l generalizing t with
  | nil => rfl
  | cons p l ih => simp [ih]
@[simp] theorem settle_crew (t : Thread) (n : Nat) : (settle t n).crew = t.crew := by simp [settle, foldl_land_crew]
theorem foldl_land_sendSeq (l : List Pend) (t : Thread) : (l.foldl land t).sendSeq = t.sendSeq := by
  induction l generalizing t with
  | nil => rfl
  | cons p l ih => simp [ih]
@[simp] theorem settle_sendSeq (t : Thread) (n : Nat) : (settle t n).sendSeq = t.sendSeq := by simp [settle, foldl_land_sendSeq]
theorem foldl_land_millSeq (l : List Pend) (t : Thread) : (l.foldl land t).millSeq = t.millSeq := by
  induction l generalizing t with
  | nil => rfl
  | cons p l ih => simp [ih]
@[simp] theorem settle_millSeq (t : Thread) (n : Nat) : (settle t n).millSeq = t.millSeq := by simp [settle, foldl_land_millSeq]
theorem foldl_land_held (l : List Pend) (t : Thread) : (l.foldl land t).held = t.held := by
  induction l generalizing t with
  | nil => rfl
  | cons p l ih => simp [ih]
@[simp] theorem settle_held (t : Thread) (n : Nat) : (settle t n).held = t.held := by simp [settle, foldl_land_held]
theorem foldl_land_streams (l : List Pend) (t : Thread) : (l.foldl land t).streams = t.streams := by
  induction l generalizing t with
  | nil => rfl
  | cons p l ih => simp [ih]
@[simp] theorem settle_streams (t : Thread) (n : Nat) : (settle t n).streams = t.streams := by simp [settle, foldl_land_streams]
theorem foldl_land_turn (l : List Pend) (t : Thread) : (l.foldl land t).turn = t.turn := by
  induction l generalizing t with
  | nil => rfl
  | cons p l ih => simp [ih]
@[simp] theorem settle_turn (t : Thread) (n : Nat) : (settle t n).turn = t.turn := by simp [settle, foldl_land_turn]
theorem foldl_land_ir (l : List Pend) (t : Thread) : (l.foldl land t).ir = t.ir := by
  induction l generalizing t with
  | nil => rfl
  | cons p l ih => simp [ih]
@[simp] theorem settle_ir (t : Thread) (n : Nat) : (settle t n).ir = t.ir := by simp [settle, foldl_land_ir]
theorem foldl_land_park (l : List Pend) (t : Thread) : (l.foldl land t).park = t.park := by
  induction l generalizing t with
  | nil => rfl
  | cons p l ih => simp [ih]
@[simp] theorem settle_park (t : Thread) (n : Nat) : (settle t n).park = t.park := by simp [settle, foldl_land_park]
theorem foldl_land_net (l : List Pend) (t : Thread) : (l.foldl land t).net = t.net := by
  induction l generalizing t with
  | nil => rfl
  | cons p l ih => simp [ih]
@[simp] theorem settle_net (t : Thread) (n : Nat) : (settle t n).net = t.net := by simp [settle, foldl_land_net]
theorem foldl_land_own (l : List Pend) (t : Thread) : (l.foldl land t).own = t.own := by
  induction l generalizing t with
  | nil => rfl
  | cons p l ih => simp [ih]
@[simp] theorem settle_own (t : Thread) (n : Nat) : (settle t n).own = t.own := by simp [settle, foldl_land_own]
theorem foldl_land_async (l : List Pend) (t : Thread) : (l.foldl land t).async = t.async := by
  induction l generalizing t with
  | nil => rfl
  | cons p l ih => simp [ih]
@[simp] theorem settle_async (t : Thread) (n : Nat) : (settle t n).async = t.async := by simp [settle, foldl_land_async]
theorem foldl_land_winTarget (l : List Pend) (t : Thread) : (l.foldl land t).winTarget = t.winTarget := by
  induction l generalizing t with
  | nil => rfl
  | cons p l ih => simp [ih]
@[simp] theorem settle_winTarget (t : Thread) (n : Nat) : (settle t n).winTarget = t.winTarget := by simp [settle, foldl_land_winTarget]
theorem foldl_land_stopping (l : List Pend) (t : Thread) : (l.foldl land t).stopping = t.stopping := by
  induction l generalizing t with
  | nil => rfl
  | cons p l ih => simp [ih]
@[simp] theorem settle_stopping (t : Thread) (n : Nat) : (settle t n).stopping = t.stopping := by simp [settle, foldl_land_stopping]
theorem foldl_land_draining (l : List Pend) (t : Thread) : (l.foldl land t).draining = t.draining := by
  induction l generalizing t with
  | nil => rfl
  | cons p l ih => simp [ih]
@[simp] theorem settle_draining (t : Thread) (n : Nat) : (settle t n).draining = t.draining := by simp [settle, foldl_land_draining]
theorem foldl_land_fresh0 (l : List Pend) (t : Thread) : (l.foldl land t).fresh0 = t.fresh0 := by
  induction l generalizing t with
  | nil => rfl
  | cons p l ih => simp [ih]
@[simp] theorem settle_fresh0 (t : Thread) (n : Nat) : (settle t n).fresh0 = t.fresh0 := by simp [settle, foldl_land_fresh0]
theorem foldl_land_goal (l : List Pend) (t : Thread) : (l.foldl land t).goal = t.goal := by
  induction l generalizing t with
  | nil => rfl
  | cons p l ih => simp [ih]
@[simp] theorem settle_goal (t : Thread) (n : Nat) : (settle t n).goal = t.goal := by simp [settle, foldl_land_goal]
theorem foldl_land_why (l : List Pend) (t : Thread) : (l.foldl land t).why = t.why := by
  induction l generalizing t with
  | nil => rfl
  | cons p l ih => simp [ih]
@[simp] theorem settle_why (t : Thread) (n : Nat) : (settle t n).why = t.why := by simp [settle, foldl_land_why]
theorem foldl_land_injSeen (l : List Pend) (t : Thread) : (l.foldl land t).injSeen = t.injSeen := by
  induction l generalizing t with
  | nil => rfl
  | cons p l ih => simp [ih]
@[simp] theorem settle_injSeen (t : Thread) (n : Nat) : (settle t n).injSeen = t.injSeen := by simp [settle, foldl_land_injSeen]
theorem foldl_land_start (l : List Pend) (t : Thread) : (l.foldl land t).start = t.start := by
  induction l generalizing t with
  | nil => rfl
  | cons p l ih => simp [ih]
@[simp] theorem settle_start (t : Thread) (n : Nat) : (settle t n).start = t.start := by simp [settle, foldl_land_start]
theorem foldl_land_restart (l : List Pend) (t : Thread) : (l.foldl land t).restart = t.restart := by
  induction l generalizing t with
  | nil => rfl
  | cons p l ih => simp [ih]
@[simp] theorem settle_restart (t : Thread) (n : Nat) : (settle t n).restart = t.restart := by simp [settle, foldl_land_restart]
theorem foldl_land_doomed (l : List Pend) (t : Thread) : (l.foldl land t).doomed = t.doomed := by
  induction l generalizing t with
  | nil => rfl
  | cons p l ih => simp [ih]
@[simp] theorem settle_doomed (t : Thread) (n : Nat) : (settle t n).doomed = t.doomed := by simp [settle, foldl_land_doomed]
theorem foldl_land_serial (l : List Pend) (t : Thread) : (l.foldl land t).serial = t.serial := by
  induction l generalizing t with
  | nil => rfl
  | cons p l ih => simp [ih]
@[simp] theorem settle_serial (t : Thread) (n : Nat) : (settle t n).serial = t.serial := by simp [settle, foldl_land_serial]

/-- Nothing is pending: the thread stands as it is. -/
theorem settle_of_nil {t : Thread} (h : t.pend = []) (n : Nat) : settle t n = t := by
  cases t
  simp only at h
  subst h
  rfl

/-- Only results that land later stay pending. -/
theorem settle_pend (t : Thread) (n : Nat) : (settle t n).pend = t.pend.filter fun p => !(decide (p.land ≤ n)) := by
  simp [settle]

/-- x0 reads as 0 (R246). -/
@[simp] theorem getX_zero (t : Thread) : getX t 0 = 0 := by simp [getX]

/-- A write of x0 is dropped (R246). -/
@[simp] theorem setX_zero (t : Thread) (v : Word) : setX t 0 v = t := by simp [setX]

@[simp] theorem curWin_setCurWin (t : Thread) (w : Tab Word) : curWin (setCurWin t w) = w := by
  unfold curWin setCurWin; split_ifs <;> simp_all

@[simp] theorem setCurWin_cur (t : Thread) (w : Tab Word) : (setCurWin t w).cur = t.cur := by
  unfold setCurWin; split_ifs <;> rfl

@[simp] theorem setCurWin_g (t : Thread) (w : Tab Word) : (setCurWin t w).g = t.g := by
  unfold setCurWin; split_ifs <;> rfl

@[simp] theorem curWin_g (t : Thread) (g : Tab Word) : curWin { t with g := g } = curWin t := rfl
@[simp] theorem otherWin_g (t : Thread) (g : Tab Word) : otherWin { t with g := g } = otherWin t := rfl

@[simp] theorem setCurWin_setCurWin (t : Thread) (w w' : Tab Word) : setCurWin (setCurWin t w) w' = setCurWin t w' := by
  unfold setCurWin; split_ifs <;> simp_all

@[simp] theorem otherWin_setCurWin (t : Thread) (w : Tab Word) : otherWin (setCurWin t w) = otherWin t := by
  unfold otherWin setCurWin; split_ifs <;> simp_all

/-- A register reads the value last written to it (R246). -/
theorem getX_setX (t : Thread) {r : Nat} (v : Word) (h : r ≠ 0) : getX (setX t r v) r = v := by
  unfold getX setX
  split_ifs <;> simp_all

/-- A write of a register leaves every other one. -/
theorem getX_setX_ne (t : Thread) {r q : Nat} (v : Word) (h : r ≠ q) : getX (setX t r v) q = getX t q := by
  unfold getX setX
  split_ifs <;> simp_all
  · exact lookD_put_ne _ _ _ h
  · exact lookD_put_ne _ _ _ (by omega)

/-- A register write leaves the other window buffer. -/
@[simp] theorem otherWin_setX (t : Thread) (r : Nat) (v : Word) : otherWin (setX t r v) = otherWin t := by
  unfold setX; split_ifs <;> simp

/-- A later write of a register replaces an earlier one. -/
@[simp] theorem setX_setX (t : Thread) (r : Nat) (v w : Word) : setX (setX t r v) r w = setX t r w := by
  unfold setX
  split_ifs <;> simp_all

end Sys2Proof.Machine
end

