-- ==== Sys2Proof/Laws/Issue.lean ====
section
/-! SUPPORT. The turn of a thread under the conditions of `Ready`: what the issue checks, the operands, a result and the end
of an instruction come to. -/

namespace Sys2Proof.Machine

variable {s t : State}

@[simp] theorem base_cur : (base s).cur = s.cur := rfl
@[simp] theorem thr_base : thr (base s) s.cur = issuer s := by simp [base]
@[simp] theorem cycOf_base (c : Nat) : cycOf (base s) c = cycOf s c := rfl
@[simp] theorem setThr_base (x : Thread) : setThr (base s) s.cur x = setThr s s.cur x := by simp [base]

theorem noBoard_base (x : Thread) : noBoard (base s) x = noBoard s x := rfl

/-- With no register bound, the destinations need no check. -/
theorem checkPushes_unbound {tid n : Nat} {rs : List Reg} (h : ∀ r ∈ rs, boundAt (thr s tid) r = none) :
    checkPushes s tid n rs = .ok () s := by
  induction rs with
  | nil => rfl
  | cons r rs ih =>
    simp only [checkPushes, h r (by simp)]
    exact ih fun q hq => h q (by simp [hq])

/-- With no register bound, the operands are the registers' words. -/
theorem readOps_unbound {tid : Nat} {rs : List Reg} (h : ∀ r ∈ rs, boundAt (thr s tid) r = none) :
    readOps s tid rs = .ok (rs.map fun r => getX (thr s tid) r.toNat) s := by
  induction rs with
  | nil => rfl
  | cons r rs ih =>
    simp only [readOps, h r (by simp), ih fun q hq => h q (by simp [hq]), Res.bind, List.map_cons]

/-- Outside a pair nothing is kept back (R226). -/
theorem keepQueue_single {x : Thread} {r : Eff × State} (h : x.lt = false) : keepQueue x s r = r := by
  unfold keepQueue
  rw [h]

/-- Nor is it where the queue stands as it was. -/
theorem keepQueue_same {x : Thread} {r : Eff × State} (h : queued r.2 x s.cur = queued s x s.cur) : keepQueue x s r = r := by
  simp only [keepQueue, h, if_true]
  split <;> simp

/-- An instruction that is done keeps what it has taken from its pair's queue and put there (R226). -/
@[simp] theorem keepQueue_done (x : Thread) (u : State) : keepQueue x s (.done, u) = (.done, u) := by
  unfold keepQueue
  cases x.lt <;> rfl

/-- So does a jump. -/
@[simp] theorem keepQueue_jump (x : Thread) (pc : Word) (u : State) : keepQueue x s (.jump pc, u) = (.jump pc, u) := by
  unfold keepQueue
  cases x.lt <;> rfl

/-- With no register bound, no result is a push. -/
theorem pushes_unbound {x : Thread} {rs : List Reg} (h : ∀ r ∈ rs, boundAt x r = none) : pushes x rs = false := by
  unfold pushes
  rw [List.any_eq_false]
  exact fun r hr => by simp [h r hr]

/-- A board check on fewer registers. -/
theorem pendingOn_subset {x : Thread} {rs qs : List Reg} (h : ∀ r ∈ qs, r ∈ rs) (hp : pendingOn x rs = false) :
    pendingOn x qs = false := by
  unfold pendingOn at *
  rw [List.any_eq_false] at *
  exact fun r hr => hp r (h r hr)

/-- The issue checks pass and the operands are read. -/
theorem attempt_ready {f : Form} {body : List Word → State → Eff × State} {acc : Nat → Bool} {rs : List Reg}
    (h : Ready s f.prv rs acc) (hacc : acc = f.accepts.getD fun _ => false)
    (hr : ∀ r ∈ f.reads, r ∈ rs) (hw : ∀ r ∈ f.writes, r ∈ rs) (hm : ∀ r ∈ f.more (f.reads.map (reg s)), r ∈ rs) :
    attempt f body (issuer s) (base s)
      = keepQueue (issuer s) (base s)
          (paired f (f.reads.map (reg s) ++ (f.more (f.reads.map (reg s))).map (reg s)) body (base s)) := by
  have hpfx : pfxRefused (pendingPfx (issuer s)) f.accepts = false := by
    cases hp : pendingPfx (issuer s) with
    | none => rfl
    | some p =>
      have := h.prefixed p hp
      cases hf : f.accepts with
      | none => simp [hacc, hf] at this
      | some g => simpa [hacc, hf, pfxRefused] using this
  have hboard : ∀ qs, (∀ r ∈ qs, r ∈ rs) → (!noBoard (base s) (issuer s) && pendingOn (issuer s) qs) = false := by
    intro qs hq
    rcases h.written with e | e
    · simp [noBoard_base, e]
    · simp [pendingOn_subset hq e]
  have hread : ∀ qs, (∀ r ∈ qs, r ∈ rs) → readOps (base s) s.cur qs = .ok (qs.map (reg s)) (base s) := by
    intro qs hq
    rw [readOps_unbound (by simpa using fun r hr => h.unbound r (hq r hr))]
    simp [reg]
  have hpush : checkPushes (base s) s.cur 0 f.writes = .ok () (base s) :=
    checkPushes_unbound (by simpa using fun r hr => h.unbound r (hw r hr))
  unfold attempt
  simp only [base_cur, h.privilege, Bool.not_true, Bool.false_eq_true, if_false]
  rw [hpfx, hboard _ (by simpa [or_imp, forall_and] using ⟨hr, hw⟩)]
  simp only [Bool.false_eq_true, if_false, hpush, Res.run, hread _ hr]
  rw [hboard _ hm]
  simp only [Bool.false_eq_true, if_false, hread _ hm]

/-- An instruction under the conditions of `Ready` (R288, R290): its own effect, and then the thread goes on. -/
theorem issue_ready {f : Form} {body : List Word → State → Eff × State} {acc : Nat → Bool} {rs : List Reg}
    (h : Ready s f.prv rs acc) (hacc : acc = f.accepts.getD fun _ => false)
    (hr : ∀ r ∈ f.reads, r ∈ rs) (hw : ∀ r ∈ f.writes, r ∈ rs) (hm : ∀ r ∈ f.more (f.reads.map (reg s)), r ∈ rs) :
    issue f body s = .next (finish f (issuer s) (keepQueue (issuer s) (base s)
      (paired f (f.reads.map (reg s) ++ (f.more (f.reads.map (reg s))).map (reg s)) body (base s)))) := by
  unfold issue
  rw [if_pos h.power]
  exact congrArg (fun r => Host.Outcome.next (finish f (issuer s) r)) (attempt_ready h hacc hr hw hm)

/-- A thread that is no half of a pair performs its effect at once (R226). -/
theorem paired_single {f : Form} {vs : List Word} {body : List Word → State → Eff × State} (h : Single s) :
    paired f vs body (base s) = body vs (base s) := by
  unfold paired
  have h' : (issuer s).lt = false := h
  simp [h']

/-- An instruction that a pair does not compare is performed by either half (R226). -/
theorem paired_plain {f : Form} {vs : List Word} {body : List Word → State → Eff × State} (he : f.effect = false)
    (hl : f.load = false) (hp : pushes (thr t t.cur) f.writes = false) : paired f vs body t = body vs t := by
  simp [paired, he, hl, hp]

/-- The end of an instruction that has pushed nothing and whose effect leaves the clock and the name of the thread. -/
theorem finish_done {f : Form} (hp : pushes (issuer s) f.writes = false) (hc : t.cur = s.cur) (hy : cycOf t (cmptOf s.cur) = cyc s) :
    finish f (issuer s) (.done, t) = goes s t (thr t s.cur) (nextAt s f.len) f.wait := by
  simp only [finish, afterPush, hp, hc, hy, goes, nextAt, advance, pendingPfx, Bool.false_eq_true, if_false]
  congr 2
  cases h : ((issuer s).pp && !(issuer s).it) <;> simp

/-- The end of a jump. -/
theorem finish_jump {f : Form} {pc : Word} (hc : t.cur = s.cur) (hy : cycOf t (cmptOf s.cur) = cyc s) :
    finish f (issuer s) (.jump pc, t) = goes s t (thr t s.cur) pc f.wait := by
  simp only [finish, hc, hy, goes, advance, pendingPfx]
  congr 2
  cases h : ((issuer s).pp && !(issuer s).it) <;> simp

/-- A result of class A in an unbound register. -/
theorem result_now {tid : Nat} {r : Reg} {v : Word} (h : boundAt (thr t tid) r = none) :
    result t tid r v 1 = setThr t tid (setX (overtake (thr t tid) r (cycOf t (cmptOf tid))) r.toNat v) := by
  simp [result, h]

/-- A result that lands later, in an unbound register. -/
theorem result_later {tid : Nat} {r : Reg} {v : Word} {n : Nat} {fl : FFlags} {fp sfu : Bool}
    (h : boundAt (thr t tid) r = none) (hn : 1 < n) :
    result t tid r v n fl fp sfu =
      if r = 0 ∧ fp = false then t
      else setThr t tid { thr t tid with pend := insPend ⟨r, v, cycOf t (cmptOf tid) + n, fl, fp, sfu⟩ (thr t tid).pend } := by
  have : ¬ n ≤ 1 := by omega
  cases fp <;> simp [result, h, this]

@[simp] theorem goes_setThr (x y : Thread) (pc : Word) (w : Nat) : goes s (setThr t s.cur y) x pc w = goes s t x pc w := by
  simp [goes]

@[simp] theorem goes_base (x : Thread) (pc : Word) (w : Nat) : goes s (base s) x pc w = goes s s x pc w := by
  simp [base]

@[simp] theorem goes_mem (x : Thread) (pc : Word) (w : Nat) : (goes s t x pc w).mem = t.mem := rfl
@[simp] theorem goes_cur (x : Thread) (pc : Word) (w : Nat) : (goes s t x pc w).cur = t.cur := rfl
@[simp] theorem thr_goes (x : Thread) (pc : Word) (w : Nat) :
    thr (goes s t x pc w) s.cur = { x with pc := pc, pp := x.pp && (pendingPfx (issuer s)).isNone, park := none, own := none
                                           turn := nextTurn (issuer s).park (slotOf s.cur) (cyc s) w } := by simp [goes]
theorem thr_goes_ne {n : Nat} (x : Thread) (pc : Word) (w : Nat) (h : s.cur ≠ n) : thr (goes s t x pc w) n = thr t n := by
  simp [goes, thr_setThr_ne _ _ h]

/-- The operands under `Ready`: the registers read, then those that they name. -/
def operands (s : State) (f : Form) : List Word :=
  f.reads.map (reg s) ++ (f.more (f.reads.map (reg s))).map (reg s)

/-- Under `Ready`, an instruction that a pair does not compare, or that runs on no pair, comes to what its effect comes to. -/
theorem issue_effect {f : Form} {body : List Word → State → Eff × State} {acc : Nat → Bool} {rs : List Reg} {e : Eff}
    (h : Ready s f.prv rs acc) (hs : f.effect = false ∧ f.load = false ∨ Single s)
    (hb : body (operands s f) (base s) = (e, t))
    (hk : keepQueue (issuer s) (base s) (e, t) = (e, t) ∨ Single s)
    (hacc : acc = f.accepts.getD fun _ => false := by rfl)
    (hr : ∀ r ∈ f.reads, r ∈ rs := by simp) (hw : ∀ r ∈ f.writes, r ∈ rs := by simp)
    (hm : ∀ r ∈ f.more (f.reads.map (reg s)), r ∈ rs := by simp) :
    issue f body s = .next (finish f (issuer s) (e, t)) := by
  have hp : paired f (operands s f) body (base s) = (e, t) := by
    rcases hs with ⟨he, hl⟩ | hs
    · rw [paired_plain he hl (pushes_unbound (by simpa using fun r hr => h.unbound r (hw r hr))), hb]
    · rw [paired_single hs, hb]
  have hk' : keepQueue (issuer s) (base s) (e, t) = (e, t) := hk.elim id fun h => keepQueue_single h
  rw [issue_ready h hacc hr hw hm, show f.reads.map (reg s) ++ _ = operands s f from rfl, hp, hk']

/-- Under `Ready`, an instruction whose effect is done moves on (R290). -/
theorem issue_done {f : Form} {body : List Word → State → Eff × State} {acc : Nat → Bool} {rs : List Reg}
    (h : Ready s f.prv rs acc) (hs : f.effect = false ∧ f.load = false ∨ Single s)
    (hb : body (operands s f) (base s) = (.done, t)) (hc : t.cur = s.cur) (hy : cycOf t (cmptOf s.cur) = cyc s)
    (hacc : acc = f.accepts.getD fun _ => false := by rfl)
    (hr : ∀ r ∈ f.reads, r ∈ rs := by simp) (hw : ∀ r ∈ f.writes, r ∈ rs := by simp)
    (hm : ∀ r ∈ f.more (f.reads.map (reg s)), r ∈ rs := by simp) :
    issue f body s = .next (goes s t (thr t s.cur) (nextAt s f.len) f.wait) := by
  rw [issue_effect h hs hb (.inl (by simp)) hacc hr hw hm, finish_done (pushes_unbound fun r hr => h.unbound r (hw r hr)) hc hy]

/-- Under `Ready`, an instruction that jumps goes on at its target (R302-R304). -/
theorem issue_jump {f : Form} {body : List Word → State → Eff × State} {acc : Nat → Bool} {rs : List Reg} {pc : Word}
    (h : Ready s f.prv rs acc) (hs : f.effect = false ∧ f.load = false ∨ Single s)
    (hb : body (operands s f) (base s) = (.jump pc, t)) (hc : t.cur = s.cur) (hy : cycOf t (cmptOf s.cur) = cyc s)
    (hacc : acc = f.accepts.getD fun _ => false := by rfl)
    (hr : ∀ r ∈ f.reads, r ∈ rs := by simp) (hw : ∀ r ∈ f.writes, r ∈ rs := by simp)
    (hm : ∀ r ∈ f.more (f.reads.map (reg s)), r ∈ rs := by simp) :
    issue f body s = .next (goes s t (thr t s.cur) pc f.wait) := by
  rw [issue_effect h hs hb (.inl (by simp)) hacc hr hw hm, finish_jump hc hy]

/-- Under `Ready`, an instruction that computes one result of class A from its operands (R290). -/
theorem compute_now {f : Form} {d : Reg} {g : List Word → Word} (h : Ready s f.prv (f.reads ++ [d])) (ha : f.accepts = none)
    (hm : f.more = fun _ => []) (he : f.effect = false) (hl : f.load = false) :
    compute f d 1 g s
      = .next (goes s s (setX (overtake (issuer s) d (cyc s)) d.toNat (g (f.reads.map (reg s)))) (nextAt s f.len) f.wait) := by
  have hb : boundAt (thr (base s) s.cur) d = none := by simpa using h.unbound d (by simp)
  have := issue_done (f := { f with writes := [d] }) (t := setThr (base s) s.cur (setX (overtake (issuer s) d (cyc s)) d.toNat (g (f.reads.map (reg s)))))
    (body := fun vs s => (.done, result s s.cur d (g vs) 1)) h (.inl ⟨he, hl⟩)
    (by simp [operands, hm, result_now hb, cyc]) rfl rfl (by simp [ha]) (by simp +contextual) (by simp) (by simp [hm])
  simpa [compute] using this

/-- Under `Ready`, an instruction that computes one result that lands later (R290). -/
theorem compute_later {f : Form} {d : Reg} {n : Nat} {g : List Word → Word} (h : Ready s f.prv (f.reads ++ [d]))
    (ha : f.accepts = none) (hm : f.more = fun _ => []) (he : f.effect = false) (hl : f.load = false) (hn : 1 < n) :
    compute f d n g s = .next (lands s f.len f.wait d (g (f.reads.map (reg s))) n) := by
  have hb : boundAt (thr (base s) s.cur) d = none := by simpa using h.unbound d (by simp)
  have := issue_done (f := { f with writes := [d] })
    (t := setThr (base s) s.cur (pending s (issuer s) d (g (f.reads.map (reg s))) n))
    (body := fun vs s => (.done, result s s.cur d (g vs) n)) h (.inl ⟨he, hl⟩)
    (by
      simp only [operands, hm, List.map_nil, List.append_nil, base_cur]
      rw [result_later hb hn, pending]
      split
      · simp [base]
      · simp [cyc])
    rfl rfl (by simp [ha]) (by simp +contextual) (by simp) (by simp [hm])
  simpa [compute, lands] using this

end Sys2Proof.Machine
end

