-- ==== Sys2Proof/Laws/Access.lean ====
section
/-! SUPPORT. What entering an access can do, said once: it names requests and sends packets, and leaves memory, registers and
clocks alone. -/

namespace Sys2Proof.Machine

/-- What stays as it is while requests and packets are entered and scalers count. -/
structure Kept (s t : State) : Prop where
  power : t.power = s.power
  pkg : t.pkg = s.pkg
  mem : t.mem = s.mem
  flaws : t.flaws = s.flaws
  frames : t.frames = s.frames
  threads : t.threads = s.threads
  cores : t.cores = s.cores
  tiles : t.tiles = s.tiles
  ctxs : t.ctxs = s.ctxs
  launches : t.launches = s.launches
  jobs : t.jobs = s.jobs
  cur : t.cur = s.cur
  clock : ∀ k, cycOf t k = cycOf s k

namespace Kept

variable {s t u : State}

theorem refl (s : State) : Kept s s := ⟨rfl, rfl, rfl, rfl, rfl, rfl, rfl, rfl, rfl, rfl, rfl, rfl, fun _ => rfl⟩

theorem trans (h : Kept s t) (g : Kept t u) : Kept s u :=
  ⟨g.1.trans h.1, g.2.trans h.2, g.3.trans h.3, g.4.trans h.4, g.5.trans h.5, g.6.trans h.6, g.7.trans h.7, g.8.trans h.8,
    g.9.trans h.9, g.10.trans h.10, g.11.trans h.11, g.12.trans h.12, fun k => (g.13 k).trans (h.13 k)⟩

theorem thr_eq (h : Kept s t) (n : Nat) : thr t n = thr s n := by simp [thr, h.threads]

end Kept

theorem kept_newId (s : State) : Kept s (newId s).2 := ⟨rfl, rfl, rfl, rfl, rfl, rfl, rfl, rfl, rfl, rfl, rfl, rfl, fun _ => rfl⟩

theorem kept_openWord (s : State) : Kept s (openWord s).2 :=
  ⟨rfl, rfl, rfl, rfl, rfl, rfl, rfl, rfl, rfl, rfl, rfl, rfl, fun _ => rfl⟩

theorem kept_setCmpt {s : State} {c : Nat} {k : Cmpt} (h : k.cyc = cycOf s c) : Kept s (setCmpt s c k) := by
  refine ⟨rfl, rfl, rfl, rfl, rfl, rfl, rfl, rfl, rfl, rfl, rfl, rfl, fun n => ?_⟩
  simp only [cycOf, cmpt, setCmpt, lookD]
  rw [look_put_eq]
  split
  · next e => subst e; simpa [cycOf, cmpt, lookD] using h
  · rfl

theorem kept_scale (s : State) (c e v : Nat) : Kept s (scale s c e v) := by
  unfold scale
  simp only
  split
  · exact .refl s
  · exact kept_setCmpt rfl

theorem kept_crossing (s : State) (c : Nat) : Kept s (crossing s c).2 := by
  unfold crossing
  split
  · exact .refl s
  · exact kept_openWord s

theorem kept_sendPacket (s : State) (cls : Class) (a b c f : Nat) (o : Option (Nat × Nat)) (d : Body) :
    Kept s (sendPacket s cls a b c f o d) := by
  unfold sendPacket
  have h := (kept_newId s).trans (kept_crossing (newId s).2 a)
  exact h.trans ⟨rfl, rfl, rfl, rfl, rfl, rfl, rfl, rfl, rfl, rfl, rfl, rfl, fun _ => rfl⟩

theorem kept_foldl {α : Type} (f : State → α → State) (h : ∀ s x, Kept s (f s x)) (l : List α) (s : State) :
    Kept s (l.foldl f s) := by
  induction l generalizing s with
  | nil => exact .refl s
  | cons x xs ih => exact (h s x).trans (ih _)

theorem kept_addReq (a tid : Nat) (q : Ask) (o : Bool) (p : Piece) (s : State) (w : Nat × Nat × Nat) :
    Kept s (addReq a tid q o p s w) := ⟨rfl, rfl, rfl, rfl, rfl, rfl, rfl, rfl, rfl, rfl, rfl, rfl, fun _ => rfl⟩

theorem kept_addReqs (s : State) (a tid : Nat) (q : Ask) (o : Bool) (p : Piece) : Kept s (addReqs s a tid q o p) := by
  have h := kept_foldl (addReq a tid q o p) (kept_addReq a tid q o p) (wordsOf p) s
  unfold addReqs
  dsimp only
  split
  · exact h.trans (kept_sendPacket ..)
  · exact h.trans (kept_sendPacket ..)
  · exact h

theorem kept_countAccess (s : State) (k : Nat) (ps : List Piece) (b : Bool) : Kept s (countAccess s k ps b) := by
  unfold countAccess
  dsimp only
  split_ifs
  · exact .refl s
  · exact (kept_scale ..).trans (kept_scale ..)
  · exact kept_scale ..
  · exact kept_scale ..
  · exact .refl s

theorem accs_sendPacket (s : State) (cls : Class) (a b c f : Nat) (o : Option (Nat × Nat)) (d : Body) :
    (sendPacket s cls a b c f o d).accs = s.accs := by
  simp only [sendPacket, crossing]
  split <;> rfl

theorem foldl_field {α β : Type} (g : State → β) (f : State → α → State) (h : ∀ s x, g (f s x) = g s) (l : List α) (s : State) :
    g (l.foldl f s) = g s := by
  induction l generalizing s with
  | nil => rfl
  | cons x xs ih => exact (ih _).trans (h s x)

theorem accs_addReqs (s : State) (a tid : Nat) (q : Ask) (o : Bool) (p : Piece) : (addReqs s a tid q o p).accs = s.accs := by
  have h := foldl_field State.accs (addReq a tid q o p) (fun _ _ => rfl) (wordsOf p) s
  unfold addReqs
  dsimp only
  split
  · exact (accs_sendPacket ..).trans h
  · exact (accs_sendPacket ..).trans h
  · exact h

/-- The state in which a thread's own access is entered: what it drops of the thread's read-ahead is gone (R322). -/
def touched (s : State) (tid : Nat) (q : Ask) (ps : List Piece) : State :=
  if q.agent.own then setThr s tid (aheadAfter (newId s).2 tid q ps) else s

/-- Entering an access enters its row and its requests. -/
theorem addAccess_spec (s : State) (tid : Nat) (q : Ask) (ps : List Piece) (posted : Bool) :
    Kept (touched s tid q ps) (addAccess s tid q ps posted).2
    ∧ ∃ a : Access, look (addAccess s tid q ps posted).2.accs (addAccess s tid q ps posted).1 = some a ∧ a.tid = tid
      ∧ a.dests = q.dests ∧ a.posted = posted ∧ a.lo = q.va.toNat ∧ a.size = q.size
      ∧ a.left = (ps.map fun p => (wordsOf p).length).foldl (· + ·) 0 := by
  unfold addAccess
  dsimp only
  constructor
  · refine Kept.trans ?_ (kept_foldl _ (fun u p => kept_addReqs u _ tid q _ p) ps _)
    unfold touched
    split <;> exact ⟨rfl, rfl, rfl, rfl, rfl, rfl, rfl, rfl, rfl, rfl, rfl, rfl, fun _ => rfl⟩
  · rw [foldl_field State.accs _ (fun u p => accs_addReqs u _ tid q _ p)]
    refine ⟨_, look_put _ _ _, rfl, rfl, rfl, rfl, rfl, rfl⟩

variable {s : State}

theorem asks_kept (q : Ask) (ps : List Piece) : Kept (touched (countAccess (base s) (cmptOf s.cur) ps (posts s q ps)) s.cur q ps) (asks s q ps).2 :=
  (addAccess_spec ..).1

@[simp] theorem touched_mem (tid : Nat) (q : Ask) (ps : List Piece) : (touched s tid q ps).mem = s.mem := by unfold touched; split <;> rfl
@[simp] theorem touched_cur (tid : Nat) (q : Ask) (ps : List Piece) : (touched s tid q ps).cur = s.cur := by unfold touched; split <;> rfl
@[simp] theorem touched_clock (tid : Nat) (q : Ask) (ps : List Piece) (k : Nat) : cycOf (touched s tid q ps) k = cycOf s k := by
  unfold touched; split <;> rfl

theorem asks_mem (q : Ask) (ps : List Piece) : (asks s q ps).2.mem = s.mem := by
  rw [(asks_kept q ps).mem, touched_mem, (kept_countAccess ..).mem]; rfl

theorem asks_cur (q : Ask) (ps : List Piece) : (asks s q ps).2.cur = s.cur := by
  rw [(asks_kept q ps).cur, touched_cur, (kept_countAccess ..).cur]; rfl

theorem asks_clock (q : Ask) (ps : List Piece) (k : Nat) : cycOf (asks s q ps).2 k = cycOf s k := by
  rw [(asks_kept q ps).clock, touched_clock, (kept_countAccess ..).clock]; rfl

/-- A memory instruction whose access is clear has issued it. -/
theorem memory_clear {q : Ask} {ps : List Piece} (h : Clear s q ps) :
    memory (base s) s.cur q = (if posts s q ps then .done else .wait (asks s q ps).1, (asks s q ps).2) := by
  unfold memory
  rw [h.checks]
  simp only [Res.run]
  unfold issueAccess
  simp only [h.free]
  split
  · next c hm hc =>
    rcases h.here with e | e | e
    · simp [e] at hm
    · simp [e] at hm
    · cases hp : ps.head? with
      | none => simp [hp] at hc
      | some p => exact absurd (by simpa [hp] using hc) (e p c hp)
  · cases hp : posts s q ps <;>
      simp only [asks, hp, show (q.kind == AccKind.store && postedStore (base s) s.cur ps) = _ from hp, Bool.false_eq_true, if_true, if_false]

/-- An instruction under `Ready` that makes one clear access. -/
theorem issue_access {f : Form} {q : Ask} {ps : List Piece} {body : List Word → State → Eff × State} {acc : Nat → Bool}
    {rs : List Reg} (h : Ready s f.prv rs acc) (hs : Single s) (hq : Clear s q ps)
    (hb : body (operands s f) (base s) = memory (base s) s.cur q) (hw : f.wait = 0 := by rfl)
    (hacc : acc = f.accepts.getD fun _ => false := by rfl)
    (hr : ∀ r ∈ f.reads, r ∈ rs := by simp) (hw' : ∀ r ∈ f.writes, r ∈ rs := by simp)
    (hm : ∀ r ∈ f.more (f.reads.map (reg s)), r ∈ rs := by simp) :
    issue f body s = .next (accesses s f.len q ps) := by
  rw [issue_effect h (.inr hs) (hb.trans (memory_clear hq)) (.inr hs) hacc hr hw' hm]
  unfold accesses
  dsimp only
  split
  · rw [finish_done (pushes_unbound fun r hr => h.unbound r (hw' r hr)) (asks_cur q ps) (asks_clock q ps _), hw]
  · obtain ⟨a, ha, -⟩ := (addAccess_spec (countAccess (base s) (cmptOf s.cur) ps (posts s q ps)) s.cur q ps (posts s q ps)).2
    have hc := asks_cur (s := s) q ps
    have hy := asks_clock (s := s) q ps (cmptOf s.cur)
    have ha' : look (asks s q ps).2.accs (asks s q ps).1 = some a := ha
    generalize asks s q ps = x at hc hy ha'
    obtain ⟨n, t⟩ := x
    simp only at hc hy ha'
    simp only [finish, awaitReply, awaits, ha', lookD, Option.getD_some, hc, nextAt, cyc, ← hy]
    rw [← hc]
    rfl

theorem nextPc_base (n : Nat) : nextPc (base s) n = nextAt s n := by simp [nextPc, nextAt]

/-- The load forms (R312, R314). -/
theorem loadOne_clear {len : Nat} {d a : Reg} {off : Word} {w : Nat} {signed acq migrates : Bool} {ps : List Piece}
    (h : Ready s .u [a, d]) (hs : Single s)
    (hq : Clear s { kind := .load, acq := acq, va := reg s a + off, size := 2 ^ w, op := fun _ _ => .read
                    dests := [⟨d, 0, 2 ^ w, signed⟩], migrates := migrates, next := nextAt s len } ps) :
    loadOne len d a off w signed acq migrates s = .next (accesses s len
      { kind := .load, acq := acq, va := reg s a + off, size := 2 ^ w, op := fun _ _ => .read
        dests := [⟨d, 0, 2 ^ w, signed⟩], migrates := migrates, next := nextAt s len } ps) :=
  issue_access (f := { len := len, reads := [a], writes := [d], load := true }) h hs hq
    (by simp [operands, arg, nextPc_base])

/-- The store forms (R313). -/
theorem storeOne_clear {len : Nat} {a b : Reg} {off : Word} {w : Nat} {rel : Bool} {ps : List Piece}
    (h : Ready s .u [a, b]) (hs : Single s)
    (hq : Clear s { kind := .store, rel := rel, va := reg s a + off, size := 2 ^ w
                    op := fun n o => .write (sliceOf (reg s b).toNat n o), next := nextAt s len } ps) :
    storeOne len a b off w rel s = .next (accesses s len
      { kind := .store, rel := rel, va := reg s a + off, size := 2 ^ w
        op := fun n o => .write (sliceOf (reg s b).toNat n o), next := nextAt s len } ps) :=
  issue_access (f := { len := len, reads := [a, b], effect := true }) h hs hq
    (by simp [operands, arg, nextPc_base])

/-- The loads of several words (R316). -/
theorem loadMany_clear {d a : Reg} {n : Nat} {off : Word} {ps : List Piece} (h : Ready s .u (a :: regsFrom d n)) (hs : Single s)
    (hq : Clear s { kind := .load, va := reg s a + off, size := 8 * n, op := fun _ _ => .read
                    dests := (List.range n).map fun i => ⟨d + BitVec.ofNat 5 i, 8 * i, 8, false⟩, migrates := true
                    next := nextAt s 4 } ps) :
    loadMany d a n off s = .next (accesses s 4
      { kind := .load, va := reg s a + off, size := 8 * n, op := fun _ _ => .read
        dests := (List.range n).map fun i => ⟨d + BitVec.ofNat 5 i, 8 * i, 8, false⟩, migrates := true
        next := nextAt s 4 } ps) :=
  issue_access (f := { reads := [a], writes := regsFrom d n, load := true }) h hs hq
    (by simp [operands, arg, nextPc_base]) rfl rfl (by simp) (by simp +contextual) (by simp)

/-- The stores of several words (R316). -/
theorem storeMany_clear {b a : Reg} {n : Nat} {off : Word} {ps : List Piece} (h : Ready s .u (a :: regsFrom b n)) (hs : Single s)
    (hq : Clear s { kind := .store, va := reg s a + off, size := 8 * n
                    op := fun k o => .write (sliceOf (joinWords ((regsFrom b n).map (reg s))) k o), next := nextAt s 4 } ps) :
    storeMany a b n off s = .next (accesses s 4
      { kind := .store, va := reg s a + off, size := 8 * n
        op := fun k o => .write (sliceOf (joinWords ((regsFrom b n).map (reg s))) k o), next := nextAt s 4 } ps) :=
  issue_access (f := { reads := a :: regsFrom b n, effect := true }) h hs hq
    (by simp [operands, arg, nextPc_base]) rfl rfl (by simp) (by simp) (by simp)

/-- The atomics (R317). -/
theorem atomic_clear {op : Nat} {d a b : Reg} {w : BitVec 1} {r : BitVec 2} {ps : List Piece} (h : Ready s .u [a, b, d])
    (hs : Single s)
    (hq : Clear s { kind := .atomic, acq := r.getLsbD 0, rel := r.getLsbD 1, va := reg s a, size := if w = 1 then 8 else 4
                    align := if w = 1 then 8 else 4, op := fun k _ => .amo op ((reg s b).toNat % 2 ^ (8 * k))
                    dests := [⟨d, 0, if w = 1 then 8 else 4, true⟩], next := nextAt s 4 } ps) :
    atomic op d a b w r s = .next (accesses s 4
      { kind := .atomic, acq := r.getLsbD 0, rel := r.getLsbD 1, va := reg s a, size := if w = 1 then 8 else 4
        align := if w = 1 then 8 else 4, op := fun k _ => .amo op ((reg s b).toNat % 2 ^ (8 * k))
        dests := [⟨d, 0, if w = 1 then 8 else 4, true⟩], next := nextAt s 4 } ps) :=
  issue_access (f := { reads := [a, b], writes := [d], effect := true }) h hs hq
    (by simp [operands, arg, nextPc_base])

end Sys2Proof.Machine
end

