-- ==== Sys2Proof/Laws/Bits.lean ====
section
/-! SUPPORT. Bit vectors put together and cut apart, at the widths of the instruction formats. -/

namespace Sys2Proof.Laws

/-- The high part of two parts. -/
theorem hi_append {n m : Nat} (a : BitVec n) (b : BitVec m) : (a ++ b).extractLsb' m n = a := by
  ext i hi
  simp [BitVec.getElem_extractLsb', BitVec.getLsbD_append, BitVec.getLsbD_eq_getElem hi]

/-- The low part of two parts. -/
theorem lo_append {n m : Nat} (a : BitVec n) (b : BitVec m) : (a ++ b).extractLsb' 0 m = b := by
  ext i hi
  simp [BitVec.getElem_extractLsb', BitVec.getLsbD_append, hi]

/-- A value is its high part and its low part. -/
theorem append_parts {n m : Nat} (c : BitVec (n + m)) : c.extractLsb' m n ++ c.extractLsb' 0 m = c := by
  ext i hi
  simp only [BitVec.getElem_append]
  split
  · simp [BitVec.getElem_extractLsb', BitVec.getLsbD_eq_getElem hi]
  · have h : m + (i - m) = i := by omega
    simp [BitVec.getElem_extractLsb', h, BitVec.getLsbD_eq_getElem hi]

/-- Two parts equal a value exactly when each equals its part. -/
theorem append_eq_iff {n m : Nat} (a : BitVec n) (b : BitVec m) (c : BitVec (n + m)) :
    a ++ b = c ↔ a = c.extractLsb' m n ∧ b = c.extractLsb' 0 m := by
  constructor
  · rintro rfl
    exact ⟨(hi_append a b).symm, (lo_append a b).symm⟩
  · rintro ⟨rfl, rfl⟩
    exact append_parts c

/-- Neighbouring parts of a value join. -/
theorem parts_join {w : Nat} (c : BitVec w) (l n m : Nat) :
    c.extractLsb' (l + m) n ++ c.extractLsb' l m = c.extractLsb' l (n + m) := by
  ext i hi
  simp only [BitVec.getElem_append]
  split
  · simp [BitVec.getElem_extractLsb']
  · have h : l + m + (i - m) = l + i := by omega
    simp [BitVec.getElem_extractLsb', h]

/-- A part that lies in the low of two parts. -/
theorem inner_append {n m : Nat} (a : BitVec n) (b : BitVec m) (k l : Nat) (h : k + l ≤ m) :
    (a ++ b).extractLsb' k l = b.extractLsb' k l := by
  ext i hi
  have h' : k + i < m := by omega
  simp [BitVec.getElem_extractLsb', BitVec.getLsbD_append, h']

/-- The whole of a value. -/
theorem whole {w : Nat} (c : BitVec w) : c.extractLsb' 0 w = c := by
  ext i hi
  simp [BitVec.getElem_extractLsb', BitVec.getLsbD_eq_getElem hi]

theorem eq_1_1 (a : BitVec 1) (b : BitVec 1) (c : BitVec 2) :
    (a ++ b : BitVec 2) = c ↔ a = c.extractLsb' 1 1 ∧ b = c.extractLsb' 0 1 := append_eq_iff a b c
theorem hi_1_1 (a : BitVec 1) (b : BitVec 1) : (a ++ b : BitVec 2).extractLsb' 1 1 = a := hi_append a b
theorem lo_1_1 (a : BitVec 1) (b : BitVec 1) : (a ++ b : BitVec 2).extractLsb' 0 1 = b := lo_append a b
theorem eq_1_2 (a : BitVec 1) (b : BitVec 2) (c : BitVec 3) :
    (a ++ b : BitVec 3) = c ↔ a = c.extractLsb' 2 1 ∧ b = c.extractLsb' 0 2 := append_eq_iff a b c
theorem hi_1_2 (a : BitVec 1) (b : BitVec 2) : (a ++ b : BitVec 3).extractLsb' 2 1 = a := hi_append a b
theorem lo_1_2 (a : BitVec 1) (b : BitVec 2) : (a ++ b : BitVec 3).extractLsb' 0 2 = b := lo_append a b
theorem eq_1_3 (a : BitVec 1) (b : BitVec 3) (c : BitVec 4) :
    (a ++ b : BitVec 4) = c ↔ a = c.extractLsb' 3 1 ∧ b = c.extractLsb' 0 3 := append_eq_iff a b c
theorem hi_1_3 (a : BitVec 1) (b : BitVec 3) : (a ++ b : BitVec 4).extractLsb' 3 1 = a := hi_append a b
theorem lo_1_3 (a : BitVec 1) (b : BitVec 3) : (a ++ b : BitVec 4).extractLsb' 0 3 = b := lo_append a b
theorem eq_1_4 (a : BitVec 1) (b : BitVec 4) (c : BitVec 5) :
    (a ++ b : BitVec 5) = c ↔ a = c.extractLsb' 4 1 ∧ b = c.extractLsb' 0 4 := append_eq_iff a b c
theorem hi_1_4 (a : BitVec 1) (b : BitVec 4) : (a ++ b : BitVec 5).extractLsb' 4 1 = a := hi_append a b
theorem lo_1_4 (a : BitVec 1) (b : BitVec 4) : (a ++ b : BitVec 5).extractLsb' 0 4 = b := lo_append a b
theorem eq_1_5 (a : BitVec 1) (b : BitVec 5) (c : BitVec 6) :
    (a ++ b : BitVec 6) = c ↔ a = c.extractLsb' 5 1 ∧ b = c.extractLsb' 0 5 := append_eq_iff a b c
theorem hi_1_5 (a : BitVec 1) (b : BitVec 5) : (a ++ b : BitVec 6).extractLsb' 5 1 = a := hi_append a b
theorem lo_1_5 (a : BitVec 1) (b : BitVec 5) : (a ++ b : BitVec 6).extractLsb' 0 5 = b := lo_append a b
theorem eq_1_6 (a : BitVec 1) (b : BitVec 6) (c : BitVec 7) :
    (a ++ b : BitVec 7) = c ↔ a = c.extractLsb' 6 1 ∧ b = c.extractLsb' 0 6 := append_eq_iff a b c
theorem hi_1_6 (a : BitVec 1) (b : BitVec 6) : (a ++ b : BitVec 7).extractLsb' 6 1 = a := hi_append a b
theorem lo_1_6 (a : BitVec 1) (b : BitVec 6) : (a ++ b : BitVec 7).extractLsb' 0 6 = b := lo_append a b
theorem eq_2_2 (a : BitVec 2) (b : BitVec 2) (c : BitVec 4) :
    (a ++ b : BitVec 4) = c ↔ a = c.extractLsb' 2 2 ∧ b = c.extractLsb' 0 2 := append_eq_iff a b c
theorem hi_2_2 (a : BitVec 2) (b : BitVec 2) : (a ++ b : BitVec 4).extractLsb' 2 2 = a := hi_append a b
theorem lo_2_2 (a : BitVec 2) (b : BitVec 2) : (a ++ b : BitVec 4).extractLsb' 0 2 = b := lo_append a b
theorem eq_2_3 (a : BitVec 2) (b : BitVec 3) (c : BitVec 5) :
    (a ++ b : BitVec 5) = c ↔ a = c.extractLsb' 3 2 ∧ b = c.extractLsb' 0 3 := append_eq_iff a b c
theorem hi_2_3 (a : BitVec 2) (b : BitVec 3) : (a ++ b : BitVec 5).extractLsb' 3 2 = a := hi_append a b
theorem lo_2_3 (a : BitVec 2) (b : BitVec 3) : (a ++ b : BitVec 5).extractLsb' 0 3 = b := lo_append a b
theorem eq_2_4 (a : BitVec 2) (b : BitVec 4) (c : BitVec 6) :
    (a ++ b : BitVec 6) = c ↔ a = c.extractLsb' 4 2 ∧ b = c.extractLsb' 0 4 := append_eq_iff a b c
theorem hi_2_4 (a : BitVec 2) (b : BitVec 4) : (a ++ b : BitVec 6).extractLsb' 4 2 = a := hi_append a b
theorem lo_2_4 (a : BitVec 2) (b : BitVec 4) : (a ++ b : BitVec 6).extractLsb' 0 4 = b := lo_append a b
theorem eq_2_5 (a : BitVec 2) (b : BitVec 5) (c : BitVec 7) :
    (a ++ b : BitVec 7) = c ↔ a = c.extractLsb' 5 2 ∧ b = c.extractLsb' 0 5 := append_eq_iff a b c
theorem hi_2_5 (a : BitVec 2) (b : BitVec 5) : (a ++ b : BitVec 7).extractLsb' 5 2 = a := hi_append a b
theorem lo_2_5 (a : BitVec 2) (b : BitVec 5) : (a ++ b : BitVec 7).extractLsb' 0 5 = b := lo_append a b
theorem eq_3_2 (a : BitVec 3) (b : BitVec 2) (c : BitVec 5) :
    (a ++ b : BitVec 5) = c ↔ a = c.extractLsb' 2 3 ∧ b = c.extractLsb' 0 2 := append_eq_iff a b c
theorem hi_3_2 (a : BitVec 3) (b : BitVec 2) : (a ++ b : BitVec 5).extractLsb' 2 3 = a := hi_append a b
theorem lo_3_2 (a : BitVec 3) (b : BitVec 2) : (a ++ b : BitVec 5).extractLsb' 0 2 = b := lo_append a b
theorem eq_3_3 (a : BitVec 3) (b : BitVec 3) (c : BitVec 6) :
    (a ++ b : BitVec 6) = c ↔ a = c.extractLsb' 3 3 ∧ b = c.extractLsb' 0 3 := append_eq_iff a b c
theorem hi_3_3 (a : BitVec 3) (b : BitVec 3) : (a ++ b : BitVec 6).extractLsb' 3 3 = a := hi_append a b
theorem lo_3_3 (a : BitVec 3) (b : BitVec 3) : (a ++ b : BitVec 6).extractLsb' 0 3 = b := lo_append a b
theorem eq_3_4 (a : BitVec 3) (b : BitVec 4) (c : BitVec 7) :
    (a ++ b : BitVec 7) = c ↔ a = c.extractLsb' 4 3 ∧ b = c.extractLsb' 0 4 := append_eq_iff a b c
theorem hi_3_4 (a : BitVec 3) (b : BitVec 4) : (a ++ b : BitVec 7).extractLsb' 4 3 = a := hi_append a b
theorem lo_3_4 (a : BitVec 3) (b : BitVec 4) : (a ++ b : BitVec 7).extractLsb' 0 4 = b := lo_append a b
theorem eq_4_1 (a : BitVec 4) (b : BitVec 1) (c : BitVec 5) :
    (a ++ b : BitVec 5) = c ↔ a = c.extractLsb' 1 4 ∧ b = c.extractLsb' 0 1 := append_eq_iff a b c
theorem hi_4_1 (a : BitVec 4) (b : BitVec 1) : (a ++ b : BitVec 5).extractLsb' 1 4 = a := hi_append a b
theorem lo_4_1 (a : BitVec 4) (b : BitVec 1) : (a ++ b : BitVec 5).extractLsb' 0 1 = b := lo_append a b
theorem eq_4_3 (a : BitVec 4) (b : BitVec 3) (c : BitVec 7) :
    (a ++ b : BitVec 7) = c ↔ a = c.extractLsb' 3 4 ∧ b = c.extractLsb' 0 3 := append_eq_iff a b c
theorem hi_4_3 (a : BitVec 4) (b : BitVec 3) : (a ++ b : BitVec 7).extractLsb' 3 4 = a := hi_append a b
theorem lo_4_3 (a : BitVec 4) (b : BitVec 3) : (a ++ b : BitVec 7).extractLsb' 0 3 = b := lo_append a b
theorem eq_5_2 (a : BitVec 5) (b : BitVec 2) (c : BitVec 7) :
    (a ++ b : BitVec 7) = c ↔ a = c.extractLsb' 2 5 ∧ b = c.extractLsb' 0 2 := append_eq_iff a b c
theorem hi_5_2 (a : BitVec 5) (b : BitVec 2) : (a ++ b : BitVec 7).extractLsb' 2 5 = a := hi_append a b
theorem lo_5_2 (a : BitVec 5) (b : BitVec 2) : (a ++ b : BitVec 7).extractLsb' 0 2 = b := lo_append a b
theorem eq_6_1 (a : BitVec 6) (b : BitVec 1) (c : BitVec 7) :
    (a ++ b : BitVec 7) = c ↔ a = c.extractLsb' 1 6 ∧ b = c.extractLsb' 0 1 := append_eq_iff a b c
theorem hi_6_1 (a : BitVec 6) (b : BitVec 1) : (a ++ b : BitVec 7).extractLsb' 1 6 = a := hi_append a b
theorem lo_6_1 (a : BitVec 6) (b : BitVec 1) : (a ++ b : BitVec 7).extractLsb' 0 1 = b := lo_append a b
theorem join_4_5_4_16 (c : BitVec 16) :
    (c.extractLsb' 4 5 ++ c.extractLsb' 0 4 : BitVec 9) = c.extractLsb' 0 9 := by
  have h := parts_join c 0 5 4
  exact h
theorem join_5_1_5_6 (c : BitVec 6) : (c.extractLsb' 5 1 ++ c.extractLsb' 0 5 : BitVec 6) = c := @append_parts 1 5 c
theorem join_5_2_5_7 (c : BitVec 7) : (c.extractLsb' 5 2 ++ c.extractLsb' 0 5 : BitVec 7) = c := @append_parts 2 5 c
theorem join_5_4_5_9 (c : BitVec 9) : (c.extractLsb' 5 4 ++ c.extractLsb' 0 5 : BitVec 9) = c := @append_parts 4 5 c
theorem join_5_5_5_10 (c : BitVec 10) : (c.extractLsb' 5 5 ++ c.extractLsb' 0 5 : BitVec 10) = c := @append_parts 5 5 c
theorem join_5_5_5_17 (c : BitVec 17) :
    (c.extractLsb' 5 5 ++ c.extractLsb' 0 5 : BitVec 10) = c.extractLsb' 0 10 := by
  have h := parts_join c 0 5 5
  exact h
theorem join_5_6_5_11 (c : BitVec 11) : (c.extractLsb' 5 6 ++ c.extractLsb' 0 5 : BitVec 11) = c := @append_parts 6 5 c
theorem join_5_7_5_12 (c : BitVec 12) : (c.extractLsb' 5 7 ++ c.extractLsb' 0 5 : BitVec 12) = c := @append_parts 7 5 c
theorem join_9_7_9_16 (c : BitVec 16) : (c.extractLsb' 9 7 ++ c.extractLsb' 0 9 : BitVec 16) = c := @append_parts 7 9 c
theorem join_10_7_10_17 (c : BitVec 17) : (c.extractLsb' 10 7 ++ c.extractLsb' 0 10 : BitVec 17) = c := @append_parts 7 10 c
theorem mid_1_5_0_2 (a : BitVec 1) (b : BitVec 5) : (a ++ b : BitVec 6).extractLsb' 0 2 = b.extractLsb' 0 2 := inner_append a b 0 2 (by decide)
theorem mid_1_5_2_3 (a : BitVec 1) (b : BitVec 5) : (a ++ b : BitVec 6).extractLsb' 2 3 = b.extractLsb' 2 3 := inner_append a b 2 3 (by decide)
theorem mid_1_6_0_2 (a : BitVec 1) (b : BitVec 6) : (a ++ b : BitVec 7).extractLsb' 0 2 = b.extractLsb' 0 2 := inner_append a b 0 2 (by decide)
theorem mid_1_6_0_3 (a : BitVec 1) (b : BitVec 6) : (a ++ b : BitVec 7).extractLsb' 0 3 = b.extractLsb' 0 3 := inner_append a b 0 3 (by decide)
theorem mid_1_6_0_4 (a : BitVec 1) (b : BitVec 6) : (a ++ b : BitVec 7).extractLsb' 0 4 = b.extractLsb' 0 4 := inner_append a b 0 4 (by decide)
theorem mid_1_6_2_3 (a : BitVec 1) (b : BitVec 6) : (a ++ b : BitVec 7).extractLsb' 2 3 = b.extractLsb' 2 3 := inner_append a b 2 3 (by decide)
theorem mid_1_6_3_3 (a : BitVec 1) (b : BitVec 6) : (a ++ b : BitVec 7).extractLsb' 3 3 = b.extractLsb' 3 3 := inner_append a b 3 3 (by decide)
theorem mid_1_6_4_2 (a : BitVec 1) (b : BitVec 6) : (a ++ b : BitVec 7).extractLsb' 4 2 = b.extractLsb' 4 2 := inner_append a b 4 2 (by decide)
theorem mid_1_6_5_1 (a : BitVec 1) (b : BitVec 6) : (a ++ b : BitVec 7).extractLsb' 5 1 = b.extractLsb' 5 1 := inner_append a b 5 1 (by decide)
theorem mid_2_2_0_1 (a : BitVec 2) (b : BitVec 2) : (a ++ b : BitVec 4).extractLsb' 0 1 = b.extractLsb' 0 1 := inner_append a b 0 1 (by decide)
theorem mid_2_2_1_1 (a : BitVec 2) (b : BitVec 2) : (a ++ b : BitVec 4).extractLsb' 1 1 = b.extractLsb' 1 1 := inner_append a b 1 1 (by decide)
theorem mid_2_5_0_3 (a : BitVec 2) (b : BitVec 5) : (a ++ b : BitVec 7).extractLsb' 0 3 = b.extractLsb' 0 3 := inner_append a b 0 3 (by decide)
theorem mid_2_5_0_4 (a : BitVec 2) (b : BitVec 5) : (a ++ b : BitVec 7).extractLsb' 0 4 = b.extractLsb' 0 4 := inner_append a b 0 4 (by decide)
theorem mid_2_5_3_2 (a : BitVec 2) (b : BitVec 5) : (a ++ b : BitVec 7).extractLsb' 3 2 = b.extractLsb' 3 2 := inner_append a b 3 2 (by decide)
theorem mid_2_5_4_1 (a : BitVec 2) (b : BitVec 5) : (a ++ b : BitVec 7).extractLsb' 4 1 = b.extractLsb' 4 1 := inner_append a b 4 1 (by decide)
theorem mid_3_4_0_1 (a : BitVec 3) (b : BitVec 4) : (a ++ b : BitVec 7).extractLsb' 0 1 = b.extractLsb' 0 1 := inner_append a b 0 1 (by decide)
theorem mid_3_4_0_3 (a : BitVec 3) (b : BitVec 4) : (a ++ b : BitVec 7).extractLsb' 0 3 = b.extractLsb' 0 3 := inner_append a b 0 3 (by decide)
theorem mid_3_4_1_1 (a : BitVec 3) (b : BitVec 4) : (a ++ b : BitVec 7).extractLsb' 1 1 = b.extractLsb' 1 1 := inner_append a b 1 1 (by decide)
theorem mid_3_4_2_2 (a : BitVec 3) (b : BitVec 4) : (a ++ b : BitVec 7).extractLsb' 2 2 = b.extractLsb' 2 2 := inner_append a b 2 2 (by decide)
theorem mid_3_4_3_1 (a : BitVec 3) (b : BitVec 4) : (a ++ b : BitVec 7).extractLsb' 3 1 = b.extractLsb' 3 1 := inner_append a b 3 1 (by decide)
theorem mid_5_2_0_1 (a : BitVec 5) (b : BitVec 2) : (a ++ b : BitVec 7).extractLsb' 0 1 = b.extractLsb' 0 1 := inner_append a b 0 1 (by decide)
theorem mid_5_2_1_1 (a : BitVec 5) (b : BitVec 2) : (a ++ b : BitVec 7).extractLsb' 1 1 = b.extractLsb' 1 1 := inner_append a b 1 1 (by decide)

end Sys2Proof.Laws
end

