-- ==== Sys2Proof/Laws/Forms.lean ====
section
/-! SUPPORT. The shared shapes of instructions under `Ready`: what each comes to, said once. -/

namespace Sys2Proof.Machine

variable {s : State}

theorem Ready.mono {p : Prv} {rs qs : List Reg} {acc : Nat → Bool} (h : Ready s p rs acc) (hq : ∀ r ∈ qs, r ∈ rs) :
    Ready s p qs acc :=
  ⟨h.power, h.privilege, h.prefixed, h.written.imp id (pendingOn_subset hq), fun r hr => h.unbound r (hq r hr)⟩

theorem rform_ready {len : Nat} {d a b : Reg} {g : Word → Word → Word} (h : Ready s .u [a, b, d]) :
    rform len d a b g s = .next (writes s len d (g (reg s a) (reg s b))) :=
  compute_now (f := { len := len, reads := [a, b] }) (g := fun vs => g (arg vs 0) (arg vs 1)) h rfl rfl rfl rfl

theorem uform_ready {len : Nat} {d a : Reg} {g : Word → Word} (h : Ready s .u [a, d]) :
    uform len d a g s = .next (writes s len d (g (reg s a))) :=
  compute_now (f := { len := len, reads := [a] }) (g := fun vs => g (arg vs 0)) h rfl rfl rfl rfl

theorem iform_ready {len : Nat} {d : Reg} {v : Word} (h : Ready s .u [d]) : iform len d v s = .next (writes s len d v) :=
  compute_now (f := { len := len }) (g := fun _ => v) h rfl rfl rfl rfl

theorem mform_ready {len : Nat} {d a b : Reg} {g : Word → Word → Word} (h : Ready s .u [a, b, d]) :
    mform len d a b g s = .next (lands s len 0 d (g (reg s a) (reg s b)) 4) :=
  compute_later (f := { len := len, reads := [a, b] }) (g := fun vs => g (arg vs 0) (arg vs 1)) h rfl rfl rfl rfl (by decide)

theorem dform_ready {d a b : Reg} {w : BitVec 3} {g : Word → Word → Word} (h : Ready s .u [a, b, d]) :
    dform d a b w g s = .next (lands s 4 w.toNat d (g (reg s a) (reg s b)) 40) :=
  compute_later (f := { reads := [a, b], wait := w.toNat }) (g := fun vs => g (arg vs 0) (arg vs 1)) h rfl rfl rfl rfl (by decide)

theorem branched_base : branched (base s) = setThr s s.cur (turned s) := by
  unfold branched turned
  simp only [base_cur, thr_base]
  split <;> simp [base]

@[simp] theorem boundAt_turned (r : Reg) : boundAt (turned s) r = boundAt (issuer s) r := by
  unfold turned
  split <;> rfl

theorem branch_ready {len : Nat} {rs : List Reg} {o : BitVec 12} {taken : List Word → Bool} (h : Ready s .u rs) :
    branch len rs o taken s =
      .next (goes s s (turned s) (if taken (rs.map (reg s)) then (issuer s).pc + 2 * o.signExtend 64 else nextAt s len)) := by
  have hb : (base s).cur = s.cur := rfl
  cases ht : taken (rs.map (reg s)) with
  | false =>
    refine (issue_done (f := { len := len, reads := rs }) (t := setThr s s.cur (turned s)) h (.inl ⟨rfl, rfl⟩)
      (by simp [operands, ht, branched_base]) rfl rfl rfl (by simp)).trans ?_
    simp
  | true =>
    refine (issue_jump (f := { len := len, reads := rs }) (pc := target12 (issuer s).pc o)
      (t := setThr s s.cur (turned s)) h (.inl ⟨rfl, rfl⟩)
      (by simp [operands, ht, branched_base]) rfl rfl rfl (by simp)).trans ?_
    simp [target12]

theorem jump_ready {len : Nat} {o : BitVec 17} (h : Ready s .u []) :
    jump len o s = .next (goes s s (issuer s) ((issuer s).pc + 2 * o.signExtend 64)) := by
  refine (issue_jump (f := { len := len }) (t := base s) h (.inl ⟨rfl, rfl⟩) rfl rfl rfl).trans ?_
  simp [target17]

theorem jumpLink_ready {len : Nat} {d : Reg} {o : BitVec 17} (h : Ready s .u [d]) :
    jumpLink len d o s =
      .next (goes s s (setX (overtake (issuer s) d (cyc s)) d.toNat (nextAt s len)) ((issuer s).pc + 2 * o.signExtend 64)) := by
  have hb : boundAt (thr (base s) s.cur) d = none := by simpa using h.unbound d (by simp)
  refine (issue_jump (f := { len := len, writes := [d] })
    (t := setThr (base s) s.cur (setX (overtake (issuer s) d (cyc s)) d.toNat (nextAt s len))) h
    (.inl ⟨rfl, rfl⟩) (by simp [result_now hb, nextAt, cyc]; rfl) rfl rfl).trans ?_
  simp [target17]

theorem indirect_ready {len : Nat} {a : Reg} {i : BitVec 12} (h : Ready s .u [a])
    (he : (reg s a + i.signExtend 64).getLsbD 0 = false) :
    indirect len a i s = .next (goes s s (turned s) (reg s a + i.signExtend 64)) := by
  refine (issue_jump (f := { len := len, reads := [a] }) (pc := reg s a + i.signExtend 64) (t := setThr s s.cur (turned s)) h
    (.inl ⟨rfl, rfl⟩) ?_ rfl rfl).trans (by simp)
  simp [operands, arg, imm12] at he ⊢
  simp [he, branched_base]

theorem indirectLink_ready {len : Nat} {d a : Reg} {i : BitVec 12} (h : Ready s .u [a, d])
    (he : (reg s a + i.signExtend 64).getLsbD 0 = false) :
    indirectLink len d a i s
      = .next (goes s s (setX (overtake (turned s) d (cyc s)) d.toNat (nextAt s len)) (reg s a + i.signExtend 64)) := by
  have hb : boundAt (thr (setThr s s.cur (turned s)) s.cur) d = none := by simpa using h.unbound d (by simp)
  refine (issue_jump (f := { len := len, reads := [a], writes := [d] }) (pc := reg s a + i.signExtend 64)
    (t := setThr s s.cur (setX (overtake (turned s) d (cyc s)) d.toNat (nextAt s len))) h (.inl ⟨rfl, rfl⟩) ?_ rfl rfl).trans
    (by simp)
  simp [operands, arg, imm12] at he ⊢
  simp [he, branched_base, result_now hb, nextAt, cyc]

/-- A fault of an instruction under `Ready`, raised before it has any effect: the cause is taken with the instruction's own
address, and no register is written (R221, R222). -/
theorem issue_fault {f : Form} {body : List Word → State → Eff × State} {acc : Nat → Bool} {rs : List Reg} {c : Cause} {v : Word}
    (h : Ready s f.prv rs acc) (hs : f.effect = false ∧ f.load = false ∨ Single s)
    (hb : body (operands s f) (base s) = (.fault c v, base s))
    (hacc : acc = f.accepts.getD fun _ => false := by rfl)
    (hr : ∀ r ∈ f.reads, r ∈ rs := by simp) (hw : ∀ r ∈ f.writes, r ∈ rs := by simp)
    (hm : ∀ r ∈ f.more (f.reads.map (reg s)), r ∈ rs := by simp) :
    issue f body s = .next (takeFault (atFault s) s.cur c v (issuer s).pc) := by
  rw [issue_effect h hs hb (.inl (keepQueue_same rfl)) hacc hr hw hm]
  simp [finish, atFault]

end Sys2Proof.Machine
end

