-- ==== Sys2Proof/Laws/Float.lean ====
section
/-! SUPPORT. The shared shape of the packed, floating-point and distance instructions under `Ready`. -/

namespace Sys2Proof.Machine

variable {s : State}

/-- An instruction whose result depends on its operands, the pending prefix and FPC.RM lands it with its flags after `n` cycles
(R324, R325). -/
theorem fp_ready {f : Form} {d : Reg} {n : Nat} {g : Option (BitVec 10) → BitVec 3 → List Word → Nat × FFlags}
    {acc : Nat → Bool} {rs : List Reg} (h : Ready s f.prv rs acc) (hn : 1 < n)
    (hacc : acc = f.accepts.getD fun _ => false := by rfl)
    (hr : ∀ r ∈ f.reads, r ∈ rs := by simp) (hd : d ∈ rs := by simp)
    (he : f.effect = false ∧ f.load = false := by exact ⟨rfl, rfl⟩) (hm : f.more = (fun _ => []) := by rfl) :
    fp f d n g s =
      (let r := g (pendingPfx (issuer s)) (issuer s).rm (f.reads.map (reg s))
       .next (lands s f.len f.wait d (natWord r.1) n r.2 true)) := by
  have hb : boundAt (thr (base s) s.cur) d = none := by simpa using h.unbound d hd
  unfold fp
  refine (issue_done (f := { f with writes := [d] }) (t := setThr (base s) s.cur (pending s (issuer s) d
    (natWord (g (pendingPfx (issuer s)) (issuer s).rm (f.reads.map (reg s))).1) n
    (g (pendingPfx (issuer s)) (issuer s).rm (f.reads.map (reg s))).2 true)) h (.inl he) ?_ rfl rfl hacc hr (by simpa using hd)
    (by simp [hm])).trans (by simp [lands])
  simp only [operands, hm, fpResult, List.map_nil, List.append_nil, base_cur, thr_base]
  rw [result_later hb hn]
  simp [pending, cyc]

end Sys2Proof.Machine
end

