-- ==== Sys2Proof/Laws/Memory.lean ====
section
/-! SUPPORT. Bytes of memory: a write is read back, leaves every other byte, and keeps the canonical form. -/

namespace Sys2Proof.Machine

/-- Canonical form as a statement over every pair of neighbours. -/
theorem memory_wf_cons {k : Nat} {v : Byte} {m : List Host.Cell} :
    Memory.wf ((k, v) :: m) = true ↔ v ≠ 0 ∧ (∀ c ∈ m.head?, k < c.1) ∧ Memory.wf m = true := by
  cases m with
  | nil => simp [Memory.wf]
  | cons c m =>
    obtain ⟨k', v'⟩ := c
    simp [Memory.wf, and_assoc]

theorem memory_wf_tail {c : Host.Cell} {m : List Host.Cell} (h : Memory.wf (c :: m) = true) : Memory.wf m = true := by
  obtain ⟨k, v⟩ := c
  exact (memory_wf_cons.mp h).2.2

/-- Below every listed key a byte reads as 0. -/
theorem byteAt_below {k : Nat} {v : Byte} {m : List Host.Cell} (h : Memory.wf ((k, v) :: m) = true) {a : Nat} (ha : a ≤ k) :
    byteAt m a = 0 := by
  induction m generalizing k v with
  | nil => rfl
  | cons c m ih =>
    obtain ⟨k', v'⟩ := c
    obtain ⟨-, h1, h2⟩ := memory_wf_cons.mp h
    have hk : k < k' := by simpa using h1
    have : k' ≠ a := by omega
    simp only [byteAt, this, if_false]
    exact ih h2 (by omega)

/-- A byte written is read back. -/
theorem byteAt_setByte {m : List Host.Cell} (h : Memory.wf m = true) (a : Nat) (v : Byte) : byteAt (setByte m a v) a = v := by
  induction m with
  | nil => by_cases hv : v = 0#8 <;> simp [setByte, byteAt, hv]
  | cons c m ih =>
    obtain ⟨k, x⟩ := c
    have ht := ih (memory_wf_tail h)
    simp only [setByte]
    split
    · next hk =>
      subst hk
      by_cases hv : v = 0#8
      · simp [hv, byteAt_below h (Nat.le_refl _)]
      · simp [hv, byteAt]
    · next hk =>
      split
      · next hlt =>
        by_cases hv : v = 0#8
        · simp [hv, byteAt, hk, byteAt_below h (Nat.le_of_lt hlt)]
        · simp [hv, byteAt]
      · simp [byteAt, hk, ht]

/-- A write of a byte leaves every other byte. -/
theorem byteAt_setByte_ne (m : List Host.Cell) {a b : Nat} (v : Byte) (h : a ≠ b) : byteAt (setByte m a v) b = byteAt m b := by
  induction m with
  | nil => by_cases hv : v = 0#8 <;> simp [setByte, byteAt, hv, h]
  | cons c m ih =>
    obtain ⟨k, x⟩ := c
    simp only [setByte]
    split
    · next hk =>
      subst hk
      by_cases hv : v = 0#8 <;> simp [hv, byteAt, h]
    · split
      · by_cases hv : v = 0#8 <;> simp [hv, byteAt, h]
      · simp [byteAt, ih]

theorem head_setByte (m : List Host.Cell) (a k : Nat) (v : Byte) (hm : ∀ c ∈ m.head?, k < c.1) (ha : k < a) (hw : Memory.wf m = true) :
    ∀ c ∈ (setByte m a v).head?, k < c.1 := by
  cases m with
  | nil => by_cases hv : v = 0#8 <;> simp [setByte, hv, ha]
  | cons c m =>
    obtain ⟨k', x⟩ := c
    have hk' : k < k' := by simpa using hm
    simp only [setByte]
    split
    · next e =>
      by_cases hv : v = 0#8
      · simp only [hv]
        intro c hc
        have := (memory_wf_cons.mp hw).2.1 c hc
        omega
      · simp [hv, ha]
    · split
      · by_cases hv : v = 0#8 <;> simp [hv, ha, hk']
      · simp [hk']

/-- A write of a byte keeps the canonical form. -/
theorem wf_setByte {m : List Host.Cell} (h : Memory.wf m = true) (a : Nat) (v : Byte) : Memory.wf (setByte m a v) = true := by
  induction m with
  | nil => by_cases hv : v = 0#8 <;> simp [setByte, Memory.wf, hv]
  | cons c m ih =>
    obtain ⟨k, x⟩ := c
    obtain ⟨h0, h1, h2⟩ := memory_wf_cons.mp h
    simp only [setByte]
    split
    · next hk =>
      subst hk
      by_cases hv : v = 0#8
      · simp [hv, h2]
      · rw [if_neg (show ¬v = 0 from hv)]
        exact memory_wf_cons.mpr ⟨hv, h1, h2⟩
    · split
      · next hlt =>
        by_cases hv : v = 0#8
        · simp [hv, h]
        · rw [if_neg (show ¬v = 0 from hv)]
          exact memory_wf_cons.mpr ⟨hv, by simpa using hlt, h⟩
      · exact memory_wf_cons.mpr ⟨h0, head_setByte m a k v h1 (by omega) h2, ih h2⟩

/-- A write of several bytes keeps the canonical form. -/
theorem wf_setBytes {m : List Host.Cell} (h : Memory.wf m = true) (a n v : Nat) : Memory.wf (setBytes m a n v) = true := by
  induction n generalizing m a v with
  | zero => exact h
  | succ n ih => exact ih (wf_setByte h a _) _ _

/-- A write of several bytes leaves every byte outside them. -/
theorem byteAt_setBytes_out (m : List Host.Cell) {a n b : Nat} (v : Nat) (h : b < a ∨ a + n ≤ b) :
    byteAt (setBytes m a n v) b = byteAt m b := by
  induction n generalizing m a v with
  | zero => rfl
  | succ n ih =>
    simp only [setBytes]
    rw [ih _ _ (by omega), byteAt_setByte_ne _ _ (by omega)]

/-- Each byte of a write is the byte of the number, the lowest at the lowest address (R4). -/
theorem byteAt_setBytes {m : List Host.Cell} (hm : Memory.wf m = true) {a n i : Nat} (v : Nat) (h : i < n) :
    byteAt (setBytes m a n v) (a + i) = BitVec.ofNat 8 (v / 256 ^ i) := by
  induction n generalizing m a v i with
  | zero => omega
  | succ n ih =>
    simp only [setBytes]
    cases i with
    | zero => simp [byteAt_setBytes_out _ _ (Or.inl (Nat.lt_succ_self a)), byteAt_setByte hm]
    | succ i =>
      have := ih (wf_setByte hm a (BitVec.ofNat 8 v)) (a := a + 1) (v / 256) (show i < n by omega)
      rw [show a + (i + 1) = a + 1 + i by omega, this, Nat.div_div_eq_div_mul]
      congr 2
      rw [Nat.pow_succ, Nat.mul_comm]

/-- A number of several bytes reads back cut to them (R4). -/
theorem bytesAt_setBytes {m : List Host.Cell} (hm : Memory.wf m = true) (a n v : Nat) :
    bytesAt (setBytes m a n v) a n = v % 256 ^ n := by
  induction n generalizing m a v with
  | zero => simp [bytesAt, Nat.mod_one]
  | succ n ih =>
    simp only [setBytes, bytesAt]
    rw [byteAt_setBytes_out _ _ (Or.inl (Nat.lt_succ_self a)), byteAt_setByte hm, ih (wf_setByte hm a _)]
    rw [Nat.pow_succ, Nat.mul_comm (256 ^ n), Nat.mod_mul]
    simp

/-- A write outside some bytes leaves the number they hold. -/
theorem bytesAt_setBytes_out (m : List Host.Cell) {a n b k : Nat} (v : Nat) (h : b + k ≤ a ∨ a + n ≤ b) :
    bytesAt (setBytes m a n v) b k = bytesAt m b k := by
  induction k generalizing b with
  | zero => rfl
  | succ k ih =>
    simp only [bytesAt]
    rw [byteAt_setBytes_out _ _ (by omega), ih (by omega)]

end Sys2Proof.Machine
end

