-- ==== Sys2Proof/Laws/PerInstr.lean ====
section
/-! SUPPORT. Statements made instruction by instruction: the decoder reads back the fields that the encoder wrote. -/

namespace Sys2Proof.Laws

/-- The decoder reads a well-formed instruction back from its encoding (R276-R284); a step without an encoding has nothing to
read. -/
def Coding.Statement (i : Instr) : Prop :=
  i.wf = true →
    match i.encoding with
    | .long r => decodeRaw32 r = .ok i
    | .short r => decodeRaw16 r = .ok i
    | .noBits => True

/-- A halfword whose row is known decodes to it. -/
theorem short_row {r : Raw16} {i : Instr} (h0 : r.op ≠ 0x0#6) (hr : rowRaw16 r = some i) (hw : i.wf = true) :
    decodeRaw16 r = .ok i := by
  simp [decodeRaw16, h0, hr, hw]

theorem long_row_01 {r : Raw32} {i : Instr} (ho : r.op = 0x3#7) (hr : decodeMajor01 r = some i) (hw : i.wf = true) :
    decodeRaw32 r = .ok i := by
  simp [decodeRaw32, ho, hr, hw]
theorem long_row_02 {r : Raw32} {i : Instr} (ho : r.op = 0x5#7) (hr : decodeMajor02 r = some i) (hw : i.wf = true) :
    decodeRaw32 r = .ok i := by
  simp [decodeRaw32, ho, hr, hw]
theorem long_row_03 {r : Raw32} {i : Instr} (ho : r.op = 0x7#7) (hr : decodeMajor03 r = some i) (hw : i.wf = true) :
    decodeRaw32 r = .ok i := by
  simp [decodeRaw32, ho, hr, hw]
theorem long_row_04 {r : Raw32} {i : Instr} (ho : r.op = 0x9#7) (hr : decodeMajor04 r = some i) (hw : i.wf = true) :
    decodeRaw32 r = .ok i := by
  simp [decodeRaw32, ho, hr, hw]
theorem long_row_05 {r : Raw32} {i : Instr} (ho : r.op = 0xB#7) (hr : decodeMajor05 r = some i) (hw : i.wf = true) :
    decodeRaw32 r = .ok i := by
  simp [decodeRaw32, ho, hr, hw]
theorem long_row_06 {r : Raw32} {i : Instr} (ho : r.op = 0xD#7) (hr : decodeMajor06 r = some i) (hw : i.wf = true) :
    decodeRaw32 r = .ok i := by
  simp [decodeRaw32, ho, hr, hw]
theorem long_row_07 {r : Raw32} {i : Instr} (ho : r.op = 0xF#7) (hr : decodeMajor07 r = some i) (hw : i.wf = true) :
    decodeRaw32 r = .ok i := by
  simp [decodeRaw32, ho, hr, hw]
theorem long_row_08 {r : Raw32} {i : Instr} (ho : r.op = 0x11#7) (hr : decodeMajor08 r = some i) (hw : i.wf = true) :
    decodeRaw32 r = .ok i := by
  simp [decodeRaw32, ho, hr, hw]
theorem long_row_09 {r : Raw32} {i : Instr} (ho : r.op = 0x13#7) (hr : decodeMajor09 r = some i) (hw : i.wf = true) :
    decodeRaw32 r = .ok i := by
  simp [decodeRaw32, ho, hr, hw]
theorem long_row_0A {r : Raw32} {i : Instr} (ho : r.op = 0x15#7) (hr : decodeMajor0A r = some i) (hw : i.wf = true) :
    decodeRaw32 r = .ok i := by
  simp [decodeRaw32, ho, hr, hw]
theorem long_row_0B {r : Raw32} {i : Instr} (ho : r.op = 0x17#7) (hr : decodeMajor0B r = some i) (hw : i.wf = true) :
    decodeRaw32 r = .ok i := by
  simp [decodeRaw32, ho, hr, hw]
theorem long_row_0C {r : Raw32} {i : Instr} (ho : r.op = 0x19#7) (hr : decodeMajor0C r = some i) (hw : i.wf = true) :
    decodeRaw32 r = .ok i := by
  simp [decodeRaw32, ho, hr, hw]
theorem long_row_0D {r : Raw32} {i : Instr} (ho : r.op = 0x1B#7) (hr : decodeMajor0D r = some i) (hw : i.wf = true) :
    decodeRaw32 r = .ok i := by
  simp [decodeRaw32, ho, hr, hw]
theorem long_row_0E {r : Raw32} {i : Instr} (ho : r.op = 0x1D#7) (hr : decodeMajor0E r = some i) (hw : i.wf = true) :
    decodeRaw32 r = .ok i := by
  simp [decodeRaw32, ho, hr, hw]
theorem long_row_0F {r : Raw32} {i : Instr} (ho : r.op = 0x1F#7) (hr : decodeMajor0F r = some i) (hw : i.wf = true) :
    decodeRaw32 r = .ok i := by
  simp [decodeRaw32, ho, hr, hw]
theorem long_row_10 {r : Raw32} {i : Instr} (ho : r.op = 0x21#7) (hr : decodeMajor10 r = some i) (hw : i.wf = true) :
    decodeRaw32 r = .ok i := by
  simp [decodeRaw32, ho, hr, hw]
theorem long_row_11 {r : Raw32} {i : Instr} (ho : r.op = 0x23#7) (hr : decodeMajor11 r = some i) (hw : i.wf = true) :
    decodeRaw32 r = .ok i := by
  simp [decodeRaw32, ho, hr, hw]
theorem long_row_12 {r : Raw32} {i : Instr} (ho : r.op = 0x25#7) (hr : decodeMajor12 r = some i) (hw : i.wf = true) :
    decodeRaw32 r = .ok i := by
  simp [decodeRaw32, ho, hr, hw]
theorem long_row_14 {r : Raw32} {i : Instr} (ho : r.op = 0x29#7) (hr : decodeMajor14 r = some i) (hw : i.wf = true) :
    decodeRaw32 r = .ok i := by
  simp [decodeRaw32, ho, hr, hw]
theorem long_row_15 {r : Raw32} {i : Instr} (ho : r.op = 0x2B#7) (hr : decodeMajor15 r = some i) (hw : i.wf = true) :
    decodeRaw32 r = .ok i := by
  simp [decodeRaw32, ho, hr, hw]
theorem long_row_16 {r : Raw32} {i : Instr} (ho : r.op = 0x2D#7) (hr : decodeMajor16 r = some i) (hw : i.wf = true) :
    decodeRaw32 r = .ok i := by
  simp [decodeRaw32, ho, hr, hw]
theorem long_row_17 {r : Raw32} {i : Instr} (ho : r.op = 0x2F#7) (hr : decodeMajor17 r = some i) (hw : i.wf = true) :
    decodeRaw32 r = .ok i := by
  simp [decodeRaw32, ho, hr, hw]
theorem long_row_18 {r : Raw32} {i : Instr} (ho : r.op = 0x31#7) (hr : decodeMajor18 r = some i) (hw : i.wf = true) :
    decodeRaw32 r = .ok i := by
  simp [decodeRaw32, ho, hr, hw]
theorem long_row_19 {r : Raw32} {i : Instr} (ho : r.op = 0x33#7) (hr : decodeMajor19 r = some i) (hw : i.wf = true) :
    decodeRaw32 r = .ok i := by
  simp [decodeRaw32, ho, hr, hw]
theorem long_row_1A {r : Raw32} {i : Instr} (ho : r.op = 0x35#7) (hr : decodeMajor1A r = some i) (hw : i.wf = true) :
    decodeRaw32 r = .ok i := by
  simp [decodeRaw32, ho, hr, hw]
theorem long_row_1B {r : Raw32} {i : Instr} (ho : r.op = 0x37#7) (hr : decodeMajor1B r = some i) (hw : i.wf = true) :
    decodeRaw32 r = .ok i := by
  simp [decodeRaw32, ho, hr, hw]
theorem long_row_1C {r : Raw32} {i : Instr} (ho : r.op = 0x39#7) (hr : decodeMajor1C r = some i) (hw : i.wf = true) :
    decodeRaw32 r = .ok i := by
  simp [decodeRaw32, ho, hr, hw]
theorem long_row_1D {r : Raw32} {i : Instr} (ho : r.op = 0x3B#7) (hr : decodeMajor1D r = some i) (hw : i.wf = true) :
    decodeRaw32 r = .ok i := by
  simp [decodeRaw32, ho, hr, hw]
theorem long_row_1E {r : Raw32} {i : Instr} (ho : r.op = 0x3D#7) (hr : decodeMajor1E r = some i) (hw : i.wf = true) :
    decodeRaw32 r = .ok i := by
  simp [decodeRaw32, ho, hr, hw]
theorem long_row_1F {r : Raw32} {i : Instr} (ho : r.op = 0x3F#7) (hr : decodeMajor1F r = some i) (hw : i.wf = true) :
    decodeRaw32 r = .ok i := by
  simp [decodeRaw32, ho, hr, hw]
theorem long_row_20 {r : Raw32} {i : Instr} (ho : r.op = 0x41#7) (hr : decodeMajor20 r = some i) (hw : i.wf = true) :
    decodeRaw32 r = .ok i := by
  simp [decodeRaw32, ho, hr, hw]
theorem long_row_21 {r : Raw32} {i : Instr} (ho : r.op = 0x43#7) (hr : decodeMajor21 r = some i) (hw : i.wf = true) :
    decodeRaw32 r = .ok i := by
  simp [decodeRaw32, ho, hr, hw]
theorem long_row_22 {r : Raw32} {i : Instr} (ho : r.op = 0x45#7) (hr : decodeMajor22 r = some i) (hw : i.wf = true) :
    decodeRaw32 r = .ok i := by
  simp [decodeRaw32, ho, hr, hw]
theorem long_row_23 {r : Raw32} {i : Instr} (ho : r.op = 0x47#7) (hr : decodeMajor23 r = some i) (hw : i.wf = true) :
    decodeRaw32 r = .ok i := by
  simp [decodeRaw32, ho, hr, hw]
theorem long_row_24 {r : Raw32} {i : Instr} (ho : r.op = 0x49#7) (hr : decodeMajor24 r = some i) (hw : i.wf = true) :
    decodeRaw32 r = .ok i := by
  simp [decodeRaw32, ho, hr, hw]
theorem long_row_25 {r : Raw32} {i : Instr} (ho : r.op = 0x4B#7) (hr : decodeMajor25 r = some i) (hw : i.wf = true) :
    decodeRaw32 r = .ok i := by
  simp [decodeRaw32, ho, hr, hw]
theorem long_row_26 {r : Raw32} {i : Instr} (ho : r.op = 0x4D#7) (hr : decodeMajor26 r = some i) (hw : i.wf = true) :
    decodeRaw32 r = .ok i := by
  simp [decodeRaw32, ho, hr, hw]
theorem long_row_28 {r : Raw32} {i : Instr} (ho : r.op = 0x51#7) (hr : decodeMajor28 r = some i) (hw : i.wf = true) :
    decodeRaw32 r = .ok i := by
  simp [decodeRaw32, ho, hr, hw]
theorem long_row_29 {r : Raw32} {i : Instr} (ho : r.op = 0x53#7) (hr : decodeMajor29 r = some i) (hw : i.wf = true) :
    decodeRaw32 r = .ok i := by
  simp [decodeRaw32, ho, hr, hw]
theorem long_row_2A {r : Raw32} {i : Instr} (ho : r.op = 0x55#7) (hr : decodeMajor2A r = some i) (hw : i.wf = true) :
    decodeRaw32 r = .ok i := by
  simp [decodeRaw32, ho, hr, hw]
theorem long_row_2B {r : Raw32} {i : Instr} (ho : r.op = 0x57#7) (hr : decodeMajor2B r = some i) (hw : i.wf = true) :
    decodeRaw32 r = .ok i := by
  simp [decodeRaw32, ho, hr, hw]
theorem long_row_30 {r : Raw32} {i : Instr} (ho : r.op = 0x61#7) (hr : decodeMajor30 r = some i) (hw : i.wf = true) :
    decodeRaw32 r = .ok i := by
  simp [decodeRaw32, ho, hr, hw]
theorem long_row_31 {r : Raw32} {i : Instr} (ho : r.op = 0x63#7) (hr : decodeMajor31 r = some i) (hw : i.wf = true) :
    decodeRaw32 r = .ok i := by
  simp [decodeRaw32, ho, hr, hw]
theorem long_row_32 {r : Raw32} {i : Instr} (ho : r.op = 0x65#7) (hr : decodeMajor32 r = some i) (hw : i.wf = true) :
    decodeRaw32 r = .ok i := by
  simp [decodeRaw32, ho, hr, hw]
theorem long_row_33 {r : Raw32} {i : Instr} (ho : r.op = 0x67#7) (hr : decodeMajor33 r = some i) (hw : i.wf = true) :
    decodeRaw32 r = .ok i := by
  simp [decodeRaw32, ho, hr, hw]
/-- A scope code of an atomic is never the code of compare-and-swap. -/
theorem amoScope_ne {r : BitVec 2} {s : BitVec 3} (h : amoScope r s = true) : ¬s = 7#3 := by
  revert r s
  decide

/-- A packed-float format below 3 is not the format code of the sum. -/
theorem low_format_ne {t : BitVec 3} (h : t.ult 3#3 = true) : ¬t = 4#3 := by
  revert t
  decide

theorem Coding.bootImage (image : List (BitVec 8)) : Coding.Statement (.bootImage image) := fun _ => trivial
theorem Coding.kick (v : Word) : Coding.Statement (.kick v) := fun _ => trivial
theorem Coding.consumedRegister (v : Word) : Coding.Statement (.consumedRegister v) := fun _ => trivial
theorem Coding.modeChangeComplete (part : Nat) : Coding.Statement (.modeChangeComplete part) := fun _ => trivial
theorem Coding.launchStart (lid : Nat) : Coding.Statement (.launchStart lid) := fun _ => trivial
theorem Coding.cruiseSweep (lid : Nat) : Coding.Statement (.cruiseSweep lid) := fun _ => trivial
theorem Coding.preEmptionDeadline (ctx : Nat) : Coding.Statement (.preEmptionDeadline ctx) := fun _ => trivial
theorem Coding.trapEntry (tid : Nat) : Coding.Statement (.trapEntry tid) := fun _ => trivial
theorem Coding.faultMessage (cmpt : Nat) : Coding.Statement (.faultMessage cmpt) := fun _ => trivial
theorem Coding.systemClassStart (core : Nat) : Coding.Statement (.systemClassStart core) := fun _ => trivial
theorem Coding.threadStart (core : Nat) : Coding.Statement (.threadStart core) := fun _ => trivial
theorem Coding.dispatchIntakeArrival (pkt : Nat) : Coding.Statement (.dispatchIntakeArrival pkt) := fun _ => trivial
theorem Coding.landingMessageArrival (pkt : Nat) : Coding.Statement (.landingMessageArrival pkt) := fun _ => trivial
theorem Coding.migrationDepart (tid : Nat) : Coding.Statement (.migrationDepart tid) := fun _ => trivial
theorem Coding.sendQueueDepart (core : Nat) : Coding.Statement (.sendQueueDepart core) := fun _ => trivial
theorem Coding.pairRecordArrival (pkt : Nat) : Coding.Statement (.pairRecordArrival pkt) := fun _ => trivial
theorem Coding.overflowRingRefill (core : Nat) : Coding.Statement (.overflowRingRefill core) := fun _ => trivial
theorem Coding.pairPrepare (core : Nat) : Coding.Statement (.pairPrepare core) := fun _ => trivial
theorem Coding.stealRequest (core : Nat) : Coding.Statement (.stealRequest core) := fun _ => trivial
theorem Coding.autoRecast (core : Nat) : Coding.Statement (.autoRecast core) := fun _ => trivial
theorem Coding.channelElementMove (core : Nat) (k : Nat) : Coding.Statement (.channelElementMove core k) := fun _ => trivial
theorem Coding.bankRequest (core : Nat) (bank : Nat) : Coding.Statement (.bankRequest core bank) := fun _ => trivial
theorem Coding.homeAccess (req : Nat) : Coding.Statement (.homeAccess req) := fun _ => trivial
theorem Coding.windowAccessService (req : Nat) : Coding.Statement (.windowAccessService req) := fun _ => trivial
theorem Coding.accessReply (acc : Nat) : Coding.Statement (.accessReply acc) := fun _ => trivial
theorem Coding.postedStoreAck (acc : Nat) : Coding.Statement (.postedStoreAck acc) := fun _ => trivial
theorem Coding.postedStoreRefusal (acc : Nat) : Coding.Statement (.postedStoreRefusal acc) := fun _ => trivial
theorem Coding.flitArrival (pkt : Nat) (bad : Nat) : Coding.Statement (.flitArrival pkt bad) := fun _ => trivial
theorem Coding.pageWalkEnd (walk : Nat) : Coding.Statement (.pageWalkEnd walk) := fun _ => trivial
theorem Coding.frameMigrating (old new : Nat) (gen : Nat) : Coding.Statement (.frameMigrating old new gen) := fun _ => trivial
theorem Coding.frameCopyComplete (old : Nat) : Coding.Statement (.frameCopyComplete old) := fun _ => trivial
theorem Coding.forwardingCommit (old : Nat) : Coding.Statement (.forwardingCommit old) := fun _ => trivial
theorem Coding.drainReport (old : Nat) (unit : Nat) : Coding.Statement (.drainReport old unit) := fun _ => trivial
theorem Coding.footprintAccept (cmpt : Nat) : Coding.Statement (.footprintAccept cmpt) := fun _ => trivial
theorem Coding.footprintDispatch (cmpt : Nat) (entry : Nat) : Coding.Statement (.footprintDispatch cmpt entry) := fun _ => trivial
theorem Coding.jobArrival (job : Nat) (n : Nat) : Coding.Statement (.jobArrival job n) := fun _ => trivial
theorem Coding.watermarkReport (job : Nat) : Coding.Statement (.watermarkReport job) := fun _ => trivial
theorem Coding.jobCompletion (job : Nat) : Coding.Statement (.jobCompletion job) := fun _ => trivial
theorem Coding.yarderKillReport (ctx : Nat) (unit : Nat) : Coding.Statement (.yarderKillReport ctx unit) := fun _ => trivial
theorem Coding.millAccept (tile : Nat) : Coding.Statement (.millAccept tile) := fun _ => trivial
theorem Coding.millRowRead (tile : Nat) : Coding.Statement (.millRowRead tile) := fun _ => trivial
theorem Coding.millRetire (tile : Nat) : Coding.Statement (.millRetire tile) := fun _ => trivial
theorem Coding.millPipeFault (tile : Nat) : Coding.Statement (.millPipeFault tile) := fun _ => trivial
theorem Coding.sfuResult (tile : Nat) : Coding.Statement (.sfuResult tile) := fun _ => trivial
theorem Coding.pendingResultWrite (tid : Nat) : Coding.Statement (.pendingResultWrite tid) := fun _ => trivial
theorem Coding.spillWord (tid : Nat) : Coding.Statement (.spillWord tid) := fun _ => trivial
theorem Coding.streamReadAhead (tid : Nat) (j : Nat) : Coding.Statement (.streamReadAhead tid j) := fun _ => trivial
theorem Coding.reductionCombine (pkt : Nat) (other : Nat) : Coding.Statement (.reductionCombine pkt other) := fun _ => trivial
theorem Coding.graderAccept (tile : Nat) : Coding.Statement (.graderAccept tile) := fun _ => trivial
theorem Coding.markJobRun (cmpt : Nat) : Coding.Statement (.markJobRun cmpt) := fun _ => trivial
theorem Coding.droopTrip (cmpt : Nat) (stretch : Nat) : Coding.Statement (.droopTrip cmpt stretch) := fun _ => trivial
theorem Coding.scalerConfig (cmpt : Nat) (scaler : Nat) (v : Word) : Coding.Statement (.scalerConfig cmpt scaler v) := fun _ => trivial
theorem Coding.illegalEncoding (bits : BitVec 32) : Coding.Statement (.illegalEncoding bits) := fun _ => trivial
theorem Coding.pairSlotSend (src dst : Nat) : Coding.Statement (.pairSlotSend src dst) := fun _ => trivial
theorem Coding.elasticFifoDelivery (pkt : Nat) (delay : Nat) : Coding.Statement (.elasticFifoDelivery pkt delay) := fun _ => trivial
theorem Coding.haltDeadline (tid : Nat) : Coding.Statement (.haltDeadline tid) := fun _ => trivial
theorem Coding.intakeSlotWrite (slot : Nat) (words : List Word) : Coding.Statement (.intakeSlotWrite slot words) := fun _ => trivial
theorem Coding.add (d : BitVec 5) (a : BitVec 5) (b : BitVec 5) : Coding.Statement (.add d a b) := fun h => long_row_01 rfl (by simp [decodeMajor01]) h
theorem Coding.sub (d : BitVec 5) (a : BitVec 5) (b : BitVec 5) : Coding.Statement (.sub d a b) := fun h => long_row_01 rfl (by simp [decodeMajor01]) h
theorem Coding.and (d : BitVec 5) (a : BitVec 5) (b : BitVec 5) : Coding.Statement (.and d a b) := fun h => long_row_01 rfl (by simp [decodeMajor01]) h
theorem Coding.or (d : BitVec 5) (a : BitVec 5) (b : BitVec 5) : Coding.Statement (.or d a b) := fun h => long_row_01 rfl (by simp [decodeMajor01]) h
theorem Coding.xor (d : BitVec 5) (a : BitVec 5) (b : BitVec 5) : Coding.Statement (.xor d a b) := fun h => long_row_01 rfl (by simp [decodeMajor01]) h
theorem Coding.andn (d : BitVec 5) (a : BitVec 5) (b : BitVec 5) : Coding.Statement (.andn d a b) := fun h => long_row_01 rfl (by simp [decodeMajor01]) h
theorem Coding.orn (d : BitVec 5) (a : BitVec 5) (b : BitVec 5) : Coding.Statement (.orn d a b) := fun h => long_row_01 rfl (by simp [decodeMajor01]) h
theorem Coding.addi (d : BitVec 5) (a : BitVec 5) (i : BitVec 12) : Coding.Statement (.addi d a i) := fun h => long_row_02 rfl (by simp [decodeMajor02, join_5_7_5_12]) h
theorem Coding.andi (d : BitVec 5) (a : BitVec 5) (i : BitVec 12) : Coding.Statement (.andi d a i) := fun h => long_row_02 rfl (by simp [decodeMajor02, join_5_7_5_12]) h
theorem Coding.ori (d : BitVec 5) (a : BitVec 5) (i : BitVec 12) : Coding.Statement (.ori d a i) := fun h => long_row_02 rfl (by simp [decodeMajor02, join_5_7_5_12]) h
theorem Coding.xori (d : BitVec 5) (a : BitVec 5) (i : BitVec 12) : Coding.Statement (.xori d a i) := fun h => long_row_02 rfl (by simp [decodeMajor02, join_5_7_5_12]) h
theorem Coding.slti (d : BitVec 5) (a : BitVec 5) (i : BitVec 12) : Coding.Statement (.slti d a i) := fun h => long_row_02 rfl (by simp [decodeMajor02, join_5_7_5_12]) h
theorem Coding.sltiN (d : BitVec 5) (a : BitVec 5) (i : BitVec 12) : Coding.Statement (.sltiN d a i) := fun h => long_row_02 rfl (by simp [decodeMajor02, join_5_7_5_12]) h
theorem Coding.shl (d : BitVec 5) (a : BitVec 5) (b : BitVec 5) : Coding.Statement (.shl d a b) := fun h => long_row_03 rfl (by simp [decodeMajor03]) h
theorem Coding.shr (d : BitVec 5) (a : BitVec 5) (b : BitVec 5) : Coding.Statement (.shr d a b) := fun h => long_row_03 rfl (by simp [decodeMajor03]) h
theorem Coding.sar (d : BitVec 5) (a : BitVec 5) (b : BitVec 5) : Coding.Statement (.sar d a b) := fun h => long_row_03 rfl (by simp [decodeMajor03]) h
theorem Coding.rotl (d : BitVec 5) (a : BitVec 5) (b : BitVec 5) : Coding.Statement (.rotl d a b) := fun h => long_row_03 rfl (by simp [decodeMajor03]) h
theorem Coding.rotr (d : BitVec 5) (a : BitVec 5) (b : BitVec 5) : Coding.Statement (.rotr d a b) := fun h => long_row_03 rfl (by simp [decodeMajor03]) h
theorem Coding.clz (d : BitVec 5) (a : BitVec 5) : Coding.Statement (.clz d a) := fun h => long_row_03 rfl (by simp [decodeMajor03]) h
theorem Coding.ctz (d : BitVec 5) (a : BitVec 5) : Coding.Statement (.ctz d a) := fun h => long_row_03 rfl (by simp [decodeMajor03]) h
theorem Coding.popc (d : BitVec 5) (a : BitVec 5) : Coding.Statement (.popc d a) := fun h => long_row_03 rfl (by simp [decodeMajor03]) h
theorem Coding.brev (d : BitVec 5) (a : BitVec 5) : Coding.Statement (.brev d a) := fun h => long_row_03 rfl (by simp [decodeMajor03]) h
theorem Coding.bswap (d : BitVec 5) (a : BitVec 5) : Coding.Statement (.bswap d a) := fun h => long_row_03 rfl (by simp [decodeMajor03]) h
theorem Coding.bfx (d : BitVec 5) (a : BitVec 5) (b : BitVec 5) : Coding.Statement (.bfx d a b) := fun h => long_row_03 rfl (by simp [decodeMajor03]) h
theorem Coding.bfxs (d : BitVec 5) (a : BitVec 5) (b : BitVec 5) : Coding.Statement (.bfxs d a b) := fun h => long_row_03 rfl (by simp [decodeMajor03]) h
theorem Coding.bfi (d : BitVec 5) (a : BitVec 5) (b : BitVec 5) : Coding.Statement (.bfi d a b) := fun h => long_row_03 rfl (by simp [decodeMajor03]) h
theorem Coding.shli (d : BitVec 5) (a : BitVec 5) (s : BitVec 6) : Coding.Statement (.shli d a s) := fun h => long_row_03 rfl (by simp [decodeMajor03, eq_6_1, hi_6_1, lo_6_1, join_5_1_5_6]) h
theorem Coding.shri (d : BitVec 5) (a : BitVec 5) (s : BitVec 6) : Coding.Statement (.shri d a s) := fun h => long_row_03 rfl (by simp [decodeMajor03, eq_6_1, hi_6_1, lo_6_1, join_5_1_5_6]) h
theorem Coding.sari (d : BitVec 5) (a : BitVec 5) (s : BitVec 6) : Coding.Statement (.sari d a s) := fun h => long_row_03 rfl (by simp [decodeMajor03, eq_6_1, hi_6_1, lo_6_1, join_5_1_5_6]) h
theorem Coding.mul (d : BitVec 5) (a : BitVec 5) (b : BitVec 5) : Coding.Statement (.mul d a b) := fun h => long_row_04 rfl (by simp [decodeMajor04]) h
theorem Coding.mulh (d : BitVec 5) (a : BitVec 5) (b : BitVec 5) : Coding.Statement (.mulh d a b) := fun h => long_row_04 rfl (by simp [decodeMajor04]) h
theorem Coding.mulhN (d : BitVec 5) (a : BitVec 5) (b : BitVec 5) : Coding.Statement (.mulhN d a b) := fun h => long_row_04 rfl (by simp [decodeMajor04]) h
theorem Coding.madd (d : BitVec 5) (a : BitVec 5) (b : BitVec 5) (c : BitVec 5) : Coding.Statement (.madd d a b c) := fun h => long_row_04 rfl (by simp [decodeMajor04, eq_2_5, hi_2_5, lo_2_5]) h
theorem Coding.msub (d : BitVec 5) (a : BitVec 5) (b : BitVec 5) (c : BitVec 5) : Coding.Statement (.msub d a b c) := fun h => long_row_04 rfl (by simp [decodeMajor04, eq_2_5, hi_2_5, lo_2_5]) h
theorem Coding.div (d : BitVec 5) (a : BitVec 5) (b : BitVec 5) (w : BitVec 3) : Coding.Statement (.div d a b w) := fun h => long_row_04 rfl (by simp [decodeMajor04, eq_4_3, hi_4_3, lo_4_3]) h
theorem Coding.divN (d : BitVec 5) (a : BitVec 5) (b : BitVec 5) (w : BitVec 3) : Coding.Statement (.divN d a b w) := fun h => long_row_04 rfl (by simp [decodeMajor04, eq_4_3, hi_4_3, lo_4_3]) h
theorem Coding.rem (d : BitVec 5) (a : BitVec 5) (b : BitVec 5) (w : BitVec 3) : Coding.Statement (.rem d a b w) := fun h => long_row_04 rfl (by simp [decodeMajor04, eq_4_3, hi_4_3, lo_4_3]) h
theorem Coding.remN (d : BitVec 5) (a : BitVec 5) (b : BitVec 5) (w : BitVec 3) : Coding.Statement (.remN d a b w) := fun h => long_row_04 rfl (by simp [decodeMajor04, eq_4_3, hi_4_3, lo_4_3]) h
theorem Coding.li (d : BitVec 5) (k : BitVec 16) : Coding.Statement (.li d k) := fun h => long_row_05 rfl (by simp [decodeMajor05, hi_4_1, lo_4_1, join_4_5_4_16, join_9_7_9_16]) h
theorem Coding.liN (d : BitVec 5) (k : BitVec 16) : Coding.Statement (.liN d k) := fun h => long_row_05 rfl (by simp [decodeMajor05, hi_4_1, lo_4_1, join_4_5_4_16, join_9_7_9_16]) h
theorem Coding.lih (d : BitVec 5) (k : BitVec 16) (h : BitVec 2) : Coding.Statement (.lih d k h) := fun h => long_row_05 rfl (by simp [decodeMajor05, hi_4_1, lo_4_1, eq_1_2, hi_1_2, lo_1_2, join_4_5_4_16, join_9_7_9_16]) h
theorem Coding.adr (d : BitVec 5) (o : BitVec 17) : Coding.Statement (.adr d o) := fun h => long_row_06 rfl (by simp [decodeMajor06, join_5_5_5_17, join_10_7_10_17]) h
theorem Coding.min (d : BitVec 5) (a : BitVec 5) (b : BitVec 5) : Coding.Statement (.min d a b) := fun h => long_row_07 rfl (by simp [decodeMajor07]) h
theorem Coding.minN (d : BitVec 5) (a : BitVec 5) (b : BitVec 5) : Coding.Statement (.minN d a b) := fun h => long_row_07 rfl (by simp [decodeMajor07]) h
theorem Coding.max (d : BitVec 5) (a : BitVec 5) (b : BitVec 5) : Coding.Statement (.max d a b) := fun h => long_row_07 rfl (by simp [decodeMajor07]) h
theorem Coding.maxN (d : BitVec 5) (a : BitVec 5) (b : BitVec 5) : Coding.Statement (.maxN d a b) := fun h => long_row_07 rfl (by simp [decodeMajor07]) h
theorem Coding.slt (d : BitVec 5) (a : BitVec 5) (b : BitVec 5) : Coding.Statement (.slt d a b) := fun h => long_row_07 rfl (by simp [decodeMajor07]) h
theorem Coding.sltN (d : BitVec 5) (a : BitVec 5) (b : BitVec 5) : Coding.Statement (.sltN d a b) := fun h => long_row_07 rfl (by simp [decodeMajor07]) h
theorem Coding.seq (d : BitVec 5) (a : BitVec 5) (b : BitVec 5) : Coding.Statement (.seq d a b) := fun h => long_row_07 rfl (by simp [decodeMajor07]) h
theorem Coding.sel (d : BitVec 5) (a : BitVec 5) (b : BitVec 5) (c : BitVec 5) : Coding.Statement (.sel d a b c) := fun h => long_row_07 rfl (by simp [decodeMajor07, eq_2_5, hi_2_5, lo_2_5]) h
theorem Coding.beq (a : BitVec 5) (b : BitVec 5) (o : BitVec 12) : Coding.Statement (.beq a b o) := fun h => long_row_08 rfl (by simp [decodeMajor08, join_5_7_5_12]) h
theorem Coding.bne (a : BitVec 5) (b : BitVec 5) (o : BitVec 12) : Coding.Statement (.bne a b o) := fun h => long_row_08 rfl (by simp [decodeMajor08, join_5_7_5_12]) h
theorem Coding.blt (a : BitVec 5) (b : BitVec 5) (o : BitVec 12) : Coding.Statement (.blt a b o) := fun h => long_row_08 rfl (by simp [decodeMajor08, join_5_7_5_12]) h
theorem Coding.bge (a : BitVec 5) (b : BitVec 5) (o : BitVec 12) : Coding.Statement (.bge a b o) := fun h => long_row_08 rfl (by simp [decodeMajor08, join_5_7_5_12]) h
theorem Coding.bz (a : BitVec 5) (o : BitVec 12) : Coding.Statement (.bz a o) := fun h => long_row_08 rfl (by simp [decodeMajor08, join_5_7_5_12]) h
theorem Coding.bnz (a : BitVec 5) (o : BitVec 12) : Coding.Statement (.bnz a o) := fun h => long_row_08 rfl (by simp [decodeMajor08, join_5_7_5_12]) h
theorem Coding.bltN (a : BitVec 5) (b : BitVec 5) (o : BitVec 12) : Coding.Statement (.bltN a b o) := fun h => long_row_08 rfl (by simp [decodeMajor08, join_5_7_5_12]) h
theorem Coding.bgeN (a : BitVec 5) (b : BitVec 5) (o : BitVec 12) : Coding.Statement (.bgeN a b o) := fun h => long_row_08 rfl (by simp [decodeMajor08, join_5_7_5_12]) h
theorem Coding.j (o : BitVec 17) : Coding.Statement (.j o) := fun h => long_row_09 rfl (by simp [decodeMajor09, join_5_5_5_17, join_10_7_10_17]) h
theorem Coding.jal (d : BitVec 5) (o : BitVec 17) : Coding.Statement (.jal d o) := fun h => long_row_0A rfl (by simp [decodeMajor0A, join_5_5_5_17, join_10_7_10_17]) h
theorem Coding.jr (a : BitVec 5) (i : BitVec 12) : Coding.Statement (.jr a i) := fun h => long_row_0B rfl (by simp [decodeMajor0B, join_5_7_5_12]) h
theorem Coding.jalr (d : BitVec 5) (a : BitVec 5) (i : BitVec 12) : Coding.Statement (.jalr d a i) := fun h => long_row_0B rfl (by simp [decodeMajor0B, join_5_7_5_12]) h
theorem Coding.rep (d : BitVec 5) (i : BitVec 12) : Coding.Statement (.rep d i) := fun h => long_row_0B rfl (by simp [decodeMajor0B, join_5_7_5_12]) h
theorem Coding.ld (d : BitVec 5) (a : BitVec 5) (i : BitVec 12) (w : BitVec 2) : Coding.Statement (.ld d a i w) := fun h => long_row_0C rfl (by simp [decodeMajor0C, eq_1_2, hi_1_2, lo_1_2, join_5_7_5_12]) h
theorem Coding.ldN (d : BitVec 5) (a : BitVec 5) (i : BitVec 12) (w : BitVec 2) : Coding.Statement (.ldN d a i w) := by
  intro h
  have not_overlapped : ¬w = 3#2 := by
    rintro rfl
    exact absurd h (by simp [Instr.wf])
  exact long_row_0C rfl (by simp [decodeMajor0C, not_overlapped, eq_1_2, hi_1_2, lo_1_2, join_5_7_5_12]) h
theorem Coding.ldAcq (d : BitVec 5) (a : BitVec 5) (s : BitVec 3) (w : BitVec 2) (e : BitVec 1) (o : BitVec 6) : Coding.Statement (.ldAcq d a s w e o) := fun h => long_row_0C rfl (by simp [decodeMajor0C, hi_1_1, lo_1_1, hi_2_2, hi_3_4, mid_3_4_2_2, mid_3_4_1_1, mid_3_4_0_1, mid_2_2_1_1, mid_2_2_0_1, join_5_1_5_6]) h
theorem Coding.st (a : BitVec 5) (b : BitVec 5) (i : BitVec 12) (w : BitVec 2) : Coding.Statement (.st a b i w) := fun h => long_row_0D rfl (by simp [decodeMajor0D, hi_1_2, lo_1_2, join_5_7_5_12]) h
theorem Coding.stRel (a : BitVec 5) (b : BitVec 5) (s : BitVec 3) (o : BitVec 9) (w : BitVec 2) : Coding.Statement (.stRel a b s o w) := fun h => long_row_0D rfl (by simp [decodeMajor0D, hi_3_4, lo_3_4, hi_1_2, lo_1_2, join_5_4_5_9]) h
theorem Coding.ldp (d : BitVec 5) (a : BitVec 5) (i : BitVec 12) : Coding.Statement (.ldp d a i) := fun h => long_row_0E rfl (by simp [decodeMajor0E, join_5_7_5_12]) h
theorem Coding.stp (a : BitVec 5) (b : BitVec 5) (i : BitVec 12) : Coding.Statement (.stp a b i) := fun h => long_row_0E rfl (by simp [decodeMajor0E, join_5_7_5_12]) h
theorem Coding.ldm (d : BitVec 5) (a : BitVec 5) (e : BitVec 5) (i : BitVec 7) : Coding.Statement (.ldm d a e i) := fun h => long_row_0F rfl (by simp [decodeMajor0F, hi_5_2, lo_5_2, join_5_2_5_7]) h
theorem Coding.stm (a : BitVec 5) (b : BitVec 5) (e : BitVec 5) (i : BitVec 7) : Coding.Statement (.stm a b e i) := fun h => long_row_0F rfl (by simp [decodeMajor0F, hi_5_2, lo_5_2, join_5_2_5_7]) h
theorem Coding.amoAdd (d : BitVec 5) (a : BitVec 5) (b : BitVec 5) (w : BitVec 1) (r : BitVec 2) (s : BitVec 3) : Coding.Statement (.amoAdd d a b w r s) := by
  intro h
  have not_overlapped : ¬s = 7#3 := amoScope_ne h
  exact long_row_10 rfl (by simp [decodeMajor10, not_overlapped, hi_2_4, lo_2_4, hi_1_6, mid_1_6_4_2, mid_1_6_0_4]) h
theorem Coding.amoAnd (d : BitVec 5) (a : BitVec 5) (b : BitVec 5) (w : BitVec 1) (r : BitVec 2) (s : BitVec 3) : Coding.Statement (.amoAnd d a b w r s) := by
  intro h
  have not_overlapped : ¬s = 7#3 := amoScope_ne h
  exact long_row_10 rfl (by simp [decodeMajor10, not_overlapped, hi_2_4, lo_2_4, hi_1_6, mid_1_6_4_2, mid_1_6_0_4]) h
theorem Coding.amoOr (d : BitVec 5) (a : BitVec 5) (b : BitVec 5) (w : BitVec 1) (r : BitVec 2) (s : BitVec 3) : Coding.Statement (.amoOr d a b w r s) := by
  intro h
  have not_overlapped : ¬s = 7#3 := amoScope_ne h
  exact long_row_10 rfl (by simp [decodeMajor10, not_overlapped, hi_2_4, lo_2_4, hi_1_6, mid_1_6_4_2, mid_1_6_0_4]) h
theorem Coding.amoXor (d : BitVec 5) (a : BitVec 5) (b : BitVec 5) (w : BitVec 1) (r : BitVec 2) (s : BitVec 3) : Coding.Statement (.amoXor d a b w r s) := by
  intro h
  have not_overlapped : ¬s = 7#3 := amoScope_ne h
  exact long_row_10 rfl (by simp [decodeMajor10, not_overlapped, hi_2_4, lo_2_4, hi_1_6, mid_1_6_4_2, mid_1_6_0_4]) h
theorem Coding.amoMin (d : BitVec 5) (a : BitVec 5) (b : BitVec 5) (w : BitVec 1) (r : BitVec 2) (s : BitVec 3) : Coding.Statement (.amoMin d a b w r s) := by
  intro h
  have not_overlapped : ¬s = 7#3 := amoScope_ne h
  exact long_row_10 rfl (by simp [decodeMajor10, not_overlapped, hi_2_4, lo_2_4, hi_1_6, mid_1_6_4_2, mid_1_6_0_4]) h
theorem Coding.amoMax (d : BitVec 5) (a : BitVec 5) (b : BitVec 5) (w : BitVec 1) (r : BitVec 2) (s : BitVec 3) : Coding.Statement (.amoMax d a b w r s) := by
  intro h
  have not_overlapped : ¬s = 7#3 := amoScope_ne h
  exact long_row_10 rfl (by simp [decodeMajor10, not_overlapped, hi_2_4, lo_2_4, hi_1_6, mid_1_6_4_2, mid_1_6_0_4]) h
theorem Coding.amoNMin (d : BitVec 5) (a : BitVec 5) (b : BitVec 5) (w : BitVec 1) (r : BitVec 2) (s : BitVec 3) : Coding.Statement (.amoNMin d a b w r s) := by
  intro h
  have not_overlapped : ¬s = 7#3 := amoScope_ne h
  exact long_row_10 rfl (by simp [decodeMajor10, not_overlapped, hi_2_4, lo_2_4, hi_1_6, mid_1_6_4_2, mid_1_6_0_4]) h
theorem Coding.amoNMax (d : BitVec 5) (a : BitVec 5) (b : BitVec 5) (w : BitVec 1) (r : BitVec 2) (s : BitVec 3) : Coding.Statement (.amoNMax d a b w r s) := by
  intro h
  have not_overlapped : ¬s = 7#3 := amoScope_ne h
  exact long_row_10 rfl (by simp [decodeMajor10, not_overlapped, hi_2_4, lo_2_4, hi_1_6, mid_1_6_4_2, mid_1_6_0_4]) h
theorem Coding.amoXchg (d : BitVec 5) (a : BitVec 5) (b : BitVec 5) (w : BitVec 1) (r : BitVec 2) (s : BitVec 3) : Coding.Statement (.amoXchg d a b w r s) := by
  intro h
  have not_overlapped : ¬s = 7#3 := amoScope_ne h
  exact long_row_10 rfl (by simp [decodeMajor10, not_overlapped, hi_2_4, lo_2_4, hi_1_6, mid_1_6_4_2, mid_1_6_0_4]) h
theorem Coding.cas (d : BitVec 5) (a : BitVec 5) (b : BitVec 5) (c : BitVec 5) (r : BitVec 2) : Coding.Statement (.cas d a b c r) := fun h => long_row_10 rfl (by simp [decodeMajor10, hi_2_5, lo_2_5]) h
theorem Coding.fence (u : BitVec 1) (s : BitVec 3) (k : BitVec 2) : Coding.Statement (.fence u s k) := fun h => long_row_11 rfl (by simp [decodeMajor11, hi_3_2, lo_3_2, hi_1_5, hi_1_6, mid_1_6_5_1, mid_1_6_2_3, mid_1_6_0_2, mid_1_5_2_3, mid_1_5_0_2]) h
theorem Coding.lx (d : BitVec 5) (a : BitVec 5) (e : BitVec 1) (o : BitVec 11) (w : BitVec 2) : Coding.Statement (.lx d a e o w) := fun h => long_row_11 rfl (by simp [decodeMajor11, hi_1_6, lo_1_6, eq_1_2, hi_1_2, lo_1_2, join_5_6_5_11]) h
theorem Coding.sqCfg (q : BitVec 5) (a : BitVec 5) (i : BitVec 12) : Coding.Statement (.sqCfg q a i) := fun h => long_row_12 rfl (by simp [decodeMajor12, join_5_7_5_12]) h
theorem Coding.sqBind (q : BitVec 5) (b : BitVec 5) : Coding.Statement (.sqBind q b) := fun h => long_row_12 rfl (by simp [decodeMajor12]) h
theorem Coding.sqOff (q : BitVec 5) : Coding.Statement (.sqOff q) := fun h => long_row_12 rfl (by simp [decodeMajor12]) h
theorem Coding.sqWait (q : BitVec 5) : Coding.Statement (.sqWait q) := fun h => long_row_12 rfl (by simp [decodeMajor12]) h
theorem Coding.sqStat (d : BitVec 5) (q : BitVec 5) : Coding.Statement (.sqStat d q) := fun h => long_row_12 rfl (by simp [decodeMajor12]) h
theorem Coding.padd (d : BitVec 5) (a : BitVec 5) (b : BitVec 5) (t : BitVec 3) : Coding.Statement (.padd d a b t) := fun h => long_row_14 rfl (by simp [decodeMajor14]) h
theorem Coding.psub (d : BitVec 5) (a : BitVec 5) (b : BitVec 5) (t : BitVec 3) : Coding.Statement (.psub d a b t) := fun h => long_row_14 rfl (by simp [decodeMajor14]) h
theorem Coding.padds (d : BitVec 5) (a : BitVec 5) (b : BitVec 5) (t : BitVec 3) : Coding.Statement (.padds d a b t) := fun h => long_row_14 rfl (by simp [decodeMajor14]) h
theorem Coding.psubs (d : BitVec 5) (a : BitVec 5) (b : BitVec 5) (t : BitVec 3) : Coding.Statement (.psubs d a b t) := fun h => long_row_14 rfl (by simp [decodeMajor14]) h
theorem Coding.pmul (d : BitVec 5) (a : BitVec 5) (b : BitVec 5) (t : BitVec 3) : Coding.Statement (.pmul d a b t) := fun h => long_row_14 rfl (by simp [decodeMajor14]) h
theorem Coding.pmulh (d : BitVec 5) (a : BitVec 5) (b : BitVec 5) (t : BitVec 3) : Coding.Statement (.pmulh d a b t) := fun h => long_row_14 rfl (by simp [decodeMajor14]) h
theorem Coding.pmin (d : BitVec 5) (a : BitVec 5) (b : BitVec 5) (t : BitVec 3) : Coding.Statement (.pmin d a b t) := fun h => long_row_14 rfl (by simp [decodeMajor14]) h
theorem Coding.pmax (d : BitVec 5) (a : BitVec 5) (b : BitVec 5) (t : BitVec 3) : Coding.Statement (.pmax d a b t) := fun h => long_row_14 rfl (by simp [decodeMajor14]) h
theorem Coding.pabs (d : BitVec 5) (a : BitVec 5) (t : BitVec 3) : Coding.Statement (.pabs d a t) := fun h => long_row_14 rfl (by simp [decodeMajor14]) h
theorem Coding.pavg (d : BitVec 5) (a : BitVec 5) (b : BitVec 5) (t : BitVec 3) : Coding.Statement (.pavg d a b t) := fun h => long_row_14 rfl (by simp [decodeMajor14]) h
theorem Coding.pcmpEq (d : BitVec 5) (a : BitVec 5) (b : BitVec 5) (t : BitVec 3) : Coding.Statement (.pcmpEq d a b t) := fun h => long_row_14 rfl (by simp [decodeMajor14]) h
theorem Coding.pcmpLt (d : BitVec 5) (a : BitVec 5) (b : BitVec 5) (t : BitVec 3) : Coding.Statement (.pcmpLt d a b t) := fun h => long_row_14 rfl (by simp [decodeMajor14]) h
theorem Coding.pcmpLe (d : BitVec 5) (a : BitVec 5) (b : BitVec 5) (t : BitVec 3) : Coding.Statement (.pcmpLe d a b t) := fun h => long_row_14 rfl (by simp [decodeMajor14]) h
theorem Coding.pdot (d : BitVec 5) (a : BitVec 5) (b : BitVec 5) (t : BitVec 3) : Coding.Statement (.pdot d a b t) := fun h => long_row_15 rfl (by simp [decodeMajor15, hi_4_3, lo_4_3]) h
theorem Coding.pshf (d : BitVec 5) (a : BitVec 5) (b : BitVec 5) : Coding.Statement (.pshf d a b) := fun h => long_row_15 rfl (by simp [decodeMajor15]) h
theorem Coding.ppk (d : BitVec 5) (a : BitVec 5) (b : BitVec 5) (t : BitVec 3) : Coding.Statement (.ppk d a b t) := fun h => long_row_15 rfl (by simp [decodeMajor15, eq_4_3, hi_4_3, lo_4_3]) h
theorem Coding.pup (d : BitVec 5) (a : BitVec 5) (h : BitVec 1) (t : BitVec 3) : Coding.Statement (.pup d a h t) := fun h => long_row_15 rfl (by simp [decodeMajor15, eq_1_3, hi_1_3, lo_1_3, eq_3_4, hi_3_4, mid_3_4_3_1, mid_3_4_0_3]) h
theorem Coding.pbc (d : BitVec 5) (a : BitVec 5) (b : BitVec 5) (t : BitVec 3) : Coding.Statement (.pbc d a b t) := fun h => long_row_15 rfl (by simp [decodeMajor15, eq_4_3, hi_4_3, lo_4_3]) h
theorem Coding.psel (d : BitVec 5) (a : BitVec 5) (b : BitVec 5) (c : BitVec 5) : Coding.Statement (.psel d a b c) := fun h => long_row_15 rfl (by simp [decodeMajor15, eq_2_5, hi_2_5, lo_2_5]) h
theorem Coding.fli (d : BitVec 5) (k : BitVec 16) (l : BitVec 1) (f : BitVec 3) : Coding.Statement (.fli d k l f) := fun h => long_row_16 rfl (by simp [decodeMajor16, hi_4_1, lo_4_1, join_4_5_4_16, join_9_7_9_16]) h
theorem Coding.fadd (d : BitVec 5) (a : BitVec 5) (b : BitVec 5) (m : BitVec 3) (t : BitVec 3) : Coding.Statement (.fadd d a b m t) := by
  intro h
  have not_overlapped : ¬t = 4#3 := low_format_ne (Bool.and_eq_true _ _ ▸ h).1
  exact long_row_17 rfl (by simp [decodeMajor17, not_overlapped, eq_4_3, hi_4_3, lo_4_3]) h
theorem Coding.fsub (d : BitVec 5) (a : BitVec 5) (b : BitVec 5) (m : BitVec 3) (t : BitVec 3) : Coding.Statement (.fsub d a b m t) := by
  intro h
  have not_overlapped : ¬t = 4#3 := low_format_ne (Bool.and_eq_true _ _ ▸ h).1
  exact long_row_17 rfl (by simp [decodeMajor17, not_overlapped, eq_4_3, hi_4_3, lo_4_3]) h
theorem Coding.fmul (d : BitVec 5) (a : BitVec 5) (b : BitVec 5) (m : BitVec 3) (t : BitVec 3) : Coding.Statement (.fmul d a b m t) := by
  intro h
  have not_overlapped : ¬t = 4#3 := low_format_ne (Bool.and_eq_true _ _ ▸ h).1
  exact long_row_17 rfl (by simp [decodeMajor17, not_overlapped, eq_4_3, hi_4_3, lo_4_3]) h
theorem Coding.fmin (d : BitVec 5) (a : BitVec 5) (b : BitVec 5) (t : BitVec 3) : Coding.Statement (.fmin d a b t) := by
  intro h
  have not_overlapped : ¬t = 4#3 := low_format_ne h
  exact long_row_17 rfl (by simp [decodeMajor17, not_overlapped]) h
theorem Coding.fmax (d : BitVec 5) (a : BitVec 5) (b : BitVec 5) (t : BitVec 3) : Coding.Statement (.fmax d a b t) := by
  intro h
  have not_overlapped : ¬t = 4#3 := low_format_ne h
  exact long_row_17 rfl (by simp [decodeMajor17, not_overlapped]) h
theorem Coding.fneg (d : BitVec 5) (a : BitVec 5) (t : BitVec 3) : Coding.Statement (.fneg d a t) := by
  intro h
  have not_overlapped : ¬t = 4#3 := low_format_ne h
  exact long_row_17 rfl (by simp [decodeMajor17, not_overlapped]) h
theorem Coding.fabs (d : BitVec 5) (a : BitVec 5) (t : BitVec 3) : Coding.Statement (.fabs d a t) := by
  intro h
  have not_overlapped : ¬t = 4#3 := low_format_ne h
  exact long_row_17 rfl (by simp [decodeMajor17, not_overlapped]) h
theorem Coding.fcmpEq (d : BitVec 5) (a : BitVec 5) (b : BitVec 5) (t : BitVec 3) : Coding.Statement (.fcmpEq d a b t) := by
  intro h
  have not_overlapped : ¬t = 4#3 := low_format_ne h
  exact long_row_17 rfl (by simp [decodeMajor17, not_overlapped]) h
theorem Coding.fcmpLt (d : BitVec 5) (a : BitVec 5) (b : BitVec 5) (t : BitVec 3) : Coding.Statement (.fcmpLt d a b t) := by
  intro h
  have not_overlapped : ¬t = 4#3 := low_format_ne h
  exact long_row_17 rfl (by simp [decodeMajor17, not_overlapped]) h
theorem Coding.fcmpLe (d : BitVec 5) (a : BitVec 5) (b : BitVec 5) (t : BitVec 3) : Coding.Statement (.fcmpLe d a b t) := by
  intro h
  have not_overlapped : ¬t = 4#3 := low_format_ne h
  exact long_row_17 rfl (by simp [decodeMajor17, not_overlapped]) h
theorem Coding.fsum (d : BitVec 5) (a : BitVec 5) (b : BitVec 5) (f : BitVec 4) (w : BitVec 3) : Coding.Statement (.fsum d a b f w) := fun h => long_row_17 rfl (by simp [decodeMajor17, hi_4_3, lo_4_3]) h
theorem Coding.fma (d : BitVec 5) (a : BitVec 5) (b : BitVec 5) (c : BitVec 5) (t : BitVec 3) : Coding.Statement (.fma d a b c t) := fun h => long_row_18 rfl (by simp [decodeMajor18, hi_2_5, lo_2_5]) h
theorem Coding.fms (d : BitVec 5) (a : BitVec 5) (b : BitVec 5) (c : BitVec 5) (t : BitVec 3) : Coding.Statement (.fms d a b c t) := fun h => long_row_18 rfl (by simp [decodeMajor18, hi_2_5, lo_2_5]) h
theorem Coding.fcvt (d : BitVec 5) (a : BitVec 5) (g : BitVec 3) (m : BitVec 3) (s : BitVec 3) : Coding.Statement (.fcvt d a g m s) := fun h => long_row_19 rfl (by simp [decodeMajor19, hi_1_3, lo_1_3, hi_3_4, mid_3_4_3_1, mid_3_4_0_3, hi_2_3, lo_2_3]) h
theorem Coding.icvt (d : BitVec 5) (a : BitVec 5) (r : BitVec 1) (f : BitVec 3) (m : BitVec 3) (t : BitVec 3) : Coding.Statement (.icvt d a r f m t) := fun h => long_row_19 rfl (by simp [decodeMajor19, hi_3_3, lo_3_3, hi_1_6, mid_1_6_3_3, mid_1_6_0_3, hi_2_3, lo_2_3]) h
theorem Coding.fcls (d : BitVec 5) (a : BitVec 5) (f : BitVec 3) : Coding.Statement (.fcls d a f) := fun h => long_row_19 rfl (by simp [decodeMajor19, hi_4_3, lo_4_3]) h
theorem Coding.okey (d : BitVec 5) (a : BitVec 5) (b : BitVec 5) (v : BitVec 1) (t : BitVec 4) : Coding.Statement (.okey d a b v t) := fun h => long_row_19 rfl (by simp [decodeMajor19, hi_1_4, lo_1_4, hi_2_5, mid_2_5_4_1, mid_2_5_0_4]) h
theorem Coding.dl2 (d : BitVec 5) (a : BitVec 5) (b : BitVec 5) (t : BitVec 1) : Coding.Statement (.dl2 d a b t) := fun h => long_row_1A rfl (by simp [decodeMajor1A, hi_6_1, lo_6_1]) h
theorem Coding.dip (d : BitVec 5) (a : BitVec 5) (b : BitVec 5) (t : BitVec 1) : Coding.Statement (.dip d a b t) := fun h => long_row_1A rfl (by simp [decodeMajor1A, hi_6_1, lo_6_1]) h
theorem Coding.dipE4m3 (d : BitVec 5) (a : BitVec 5) (b : BitVec 5) : Coding.Statement (.dipE4m3 d a b) := fun h => long_row_1A rfl (by simp [decodeMajor1A]) h
theorem Coding.dham (d : BitVec 5) (a : BitVec 5) (b : BitVec 5) : Coding.Statement (.dham d a b) := fun h => long_row_1A rfl (by simp [decodeMajor1A]) h
theorem Coding.dcb (d : BitVec 5) (a : BitVec 5) (b : BitVec 5) (t : BitVec 1) : Coding.Statement (.dcb d a b t) := fun h => long_row_1A rfl (by simp [decodeMajor1A, eq_6_1, hi_6_1, lo_6_1]) h
theorem Coding.sfuRcp (d : BitVec 5) (a : BitVec 5) (w : BitVec 3) (p : BitVec 1) (t : BitVec 2) : Coding.Statement (.sfuRcp d a w p t) := fun h => long_row_1B rfl (by simp [decodeMajor1B, hi_4_3, lo_4_3, hi_1_2, lo_1_2]) h
theorem Coding.sfuRsqrt (d : BitVec 5) (a : BitVec 5) (w : BitVec 3) (p : BitVec 1) (t : BitVec 2) : Coding.Statement (.sfuRsqrt d a w p t) := fun h => long_row_1B rfl (by simp [decodeMajor1B, hi_4_3, lo_4_3, hi_1_2, lo_1_2]) h
theorem Coding.sfuSqrt (d : BitVec 5) (a : BitVec 5) (w : BitVec 3) (p : BitVec 1) (t : BitVec 2) : Coding.Statement (.sfuSqrt d a w p t) := fun h => long_row_1B rfl (by simp [decodeMajor1B, hi_4_3, lo_4_3, hi_1_2, lo_1_2]) h
theorem Coding.sfuExp2 (d : BitVec 5) (a : BitVec 5) (w : BitVec 3) (p : BitVec 1) (t : BitVec 2) : Coding.Statement (.sfuExp2 d a w p t) := fun h => long_row_1B rfl (by simp [decodeMajor1B, hi_4_3, lo_4_3, hi_1_2, lo_1_2]) h
theorem Coding.sfuLog2 (d : BitVec 5) (a : BitVec 5) (w : BitVec 3) (p : BitVec 1) (t : BitVec 2) : Coding.Statement (.sfuLog2 d a w p t) := fun h => long_row_1B rfl (by simp [decodeMajor1B, hi_4_3, lo_4_3, hi_1_2, lo_1_2]) h
theorem Coding.sfuExp (d : BitVec 5) (a : BitVec 5) (w : BitVec 3) (p : BitVec 1) (t : BitVec 2) : Coding.Statement (.sfuExp d a w p t) := fun h => long_row_1B rfl (by simp [decodeMajor1B, hi_4_3, lo_4_3, hi_1_2, lo_1_2]) h
theorem Coding.sfuLn (d : BitVec 5) (a : BitVec 5) (w : BitVec 3) (p : BitVec 1) (t : BitVec 2) : Coding.Statement (.sfuLn d a w p t) := fun h => long_row_1B rfl (by simp [decodeMajor1B, hi_4_3, lo_4_3, hi_1_2, lo_1_2]) h
theorem Coding.sfuSinpi (d : BitVec 5) (a : BitVec 5) (w : BitVec 3) (p : BitVec 1) (t : BitVec 2) : Coding.Statement (.sfuSinpi d a w p t) := fun h => long_row_1B rfl (by simp [decodeMajor1B, hi_4_3, lo_4_3, hi_1_2, lo_1_2]) h
theorem Coding.sfuCospi (d : BitVec 5) (a : BitVec 5) (w : BitVec 3) (p : BitVec 1) (t : BitVec 2) : Coding.Statement (.sfuCospi d a w p t) := fun h => long_row_1B rfl (by simp [decodeMajor1B, hi_4_3, lo_4_3, hi_1_2, lo_1_2]) h
theorem Coding.sfuTanh (d : BitVec 5) (a : BitVec 5) (w : BitVec 3) (p : BitVec 1) (t : BitVec 2) : Coding.Statement (.sfuTanh d a w p t) := fun h => long_row_1B rfl (by simp [decodeMajor1B, hi_4_3, lo_4_3, hi_1_2, lo_1_2]) h
theorem Coding.sfuSigm (d : BitVec 5) (a : BitVec 5) (w : BitVec 3) (p : BitVec 1) (t : BitVec 2) : Coding.Statement (.sfuSigm d a w p t) := fun h => long_row_1B rfl (by simp [decodeMajor1B, hi_4_3, lo_4_3, hi_1_2, lo_1_2]) h
theorem Coding.mma (a : BitVec 5) (b : BitVec 5) (c : BitVec 5) (t : BitVec 4) (w : BitVec 3) : Coding.Statement (.mma a b c t w) := fun h => long_row_1C rfl (by simp [decodeMajor1C, hi_4_3, lo_4_3]) h
theorem Coding.mmas (a : BitVec 5) (b : BitVec 5) (c : BitVec 5) (t : BitVec 4) (w : BitVec 3) : Coding.Statement (.mmas a b c t w) := fun h => long_row_1C rfl (by simp [decodeMajor1C, hi_4_3, lo_4_3]) h
theorem Coding.mmcb (a : BitVec 5) (b : BitVec 5) (c : BitVec 5) (p : BitVec 2) (w : BitVec 3) : Coding.Statement (.mmcb a b c p w) := fun h => long_row_1C rfl (by simp [decodeMajor1C, hi_2_3, lo_2_3, hi_2_5, mid_2_5_3_2, mid_2_5_0_3]) h
theorem Coding.mmr (a : BitVec 5) (b : BitVec 5) (c : BitVec 5) (t : BitVec 4) (w : BitVec 3) : Coding.Statement (.mmr a b c t w) := fun h => long_row_1C rfl (by simp [decodeMajor1C, hi_4_3, lo_4_3]) h
theorem Coding.mld (a : BitVec 5) (b : BitVec 5) (c : BitVec 5) (f : BitVec 1) (w : BitVec 3) : Coding.Statement (.mld a b c f w) := fun h => long_row_1D rfl (by simp [decodeMajor1D, hi_1_3, lo_1_3, hi_3_4, mid_3_4_3_1, mid_3_4_0_3]) h
theorem Coding.mst (a : BitVec 5) (b : BitVec 5) (c : BitVec 5) (f : BitVec 1) (w : BitVec 3) : Coding.Statement (.mst a b c f w) := fun h => long_row_1D rfl (by simp [decodeMajor1D, hi_1_3, lo_1_3, hi_3_4, mid_3_4_3_1, mid_3_4_0_3]) h
theorem Coding.mzero (c : BitVec 5) (n : BitVec 4) (w : BitVec 3) : Coding.Statement (.mzero c n w) := fun h => long_row_1D rfl (by simp [decodeMajor1D, hi_4_3, lo_4_3]) h
theorem Coding.manc (a : BitVec 5) (c : BitVec 5) (n : BitVec 4) (w : BitVec 3) : Coding.Statement (.manc a c n w) := fun h => long_row_1D rfl (by simp [decodeMajor1D, hi_4_3, lo_4_3]) h
theorem Coding.mscl (a : BitVec 5) (c : BitVec 5) (n : BitVec 4) (w : BitVec 3) : Coding.Statement (.mscl a c n w) := fun h => long_row_1D rfl (by simp [decodeMajor1D, hi_4_3, lo_4_3]) h
theorem Coding.mcbt (a : BitVec 5) (w : BitVec 3) (t : BitVec 5) : Coding.Statement (.mcbt a w t) := fun h => long_row_1D rfl (by simp [decodeMajor1D, hi_4_3, lo_4_3]) h
theorem Coding.mfin (a : BitVec 5) (b : BitVec 5) (c : BitVec 5) (f : BitVec 4) (w : BitVec 3) : Coding.Statement (.mfin a b c f w) := fun h => long_row_1D rfl (by simp [decodeMajor1D, hi_4_3, lo_4_3]) h
theorem Coding.mseq (d : BitVec 5) (w : BitVec 3) : Coding.Statement (.mseq d w) := fun h => long_row_1E rfl (by simp [decodeMajor1E, hi_4_3, lo_4_3]) h
theorem Coding.mwait (a : BitVec 5) (w : BitVec 3) : Coding.Statement (.mwait a w) := fun h => long_row_1E rfl (by simp [decodeMajor1E, hi_4_3, lo_4_3]) h
theorem Coding.mwaitAll (w : BitVec 3) : Coding.Statement (.mwaitAll w) := fun h => long_row_1E rfl (by simp [decodeMajor1E, hi_4_3, lo_4_3]) h
theorem Coding.mprogRd (d : BitVec 5) (w : BitVec 3) : Coding.Statement (.mprogRd d w) := fun h => long_row_1E rfl (by simp [decodeMajor1E, hi_4_3, lo_4_3]) h
theorem Coding.mprogGo (w : BitVec 3) : Coding.Statement (.mprogGo w) := fun h => long_row_1E rfl (by simp [decodeMajor1E, hi_4_3, lo_4_3]) h
theorem Coding.mprogCancel (w : BitVec 3) : Coding.Statement (.mprogCancel w) := fun h => long_row_1E rfl (by simp [decodeMajor1E, hi_4_3, lo_4_3]) h
theorem Coding.rnsf (d : BitVec 5) (a : BitVec 5) (w : BitVec 3) : Coding.Statement (.rnsf d a w) := fun h => long_row_1F rfl (by simp [decodeMajor1F, hi_4_3, lo_4_3]) h
theorem Coding.rnsr (d : BitVec 5) (a : BitVec 5) (w : BitVec 3) : Coding.Statement (.rnsr d a w) := fun h => long_row_1F rfl (by simp [decodeMajor1F, hi_4_3, lo_4_3]) h
theorem Coding.rnsadd (d : BitVec 5) (a : BitVec 5) (b : BitVec 5) (w : BitVec 3) : Coding.Statement (.rnsadd d a b w) := fun h => long_row_1F rfl (by simp [decodeMajor1F, hi_4_3, lo_4_3]) h
theorem Coding.rnsaddSub (d : BitVec 5) (a : BitVec 5) (b : BitVec 5) (w : BitVec 3) : Coding.Statement (.rnsaddSub d a b w) := fun h => long_row_1F rfl (by simp [decodeMajor1F, hi_4_3, lo_4_3]) h
theorem Coding.rnsmul (d : BitVec 5) (a : BitVec 5) (b : BitVec 5) (w : BitVec 3) : Coding.Statement (.rnsmul d a b w) := fun h => long_row_1F rfl (by simp [decodeMajor1F, hi_4_3, lo_4_3]) h
theorem Coding.rnschk (d : BitVec 5) (a : BitVec 5) (w : BitVec 3) : Coding.Statement (.rnschk d a w) := fun h => long_row_1F rfl (by simp [decodeMajor1F, hi_4_3, lo_4_3]) h
theorem Coding.rnsmap (d : BitVec 5) (a : BitVec 5) (b : BitVec 5) (w : BitVec 3) : Coding.Statement (.rnsmap d a b w) := fun h => long_row_1F rfl (by simp [decodeMajor1F, hi_4_3, lo_4_3]) h
theorem Coding.send (d : BitVec 5) (a : BitVec 5) (b : BitVec 5) : Coding.Statement (.send d a b) := fun h => long_row_20 rfl (by simp [decodeMajor20]) h
theorem Coding.sendm (d : BitVec 5) (a : BitVec 5) (b : BitVec 5) (c : BitVec 5) : Coding.Statement (.sendm d a b c) := fun h => long_row_20 rfl (by simp [decodeMajor20, eq_2_5, hi_2_5, lo_2_5]) h
theorem Coding.lndGet (d : BitVec 5) (a : BitVec 5) (w : BitVec 1) (p : BitVec 4) : Coding.Statement (.lndGet d a w p) := fun h => long_row_21 rfl (by simp [decodeMajor21, hi_1_4, lo_1_4, hi_2_5, mid_2_5_4_1, mid_2_5_0_4]) h
theorem Coding.lndPeek (d : BitVec 5) (a : BitVec 5) (w : BitVec 1) (p : BitVec 4) : Coding.Statement (.lndPeek d a w p) := fun h => long_row_21 rfl (by simp [decodeMajor21, hi_1_4, lo_1_4, hi_2_5, mid_2_5_4_1, mid_2_5_0_4]) h
theorem Coding.lndCnt (d : BitVec 5) : Coding.Statement (.lndCnt d) := fun h => long_row_21 rfl (by simp [decodeMajor21]) h
theorem Coding.waitSeq (d : BitVec 5) (a : BitVec 5) (b : BitVec 5) : Coding.Statement (.waitSeq d a b) := fun h => long_row_21 rfl (by simp [decodeMajor21]) h
theorem Coding.mig (d : BitVec 5) (a : BitVec 5) : Coding.Statement (.mig d a) := fun h => long_row_22 rfl (by simp [decodeMajor22]) h
theorem Coding.spawn (d : BitVec 5) (a : BitVec 5) : Coding.Statement (.spawn d a) := fun h => long_row_22 rfl (by simp [decodeMajor22]) h
theorem Coding.yield (d : BitVec 5) (a : BitVec 5) : Coding.Statement (.yield d a) := fun h => long_row_22 rfl (by simp [decodeMajor22]) h
theorem Coding.crewNew (a : BitVec 5) : Coding.Statement (.crewNew a) := fun h => long_row_23 rfl (by simp [decodeMajor23]) h
theorem Coding.crewJoin (a : BitVec 5) : Coding.Statement (.crewJoin a) := fun h => long_row_23 rfl (by simp [decodeMajor23]) h
theorem Coding.crewLeave (a : BitVec 5) : Coding.Statement (.crewLeave a) := fun h => long_row_23 rfl (by simp [decodeMajor23]) h
theorem Coding.crewDel (a : BitVec 5) : Coding.Statement (.crewDel a) := fun h => long_row_23 rfl (by simp [decodeMajor23]) h
theorem Coding.barInit (a : BitVec 5) (b : BitVec 5) : Coding.Statement (.barInit a b) := fun h => long_row_23 rfl (by simp [decodeMajor23]) h
theorem Coding.barArrive (d : BitVec 5) (a : BitVec 5) : Coding.Statement (.barArrive d a) := fun h => long_row_23 rfl (by simp [decodeMajor23]) h
theorem Coding.barDrop (d : BitVec 5) (a : BitVec 5) : Coding.Statement (.barDrop d a) := fun h => long_row_23 rfl (by simp [decodeMajor23]) h
theorem Coding.barWait (a : BitVec 5) (b : BitVec 5) : Coding.Statement (.barWait a b) := fun h => long_row_23 rfl (by simp [decodeMajor23]) h
theorem Coding.semPost (d : BitVec 5) (a : BitVec 5) (b : BitVec 5) : Coding.Statement (.semPost d a b) := fun h => long_row_24 rfl (by simp [decodeMajor24]) h
theorem Coding.semWait (d : BitVec 5) (a : BitVec 5) : Coding.Statement (.semWait d a) := fun h => long_row_24 rfl (by simp [decodeMajor24]) h
theorem Coding.chanPut (a : BitVec 5) (k : BitVec 5) : Coding.Statement (.chanPut a k) := fun h => long_row_24 rfl (by simp [decodeMajor24]) h
theorem Coding.chanGet (d : BitVec 5) (k : BitVec 5) : Coding.Statement (.chanGet d k) := fun h => long_row_24 rfl (by simp [decodeMajor24]) h
theorem Coding.recast (d : BitVec 5) (a : BitVec 5) (b : BitVec 5) : Coding.Statement (.recast d a b) := fun h => long_row_24 rfl (by simp [decodeMajor24]) h
theorem Coding.nalloc (d : BitVec 5) : Coding.Statement (.nalloc d) := fun h => long_row_25 rfl (by simp [decodeMajor25]) h
theorem Coding.nfree (a : BitVec 5) : Coding.Statement (.nfree a) := fun h => long_row_25 rfl (by simp [decodeMajor25]) h
theorem Coding.link (d : BitVec 5) (a : BitVec 5) (b : BitVec 5) : Coding.Statement (.link d a b) := fun h => long_row_25 rfl (by simp [decodeMajor25]) h
theorem Coding.pair (a : BitVec 5) (b : BitVec 5) : Coding.Statement (.pair a b) := fun h => long_row_25 rfl (by simp [decodeMajor25]) h
theorem Coding.nread (d : BitVec 5) (a : BitVec 5) : Coding.Statement (.nread d a) := fun h => long_row_26 rfl (by simp [decodeMajor26]) h
theorem Coding.nhdr (d : BitVec 5) (a : BitVec 5) (b : BitVec 5) : Coding.Statement (.nhdr d a b) := fun h => long_row_26 rfl (by simp [decodeMajor26]) h
theorem Coding.prefInc (d : BitVec 5) (a : BitVec 5) : Coding.Statement (.prefInc d a) := fun h => long_row_26 rfl (by simp [decodeMajor26]) h
theorem Coding.prefDec (d : BitVec 5) (a : BitVec 5) : Coding.Statement (.prefDec d a) := fun h => long_row_26 rfl (by simp [decodeMajor26]) h
theorem Coding.yrdCopy (d : BitVec 5) (a : BitVec 5) : Coding.Statement (.yrdCopy d a) := fun h => long_row_28 rfl (by simp [decodeMajor28]) h
theorem Coding.yrdGath (d : BitVec 5) (a : BitVec 5) : Coding.Statement (.yrdGath d a) := fun h => long_row_28 rfl (by simp [decodeMajor28]) h
theorem Coding.yrdScat (d : BitVec 5) (a : BitVec 5) : Coding.Statement (.yrdScat d a) := fun h => long_row_28 rfl (by simp [decodeMajor28]) h
theorem Coding.yrdFill (d : BitVec 5) (a : BitVec 5) : Coding.Statement (.yrdFill d a) := fun h => long_row_28 rfl (by simp [decodeMajor28]) h
theorem Coding.yrdFar (d : BitVec 5) (a : BitVec 5) : Coding.Statement (.yrdFar d a) := fun h => long_row_28 rfl (by simp [decodeMajor28]) h
theorem Coding.yrdChan (d : BitVec 5) (a : BitVec 5) (b : BitVec 5) : Coding.Statement (.yrdChan d a b) := fun h => long_row_28 rfl (by simp [decodeMajor28]) h
theorem Coding.yrdWm (d : BitVec 5) (a : BitVec 5) : Coding.Statement (.yrdWm d a) := fun h => long_row_28 rfl (by simp [decodeMajor28]) h
theorem Coding.yrdStop (d : BitVec 5) (a : BitVec 5) : Coding.Statement (.yrdStop d a) := fun h => long_row_28 rfl (by simp [decodeMajor28]) h
theorem Coding.grdCfg (a : BitVec 5) (b : BitVec 5) : Coding.Statement (.grdCfg a b) := fun h => long_row_29 rfl (by simp [decodeMajor29]) h
theorem Coding.grdIn (a : BitVec 5) (b : BitVec 5) : Coding.Statement (.grdIn a b) := fun h => long_row_29 rfl (by simp [decodeMajor29]) h
theorem Coding.grdOutKeep (d : BitVec 5) (a : BitVec 5) (b : BitVec 5) : Coding.Statement (.grdOutKeep d a b) := fun h => long_row_29 rfl (by simp [decodeMajor29]) h
theorem Coding.grdOutFin (d : BitVec 5) (a : BitVec 5) (b : BitVec 5) : Coding.Statement (.grdOutFin d a b) := fun h => long_row_29 rfl (by simp [decodeMajor29]) h
theorem Coding.mark (d : BitVec 5) (a : BitVec 5) : Coding.Statement (.mark d a) := fun h => long_row_2A rfl (by simp [decodeMajor2A]) h
theorem Coding.markSt (d : BitVec 5) : Coding.Statement (.markSt d) := fun h => long_row_2A rfl (by simp [decodeMajor2A]) h
theorem Coding.smpInj (a : BitVec 5) (b : BitVec 5) : Coding.Statement (.smpInj a b) := fun h => long_row_2B rfl (by simp [decodeMajor2B]) h
theorem Coding.smpResW (d : BitVec 5) (a : BitVec 5) : Coding.Statement (.smpResW d a) := fun h => long_row_2B rfl (by simp [decodeMajor2B]) h
theorem Coding.smpResNw (d : BitVec 5) (a : BitVec 5) : Coding.Statement (.smpResNw d a) := fun h => long_row_2B rfl (by simp [decodeMajor2B]) h
theorem Coding.smpResCfg (d : BitVec 5) (a : BitVec 5) (b : BitVec 5) : Coding.Statement (.smpResCfg d a b) := fun h => long_row_2B rfl (by simp [decodeMajor2B]) h
theorem Coding.gnz (d : BitVec 5) (a : BitVec 5) (b : BitVec 5) (e : BitVec 1) (g : BitVec 1) : Coding.Statement (.gnz d a b e g) := fun h => long_row_2B rfl (by simp [decodeMajor2B, eq_1_1, hi_1_1, lo_1_1, eq_5_2, hi_5_2, mid_5_2_1_1, mid_5_2_0_1]) h
theorem Coding.rng (d : BitVec 5) (a : BitVec 5) (b : BitVec 5) : Coding.Statement (.rng d a b) := fun h => long_row_2B rfl (by simp [decodeMajor2B]) h
theorem Coding.trap (a : BitVec 5) : Coding.Statement (.trap a) := fun h => long_row_30 rfl (by simp [decodeMajor30]) h
theorem Coding.sysc (a : BitVec 5) : Coding.Statement (.sysc a) := fun h => long_row_30 rfl (by simp [decodeMajor30]) h
theorem Coding.srd (d : BitVec 5) (r : BitVec 7) : Coding.Statement (.srd d r) := fun h => long_row_31 rfl (by simp [decodeMajor31]) h
theorem Coding.swr (d : BitVec 5) (a : BitVec 5) (r : BitVec 7) : Coding.Statement (.swr d a r) := fun h => long_row_31 rfl (by simp [decodeMajor31]) h
theorem Coding.tkill (d : BitVec 5) (a : BitVec 5) : Coding.Statement (.tkill d a) := fun h => long_row_32 rfl (by simp [decodeMajor32]) h
theorem Coding.tscrub (d : BitVec 5) (a : BitVec 5) : Coding.Statement (.tscrub d a) := fun h => long_row_32 rfl (by simp [decodeMajor32]) h
theorem Coding.winMap (d : BitVec 5) (a : BitVec 5) : Coding.Statement (.winMap d a) := fun h => long_row_32 rfl (by simp [decodeMajor32]) h
theorem Coding.winRd (d : BitVec 5) (a : BitVec 5) : Coding.Statement (.winRd d a) := fun h => long_row_32 rfl (by simp [decodeMajor32]) h
theorem Coding.winWr (d : BitVec 5) (a : BitVec 5) (b : BitVec 5) : Coding.Statement (.winWr d a b) := fun h => long_row_32 rfl (by simp [decodeMajor32]) h
theorem Coding.eccInj (a : BitVec 5) (b : BitVec 5) : Coding.Statement (.eccInj a b) := fun h => long_row_32 rfl (by simp [decodeMajor32]) h
theorem Coding.tlbInv (a : BitVec 5) (b : BitVec 5) : Coding.Statement (.tlbInv a b) := fun h => long_row_32 rfl (by simp [decodeMajor32]) h
theorem Coding.halt (d : BitVec 5) (a : BitVec 5) (b : BitVec 5) : Coding.Statement (.halt d a b) := fun h => long_row_32 rfl (by simp [decodeMajor32]) h
theorem Coding.cyc (d : BitVec 5) : Coding.Statement (.cyc d) := fun h => long_row_33 rfl (by simp [decodeMajor33]) h
theorem Coding.tsc (d : BitVec 5) : Coding.Statement (.tsc d) := fun h => long_row_33 rfl (by simp [decodeMajor33]) h
theorem Coding.c16Add (d : BitVec 5) (b : BitVec 5) : Coding.Statement (.c16Add d b) := fun h => short_row (by simp) (by simp [rowRaw16]) h
theorem Coding.c16Sub (d : BitVec 5) (b : BitVec 5) : Coding.Statement (.c16Sub d b) := fun h => short_row (by simp) (by simp [rowRaw16]) h
theorem Coding.c16And (d : BitVec 5) (b : BitVec 5) : Coding.Statement (.c16And d b) := fun h => short_row (by simp) (by simp [rowRaw16]) h
theorem Coding.c16Or (d : BitVec 5) (b : BitVec 5) : Coding.Statement (.c16Or d b) := fun h => short_row (by simp) (by simp [rowRaw16]) h
theorem Coding.c16Xor (d : BitVec 5) (b : BitVec 5) : Coding.Statement (.c16Xor d b) := fun h => short_row (by simp) (by simp [rowRaw16]) h
theorem Coding.c16Move (d : BitVec 5) (b : BitVec 5) : Coding.Statement (.c16Move d b) := fun h => short_row (by simp) (by simp [rowRaw16]) h
theorem Coding.c16Mul (d : BitVec 5) (b : BitVec 5) : Coding.Statement (.c16Mul d b) := fun h => short_row (by simp) (by simp [rowRaw16]) h
theorem Coding.c16Ld (d : BitVec 5) (b : BitVec 5) : Coding.Statement (.c16Ld d b) := fun h => short_row (by simp) (by simp [rowRaw16]) h
theorem Coding.c16St (d : BitVec 5) (b : BitVec 5) : Coding.Statement (.c16St d b) := fun h => short_row (by simp) (by simp [rowRaw16]) h
theorem Coding.c16Addi (d : BitVec 5) (k : BitVec 5) : Coding.Statement (.c16Addi d k) := fun h => short_row (by simp) (by simp [rowRaw16]) h
theorem Coding.c16Li (d : BitVec 5) (k : BitVec 5) : Coding.Statement (.c16Li d k) := fun h => short_row (by simp) (by simp [rowRaw16]) h
theorem Coding.c16Shli (d : BitVec 5) (k : BitVec 5) : Coding.Statement (.c16Shli d k) := fun h => short_row (by simp) (by simp [rowRaw16]) h
theorem Coding.c16Shri (d : BitVec 5) (k : BitVec 5) : Coding.Statement (.c16Shri d k) := fun h => short_row (by simp) (by simp [rowRaw16]) h
theorem Coding.c16Sari (d : BitVec 5) (k : BitVec 5) : Coding.Statement (.c16Sari d k) := fun h => short_row (by simp) (by simp [rowRaw16]) h
theorem Coding.c16Andi (d : BitVec 5) (k : BitVec 5) : Coding.Statement (.c16Andi d k) := fun h => short_row (by simp) (by simp [rowRaw16]) h
theorem Coding.c16LdX2 (d : BitVec 5) (k : BitVec 5) : Coding.Statement (.c16LdX2 d k) := fun h => short_row (by simp) (by simp [rowRaw16]) h
theorem Coding.c16StX2 (d : BitVec 5) (k : BitVec 5) : Coding.Statement (.c16StX2 d k) := fun h => short_row (by simp) (by simp [rowRaw16]) h
theorem Coding.c16LdX3 (d : BitVec 5) (k : BitVec 5) : Coding.Statement (.c16LdX3 d k) := fun h => short_row (by simp) (by simp [rowRaw16]) h
theorem Coding.c16StX3 (d : BitVec 5) (k : BitVec 5) : Coding.Statement (.c16StX3 d k) := fun h => short_row (by simp) (by simp [rowRaw16]) h
theorem Coding.c16Addi16 (d : BitVec 5) (k : BitVec 5) : Coding.Statement (.c16Addi16 d k) := fun h => short_row (by simp) (by simp [rowRaw16]) h
theorem Coding.c16Bz (d : BitVec 5) (k : BitVec 5) : Coding.Statement (.c16Bz d k) := fun h => short_row (by simp) (by simp [rowRaw16]) h
theorem Coding.c16Bnz (d : BitVec 5) (k : BitVec 5) : Coding.Statement (.c16Bnz d k) := fun h => short_row (by simp) (by simp [rowRaw16]) h
theorem Coding.c16J (o : BitVec 10) : Coding.Statement (.c16J o) := fun h => short_row (by simp) (by simp [rowRaw16, join_5_5_5_10]) h
theorem Coding.c16Jal (o : BitVec 10) : Coding.Statement (.c16Jal o) := fun h => short_row (by simp) (by simp [rowRaw16, join_5_5_5_10]) h
theorem Coding.c16Jr (d : BitVec 5) : Coding.Statement (.c16Jr d) := fun h => short_row (by simp) (by simp [rowRaw16]) h
theorem Coding.c16Jalr (d : BitVec 5) : Coding.Statement (.c16Jalr d) := fun h => short_row (by simp) (by simp [rowRaw16]) h
theorem Coding.pfx (p : BitVec 10) : Coding.Statement (.pfx p) := fun h => short_row (by simp) (by simp [rowRaw16, join_5_5_5_10]) h
theorem Coding.powerOn : Coding.Statement (.powerOn) := fun _ => trivial
theorem Coding.powerOff : Coding.Statement (.powerOff) := fun _ => trivial
theorem Coding.kickSlotPoll : Coding.Statement (.kickSlotPoll) := fun _ => trivial
theorem Coding.kickAheadOfPacket : Coding.Statement (.kickAheadOfPacket) := fun _ => trivial
theorem Coding.hostRecordPost : Coding.Statement (.hostRecordPost) := fun _ => trivial
theorem Coding.launch : Coding.Statement (.launch) := fun _ => trivial
theorem Coding.partitionSetup : Coding.Statement (.partitionSetup) := fun _ => trivial
theorem Coding.preEmptContext : Coding.Statement (.preEmptContext) := fun _ => trivial
theorem Coding.killContext : Coding.Statement (.killContext) := fun _ => trivial
theorem Coding.readLog : Coding.Statement (.readLog) := fun _ => trivial
theorem Coding.attest : Coding.Statement (.attest) := fun _ => trivial
theorem Coding.createContext : Coding.Statement (.createContext) := fun _ => trivial
theorem Coding.releaseContext : Coding.Statement (.releaseContext) := fun _ => trivial
theorem Coding.resumeContext : Coding.Statement (.resumeContext) := fun _ => trivial
theorem Coding.save : Coding.Statement (.save) := fun h => long_row_0B rfl (by simp [decodeMajor0B]) h
theorem Coding.restore : Coding.Statement (.restore) := fun h => long_row_0B rfl (by simp [decodeMajor0B]) h
theorem Coding.ret : Coding.Statement (.ret) := fun h => long_row_0B rfl (by simp [decodeMajor0B]) h
theorem Coding.nop : Coding.Statement (.nop) := fun h => long_row_0B rfl (by simp [decodeMajor0B]) h
theorem Coding.endThread : Coding.Statement (.endThread) := fun h => long_row_22 rfl (by simp [decodeMajor22]) h
theorem Coding.tret : Coding.Statement (.tret) := fun h => long_row_30 rfl (by simp [decodeMajor30]) h
theorem Coding.c16Ret : Coding.Statement (.c16Ret) := fun h => short_row (by simp) (by simp [rowRaw16]) h
theorem Coding.c16Save : Coding.Statement (.c16Save) := fun h => short_row (by simp) (by simp [rowRaw16]) h
theorem Coding.c16Restore : Coding.Statement (.c16Restore) := fun h => short_row (by simp) (by simp [rowRaw16]) h
theorem Coding.c16Nop : Coding.Statement (.c16Nop) := fun h => short_row (by simp) (by simp [rowRaw16]) h

end Sys2Proof.Laws
end

