-- ==== Sys2Proof/Laws/Traps.lean ====
section
/-! SUPPORT. Taking an exception, steps of other agents and the end of an instruction: everything each can do, said once; and
writes at a home keep the canonical form of memory. -/

namespace Sys2Proof.Machine

variable {s t : State}

/-! ## Exceptions (R222-R224) -/

theorem thr_sendFault (s : State) (c : Nat) (m : FaultMsg) (n : Nat) : thr (sendFault s c m) n = thr s n := rfl
theorem mem_sendFault (s : State) (c : Nat) (m : FaultMsg) : (sendFault s c m).mem = s.mem := rfl

theorem mem_contain (s : State) (tid : Nat) (c : Cause) (v pc : Word) : (contain s tid c v pc).mem = s.mem := rfl
theorem mem_enterTrap (s : State) (tid : Nat) (c : Cause) (v pc : Word) : (enterTrap s tid c v pc).mem = s.mem := rfl

/-- A fault enters the trap routine, or contains the thread with its own cause or with double-fault. -/
theorem takeFault_cases (s : State) (tid : Nat) (c : Cause) (v pc : Word) :
    takeFault s tid c v pc = enterTrap s tid c v pc ∨ ∃ d, takeFault s tid c v pc = contain s tid d v pc := by
  by_cases h : c.contains = true
  · exact .inr ⟨c, by simp [takeFault, h]⟩
  · by_cases g : ((thr s tid).it || (thr s tid).prv == .f) = true
    · exact .inr ⟨.doubleFault, by simp [takeFault, h, g]⟩
    · exact .inl (by simp [takeFault, h, g])

theorem mem_takeFault (s : State) (tid : Nat) (c : Cause) (v pc : Word) : (takeFault s tid c v pc).mem = s.mem := by
  rcases takeFault_cases s tid c v pc with h | ⟨d, h⟩ <;> rw [h] <;> rfl

theorem thr_takeFault_ne (s : State) {tid n : Nat} (c : Cause) (v pc : Word) (h : tid ≠ n) : thr (takeFault s tid c v pc) n = thr s n := by
  rcases takeFault_cases s tid c v pc with e | ⟨d, e⟩ <;> rw [e]
  · exact thr_setThr_ne _ _ h
  · exact thr_setThr_ne _ _ h

/-! ## Steps of other agents, and instructions -/

/-- A step of another agent takes place, or leaves the state as it is. -/
theorem event_next {f : State → Option State} (h : event f s = .next t) : s.power = true ∧ (f s = some t ∨ (f s = none ∧ t = s)) := by
  unfold event at h
  split at h
  · rename_i hp
    refine ⟨hp, ?_⟩
    cases e : f s with
    | none => right; simp [e] at h; exact ⟨rfl, h.symm⟩
    | some u => left; simp [e] at h; rw [h]
  · cases h

/-- What an instruction comes to is what `finish` makes of its attempt. -/
theorem issue_next {f : Form} {body : List Word → State → Eff × State} (h : issue f body s = .next t) :
    s.power = true ∧ t = finish f (issuer s) (attempt f body (issuer s) (base s)) := by
  unfold issue at h
  split at h
  · rename_i hp
    simp only [Host.Outcome.next.injEq] at h
    exact ⟨hp, h.symm⟩
  · cases h

/-- The firmware's answer to a message changes no byte of memory. -/
theorem mem_reflect {c : Nat} (h : reflect c s = some t) : t.mem = s.mem := by
  unfold reflect at h
  split at h
  · cases h
  · simp only [Option.some.injEq] at h
    subst h
    split <;> rfl

/-! ## Writes at a home (R4, R61) -/

theorem memoryOk_correctWord {k : Nat} (h : MemoryOk s) : MemoryOk (correctWord s k) := by
  unfold correctWord
  split
  · exact h
  · exact wf_setBytes h _ _ _

/-- A step that keeps the form, made for each element of a list. -/
theorem memoryOk_foldl {α : Type} {f : State → α → State} (hf : ∀ s x, MemoryOk s → MemoryOk (f s x)) (l : List α) :
    ∀ {s : State}, MemoryOk s → MemoryOk (l.foldl f s) := by
  induction l with
  | nil => exact fun h => h
  | cons x xs ih => exact fun h => ih (hf _ x h)

theorem memoryOk_keepFetched {pkg pa n : Nat} (h : MemoryOk s) : MemoryOk (keepFetched s pkg pa n) := by
  unfold keepFetched
  split
  · split
    · exact memoryOk_foldl (f := keepWord _) (fun _ _ h => h) _ h
    · exact h
  · exact h

theorem memoryOk_writeHome {pkg pa n v : Nat} (h : MemoryOk s) : MemoryOk (writeHome s pkg pa n v) := by
  have plain : ∀ u : State, MemoryOk u → MemoryOk
      (let u' := if u.flaws.isEmpty then u
         else (List.range ((pa % 8 + n + 7) / 8)).foldl (fun s i => correctWord s (keyOf pkg (pa / 8 * 8 + 8 * i))) u
       { u' with mem := setBytes u'.mem (keyOf pkg pa) n v }) := by
    intro u hu
    refine wf_setBytes ?_ _ _ _
    split
    · exact hu
    · exact memoryOk_foldl (fun _ _ h => memoryOk_correctWord h) _ hu
  unfold writeHome
  split
  · split
    · exact h
    · exact h
    · exact plain _ (memoryOk_keepFetched h)
    · exact plain _ h
  · exact plain _ h

theorem memoryOk_writeByteList {pkg : Nat} (bs : List Byte) : ∀ {s : State} {pa : Nat}, MemoryOk s → MemoryOk (writeByteList s pkg pa bs) := by
  induction bs with
  | nil => exact fun h => h
  | cons b bs ih => exact fun h => ih (memoryOk_writeHome h)

end Sys2Proof.Machine
end

