-- ==== Sys2Proof/Tests/Slice0.lean ====
section
/-! SUPPORT. Tests: decoding, ill-formed fields, examples worked out in the spec, single steps, and for every statement with
hypotheses a state and operands that meet them. -/

set_option linter.unusedVariables false
set_option Elab.async false

namespace Sys2Proof.Tests

open Sys2Proof Sys2Proof.Machine Host

/-! ## A small state -/

/-- A user thread of context 1. -/
def user : Thread := { ctx := 1, life := .run, pc := 0x20400 }

/-- A firmware thread. -/
def firm : Thread := { user with prv := .f }

/-- Power is on, context 1 is live on partition 0, which is compartment 0, and the given thread issues as slot 1 of core 0 in
cycle 17. -/
def rig (t : Thread) : State :=
  { State.reset with
    power := true
    cur := 1
    cmpts := [(0, { cyc := 17, t := 34, part := some 0 })]
    ctxs := [(1, { live := true, tvb := 0x30000, seed := 5 })]
    threads := [(1, t)] }

/-- The checks of R288, each as a Boolean. -/
theorem ready_of {s : State} {p : Prv} {rs : List Reg} {g : Nat → Bool}
    (h : (s.power && allows p (issuer s).prv && (pendingPfx (issuer s)).isNone && !pendingOn (issuer s) rs
      && rs.all fun r => (boundAt (issuer s) r).isNone) = true) : Ready s p rs g := by
  simp only [Bool.and_eq_true, Bool.not_eq_true', List.all_eq_true, Option.isNone_iff_eq_none] at h
  obtain ⟨⟨⟨⟨h1, h2⟩, h3⟩, h4⟩, h5⟩ := h
  exact ⟨h1, h2, (fun x hx => by rw [h3] at hx; cases hx), .inr h4, h5⟩

/-- An operation that answers, as a Boolean. -/
def okAt {α : Type} (r : Res α) (p : α → State → Bool) : Bool :=
  match r with
  | .ok a u => p a u
  | .stop _ _ => false

theorem ok_of {α : Type} {r : Res α} {p : α → State → Bool} (h : okAt r p = true) : ∃ a u, r = .ok a u ∧ p a u = true := by
  cases r with
  | ok a u => exact ⟨a, u, rfl, h⟩
  | stop => cases h

theorem ok_eq {α : Type} [DecidableEq α] {r : Res α} {a : α} {u : State}
    (h : okAt r (fun x y => decide (x = a) && decide (y = u)) = true) : r = .ok a u := by
  obtain ⟨x, y, rfl, h⟩ := ok_of h
  have h := Bool.and_eq_true_iff.mp h
  rw [of_decide_eq_true h.1, of_decide_eq_true h.2]

theorem ok_some {α : Type} {r : Res α} (h : okAt r (fun _ _ => true) = true) : ∃ a u, r = .ok a u :=
  have ⟨a, u, e, _⟩ := ok_of h
  ⟨a, u, e⟩

/-- An outcome that goes on, as a Boolean. -/
def nextAt? (r : Outcome State Fault Refusal) (p : State → Bool) : Bool :=
  match r with
  | .next t => p t
  | _ => false

theorem next_of {r : Outcome State Fault Refusal} {p : State → Bool} (h : nextAt? r p = true) :
    ∃ t, r = .next t ∧ p t = true := by
  cases r with
  | next t => exact ⟨t, rfl, h⟩
  | fault => cases h
  | refused => cases h


/-! ## Words of every instruction -/

/-- Words put together from the base words and the fields of the integer entries (R276-R281). -/
theorem test_words_integer_1 :
    decode32 0x00B52403#32 = .ok (.add 9 10 11) ∧ decode32 0x00B52483#32 = .ok (.sub 9 10 11)
    ∧ decode32 0x00B52503#32 = .ok (.and 9 10 11) ∧ decode32 0x00B52583#32 = .ok (.or 9 10 11)
    ∧ decode32 0x00B52603#32 = .ok (.xor 9 10 11) ∧ decode32 0x00B52683#32 = .ok (.andn 9 10 11)
    ∧ decode32 0x00B52703#32 = .ok (.orn 9 10 11) ∧ decode32 0x9A752405#32 = .ok (.addi 9 10 0x9a7)
    ∧ decode32 0x9A752485#32 = .ok (.andi 9 10 0x9a7) ∧ decode32 0x9A752505#32 = .ok (.ori 9 10 0x9a7)
    ∧ decode32 0x9A752585#32 = .ok (.xori 9 10 0x9a7) ∧ decode32 0x9A752605#32 = .ok (.slti 9 10 0x9a7)
    ∧ decode32 0x9A752685#32 = .ok (.sltiN 9 10 0x9a7) ∧ decode32 0x00B52407#32 = .ok (.shl 9 10 11)
    ∧ decode32 0x02B52407#32 = .ok (.shr 9 10 11) ∧ decode32 0x04B52407#32 = .ok (.sar 9 10 11)
    ∧ decode32 0x06B52407#32 = .ok (.rotl 9 10 11) ∧ decode32 0x08B52407#32 = .ok (.rotr 9 10 11)
    ∧ decode32 0x00052487#32 = .ok (.clz 9 10) ∧ decode32 0x02052487#32 = .ok (.ctz 9 10)
    ∧ decode32 0x04052487#32 = .ok (.popc 9 10) ∧ decode32 0x06052487#32 = .ok (.brev 9 10)
    ∧ decode32 0x08052487#32 = .ok (.bswap 9 10) ∧ decode32 0x00B52507#32 = .ok (.bfx 9 10 11)
    ∧ decode32 0x02B52507#32 = .ok (.bfxs 9 10 11) ∧ decode32 0x00B52587#32 = .ok (.bfi 9 10 11)
    ∧ decode32 0x02552607#32 = .ok (.shli 9 10 37) ∧ decode32 0x02552687#32 = .ok (.shri 9 10 37)
    ∧ decode32 0x02552707#32 = .ok (.sari 9 10 37) ∧ decode32 0x00B52409#32 = .ok (.mul 9 10 11)
    ∧ decode32 0x00B52489#32 = .ok (.mulh 9 10 11) ∧ decode32 0x02B52489#32 = .ok (.mulhN 9 10 11)
    ∧ decode32 0x18B52509#32 = .ok (.madd 9 10 11 12) ∧ decode32 0x18B52589#32 = .ok (.msub 9 10 11 12)
    ∧ decode32 0x0CB52609#32 = .ok (.div 9 10 11 6) ∧ decode32 0x1CB52609#32 = .ok (.divN 9 10 11 6) := by
  and_intros <;> rfl

/-- Words put together from the base words and the fields of the integer entries (R276-R281). -/
theorem test_words_integer_2 :
    decode32 0x0CB52689#32 = .ok (.rem 9 10 11 6) ∧ decode32 0x1CB52689#32 = .ok (.remN 9 10 11 6)
    ∧ decode32 0xCDEF240B#32 = .ok (.li 9 0xcdef) ∧ decode32 0xCDEFA40B#32 = .ok (.liN 9 0xcdef)
    ∧ decode32 0xCDEF270B#32 = .ok (.lih 9 0xcdef 2) ∧ decode32 0xAD1DA40D#32 = .ok (.adr 9 0x15a3b)
    ∧ decode32 0x00B5240F#32 = .ok (.min 9 10 11) ∧ decode32 0x02B5240F#32 = .ok (.minN 9 10 11)
    ∧ decode32 0x00B5248F#32 = .ok (.max 9 10 11) ∧ decode32 0x02B5248F#32 = .ok (.maxN 9 10 11)
    ∧ decode32 0x00B5250F#32 = .ok (.slt 9 10 11) ∧ decode32 0x02B5250F#32 = .ok (.sltN 9 10 11)
    ∧ decode32 0x00B5258F#32 = .ok (.seq 9 10 11) ∧ decode32 0x18B5260F#32 = .ok (.sel 9 10 11 12)
    ∧ decode32 0x9AB51C11#32 = .ok (.beq 10 11 0x9a7) ∧ decode32 0x9AB51C91#32 = .ok (.bne 10 11 0x9a7)
    ∧ decode32 0x9AB51D11#32 = .ok (.blt 10 11 0x9a7) ∧ decode32 0x9AB51D91#32 = .ok (.bge 10 11 0x9a7)
    ∧ decode32 0x9A051E11#32 = .ok (.bz 10 0x9a7) ∧ decode32 0x9A051E91#32 = .ok (.bnz 10 0x9a7)
    ∧ decode32 0x9AB51F11#32 = .ok (.bltN 10 11 0x9a7) ∧ decode32 0x9AB51F91#32 = .ok (.bgeN 10 11 0x9a7)
    ∧ decode32 0xAD1D8013#32 = .ok (.j 0x15a3b) ∧ decode32 0xAD1DA415#32 = .ok (.jal 9 0x15a3b)
    ∧ decode32 0x9A750017#32 = .ok (.jr 10 0x9a7) ∧ decode32 0x9A752497#32 = .ok (.jalr 9 10 0x9a7)
    ∧ decode32 0x9A702697#32 = .ok (.rep 9 0x9a7) ∧ decode32 0x00000117#32 = .ok (.save)
    ∧ decode32 0x00000197#32 = .ok (.restore) ∧ decode32 0x00000217#32 = .ok (.ret) ∧ decode32 0x00000317#32 = .ok (.nop)
    ∧ decode32 0x9A752519#32 = .ok (.ld 9 10 0x9a7 2) ∧ decode32 0x9A752719#32 = .ok (.ldN 9 10 0x9a7 2)
    ∧ decode32 0xD6552799#32 = .ok (.ldAcq 9 10 6 2 1 37) := by
  and_intros <;> rfl

/-- Words put together from the base words and the fields of the memory entries (R276-R281). -/
theorem test_words_memory :
    decode32 0x9AB51D1B#32 = .ok (.st 10 11 0x9a7 2) ∧ decode32 0x72B5571B#32 = .ok (.stRel 10 11 3 0x135 2)
    ∧ decode32 0x9A75201D#32 = .ok (.ldp 8 10 0x9a7) ∧ decode32 0x9AE51C9D#32 = .ok (.stp 10 14 0x9a7)
    ∧ decode32 0x6D35241F#32 = .ok (.ldm 9 10 13 0x53) ∧ decode32 0x74B54C9F#32 = .ok (.stm 10 11 14 0x53)
    ∧ decode32 0xC0B52621#32 = .ok (.amoAdd 9 10 11 1 2 4) ∧ decode32 0xC2B52621#32 = .ok (.amoAnd 9 10 11 1 2 4)
    ∧ decode32 0xC4B52621#32 = .ok (.amoOr 9 10 11 1 2 4) ∧ decode32 0xC6B52621#32 = .ok (.amoXor 9 10 11 1 2 4)
    ∧ decode32 0xC8B52621#32 = .ok (.amoMin 9 10 11 1 2 4) ∧ decode32 0xCAB52621#32 = .ok (.amoMax 9 10 11 1 2 4)
    ∧ decode32 0xCCB52621#32 = .ok (.amoNMin 9 10 11 1 2 4) ∧ decode32 0xCEB52621#32 = .ok (.amoNMax 9 10 11 1 2 4)
    ∧ decode32 0xD0B52621#32 = .ok (.amoXchg 9 10 11 1 2 4) ∧ decode32 0xD8B527A1#32 = .ok (.cas 9 10 11 12 3)
    ∧ decode32 0x6C000023#32 = .ok (.fence 1 5 2) ∧ decode32 0xCD3526A3#32 = .ok (.lx 9 10 1 0x4d3 1)
    ∧ decode32 0x9A755825#32 = .ok (.sqCfg 22 10 0x9a7) ∧ decode32 0x00B058A5#32 = .ok (.sqBind 22 11)
    ∧ decode32 0x00005925#32 = .ok (.sqOff 22) ∧ decode32 0x000059A5#32 = .ok (.sqWait 22)
    ∧ decode32 0x000AA625#32 = .ok (.sqStat 9 21) := by
  and_intros <;> rfl

/-- Words put together from the base words and the fields of the packed entries (R276-R281). -/
theorem test_words_packed_1 :
    decode32 0x00B524A9#32 = .ok (.padd 9 10 11 1) ∧ decode32 0x02B524A9#32 = .ok (.psub 9 10 11 1)
    ∧ decode32 0x04B524A9#32 = .ok (.padds 9 10 11 1) ∧ decode32 0x06B524A9#32 = .ok (.psubs 9 10 11 1)
    ∧ decode32 0x08B524A9#32 = .ok (.pmul 9 10 11 1) ∧ decode32 0x0AB524A9#32 = .ok (.pmulh 9 10 11 1)
    ∧ decode32 0x0CB524A9#32 = .ok (.pmin 9 10 11 1) ∧ decode32 0x0EB524A9#32 = .ok (.pmax 9 10 11 1)
    ∧ decode32 0x10052529#32 = .ok (.pabs 9 10 2) ∧ decode32 0x12B524A9#32 = .ok (.pavg 9 10 11 1)
    ∧ decode32 0x14B524A9#32 = .ok (.pcmpEq 9 10 11 1) ∧ decode32 0x16B524A9#32 = .ok (.pcmpLt 9 10 11 1)
    ∧ decode32 0x18B524A9#32 = .ok (.pcmpLe 9 10 11 1) ∧ decode32 0x06B5242B#32 = .ok (.pdot 9 10 11 3)
    ∧ decode32 0x00B524AB#32 = .ok (.pshf 9 10 11) ∧ decode32 0x02B5252B#32 = .ok (.ppk 9 10 11 1)
    ∧ decode32 0x120525AB#32 = .ok (.pup 9 10 1 1) ∧ decode32 0x02B5262B#32 = .ok (.pbc 9 10 11 1)
    ∧ decode32 0x18B526AB#32 = .ok (.psel 9 10 11 12) ∧ decode32 0xCDEFA62D#32 = .ok (.fli 9 0xcdef 1 4)
    ∧ decode32 0x0AB524AF#32 = .ok (.fadd 9 10 11 5 1) ∧ decode32 0x1AB524AF#32 = .ok (.fsub 9 10 11 5 1)
    ∧ decode32 0x2AB524AF#32 = .ok (.fmul 9 10 11 5 1) ∧ decode32 0x30B524AF#32 = .ok (.fmin 9 10 11 1)
    ∧ decode32 0x40B524AF#32 = .ok (.fmax 9 10 11 1) ∧ decode32 0x500524AF#32 = .ok (.fneg 9 10 1)
    ∧ decode32 0x600524AF#32 = .ok (.fabs 9 10 1) ∧ decode32 0x70B524AF#32 = .ok (.fcmpEq 9 10 11 1)
    ∧ decode32 0x80B524AF#32 = .ok (.fcmpLt 9 10 11 1) ∧ decode32 0x90B524AF#32 = .ok (.fcmpLe 9 10 11 1)
    ∧ decode32 0x3CB5262F#32 = .ok (.fsum 9 10 11 3 6) ∧ decode32 0x18B524B1#32 = .ok (.fma 9 10 11 12 1)
    ∧ decode32 0x58B524B1#32 = .ok (.fms 9 10 11 12 1) ∧ decode32 0x6A252433#32 = .ok (.fcvt 9 10 3 5 2)
    ∧ decode32 0xCA1524B3#32 = .ok (.icvt 9 10 1 4 5 1) ∧ decode32 0x08052533#32 = .ok (.fcls 9 10 4) := by
  and_intros <;> rfl

/-- Words put together from the base words and the fields of the packed entries (R276-R281). -/
theorem test_words_packed_2 :
    decode32 0x36B525B3#32 = .ok (.okey 9 10 11 1 11) ∧ decode32 0x02B52435#32 = .ok (.dl2 9 10 11 1)
    ∧ decode32 0x02B524B5#32 = .ok (.dip 9 10 11 1) ∧ decode32 0x04B524B5#32 = .ok (.dipE4m3 9 10 11)
    ∧ decode32 0x00B52535#32 = .ok (.dham 9 10 11) ∧ decode32 0x02B525B5#32 = .ok (.dcb 9 10 11 1) := by
  and_intros <;> rfl

/-- Words put together from the base words and the fields of the mill entries (R276-R281). -/
theorem test_words_mill :
    decode32 0x0C052737#32 = .ok (.sfuRcp 9 10 6 1 2) ∧ decode32 0x1C052737#32 = .ok (.sfuRsqrt 9 10 6 1 2)
    ∧ decode32 0x2C052737#32 = .ok (.sfuSqrt 9 10 6 1 2) ∧ decode32 0x3C052737#32 = .ok (.sfuExp2 9 10 6 1 2)
    ∧ decode32 0x4C052737#32 = .ok (.sfuLog2 9 10 6 1 2) ∧ decode32 0x5C052737#32 = .ok (.sfuExp 9 10 6 1 2)
    ∧ decode32 0x6C052737#32 = .ok (.sfuLn 9 10 6 1 2) ∧ decode32 0x7C052737#32 = .ok (.sfuSinpi 9 10 6 1 2)
    ∧ decode32 0x8C052737#32 = .ok (.sfuCospi 9 10 6 1 2) ∧ decode32 0x9C052737#32 = .ok (.sfuTanh 9 10 6 1 2)
    ∧ decode32 0xAC052737#32 = .ok (.sfuSigm 9 10 6 1 2) ∧ decode32 0x2CE53039#32 = .ok (.mma 10 14 12 2 6)
    ∧ decode32 0x5CE530B9#32 = .ok (.mmas 10 14 12 5 6) ∧ decode32 0x2CE53139#32 = .ok (.mmcb 10 14 12 2 6)
    ∧ decode32 0x3CE531B9#32 = .ok (.mmr 10 14 12 3 6) ∧ decode32 0x1CB5303B#32 = .ok (.mld 10 11 12 1 6)
    ∧ decode32 0x1CB530BB#32 = .ok (.mst 10 11 12 1 6) ∧ decode32 0x2C00313B#32 = .ok (.mzero 12 2 6)
    ∧ decode32 0x2C0531BB#32 = .ok (.manc 10 12 2 6) ∧ decode32 0x2C05323B#32 = .ok (.mscl 10 12 2 6)
    ∧ decode32 0x0C0516BB#32 = .ok (.mcbt 10 6 5) ∧ decode32 0x5CB5333B#32 = .ok (.mfin 10 11 12 5 6)
    ∧ decode32 0x0C00243D#32 = .ok (.mseq 9 6) ∧ decode32 0x0C0500BD#32 = .ok (.mwait 10 6)
    ∧ decode32 0x1C0000BD#32 = .ok (.mwaitAll 6) ∧ decode32 0x0C00253D#32 = .ok (.mprogRd 9 6)
    ∧ decode32 0x1C00013D#32 = .ok (.mprogGo 6) ∧ decode32 0x2C00013D#32 = .ok (.mprogCancel 6)
    ∧ decode32 0x0C05203F#32 = .ok (.rnsf 8 10 6) ∧ decode32 0x0C0520BF#32 = .ok (.rnsr 8 10 6)
    ∧ decode32 0x0CE5213F#32 = .ok (.rnsadd 8 10 14 6) ∧ decode32 0x1CE5213F#32 = .ok (.rnsaddSub 8 10 14 6)
    ∧ decode32 0x0CE521BF#32 = .ok (.rnsmul 8 10 14 6) ∧ decode32 0x0C05263F#32 = .ok (.rnschk 9 10 6)
    ∧ decode32 0x0CB526BF#32 = .ok (.rnsmap 9 10 11 6) := by
  and_intros <;> rfl

/-- Words put together from the base words and the fields of the thread entries (R276-R281). -/
theorem test_words_thread :
    decode32 0x00B52441#32 = .ok (.send 9 10 11) ∧ decode32 0x18B524C1#32 = .ok (.sendm 9 10 11 12)
    ∧ decode32 0x32052043#32 = .ok (.lndGet 8 10 1 9) ∧ decode32 0x320520C3#32 = .ok (.lndPeek 8 10 1 9)
    ∧ decode32 0x00002543#32 = .ok (.lndCnt 9) ∧ decode32 0x00B521C3#32 = .ok (.waitSeq 8 10 11)
    ∧ decode32 0x00052445#32 = .ok (.mig 9 10) ∧ decode32 0x000524C5#32 = .ok (.spawn 9 10)
    ∧ decode32 0x00052545#32 = .ok (.yield 9 10) ∧ decode32 0x000001C5#32 = .ok (.endThread)
    ∧ decode32 0x00050047#32 = .ok (.crewNew 10) ∧ decode32 0x000500C7#32 = .ok (.crewJoin 10)
    ∧ decode32 0x00050147#32 = .ok (.crewLeave 10) ∧ decode32 0x000501C7#32 = .ok (.crewDel 10)
    ∧ decode32 0x00B50247#32 = .ok (.barInit 10 11) ∧ decode32 0x000526C7#32 = .ok (.barArrive 9 10)
    ∧ decode32 0x020526C7#32 = .ok (.barDrop 9 10) ∧ decode32 0x00B50347#32 = .ok (.barWait 10 11)
    ∧ decode32 0x00B52449#32 = .ok (.semPost 9 10 11) ∧ decode32 0x000524C9#32 = .ok (.semWait 9 10)
    ∧ decode32 0x00051D49#32 = .ok (.chanPut 10 7) ∧ decode32 0x000325C9#32 = .ok (.chanGet 9 6)
    ∧ decode32 0x00B52649#32 = .ok (.recast 9 10 11) ∧ decode32 0x0000244B#32 = .ok (.nalloc 9)
    ∧ decode32 0x000500CB#32 = .ok (.nfree 10) ∧ decode32 0x00B5254B#32 = .ok (.link 9 10 11)
    ∧ decode32 0x00B501CB#32 = .ok (.pair 10 11) ∧ decode32 0x0005204D#32 = .ok (.nread 8 10)
    ∧ decode32 0x00B524CD#32 = .ok (.nhdr 9 10 11) ∧ decode32 0x0005254D#32 = .ok (.prefInc 9 10)
    ∧ decode32 0x0205254D#32 = .ok (.prefDec 9 10) := by
  and_intros <;> rfl

/-- Words put together from the base words and the fields of the engine entries (R276-R281). -/
theorem test_words_engine :
    decode32 0x00052451#32 = .ok (.yrdCopy 9 10) ∧ decode32 0x000524D1#32 = .ok (.yrdGath 9 10)
    ∧ decode32 0x00052551#32 = .ok (.yrdScat 9 10) ∧ decode32 0x000525D1#32 = .ok (.yrdFill 9 10)
    ∧ decode32 0x00052651#32 = .ok (.yrdFar 9 10) ∧ decode32 0x00B526D1#32 = .ok (.yrdChan 9 10 11)
    ∧ decode32 0x00052751#32 = .ok (.yrdWm 9 10) ∧ decode32 0x000527D1#32 = .ok (.yrdStop 9 10)
    ∧ decode32 0x00B50053#32 = .ok (.grdCfg 10 11) ∧ decode32 0x00B500D3#32 = .ok (.grdIn 10 11)
    ∧ decode32 0x00B52553#32 = .ok (.grdOutKeep 9 10 11) ∧ decode32 0x02B52553#32 = .ok (.grdOutFin 9 10 11)
    ∧ decode32 0x00052455#32 = .ok (.mark 9 10) ∧ decode32 0x000024D5#32 = .ok (.markSt 9)
    ∧ decode32 0x00E50057#32 = .ok (.smpInj 10 14) ∧ decode32 0x000520D7#32 = .ok (.smpResW 8 10)
    ∧ decode32 0x020520D7#32 = .ok (.smpResNw 8 10) ∧ decode32 0x04B524D7#32 = .ok (.smpResCfg 9 10 11)
    ∧ decode32 0x06E52157#32 = .ok (.gnz 8 10 14 1 1) ∧ decode32 0x00B525D7#32 = .ok (.rng 9 10 11)
    ∧ decode32 0x00050061#32 = .ok (.trap 10) ∧ decode32 0x00050161#32 = .ok (.sysc 10)
    ∧ decode32 0x000000E1#32 = .ok (.tret) ∧ decode32 0x12002463#32 = .ok (.srd 9 9)
    ∧ decode32 0x060524E3#32 = .ok (.swr 9 10 3) ∧ decode32 0x00052465#32 = .ok (.tkill 9 10)
    ∧ decode32 0x000524E5#32 = .ok (.tscrub 9 10) ∧ decode32 0x00052565#32 = .ok (.winMap 9 10)
    ∧ decode32 0x000525E5#32 = .ok (.winRd 9 10) ∧ decode32 0x00B52665#32 = .ok (.winWr 9 10 11)
    ∧ decode32 0x00E502E5#32 = .ok (.eccInj 10 14) ∧ decode32 0x00B50365#32 = .ok (.tlbInv 10 11)
    ∧ decode32 0x00B527E5#32 = .ok (.halt 9 10 11) ∧ decode32 0x00002467#32 = .ok (.cyc 9)
    ∧ decode32 0x000024E7#32 = .ok (.tsc 9) := by
  and_intros <;> rfl

/-- Halfwords put together from the base words and the fields of R282 and R283. -/
theorem test_words_short :
    decode16 0x5A42#16 = .ok (.c16Add 9 11) ∧ decode16 0x5A44#16 = .ok (.c16Sub 9 11)
    ∧ decode16 0x5A46#16 = .ok (.c16And 9 11) ∧ decode16 0x5A48#16 = .ok (.c16Or 9 11)
    ∧ decode16 0x5A4A#16 = .ok (.c16Xor 9 11) ∧ decode16 0x5A4C#16 = .ok (.c16Move 9 11)
    ∧ decode16 0x5A4E#16 = .ok (.c16Mul 9 11) ∧ decode16 0x5A50#16 = .ok (.c16Ld 9 11)
    ∧ decode16 0x5A52#16 = .ok (.c16St 9 11) ∧ decode16 0x9A54#16 = .ok (.c16Addi 9 19)
    ∧ decode16 0x9A56#16 = .ok (.c16Li 9 19) ∧ decode16 0x9A58#16 = .ok (.c16Shli 9 19)
    ∧ decode16 0x9A5A#16 = .ok (.c16Shri 9 19) ∧ decode16 0x9A5C#16 = .ok (.c16Sari 9 19)
    ∧ decode16 0x9A5E#16 = .ok (.c16Andi 9 19) ∧ decode16 0x9A60#16 = .ok (.c16LdX2 9 19)
    ∧ decode16 0x9A62#16 = .ok (.c16StX2 9 19) ∧ decode16 0x9A64#16 = .ok (.c16LdX3 9 19)
    ∧ decode16 0x9A66#16 = .ok (.c16StX3 9 19) ∧ decode16 0x9A68#16 = .ok (.c16Addi16 9 19)
    ∧ decode16 0x9A6A#16 = .ok (.c16Bz 9 19) ∧ decode16 0x9A6C#16 = .ok (.c16Bnz 9 19)
    ∧ decode16 0xA9EE#16 = .ok (.c16J 0x2a7) ∧ decode16 0xA9F0#16 = .ok (.c16Jal 0x2a7) ∧ decode16 0x0272#16 = .ok (.c16Jr 9)
    ∧ decode16 0x0274#16 = .ok (.c16Jalr 9) ∧ decode16 0xB57E#16 = .ok (.pfx 0x2d5) ∧ decode16 0x0036#16 = .ok (.c16Ret)
    ∧ decode16 0x0038#16 = .ok (.c16Save) ∧ decode16 0x003A#16 = .ok (.c16Restore) ∧ decode16 0x003C#16 = .ok (.c16Nop) := by
  and_intros <;> rfl


/-! ## Ill-formed fields -/

/-- R278, R287: each restriction of a field refuses a value outside it. -/
theorem test_wf_refuses :
    Instr.wf (.ldN 9 10 0 3) = false ∧ Instr.wf (.ldAcq 9 10 7 2 0 0) = false ∧ Instr.wf (.ldAcq 9 10 0 3 1 0) = false
    ∧ Instr.wf (.stRel 9 10 7 0 0) = false ∧ Instr.wf (.ldp 9 10 0) = false ∧ Instr.wf (.stp 10 9 0) = false
    ∧ Instr.wf (.ldm 9 10 8 0) = false ∧ Instr.wf (.stm 10 9 8 0) = false ∧ Instr.wf (.amoAdd 9 10 11 0 0 1) = false
    ∧ Instr.wf (.amoXchg 9 10 11 0 1 7) = false ∧ Instr.wf (.fence 0 7 0) = false ∧ Instr.wf (.fence 0 0 3) = false
    ∧ Instr.wf (.lx 9 10 1 0 3) = false ∧ Instr.wf (.sqCfg 19 10 0) = false ∧ Instr.wf (.sqBind 24 10) = false
    ∧ Instr.wf (.sqOff 16) = false ∧ Instr.wf (.sqWait 28) = false ∧ Instr.wf (.sqStat 9 24) = false
    ∧ Instr.wf (.padd 9 10 11 6) = false ∧ Instr.wf (.pabs 9 10 1) = false ∧ Instr.wf (.pdot 9 10 11 4) = false
    ∧ Instr.wf (.fli 9 0 0 5) = false ∧ Instr.wf (.fadd 9 10 11 7 0) = false ∧ Instr.wf (.fadd 9 10 11 0 3) = false
    ∧ Instr.wf (.fsum 9 10 11 5 0) = false ∧ Instr.wf (.fcvt 9 10 5 0 0) = false ∧ Instr.wf (.fcvt 9 10 0 0 5) = false
    ∧ Instr.wf (.icvt 9 10 0 0 7 0) = false ∧ Instr.wf (.fcls 9 10 5) = false ∧ Instr.wf (.okey 9 10 11 0 6) = false
    ∧ Instr.wf (.okey 9 10 11 0 13) = false ∧ Instr.wf (.sfuRcp 9 10 0 0 3) = false := by decide

/-- R278, R287, R348, R357, R362, R380, R390, R398, R416: the same for the other entries. -/
theorem test_wf_refuses_more :
    Instr.wf (.mma 9 10 0 0 0) = false ∧ Instr.wf (.mma 10 0 0 0 0) = false ∧ Instr.wf (.mma 10 12 16 0 0) = false
    ∧ Instr.wf (.mmr 10 12 0 4 0) = false ∧ Instr.wf (.mld 10 11 16 0 0) = false ∧ Instr.wf (.mzero 15 1 0) = false
    ∧ Instr.wf (.mcbt 10 0 8) = false ∧ Instr.wf (.mfin 10 11 0 6 0) = false ∧ Instr.wf (.mseq 16 0) = false
    ∧ Instr.wf (.mprogRd 31 0) = false ∧ Instr.wf (.rnsf 9 10 0) = false ∧ Instr.wf (.rnsr 10 11 0) = false
    ∧ Instr.wf (.rnsmul 10 12 13 0) = false ∧ Instr.wf (.rnschk 9 11 0) = false ∧ Instr.wf (.lndGet 10 0 0 0) = false
    ∧ Instr.wf (.lndPeek 9 0 0 1) = false ∧ Instr.wf (.waitSeq 9 0 10) = false ∧ Instr.wf (.chanPut 10 8) = false
    ∧ Instr.wf (.chanGet 10 8) = false ∧ Instr.wf (.nread 10 11) = false ∧ Instr.wf (.nread 0 11) = false
    ∧ Instr.wf (.smpInj 10 11) = false ∧ Instr.wf (.smpResW 9 10) = false ∧ Instr.wf (.smpResNw 9 10) = false
    ∧ Instr.wf (.gnz 10 11 13 0 0) = false ∧ Instr.wf (.srd 9 12) = false ∧ Instr.wf (.swr 9 10 12) = false
    ∧ Instr.wf (.eccInj 10 11) = false ∧ Instr.wf (.pfx 0x380) = false ∧ Instr.wf (.pfx 0x038) = false
    ∧ Instr.wf (.pfx 0x003) = false := by decide

/-- Words that the spec writes out for whole instructions (R276-R286 and the entries' examples). -/
theorem test_words_of_the_spec :
    decode32 0x000227A3#32 = .ok (.lx 9 4 0 0 3) ∧ decode32 0x32B5262F#32 = .ok (.fsum 9 10 11 3 1)
    ∧ decode32 0x10B525B3#32 = .ok (.okey 9 10 11 0 8) ∧ decode32 0x20C51039#32 = .ok (.mma 10 12 4 2 0)
    ∧ decode32 0x00048051#32 = .ok (.yrdCopy 0 9) ∧ decode32 0x02002463#32 = .ok (.srd 9 1) := by
  and_intros <;> rfl


/-! ## Examples worked out in the spec, one step each -/

/-- A user thread with some registers set. -/
def withRegs (rs : List (Nat × Word)) (t : Thread := user) : Thread := rs.foldl (fun t r => setX t r.1 r.2) t

/-- After one instruction, and once its results have landed, a register of the issuing thread holds a value. -/
def leaves (i : Instr) (t : Thread) (d : Nat) (v : Word) : Bool :=
  nextAt? (exec i (rig t)) fun u => getX (settle (thr u 1) 1000) d == v

/-- The field of a pending result's flags that the test names. -/
def flagsAre (i : Instr) (t : Thread) (f : FFlags) : Bool :=
  nextAt? (exec i (rig t)) fun u => decide ((settle (thr u 1) 1000).flags = f)

/-- R288's chapter: `bfx` with b = 0xC3C takes a[63:60]; `bfi` writes it there. -/
theorem test_bit_fields : leaves (.bfx 9 10 11) (withRegs [(10, 0xA5A5_0000_0000_0001), (11, 0xC3C)]) 9 0xA = true
    ∧ leaves (.bfi 9 10 11) (withRegs [(9, 1), (10, 0xF7), (11, 0xC3C)]) 9 0x7000_0000_0000_0001 = true := by decide +kernel

/-- R299: the third of the four instructions that build 0x0123_4567_89AB_CDEF. -/
theorem test_lih : leaves (.lih 9 0x4567 2) (withRegs [(9, 0x89AB_CDEF)]) 9 0x4567_89AB_CDEF = true := by decide +kernel

/-- R290, R298: 100 / 7 = 14; a quotient by 0 is all ones; the one overflow gives the dividend back. -/
theorem test_division : leaves (.div 9 10 11 2) (withRegs [(10, 100), (11, 7)]) 9 14 = true
    ∧ leaves (.div 9 10 11 2) (withRegs [(10, 100)]) 9 (-1) = true
    ∧ leaves (.div 9 10 11 2) (withRegs [(10, 0x8000_0000_0000_0000), (11, -1)]) 9 0x8000_0000_0000_0000 = true
    ∧ leaves (.rem 9 10 11 2) (withRegs [(10, -7), (11, 2)]) 9 (-1) = true := by decide +kernel

/-- R246: a result for x0 is dropped, and x0 reads as 0. -/
theorem test_x0 : leaves (.addi 0 10 5) (withRegs [(10, 1)]) 0 0 = true ∧ leaves (.add 9 0 0) (withRegs [(9, 1)]) 9 0 = true := by
  decide +kernel

/-- R328: the worked example of packed addition. -/
theorem test_packed_add :
    leaves (.padd 9 10 11 0) (withRegs [(10, 0x0180_F07F), (11, 0xFFFF_2001)]) 9 0x007F_1080 = true
    ∧ leaves (.padds 9 10 11 0) (withRegs [(10, 0x0180_F07F), (11, 0xFFFF_2001)]) 9 0x0080_107F = true
    ∧ leaves (.padds 9 10 11 1) (withRegs [(10, 0x0180_F07F), (11, 0xFFFF_2001)]) 9 0xFFFF_FF80 = true := by decide +kernel

/-- R327, R332, R333: the worked example of `fmul` under prefixes, for `pfx e4m3, same, f32`, `pfx e4m3, same, fa`, none, and a
NaN operand. -/
theorem test_fmul_prefixed :
    let t := withRegs [(10, 0x7E), (11, 0x7E)]
    leaves (.fmul 9 10 11 0 0) { t with pp := true, pfx := 0x2FD } 9 0x4844_0000 = true
    ∧ leaves (.fmul 9 10 11 0 0) { t with pp := true, pfx := 0x2FE } 9 0x7E = true
    ∧ flagsAre (.fmul 9 10 11 0 0) { t with pp := true, pfx := 0x2FE } { ofl := true, nx := true } = true
    ∧ leaves (.fmul 9 10 11 0 0) t 9 0 = true ∧ flagsAre (.fmul 9 10 11 0 0) t { nx := true } = true
    ∧ leaves (.fmul 9 10 11 0 0) { withRegs [(10, 0xFF), (11, 0x7E)] with pp := true, pfx := 0x2FD } 9 0x7FC0_0000 = true := by
  decide +kernel

/-- R263, R336: 1 + 2^−4 + 2^−20 through bf16 to e4m3: rounding odd agrees with the direct conversion, nearest does not. -/
theorem test_fcvt :
    leaves (.fcvt 10 9 1 4 0) (withRegs [(9, 0x3F88_0008)]) 10 0x3F89 = true
    ∧ leaves (.fcvt 11 10 3 0 1) (withRegs [(10, 0x3F89)]) 11 0x39 = true
    ∧ leaves (.fcvt 11 9 3 0 0) (withRegs [(9, 0x3F88_0008)]) 11 0x39 = true
    ∧ leaves (.fcvt 10 9 1 0 0) (withRegs [(9, 0x3F88_0008)]) 10 0x3F88 = true
    ∧ leaves (.fcvt 11 10 3 0 1) (withRegs [(10, 0x3F88)]) 11 0x38 = true := by decide +kernel

/-- R339: the table of order keys with x11 = 5. -/
theorem test_okey :
    let k (x : Word) (v : BitVec 1) : Word → Bool := leaves (.okey 9 10 11 v 8) (withRegs [(10, x), (11, 5)]) 9
    k 0xFF80_0000 0 0x007F_FFFF_0000_0005 = true ∧ k 0xBF80_0000 0 0x407F_FFFF_0000_0005 = true
    ∧ k 0x8000_0000 0 0x8000_0000_0000_0005 = true ∧ k 0 0 0x8000_0000_0000_0005 = true
    ∧ k 0x3F80_0000 0 0xBF80_0000_0000_0005 = true ∧ k 0x7F80_0000 0 0xFF80_0000_0000_0005 = true
    ∧ k 0x7FC0_0000 0 5 = true ∧ k 0 1 0x7FFF_FFFF_0000_0005 = true ∧ k 0xFF80_0000 1 0xFF80_0000_0000_0005 = true := by
  decide +kernel

/-- R368, R370, R371: the worked example of the residue forms. -/
theorem test_residues :
    leaves (.rnsf 10 9 0) (withRegs [(9, 1000)]) 10 0xEBE8_442C_240C_F7F1 = true
    ∧ leaves (.rnsf 10 9 0) (withRegs [(9, 1000)]) 11 1000 = true
    ∧ leaves (.rnsmul 12 10 10 0) (withRegs [(10, 0xEBE8_442C_240C_F7F1), (11, 1000)]) 12 0x9140_C518_5B90_1090 = true
    ∧ leaves (.rnsr 16 12 1) (withRegs [(12, 0x9140_C518_5B90_1090), (13, 1000000)]) 16 1000000 = true
    ∧ leaves (.rnsr 16 12 1) (withRegs [(12, 0x9140_C518_5C90_1090), (13, 1000000)]) 16 1000000 = true
    ∧ leaves (.rnsr 16 12 1) (withRegs [(12, 0x9140_C518_5C90_1090), (13, 1000000)]) 17 0x0301 = true := by decide +kernel

/-- R273: the table of decodings. -/
theorem test_residue_table :
    rnsDecode {} 0x9140_C518_5B90_10FE 1000000 = .corr 1000000 0
    ∧ (let w : Word := (List.range 8).foldr (fun c n => n * 256
        + BitVec.ofNat 64 (2 * 10 ^ 14 % [253, 251, 247, 241, 239, 233, 256, 255].getD c 256)) 0
       rnsDecode {} w (2 * 10 ^ 14) = .range) := by decide +kernel

/-- R266, R267: the worked example of an accumulator with anch = −20. -/
theorem test_accumulator :
    let one : FVal × Bool := (.fin false 3 (-1), false)
    let small (neg : Bool) : FVal × Bool := (.fin neg 1 (-24), false)
    (accAddAll (-20) {} [one, small false, small true]).1.a = 0x17_FFFF
    ∧ (accAddAll (-20) {} [one, small false, small true]).2.nxa = true := by decide +kernel

/-- R192: the worked example of a reduction, by both routes. -/
theorem test_combining :
    let p (key idx : BitVec 32) (cand nan : Bool) : RedPacket :=
      { key := key, idx := idx, cnt := 1, cand := cand, nan := nan, op := 0, red := 7 }
    let a := p 0x8000_4200 17 true false
    let b := p 0x8000_4200 9 true false
    let c := p 0 0xFFFF_FFFF false true
    let d := p 0 0xFFFF_FFFF false false
    let r : RedPacket := { key := 0x8000_4200, idx := 9, cnt := 4, cand := true, nan := true, op := 0, red := 7 }
    combine (combine a b) (combine c d) = r ∧ combine (combine a c) (combine b d) = r := by decide +kernel

/-- R203: the worked example of a marking round: rank order, commits under three rules, and map bits. -/
theorem test_marking :
    let f (v : Nat) : FVal := fval f32 v
    let l := [(3, f 0x3F00_0000), (7, f 0x3F66_6666), (18, f 0x3F66_6666), (21, f 0x3E80_0000), (30, f 0x3F40_0000),
      (33, f 0x8000_0000), (38, f 0)]
    let m : Marking := { markingOf [] with n := 40, g := 3, layers := 4, l0 := 2, w := 1, p := 5, rnd := 4, rule := 1, parm := 2 ^ 32 + 3 }
    (ranked l).map (·.1) = [7, 18, 30, 3, 21, 33, 38]
    ∧ commits m (ranked l ++ [(12, .nan)]) 0 = 3
    ∧ commits { m with rule := 2, parm := 0x3F4C_CCCD } (ranked l) 0 = 2
    ∧ commits { m with rule := 2, parm := 0x3F73_3333, alo := true } (ranked l) 0 = 1
    ∧ (List.range 12).foldr (fun i n => 2 * n + if mapBit m [7, 18, 30] (i / 3) (i % 3) then 1 else 0) 0 = 0xFDB
    ∧ (List.range 12).foldr (fun i n => 2 * n + if mapBit { m with p := 4 } [7, 18, 30] (i / 3) (i % 3) then 1 else 0) 0 = 0xFFF := by
  decide +kernel

/-- R225: the four words of the worked example's fault message. -/
theorem test_fault_message :
    let m : FaultMsg := { cause := .illegalEncoding, ctx := 0x0A7, ptid := 0x2BCEB, pc := 0x2_0000_0400, val := 0, lt := false
                          inj := false, prv := .u, nth := false, inst := 0x27, ts := 0, cgen := 0, src := 0 }
    ofBytes ((faultBytes m).take 8) = 0x2017_0A70_0002_BCEB ∧ ofBytes (((faultBytes m).drop 8).take 8) = 0x2_0000_0400
    ∧ ofBytes (((faultBytes m).drop 16).take 8) = 0 ∧ ofBytes (((faultBytes m).drop 24).take 8) = 0x27 := by decide +kernel

/-- R46: the leaf of the worked walk. -/
theorem test_leaf : readEntry 0 7 0x101_40E9_1234 3 0xD403_0012_3450_1800
    = .ok (.inr { ctx := 7, va := 0x101_40E9_0000, size := 0x1_0000, tier := .hbm, ord := .rc, pkg := 0, gen := 3, pa := 0x12_3450_0000
                  s := false, w := true, rd := true })
    ∧ (List.range 4).map (levelIndex 0x101_40E9_1234) = [2, 5, 7, 9] := ⟨rfl, rfl⟩

/-- R20, R33: the places of the worked examples. -/
theorem test_places : coreOf 0x2BCEB = 0x2BCE ∧ cmptOf 0x2BCEB = 21 ∧ slotOf 0x2BCEB = 11
    ∧ placeOf 0x81_0579_D648 = .regs 0x2BCEB 0x48 ∧ storeBase 0x2BCE = 0x80_15E7_0000 := by decide +kernel

/-- R24: logical cores of a partition that holds compartments 4, 5 and 12. -/
theorem test_logical_cores : physIn [] [4, 5, 12] 511 = some 0x9FF ∧ physIn [] [4, 5, 12] 512 = some 0xA00
    ∧ physIn [] [4, 5, 12] 1024 = some 0x1800 ∧ physIn [] [4, 5, 12] 1536 = none := by decide +kernel

/-- R282-R287: the halfwords and word of the worked example of chapter 17, and what follows each. -/
theorem test_stream_of_bytes :
    decode [0x52, 0xEA, 0x09, 0x26] = .ok (.c16St 9 29, 2) ∧ decode [0x09, 0x26, 0xB5, 0x04] = .ok (.div 9 10 11 2, 4)
    ∧ decode [0x7E, 0xBF] = .ok (.pfx 0x2FD, 2) := ⟨rfl, rfl, rfl⟩

/-- R222, R223: `trap` at U enters the handler; inside a handler it is contained as a double fault. -/
theorem test_trap :
    (nextAt? (exec (.trap 10) (rig (withRegs [(10, 7)]))) fun u =>
      let t := thr u 1
      decide (t.pc = 0x300C0 ∧ t.tepc = 0x20404 ∧ t.tca = 0x22 ∧ t.tval = 7 ∧ t.prv = .s ∧ t.it = true ∧ t.pprv = 0)) = true
    ∧ (nextAt? (exec (.trap 10) (rig { withRegs [(10, 7)] with it := true })) fun u =>
      decide ((thr u 1).life = .contained ∧ (thr u 1).why = some .doubleFault ∧ (cmpt u 0).faultNet.length = 1)) = true := by
  decide +kernel

/-- R220: a firmware instruction at U is contained. -/
theorem test_privilege : (nextAt? (exec (.tkill 9 10) (rig user)) fun u => (thr u 1).why == some .privilege) = true := by decide +kernel

/-- R248: `save` turns the window, and the old call registers are the new entry registers. -/
theorem test_save : (nextAt? (exec .save (rig (withRegs [(24, 7), (8, 3)]))) fun u =>
    decide (getX (thr u 1) 8 = 7 ∧ getX (thr u 1) 24 = 0 ∧ (thr u 1).depth = 1 ∧ (thr u 1).cur = true ∧ (thr u 1).olive = true)) = true := by
  decide +kernel

/-- R306: `rep` at 1 ends at 0 and falls through. -/
theorem test_rep : leaves (.rep 9 (-8)) (withRegs [(9, 1)]) 9 0 = true
    ∧ (nextAt? (exec (.rep 9 (-8)) (rig (withRegs [(9, 2)]))) fun u => (thr u 1).pc == 0x203F0) = true := by decide +kernel


/-! ## The hypotheses of the statements can be met: whole-machine rules -/

theorem goes_on {i : Instr} {s : State} (h : nextAt? (exec i s) (fun _ => true) = true) : ∃ t, exec i s = .next t :=
  (next_of h).imp fun _ h => h.1

/-- An instruction with a restricted field. -/
theorem witness_DecodeEncode : (Instr.ldAcq 9 5 6 3 0 0).wf = true ∧ encode (.ldAcq 9 5 6 3 0 0) ≠ [] := by decide

/-- The bytes of its word. -/
theorem witness_DecodedIsEncoded : ∃ i n, decode [0x99, 0xA7, 0x02, 0xD8] = .ok (i, n) := ⟨_, _, rfl⟩

/-- A turn that the agenda names, and one that is due. -/
theorem witness_StepRunsDecoded :
    let s := State.reset.withFetchWord 32 0x00B52403
    let v := { s with agenda := [] }
    s.agenda = [.issue 1] ∧ v.power = true ∧ canIssue v 1 = true
    ∧ (let w := tick v (cmptOf 1) (issueCycle v 1)
       (thr w 1).async = [] ∧ (trapDue (thr w 1)).isNone = true ∧ (fetch w (tileOf 1) (thr w 1).pc).1 = [0x03, 0x24, 0xB5, 0x00])
    ∧ due v = some (.issue 1) ∧ (tile s 0).buffered = [] := by decide +kernel

/-- A step of an agent that the agenda names, and the bytes of no instruction. -/
theorem witness_StepRunsDecoded_event :
    { State.reset with agenda := [.event .powerOn] }.agenda = .event .powerOn :: [] ∧ ∃ e, decode [0x27, 0, 0, 0] = .error e :=
  ⟨rfl, _, rfl⟩

/-- The step of a placed instruction. -/
theorem witness_StepKeepsMemory : ∃ t, MemoryOk (State.reset.withFetchWord 32 0x00B52403)
    ∧ step (State.reset.withFetchWord 32 0x00B52403) = .next t :=
  have ⟨t, h, _⟩ := next_of (r := step (State.reset.withFetchWord 32 0x00B52403)) (p := fun _ => true) (by decide +kernel)
  ⟨t, by unfold MemoryOk; decide +kernel, h⟩

/-- The same in a compartment with fixed timing, in cycle 7, which starts at network time 15. -/
theorem witness_StepKeepsClock :
    let s := State.reset.withFetchWord 32 0x00B52403
    let s := setCmpt s 0 { cmpt s 0 with fixt := true, cyc := 7, t := 15 }
    (cmpt s 0).fixt = true ∧ ClockOk s ∧ ∃ t, step s = .next t := by
  refine ⟨rfl, ?_, ?_⟩
  · intro k
    by_cases h : k = 0
    · subst h; decide +kernel
    · intro hf
      have : cmpt (setCmpt (State.reset.withFetchWord 32 0x00B52403) 0
          { cmpt (State.reset.withFetchWord 32 0x00B52403) 0 with fixt := true, cyc := 7, t := 15 }) k = {} := by
        simp [cmpt, setCmpt, State.withFetchWord, State.reset, setThr, setCtx, setTile, put, lookD, look, Ne.symm h]
      rw [this] at hf
      cases hf
  · exact (next_of (p := fun _ => true) (by decide +kernel)).imp fun _ h => h.1

theorem witness_UserStaysUser : encode .nop ≠ [] ∧ (issuer (rig user)).prv = .u ∧ ∃ t, exec .nop (rig user) = .next t :=
  ⟨by decide, rfl, goes_on (by decide +kernel)⟩

theorem witness_InstructionsReachNoFurther : encode .nop ≠ [] ∧ namesThread .nop = false ∧ Single (rig user)
    ∧ (issuer (rig user)).held = none ∧ ∃ t, exec .nop (rig user) = .next t :=
  ⟨by decide, rfl, rfl, rfl, goes_on (by decide +kernel)⟩

theorem witness_PowerLosesState : { State.reset with power := false }.power = false ∧ (rig user).power = true := ⟨rfl, rfl⟩

/-! ## Integer, address and control instructions -/

/-- Any registers of the small state, the destination among the sources; x0 as a destination. -/
theorem witness_IntegerArithmetic : Ready (rig user) .u [10, 11, 12, 10] ∧ Ready (rig user) .u [10, 11, 0] ∧ Ready (rig user) .u [31, 1] :=
  ⟨ready_of (by decide +kernel), ready_of (by decide +kernel), ready_of (by decide +kernel)⟩

theorem witness_BitsAndProducts : Ready (rig user) .u [10, 11, 12, 9] ∧ Ready (rig user) .u [10, 11, 0] :=
  ⟨ready_of (by decide +kernel), ready_of (by decide +kernel)⟩

/-- Even and odd targets. -/
theorem witness_ControlFlow :
    let s := rig (withRegs [(1, 0x20400), (10, 0x20401), (11, 0x20402)])
    Ready s .u [10, 9] ∧ Ready s .u [11, 1] ∧ Ready s .u [1] ∧ (reg s 10 + 0).getLsbD 0 = true ∧ (reg s 11 + 0).getLsbD 0 = false
    ∧ (reg s 1).getLsbD 0 = false ∧ (reg (rig (withRegs [(1, 3)])) 1).getLsbD 0 = true ∧ Ready (rig (withRegs [(1, 3)])) .u [1, 9] :=
  ⟨ready_of (by decide +kernel), ready_of (by decide +kernel), ready_of (by decide +kernel), by decide +kernel, by decide +kernel,
    by decide +kernel, by decide +kernel, ready_of (by decide +kernel)⟩

/-- The other window empty, and resident; a handler for `pfx`. -/
theorem witness_WindowsAndPrefix :
    Ready (rig user) .u [] ∧ (issuer (rig user)).spillFault = none ∧ (issuer (rig user)).pend = [] ∧ (issuer (rig user)).olive = false
    ∧ (issuer (rig user)).depth = 0 ∧ (issuer (rig user)).it = false
    ∧ Ready (rig { user with olive := true, depth := 1 }) .u [] ∧ (issuer (rig { user with olive := true, depth := 1 })).olive = true
    ∧ (issuer (rig { user with olive := true, depth := 1 })).depth ≠ 0
    ∧ Ready (rig { user with it := true }) .u [] ∧ (issuer (rig { user with it := true })).it = true :=
  ⟨ready_of (by decide +kernel), rfl, rfl, rfl, rfl, rfl, ready_of (by decide +kernel), rfl, by decide +kernel,
    ready_of (by decide +kernel), rfl⟩


/-! ## Memory and streams -/

/-- The same machine with a page of context 1: virtual 0x10000 on the local stores of cores 0 and 1, RC. -/
def mapped (t : Thread) : State :=
  let s := rig t
  { s with tiles := [(0, { tlb := [{ ctx := 1, va := 0x10000, size := 0x10000, tier := .on, ord := .rc, pkg := 0, gen := 0
                                     pa := 0x80_0000_0000, s := false, w := true, rd := true }] })] }

/-- Words of core 0's local store, written from an offset on. -/
def stored (s : State) (off : Nat) (ws : List Word) : State :=
  { s with mem := (ws.foldl (fun (a : List Cell × Nat) w => (setBytes a.1 a.2 8 w.toNat, a.2 + 8)) (s.mem, 0x80_0000_0000 + off)).1 }

theorem clear_of {s : State} {q : Ask} {ps : List Piece} (hc : checkAsk (base s) s.cur q = .ok ps (base s))
    (h : ((accessWait (base s) s.cur q ps).isNone && (!q.migrates || stays (base s) s.cur
        || ps.head?.any fun p => match reachOf (base s) (cmptOf s.cur) p with | .far _ => false | _ => true)) = true) :
    Clear s q ps := by
  simp only [Bool.and_eq_true, Bool.not_eq_true', Bool.or_eq_true, Option.isNone_iff_eq_none] at h
  obtain ⟨h1, h2⟩ := h
  refine ⟨hc, h1, ?_⟩
  rcases h2 with (h | h) | h
  · exact .inl h
  · exact .inr (.inl h)
  · refine .inr (.inr fun p c hp hr => ?_)
    rw [hp] at h
    simp only [Option.any_some, hr] at h
    cases h

/-- x10 in the page, 8 bytes before the end of core 0's store, so that the piece and its home differ from the address. -/
def loads : State := mapped (withRegs [(10, 0x17FF8), (11, 5), (2, 0x10000), (12, 7)])

theorem witness_LoadsAndStores :
    Ready loads .u [10, 9] ∧ Single loads
    ∧ (∃ ps, Clear loads { kind := .load, va := reg loads 10 + 0, size := 8, op := fun _ _ => .read, dests := [⟨9, 0, 8, true⟩]
                           migrates := true, next := nextAt loads 4 } ps)
    ∧ (∃ ps, Clear loads { kind := .load, acq := true, va := reg loads 10 + 4, size := 4, op := fun _ _ => .read, dests := [⟨9, 0, 4, true⟩]
                           next := nextAt loads 4 } ps)
    ∧ Ready loads .u [10, 11]
    ∧ (∃ ps, Clear loads { kind := .store, va := reg loads 10 + 7, size := 1, next := nextAt loads 4
                           op := fun n o => .write ((reg loads 11).toNat / 2 ^ (8 * o) % 2 ^ (8 * n)) } ps)
    ∧ (∃ ps, Clear loads { kind := .store, rel := true, va := reg loads 10 + 0, size := 8, next := nextAt loads 4
                           op := fun n o => .write ((reg loads 11).toNat / 2 ^ (8 * o) % 2 ^ (8 * n)) } ps) :=
  ⟨ready_of (by decide +kernel), rfl, ⟨_, clear_of rfl (by decide +kernel)⟩, ⟨_, clear_of rfl (by decide +kernel)⟩,
    ready_of (by decide +kernel), ⟨_, clear_of rfl (by decide +kernel)⟩, ⟨_, clear_of rfl (by decide +kernel)⟩⟩

theorem witness_MultiplesAndAtomics :
    Single loads ∧ Ready loads .u (10 :: regsFrom 8 2) ∧ Ready loads .u (2 :: regsFrom 0 32)
    ∧ (∃ ps, Clear loads { kind := .load, va := reg loads 10 + (-8), size := 16, op := fun _ _ => .read
                           dests := (List.range 2).map fun j => ⟨8 + BitVec.ofNat 5 j, 8 * j, 8, false⟩, migrates := true
                           next := nextAt loads 4 } ps)
    ∧ (∃ ps, Clear loads { kind := .store, va := reg loads 2 + 0, size := 256, next := nextAt loads 4
                           op := fun m o => .write (joinWords ((regsFrom 0 32).map (reg loads)) / 2 ^ (8 * o) % 2 ^ (8 * m)) } ps)
    ∧ Ready loads .u [10, 11, 9] ∧ Ready loads .u [10, 11, 12, 9]
    ∧ (∃ ps, Clear loads { kind := .atomic, acq := true, rel := true, va := reg loads 10, size := 8, align := 8, dests := [⟨9, 0, 8, true⟩]
                           next := nextAt loads 4, op := fun k _ => .amo 0 ((reg loads 11).toNat % 2 ^ (8 * k)) } ps)
    ∧ (∃ ps, Clear loads { kind := .atomic, va := reg loads 10, size := 8, align := 8, dests := [⟨9, 0, 8, false⟩]
                           next := nextAt loads 4, op := fun _ _ => .cas (reg loads 12).toNat (reg loads 11).toNat } ps) :=
  ⟨rfl, ready_of (by decide +kernel), ready_of (by decide +kernel), ⟨_, clear_of rfl (by decide +kernel)⟩,
    ⟨_, clear_of rfl (by decide +kernel)⟩, ready_of (by decide +kernel), ready_of (by decide +kernel),
    ⟨_, clear_of rfl (by decide +kernel)⟩, ⟨_, clear_of rfl (by decide +kernel)⟩⟩

/-- An access in flight of thread 1, and its one request. -/
def someAcc : Access :=
  { tid := 1, ctx := 1, launch := none, left := 1, dests := [⟨9, 0, 8, true⟩], posted := false, covered := true, blocks := false
    far := false, lo := 0x10000, size := 8, next := 0x20404 }
def someReq : Req :=
  { acc := 3, tid := 1, ctx := 1, cgen := 0, pkg := 0, pa := 0x80_0000_0000, len := 8, off := 0, op := .read, gen := some 0, src := 0
    transit := 1, earliest := 18 }

theorem not_window {pa : Nat} {c o : Nat} (h : placeOf pa = .store c o) : ∀ t o', placeOf pa ≠ .regs t o' ∧ placeOf pa ≠ .mill t o' := by
  intro t o'
  rw [h]
  exact ⟨nofun, nofun⟩

theorem witness_ServiceAtHomes :
    let s := { mapped user with accs := [(3, someAcc)], reqs := [(4, someReq)] }
    MemoryOk s ∧ s.flaws = [] ∧ (∀ t o, placeOf 0x80_0000_7FF8 ≠ .regs t o ∧ placeOf 0x80_0000_7FF8 ≠ .mill t o)
    ∧ (∀ t o, placeOf 0x7F_FFFF_FFF8 ≠ .regs t o ∧ placeOf 0x7F_FFFF_FFF8 ≠ .mill t o) ∧ (5 : Nat) ≠ s.pkg
    ∧ look s.accs someReq.acc = some someAcc ∧ someReq.remote = false ∧ someReq.pkg = s.pkg :=
  ⟨by unfold MemoryOk; decide, rfl, not_window (c := 0) (o := 0x7FF8) (by decide +kernel),
    fun t o => by
      have h : placeOf 0x7F_FFFF_FFF8 = .hbm := by decide +kernel
      rw [h]; exact ⟨nofun, nofun⟩,
    by decide, rfl, rfl, rfl⟩

/-- A reply that is there, one refused as stale (in a handler and outside one), and for MultiplesAndAtomics a fence with and without an access
outstanding. -/
theorem witness_RepliesAndFences :
    let t := { user with park := some (.reply 3) }
    let a := { someAcc with left := 0, val := 7 }
    let s := { mapped t with accs := [(3, a)] }
    (s.power = true ∧ look s.accs 3 = some a ∧ a.left = 0 ∧ a.replies = 0 ∧ a.posted = false ∧ a.agent = .thread ∧ a.push = none ∧ a.lookup = none ∧ a.poisoned = false ∧ (thr s 1).doomed = false ∧ (thr s 1).it = false
    ∧ { t with it := true }.it = true ∧ (thr s 1).life = .run
    ∧ (thr s 1).park = some (.reply 3) ∧ (thr s 1).lt = false ∧ (thr s 1).qb = 0 ∧ a.stale = false
    ∧ look { s with accs := [(3, { a with stale := true })] }.accs 3 = some { a with stale := true })
    ∧ Ready (mapped user) .u [] ∧ ((accsOf (base (mapped user)) 1).any fun p => (true || p.2.covered) && (true || !p.2.posted)) = false
    ∧ Ready { mapped user with accs := [(3, a)] } .u []
    ∧ ((accsOf (base { mapped user with accs := [(3, a)] }) 1).any fun p => (true || p.2.covered) && (true || !p.2.posted)) = true :=
  ⟨by decide +kernel, ready_of (by decide +kernel), by decide +kernel,
    ready_of (by decide +kernel), by decide +kernel⟩

/-- The entries of a table that a `dcb` has read, seven cycles before its sum is written. -/
theorem witness_RepliesAndFences_lookup :
    let a := { someAcc with left := 0, val := 7, done := 17, lookup := some ⟨true, 5, 0, 9, 0x10000, 0⟩ }
    let s := { mapped { user with park := some (.reply 3) } with accs := [(3, a)] }
    look s.accs 3 = some a ∧ a.lookup = some ⟨true, 5, 0, 9, 0x10000, 0⟩ ∧ a.stale = false ∧ cycOf s (cmptOf a.tid) ≤ a.done + 1 :=
  ⟨rfl, rfl, rfl, by decide +kernel⟩

/-- A thread whose instruction has had a value from its core's own store. -/
def had (v : Nat) (t : Thread) : Thread := { t with own := some { acc := 3, got := some v } }

/-- The words that an access of a thread's gives, as `Had` takes them. -/
def wordsIn (ws : List Word) : Nat := ws.foldr (fun w n => w.toNat + 2 ^ 64 * n) 0

/-- A descriptor of 4 i32 elements, asked for at 0x10020 and had, and the first and last stream. -/
def described : State := mapped (withRegs [(10, 0x10000), (9, 3)])

theorem witness_Streams :
    (20 : Reg).toNat = 20 + 0 ∧ (23 : Reg).toNat = 20 + 3 ∧ Ready described .u [10, 9]
    ∧ (issuer described).qb.getLsbD 0 = false ∧ (stream (issuer described) 0).write = false
    ∧ Single described ∧ unacked (base described) 1 0 = false
    ∧ (stream (issuer described) 0).ahead.length ≤ 16 ∧ (stream (issuer described) 0).pos < 2 ^ 32
    ∧ (reg described 10 + (0x20 : BitVec 12).signExtend 64).toNat % 32 = 0
    ∧ (issuer described).own = none
    ∧ (∃ ps, ownStore (base described) 1 (reg described 10 + (0x20 : BitVec 12).signExtend 64) 32 .load .malformedStructure = .ok ps (base described))
    ∧ (let h := mapped (had (wordsIn [0x4000_0000_0001_0000, 0x0001_0001_0004, 0, 9]) (withRegs [(10, 0x10000), (9, 3)]))
       Ready h .u [10, 9] ∧ Had h (wordsIn [0x4000_0000_0001_0000, 0x0001_0001_0004, 0, 9]))
    ∧ (∃ y, readDescriptor 0x4000_0000_0001_0000 0x0001_0001_0004 0 9 = some y ∧ y.count = 4) :=
  ⟨rfl, rfl, ready_of (by decide +kernel), rfl, rfl, rfl, by decide +kernel, by decide +kernel, by decide +kernel, by decide +kernel, rfl, ⟨_, rfl⟩,
    ⟨ready_of (by decide +kernel), _, rfl, rfl⟩, _, rfl, rfl⟩


/-! ## Packed, floating-point and special functions -/

/-- Sixteen entries of a table at 0x10200 of the own local store. -/
theorem witness_PackedForms :
    let s := mapped (withRegs [(10, 0x0123_4567_89AB_CDEF), (11, 0x10200)])
    Ready s .u [10, 11, 9] ∧ (5#3).toNat < 6 ∧ (4#3).getLsbD 0 = false ∧ Ready s .u [10, 11, 12, 9] ∧ pendingPfx (issuer s) = none
    ∧ (3#3).toNat < 4 ∧ Single s ∧ (reg s 11).toNat % 512 = 0 ∧ (reg s 11).toNat + 512 ≤ 2 ^ 52
    ∧ (let parts := (List.range 16).map fun m => ((reg s 11 + BitVec.ofNat 64 (32 * m + 2 * lane (reg s 10) 4 m)).toNat, 2, 2 * m)
       (∃ ps, ownParts (base s) 1 .load .tier parts = .ok ps ∧ orderHeld (base s) 1 ps false = false)
       ∧ ∀ e ∈ parts, aboveMark (base s) 0 1 (BitVec.ofNat 64 e.1).toNat 2 = false) :=
  ⟨ready_of (by decide +kernel), by decide, by decide, ready_of (by decide +kernel), rfl, by decide, rfl, by decide +kernel,
    by decide +kernel, ⟨_, rfl, by decide +kernel⟩, by decide +kernel⟩

/-- A pending prefix that each group of forms accepts. -/
theorem accepted {t : Thread} {p : BitVec 10} {rs : List Reg} {g : Nat → Bool} (h1 : pendingPfx (issuer (rig t)) = some p)
    (h2 : g p.toNat = true) (h3 : (allows .u (issuer (rig t)).prv && !pendingOn (issuer (rig t)) rs
      && rs.all fun r => (boundAt (issuer (rig t)) r).isNone) = true) : Ready (rig t) .u rs g := by
  simp only [Bool.and_eq_true, Bool.not_eq_true', List.all_eq_true, Option.isNone_iff_eq_none] at h3
  exact ⟨rfl, h3.1.1, (fun x hx => by rw [h1] at hx; cases hx; exact h2), .inr h3.1.2, h3.2⟩

/-- With and without a prefix, and with a NaN among the operands of the fused forms. -/
theorem witness_FloatArithmetic :
    let t := { user with pp := true, pfx := 0x2FD }
    let n := withRegs [(10, 0x7FC0_0000)]
    Ready (rig t) .u [10, 11, 9] fpAccepts ∧ Ready (rig user) .u [10, 9] fpAccepts1 ∧ Ready (rig user) .u [10, 11, 9] cmpAccepts
    ∧ Ready (rig t) .u [10, 11, 12, 9] fpAccepts
    ∧ (let (a, b, d) := typesOf 0 (pendingPfx (issuer (rig t)))
       fval a (reg (rig t) 10).toNat ≠ .nan ∧ fval b (reg (rig t) 11).toNat ≠ .nan ∧ fval d (reg (rig t) 12).toNat ≠ .nan)
    ∧ Ready (rig n) .u [10, 11, 12, 9] fpAccepts ∧ fval (typesOf 0 (pendingPfx (issuer (rig n)))).1 (reg (rig n) 10).toNat = .nan
    ∧ Ready (rig user) .u [10, 11, 9] :=
  ⟨accepted (p := 0x2FD) rfl (by decide +kernel) (by decide +kernel), ready_of (by decide +kernel), ready_of (by decide +kernel),
    accepted (p := 0x2FD) rfl (by decide +kernel) (by decide +kernel), by decide +kernel, ready_of (by decide +kernel), by decide +kernel,
    ready_of (by decide +kernel)⟩

theorem witness_FloatConversions :
    Ready (rig user) .u [10, 11, 9] ∧ fval (fmtOfCvt 0) (reg (rig (withRegs [(10, 0x3F80_0000)])) 10).toNat = .fin false (2 ^ 23) (-23)
    ∧ fval (fmtOfCvt 0) (reg (rig (withRegs [(10, 0x7FC0_0000)])) 10).toNat = .nan ∧ e5m2 ∈ [f32, bf16, f16, e4m3, e5m2] ∧ 255 < 2 ^ e5m2.width
    ∧ fval (fmtOfPfx 12) 0x7F = .nan ∧ fval (fmtOfPfx 8) 0x7F80_0000 ≠ .nan ∧ fval (fmtOfPfx 11) 0x7E ≠ .nan :=
  ⟨ready_of (by decide +kernel), by decide +kernel⟩

/-- A value that e4m3 rounds, and a value of f32. -/
theorem witness_RoundingIsCorrect :
    (roundTo e4m3 .nearest (.fin false 17 (-4))).2.ofl = false ∧ (roundTo e4m3 .nearest (.fin false 17 (-4))).2.nx = true
    ∧ (roundTo f32 .down (.fin true 3 (-1))).2.ofl = false ∧ (roundTo f32 .down (.fin true 3 (-1))).2.nx = false
    ∧ (∃ n k j, fval e4m3 0x7E = .fin n k j) := by
  refine ⟨by decide +kernel, by decide +kernel, by decide +kernel, by decide +kernel, false, 14, 5, by decide +kernel⟩

/-- Overflow to an infinity, to the greatest value of a format with infinities, and of the one without. -/
theorem witness_Overflow :
    (roundTo f32 .nearest (.fin false 1 128)).2.ofl = true ∧ (roundTo f32 .up (.fin true 1 128)).2.ofl = true
    ∧ (roundTo f16 .zero (.fin true 1 16)).2.ofl = true ∧ (roundTo e4m3 .nearest (.fin false 1 9)).2.ofl = true
    ∧ (roundTo e5m2 .down (.fin true 1 16)).2.ofl = true := by decide +kernel

theorem witness_SpecialFunctions :
    Ready (rig user) .u [10, 9] sfuAccepts ∧ (9 : Reg) ≠ 0 ∧ (ringAt (tile (rig user) 0) (cyc (rig user))).length < 64
    ∧ ((issuer (rig user)).pend.filter fun p => p.sfu).length < 4 :=
  ⟨ready_of (by decide +kernel), by decide, by decide +kernel⟩

/-! ## The mill and residues -/

/-- Bases and descriptors of one 16 by 16 block, whole. -/
def blocks : State := mapped (withRegs [(10, 0x10000), (11, 0x0080_4000_0000_0000), (12, 0x10100), (13, 0x0080_0000_0000_0000),
  (14, 0x0081_0000_0000_0000)])

/-- A mill instruction of thread 1. -/
def millOp (k : MillKind) (acc : Nat) (a0 a1 b0 b1 : Word) : MillOp :=
  { kind := k, tid := 1, ctx := 1, launch := none, seq := 0, acc := acc, opt := 0, a0 := a0, a1 := a1, b0 := b0, b1 := b1 }

theorem witness_MillIssue :
    let w (r : Reg) := reg blocks r
    Single blocks ∧ Ready blocks .u [10, 11, 12, 13] mmaAccepts ∧ Ready blocks .u [10, 11, 12, 13] ∧ Ready blocks .u [10, 14] ∧ Ready blocks .u [10]
    ∧ (∀ k ∈ [MillKind.mma, .mmas, .mmr, .mmcb], (millChecks (base blocks) 1 (millOp k 15 (w 10) (w 11) (w 12) (w 13))).isNone = true)
    ∧ (∀ k ∈ [MillKind.mld, .mst, .mfin], (millChecks (base blocks) 1 (millOp k 15 (w 10) 0 (w 14) 0)).isNone = true)
    ∧ (∀ k ∈ [MillKind.mzero, .manc, .mscl, .mcbt], (millChecks (base blocks) 1 (millOp k 15 (w 10) 0 0 0)).isNone = true) :=
  ⟨rfl, ready_of (by decide +kernel), ready_of (by decide +kernel), ready_of (by decide +kernel), ready_of (by decide +kernel),
    by decide +kernel⟩

/-- Nothing outstanding, and a held instruction. -/
theorem witness_MillProgress :
    let h : Held := ⟨{ millOp .mzero 0 0 0 0 0 with seq := 4, p := 16 }, [], 0⟩
    let s := rig { user with held := some h }
    Ready (rig user) .u [10, 9] ∧ millWaits (base (rig user)) 1 0 = false ∧ (issuer (rig user)).held = none
    ∧ Ready s .u [10, 9] ∧ (issuer s).held = some h ∧ h.op.p ≤ 64 ∧ h.op.tid = s.cur ∧ (issuer s).life = .run ∧ (issuer s).ctx = h.op.ctx :=
  ⟨ready_of (by decide +kernel), by decide +kernel, rfl, ready_of (by decide +kernel), rfl, by decide, rfl, rfl, rfl⟩

/-- The contribution 3 of a product 3.5 in units of 1, and one out of range. -/
theorem witness_ProductsEnter :
    ((3 : Int) : Rat) ≤ (FVal.fin false 7 (-1)).toRat / (FVal.fin false 1 0).toRat
    ∧ (FVal.fin false 7 (-1)).toRat / (FVal.fin false 1 0).toRat < (3 : Int) + 1
    ∧ ((2 ^ 127 : Int) : Rat) ≤ (FVal.fin false 1 127).toRat / (FVal.fin false 1 0).toRat
    ∧ (FVal.fin false 1 127).toRat / (FVal.fin false 1 0).toRat < (2 ^ 127 : Int) + 1
    ∧ [(FVal.nan, false), (.inf true, true)].Perm [(.inf true, true), (.nan, false)]
    ∧ 0 < (mulDesc 0x0080_4000_0000_0000 0x0080_0000_0000_0000).cv := by
  exact ⟨by decide +kernel, by decide +kernel, by decide +kernel, by decide +kernel, .swap .., by decide +kernel⟩

/-- One that the mill can accept, one that asks for its first row, a stored row, one whose row has been read (of a multiply and of an
`mld`), one that is done (of each kind), and one that met a fault. -/
theorem witness_MillSteps :
    let o := { millOp .mma 0 0x10000 0x0080_4000_0000_0000 0x10100 0x0080_0000_0000_0000 with
      seq := 1, rowsB := List.replicate 16 (List.replicate 16 0) }
    let z := { millOp .mzero 3 0 0 0 0 with seq := 2 }
    let on (x : Tile) : State := { mapped user with tiles := [(0, { x with tlb := (tile (mapped user) 0).tlb })] }
    let a := on { dispatched := [z] }
    let b := on { millQ := [o] }
    let r := { on { millQ := [o], row := some (3, {}) } with accs := [(3, { someAcc with left := 0, posted := true })] }
    let c := on { millQ := [z] }
    let m := on { millQ := [{ z with kind := .manc, a0 := 0xFFEC }] }
    let f := on { millQ := [o], pipeFault := some (.permission, 0x10000) }
    let st := { millOp .mst 0 0x10000 0 0x0081_0000_0000_0000 0 with seq := 3 }
    let ld := { st with kind := .mld }
    let sc := { z with kind := .mscl, a0 := 0xFFEC }
    (tile a 0).millQ.length < 64 ∧ nextAccepted (tile a 0) = some z ∧ windowWaits a 0 z = false
    ∧ (tile b 0).pipeFault = none ∧ (tile b 0).row = none ∧ engineHeld b o.tid o.before = false
    ∧ (∃ va n ps u, nextRow (tile b 0) o = some (va, n, none) ∧ 0 < n ∧ aboveMark b 0 1 va.toNat n = false
      ∧ piecesNow b ⟨0, 0, 1, .u⟩ .load va n = (.ok ps, u)
      ∧ ∀ p ∈ ps, isWindow (placeOf p.pa) = false ∧ admitted u p.pkg p.pa p.gen ≠ .stale)
    ∧ (tile r 0).row = some (3, {}) ∧ look r.accs 3 = some { someAcc with left := 0, posted := true } ∧ someAcc.replies = 0
    ∧ someAcc.poisoned = false ∧ someAcc.stale = false ∧ rowsB o ≤ o.rowsB.length
    ∧ (tile c 0).millQ = [z] ∧ rowsB z ≤ z.rowsB.length ∧ rowsOf z ≤ z.p ∧ (tile m 0).millQ ≠ []
    ∧ (tile f 0).pipeFault = some (.permission, 0x10000) ∧ (thr f 1).serial = o.serial ∧ (thr f 1).life = .run
    ∧ Cause.permission.contains = false
    ∧ isSt st = false ∧ (∃ va n v fl, nextRow (tile b 0) st = some (va, n, some (v, fl))) ∧ 0 < (blockDesc st.b0).cv ∧ isSt ld = false
    ∧ rowsB sc ≤ sc.rowsB.length ∧ rowsOf sc ≤ sc.p ∧ accsNamed sc ≠ [] ∧ rowsOf o ≠ 0 ∧ { o with flags := { nx := true } }.flags ≠ {} :=
  ⟨by decide +kernel, by decide +kernel, by decide +kernel, rfl, rfl, by decide +kernel,
    ⟨_, _, _, _, rfl, by decide +kernel, by decide +kernel, rfl, by decide +kernel⟩,
    rfl, rfl, rfl, rfl, rfl, by decide +kernel, rfl, by decide +kernel, by decide +kernel, by decide +kernel, rfl, rfl, rfl, rfl, rfl,
    ⟨_, _, _, _, rfl⟩, by decide +kernel⟩

theorem witness_ResidueForms :
    let s := rig (withRegs [(10, 0x9140_C518_5B90_1090), (11, 1000000), (12, 0x9140_C518_5C91_1090), (13, 1000000)])
    let f := rig { firm with g := [] }
    Ready s .u [10, 11, 12, 13, 16, 17] ∧ residueOk (base s) 0 (issuer s).ctx = true ∧ Ready s .u [10, 11, 16, 17]
    ∧ rnsDecode (tile s 0) (reg s 10) (reg s 11).toNat ≠ .uncorr ∧ rnsDecode (tile s 0) (reg s 12) (reg s 13).toNat = .uncorr
    ∧ Ready f .f [10, 11, 9] ∧ mapOk 0 = true ∧ (reg f 11).toNat < 2048 ∧ ((tile f 0).millQ.any fun o => o.kind == .mmr) = false
    ∧ s.power = true ∧ (issuer s).prv ≠ .f :=
  ⟨ready_of (by decide +kernel), by decide +kernel, ready_of (by decide +kernel), by decide +kernel, by decide +kernel,
    ready_of (by decide +kernel), by decide +kernel, by decide +kernel, by decide +kernel, rfl, by decide +kernel⟩

/-- The greatest value, with one byte wrong. -/
theorem witness_ResidueCode :
    let v : Int := 105252413875823
    let m (c : Nat) : Int := [253, 251, 247, 241, 239, 233, 256, 255].getD c 256
    let w : Word := (List.range 8).foldr (fun c n => n * 256 + BitVec.ofInt 64 (v % m c)) 0
    v.natAbs ≤ 105252413875823 ∧ (∀ c < 8, ((w.extractLsb' (8 * c) 8).toNat : Int) = v % m c)
    ∧ (let x := w ^^^ 0x0100_0000_0000_0000
       ¬((x.extractLsb' 56 8).toNat : Int) = v % m 7 ∧ ∀ c < 8, c ≠ 7 → ((x.extractLsb' (8 * c) 8).toNat : Int) = v % m c) := by
  decide +kernel


/-! ## Messages, threads, crews, semaphores and channels -/

/-- The first message of R376's example, with a multicast mask of one core and of none, and a system-class start. -/
theorem witness_Sends :
    let s := rig (withRegs [(10, 0x5200_0025_0000_0000), (11, 1), (13, 0x8000_0000_0001_0000), (24, 0xA), (25, 0xB)])
    let f := rig (withRegs [(13, 0x8000_0000_0001_0000)] firm)
    Single s ∧ Ready s .u (10 :: 9 :: payRegs 24 (reg s 10)) ∧ msgOk 24 (reg s 10) false = true
    ∧ (((msgDesc (reg s 10)).tgt = 2 → (issuer s).prv = .f) ∧ receiver (base s) 1 (msgDesc (reg s 10)) = some 37
    ∧ (Machine.core s 0).sendQ.length < 16)
    ∧ Ready s .u (10 :: 11 :: 9 :: payRegs 24 (reg s 10)) ∧ (msgOk 24 (reg s 10) true = true ∧ (reg s 11).toNat < 2 ^ 32
    ∧ receivers (base s) 1 (reg s 11).toNat 37 false = some [37] ∧ receivers (base s) 1 (reg s 12).toNat 37 false = some [])
    ∧ Ready s .u (13 :: 9 :: payRegs 24 (reg s 13)) ∧ (msgDesc (reg s 13)).tgt = 2 ∧ (issuer s).prv ≠ .f
    ∧ Ready f .u (13 :: 9 :: payRegs 24 (reg f 13)) ∧ msgOk 24 (reg f 13) false = true ∧ (issuer f).prv = .f
    ∧ receiver (base f) 1 (msgDesc (reg f 13)) = some 0 :=
  ⟨rfl, ready_of (by decide +kernel), by decide +kernel, by decide +kernel, ready_of (by decide +kernel), by decide +kernel,
    ready_of (by decide +kernel), by decide +kernel, by decide +kernel, ready_of (by decide +kernel), by decide +kernel, rfl, by decide +kernel⟩

/-- An entry in the landing of core 0. -/
def entry : LandEntry :=
  { kind := 1, len := 16, prio := 1, mcast := false, pkg := 0, seq := 1, stid := 0x123, ctx := 1, data := List.replicate 16 7 }
def landed : State :=
  let s := mapped (withRegs [(10, 0x10000), (11, 0x0000_0001_4000_0123)])
  { s with cores := [(0, { landing := [entry] })] }

/-- Destinations 12, 31 and 0; with no area, with one that the entry is still to be stored to, and with one that it has been stored to. -/
theorem witness_LandingTakes :
    (12 : Reg) ≠ 31 ∧ (12 : Reg) ≠ 0 ∧ Ready landed .u [0, 11, 0, 1] ∧ Ready landed .u [0, 11, 31, 0] ∧ (issuer landed).own = none
    ∧ (Machine.core landed 0).takeAt ≤ cyc landed ∧ Ready landed .u [0, 11, 12, 13] ∧ Ready landed .u [10, 11, 12, 13] ∧ Single landed
    ∧ firstEntry (eligibleEntry (base landed) 1 0b0010) (leftFor (base landed) 1 (parkedSince (issuer landed)) false) = some (0, entry)
    ∧ firstEntry (eligibleEntry (base landed) 1 0b0010) (leftFor (base landed) 1 none false) = some (0, entry)
    ∧ firstEntry (eligibleEntry (base landed) 1 0b1101) (leftFor (base landed) 1 none false) = none
    ∧ keyOk (reg landed 11).toNat = true
    ∧ keyEntry (base landed) 1 (reg landed 11) (leftFor (base landed) 1 (parkedSince (issuer landed)) true) = some (0, entry)
    ∧ (Machine.core landed 0).heldRecs = [] ∧ (reg landed 10).toNat % 8 = 0
    ∧ (∃ ps, ownStore (base landed) 1 (reg landed 10) 64 .store .tier = .ok ps (base landed))
    ∧ (∃ t, exec (.lndGet 12 10 0 0b0010) landed = .next t)
    ∧ (let o : OwnAccess := { acc := 3, entry := some entry, got := some 0 }
       let h := { landed with threads := [(1, { thr landed 1 with own := some o })] }
       Ready h .u [10, 11, 12, 13] ∧ (issuer h).own = some o) :=
  ⟨by decide, by decide, ready_of (by decide +kernel), ready_of (by decide +kernel), rfl, by decide +kernel, ready_of (by decide +kernel),
    ready_of (by decide +kernel), rfl, by decide +kernel, by decide +kernel,
    by decide +kernel, by decide +kernel, by decide +kernel, rfl, by decide +kernel, ⟨_, rfl⟩, goes_on (by decide +kernel),
    ready_of (by decide +kernel), rfl⟩

theorem witness_LandingCounts : Ready landed .u [9] ∧ Single landed
    ∧ ∀ p < 4, ((Machine.core landed 0).landing.filter fun e => e.prio == p && e.ctx == (issuer landed).ctx).length ≤ 16 :=
  ⟨ready_of (by decide +kernel), rfl, by decide +kernel⟩

/-- A task record to be read at 0x10040, and one that has been; a deck with room and a full one; a core whose slots are all taken while a start waits. -/
def record : List Word := [0x400, 1, 2, 3, 4, 5, 6, 7]
def spawning : State := mapped (had (wordsIn record) (withRegs [(10, 0x10040), (11, 1)]))
def fullDeck : State := { spawning with cores := [(0, { deck := List.replicate 64 ⟨[0x400], 1, none, 0⟩ })] }
def busy : State :=
  { spawning with
    threads := (1, thr spawning 1) :: (List.range 14).map fun i => (i + 2, user)
    cores := [(0, { deck := [⟨[0x400], 1, none, 0⟩], pairQ := [⟨0, 0, 1, none⟩] })] }

theorem witness_ThreadControl :
    Ready spawning .u [10, 9] ∧ Single spawning ∧ Ready spawning .u [11, 9] ∧ Ready spawning .u [12, 9]
    ∧ (reg spawning 12).toNat < 2 ^ 14 ∧ physCore (base spawning) 1 (reg spawning 12).toNat = some 0
    ∧ physCore (base spawning) 1 (reg spawning 11).toNat = some 1 ∧ stays (base spawning) 1 = false ∧ (issuer spawning).spillFault = none
    ∧ departReady (base spawning) 1 = true
    ∧ Had spawning (wordsIn record) ∧ wordsIn record % 2 ^ 64 = 0x400 ∧ (reg spawning 10).toNat % 64 = 0
    ∧ (let a := mapped (withRegs [(10, 0x10040)])
       Ready a .u [10, 9] ∧ (issuer a).own = none ∧ ∃ ps, ownStore (base a) 1 (reg a 10) 64 .load .tier = .ok ps (base a))
    ∧ releaseHeld (base spawning) 1 = false ∧ (Machine.core spawning 0).deck.length < 64 ∧ 64 ≤ (Machine.core fullDeck 0).deck.length
    ∧ ending (issuer spawning) = false ∧ slotFree (base spawning) 0 = true
    ∧ Ready busy .u [10, 9] ∧ slotOf 1 ≠ 0 ∧ slotFree (base busy) 0 = false ∧ startWaits (base busy) 0 = true ∧ (Machine.core busy 0).deck.length < 64
    ∧ (issuer busy).held = none ∧ (issuer busy).pend = [] ∧ unretired busy 1 = [] ∧ accsOf busy 1 = [] :=
  ⟨ready_of (by decide +kernel), rfl, ready_of (by decide +kernel), ready_of (by decide +kernel), by decide +kernel, by decide +kernel,
    by decide +kernel, by decide +kernel, rfl, by decide +kernel, ⟨_, rfl, rfl⟩, by decide +kernel, by decide +kernel,
    ⟨ready_of (by decide +kernel), rfl, _, rfl⟩, by decide +kernel, by decide +kernel, by decide +kernel,
    by decide +kernel, by decide +kernel, ready_of (by decide +kernel), by decide +kernel⟩

/-- No crew; a crew of the thread alone; one of another thread; one of both; a thread in four crews; the barriers of R156. -/
def crewed (members : List Nat) (t : Thread := user) (b : Tab Barrier := []) : State :=
  let s := rig (withRegs [(10, 3 * 2 ^ 16 + 5), (11, 2), (12, 3)] t)
  { s with ctxs := [(1, { ctx s 1 with crews := [(3, ⟨members⟩)], bars := b })] }
def inFour : Thread := { user with crew := [some 5, some 6, some 7, some 8] }

theorem witness_CrewsAndBarriers :
    let s := rig (withRegs [(12, 3)])
    let x (s : State) := ctx s 1
    Ready s .u [12] ∧ Single s ∧ (reg s 12).toNat < 2 ^ 15 ∧ look (x s).crews 3 = none ∧ crewsFull (issuer s) = false
    ∧ crewsFull (issuer (rig (withRegs [(12, 3)] inFour))) = true
    ∧ look (x (crewed [1])).crews 3 = some ⟨[1]⟩ ∧ look (x (crewed [2])).crews 3 = some ⟨[2]⟩ ∧ look (x (crewed [1, 2])).crews 3 = some ⟨[1, 2]⟩
    ∧ crewsFull (issuer (crewed [2] inFour)) = true ∧ rising (x (crewed [1])).crews = true
    ∧ (let c := crewed [1]
       Ready c .u [10, 11, 9] ∧ (reg c 10).toNat < 2 ^ 31 ∧ isMember (x c) 3 1 = true ∧ look (x c).bars 5 = none
       ∧ (reg c 11).toNat = 0 * 2 ^ 16 + 2)
    ∧ (let b : Barrier := { crew := 3, scope := 0, e := 2 }
       let c := crewed [1] user [(5, b)]
       look (x c).bars 5 = some b ∧ releaseHeld (base c) 1 = false ∧ (arrive b false).isSome = true
       ∧ (arrive { b with a0 := 2, a1 := 2, c0 := 1 } false).isNone = true ∧ (reg c 11).toNat < 2 ^ 32
       ∧ phaseDone { b with p := 3 } 2 = true ∧ phaseDone b 2 = false ∧ (2 : BitVec 32) ≠ b.p ∧ (2 : BitVec 32) ≠ b.p + 1) :=
  ⟨ready_of (by decide +kernel), rfl, by decide +kernel, rfl, by decide +kernel, by decide +kernel, rfl, rfl, rfl, by decide +kernel,
    by decide +kernel, ⟨ready_of (by decide +kernel), by decide +kernel, by decide +kernel, rfl, by decide +kernel⟩,
    by decide +kernel⟩

/-- The cases of `arrive` where its clauses meet. -/
theorem witness_CrewsAndBarriers_arrive :
    let b : Barrier := { crew := 3, scope := 0, e := 2 }
    b.a0 + 1 < b.e ∧ (let c := { b with a0 := 1, c0 := 1 }; c.a0 + 1 = c.e ∧ 0 < c.c0)
    ∧ (let c := { b with a0 := 1 }; c.a0 + 1 = c.e ∧ c.c0 = 0 ∧ c.a1 < c.e - (c.d0 + 1))
    ∧ (let c := { b with a0 := 2, c0 := 1 }; c.e ≤ c.a0 ∧ c.a1 < c.e - c.d0 ∧ (c.a0 ≠ c.e ∨ 0 < c.c0))
    ∧ (let c := { b with a0 := 2, c0 := 1, a1 := 2 }; c.e ≤ c.a0 ∧ c.e - c.d0 ≤ c.a1) := by decide

theorem witness_StageUnits :
    let s := { rig (withRegs [(10, 15), (11, 0xFFFF), (12, 7)] { user with prv := .s }) with
      tiles := [(0, { sems := [(15, 1)] })], cores := [(0, { chq := [(7, [⟨3, 1, 0⟩])] })] }
    Ready s .u [10, 11, 9] ∧ Single s ∧ (reg s 10).toNat < 16 ∧ (reg s 11).toNat < 2 ^ 16 ∧ releaseHeld (base s) 1 = false
    ∧ waitersBefore (base s) 1 15 (parkedSince (issuer s)) < lookD (tile s 0).sems 15 0
    ∧ (lookD (Machine.core s 0).chq 7 []).length < 16 ∧ lookD (Machine.core s 0).chq 7 [] = [⟨3, 1, 0⟩]
    ∧ Ready s .u [12, 0, 9] ∧ allows .s (issuer s).prv = true ∧ (reg s 12).toNat < 8 ∧ roleOk (reg s 0).toNat = true :=
  ⟨ready_of (by decide +kernel), rfl, by decide +kernel, by decide +kernel, by decide +kernel, by decide +kernel, by decide +kernel, rfl,
    ready_of (by decide +kernel), rfl, by decide +kernel⟩


/-! ## The net machine -/

/-- A launch with a node pool from offset 0x200 of each local store on. -/
def launch : Launch :=
  { ctx := 1, part := 0, seq := 0, det := false, fixt := false, nsteal := false, nrcst := false, nsb := false, ccnt := 1, tag := 0
    xinit := [], sf := 0, noff := 0x200, nsz := 64, coff := 0, csz := 0, rsz := 0, rbase := 0, etgt := false, eprio := 0, ecore := 0
    wsz := 0, wbase := 0, seed := 0, lists := [], roles := [], gone := [], running := true }

/-- A node at 0x10100 with a given header, a payload whose refcount stands at 0x10140, and port words in registers. -/
def net (header refc : Word) (l : Launch := launch) : State :=
  let s := stored (stored (mapped { withRegs [(10, 0x10100), (11, 0x10140 / 64), (12, 0x4000_0000_0001_0100), (13, 0xC000_0000_0000_0000),
    (14, 0xA000_0000_0000_0007), (15, 0x2000_0000_0001_0100), (16, 16 * 2 ^ 56), (17, 2 * 2 ^ 56)] with launch := some 7 }) 0x100 [header]) 0x140 [refc]
  { s with launches := [(7, l)], ctxs := [(1, { ctx s 1 with v0 := 0x10000 })] }

theorem plain_of {s : State} {pkg pa : Nat} (h : (Memory.wf s.mem && s.flaws.isEmpty) = true)
    (hp : pkg ≠ s.pkg ∨ (match placeOf pa with | .regs _ _ => false | .mill _ _ => false | _ => true) = true) : Plain s pkg pa := by
  simp only [Bool.and_eq_true, List.isEmpty_iff] at h
  refine ⟨h.1, h.2, hp.imp id fun hp t o => ?_⟩
  constructor <;> intro e <;> rw [e] at hp <;> cases hp

/-- A block, an empty pool, a node and a payload, with nothing under way. -/
theorem witness_NetInstructions_pools :
    let s := net 0 0
    let u := base s
    let q : Ask := { kind := .store, va := 0x10200, size := 32, op := fun _ _ => .write 0, next := nextAt s 4 }
    let n := netAsk .atomic false (reg s 10) .free
    let c := netAsk .atomic true (BitVec.ofNat 64 ((reg s 11).toNat * 64)) (.count true)
    let at_ (off n : Nat) : Piece := ⟨0, 0x80_0000_0000 + off, n, 0, some 0, .rc⟩
    Single s ∧ (issuer s).launch = some 7 ∧ (issuer s).net = none ∧ Ready s .u [9]
    ∧ (∃ p, takeBlock (poolOf u 0 7 true) 32 = some (0x200, p))
    ∧ takeBlock (poolOf (base (net 0 0 { launch with nsz := 0 })) 0 7 true) 32 = none
    ∧ BitVec.ofNat 64 ((ctx s 1).v0 + logicalTid u 1 / 16 * 0x8000 + 0x200) = 0x10200
    ∧ netPiece u 1 (some .store) 0x10200 32 = .ok (at_ 0x200 32) u ∧ accessWait u 1 q [at_ 0x200 32] = none
    ∧ Ready s .u [10] ∧ netPiece u 1 (some .atomic) (reg s 10) 32 = .ok (at_ 0x100 32) u ∧ accessWait u 1 n [at_ 0x100 8] = none
    ∧ Ready s .u [11, 9] ∧ (reg s 11).toNat < 2 ^ 40 ∧ checkAsk u 1 c = .ok [at_ 0x140 8] u ∧ accessWait u 1 c [at_ 0x140 8] = none
    ∧ (∃ k c off, pooled s (some 7) 0 0x80_0000_0220 true = some (k, c, off)) :=
  ⟨rfl, rfl, rfl, ready_of (by decide +kernel), ⟨_, rfl⟩, by decide +kernel, by decide +kernel, rfl, by decide +kernel,
    ready_of (by decide +kernel), rfl, by decide +kernel, ready_of (by decide +kernel), by decide +kernel, rfl, by decide +kernel, ⟨_, _, _, rfl⟩⟩

/-- The replies of a live and of a free header, and of the ends of a refcount's range; an instruction at its end, before and after all it
has written is performed. -/
theorem witness_NetInstructions_replies :
    let at_ (x : NetStep) (v : Option Word) : State := rig { user with net := some ⟨x, v, []⟩ }
    let w := { at_ (.last 1) none with accs := [(3, { someAcc with posted := true })] }
    Ready (at_ .freed (some 0)) .u [] ∧ (issuer (at_ .freed (some 0))).net = some ⟨.freed, some 0, []⟩
    ∧ Ready (at_ .freed (some (16#64 <<< 56))) .u [] ∧ (16#64 <<< 56).toNat / 2 ^ 56 ≠ 0
    ∧ Ready (at_ (.counted true) (some 5)) .u [9] ∧ (issuer (at_ (.counted true) (some 5))).net = some ⟨.counted true, some 5, []⟩
    ∧ Ready (at_ (.counted false) (some 0)) .u [9]
    ∧ Ready (at_ (.last 1) none) .u [9] ∧ (issuer (at_ (.last 1) none)).net = some ⟨.last 1, none, []⟩
    ∧ releaseHeld (base (at_ (.last 1) none)) 1 = false ∧ Ready w .u [9] ∧ releaseHeld (base w) 1 = true
    ∧ (issuer w).doomed = false ∧ Ready (rig { user with net := some ⟨.last 1, none, []⟩, doomed := true }) .u [9] :=
  ⟨ready_of (by decide +kernel), rfl, ready_of (by decide +kernel), by decide, ready_of (by decide +kernel), rfl, ready_of (by decide +kernel),
    ready_of (by decide +kernel), rfl, by decide +kernel, ready_of (by decide +kernel), by decide +kernel, rfl, ready_of (by decide +kernel)⟩

/-- A hole, two nullary ends, and an auxiliary port with one of them; each word that an exchange may find; both ends auxiliary, with a
cell and without. -/
theorem witness_NetInstructions_links :
    let s := net (16 * 2 ^ 56) 1
    let u := base s
    let p : Piece := ⟨0, 0x80_0000_0100, 32, 0, some 0, .rc⟩
    Ready s .u [12, 13, 9] ∧ (tagOf (reg s 0) = 0 ∧ bodyGood (reg s 12) = true ∧ bodyGood (reg s 13) = true ∧ bodyGood (reg s 14) = true
    ∧ isNullary (reg s 13) = true ∧ isNullary (reg s 14) = true ∧ releaseHeld u 1 = false ∧ isAux (reg s 12) = true)
    ∧ netPiece u 1 none (bodyOf (reg s 12)) 32 = .ok p u ∧ netPiece u 1 (some .store) (bodyOf (reg s 12)) 32 = .ok p u
    ∧ accessWait u 1 (netAsk .store false (bodyOf (reg s 12) + 16) (.write (reg s 13).toNat)) [{ p with pa := p.pa + 16, len := 8 }] = none
    ∧ (isSplice (spliceOf 0x10100) = true ∧ tagOf (spliceOf 0x10100) ≠ 0 ∧ isAux (reg s 15) = false ∧ isSplice (reg s 15) = false ∧ tagOf (reg s 15) ≠ 0
    ∧ isNode (reg s 13) = false ∧ allocBlock s 1 false = none)
    ∧ (let c := net 0 0 { launch with csz := 64 }
       ∃ off t p, allocBlock c 1 false = some (off, t) ∧ netPiece c 1 (some .store) (blockAddr c 1 off) 8 = .ok p c) :=
  ⟨ready_of (by decide +kernel), by decide +kernel, rfl, rfl, by decide +kernel, by decide +kernel, ⟨_, _, _, rfl, rfl⟩⟩

theorem witness_NetInstructions_pairs :
    let s := net (16 * 2 ^ 56) 1
    let u := base s
    Ready s .u [15, 14] ∧ Single s ∧ tagOf (reg s 15) = 1 ∧ isNullary (reg s 14) = true ∧ bodyGood (reg s 15) = true ∧ bodyGood (reg s 14) = true
    ∧ portPlace u 1 (reg s 15) = .ok () u ∧ portPlace u 1 (reg s 14) = .ok () u ∧ releaseHeld u 1 = false ∧ (Machine.core s 0).sendQ.length < 16
    ∧ netPiece u 1 none (bodyOf (reg s 15)) 32 = .ok ⟨0, 0x80_0000_0100, 32, 0, some 0, .rc⟩ u ∧ homeCore u 0 0x80_0000_0100 = some 0
    ∧ pairRoom u 0 (issuer s).launch = true :=
  ⟨ready_of (by decide +kernel), rfl, by decide +kernel, by decide +kernel, by decide +kernel, by decide +kernel, rfl, rfl, by decide +kernel,
    by decide +kernel, rfl, by decide +kernel⟩

theorem witness_NetInstructions_reads :
    let s := net (16 * 2 ^ 56) 1
    let p : Piece := ⟨0, 0x80_0000_0100, 32, 0, some 0, .rc⟩
    Ready s .u (10 :: regsFrom 28 4) ∧ netPiece (base s) 1 (some .load) (reg s 10) 32 = .ok p (base s)
    ∧ accessWait (base s) 1 { kind := .load, va := reg s 10, size := 32, op := fun _ _ => .read, next := nextAt s 4
                              dests := (List.range 4).map fun i => ⟨28 + BitVec.ofNat 5 i, 8 * i, 8, false⟩ } [p] = none
    ∧ Ready s .u [10, 16, 9] ∧ (reg s 16).toNat / 2 ^ 56 = 16 ∧ Ready s .u [10, 17, 9] ∧ (reg s 17).toNat / 2 ^ 56 = 2
    ∧ netPiece (base s) 1 (some .atomic) (reg s 10) 32 = .ok p (base s)
    ∧ accessWait (base s) 1 { kind := .atomic, va := reg s 10, size := 8, op := fun _ _ => .amo 8 (reg s 16).toNat, dests := [⟨9, 0, 8, false⟩]
                              next := nextAt s 4 } [{ p with len := 8 }] = none :=
  ⟨ready_of (by decide +kernel), rfl, by decide +kernel, ready_of (by decide +kernel), by decide +kernel, ready_of (by decide +kernel),
    by decide +kernel, rfl, by decide +kernel⟩

/-! ## Engines -/

/-- Cards for one row of four 8-byte elements: a fill of 0x10000, and a copy to it from 0x10100; a marking job of 16 positions. -/
def fillCard : List Word :=
  [3 * 2 ^ 60 + 3 * 2 ^ 46 + 2 ^ 38, 0, 0, 0x10000, 0x1_0001_0004, 0, 0, 0, 0, 0, 0x1122, 0, 0, 0, 0, 0, 0, 0, 0, 0, 2 ^ 46 + 0x400, 0, 0, 0]
def copyCard : List Word :=
  [3 * 2 ^ 46 + 2 ^ 41 + 2 ^ 38, 0, 0x10100, 0x10000, 0x1_0001_0004, 0, 0, 0, 0, 0, 0, 0, 0, 0, 0, 0, 2 ^ 46 + 0x404, 0, 0, 0, 2 ^ 46 + 0x400, 0, 0, 0]
def markWords : List Word :=
  [16 * 2 ^ 51, 1, 0x10000, 0x10100, 0x10140, 0x10180, 0x101C0, 0x10200, 0, 1]
def carded : State :=
  stored (stored (stored (mapped (withRegs [(10, 0x10400), (11, 0x10600), (12, 0x10800), (13, 0x1_0040), (14, 0x8000), (15, 0xF), (16, 16),
    (17, 0xF000_0000_0000_1000), (18, 0x2000)])) 0x400 fillCard) 0x600 copyCard) 0x800 markWords

/-- The same thread once it has had the words of a card or of a marking job. -/
def hasCard (w : List Word) : State := { carded with threads := [(1, had (wordsIn w) (thr carded 1))] }

/-- A card to be read, and the words of each kind once they have been; good and malformed. -/
theorem witness_Jobs_cards :
    let s := carded
    Single s ∧ Ready s .u [10, 9] ∧ (look s.jobs s.ids = none ∧ (reg s 10).toNat % 64 = 0 ∧ (reg s 16).toNat % 64 ≠ 0
    ∧ (reg s 12).toNat % 16 = 0 ∧ (reg s 15).toNat % 16 ≠ 0 ∧ (issuer s).own = none)
    ∧ (∃ ps, ownStore (base s) 1 (reg s 10) 192 .load .malformedStructure = .ok ps (base s))
    ∧ (∃ ps, ownStore (base s) 1 (reg s 12) 80 .load .malformedStructure = .ok ps (base s))
    ∧ (jobCount s 0 < 1024 ∧ schedCount s 0 + 2 ≤ 4096 ∧ (cardOf fillCard).mfo = false ∧ cardOk 0 fillCard false = false
    ∧ markingOk markWords = true ∧ markingOk fillCard = false)
    ∧ Ready (hasCard fillCard) .u [10, 9] ∧ Had (hasCard fillCard) (wordsIn fillCard) ∧ wordsOfNat (wordsIn fillCard) 24 = fillCard
    ∧ (∃ r u, cardChecks (base (hasCard fillCard)) 1 3 fillCard none = .ok r u)
    ∧ Had (hasCard copyCard) (wordsIn copyCard) ∧ wordsOfNat (wordsIn copyCard) 24 = copyCard
    ∧ (∃ r u, cardChecks (base (hasCard copyCard)) 1 0 copyCard none = .ok r u)
    ∧ Had (hasCard markWords) (wordsIn markWords) ∧ wordsOfNat (wordsIn markWords) 10 = markWords
    ∧ (∃ ps u, markChecks (base (hasCard markWords)) 1 (markingOf markWords) = .ok ps u) :=
  ⟨by unfold Single; decide +kernel, ready_of (by decide +kernel), by decide +kernel, ⟨_, rfl⟩, ⟨_, rfl⟩, by decide +kernel, ready_of (by decide +kernel), ⟨_, rfl, rfl⟩, by decide +kernel, ok_some (by decide +kernel), ⟨_, rfl, rfl⟩,
    by decide +kernel, ok_some (by decide +kernel), ⟨_, rfl, rfl⟩, by decide +kernel, ok_some (by decide +kernel)⟩

/-- The first element of a fill, of a copy, and of a gather whose index is 0; a clipped element; a payload held once. -/
def gatherCard : List Word :=
  [2 ^ 60 + 3 * 2 ^ 46 + 2 * 2 ^ 41 + 2 ^ 38, 0, 0x10100, 0x10000, 0x1_0001_0004, 0, 0, 0, 0, 0x10140, 0, 0, 0, 0, 0, 0, 2 ^ 46 + 0x404, 2 ^ 46 + 0x405, 0, 0,
    2 ^ 46 + 0x400, 0, 0, 0]
def cowCard : List Word :=
  [3 * 2 ^ 46 + 2 * 2 ^ 41 + 2 ^ 38 + 2 ^ 49, 0, 0x10100, 0x10000, 0x1_0001_0004, 0, 0, 0, 0, 0x10140, 0, 0, 0, 0, 0, 0, 2 ^ 46 + 0x404, 2 ^ 46 + 0x405, 0, 0,
    2 ^ 46 + 0x400, 0, 0, 0]

/-- A job of thread 1. -/
def job (card : List Word) : Job :=
  { mark := false, ctx := 1, launch := none, tid := 1, stid := 1, core := 0, card := card, pages := [⟨0x10000, 0x10000, 0, 0x80_0000_0000, some 0⟩]
    address := 0x10400, follow := none, before := 0, prv := .u, phase := none, arrived := true, sent := some 14 }

/-- Channels that are closed, open, and of another context; no job and one to stop; a `yrd.stop` whose jobs have ended. -/
def chans (v : Word) : State :=
  { rig (withRegs [(10, v), (11, 0x2000)]) with
    cores := [(0, { chans := [(3, ⟨1, 0x1000, 0x2000, 0x1000, []⟩), (15, ⟨2, 0, 8, 0, []⟩)] })], jobs := [(5, job copyCard)] }
def chan (n : Nat) : CopyChan := lookD (Machine.core (chans 0) 0).chans n {}

theorem witness_Jobs_channels :
    let s := chans 0xF000_0000_0000_1000
    Ready s .u [10, 11, 9] ∧ Ready (chans 16) .u [10, 11, 9] ∧ (reg s 10).toNat / 2 ^ 52 % 2 ^ 8 = 0 ∧ (reg s 11).toNat < 2 ^ 52 ∧ (reg s 10).toNat % 2 ^ 52 ≤ (reg s 11).toNat
    ∧ jobsOn s 0 3 = [] ∧ (chan 15).base ≠ (chan 15).limit ∧ (chan 15).ctx ≠ (issuer s).ctx ∧ (chan 3).base ≠ (chan 3).limit
    ∧ (chan 3).ctx = (issuer s).ctx ∧ (chan 4).base = (chan 4).limit
    ∧ ([3, 4, 15, 16, 31].all fun v => decide ((reg (chans v) 10).toNat < 32) && (issuer (chans v)).stopping.isNone) = true
    ∧ (job copyCard).core = 0 ∧ (job copyCard).ctx = (issuer s).ctx ∧ (job copyCard).mark = false
    ∧ (issuer (rig { user with stopping := some ⟨[], 2, some 3⟩ })).stopping = some ⟨[], 2, some 3⟩ :=
  ⟨ready_of (by decide +kernel), ready_of (by decide +kernel), by decide +kernel⟩

/-- One arrival, one with a follow-on; an entry with an edge, one without; one behind a mill instruction of its thread; a thread
with a held instruction. -/
theorem witness_FootprintScheduler :
    let e : Entry := { id := 5, ctx := 1, tid := 1, core := 0, cycle := 17, reads := [(0x10000, 0x10040)], writes := [], job := some 5 }
    let j := { job copyCard with follow := some (millOp .mzero 0 0 0 0 0) }
    let s := { carded with jobs := [(5, j)], cmpts := [(0, { cmpt carded 0 with arrivals := [e], entries := [{ e with id := 4, edges := [3] }, { e with id := 2 }] })] }
    s.power = true ∧ (cmpt s 0).arrivals = [] ++ e :: [] ∧ cmptOf e.tid = 0 ∧ ((e.job.bind (look s.jobs)).bind (·.follow)).isSome = true
    ∧ ((e.job.bind (look { s with jobs := [(5, job copyCard)] }.jobs)).bind (·.follow)).isNone = true
    ∧ (cmpt s 0).entries = [] ++ { e with id := 4, edges := [3] } :: [{ e with id := 2 }]
    ∧ (cmpt s 0).entries = [{ e with id := 4, edges := [3] }] ++ { e with id := 2 } :: []
    ∧ (let m := millOp .mzero 0 0 0 0 0
      let x : Entry := { e with id := 7, job := none, mill := some m }
      let u := { rig { user with held := some ⟨m, [], 0⟩ } with cmpts := [(0, { cmpt carded 0 with entries := [x, { x with id := 8 }] })] }
      (cmpt u 0).entries = [x] ++ { x with id := 8 } :: [] ∧ x.dispatched = false ∧ m.tid = m.tid ∧ (thr u x.tid).held = some ⟨m, [], 0⟩ ∧ (thr u x.tid).serial = m.serial
      ∧ (thr (rig user) x.tid).held = none)
    ∧ leadOf s (job copyCard) = .cmpt 0
    ∧ (let at_ (pkg pa : Nat) : Job := { job copyCard with pages := [⟨0x10000, 0x10000, pkg, pa, some 0⟩] }
       leadOf s (at_ 0 0x80_0100_0000) = .cmpt 1 ∧ leadOf s (at_ 2 0) = .pkg 2 ∧ leadOf s (at_ 0 0) = .hbm 1) :=
  ⟨rfl, rfl, by decide, by decide +kernel, by decide +kernel, rfl, rfl, ⟨rfl, rfl, rfl, rfl, rfl, rfl⟩, by decide +kernel⟩

/-- Each job in an elastic compartment (`fixt` = false) and in one of fixed timing, which publishes its times. -/
def working (w : List Word) (fixt : Bool) : State :=
  let s := stored { carded with jobs := [(5, job w)] } 0x140 [1]
  { s with cmpts := [(0, { cmpt s 0 with cyc := 14, t := 30, fixt := fixt })] }

/-- The first elements of each, whose homes take them, before and behind the refcount; one element clipped, and one outside its footprint. -/
theorem witness_JobElements :
    let ok (w : List Word) (kind : AccKind) (va : Int) (n : Nat) : Bool :=
      match eltAccess (working w false) (job w) kind va n with | .ok ps => !ps.isEmpty | .error _ => false
    (∀ w ∈ [fillCard, copyCard, gatherCard, cowCard], look (working w false).jobs 5 = some (job w) ∧ (job w).asked = false ∧ (job w).acc = none
      ∧ (job w).sent.isSome = true ∧ (job w).finished = false ∧ engineHeld (working w false) 1 0 = false
      ∧ publishedBytes (working w false) (job w) = none ∧ publishedBytes (working w true) (job w) = some 32 ∧ leadOf (working w true) (job w) = .cmpt 0
      ∧ (job w).n < (cardOf w).e0 * (cardOf w).e1 * (cardOf w).e2)
    ∧ (∀ w ∈ [fillCard, copyCard, gatherCard], (cardOf w).cow = false ∧ ok w .store 0x10000 8 = true) ∧ (cardOf cowCard).cow = true
    ∧ (∀ w ∈ [copyCard, gatherCard, cowCard], ok w .load 0x10100 8 = true) ∧ ok gatherCard .load 0x10140 4 = true
    ∧ ok cowCard .load 0x10140 8 = true ∧ (gatherCard.headD 0).toNat / 2 ^ 60 = 1
    ∧ eltParts (job fillCard) ((cardOf fillCard).writes fillCard) 0xFFF8 8 = none
    ∧ ((eltParts (job fillCard) ((cardOf fillCard).writes fillCard) 0x10000 8).any fun ps => ps.all fun p => (eltRefused 8 p.pa p.len).isNone
      && admitted (working fillCard false) p.pkg p.pa p.gen != .stale && !keepsUnread (working fillCard false) p) = true
    ∧ (let j := { job fillCard with arrived := false, pages := [⟨0x10000, 0x10000, 2, 0, some 0⟩] }
       j.sent.isSome = true ∧ leadOf (working fillCard false) j = .pkg 2)
    ∧ (let e : Entry := { id := 5, ctx := 1, tid := 1, core := 0, cycle := 17, reads := [], writes := [], job := some 5 }
       let s := { working fillCard true with cmpts := [(0, { cmpt (working fillCard true) 0 with entries := [e] })] }
       (cmpt s 0).entries.find? (fun x => x.id == e.id) = some e ∧ e.dispatched = false ∧ e.edges = [] ∧ e.mill = none
       ∧ publishedBytes s (job fillCard) = some 32) :=
  by decide +kernel

/-- A job whose access is over, one that has failed at its second element, and one whose access is still in flight. -/
theorem witness_JobElements_replies :
    let e : EltMove := ⟨some 0x10000, some 0x10100⟩
    let j := { job copyCard with acc := some (3, .source [e, ⟨some 0x10008, some 0x10108⟩]) }
    let y := { someAcc with agent := .job 5, left := 0 }
    let s (y : Access) : State := { working copyCard false with jobs := [(5, j)], accs := [(3, y)] }
    look (s y).jobs 5 = some j ∧ look (s y).accs 3 = some y ∧ y.left = 0 ∧ y.replies = 0 ∧ y.poisoned = false ∧ y.stale = false ∧ someAcc.left ≠ 0
    ∧ ({ y with poisoned := true, worst := some 8 }.worst.getD 0) / (cardOf copyCard).w = 1 := by decide +kernel

/-- Reports of an open channel, and a finished job with room for its record and without. -/
theorem witness_JobCompletion :
    let w := copyCard.set 0 (copyCard.headD 0 + 2 ^ 55)
    let j := { job w with n := 32, reported := 0 }
    let full (n : Nat) : State := { carded with jobs := [(5, { j with finished := true, card := copyCard })]
                                                cores := [(0, { chans := [(0, ⟨1, 0x10000, 0x10100, 0x10000, []⟩)], landing := List.replicate n { entry with prio := 0 } })]
                                                cmpts := [(0, { cmpt carded 0 with entries := [{ id := 5, ctx := 1, tid := 1, core := 0, cycle := 17, reads := [], writes := [] }] })] }
    (cardOf w).wmk = true ∧ (lookD (Machine.core (full 0) 0).chans (cardOf w).chan {}).fill = [] ∧ j.reported / 256 * 256 + 256 ≤ j.n * (cardOf w).w
    ∧ 31 * (cardOf w).w < 256 ∧ (cardOf copyCard).wmk = false ∧ (cardOf copyCard).nrec = false ∧ (∃ e ∈ (cmpt (full 0) 0).entries, e.id = 5)
    ∧ (∃ j, look (full 0).jobs 5 = some j ∧ j.finished = true ∧ j.ended = none)
    ∧ look { full 0 with jobs := [(5, { j with finished := true, ended := some 17 })] }.jobs 5 = some { j with finished := true, ended := some 17 }
    ∧ rising (full 0).jobs = true ∧ atPrio (Machine.core (full 15) 0) 0 < 16 ∧ ¬atPrio (Machine.core (full 16) 0) 0 < 16
    ∧ withheld (full 0) 1 0 = false ∧ (let x : StopWait := ⟨[5], 0, some 0⟩; 5 ∈ x.jobs ∧ ∀ i ∈ x.jobs, i = 5) :=
  ⟨by decide +kernel, rfl, by decide +kernel, by decide +kernel, by decide +kernel, by decide +kernel, ⟨_, .head _, rfl⟩, ⟨_, rfl, rfl, rfl⟩, rfl, rfl, by decide +kernel⟩

/-- Two positions of rank; the bounds of the rules; a round over an empty mask. -/
theorem witness_MarkingRounds :
    let l := [(3, FVal.fin false 1 0), (7, FVal.fin false 1 1)]
    let m := { markingOf markWords with rule := 1, parm := 2 ^ 32 + 3 }
    let j := { job markWords with mark := true }
    let s := { carded with jobs := [(5, j)], cmpts := [(0, { cmpt carded 0 with markQ := [5] })] }
    l.Pairwise (fun x y => x.1 < y.1) ∧ (∀ x ∈ l, x.2 ≠ .nan) ∧ m.parm % 2 ^ 32 ≠ 0 ∧ m.parm < 2 ^ 64 ∧ commits m l 0 < l.length ∧ 0 < commits m l 0
    ∧ (cmpt s 0).markQ = 5 :: [] ∧ look s.jobs 5 = some j ∧ j.acc = none ∧ engineHeld s j.tid j.before = false ∧ j.got.length ≤ 4
    ∧ rising s.jobs = true ∧ withheld s j.ctx j.core = false ∧ j.address < 2 ^ 52
    -- a first read is to be made; with an empty mask read, nothing else is, and no write
    ∧ (roundReads (markingOf markWords) []).2 ≠ []
    ∧ (∀ i < 3, (roundReads (markingOf markWords) ([0] ++ List.replicate i 0)).2 = []) ∧ roundWrites (markingOf markWords) [0, 0, 0, 0] = []
    ∧ (roundWrites (markingOf markWords) [8, 0, 0, 5]).length = 4 ∧ committed (markingOf markWords) [8, 0, 0, 5] = [3]
    ∧ (let k := { j with acc := some (3, .round), got := [8, 0, 0, 5] }
       let u (y : Access) : State := { s with jobs := [(5, k)], accs := [(3, y)] }
       let y := { someAcc with agent := .job 5, left := 0 }
       look (u y).jobs 5 = some k ∧ look (u y).accs 3 = some y ∧ y.replies = 0 ∧ y.poisoned = false ∧ y.stale = false ∧ someAcc.left ≠ 0) := by
  decide +kernel

/-- A set of the context, none, and one of another context, at the last set; a queued pair; narrow and wide words. -/
theorem witness_GradingAndNoise :
    let g : GradeSet := { ctx := 1, launch := none, k := 2, best := [4, 9] }
    let s := { carded with tiles := [(0, { tile carded 0 with sets := [(2, { g with ctx := 2 }), (3, g)], gradeQ := [(4, 3, 5)] })], accs := [(4, { someAcc with ctx := 1 })] }
    let t := { s with accs := [], tiles := [(0, { tile s 0 with gradeQ := [] })], threads := [(1, withRegs [(10, 3), (11, 256), (12, 0x10000), (15, 2 ^ 32)])] }
    Single t ∧ Ready t .u [10, 11, 9] ∧ (reg t 10).toNat = 3 ∧ 1 ≤ (reg t 11).toNat ∧ (reg t 11).toNat ≤ 256
    ∧ look (tile t 0).sets 3 = some g ∧ g.ctx = (issuer t).ctx ∧ look (tile t 0).sets 1 = none ∧ (∃ h, look (tile t 0).sets 2 = some h ∧ h.ctx ≠ (issuer t).ctx)
    ∧ orderHeld (base t) 1 [] false = false ∧ (tile t 0).gradeQ.length < 32 ∧ Ready t .u [10, 12, 9]
    ∧ (issuer t).own = none ∧ (∃ ps, ownStore (base t) 1 (reg t 12) (8 * g.k) .store .tier = .ok ps (base t))
    ∧ (let h := { t with threads := [(1, had 0 (thr t 1))] }; Ready h .u [10, 12, 9] ∧ Had h 0 ∧ (reg h 12).toNat % 8 = 0)
    ∧ g.best.length ≤ g.k ∧ rising (tile t 0).sets = true
    ∧ (tile s 0).gradeQ = (4, 3, 5) :: [] ∧ (∃ x, look s.accs 4 = some x ∧ x.ctx = g.ctx) ∧ g.best.Pairwise (fun y z => better z y = false)
    ∧ Ready t .u [10, 15, 9] ∧ 2 ^ 32 ≤ (reg t 15).toNat ∧ (reg t 11).toNat < 2 ^ 32 ∧ Ready t .u [10, 14, 15, 8, 9] ∧ Ready t .u [10, 10, 11, 8, 9] :=
  ⟨rfl, ready_of (by decide +kernel), by decide +kernel, by decide +kernel, by decide +kernel, rfl, rfl, rfl, ⟨_, rfl, by decide +kernel⟩, by decide +kernel,
    by decide +kernel, ready_of (by decide +kernel), rfl, ⟨_, rfl⟩, ⟨ready_of (by decide +kernel), ⟨_, rfl, rfl⟩, by decide +kernel⟩, by decide +kernel,
    by decide +kernel, rfl, ⟨_, rfl, rfl⟩, by decide +kernel, ready_of (by decide +kernel), by decide +kernel, by decide +kernel, ready_of (by decide +kernel), ready_of (by decide +kernel)⟩

/-- Packets of one reduction, and its result block at 0x10020; a partial and a final result; two packets in flight. The clause
on another package holds for whatever number of cores the context has there (an opaque value). -/
theorem witness_Combining : let p : RedPacket := { key := 1, idx := 2, cnt := 1, cand := true, nan := false, op := 0, red := 7 }
    p.op = { p with key := 2 }.op ∧ p.red = { p with key := 2 }.red ∧ p.cand = true ∧ p.key < { p with key := 2 }.key := by decide

theorem witness_Reductions :
    let p : RedPacket := { key := 1, idx := 2, cnt := 2, cand := true, nan := false, op := 0, red := 7 }
    let r : Reduction := { red := 7, op := 0, n := 2, bc := false, prio := 0, k := 0, cmask := 1, pmask := 0, stid := 1, seq := 1, ctx := 1, launch := none }
    let s := mapped (had (wordsIn [2 * 2 ^ 40, 1, 1, 0]) (withRegs [(10, 7), (12, 0x3F80_0000), (13, 1), (14, 0x10020)]))
    let t := { s with cores := [(0, { reds := [{ r with acc := some p }] })] }
    let x : Packet := { cls := .request, src := 1, dst := 0, body := .red p 0 0 none, core := 0, flits := 1, stage := .ready }
    let f := { t with packets := [(8, x), (9, x)] }
    Single s ∧ Ready s .u [10, 12, 13] ∧ ((reg s 10).toNat / 2 ^ 60 ≤ 6 ∧ (reg s 10).toNat / 2 ^ 54 % 2 ^ 6 = 0 ∧ (reg s 10).toNat / 2 ^ 28 % 2 ^ 11 = 0
    ∧ (reg s 13).toNat < 4 ∧ (Machine.core s 0).sendQ.length < 16 ∧ (reg s 10).toNat / 2 ^ 53 % 2 = 0 ∧ physCore (base s) 1 0 = some 0)
    ∧ Ready s .u [10, 14, 9] ∧ (reg s 14).toNat % 32 = 0 ∧ Had s (wordsIn [2 * 2 ^ 40, 1, 1, 0])
    ∧ (let a := mapped (withRegs [(14, 0x10020)]); Ready a .u [10, 14, 9] ∧ (issuer a).own = none ∧ ∃ ps, ownStore (base a) 1 (reg a 14) 32 .load .tier = .ok ps (base a))
    ∧ redOf (Machine.core s 0) 7 = none ∧ (receivers (base s) 1 1 0 false).isSome = true ∧ (∀ p < 64, (1 : Nat).testBit p = true → p = s.pkg)
    ∧ Ready t .u [10, 8, 9] ∧ redOf (Machine.core t 0) 7 = some { r with acc := some p } ∧ r.n ≤ p.cnt ∧ r.copies = 0
    ∧ look f.packets 8 = some x ∧ look f.packets 9 = some x ∧ rising f.packets = true ∧ x.stage = .ready ∧ p.cnt + p.cnt ≤ 0xFF_FFFF :=
  ⟨rfl, ready_of (by decide +kernel), by decide +kernel, ready_of (by decide +kernel), by decide +kernel, ⟨_, rfl, rfl⟩, ⟨ready_of (by decide +kernel), rfl, _, rfl⟩, rfl, by decide +kernel,
    by decide +kernel, ready_of (by decide +kernel), by decide +kernel⟩


/-! ## Exceptions, state registers and privileged instructions -/

/-- At U, inside a handler, at F; each way back that `tret` may take, and the two that it may not. -/
theorem witness_TakingExceptions :
    (Cause.permission.contains = false ∧ Cause.privilege.contains = true)
    ∧ Ready (rig user) .u [10] ∧ (issuer (rig user)).it = false ∧ (issuer (rig user)).prv ≠ .f
    ∧ Ready (rig { user with it := true }) .u [10] ∧ (issuer (rig { user with it := true })).it = true
    ∧ Ready (rig { user with prv := .s, it := true, pprv := 1 }) .s [] ∧ (issuer (rig { user with prv := .s, pprv := 1 })).pprv = prvBits .s
    ∧ (issuer (rig { user with prv := .s, pprv := 1, tepc := 0x401 })).tepc.getLsbD 0 = true ∧ (issuer (rig { user with prv := .s, pprv := 1 })).tepc.getLsbD 0 = false
    ∧ Ready (rig { firm with pprv := 2 }) .s [] ∧ (issuer (rig { firm with pprv := 2 })).pprv = prvBits .f
    ∧ Ready (rig { user with prv := .s, pprv := 2 }) .s [] ∧ (issuer (rig { user with prv := .s, pprv := 2 })).pprv.toNat = 2
    ∧ Ready (rig { firm with pprv := 3 }) .s [] ∧ (issuer (rig { firm with pprv := 3 })).pprv.toNat = 3 :=
  ⟨by decide, ready_of (by decide +kernel), rfl, by decide +kernel, ready_of (by decide +kernel), rfl, ready_of (by decide +kernel), rfl, rfl, rfl,
    ready_of (by decide +kernel), rfl, ready_of (by decide +kernel), rfl, ready_of (by decide +kernel), rfl⟩

/-- Each check failing while those before it hold; the reserved majors at the ends of their ranges. -/
theorem witness_IssueChecks :
    let s := rig { user with pend := [⟨10, 0, 90, {}, false, false⟩] }
    s.power = true ∧ allows (Form.prv { prv := .f }) (issuer s).prv = false ∧ allows (Form.prv {}) (issuer s).prv = true
    ∧ pendingPfx (issuer (rig { user with pp := true })) = some 0 ∧ pendingPfx (issuer s) = none ∧ noBoard s (issuer s) = false
    ∧ pendingOn (issuer s) [10] = true ∧ (issuer s).prv = .u ∧ (issuer (rig { user with prv := .s })).prv ≠ .f
    ∧ (1 : Nat) = 2 * 0x00 + 1 ∧ (0x69 : Nat) = 2 * 0x34 + 1 ∧ (0x7F : Nat) = 2 * 0x3F + 1 :=
  ⟨rfl, by decide +kernel, by decide +kernel, rfl, rfl, by decide +kernel, by decide +kernel, rfl, by decide +kernel, rfl, rfl, rfl⟩

/-- Every register at the privilege that it needs; WCW while no spill is in progress; SEED before and after its park. -/
theorem witness_StateRegisters :
    let s := rig { user with prv := .s }
    Ready (rig user) .u [9] ∧ Ready s .s [9] ∧ Ready (rig user) .u [10, 9] ∧ Ready s .s [10, 9] ∧ (11#7).toNat < 12 ∧ (12#7).toNat = 12
    ∧ (∀ p ∈ (issuer s).pend, p.fp = false ∨ p.sfu = true) ∧ (issuer s).spilled = 0 ∧ (issuer s).park.isNone = true ∧ pendingOn (issuer (rig { user with pend := [⟨9, 0, 90, {}, true, true⟩] })) [10] = false
    ∧ (issuer s).park = none ∧ Ready (rig { user with prv := .s, park := some (.again .seed 1) }) .s [10, 9]
    ∧ (issuer (rig { user with prv := .s, park := some (.again .seed 1) })).park = some (.again .seed 1) :=
  ⟨ready_of (by decide +kernel), ready_of (by decide +kernel), ready_of (by decide +kernel), ready_of (by decide +kernel), by decide, by decide,
    nofun, rfl, rfl, by decide +kernel, rfl, ready_of (by decide +kernel), rfl⟩

/-- A firmware thread, a contained thread behind the window, a free slot, and a running thread. -/
def ruled (rs : List (Nat × Word)) : State :=
  { rig user with threads := [(1, withRegs rs { firm with winTarget := some 2 }), (2, { user with life := .contained }), (3, user)] }

theorem witness_FirmwareInstructions_threads :
    let s := ruled [(10, 2), (11, 3), (12, 4), (13, 2 ^ 18 - 1), (14, 2 ^ 18), (15, 0x27), (16, 0x28), (17, 0x20), (18, 0x2_0000)]
    Single s ∧ Ready s .f [10, 11, 9] ∧ (reg s 10).toNat < 2 ^ 18 ∧ (thr s 2).life = .contained ∧ (thr s 3).life = .run ∧ (thr s 4).life = .free
    ∧ (thr s 2).lt = false ∧ (reg s 13).toNat < 2 ^ 18 ∧ 2 ^ 18 ≤ (reg s 14).toNat ∧ (reg s 15).toNat = 0x27 ∧ 0x27 < (reg s 16).toNat
    ∧ (reg s 11).getLsbD 0 = true ∧ (reg s 12).getLsbD 0 = false ∧ (thr (base s) 2).life = .contained
    ∧ (reg s 17).toNat = 0x20 ∧ (reg s 18).getLsbD 17 = true ∧ (reg s 0).getLsbD 17 = false ∧ (issuer s).winTarget = some 2 ∧ 2 ≠ s.cur
    ∧ (∀ m, (issuer (rig firm)).winTarget = some m → (thr (base (rig firm)) m).life ≠ .contained) :=
  ⟨rfl, ready_of (by decide +kernel), by decide +kernel, rfl, rfl, rfl, rfl, by decide +kernel, by decide +kernel, by decide +kernel, by decide +kernel,
    by decide +kernel, by decide +kernel, rfl, by decide +kernel, by decide +kernel, by decide +kernel, rfl, by decide, nofun⟩

/-- A fault message of the queue. -/
def message : FaultMsg :=
  { cause := .trap, ctx := 1, ptid := 1, pc := 0, val := 0, lt := false, inj := false, prv := .u, nth := false, inst := 0, ts := 0, cgen := 0, src := 0 }

/-- A thread inside `link`, and a `tkill` that waits for one. -/
theorem witness_FirmwareInstructions_link :
    let x : Thread := { user with net := some ⟨.last 1, none, []⟩ }
    let s := { rig user with threads := [(1, withRegs [(10, 2)] firm), (2, x)] }
    let t := { rig user with threads := [(1, withRegs [(10, 2)] { firm with park := some (.again .kill 1) })] }
    Single s ∧ Ready s .f [10, 10, 9] ∧ (issuer s).park = none ∧ (thr s 2).life ≠ .free ∧ inLink (thr s 2) = true ∧ halves s 2 = [2]
    ∧ Ready t .f [10, 10, 9] ∧ (issuer t).park = some (.again .kill 1) ∧ inLink (thr t 2) = false :=
  ⟨rfl, ready_of (by decide +kernel), rfl, nofun, rfl, rfl, ready_of (by decide +kernel), rfl, rfl⟩

/-- A check byte for a word of HBM, and for a hole; a whole and a partial invalidation; the ranger with a message, without one, and
past its deadline. -/
theorem witness_FirmwareInstructions_memory :
    let s := rig (withRegs [(10, 0x10000), (12, 5), (13, 0xFF), (14, 0x8020_0000_00), (15, 0x10004), (16, 2 ^ 59)] firm)
    let t := rig (withRegs [(12, 0x10000), (13, 1)] { user with prv := .s })
    let r := 262144 + 16
    let q (ms : List FaultMsg) : State := { rig firm with
      cur := r, threads := [(r, withRegs [(11, 34)] firm)], cmpts := [(1, { cyc := 17, t := 34, faultQ := ms })] }
    Single s ∧ Ready s .f [10, 12, 13] ∧ (reg s 13).toNat < 256 ∧ (reg s 10).toNat % 8 = 0
    ∧ accessWait (base s) 1 { kind := .atomic, va := reg s 10, size := 8, op := fun _ _ => .inject 5 0xFF, next := nextAt s 4 }
      [⟨0, (reg s 10).toNat, 8, 0, none, .rc⟩] = none
    ∧ placeOf (reg s 10).toNat = .hbm ∧ placeOf (reg s 14).toNat = .hole
    ∧ (reg s 15).toNat % 8 ≠ 0 ∧ Ready s .f [14, 12, 13] ∧ Ready s .f [15, 12, 13]
    ∧ Ready t .s [12, 13] ∧ (issuer t).draining = none ∧ (invalOf (issuer t) (reg t 12).toNat (reg t 13).toNat).isSome = true
    ∧ ((invalOf (issuer t) (reg t 12).toNat (reg t 13).toNat).all fun v => !usesDropped (base t) 0 v t.ids) = true
    ∧ (invalOf (issuer s) 0 (reg s 16).toNat).isSome = true ∧ releaseHeld (base t) 1 = false
    ∧ Ready (q []) .f [10, 11, 9] ∧ cmptOf r = 1 ∧ onRanger r = true ∧ (cmpt (q [message]) 1).faultQ = message :: []
    ∧ (reg (q []) 11).toNat ≤ (cmpt (q []) 1).t ∧ (cmpt (q []) 1).t < 35 :=
  ⟨rfl, ready_of (by decide +kernel), by decide +kernel, by decide +kernel, by decide +kernel, by decide +kernel,
    by decide +kernel, by decide +kernel, ready_of (by decide +kernel), ready_of (by decide +kernel), ready_of (by decide +kernel), rfl, by decide +kernel,
    by decide +kernel, by decide +kernel, by decide +kernel, ready_of (by decide +kernel), by decide, by decide, rfl, by decide +kernel⟩

/-- The area of `halt` lies in the issuing ranger's own store: before and after the message has been stored there. -/
theorem witness_FirmwareInstructions_area :
    let r := 262144 + 16
    let s (t : Thread) : State := { rig firm with
      cur := r, threads := [(r, t)], cmpts := [(1, { cyc := 17, t := 34, faultQ := [message] })] }
    let a := s (withRegs [(10, 0x84_8000_8000)] firm)
    let h := s (had 0 (withRegs [(10, 0x84_8000_8000)] firm))
    (reg a 10).toNat % 8 = 0 ∧ Ready a .f [10, 11, 9] ∧ Single a ∧ (issuer a).own = none
    ∧ (∃ ps, ownStore (base a) r (reg a 10) 64 .store .tier = .ok ps (base a)) ∧ Ready h .f [10, 11, 9] ∧ Had h 0
    ∧ ∃ ps, ownStore (base h) r (reg h 10) 64 .store .tier = .ok ps (base h) :=
  ⟨by decide +kernel, ready_of (by decide +kernel), rfl, rfl, ⟨_, rfl⟩, ready_of (by decide +kernel), ⟨_, rfl, rfl⟩, _, rfl⟩

/-- Both modes. -/
theorem witness_Clocks : Ready (rig user) .u [9] ∧ (cmpt (rig user) 0).fixt = false
    ∧ Ready { rig user with cmpts := [(0, { cyc := 14, t := 30, fixt := true, part := some 0 })] } .u [9] :=
  ⟨ready_of (by decide +kernel), rfl, ready_of (by decide +kernel)⟩

/-! ## Steps of the machine -/

/-- Two requests at one bank, the older one first; one at a register window; frames in each state. -/
theorem witness_HomesAndFrames_requests :
    let w := { someReq with pa := 0x81_0000_0250, earliest := 18 }
    let h := { someReq with pa := 0x10000, gen := some 3 }
    let s := { rig user with accs := [(3, someAcc)], reqs := [(4, { someReq with earliest := 17 }), (5, { someReq with earliest := 18 }), (6, w), (7, h)] }
    let rs := s.reqs.filter fun p => atBank s 0 0 p.2 && servable s p.1 p.2
    look s.reqs 4 = some { someReq with earliest := 17 } ∧ rs.map (·.1) = [4, 5] ∧ 17 ≤ serveCycle (cmpt s 0) 0 rs
    ∧ windowUnit s w = windowNo (placeOf w.pa) ∧ (windowUnit s w).isSome = true ∧ unitCore (placeOf w.pa) = some 0
    ∧ refusedBefore s h = false ∧ killedWrite s h = false ∧ refusedBefore { s with accs := [(3, { someAcc with stale := true })] } { h with inOrder := true } = true ∧ mustWait s 6 w = false ∧ isWindow (placeOf h.pa) = false ∧ placeOf h.pa = .hbm ∧ mustWait s 7 h = false
    ∧ (lookD s.frames (keyOf h.pkg h.pa / 65536) {}).gen ≠ 3 ∧ (lookD s.frames (keyOf 0 someReq.pa / 65536) {}).gen = 0
    ∧ (lookD s.frames 0 {}).mode = .normal ∧ (lookD [(1, { mode := .migrating 2 4 false : Frame })] 1 {}).mode = .migrating 2 4 false :=
  ⟨rfl, by decide +kernel⟩

theorem walk_ok {r : Except Cause Leaf} {l : Leaf} (h : (match r with | .ok x => decide (x = l) | .error _ => false) = true) : r = .ok l := by
  cases r with
  | ok x => rw [of_decide_eq_true h]
  | error => cases h

theorem walk_error {r : Except Cause Leaf} {c : Cause} (h : (match r with | .ok _ => false | .error x => decide (x = c)) = true) :
    r = .error c := by
  cases r with
  | ok => cases h
  | error x => rw [of_decide_eq_true h]

/-- A walk in progress, with memory that holds the tables of the spec's example or nothing. -/
def walking (m : List Cell) : State :=
  { rig { user with park := some (.again .walk 17) } with
    accs := [(3, { someAcc with posted := true, left := 0, dests := [] })]
    walks := [(4, { tile := 0, ctx := 1, va := 0x101_40E9_0000, waiters := [(1, 0x101_40E9_1234)] })], mem := m }
def tables : List Cell :=
  setBytes (setBytes (setBytes (setBytes [] 0x10 8 0x9000_0000_0001_0000) 0x1_0028 8 0x9000_0000_0002_0000) 0x2_0038 8 0x9000_0000_0003_0000)
    0x3_0048 8 0xD403_0012_3450_1800

/-- An acknowledged store; a walk that ends with the leaf of the spec's example, and one without a valid entry. -/
theorem witness_HomesAndFrames_walks :
    ((look (walking []).accs 3).any (fun a => a.posted && a.left == 0 && a.replies == 0 && a.agent.made && !a.failed) = true
    ∧ { someAcc with stale := true }.failed = true ∧ { someAcc with poisoned := true, agent := .spill }.failed = true ∧ rising (walking []).accs = true
    ∧ (thr (walking []) 1).life = .run ∧ rising (walking []).walks = true ∧ (thr (walking []) 1).park = some (.again .walk 17)
    ∧ (thr (walking []) 1).doomed = false)
    -- the last word of a spill, acknowledged and refused
    ∧ (let t := { user with olive := true, spilled := 24, wsp := 0x100C0 }
       let a := { someAcc with posted := true, left := 0, agent := .spill, lo := 0x10000 + 8 * 23 }
       let s := { rig t with accs := [(3, a)] }
       (thr s 1).olive = true ∧ (thr s 1).spilled = 24 ∧ (thr s 1).life = .run ∧ a.failed = false ∧ a.agent.made = true
       ∧ a.lo = ((thr s 1).wsp - 192).toNat + 8 * 23)
    ∧ walkPage (walking []) 1 0x101_40E9_0000 = .error .translationInvalid
    ∧ ∃ l, walkPage (walking tables) 1 0x101_40E9_0000 = .ok l ∧ l.pa = 0x12_3450_0000 :=
  ⟨by decide +kernel, by decide +kernel, walk_error (by decide +kernel),
    { ctx := 1, va := 0x101_40E9_0000, size := 0x1_0000, tier := .hbm, ord := .rc, pkg := 0, gen := 3, pa := 0x12_3450_0000, s := false, w := true
      rd := true }, walk_ok (by decide +kernel), rfl⟩

/-- A frame in each state, and its last report. -/
theorem witness_HomesAndFrames_frames :
    let s (f : Frame) : State := { rig user with frames := [(5, f)] }
    (frame (s {}) 5).mode = .normal ∧ (frame (s { mode := .migrating 6 1 false }) 5).mode = .migrating 6 1 false
    ∧ (frame (s { mode := .migrating 6 1 true }) 5).mode = .migrating 6 1 true ∧ (frame (s { mode := .forwarded 6 1 }) 5).mode = .forwarded 6 1
    ∧ 2579 ∈ drainUnits ∧ frameInUse (s { mode := .forwarded 6 1 }) 5 = false
    ∧ (∀ u ∈ drainUnits, u = 2579 ∨ u ∈ drainUnits.filter fun v => v != 2579) ∧ (∃ u ∈ drainUnits, u ≠ 2579 ∧ u ∉ (frame (s {}) 5).reports) := by
  refine ⟨rfl, rfl, rfl, rfl, by decide +kernel, by decide +kernel, ?_, 2578, by decide +kernel, by decide, by decide +kernel⟩
  intro u h
  by_cases e : u = 2579
  · exact .inl e
  · exact .inr (by simp only [List.mem_filter, bne_iff_ne]; exact ⟨h, e⟩)

/-- A pending result; one of the ring; the first and the last word of a spill; a stream with room. -/
theorem witness_CoreUnits :
    let p : Pend := ⟨9, 5, 30, {}, true, true⟩
    let t := { user with pend := [p], turn := 90, olive := true, wsp := 0x100C0
                         streams := [(0, { esz := 3, base := 0x10000, e0 := 4, e1 := 1, e2 := 1 })], qb := 1 }
    let s := { mapped t with tiles := [(0, { tile (mapped t) 0 with sfuRing := [(1, 30)] })] }
    let q := stream (thr s 1) 0
    let st (k : Nat) : Ask := { kind := .store, va := (thr s 1).wsp - 192 + BitVec.ofNat 64 (8 * k), size := 8, next := 0, agent := .spill
                                op := fun n off => .write (sliceOf 0 n off) }
    let ld : Ask := { kind := .load, va := elemAddr q 0, size := 8, op := fun _ _ => .read, next := 0, agent := .stream 0 }
    let a := { someAcc with agent := .stream 0, left := 0 }
    let w := { s with threads := [(1, setStream t 0 { q with ahead := [.wait 3 [] false] })], accs := [(3, a)] }
    (thr s 1).pend = p :: [] ∧ (tile s 0).sfuRing = (1, 30) :: [] ∧ (thr s 1).spillFault = none ∧ turnIdles (thr s 1) (turnAt 1 17) = true
    ∧ (∀ k ∈ [0, 23], (match piecesNow s (asker s 1) .store (st k).va 8 with
        | (.ok ps, u) => decide (u = s) && (accessWait s 1 (st k) ps).isNone | _ => false) = true)
    ∧ (∃ k a u, piecesNow (rig t) (asker (rig t) 1) .store (st 0).va 8 = (.error (.fault k a), u))
    ∧ (thr s 1).qb.getLsbD 0 = true ∧ q.ahead.length < 16 ∧ q.pos + 0 < q.count
    ∧ (match piecesNow s (asker s 1) .load ld.va 8 with
        | (.ok ps, u) => decide (u = s) && (accessWait s 1 ld ps).isNone && !ownPending s 1 ps | _ => false) = true
    ∧ look w.accs 3 = some a ∧ a.failed = false ∧ (stream (thr w 1) 0).ahead = [] ++ .wait 3 [] false :: []
    -- the halves of a pair at a word of a spill: neither has come, the trail has, and they agree
    ∧ (let k (m : Tab Bool) (c : Tab (List Word)) : State := { s with cores := [(0, { matched := m, compare := c })] }
       let lead := { t with lt := true }
       let at_ := 16 + leadSlot lead 1
       let told := [BitVec.ofNat 64 t.saves, (t.wsp - 192 : Word), lookD (otherWin t) 0 0]
       lookD (Machine.core (k [] []) 0).matched at_ false = false ∧ look (Machine.core (k [] []) 0).compare at_ = none
       ∧ lookD (Machine.core (k [(at_, true)] []) 0).matched at_ false = true ∧ look (Machine.core (k [] [(at_, told)]) 0).compare at_ = some told
       ∧ turnIdles lead (turnAt 1 17) = true) :=
  ⟨rfl, rfl, rfl, by decide +kernel, by decide +kernel, ⟨_, _, _, rfl⟩, by decide +kernel, by decide +kernel, by decide +kernel,
    by decide +kernel, rfl, rfl, rfl, by decide +kernel⟩

/-- A message of thread 1 to core 1 of its own compartment and to another compartment; a thread that leaves. -/
def note (tgt : Nat) : Msg :=
  { tgt := tgt, prio := 0, len := 8, dest := 1, mcast := false, pkg := 0, pc := 0x400, ctx := 1, launch := none, stid := 1, seq := 1, data := List.replicate 8 3 }

def sends : SendEntry :=
  { tid := some 1, ctx := 1, bodies := [(.msg (note 1), 1), (.msg (note 1), 512), (.msg (note 1), 65536)], cls := .dispatch, before := 0, launch := none }
def sender : State := { rig { user with life := .moving, goal := some 512 } with cores := [(0, { sendQ := [sends] })] }
def leaver : State := rig { user with life := .moving, goal := some 512 }

theorem witness_NetworkSteps_departures :
    (Machine.core sender 0).sendQ = sends :: [] ∧ entryReady sender 0 sends = true ∧ (∀ r ∈ (Machine.core sender 0).reds, r.owed = []) ∧ sends.bcast = none ∧ sender.packets = [] ∧ sender.power = true
    ∧ (thr leaver 1).life = .moving ∧ (thr leaver 1).goal = some 512 ∧ (thr leaver 1).spillFault = none ∧ departReady leaver 1 = true
    ∧ leaver.packets = [] :=
  ⟨rfl, by decide +kernel, nofun, rfl, rfl, rfl, rfl, rfl, rfl, by decide +kernel, rfl⟩

/-- A packet at each stage: with a flit to send, with one travelling, at its port, and ready at its core. -/
theorem witness_NetworkSteps_packets :
    let p (st : Stage) (b : Body) : Packet := { cls := .dispatch, src := 0, dst := 31, body := b, core := 31 * 512, flits := 2, sent := 1, arrived := 0, stage := st }
    let s (q : Packet) : State := { rig user with packets := [(8, q)], reqs := [(4, someReq)], accs := [(3, someAcc)] }
    let sending := p .sending (.msg (note 1))
    waitingPair (s sending) 0 31 = [(8, sending)] ∧ look (s sending).packets 8 = some sending ∧ (p .flying (.msg (note 1))).arrived < 1
    ∧ (p .port (.req [4])).stage = .port ∧ look (s sending).reqs 4 = some someReq ∧ look (s sending).accs 3 = some someAcc
    ∧ rising (s sending).packets = true ∧ (∀ q ∈ (s sending).packets, q.1 ≠ 8 → q.2.dst ≠ 31)
    ∧ (Machine.core (s sending) (31 * 512)).intake.length < 4 ∧ landingRoom (Machine.core (s sending) (31 * 512)) 0 = true
    ∧ 31 ∉ (ctx (s sending) 1).stopped :=
  ⟨rfl, rfl, by decide, rfl, rfl, rfl, rfl, by decide +kernel⟩

/-- The words of an access of a unit can be asked for at once, with nothing else changed. -/
def asksNow (s : State) (u : Asker) (va : Word) (n : Nat) : Bool :=
  match piecesNow s u .load va n with | (.ok (_ :: _), t) => decide (t = s) | _ => false

/-- An overflow ring at virtual 0x10000 with one record; an acknowledgement at its port's far side. -/
theorem witness_NetworkSteps_ring :
    let s (a : Option RingAccess) : State :=
      { mapped user with launches := [(7, { launch with rsz := 1, rbase := 0x10000 })], cores := [(0, { rings := [(7, (0, 1))], ringAcc := a })] }
    let r : PairRec := ⟨0, 0, 1, some 7⟩
    let y := { someAcc with agent := .ring 0, left := 0, val := 5 + 2 ^ 64 * 6 }
    let u (r : Option PairRec) : State := { s (some ⟨3, 7, r⟩) with accs := [(3, y)] }
    let a : Packet := { cls := .reply, src := 1, dst := 0, body := .ack, core := 0, flits := 1, stage := .ready }
    (Machine.core (s none) 0).pairQ.length < 256 ∧ (Machine.core (s none) 0).rings = [(7, 0, 1)] ∧ (Machine.core (s none) 0).ringAcc = none
    ∧ ((ringOf (s none) 0 7).any fun a => a.1 == 0x10000 && a.2.2 == 1) = true ∧ 0 ∉ (ctx (s none) 1).stopped
    ∧ asksNow (s none) (queueUnit 0 1) 0x10000 16 = true
    ∧ look (u none).accs 3 = some y ∧ y.replies = 0 ∧ y.poisoned = false ∧ y.stale = false ∧ (Machine.core (u none) 0).ringAcc = some ⟨3, 7, none⟩
    ∧ (Machine.core (u (some r)) 0).ringAcc = some ⟨3, 7, some r⟩
    ∧ look { s none with packets := [(8, a)] }.packets 8 = some a ∧ a.stage = .ready ∧ a.body = .ack :=
  ⟨by decide +kernel, rfl, rfl, by decide +kernel, by decide +kernel, by decide +kernel, rfl, rfl, rfl, rfl, rfl, rfl, rfl, rfl, rfl⟩

/-- A core with a record in its deck; one with a message in its intake; one with a migrating thread; one with a system-class start. -/
def starting (k : Machine.Core) : State := { rig user with cores := [(2, k)] }
def deckCore : Machine.Core := { deck := [⟨[0x400, 1, 2, 3, 4, 5, 6, 7], 1, none, 3⟩] }
def moverCore : Machine.Core := { intake := [(3, .mig { origin := 16, name := 9, ctx := 1, launch := none, image := user })] }
def bell : Packet := { cls := .system, src := 0, dst := 0, body := .msg (note 2), core := 2, flits := 1, stage := .ready }

theorem witness_ThreadStarts :
    (nextTaken (starting deckCore) 2).any (fun p => p.1 == 27 && p.2.1 == .deck 0 && !p.2.2.lt) = true
    ∧ (nextTaken (starting { intake := [(3, .msg (note 0))] }) 2).any (fun p => p.2.1 == .intake && !p.2.2.lt) = true
    ∧ (nextTaken (starting { prepared := some ⟨⟨0, 0, 1, none⟩, [], 0x400, true, 3⟩ }) 2).any (fun p => p.2.1 == .prepared && p.2.2.lt) = true
    ∧ (nextTaken (starting moverCore) 2).any (fun p => p.2.1 == .intake && p.2.2.image.isSome) = true
    ∧ (sources (starting deckCore) 2).length = 1 ∧ (sources (starting moverCore) 2).length = 1
    ∧ (Machine.core (starting moverCore) 2).intake.length = 1 ∧ (thr (starting deckCore) (2 * 16 + 1)).life = .free
    ∧ (thr (starting deckCore) (2 * 16 + 9)).life = .free ∧ 0 ∉ (ctx (starting deckCore) 1).stopped
    ∧ systemWaiting { starting {} with packets := [(8, bell)] } 2 = [(8, bell)] ∧ (thr (starting {}) (2 * 16)).life = .free := by
  decide +kernel

/-- A trap that waits for a running thread and for a parked one; a queue with room and a full one; a deadline to come. -/
def told (t : Thread) (n : Nat) : State :=
  { rig { t with async := [⟨.preEmption, 0⟩] } with
    cmpts := [(0, { cyc := 17, t := 34, part := some 0, faultNet := [message], faultQ := List.replicate n message })] }

theorem witness_TrapsAtTurns :
    (thr (told user 0) 1).async = ⟨.preEmption, 0⟩ :: [] ∧ (thr (told user 0) 1).life = .run ∧ (thr (told user 0) 1).it = false
    ∧ (thr (told user 0) 1).net = none ∧ (thr (told user 0) 1).prv ≠ .f ∧ Cause.preEmption.contains = false ∧ (thr (told user 0) 1).park = none
    ∧ abandons .preEmption .sendRoom = true ∧ (cmpt (told user 0) 0).faultNet = message :: [] ∧ (cmpt (told user 255) 0).faultQ.length < 256
    ∧ 256 ≤ (cmpt (told user 256) 0).faultQ.length ∧ (cmpt (told user 0) 0).t < 35 := by decide +kernel

theorem witness_TrapsAtTurns_deadline : ClockOk (told { user with park := some (.again (.halt 90) 17) } 0) := by
  intro k
  by_cases h : k = 0
  · subst h; intro h; cases h
  · intro hf
    have e : cmpt (told { user with park := some (.again (.halt 90) 17) } 0) k = {} := by
      simp [cmpt, told, lookD, look, Ne.symm h]
    rw [e] at hf
    cases hf

/-- A contained thread and its message in the ranger's queue; and one that has been resumed since. -/
def halted (l : Life) : State :=
  { rig { user with life := l, why := some .illegalEncoding } with
    agenda := [.firmware 0], cmpts := [(0, { part := some 0, faultQ := [{ message with ptid := 1, cause := .illegalEncoding, nth := false }] })] }

theorem witness_TrapsAtTurns_firmware :
    (halted .contained).agenda = .firmware 0 :: [] ∧ ((cmpt (halted .contained) 0).faultQ.map (·.ptid)) = [1]
    ∧ ((cmpt (halted .contained) 0).faultQ.all fun m => !m.nth && m.prv != .f && m.cause.contains) = true
    ∧ (thr (halted .contained) 1).life = .contained ∧ (thr (halted .run) 1).life ≠ .contained := by decide +kernel

/-- R225: the released firmware lets a contained thread enter its trap routine. -/
theorem test_firmware_reflects :
    (reflect 0 (halted .contained)).any (fun u =>
      (thr u 1).life == .run && (thr u 1).prv == .s && (thr u 1).it && (thr u 1).tca == 0x17 && (cmpt u 0).faultQ.isEmpty) = true := by
  decide +kernel

/-- A pair whose anchor is a node at virtual 0x10100, with a nullary end or another node, and the start unit at work on it; the
rule that its tile holds for classes 16 and 16, or 3 and 16. -/
def pairing (other : Word) (p : Option Prep) (key : Nat) (rule : Word) : State :=
  let s := mapped user
  { s with
    tiles := [(0, { tile s 0 with rules := [(1, [(key, rule)])] })]
    ctxs := [(1, { ctx s 1 with rules := 0x10000 })]
    cores := [(0, { pairQ := [⟨0x2000_0000_0001_0100, other, 1, none⟩], prep := p })], accs := [(3, { someAcc with left := 0 })] }
def nullary : Word := 0xC000_0000_0000_0000
def partner : Word := 0x2000_0000_0001_0140

theorem witness_DispatchAndStealing_pairs :
    let s := pairing nullary none 784 0x8000_0000_0000_0800
    let known (v : Nat) : Bool := (v / 2 ^ 56 % 256 == 1 || decide (16 ≤ v / 2 ^ 56 % 256)) && v / 2 ^ 50 % 4 != 3
    let header : Nat := 0x1000_0000_0000_0000
    (Machine.core s 0).prepared = none ∧ (Machine.core s 0).pairQ.length = 1 ∧ 0 ∉ (ctx s 1).stopped ∧ (Machine.core s 0).prep = none
    ∧ tagOf 0x2000_0000_0001_0100 = 1 ∧ tagOf 0 = 0 ∧ isNullary nullary = true ∧ tagOf nullary - 3 = 3 ∧ tagOf partner = 1
    ∧ asksNow s (startUnit 0 1) (bodyOf 0x2000_0000_0001_0100) 32 = true ∧ asksNow s (startUnit 0 1) (bodyOf partner) 32 = true
    ∧ known 0 = false ∧ known (header + 3 * 2 ^ 48) = true ∧ (header + 3 * 2 ^ 48) / 2 ^ 48 % 4 = 3
    ∧ known header = true ∧ header / 2 ^ 48 % 4 ≠ 3
    ∧ [some (⟨none, [header]⟩ : Prep), some ⟨some 3, []⟩, some ⟨some 3, [header, 0]⟩, some ⟨none, [header, header]⟩].all
      (fun p => decide ((Machine.core (pairing partner p 784 0) 0).prep = p)) = true
    ∧ (look s.accs 3).any (fun x => x.left == 0 && x.replies == 0 && !x.poisoned && !x.stale) = true
    ∧ waitedRule ⟨0x2000_0000_0001_0100, nullary, 1, none⟩ header 0 = 784 ∧ waitedRule ⟨0x2000_0000_0001_0100, partner, 1, none⟩ header header = 4112
    ∧ cachedRule s 0 1 4112 = none ∧ cachedRule s 0 1 784 = some 0x8000_0000_0000_0800 ∧ (0 : Word).getLsbD 63 = false
    ∧ (0x8000_0000_0000_0001 : Word).getLsbD 63 = true ∧ (0x8000_0000_0000_0001 : Word).getLsbD 0 = true
    ∧ (0x8000_0000_0000_0800 : Word).getLsbD 63 = true ∧ (0x8000_0000_0000_0800 : Word).getLsbD 0 = false ∧ (0x8000_0000_0000_0800 : Word).extractLsb' 16 45 = 0
    ∧ asksNow s (startUnit 0 1) (BitVec.ofNat 64 (0x10000 + 8 * 784)) 8 = true
    ∧ homeCore s 0 0x80_0000_0100 = some 0 := by decide +kernel

/-- Core 1 idle beside core 0, whose records its launch lets go; two stages of a tile, one dry. -/
def stealing : State :=
  { rig user with
    cores := [(0, { deck := [⟨[0x400], 1, some 7, 3⟩] }), (1, { stealNext := 6 })], launches := [(7, { launch with running := true })] }
def staged : State :=
  { rig user with
    threads := [], cores := [(0, { chq := [(1, [⟨5, 1, 9⟩])] }), (1, { chq := [(0, [⟨3, 1, 9⟩])] })], launches := [(7, { launch with running := true })]
    tiles := [(0, { roles := [(0, 4 * 2 ^ 60 + 2 ^ 55 + 2 ^ 32), (1, 4 * 2 ^ 60 + 2 ^ 56 + 0x400)] })] }

theorem witness_DispatchAndStealing_cores :
    (victims 1).getD ((Machine.core stealing 1).stealNext % 22) 1 = 0 ∧ (cmpt stealing 0).fixt = false ∧ (Machine.core stealing 1).mapped = true
    ∧ idleToSteal stealing 1 = true ∧ ((Machine.core stealing 0).deck.all (stealable stealing 1)) = true ∧ 0 ∉ (ctx stealing 1).stopped
    ∧ (stageLaunch staged 0).isSome = true ∧ roleOf staged 0 / 2 ^ 60 % 16 = 4 ∧ roleOf staged 0 / 2 ^ 55 % 2 = 1 ∧ roleOf staged 0 / 2 ^ 32 % 2 ^ 16 ≠ 0
    ∧ (lookD (Machine.core staged 0).chq 0 []).length = 0 ∧ roleOf staged 1 / 2 ^ 60 % 16 = 4 ∧ roleOf staged 1 / 2 ^ 56 % 16 = 1
    ∧ (List.range 6).all (fun i => roleOf staged (2 + i) / 2 ^ 60 % 16 != 4) = true
    ∧ lookD (Machine.core staged 0).chq 1 [] = [⟨5, 1, 9⟩] ∧ (lookD (Machine.core staged 1).chq 0 []).length < 16 := by decide +kernel

/-! ## The host and the firmware -/

/-- A host link with kicks waiting, a slot that matches, and a record waiting. -/
def linked (n : Nat) (slots : Tab (List Word)) (posted : Nat) (now : Nat := 0) (booted : Bool := true) : State :=
  let s := rig user
  { s with booted := booted, now := now, host := { s.host with kicks := List.replicate n (1, 0), slots := slots, posted := posted, waiting := [⟨0x33, 0, 1, 0, 0, 0, 4095⟩] } }
def packet (seq kind c : Nat) : List Word := BitVec.ofNat 64 (seq * 2 ^ 32 + kind * 2 ^ 24 + c * 2 ^ 12) :: List.replicate 15 0

/-- The matching and the missing packet of kick 1; a bad kick; the ring at its last free entry and full. Whether the firmware takes
an image is an opaque value: one of the two clauses on an image holds for each. -/
theorem witness_HostQueues :
    16 ≤ (linked 16 [] 0).host.kicks.length ∧ (linked 15 [] 0).host.kicks.length < 16
    ∧ (linked 1 [] 0).host.kicks = (1, 0) :: [] ∧ (1 : Word).setWidth 32 = (linked 1 [] 0).host.last + 1 ∧ 0 ≤ (linked 1 [] 0).now
    ∧ 0 + 120 * max 1 (((linked 1 [] 0).now - 0 + 119) / 120) ≤ 4800 ∧ 4800 < 120 * max 1 (((linked 1 [] 0 4801).now - 0 + 119) / 120)
    ∧ 4800 < (linked 1 [] 0 4801).now
    ∧ (2 : Word).setWidth 32 ≠ (linked 1 [] 0).host.last + 1
    ∧ look (linked 1 [(1, packet 1 4 1)] 0).host.slots 1 = some (packet 1 4 1) ∧ ((packet 1 4 1).headD 0).toNat / 2 ^ 32 = 1
    ∧ ((packet 1 4 1).headD 0).toNat % 2 ^ 12 = 0 ∧ ((packet 1 4 1).headD 0).toNat / 2 ^ 24 % 2 ^ 8 = 4 ∧ (linked 1 [] 0).booted = true
    ∧ (linked 1 [] 0 0 false).booted = false ∧ ((packet 1 10 1).headD 0).toNat / 2 ^ 24 % 2 ^ 8 = 10 ∧ (packet 1 4 1).length = 16
    ∧ (linked 1 [] 255).host.posted < (linked 1 [] 255).host.consumed.toNat + 256
    ∧ (linked 1 [] 256).host.consumed.toNat + 256 ≤ (linked 1 [] 256).host.posted
    ∧ (3 : Word).toNat ≤ (linked 1 [] 3).host.posted ∧ (linked 1 [] 3).host.posted < (4 : Word).toNat ∧ (linked 1 [] 0).flaws = []
    ∧ Memory.wf (linked 1 [] 0).mem = true := by decide +kernel

/-- Each kind of packet, good and bad, in a state that takes it and in one that does not. -/
def taking (ws : List Word) : State := let s := rig user; { s with host := { s.host with taken := [ws] } }
def setup : List Word := BitVec.ofNat 64 (1 * 2 ^ 32 + 2 * 2 ^ 24) :: 0xFFFF_FFFF_FFFF_FF00 :: List.replicate 3 (-1) ++ List.replicate 11 0
def creation : List Word := (packet 1 7 2).set 1 0x1_0000

theorem witness_FirmwareWork_packets :
    (taking setup).host.taken = setup :: [] ∧ (List.range 11).all (fun j => setup.getD (5 + j) 0 == 0) = true
    ∧ setupCmpts (taking setup) setup 0 = cmptsOf (taking setup) 0
    ∧ setupCmpts (taking (setup.set 1 (-1))) (setup.set 1 (-1)) 0 ≠ cmptsOf (taking (setup.set 1 (-1))) 0
    ∧ (ctx (taking setup) 2).live = false ∧ (ctx (taking setup) 1).live = true ∧ cmptsOf (taking setup) 0 ≠ []
    ∧ creation.getD 1 0 % 65536 = 0 ∧ (creation.headD 0).toNat / 2 ^ 12 % 2 ^ 12 = 2 ∧ (creation.headD 0).toNat / 2 ^ 24 % 2 ^ 8 = 7
    ∧ (ctx (taking (packet 1 8 1)) 1).killing = none ∧ (ctx { taking [] with ctxs := [(1, { live := true, killing := some (none, 0, []) })] } 1).killing ≠ none
    ∧ launchesOf (taking (packet 1 8 1)) 1 = false ∧ (taking (packet 1 8 1)).threads.any (fun p => p.2.life != .free && p.2.ctx == 1) = true
    ∧ { taking (packet 1 8 1) with threads := [] }.threads = [] ∧ rising (taking setup).ctxs = true := by decide +kernel

/-- A header at 0x101_40E9_1240 with one logical core and an empty task list. -/
def launching (hs : List Word) : State :=
  let s := walking tables
  { s with
    host := { s.host with taken := [(packet 1 1 1).set 1 0x101_40E9_1240] }, frames := [(0x12_3450, { gen := 3 })]
    mem := (hs.foldl (fun (a : List Cell × Nat) w => (setBytes a.1 a.2 8 w.toNat, a.2 + 8)) (s.mem, 0x12_3450_1240)).1 }
def header : List Word := [2 ^ 32, 0x101_40E9_1800, 0, 0, 0, 0, 0, 0, 0, 0, 0, 2 ^ 52, 0, 0, 0, 0]

def headerNats : List Nat := header.map BitVec.toNat

theorem witness_FirmwareWork_launch_header :
    (ctx (launching header) 1).live = true ∧ 0x101_40E9_1240 % 64 = 0 ∧ headerPlace (launching header) 1 0x101_40E9_1240 = true
    ∧ (List.range 14).all (fun j => ((packet 1 1 1).set 1 0x101_40E9_1240).getD (2 + j) 1 == 0) = true
    ∧ (header.getD 13 0).getLsbD 63 = false := by decide +kernel

theorem witness_FirmwareWork_launch_words :
    (match readWords (launching header) 1 0x101_40E9_1240 16 with | .val hs _ => hs == headerNats | _ => false) = true := by decide +kernel

theorem witness_FirmwareWork_launch_taken :
    (match captureLaunch (launching header) 1 1 headerNats with | .val .. => true | _ => false) = true := by decide +kernel

theorem witness_FirmwareWork_launch_refused :
    (match captureLaunch (launching header) 1 1 ((header.set 0 0).map BitVec.toNat) with | .bad _ => true | _ => false) = true := by decide +kernel

/-- A launch at the head of its partition's queue; one that runs, idle, in the first sweep and in the second; a mode change. -/
def queued (l : Launch) (p : Part) : State := { rig user with launches := [(7, l)], parts := [(0, p)] }

theorem witness_FirmwareWork_launches :
    let two (l : Launch) : State := { queued l {} with threads := [], cores := [(0, {}), (1, {})] }
    let half : Launch := { launch with reading := some { seen := [0] } }
    (part (queued { launch with running := false } { queue := [7] }) 0).queue = [] ++ 7 :: []
    ∧ tilesReady (queued launch { queue := [7] }) 1 (cmptsOf (queued launch { queue := [7] }) 0) = true
    ∧ passes (queued launch {}) 1 0 = true ∧ passes { queued launch {} with cmpts := [(0, { part := some 0, ran := 1 })] } 1 0 = false
    ∧ (part (queued launch { queue := [7] }) 0).change = none ∧ clockMode (queued launch { queue := [7] }) 0 = launch.fixt
    ∧ clockMode (queued launch {}) 0 ≠ { launch with fixt := true }.fixt ∧ 7 ∉ (part (queued launch {}) 0).queue
    ∧ launch.running = true ∧ sweptCores (two launch) 7 launch = [0, 1] ∧ sweptCores (queued launch {}) 7 launch = []
    ∧ ((sweptCores (two half) 7 half).filter fun c => !(half.reading.getD {}).seen.contains c) = [1] ∧ (half.reading.getD {}).idle = true
    ∧ coreIdle (two half) 7 half 1 = true ∧ (ctx (two half) 1).stopped = [] ∧ lookD (Machine.core (two half) 1).sent 7 0 = lookD (Machine.core (two half) 1).recv 7 0
    ∧ launch.sweep = none ∧ { launch with sweep := some (0, 0) }.sweep = some (0, 0) ∧ launch.etgt = false
    ∧ coreIdle { queued launch {} with threads := [(1, { user with launch := some 7 })] } 7 launch 0 = false
    ∧ (part (queued launch { change := some (true, 90) }) 0).change = some (true, 90) ∧ (part (queued launch { change := some (true, 90) }) 0).queue = []
    ∧ cmptsOf (queued launch { change := some (true, 90) }) 0 ≠ [] ∧ rising (queued launch {}).cmpts = true := by decide +kernel

/-- A context being pre-empted, being killed with one and with two reports to come, and with saved items; the packets on it. -/
def controlled (c : Ctx) (ws : List Word) : State := { taking ws with ctxs := [(1, { c with live := true })] }
def saved : Saved := { core := 0, deck := [⟨[0x400], 1, none, 3⟩], threads := 1 }

theorem witness_ContextControl :
    (ctx (controlled { preempt := some ([0], 5, 90) } []) 1).preempt = some ([0], 5, 90)
    ∧ (ctx (controlled { killing := some (some 5, 0, [1]) } []) 1).killing = some (some 5, 0, [1])
    ∧ (ctx (controlled { killing := some (some 5, 0, [1, 65]) } []) 1).killing = some (some 5, 0, [1, 65])
    ∧ killedWrites (controlled {} []) 1 = false ∧ holders (controlled {} []) 1 ≠ [] ∧ holders { controlled {} [] with threads := [] } 1 = []
    ∧ (controlled {} (packet 1 4 1)).host.taken = packet 1 4 1 :: [] ∧ ((packet 1 4 1).headD 0).toNat / 2 ^ 12 % 2 ^ 12 = 1
    ∧ ((packet 1 3 1).headD 0).toNat / 2 ^ 24 % 2 ^ 8 = 3 ∧ ((packet 1 9 1).headD 0).toNat / 2 ^ 24 % 2 ^ 8 = 9
    ∧ (ctx (controlled { saved := [saved] } []) 1).saved = [saved] ∧ (systemWaiting (controlled { saved := [saved] } []) 0).length < 4
    ∧ tilesReady (controlled { saved := [saved] } []) 1 [0] = true
    ∧ (ctx (controlled {} []) 1).preempt = none ∧ (ctx (controlled {} []) 1).killing = none
    ∧ (controlled {} []).threads.all (fun p => p.2.ctx == 1 && p.2.life == .run && cmptOf p.1 == 0) = true := by decide +kernel

/-- A context whose first page table lists nothing has no page to save anything in. -/
theorem witness_ContextControl_area : ∀ a ≥ (ctx (controlled {} []) 1).save, ∃ e, walkPage (controlled {} []) 1 a = .error e := by
  intro a _
  have h : levelIndex a 0 < 2 ^ 13 := Nat.mod_lt _ (by decide)
  have hp : placeOf (0 + 8 * levelIndex a 0) = .hbm := by
    unfold placeOf
    rw [if_pos (by omega)]
  have hr : readHome (controlled {} []) (controlled {} []).pkg (0 + 8 * levelIndex a 0) 8 = some 0 := by
    simp only [readHome, if_pos, hp]
    rfl
  refine ⟨.translationInvalid, ?_⟩
  show walkFrom (controlled {} []) 1 a 0 [0, 1, 2, 3] = _
  simp only [walkFrom, hr]
  rfl

/-- The host address of the window's first byte as a packet word. -/
theorem hostBase_word : (BitVec.ofNat 64 Config.hostBase).toNat = Config.hostBase ∧ Config.hostBase % 65536 = 0 := by
  have h : Config.hostBase = Config.hostPage.toNat * 65536 := rfl
  have := Config.hostPage.isLt
  constructor
  · rw [BitVec.toNat_ofNat, Nat.mod_eq_of_lt (by omega)]
  · omega

/-- A log read of one entry, and an attestation without measurements, at the base of the host window; and both with address 1. -/
def asking (ws : List Word) : State := { taking ws with log := [⟨1, false, false, 0, 0, 0, 0, 0, 0⟩] }

def logPacket : List Word := ((packet 1 5 0).set 1 (BitVec.ofNat 64 Config.hostBase)).set 2 4096
def attestPacket : List Word := ((packet 1 6 0).set 9 (BitVec.ofNat 64 Config.hostBase)).set 10 0xFFFF_FFFF

theorem logPacket_words : logPacket.getD 1 0 = BitVec.ofNat 64 Config.hostBase ∧ logPacket.getD 2 0 = 4096 := ⟨rfl, rfl⟩
theorem attestPacket_words : attestPacket.getD 9 0 = BitVec.ofNat 64 Config.hostBase ∧ attestPacket.getD 10 0 = 0xFFFF_FFFF := ⟨rfl, rfl⟩

theorem witness_LogAndAttestation_state (ws : List Word) :
    (asking ws).host.taken = ws :: [] ∧ (asking ws).log.length = 1 ∧ (asking ws).flaws = [] ∧ (asking ws).measures = [] := ⟨rfl, rfl, rfl, rfl⟩

theorem witness_LogAndAttestation_memory : MemoryOk (asking []) := by unfold MemoryOk; decide +kernel

theorem witness_LogAndAttestation_log :
    (logPacket.getD 1 0).toNat % 32 = 0 ∧ (logPacket.getD 2 0).toNat = 4096 ∧ Config.hostBase ≤ (logPacket.getD 1 0).toNat
    ∧ (logPacket.getD 1 0).toNat + 32 ≤ Config.hostBase + 0x1000_0000_0000 ∧ ((packet 1 5 0).set 1 1).getD 1 0 % 32 ≠ 0 := by
  obtain ⟨h, h'⟩ := hostBase_word
  rw [logPacket_words.1, logPacket_words.2, h]
  exact ⟨by omega, by decide, Nat.le_refl _, by omega, by decide⟩

theorem witness_LogAndAttestation_attestation :
    (attestPacket.getD 9 0).toNat % 64 = 0 ∧ (attestPacket.getD 10 0).toNat < 2 ^ 32 ∧ 8 + 32 + 64 + 4627 ≤ (attestPacket.getD 10 0).toNat := by
  obtain ⟨h, h'⟩ := hostBase_word
  rw [attestPacket_words.1, attestPacket_words.2, h]
  exact ⟨by omega, by decide, by decide⟩

end Sys2Proof.Tests
end

section
/-! SUPPORT. Power (R2): what the loss of the device's state leaves in memory, what applying and removing power come to, and the
statement of the family on scope. -/

namespace Sys2Proof.Machine

/-! ## Bytes that are kept -/

/-- Cells kept by a test on their keys alone: a byte whose key passes it reads as before, and any other reads as unlisted. -/
theorem byteAt_filter_key (p : Nat → Bool) (m : List Host.Cell) (a : Nat) :
    byteAt (m.filter fun c => p c.1) a = if p a then byteAt m a else 0 := by
  induction m with
  | nil => simp [byteAt]
  | cons c m ih =>
    obtain ⟨k, v⟩ := c
    by_cases hk : k = a
    · subst hk
      cases hp : p k <;> simp [byteAt, ih, hp]
    · cases hp : p k <;> simp [byteAt, ih, hp, hk]

/-- A physical address lies below the package number in a key. -/
theorem keyOf_div {pkg pa : Nat} (h : pa < 2 ^ 48) : keyOf pkg pa / 2 ^ 48 = pkg := by
  unfold keyOf
  omega

theorem keyOf_mod {pkg pa : Nat} (h : pa < 2 ^ 48) : keyOf pkg pa % 2 ^ 48 = pa := by
  unfold keyOf
  omega

/-- No part of the device is another package's byte, or a byte of host memory (R2, R40). -/
theorem elsewhere_keyOf {own pkg pa : Nat} (h : pa < 2 ^ 48) :
    elsewhere own (keyOf pkg pa) = true ↔ pkg ≠ own ∨ ∃ o, placeOf pa = .host o := by
  unfold elsewhere
  rw [keyOf_div h, keyOf_mod h]
  cases placeOf pa <;> simp

/-- The memory that stands when the device's state is lost. -/
theorem byteAt_cold (s : State) (a : Nat) : byteAt (cold s).mem a = if elsewhere s.pkg a then byteAt s.mem a else 0 :=
  byteAt_filter_key (elsewhere s.pkg) s.mem a

/-- Host memory and the bytes of other packages stay (R2). -/
theorem byteAt_cold_elsewhere (s : State) {pkg pa : Nat} (h : pa < 2 ^ 48) (he : pkg ≠ s.pkg ∨ ∃ o, placeOf pa = .host o) :
    byteAt (cold s).mem (keyOf pkg pa) = byteAt s.mem (keyOf pkg pa) := by
  rw [byteAt_cold, if_pos ((elsewhere_keyOf h).mpr he)]

/-- A byte of the package's own is lost, and reads 0 (R2). -/
theorem byteAt_cold_own (s : State) {pa : Nat} (h : pa < 2 ^ 48) (hp : ∀ o, placeOf pa ≠ .host o) :
    byteAt (cold s).mem (keyOf s.pkg pa) = 0 := by
  have hn : ¬ elsewhere s.pkg (keyOf s.pkg pa) = true := by
    rw [elsewhere_keyOf h]
    rintro (hs | ⟨o, ho⟩)
    · exact hs rfl
    · exact hp o ho
  rw [byteAt_cold, if_neg hn]

/-! ## Power applied and removed -/

/-- Power on a device that has none starts it with nothing of its own. -/
theorem exec_powerOn_of_off {s : State} (h : s.power = false) : exec .powerOn s = .next (cold s) := by
  change execPowerOn s = _
  simp [execPowerOn, h]

/-- Power on a device that has it changes nothing. -/
theorem exec_powerOn_of_on {s : State} (h : s.power = true) : exec .powerOn s = .next s := by
  change execPowerOn s = _
  simp [execPowerOn, h]

theorem exec_powerOff_of_on {s : State} (h : s.power = true) : exec .powerOff s = .next { cold s with power := false } := by
  change event powerOff s = _
  simp [event, powerOff, h]

/-! ## Reset -/

/-- No compartment is in fixed timing at reset, so none has a cycle to keep to its network time (R206). -/
theorem clockOk_reset : ClockOk State.reset := by
  intro k hk
  have hc : cmpt State.reset k = {} := rfl
  rw [hc] at hk
  exact absurd hk (by decide)

theorem memoryOk_reset : MemoryOk State.reset := rfl

/-- Settles O9: what both ends of power leave is `cold`, whose memory is the cells elsewhere (`byteAt_cold`); the rest is reset. -/
theorem powerLosesState : Obligations.PowerLosesState := by
  unfold Obligations.PowerLosesState
  refine ⟨memoryOk_reset, clockOk_reset, fun _ => rfl, fun s => ?_⟩
  refine ⟨(cold s).mem, (cold s).frames, exec_powerOn_of_off, fun on => ⟨exec_powerOn_of_on on, exec_powerOff_of_on on⟩, ?_⟩
  intro pkg pa hpa
  refine ⟨byteAt_cold_elsewhere s hpa, fun own device => ?_⟩
  subst own
  exact byteAt_cold_own s hpa device

end Sys2Proof.Machine
end

section
/-! SUPPORT. What the operations of the model leave of memory (R4): each of them, but for the few that write at a home, changes no byte
of it. One lemma for each operation, in the order of the model; a simp lemma wherever its statement can rewrite. -/

namespace Sys2Proof.Machine

variable {s t : State}

/-! ## Parts of a step put together -/

@[simp] theorem mem_ite (c : Prop) [Decidable c] (s t : State) : (if c then s else t).mem = if c then s.mem else t.mem := by
  split <;> rfl

/-- The state that a part of an instruction leaves. -/
def Res.state {α : Type} : Res α → State
  | .ok _ s => s
  | .stop _ s => s

@[simp] theorem Res.state_ok {α : Type} (a : α) (s : State) : (Res.ok a s).state = s := rfl
@[simp] theorem Res.state_stop {α : Type} (e : Eff) (s : State) : (Res.stop e s : Res α).state = s := rfl

theorem Res.mem_bind_of {α β : Type} {m : List Host.Cell} {r : Res α} {f : α → State → Res β} (hr : r.state.mem = m)
    (hf : ∀ a t, t.mem = m → (f a t).state.mem = m) : (r.bind f).state.mem = m := by
  cases r with
  | ok a s => exact hf a s hr
  | stop e s => exact hr

@[simp] theorem Res.mem_bind {α β : Type} {r : Res α} {f : α → State → Res β} (h : ∀ a t, (f a t).state.mem = t.mem) :
    (r.bind f).state.mem = r.state.mem :=
  Res.mem_bind_of rfl fun a t ht => (h a t).trans ht

theorem Res.mem_run_of {α : Type} {m : List Host.Cell} {r : Res α} {f : α → State → Eff × State} (hr : r.state.mem = m)
    (hf : ∀ a t, t.mem = m → (f a t).2.mem = m) : (r.run f).2.mem = m := by
  cases r with
  | ok a s => exact hf a s hr
  | stop e s => exact hr

@[simp] theorem Res.mem_run {α : Type} {r : Res α} {f : α → State → Eff × State} (h : ∀ a t, (f a t).2.mem = t.mem) :
    (r.run f).2.mem = r.state.mem :=
  Res.mem_run_of rfl fun a t ht => (h a t).trans ht

/-- The state that a reading of the firmware leaves, `s` where it must wait. -/
def Read.state {α : Type} (r : Read α) (s : State) : State :=
  match r with
  | .val _ t => t
  | .wait => s
  | .bad t => t

@[simp] theorem Read.state_val {α : Type} (a : α) (s t : State) : (Read.val a t).state s = t := rfl
@[simp] theorem Read.state_wait {α : Type} (s : State) : (Read.wait : Read α).state s = s := rfl
@[simp] theorem Read.state_bad {α : Type} (s t : State) : (Read.bad t : Read α).state s = t := rfl

theorem Read.mem_bind {α β : Type} {r : Read α} {f : α → State → Read β} (hr : (r.state s).mem = s.mem)
    (hf : ∀ a t, ((f a t).state t).mem = t.mem) : ((r.bind f).state s).mem = s.mem := by
  cases r with
  | val a t =>
    have h := hf a t
    simp only [Read.bind]
    cases e : f a t <;> rw [e] at h
    · exact h.trans hr
    · rfl
    · exact h.trans hr
  | wait => rfl
  | bad t => exact hr

theorem Read.mem_of_val {α : Type} {r : Read α} {a : α} (hr : (r.state s).mem = s.mem) (h : r = .val a t) : t.mem = s.mem := by
  rw [h] at hr; exact hr

theorem Read.mem_of_bad {α : Type} {r : Read α} (hr : (r.state s).mem = s.mem) (h : r = .bad t) : t.mem = s.mem := by
  rw [h] at hr; exact hr

theorem mem_of_some {o : Option State} (ho : (o.getD s).mem = s.mem) (h : o = some t) : t.mem = s.mem := by
  rw [h] at ho; exact ho

@[simp] theorem mem_foldl {α : Type} {f : State → α → State} (h : ∀ s x, (f s x).mem = s.mem) (l : List α) (s : State) :
    (l.foldl f s).mem = s.mem := foldl_field State.mem f h l s

/-! ## Clocks, registers and the log -/

@[simp] theorem mem_tick (s : State) (c n : Nat) : (tick s c n).mem = s.mem := by simp [tick]

@[simp] theorem mem_tickTo (s : State) (c t : Nat) : (tickTo s c t).mem = s.mem := by simp [tickTo]

@[simp] theorem mem_scale (s : State) (c ev v : Nat) : (scale s c ev v).mem = s.mem := by simp [scale]

@[simp] theorem mem_mapOutCore (s : State) (c : Nat) : (mapOutCore s c).mem = s.mem := by simp [mapOutCore]

@[simp] theorem mem_mapOutTile (s : State) (t : Nat) : (mapOutTile s t).mem = s.mem := by
  rw [mapOutTile, mem_foldl fun s i => mem_mapOutCore s _, setTile_mem]

@[simp] theorem mem_logErr (s : State) (err : Nat) (last inj : Bool) (act src place det : Nat) :
    (logErr s err last inj act src place det).mem = s.mem := by simp [logErr]

@[simp] theorem mem_faultNoThread (s : State) (k : Nat) (c : Cause) (n : Nat) (pc val : Word) (inj : Bool) :
    (faultNoThread s k c n pc val inj).mem = s.mem := by simp [faultNoThread, mem_sendFault]

/-! ## Translation, accesses, requests and streams -/

@[simp] theorem mem_logEcc (s : State) (pa : Nat) (f : Flaw) : (logEcc s pa f).mem = s.mem := by
  unfold logEcc
  split <;> simp

@[simp] theorem mem_noteErrors (s : State) (pkg pa n : Nat) : (noteErrors s pkg pa n).mem = s.mem := by
  unfold noteErrors
  split
  · rfl
  · refine mem_foldl (fun s i => ?_) _ s
    dsimp only
    split
    · split <;> simp
    · rfl

@[simp] theorem mem_noteWrite (s : State) (pkg pa n : Nat) : (noteWrite s pkg pa n).mem = s.mem := by simp [noteWrite]

@[simp] theorem mem_install (s : State) (tl : Nat) (l : Leaf) : (install s tl l).mem = s.mem := by simp [install]

@[simp] theorem mem_noteWalk (s : State) (ctxn va : Nat) : (noteWalk s ctxn va).mem = s.mem := by simp [noteWalk]

@[simp] theorem mem_seenWalk (s : State) (tid ctxn va : Nat) : (seenWalk s tid ctxn va).mem = s.mem := by simp [seenWalk]

@[simp] theorem mem_crossing (s : State) (c : Nat) : (crossing s c).2.mem = s.mem := by
  unfold crossing
  split <;> simp

@[simp] theorem mem_sendPacket (s : State) (cls : Class) (src dst corn flits : Nat) (sender : Option (Nat × Nat)) (b : Body) :
    (sendPacket s cls src dst corn flits sender b).mem = s.mem := by simp [sendPacket]

@[simp] theorem mem_addReqs (s : State) (acc tid : Nat) (q : Ask) (inOrder : Bool) (p : Piece) :
    (addReqs s acc tid q inOrder p).mem = s.mem := (kept_addReqs ..).mem

@[simp] theorem mem_startWalk (s : State) (tid va : Nat) (tval : Word) : (startWalk s tid va tval).mem = s.mem := by
  unfold startWalk
  dsimp only
  (repeat' split) <;> simp

@[simp] theorem mem_unitWalk (s : State) (w : Asker) (va : Nat) : (unitWalk s w va).mem = s.mem := by
  unfold unitWalk
  dsimp only
  (repeat' split) <;> simp

@[simp] theorem mem_checkAsk (s : State) (tid : Nat) (q : Ask) : (checkAsk s tid q).state.mem = s.mem := by
  unfold checkAsk
  dsimp only
  (repeat' split) <;> simp

@[simp] theorem mem_popStream (s : State) (tid j : Nat) : (popStream s tid j).state.mem = s.mem := by
  unfold popStream
  dsimp only
  (repeat' split) <;> simp

@[simp] theorem mem_piecesNow (s : State) (w : Asker) (k : AccKind) (va : Word) (n : Nat) : (piecesNow s w k va n).2.mem = s.mem := by
  unfold piecesNow
  dsimp only
  (repeat' split) <;> simp

/-- What a unit's own access leaves of memory where it is passed or refused. -/
theorem mem_of_piecesNow {w : Asker} {k : AccKind} {va : Word} {n : Nat} {r : Except Chk (List Piece)}
    (h : piecesNow s w k va n = (r, t)) : t.mem = s.mem := by
  rw [← mem_piecesNow s w k va n, h]

@[simp] theorem mem_checkPush (s : State) (tid j also : Nat) : (checkPush s tid j also).state.mem = s.mem := by
  unfold checkPush
  dsimp only
  split
  · rfl
  · split
    · next h => split <;> simp [mem_of_piecesNow h]
    · next h => exact mem_of_piecesNow h
    · next h => (repeat' split) <;> simp [mem_of_piecesNow h]

@[simp] theorem mem_checkPushes (s : State) (tid also : Nat) (rs : List Reg) : (checkPushes s tid also rs).state.mem = s.mem := by
  induction rs generalizing s also with
  | nil => rfl
  | cons r rs ih =>
    unfold checkPushes
    split
    · exact ih s also
    · rw [Res.mem_bind fun _ t => ih t _, mem_checkPush]

@[simp] theorem mem_addAccess (s : State) (tid : Nat) (q : Ask) (ps : List Piece) (posted : Bool) :
    (addAccess s tid q ps posted).2.mem = s.mem := by simp [addAccess]

@[simp] theorem mem_pushStream (s : State) (tid j : Nat) (v : Word) : (pushStream s tid j v).mem = s.mem := by simp [pushStream]

@[simp] theorem mem_putX (s : State) (tid : Nat) (r : Reg) (v : Word) : (putX s tid r v).mem = s.mem := by
  unfold putX
  split <;> simp

@[simp] theorem mem_countAccess (s : State) (k : Nat) (ps : List Piece) (posted : Bool) :
    (countAccess s k ps posted).mem = s.mem := by simp [countAccess]

@[simp] theorem mem_issueAccess (s : State) (tid : Nat) (q : Ask) (ps : List Piece) : (issueAccess s tid q ps).2.mem = s.mem := by
  unfold issueAccess
  dsimp only
  (repeat' split) <;> simp

@[simp] theorem mem_memory (s : State) (tid : Nat) (q : Ask) : (memory s tid q).2.mem = s.mem := by simp [memory]

@[simp] theorem mem_leafNow (s : State) (w : Asker) (va : Nat) : (leafNow s w va).2.mem = s.mem := by
  unfold leafNow
  dsimp only
  (repeat' split) <;> simp

@[simp] theorem mem_noteParts (s : State) (ps : List Piece) : (noteParts s ps).mem = s.mem := by simp [noteParts]

@[simp] theorem mem_waiting (h : t.mem = s.mem) : ((waiting s t).getD s).mem = s.mem := by
  unfold waiting
  split
  · rfl
  · exact h

@[simp] theorem mem_replyIfDone (s : State) (r : Req) : (replyIfDone s r).mem = s.mem := by
  unfold replyIfDone
  (repeat' split) <;> simp

@[simp] theorem mem_setPool (s : State) (c l : Nat) (node : Bool) (p : Pool) : (setPool s c l node p).mem = s.mem := by simp [setPool]

@[simp] theorem mem_giveBlock (s : State) (launch : Option Nat) (pkg pa : Nat) (node : Bool) :
    (giveBlock s launch pkg pa node).mem = s.mem := by
  unfold giveBlock
  split <;> simp

@[simp] theorem mem_refuse (s : State) (n : Nat) (r : Req) (done : Nat) : (refuse s n r done).mem = s.mem := by
  unfold refuse
  dsimp only
  (repeat' split) <;> simp

@[simp] theorem mem_holdReq (s : State) (n : Nat) (r : Req) (k : Nat) : (holdReq s n r k).mem = s.mem := by simp [holdReq]

/-! ## Operands, results and the end of an attempt -/

@[simp] theorem mem_setQueued (s : State) (t : Thread) (tid : Nat) (l : List Word) :
    (setQueued s t tid l).mem = s.mem := by simp [setQueued]

@[simp] theorem mem_popPaired (s : State) (tid j : Nat) : (popPaired s tid j).state.mem = s.mem := by
  unfold popPaired
  dsimp only
  split
  · split <;> rfl
  · split
    · exact mem_popStream s tid j
    · split
      · rfl
      · exact Res.mem_bind_of (mem_popStream s tid j) fun _ _ h => h

@[simp] theorem mem_readOps (s : State) (tid : Nat) (rs : List Reg) : (readOps s tid rs).state.mem = s.mem := by
  induction rs generalizing s with
  | nil => rfl
  | cons r rs ih =>
    have rest (v : Word) (s : State) : ((readOps s tid rs).bind fun vs s => .ok (v :: vs) s).state.mem = s.mem := by
      rw [Res.mem_bind fun _ _ => rfl, ih]
    unfold readOps
    split
    · exact rest _ s
    · rw [Res.mem_bind rest]
      split
      · exact mem_popPaired ..
      · exact mem_popStream ..

@[simp] theorem mem_result (s : State) (tid : Nat) (r : Reg) (v : Word) (n : Nat) (fl : FFlags) (fp sfu : Bool) :
    (result s tid r v n fl fp sfu).mem = s.mem := by simp [result]

@[simp] theorem mem_pairMismatch (s : State) (tid : Nat) : (pairMismatch s tid).mem = s.mem := by
  simp [pairMismatch, mem_contain]

@[simp] theorem mem_spillSent (s : State) (t : Thread) (tid : Nat) : (spillSent s t tid).mem = s.mem := by simp [spillSent]

@[simp] theorem mem_takeQueued (s : State) (t : Thread) (tid : Nat) (ws : List Reg) (flags : Bool) :
    (takeQueued s t tid ws flags).2.mem = s.mem := by
  unfold takeQueued
  dsimp only
  (repeat' split) <;> simp

@[simp] theorem mem_giveQueued (s : State) (t : Thread) (tid : Nat) (ws : List Reg) :
    (giveQueued s t tid ws).mem = s.mem := by simp [giveQueued]

/-- The effect of either half of a pair leaves memory alone where the instruction's own effect does (R226). -/
theorem mem_paired {body : List Word → State → Eff × State} (h : ∀ vs t, (body vs t).2.mem = t.mem) (f : Form) (vs : List Word)
    (s : State) : (paired f vs body s).2.mem = s.mem := by
  have hb {e : Eff} {t : State} (he : body vs s = (e, t)) : t.mem = s.mem := by rw [← h vs s, he]
  unfold paired
  dsimp only
  split
  · exact h vs s
  · split
    · exact mem_pairMismatch ..
    · split
      · split
        · rfl
        · split
          · split
            · next e => simp [hb e]
            · next e => simp [hb e]
            · exact h vs s
          · split
            · split
              · next e => exact hb e
              · next e => exact hb e
              · next e => split <;> simp [hb e]
            · rfl
      · (repeat' split) <;> simp

@[simp] theorem mem_awaitReply (s : State) (tid a : Nat) (undo : Tab Stream) (next : Word) :
    (awaitReply s tid a undo next).mem = s.mem := by
  unfold awaitReply
  split <;> simp

@[simp] theorem mem_awaitPush (s : State) (tid : Nat) (undo : Tab Stream) (next : Word) : (awaitPush s tid undo next).mem = s.mem := by
  unfold awaitPush
  split <;> simp

@[simp] theorem mem_afterPush (ws : List Reg) (t : Thread) (undo : Tab Stream) (s : State) (tid : Nat) (next : Word) :
    (afterPush ws t undo s tid next).mem = s.mem := by simp [afterPush]

@[simp] theorem mem_finish (f : Form) (t0 : Thread) (r : Eff × State) : (finish f t0 r).mem = r.2.mem := by
  unfold finish
  dsimp only
  split
  · simp
  · rfl
  · simp
  · simp [mem_takeFault]
  · split
    · exact mem_contain ..
    · exact mem_enterTrap ..
  · rfl
  · simp
  · rfl

@[simp] theorem mem_keepQueue (t : Thread) (s : State) (r : Eff × State) : (keepQueue t s r).2.mem = r.2.mem := by
  unfold keepQueue
  dsimp only
  (repeat' split) <;> rfl

/-- An instruction's attempt leaves memory alone where its effect does. -/
theorem mem_attempt {body : List Word → State → Eff × State} (h : ∀ vs t, (body vs t).2.mem = t.mem) (f : Form) (t : Thread)
    (s : State) : (attempt f body t s).2.mem = s.mem := by
  unfold attempt
  dsimp only
  split
  · rfl
  · split
    · rfl
    · split
      · rfl
      · rw [mem_keepQueue, Res.mem_run fun _ t => ?_, mem_checkPushes]
        rw [Res.mem_run fun vs u => ?_, mem_readOps]
        split
        · rfl
        · rw [Res.mem_run fun ws v => mem_paired h f _ v, mem_readOps]

/-! ## Branches and the register window -/

@[simp] theorem mem_branched (s : State) : (branched s).mem = s.mem := by simp [branched]

@[simp] theorem mem_refillTrail (s : State) (tid : Nat) : (refillTrail s tid).2.mem = s.mem := by
  unfold refillTrail
  dsimp only
  (repeat' split) <;> simp

@[simp] theorem mem_refillNext (s : State) (tid : Nat) : (refillNext s tid).2.mem = s.mem := by
  unfold refillNext
  dsimp only
  split
  · exact mem_refillTrail ..
  · split
    · rfl
    · split
      · next h => simp [mem_of_piecesNow h]
      · next h => exact mem_of_piecesNow h
      · next h => split <;> simp [mem_of_piecesNow h]

/-! ## A thread's own accesses -/

@[simp] theorem mem_ownStop (s : State) (tid : Nat) (va : Word) (c : Chk) : (ownStop s tid va c).2.mem = s.mem := by
  unfold ownStop
  split <;> simp

@[simp] theorem mem_ownStore (s : State) (tid : Nat) (va : Word) (n : Nat) (k : AccKind) (outside : Cause) :
    (ownStore s tid va n k outside).state.mem = s.mem := by
  unfold ownStore
  (repeat' split) <;> simp

@[simp] theorem mem_ownAccess (s : State) (tid : Nat) (va : Word) (n : Nat) (k : AccKind) (op : Nat → Nat → ReqOp)
    (ps : List Piece) (entry : Option LandEntry) (takes : Bool) :
    (ownAccess s tid va n k op ps entry takes).state.mem = s.mem := by
  unfold ownAccess
  dsimp only
  (repeat' split) <;> simp

@[simp] theorem mem_ownWords (s : State) (tid : Nat) (va : Word) (n : Nat) (outside : Cause) :
    (ownWords s tid va n outside).state.mem = s.mem := by
  rw [ownWords, Res.mem_bind fun ps s => ?_, mem_ownStore]
  rw [Res.mem_bind fun _ _ => rfl, mem_ownAccess]

@[simp] theorem mem_storeOwn (s : State) (tid : Nat) (va : Word) (ps : List Piece) (bs : List Byte) (entry : Option LandEntry)
    (takes : Bool) :
    (storeOwn s tid va ps bs entry takes).state.mem = s.mem := by simp [storeOwn]

/-! ## Packed results -/

@[simp] theorem mem_fpResult (s : State) (d : Reg) (r : Nat × FFlags) (n : Nat) :
    (fpResult s d r n).2.mem = s.mem := by simp [fpResult]

/-! ## The mill -/

@[simp] theorem mem_enterMill (s : State) (tid : Nat) (o : MillOp) (job : Option Nat) (edges : List Nat) (accepted : Bool) :
    (enterMill s tid o job edges accepted).mem = s.mem := by simp [enterMill]

@[simp] theorem mem_millWait (s : State) (target : BitVec 32) : (millWait s target).2.mem = s.mem := by
  unfold millWait
  split <;> simp

@[simp] theorem mem_representHeld (s : State) (tid : Nat) : (representHeld s tid).mem = s.mem := by
  unfold representHeld
  dsimp only
  (repeat' split) <;> simp

@[simp] theorem mem_completeEntry (s : State) (c : Nat) (p : Entry → Bool) :
    (completeEntry s c p).mem = s.mem := by simp [completeEntry]

@[simp] theorem mem_retireFlags (s : State) (tl : Nat) (o : MillOp) : (retireFlags s tl o).mem = s.mem := by simp [retireFlags]

@[simp] theorem mem_cancelHeld (s : State) (tid : Nat) : (cancelHeld s tid).mem = s.mem := by
  unfold cancelHeld
  dsimp only
  (repeat' split) <;> simp

@[simp] theorem mem_millAccept (tl : Nat) (s : State) : ((millAccept tl s).getD s).mem = s.mem := by
  unfold millAccept
  dsimp only
  (repeat' split) <;> simp

@[simp] theorem mem_setHead (s : State) (tl : Nat) (x : Tile) (o : MillOp) : (setHead s tl x o).mem = s.mem := by simp [setHead]

@[simp] theorem mem_servedReads (tl : Nat) (s : State) : (servedReads tl s).mem = s.mem := by
  unfold servedReads
  split <;> simp

@[simp] theorem mem_rowEffect (s : State) (tl : Nat) (o : MillOp) (v : Nat) (fl : FFlags) : (rowEffect s tl o v fl).mem = s.mem := by
  unfold rowEffect
  dsimp only
  (repeat' split) <;> simp

@[simp] theorem mem_pipeStop (s : State) (tl : Nat) (c : Cause) (va : Word) (inj : Bool) :
    (pipeStop s tl c va inj).mem = s.mem := by simp [pipeStop]

@[simp] theorem mem_rowAsk (s : State) (tl : Nat) (o : MillOp) (va : Word) (n : Nat) (store : Option (Nat × FFlags)) :
    ((rowAsk s tl o va n store).getD s).mem = s.mem := by
  unfold rowAsk
  dsimp only
  split
  · rfl
  · split
    · next h => simp [mem_of_piecesNow h]
    · next h => exact mem_waiting (mem_of_piecesNow h)
    · next h => split <;> simp [mem_of_piecesNow h]

@[simp] theorem mem_millRetire (tl : Nat) (s : State) : ((millRetire tl s).getD s).mem = s.mem := by
  unfold millRetire
  dsimp only
  (repeat' split) <;> simp

@[simp] theorem mem_millPipeFault (tl : Nat) (s : State) : ((millPipeFault tl s).getD s).mem = s.mem := by
  unfold millPipeFault
  dsimp only
  (repeat' split) <;> simp [mem_contain]

/-! ## What several families share -/

@[simp] theorem mem_acquireNow (s : State) (tid : Nat) : (acquireNow s tid).mem = s.mem := by simp [acquireNow]

@[simp] theorem mem_countSent (s : State) (c : Nat) (l : Option Nat) (n : Nat) : (countSent s c l n).mem = s.mem := by
  unfold countSent
  split <;> simp

@[simp] theorem mem_countRecv (s : State) (c : Nat) (l : Option Nat) (n : Nat) : (countRecv s c l n).mem = s.mem := by
  unfold countRecv
  split <;> simp

@[simp] theorem mem_enqueue (s : State) (tid : Nat) (cls : Class) (bodies : List (Body × Nat)) :
    (enqueue s tid cls bodies).mem = s.mem := by simp [enqueue]

@[simp] theorem mem_setSaved (s : State) (n c : Nat) (f : Saved → Saved) : (setSaved s n c f).mem = s.mem := by simp [setSaved]

@[simp] theorem mem_fillLanding (s : State) (c : Nat) : (fillLanding s c).mem = s.mem := by simp [fillLanding]

@[simp] theorem mem_postRecord (s : State) (c : Nat) (e : LandEntry) : (postRecord s c e).mem = s.mem := by simp [postRecord]

@[simp] theorem mem_leaveCrews (s : State) (tid : Nat) : (leaveCrews s tid).mem = s.mem := by
  unfold leaveCrews
  dsimp only
  refine mem_foldl (fun s e => ?_) _ s
  split <;> rfl

@[simp] theorem mem_hostRecord (s : State) (r : Record) : (hostRecord s r).mem = s.mem := by simp [hostRecord]

@[simp] theorem mem_packetDone (s : State) (seq : BitVec 32) (status cnt : Nat) :
    (packetDone s seq status cnt).mem = s.mem := by simp [packetDone]

@[simp] theorem mem_checkPreempt (s : State) (n : Nat) : (checkPreempt s n).mem = s.mem := by
  unfold checkPreempt
  split <;> simp

@[simp] theorem mem_checkKill (s : State) (n : Nat) : (checkKill s n).mem = s.mem := by
  unfold checkKill
  (repeat' split) <;> simp

@[simp] theorem mem_freeSlot (s : State) (tid : Nat) : (freeSlot s tid).mem = s.mem := by simp [freeSlot]

@[simp] theorem mem_checkKilled (s : State) (tid : Nat) : (checkKilled s tid).mem = s.mem := by simp [checkKilled]

@[simp] theorem mem_killThread (s : State) (tid : Nat) : (killThread s tid).mem = s.mem := by simp [killThread]

@[simp] theorem mem_closeDoomed (s : State) (tid : Nat) : (closeDoomed s tid).mem = s.mem := by simp [closeDoomed]

@[simp] theorem mem_killPair (s : State) (n : Nat) : (killPair s n).mem = s.mem := by simp [killPair]

@[simp] theorem mem_pump (s : State) (p : Nat) : (pump s p).mem = s.mem := by
  unfold pump
  dsimp only
  (repeat' split) <;> simp

@[simp] theorem mem_killCtx (s : State) (n : Nat) (reply : Option (BitVec 32)) (status : Nat) :
    (killCtx s n reply status).mem = s.mem := by simp [killCtx]

/-! ## Messages and landing entries -/

@[simp] theorem mem_nextSeq (s : State) (tid : Nat) : (nextSeq s tid).mem = s.mem := by simp [nextSeq]

@[simp] theorem mem_writePair (s : State) (tid : Nat) (d : Reg) (v w : Word) :
    (writePair s tid d v w).mem = s.mem := by simp [writePair]

@[simp] theorem mem_removeEntry (s : State) (c : Nat) (e : LandEntry) : (removeEntry s c e).mem = s.mem := by simp [removeEntry]

/-- A take leaves memory alone where what it does with nothing to take does. -/
theorem mem_takeEntry {empty : State → Eff × State} (he : ∀ t, (empty t).2.mem = t.mem) (d a : Reg) (area : Word)
    (choose : State → Option (Nat × LandEntry)) (take : Bool) (s : State) :
    (takeEntry d a area choose take empty s).2.mem = s.mem := by
  unfold takeEntry
  dsimp only
  split
  · split
    · exact he s
    · simp
  · split
    · rfl
    · rw [Res.mem_run fun ps t => ?_, mem_ownStore]
      split
      · exact he t
      · simp

/-! ## Moving, spawning and ending threads -/

@[simp] theorem mem_taskRecord (s : State) (tid : Nat) (va : Word) : (taskRecord s tid va).state.mem = s.mem := by
  unfold taskRecord
  split
  · rfl
  · rw [Res.mem_bind fun ws t => ?_, mem_ownWords]
    split <;> rfl

@[simp] theorem mem_pushDeck (s : State) (tid : Nat) (ws : List Word) : (pushDeck s tid ws).mem = s.mem := by simp [pushDeck]

@[simp] theorem mem_retrySucceeded (s : State) (tid : Nat) : (retrySucceeded s tid).mem = s.mem := by simp [retrySucceeded]

@[simp] theorem mem_endWork (s : State) (tid : Nat) : (endWork s tid).2.mem = s.mem := by
  unfold endWork
  dsimp only
  (repeat' split) <;> simp

/-! ## Jobs and the footprint scheduler -/

@[simp] theorem mem_setChan (s : State) (c n : Nat) (v : CopyChan) : (setChan s c n v).mem = s.mem := by simp [setChan]

@[simp] theorem mem_capture (s : State) (tid : Nat) (rd w : Bool) (hi fuel va : Nat) :
    (capture s tid rd w hi fuel va).2.mem = s.mem := by
  induction fuel generalizing s va with
  | zero => rfl
  | succ fuel ih =>
    have next {s t : State} {va : Nat} {r : Except Chk (List Page)} (h : capture s tid rd w hi fuel va = (r, t)) : t.mem = s.mem := by
      rw [← ih s va, h]
    have leaf {s t : State} {a : Asker} {r : Except Chk Leaf} (h : leafNow s a va = (r, t)) : t.mem = s.mem := by
      rw [← mem_leafNow s a va, h]
    unfold capture
    dsimp only
    split
    · rfl
    · split
      · rfl
      · split
        · split
          · rfl
          · split <;> (next h => exact next h)
        · split
          · next h => exact leaf h
          · next h =>
            split
            · exact leaf h
            · split <;> (next h' => exact (next h').trans (leaf h))

@[simp] theorem mem_captureAll (s : State) (tid : Nat) (rs : List ((Nat × Nat) × Bool × Bool)) :
    (captureAll s tid rs).2.mem = s.mem := by
  induction rs generalizing s with
  | nil => rfl
  | cons r rs ih =>
    obtain ⟨r, rd, w⟩ := r
    have first {r' : Except Chk (List Page)} {t : State}
        (h : capture s tid rd w r.2 ((r.2 - r.1) / 65536 + 2) r.1 = (r', t)) : t.mem = s.mem := by
      rw [← mem_capture s tid rd w r.2 ((r.2 - r.1) / 65536 + 2) r.1, h]
    have second {s t : State} {r : Except Chk (List Page)} (h : captureAll s tid rs = (r, t)) : t.mem = s.mem := by
      rw [← ih s, h]
    unfold captureAll
    split
    · next h => exact first h
    · next h =>
      split <;> (next h' => exact (second h').trans (first h))

/-- What the capture of regions leaves of memory, whether or not it fails. -/
theorem mem_of_captureAll {tid : Nat} {rs : List ((Nat × Nat) × Bool × Bool)} {r : Except Chk (List Page)}
    (h : captureAll s tid rs = (r, t)) : t.mem = s.mem := by
  rw [← mem_captureAll s tid rs, h]

@[simp] theorem mem_cardChecks (s : State) (tid kind : Nat) (ws : List Word) (follow : Option MillOp) :
    (cardChecks s tid kind ws follow).state.mem = s.mem := by
  unfold cardChecks
  dsimp only
  split
  · rfl
  · split
    · rfl
    · split
      · rfl
      · split
        · next h => exact mem_of_captureAll h
        · next h => (repeat' split) <;> exact mem_of_captureAll h

@[simp] theorem mem_enterJob (s : State) (tid : Nat) (j : Job) (rd wr : List (Nat × Nat)) : (enterJob s tid j rd wr).mem = s.mem := by
  unfold enterJob
  dsimp only
  (repeat' split) <;> simp

@[simp] theorem mem_admitJob (s : State) (tid : Nat) (d : Reg) (j : Job) (rd wr : List (Nat × Nat)) :
    (admitJob s tid d j rd wr).2.mem = s.mem := by
  unfold admitJob
  dsimp only
  (repeat' split) <;> simp

@[simp] theorem mem_rereadCore (s : State) (c : Nat) : (rereadCore s c).mem = s.mem := by simp [rereadCore]

@[simp] theorem mem_askStop (s : State) (ids : List Nat) : (askStop s ids).mem = s.mem := by simp [askStop]

@[simp] theorem mem_openChan (s : State) (c n : Nat) : (openChan s c n).mem = s.mem := by simp [openChan]

@[simp] theorem mem_enterFollow (s : State) (c : Nat) (e : Entry) : (enterFollow s c e).mem = s.mem := by
  unfold enterFollow
  dsimp only
  (repeat' split) <;> simp

@[simp] theorem mem_footprintAccept (c : Nat) (s : State) : ((footprintAccept c s).getD s).mem = s.mem := by
  unfold footprintAccept
  cases firstArrival (cmpt s c).arrivals <;> simp

@[simp] theorem mem_sendJob (s : State) (c n : Nat) (j : Job) : (sendJob s c n j).mem = s.mem := by
  unfold sendJob
  split <;> simp

@[simp] theorem mem_dispatchEntry (s : State) (c : Nat) (e : Entry) : (dispatchEntry s c e).mem = s.mem := by
  unfold dispatchEntry
  dsimp only
  (repeat' split) <;> simp

@[simp] theorem mem_footprintDispatch (c n : Nat) (s : State) : ((footprintDispatch c n s).getD s).mem = s.mem := by
  unfold footprintDispatch
  (repeat' split) <;> simp

@[simp] theorem mem_portReqs (s : State) (acc tid : Nat) (j : Job) (op : Nat → Nat → ReqOp) (p : Piece) :
    (portReqs s acc tid j op p).mem = s.mem := by simp [portReqs]

@[simp] theorem mem_jobAccess (s : State) (id : Nat) (j : Job) (st : JobStep) (kind : AccKind) (va : Int) (n : Nat)
    (op : Nat → Nat → ReqOp) (ps : List Piece) :
    (jobAccess s id j st kind va n op ps).2.mem = s.mem := by
  unfold jobAccess
  split <;> simp

@[simp] theorem mem_stopAt (s : State) (j : Job) (status : Nat) (va : Option Int) (n : Nat) :
    (stopAt s j status va n).2.mem = s.mem := by simp [stopAt]

@[simp] theorem mem_batchWrite (s : State) (id : Nat) (j : Job) (es : List EltMove) (v : Nat) :
    (batchWrite s id j es v).2.mem = s.mem := by
  unfold batchWrite
  dsimp only
  (repeat' split) <;> simp

@[simp] theorem mem_batchRead (s : State) (id : Nat) (j : Job) (es : List EltMove) : (batchRead s id j es).2.mem = s.mem := by
  unfold batchRead
  dsimp only
  (repeat' split) <;> simp

@[simp] theorem mem_batchIndex (s : State) (id : Nat) (j : Job) (n : Nat) : (batchIndex s id j n).2.mem = s.mem := by
  unfold batchIndex
  dsimp only
  (repeat' split) <;> simp

@[simp] theorem mem_jobValue (s : State) (id : Nat) (j : Job) (st : JobStep) (v : Nat) : (jobValue s id j st v).2.mem = s.mem := by
  unfold jobValue
  split <;> simp

@[simp] theorem mem_jobFailed (s : State) (id : Nat) (j : Job) (st : JobStep) (v status off : Nat) :
    (jobFailed s id j st v status off).2.mem = s.mem := by
  unfold jobFailed
  dsimp only
  (repeat' split) <;> simp

/-- What a reply that a job takes leaves of memory. -/
theorem mem_of_jobReply {id a : Nat} {j : Job} {st : JobStep} {x : Job × State} (h : jobReply s id j a st = some x) :
    x.2.mem = s.mem := by
  unfold jobReply at h
  dsimp only at h
  split at h
  · cases h; rfl
  · split at h
    · cases h
    · cases h
      split <;> simp

@[simp] theorem mem_refcount (s : State) (id : Nat) (j : Job) (st : JobStep) (v : Nat) : (refcount s id j st v).2.mem = s.mem := by
  unfold refcount
  dsimp only
  (repeat' split) <;> simp

@[simp] theorem mem_jobNext (s : State) (id : Nat) (j : Job) (n : Nat) : (jobNext s id j n).2.mem = s.mem := by
  unfold jobNext
  dsimp only
  (repeat' split) <;> simp

theorem mem_of_jobReaches {id : Nat} {j : Job} {x : Job × State} (h : jobReaches s id j = some x) : x.2.mem = s.mem := by
  unfold jobReaches at h
  split at h <;> cases h
  rfl

@[simp] theorem mem_jobArrival (id n : Nat) (s : State) : ((jobArrival id n s).getD s).mem = s.mem := by
  unfold jobArrival
  split
  · rfl
  · next j _ =>
    dsimp only
    split
    · rfl
    · split
      · cases h : jobReaches s id j with
        | none => rfl
        | some x => exact mem_of_jobReaches h
      · split
        · next a st _ =>
          cases h : jobReply s id j a st with
          | none => rfl
          | some x => exact mem_of_jobReply h
        · (repeat' split) <;> simp

@[simp] theorem mem_watermarkReport (id : Nat) (s : State) : ((watermarkReport id s).getD s).mem = s.mem := by
  unfold watermarkReport
  split
  · rfl
  · next j _ =>
    dsimp only
    split
    · rfl
    · cases report (chanOf s j.core (cardOf j.card).chan) (cardOf j.card).dst
        ((cardOf j.card).dst + (j.reported / 256 * 256 + 256)) <;> rfl

@[simp] theorem mem_endEntry (s : State) (c id : Nat) (cancel : Bool) : (endEntry s c id cancel).mem = s.mem := by
  unfold endEntry
  dsimp only
  (repeat' split) <;> simp

@[simp] theorem mem_tellStop (s : State) (id : Nat) (stopped : Bool) : (tellStop s id stopped).mem = s.mem := by
  rw [tellStop, mem_foldl fun s x => mem_openChan ..]

@[simp] theorem mem_jobEffects (s : State) (id : Nat) (j : Job) : ((jobEffects s id j).getD s).mem = s.mem := by
  unfold jobEffects
  dsimp only
  (repeat' split) <;> simp

@[simp] theorem mem_jobRecord (s : State) (id : Nat) (j : Job) (at_ : Nat) : (jobRecord s id j at_).mem = s.mem := by simp [jobRecord]

@[simp] theorem mem_jobCompletion (id : Nat) (s : State) : ((jobCompletion id s).getD s).mem = s.mem := by
  unfold jobCompletion
  (repeat' split) <;> simp

/-! ## The marking engine -/

@[simp] theorem mem_markChecks (s : State) (tid : Nat) (m : Marking) : (markChecks s tid m).state.mem = s.mem := by
  unfold markChecks
  dsimp only
  split
  · next h => exact mem_of_captureAll h
  · next h => (repeat' split) <;> exact mem_of_captureAll h

@[simp] theorem mem_roundAccess (s : State) (id : Nat) (j : Job) (kind : AccKind) (op : Nat → Nat → ReqOp) (ps : List Piece) :
    (roundAccess s id j kind op ps).2.mem = s.mem := by simp [roundAccess]

@[simp] theorem mem_roundRun (fuel : Nat) (s : State) (id : Nat) (j : Job) : (roundRun fuel s id j).2.2.mem = s.mem := by
  induction fuel generalizing j with
  | zero => rfl
  | succ fuel ih =>
    unfold roundRun
    dsimp only
    split
    · split
      · exact ih _
      · exact mem_roundAccess ..
    · split
      · rfl
      · split
        · exact mem_noteParts ..
        · exact mem_roundAccess ..

@[simp] theorem mem_roundReply (s : State) (id : Nat) (j : Job) (x : Access) : (roundReply s id j x).2.2.mem = s.mem := by
  unfold roundReply
  dsimp only
  (repeat' split) <;> simp

@[simp] theorem mem_markRecord (s : State) (j : Job) (r : Round) : (markRecord s j r).2.mem = s.mem := by
  unfold markRecord
  dsimp only
  (repeat' split) <;> simp

@[simp] theorem mem_roundOver (s : State) (c n : Nat) (j : Job) (r : Round) : (roundOver s c n j r).mem = s.mem := by simp [roundOver]

theorem mem_of_roundStep {n : Nat} {j : Job} {x : Option Round × Job × State} (h : roundStep s n j = some x) : x.2.2.mem = s.mem := by
  unfold roundStep at h
  split at h
  · split at h
    · cases h; simp
    · split at h
      · cases h
      · cases h; simp
  · split at h
    · cases h
    · cases h; simp

@[simp] theorem mem_markJobRun (c : Nat) (s : State) : ((markJobRun c s).getD s).mem = s.mem := by
  unfold markJobRun
  split
  · rfl
  · next n rest _ =>
    split
    · rfl
    · next j _ =>
      cases h : roundStep s n j with
      | none => rfl
      | some x =>
        have hx := mem_of_roundStep h
        obtain ⟨r, j', t⟩ := x
        cases r with
        | none => exact hx
        | some r => exact (mem_roundOver ..).trans hx

/-! ## The grader and sampling reductions -/

@[simp] theorem mem_setSet (s : State) (tl n : Nat) (g : GradeSet) : (setSet s tl n g).mem = s.mem := by simp [setSet]

@[simp] theorem mem_engineStore (s : State) (tid : Nat) : (engineStore s tid).2.mem = s.mem := by simp [engineStore]

@[simp] theorem mem_graderAccept (tl : Nat) (s : State) : ((graderAccept tl s).getD s).mem = s.mem := by
  unfold graderAccept
  dsimp only
  (repeat' split) <;> simp

@[simp] theorem mem_ownerTakes (s : State) (c : Nat) (p : RedPacket) : (ownerTakes s c p).mem = s.mem := by
  unfold ownerTakes
  dsimp only
  (repeat' split) <;> simp

@[simp] theorem mem_reductionCombine (n m : Nat) (s : State) : ((reductionCombine n m s).getD s).mem = s.mem := by
  unfold reductionCombine
  (repeat' split) <;> simp

/-! ## The net machine -/

@[simp] theorem mem_netPiece (s : State) (tid : Nat) (k : Option AccKind) (va : Word) (n : Nat) :
    (netPiece s tid k va n).state.mem = s.mem := by
  unfold netPiece
  dsimp only
  (repeat' split) <;> simp

@[simp] theorem mem_portPlace (s : State) (tid : Nat) (w : Word) : (portPlace s tid w).state.mem = s.mem := by
  unfold portPlace
  split
  · rw [Res.mem_bind fun _ _ => rfl, mem_netPiece]
  · split
    · rw [Res.mem_bind fun _ _ => rfl, mem_netPiece]
    · rfl

@[simp] theorem mem_setNet (s : State) (tid : Nat) (x : NetStep) : (setNet s tid x).mem = s.mem := by simp [setNet]

@[simp] theorem mem_netStore (s : State) (tid : Nat) (p : Piece) (va v : Word) : (netStore s tid p va v).state.mem = s.mem := by
  unfold netStore
  dsimp only
  (repeat' split) <;> simp

@[simp] theorem mem_netAtomic (s : State) (tid : Nat) (ar : Bool) (p : Piece) (va : Word) (op : ReqOp) (x : NetStep) :
    (netAtomic s tid ar p va op x).state.mem = s.mem := by
  unfold netAtomic
  dsimp only
  (repeat' split) <;> simp

@[simp] theorem mem_cellAtomic (s : State) (tid : Nat) (c : Word) (op : ReqOp) (x : NetStep) :
    (cellAtomic s tid c op x).state.mem = s.mem := by simp [cellAtomic]

@[simp] theorem mem_point (s : State) (tid : Nat) (w v : Word) : (point s tid w v).state.mem = s.mem := by
  unfold point
  split <;> simp

theorem mem_of_allocBlock {tid off : Nat} {node : Bool} (h : allocBlock s tid node = some (off, t)) : t.mem = s.mem := by
  unfold allocBlock at h
  split at h
  · cases h
  · split at h
    · cases h
    · cases h; exact mem_setPool ..

@[simp] theorem mem_releaseCell (s : State) (tid : Nat) (c : Word) : (releaseCell s tid c).state.mem = s.mem := by
  rw [releaseCell, Res.mem_bind fun p t => ?_, mem_netPiece]
  dsimp only
  split
  · exact mem_giveBlock ..
  · exact mem_netStore ..

@[simp] theorem mem_pushPair (s : State) (tid : Nat) (a b : Word) : (pushPair s tid a b).state.mem = s.mem := by
  unfold pushPair
  dsimp only
  split
  · rfl
  · split
    · rfl
    · rw [Res.mem_bind fun p t => ?_, mem_netPiece]
      (repeat' split) <;> simp

@[simp] theorem mem_netStep (s : State) (tid : Nat) (d : Reg) (r : NetRun) : (netStep s tid d r).state.mem = s.mem := by
  have go {r : Res Unit} (x : NetStep) (h : r.state.mem = s.mem) :
      (r.bind fun _ t => .ok () (setNet t tid x)).state.mem = s.mem := by
    rw [Res.mem_bind fun _ _ => rfl, h]
  unfold netStep
  dsimp only
  split
  · split
    · exact go _ (mem_point ..)
    · rfl
  · exact mem_cellAtomic ..
  · rfl
  · exact mem_cellAtomic ..
  · rfl
  · exact go _ (mem_releaseCell ..)
  · split
    · split
      · rfl
      · next h => exact Res.mem_bind_of (mem_netPiece ..) fun _ _ _ => (mem_of_allocBlock h :)
    · exact go _ (mem_point ..)
  · exact go _ (mem_point ..)
  · exact go _ (mem_pushPair ..)
  · refine go _ ?_
    split
    · rw [Res.mem_bind fun p t => mem_netStore .., mem_netPiece]
    · exact mem_point ..
    · exact mem_point ..
  · split <;> simp
  · split <;> rfl
  · split <;> simp
  · rfl
  · rfl
  · rfl
  · rfl

@[simp] theorem mem_netRun (n : Nat) (s : State) (tid : Nat) (d : Reg) : (netRun n s tid d).2.mem = s.mem := by
  induction n generalizing s with
  | zero => rfl
  | succ n ih =>
    unfold netRun
    split
    · rfl
    · next r _ =>
      have h := mem_netStep s tid d r
      split
      · next e => rw [e] at h; exact (ih _).trans h
      · next e => rw [e] at h; exact h
      · next e => rw [e] at h; exact h
      · next e => rw [e] at h; exact h

/-! ## State registers and privileged instructions -/

@[simp] theorem mem_setStateReg (s : State) (tid r : Nat) (v : Word) : (setStateReg s tid r v).mem = s.mem := by
  unfold setStateReg
  split <;> simp

@[simp] theorem mem_writeItem (s : State) (n i : Nat) (v : Word) : (writeItem s n i v).mem = s.mem := by
  unfold writeItem
  (repeat' split) <;> simp

@[simp] theorem mem_dropEntries (s : State) (mine : Nat) (v : Inval) : (dropEntries s mine v).mem = s.mem := by simp [dropEntries]

/-! ## The memory side and the units of a core -/

@[simp] theorem mem_countLost (s : State) (tid turn : Nat) (a : Access) : (countLost s tid turn a).mem = s.mem := by simp [countLost]

@[simp] theorem mem_giveValues (s : State) (a : Access) : (giveValues s a).mem = s.mem := by
  unfold giveValues
  split <;> simp

@[simp] theorem mem_completeAccess (s : State) (a : Access) : (completeAccess s a).mem = s.mem := by simp [completeAccess]

@[simp] theorem mem_accessFault (s : State) (t : Thread) (a : Access) :
    (accessFault s t a).mem = s.mem := by simp [accessFault, mem_contain, mem_takeFault]

@[simp] theorem mem_refusedLate (s : State) (a : Access) : (refusedLate s a).mem = s.mem := by simp [refusedLate]

@[simp] theorem mem_threadReply (s : State) (n : Nat) (a : Access) : (threadReply s n a).mem = s.mem := by simp [threadReply]

@[simp] theorem mem_ownReply (s : State) (n : Nat) (a : Access) : (ownReply s n a).mem = s.mem := by
  unfold ownReply
  dsimp only
  (repeat' split) <;> simp

@[simp] theorem mem_netReply (s : State) (a : Access) : (netReply s a).mem = s.mem := by
  unfold netReply
  dsimp only
  (repeat' split) <;> simp

@[simp] theorem mem_streamReply (s : State) (n j : Nat) (a : Access) : (streamReply s n j a).mem = s.mem := by simp [streamReply]

@[simp] theorem mem_refillReply (s : State) (n : Nat) (a : Access) : (refillReply s n a).mem = s.mem := by simp [refillReply]

@[simp] theorem mem_accessReply (n : Nat) (s : State) : ((accessReply n s).getD s).mem = s.mem := by
  unfold accessReply
  (repeat' split) <;> simp

@[simp] theorem mem_spillEnd (s : State) (tid : Nat) : (spillEnd s tid).mem = s.mem := by simp [spillEnd]

@[simp] theorem mem_postedAck (n : Nat) (s : State) : ((postedAck n s).getD s).mem = s.mem := by
  unfold postedAck
  cases postedDone s n with
  | none => rfl
  | some a =>
    dsimp only [Option.bind_some]
    split <;> simp

@[simp] theorem mem_postedRefusal (n : Nat) (s : State) : ((postedRefusal n s).getD s).mem = s.mem := by
  unfold postedRefusal
  cases postedDone s n with
  | none => rfl
  | some a =>
    dsimp only [Option.bind_some]
    split <;> simp

@[simp] theorem mem_pageWalkEnd (n : Nat) (s : State) : ((pageWalkEnd n s).getD s).mem = s.mem := by
  unfold pageWalkEnd
  dsimp only
  (repeat' split) <;> simp [mem_takeFault]

@[simp] theorem mem_setFrame (s : State) (f : Nat) (v : Frame) : (setFrame s f v).mem = s.mem := by simp [setFrame]

@[simp] theorem mem_frameMigrating (old new gen : Nat) (s : State) : ((frameMigrating old new gen s).getD s).mem = s.mem := by
  unfold frameMigrating
  split <;> simp

@[simp] theorem mem_drainReport (old unit : Nat) (s : State) : ((drainReport old unit s).getD s).mem = s.mem := by
  unfold drainReport
  dsimp only
  (repeat' split) <;> simp

@[simp] theorem mem_pendingWrite (tid : Nat) (s : State) : ((pendingWrite tid s).getD s).mem = s.mem := by
  unfold pendingWrite
  split <;> simp

@[simp] theorem mem_sfuResult (tl : Nat) (s : State) : ((sfuResult tl s).getD s).mem = s.mem := by
  unfold sfuResult
  dsimp only
  (repeat' split) <;> simp

@[simp] theorem mem_spillTrail (s : State) (tid c : Nat) : ((spillTrail s tid c).getD s).mem = s.mem := by
  unfold spillTrail
  dsimp only
  (repeat' split) <;> simp

@[simp] theorem mem_spillLead (s : State) (tid c : Nat) : ((spillLead s tid c).getD s).mem = s.mem := by
  unfold spillLead
  dsimp only
  (repeat' split) <;> simp

@[simp] theorem mem_spillWord (tid : Nat) (s : State) : ((spillWord tid s).getD s).mem = s.mem := by
  unfold spillWord
  dsimp only
  split
  · rfl
  · split
    · exact mem_spillTrail ..
    · split
      · exact mem_spillLead ..
      · split
        · next h => split <;> simp [mem_of_piecesNow h]
        · next h => exact mem_waiting (mem_of_piecesNow h)
        · next h => split <;> simp [mem_of_piecesNow h]

@[simp] theorem mem_readAhead (tid j : Nat) (s : State) : ((readAhead tid j s).getD s).mem = s.mem := by
  unfold readAhead
  dsimp only
  split
  · rfl
  · split
    · next h => simp [mem_of_piecesNow h]
    · next h => exact mem_waiting (mem_of_piecesNow h)
    · next h => split <;> simp [mem_of_piecesNow h]

@[simp] theorem mem_droopTrip (k stretch : Nat) (s : State) : ((droopTrip k stretch s).getD s).mem = s.mem := by simp [droopTrip]

@[simp] theorem mem_upset (s : State) (pa : Nat) (chk : Byte) (lasting : Bool) : (upset s pa chk lasting).mem = s.mem := by
  unfold upset
  split <;> simp

@[simp] theorem mem_scalerConfig (k i : Nat) (v : Word) (s : State) : ((scalerConfig k i v s).getD s).mem = s.mem := by
  unfold scalerConfig
  split <;> simp

/-! ## The network -/

@[simp] theorem mem_fetchFence (s : State) (c : Nat) : (fetchFence s c).mem = s.mem := by simp [fetchFence]

@[simp] theorem mem_crossPort (s : State) (p : Packet) : (crossPort s p).mem = s.mem := by
  unfold crossPort
  split <;> simp

@[simp] theorem mem_leave (s : State) (c : Nat) (cls : Class) (sender : Option (Nat × Nat)) (b : Body) (dest : Nat) :
    (leave s c cls sender b dest).mem = s.mem := by simp [leave]

@[simp] theorem mem_sendDepart (c : Nat) (s : State) : ((sendDepart c s).getD s).mem = s.mem := by
  unfold sendDepart
  split <;> simp

@[simp] theorem mem_renameMember (s : State) (n old new : Nat) : (renameMember s n old new).mem = s.mem := by simp [renameMember]

@[simp] theorem mem_leaveSlot (s : State) (tid pkt : Nat) : (leaveSlot s tid pkt).mem = s.mem := by simp [leaveSlot]

@[simp] theorem mem_migrationDepart (tid : Nat) (s : State) : ((migrationDepart tid s).getD s).mem = s.mem := by
  unfold migrationDepart
  dsimp only
  (repeat' split) <;> simp [mem_takeFault]

@[simp] theorem mem_lastFlit (s : State) (p : Packet) : (lastFlit s p).mem = s.mem := by
  unfold lastFlit
  split <;> simp

@[simp] theorem mem_pairSlotSend (src dst : Nat) (s : State) : ((pairSlotSend src dst s).getD s).mem = s.mem := by
  unfold pairSlotSend
  dsimp only
  (repeat' split) <;> simp

@[simp] theorem mem_linkFails (s : State) (a b : Nat) : (linkFails s a b).mem = s.mem := by simp [linkFails]

@[simp] theorem mem_portFlit (p bad : Nat) (s : State) : ((portFlit p bad s).getD s).mem = s.mem := by
  unfold portFlit
  (repeat' split) <;> simp

@[simp] theorem mem_flitArrival (n bad : Nat) (s : State) : ((flitArrival n bad s).getD s).mem = s.mem := by
  unfold flitArrival
  split
  · cases portNamed n with
    | none => rfl
    | some p => exact mem_portFlit p bad s
  · (repeat' split) <;> simp

@[simp] theorem mem_taken (s : State) (n : Nat) (p : Packet) (c : Nat) : (taken s n p c).mem = s.mem := by
  unfold taken
  split
  · refine mem_foldl (fun s r => ?_) _ _
    split <;> rfl
  · dsimp only
    split <;> rfl
  · dsimp only
    split <;> rfl
  · rfl

@[simp] theorem mem_fifoDelivery (n delay : Nat) (s : State) : ((fifoDelivery n delay s).getD s).mem = s.mem := by
  unfold fifoDelivery
  dsimp only
  (repeat' split) <;> simp

@[simp] theorem mem_acknowledge (s : State) (p : Packet) : (acknowledge s p).mem = s.mem := by
  unfold acknowledge
  split <;> simp

theorem mem_of_written {n : Nat} {p : Packet} (h : written s n = some (p, t)) : t.mem = s.mem := by
  unfold written at h
  split at h
  · cases h
  · dsimp only at h
    split at h <;> cases h
    simp

@[simp] theorem mem_intakeArrival (n : Nat) (s : State) : ((intakeArrival n s).getD s).mem = s.mem := by
  unfold intakeArrival
  split
  · rfl
  · next h => (repeat' split) <;> simp [mem_of_written h]

@[simp] theorem mem_landingArrival (n : Nat) (s : State) : ((landingArrival n s).getD s).mem = s.mem := by
  unfold landingArrival
  split
  · rfl
  · next h => (repeat' split) <;> simp [mem_of_written h]

/-- What a ring access leaves of memory: in the state where it is made, and in the one where it is refused or waits. -/
theorem mem_of_ringAccess {c l at_ : Nat} {k : AccKind} {op : Nat → Nat → ReqOp} {r : Option PairRec} {x : Except Chk State}
    (h : ringAccess s c l at_ k op r = some (x, t)) : t.mem = s.mem ∧ ∀ u, x = .ok u → u.mem = s.mem := by
  unfold ringAccess at h
  cases hr : ringOf s c l with
  | none => simp [hr] at h
  | some q =>
    simp only [hr, Option.map_some, Option.some.injEq] at h
    split at h <;> cases h
    · next h => exact ⟨mem_of_piecesNow h, fun u hu => by cases hu⟩
    · next h => exact ⟨mem_of_piecesNow h, fun u hu => by cases hu; simp [mem_of_piecesNow h]⟩

theorem mem_of_storeRing {c : Nat} {r : PairRec} {x : Except Chk State} (h : storeRing s c r = some (x, t)) :
    t.mem = s.mem ∧ ∀ u, x = .ok u → u.mem = s.mem := by
  unfold storeRing at h
  cases hl : r.launch with
  | none => simp [hl] at h
  | some l => exact mem_of_ringAccess (by simpa [hl] using h)

@[simp] theorem mem_ringFault (s : State) (c l : Nat) (k : Cause) (r : Option PairRec) (inj : Bool) :
    (ringFault s c l k r inj).mem = s.mem := by simp [ringFault]

@[simp] theorem mem_dropOldest (s : State) (c l : Nat) : (dropOldest s c l).mem = s.mem := by
  unfold dropOldest
  dsimp only
  (repeat' split) <;> simp

@[simp] theorem mem_ringReply (s : State) (c : Nat) (r : RingAccess) (a : Access) : (ringReply s c r a).mem = s.mem := by
  unfold ringReply
  (repeat' split) <;> simp

@[simp] theorem mem_pairArrival (n : Nat) (s : State) : ((pairArrival n s).getD s).mem = s.mem := by
  unfold pairArrival
  split
  · rfl
  · next p s1 h =>
    have h1 := mem_of_written h
    split
    · next r _ =>
      dsimp only
      split <;> split
      all_goals
        split
        · simp [h1]
        · split
          · simp [h1]
          · split
            · next e => simp [(mem_of_storeRing e).2 _ rfl, h1]
            · next e => simp [(mem_of_storeRing e).1, h1]
            · cases e : storeRing s p.core r with
              | none => rfl
              | some x => exact mem_waiting (mem_of_storeRing e).1
            · rfl
    · rfl

@[simp] theorem mem_ringRefill (c : Nat) (s : State) : ((ringRefill c s).getD s).mem = s.mem := by
  unfold ringRefill
  dsimp only
  split
  · split
    · rfl
    · split <;> simp
  · split
    · rfl
    · split
      · rfl
      · split
        · next e => exact (mem_of_ringAccess e).2 _ rfl
        · next e => simp [(mem_of_ringAccess e).1]
        · next e => exact mem_waiting (mem_of_ringAccess e).1
        · rfl

/-! ## Starts, pairs, traps at a turn and fault messages -/

@[simp] theorem mem_landThread (s : State) (tid name turn : Nat) (t : Thread) :
    (landThread s tid name turn t).mem = s.mem := by simp [landThread]

@[simp] theorem mem_clearPair (s : State) (c i : Nat) : (clearPair s c i).mem = s.mem := by simp [clearPair]

@[simp] theorem mem_startPair (s : State) (c i : Nat) (b : Begin) (lead trail : Nat) (f : Thread → Thread) :
    (startPair s c i b lead trail f).mem = s.mem := by simp [startPair]

@[simp] theorem mem_threadStart (c : Nat) (s : State) : ((threadStart c s).getD s).mem = s.mem := by
  unfold threadStart
  dsimp only
  cases nextTaken s c with
  | none => rfl
  | some x =>
    simp only [Option.map_some, Option.getD_some]
    split
    · simp
    · split <;> simp

@[simp] theorem mem_restartPair (tid : Nat) (s : State) : ((restartPair tid s).getD s).mem = s.mem := by
  unfold restartPair
  cases restartCycle s tid <;> simp

@[simp] theorem mem_systemStart (c : Nat) (s : State) : ((systemStart c s).getD s).mem = s.mem := by
  unfold systemStart
  (repeat' split) <;> simp

@[simp] theorem mem_installRule (s : State) (c cn key : Nat) (v : Word) :
    (installRule s c cn key v).mem = s.mem := by simp [installRule]

@[simp] theorem mem_setPrep (s : State) (c : Nat) (p : Option Prep) : (setPrep s c p).mem = s.mem := by simp [setPrep]

@[simp] theorem mem_dropPair (s : State) (c : Nat) : (dropPair s c).mem = s.mem := by simp [dropPair]

@[simp] theorem mem_pairFault (s : State) (c : Nat) (k : Cause) (r : PairRec) (inj : Bool) :
    (pairFault s c k r inj).mem = s.mem := by simp [pairFault]

@[simp] theorem mem_prepRead (s : State) (c : Nat) (r : PairRec) (got : List Nat) (va : Word) (n : Nat) :
    ((prepRead s c r got va n).getD s).mem = s.mem := by
  unfold prepRead
  split
  · next h => simp [mem_of_piecesNow h]
  · next h => exact mem_waiting (mem_of_piecesNow h)
  · next h => simp [mem_of_piecesNow h]

@[simp] theorem mem_prepGo (s : State) (c : Nat) (r : PairRec) (pa : Word) (wa : List Word) (b : PairEnd) (v : Nat) :
    ((prepGo s c r pa wa b v).getD s).mem = s.mem := by
  unfold prepGo
  dsimp only
  split
  · simp
  · split
    · simp
    · split
      · next h => simp [mem_of_piecesNow h]
      · next h => exact mem_waiting (mem_of_piecesNow h)
      · next h => (repeat' split) <;> simp [mem_of_piecesNow h]

theorem mem_prepEnd {next : State → Nat → Option State} (hn : ∀ v, ((next s v).getD s).mem = s.mem) (c : Nat) (r : PairRec)
    (got : List Nat) (w : Word) : ((prepEnd s c r got w next).getD s).mem = s.mem := by
  unfold prepEnd
  split
  · exact mem_prepRead ..
  · split
    · simp
    · exact hn 0

@[simp] theorem mem_prepRule (s : State) (c : Nat) (r : PairRec) (va vb : Nat) : ((prepRule s c r va vb).getD s).mem = s.mem := by
  unfold prepRule
  dsimp only
  (repeat' split) <;> simp

@[simp] theorem mem_prepOther (s : State) (c : Nat) (r : PairRec) (va : Nat) : ((prepOther s c r va).getD s).mem = s.mem := by
  unfold prepOther
  split
  · simp
  · exact mem_prepEnd (fun vb => mem_prepRule s c r va vb) ..

@[simp] theorem mem_prepFrom (s : State) (c : Nat) (r : PairRec) (got : List Nat) : ((prepFrom s c r got).getD s).mem = s.mem := by
  unfold prepFrom
  split
  · exact mem_prepEnd (fun va => mem_prepOther s c r va) ..
  · exact mem_prepOther ..
  · exact mem_prepRule ..

@[simp] theorem mem_prepReply (s : State) (c : Nat) (r : PairRec) (got : List Nat) (x : Access) :
    (prepReply s c r got x).mem = s.mem := by
  unfold prepReply
  dsimp only
  (repeat' split) <;> simp

@[simp] theorem mem_pairPrepare (c : Nat) (s : State) : ((pairPrepare c s).getD s).mem = s.mem := by
  unfold pairPrepare
  dsimp only
  (repeat' split) <;> simp

@[simp] theorem mem_stealRequest (c : Nat) (s : State) : ((stealRequest c s).getD s).mem = s.mem := by
  unfold stealRequest
  dsimp only
  (repeat' split) <;> simp

@[simp] theorem mem_autoRecast (c : Nat) (s : State) : ((autoRecast c s).getD s).mem = s.mem := by
  unfold autoRecast
  dsimp only
  (repeat' split) <;> simp

@[simp] theorem mem_channelMove (c k : Nat) (s : State) : ((channelMove c k s).getD s).mem = s.mem := by
  unfold channelMove
  dsimp only
  (repeat' split) <;> simp

@[simp] theorem mem_trapEntry (tid : Nat) (s : State) : ((trapEntry tid s).getD s).mem = s.mem := by
  unfold trapEntry
  split <;> simp [mem_takeFault]

@[simp] theorem mem_faultMessage (c : Nat) (s : State) : ((faultMessage c s).getD s).mem = s.mem := by
  unfold faultMessage
  dsimp only
  (repeat' split) <;> simp

@[simp] theorem mem_getD_reflect (c : Nat) (s : State) : ((reflect c s).getD s).mem = s.mem := by
  cases h : reflect c s with
  | none => rfl
  | some t => exact mem_reflect h

@[simp] theorem mem_haltDeadline (tid : Nat) (s : State) : ((haltDeadline tid s).getD s).mem = s.mem := by
  unfold haltDeadline
  dsimp only
  (repeat' split) <;> simp

/-! ## The host link and the firmware -/

@[simp] theorem mem_setHost (s : State) (f : HostLink → HostLink) : (setHost s f).mem = s.mem := by simp [setHost]

@[simp] theorem mem_bootImage (image : List Byte) (s : State) : ((bootImage image s).getD s).mem = s.mem := by
  unfold bootImage
  split <;> simp

@[simp] theorem mem_kickRecord (s : State) (kind : Nat) (v : Word) (ts : Nat) :
    (kickRecord s kind v ts).mem = s.mem := by simp [kickRecord]

@[simp] theorem mem_kick (v : Word) (s : State) : ((kick v s).getD s).mem = s.mem := by
  unfold kick
  split <;> simp

@[simp] theorem mem_slotWrite (i : Nat) (ws : List Word) (s : State) : ((slotWrite i ws s).getD s).mem = s.mem := by simp [slotWrite]

@[simp] theorem mem_takePacket (s : State) (ws : List Word) : (takePacket s ws).mem = s.mem := by simp [takePacket]

@[simp] theorem mem_slotPoll (s : State) : ((slotPoll s).getD s).mem = s.mem := by
  unfold slotPoll
  dsimp only
  (repeat' split) <;> simp

@[simp] theorem mem_kickAhead (s : State) : ((kickAhead s).getD s).mem = s.mem := by
  unfold kickAhead
  (repeat' split) <;> simp

theorem mem_of_packetOf {kind : Nat} {ws : List Word} (h : packetOf s kind = some (ws, t)) : t.mem = s.mem := by
  unfold packetOf at h
  split at h
  · split at h <;> cases h
    rfl
  · cases h

@[simp] theorem mem_consumedWrite (v : Word) (s : State) : ((consumedWrite v s).getD s).mem = s.mem := by
  unfold consumedWrite
  split <;> simp

@[simp] theorem mem_partitionSetup (s : State) : ((partitionSetup s).getD s).mem = s.mem := by
  unfold partitionSetup
  cases h : packetOf s 2 with
  | none => rfl
  | some x =>
    dsimp only [Option.map_some, Option.getD_some]
    split
    · simp [mem_of_packetOf h]
    · split
      · simp [mem_of_packetOf h]
      · rw [mem_packetDone, mem_foldl fun t c => ?_, mem_of_packetOf h]
        (repeat' split) <;> simp

@[simp] theorem mem_createContext (s : State) : ((createContext s).getD s).mem = s.mem := by
  unfold createContext
  cases h : packetOf s 7 with
  | none => rfl
  | some x =>
    dsimp only [Option.map_some, Option.getD_some]
    split
    · simp [mem_of_packetOf h]
    · split <;> simp [mem_of_packetOf h]

@[simp] theorem mem_releaseContext (s : State) : ((releaseContext s).getD s).mem = s.mem := by
  unfold releaseContext
  split
  · rfl
  · next h =>
    dsimp only
    (repeat' split) <;> simp [mem_of_packetOf h]

@[simp] theorem mem_readSlice (s : State) (c va n : Nat) : ((readSlice s c va n).state s).mem = s.mem := by
  unfold readSlice
  split
  · exact mem_noteWalk ..
  · dsimp only
    (repeat' split) <;> simp

@[simp] theorem mem_readSlices (s : State) (c : Nat) (ws : List Slice) : ((readSlices s c ws).state s).mem = s.mem := by
  induction ws generalizing s with
  | nil => rfl
  | cons w ws ih => exact Read.mem_bind (mem_readSlice ..) fun v t => Read.mem_bind (ih t) fun _ _ => rfl

@[simp] theorem mem_readVa (s : State) (c va : Nat) : ((readVa s c va).state s).mem = s.mem := by
  unfold readVa
  split
  · rfl
  · exact mem_readSlices ..

@[simp] theorem mem_readWords (s : State) (c va n : Nat) : ((readWords s c va n).state s).mem = s.mem := by
  induction n generalizing s va with
  | zero => rfl
  | succ n ih => exact Read.mem_bind (mem_readVa ..) fun w t => Read.mem_bind (ih t _) fun _ _ => rfl

@[simp] theorem mem_readTasks (s : State) (c va n : Nat) : ((readTasks s c va n).state s).mem = s.mem := by
  induction n generalizing s va with
  | zero => rfl
  | succ n ih =>
    refine Read.mem_bind (mem_readWords ..) fun ws t => ?_
    dsimp only
    split
    · rfl
    · exact Read.mem_bind (ih t _) fun _ _ => rfl

@[simp] theorem mem_readLists (s : State) (c tlist i n : Nat) : ((readLists s c tlist i n).state s).mem = s.mem := by
  induction n generalizing s i with
  | zero => rfl
  | succ n ih =>
    refine Read.mem_bind (mem_readWords ..) fun ws t => ?_
    dsimp only
    split
    · rfl
    · exact Read.mem_bind (mem_readTasks ..) fun _ u => Read.mem_bind (ih u _) fun _ _ => rfl

@[simp] theorem mem_readRoles (s : State) (c va i n : Nat) : ((readRoles s c va i n).state s).mem = s.mem := by
  induction n generalizing s i with
  | zero => rfl
  | succ n ih =>
    refine Read.mem_bind (mem_readVa ..) fun v t => ?_
    split
    · exact Read.mem_bind (ih t _) fun _ _ => rfl
    · rfl

@[simp] theorem mem_captureLaunch (s : State) (c : Nat) (seq : BitVec 32) (ws : List Nat) :
    ((captureLaunch s c seq ws).state s).mem = s.mem := by
  unfold captureLaunch
  dsimp only
  split
  · rfl
  · refine Read.mem_bind (mem_readLists ..) fun lists t => Read.mem_bind ?_ fun _ _ => rfl
    split
    · rfl
    · exact mem_readRoles ..

@[simp] theorem mem_endRecord (s : State) (c : Nat) (seq : BitVec 32) (tag status : Nat) (target : Option (Nat × Nat))
    (gone : List Nat) :
    (endRecord s c seq tag status target gone).mem = s.mem := by
  unfold endRecord
  split <;> simp

@[simp] theorem mem_enqueueLaunch (s : State) (c : Nat) (n : BitVec 32) (header : Nat) :
    ((enqueueLaunch s c n header).getD s).mem = s.mem := by
  unfold enqueueLaunch
  split
  · simp
  · split
    · simp
    · split
      · rfl
      · next h => simp [Read.mem_of_bad (mem_readWords ..) h]
      · next hs t h =>
        have ht := Read.mem_of_val (mem_readWords ..) h
        split
        · rfl
        · next h => simp [Read.mem_of_bad (mem_captureLaunch ..) h, ht]
        · next h => simp [Read.mem_of_val (mem_captureLaunch ..) h, ht]

@[simp] theorem mem_launchPacket (s : State) : ((launchPacket s).getD s).mem = s.mem := by
  unfold launchPacket
  cases h : packetOf s 1 with
  | none => rfl
  | some x =>
    obtain ⟨ws, t⟩ := x
    have ht := mem_of_packetOf h
    dsimp only [Option.bind_some]
    split
    · simp [ht]
    · cases e : enqueueLaunch t (ctxOf ws) (seqOf ws) (pw ws 1) with
      | none => rfl
      | some u => exact (mem_of_some (mem_enqueueLaunch ..) e).trans ht

@[simp] theorem mem_systemLaunch (c : Nat) (header : Word) (s : State) : ((systemLaunch c header s).getD s).mem = s.mem := by
  unfold systemLaunch
  split
  · next h => rw [Option.getD_some, mem_of_some (mem_enqueueLaunch ..) h]; rfl
  · split <;> rfl

@[simp] theorem mem_rebase (s : State) (k new : Nat) : (rebase s k new).mem = s.mem := by simp [rebase]

@[simp] theorem mem_enterMode (s : State) (t : Nat) (fixt : Bool) (k : Nat) : (enterMode s t fixt k).mem = s.mem := by simp [enterMode]

@[simp] theorem mem_modeChanged (p : Nat) (s : State) : ((modeChanged p s).getD s).mem = s.mem := by
  unfold modeChanged
  split <;> simp

@[simp] theorem mem_handOver (c : Nat) (s : State) (k : Nat) : (handOver c s k).mem = s.mem := by simp [handOver]

@[simp] theorem mem_writeRoles (s : State) (l : Launch) : (writeRoles s l).mem = s.mem := by
  unfold writeRoles
  dsimp only
  split
  · rfl
  · refine mem_foldl (fun s r => ?_) _ s
    split <;> rfl

@[simp] theorem mem_launchStart (i : Nat) (s : State) : ((launchStart i s).getD s).mem = s.mem := by
  unfold launchStart
  (repeat' split) <;> simp

@[simp] theorem mem_endLaunch (s : State) (i : Nat) (x : Launch) : (endLaunch s i x).mem = s.mem := by simp [endLaunch]

@[simp] theorem mem_sweepEnd (s : State) (i : Nat) (x : Launch) (r : Sweep) : (sweepEnd s i x r).mem = s.mem := by simp [sweepEnd]

@[simp] theorem mem_cruiseSweep (i : Nat) (s : State) : ((cruiseSweep i s).getD s).mem = s.mem := by
  unfold cruiseSweep
  dsimp only
  (repeat' split) <;> simp

@[simp] theorem mem_takeOut (s : State) (n c : Nat) : (takeOut s n c).mem = s.mem := by simp [takeOut]

@[simp] theorem mem_preEmptDeadline (n : Nat) (s : State) : ((preEmptDeadline n s).getD s).mem = s.mem := by
  unfold preEmptDeadline
  split <;> simp

@[simp] theorem mem_putBack (s : State) (v : Saved) : (putBack s v).mem = s.mem := by simp [putBack]

@[simp] theorem mem_resumeStart (s : State) (n : Nat) (v : Saved) : (resumeStart s n v).mem = s.mem := by simp [resumeStart]

@[simp] theorem mem_resumeContext (s : State) : ((resumeContext s).getD s).mem = s.mem := by
  unfold resumeContext
  split
  · rfl
  · next h =>
    dsimp only
    (repeat' split) <;> simp [mem_of_packetOf h]

@[simp] theorem mem_killContext (s : State) : ((killContext s).getD s).mem = s.mem := by
  unfold killContext
  split
  · rfl
  · next h =>
    dsimp only
    (repeat' split) <;> simp [mem_of_packetOf h]

@[simp] theorem mem_killReport (n unit : Nat) (s : State) : ((killReport n unit s).getD s).mem = s.mem := by
  unfold killReport
  dsimp only
  (repeat' split) <;> simp

/-! ## Residue instructions -/

@[simp] theorem mem_rnsCount (s : State) (tl : Nat) (r : Option RnsResult) : (rnsCount s tl r).mem = s.mem := by
  unfold rnsCount
  split <;> simp

@[simp] theorem mem_pairResult (s : State) (d : Reg) (v b : Word) (n : Nat) :
    (pairResult s d v b n).mem = s.mem := by simp [pairResult]

@[simp] theorem mem_degradeTile (tl : Nat) (s : State) : ((degradeTile tl s).getD s).mem = s.mem := by
  unfold degradeTile
  dsimp only
  (repeat' split) <;> simp

/-! ## A thread's turn -/

@[simp] theorem mem_fetchWord (s : State) (tl w : Nat) : (fetchWord s tl w).2.mem = s.mem := by
  unfold fetchWord
  split <;> simp

@[simp] theorem mem_fetch (s : State) (tl : Nat) (pc : Word) : (fetch s tl pc).2.mem = s.mem := by
  unfold fetch
  dsimp only
  (repeat' split) <;> simp

/-! ## An instruction and a step of another agent -/

/-- The state that stands after a step: where the machine has stopped, the one before it. -/
def stateAfter (s : State) : Host.Outcome State Fault Refusal → State
  | .next t => t
  | .fault _ => s
  | .refused _ => s

@[simp] theorem stateAfter_next (s t : State) : stateAfter s (.next t) = t := rfl
@[simp] theorem stateAfter_fault (s : State) (f : Fault) : stateAfter s (.fault f) = s := rfl
@[simp] theorem stateAfter_refused (s : State) (r : Refusal) : stateAfter s (.refused r) = s := rfl

/-- A step of another agent leaves of memory what the agent's own step leaves. -/
theorem mem_event {f : State → Option State} (h : ((f s).getD s).mem = s.mem) : (stateAfter s (event f s)).mem = s.mem := by
  unfold event
  split
  · exact h
  · rfl

/-- An instruction leaves memory alone where its own effect does. -/
theorem mem_issue {f : Form} {body : List Word → State → Eff × State} (h : ∀ vs t, (body vs t).2.mem = t.mem) (s : State) :
    (stateAfter s (issue f body s)).mem = s.mem := by
  unfold issue
  split
  · simp only [stateAfter_next, mem_finish, mem_attempt h, setThr_mem]
  · rfl

theorem mem_compute (f : Form) (d : Reg) (n : Nat) (g : List Word → Word) (s : State) :
    (stateAfter s (compute f d n g s)).mem = s.mem :=
  mem_issue (fun _ _ => mem_result ..) s

end Sys2Proof.Machine
end

section
/-! SUPPORT. What each instruction and each step of another agent leaves of memory (R4): an instruction changes no byte of it, since
its stores are requests, which their homes perform later. -/

namespace Sys2Proof.Machine

theorem mem_branch (len : Nat) (rs : List Reg) (o : BitVec 12) (taken : List Word → Bool) (s : State) :
    (stateAfter s (branch len rs o taken s)).mem = s.mem :=
  mem_issue (fun _ _ => by simp) s

theorem mem_indirect (len : Nat) (a : Reg) (i : BitVec 12) (s : State) : (stateAfter s (indirect len a i s)).mem = s.mem := by
  refine mem_issue (fun vs t => ?_) s
  dsimp only
  split <;> simp

theorem mem_indirectLink (len : Nat) (d a : Reg) (i : BitVec 12) (s : State) :
    (stateAfter s (indirectLink len d a i s)).mem = s.mem := by
  refine mem_issue (fun vs t => ?_) s
  dsimp only
  split <;> simp

theorem mem_save (len : Nat) (s : State) : (stateAfter s (save len s)).mem = s.mem := by
  refine mem_issue (fun vs t => ?_) s
  dsimp only
  (repeat' split) <;> simp

theorem mem_restore (len : Nat) (s : State) : (stateAfter s (restore len s)).mem = s.mem := by
  refine mem_issue (fun vs t => ?_) s
  dsimp only
  (repeat' split) <;> simp

theorem mem_loadOne (len : Nat) (d a : Reg) (off : Word) (w : Nat) (signed acq migrates : Bool) (s : State) :
    (stateAfter s (loadOne len d a off w signed acq migrates s)).mem = s.mem :=
  mem_issue (fun _ _ => by simp) s

theorem mem_storeOne (len : Nat) (a b : Reg) (off : Word) (w : Nat) (rel : Bool) (s : State) :
    (stateAfter s (storeOne len a b off w rel s)).mem = s.mem :=
  mem_issue (fun _ _ => by simp) s

theorem mem_atomic (op : Nat) (d a b : Reg) (w : BitVec 1) (r : BitVec 2) (s : State) :
    (stateAfter s (atomic op d a b w r s)).mem = s.mem :=
  mem_issue (fun _ _ => by simp) s

theorem mem_execSqCfg (q a : Reg) (i : BitVec 12) (s : State) : (stateAfter s (execSqCfg q a i s)).mem = s.mem := by
  refine mem_issue (fun vs t => ?_) s
  dsimp only
  split
  · rfl
  · rw [Res.mem_run fun ws u => ?_, mem_ownWords]
    split <;> rfl

theorem mem_fp (f : Form) (d : Reg) (n : Nat) (g : Option (BitVec 10) → BitVec 3 → List Word → Nat × FFlags) (s : State) :
    (stateAfter s (fp f d n g s)).mem = s.mem :=
  mem_issue (fun _ _ => by simp) s

theorem mem_packed (d a b : Reg) (t : BitVec 3) (g : Nat → Int → Int → Int) (s : State) :
    (stateAfter s (packed d a b t g s)).mem = s.mem :=
  mem_issue (fun _ _ => by simp) s

theorem mem_fp2 (d a b : Reg) (m t : BitVec 3) (g : Rm → FVal → FVal → FVal × Bool) (s : State) :
    (stateAfter s (fp2 d a b m t g s)).mem = s.mem :=
  mem_issue (fun _ _ => by simp) s

theorem mem_fp1 (d a : Reg) (t : BitVec 3) (g : FVal → FVal) (s : State) : (stateAfter s (fp1 d a t g s)).mem = s.mem :=
  mem_issue (fun _ _ => by simp) s

theorem mem_fcmp (d a b : Reg) (t : BitVec 3) (g : FVal → FVal → Bool) (s : State) : (stateAfter s (fcmp d a b t g s)).mem = s.mem :=
  mem_issue (fun _ _ => by simp) s

theorem mem_fused (d a b c : Reg) (t : BitVec 3) (neg : Bool) (s : State) : (stateAfter s (fused d a b c t neg s)).mem = s.mem :=
  mem_issue (fun _ _ => by simp) s

theorem mem_millIssue (f : Form) (kind : MillKind) (acc opt : Nat) (regs : List Word → Word × Word × Word × Word) (s : State) :
    (stateAfter s (millIssue f kind acc opt regs s)).mem = s.mem := by
  refine mem_issue (fun vs t => ?_) s
  dsimp only
  split <;> simp

theorem mem_multiply (kind : MillKind) (a b c : Reg) (opt : Nat) (w : BitVec 3) (acc : Option (Nat → Bool)) (s : State) :
    (stateAfter s (multiply kind a b c opt w acc s)).mem = s.mem :=
  mem_millIssue _ _ _ _ _ s

theorem mem_blockIssue (kind : MillKind) (a b c : Reg) (opt : Nat) (w : BitVec 3) (s : State) :
    (stateAfter s (blockIssue kind a b c opt w s)).mem = s.mem :=
  mem_millIssue _ _ _ _ _ s

theorem mem_landing (take : Bool) (d a : Reg) (nw : BitVec 1) (pm : BitVec 4) (s : State) :
    (stateAfter s (landing take d a nw pm s)).mem = s.mem := by
  refine mem_issue (fun vs t => mem_takeEntry (fun u => ?_) ..) s
  split <;> simp

theorem mem_execWaitSeq (d a b : Reg) (s : State) : (stateAfter s (execWaitSeq d a b s)).mem = s.mem := by
  refine mem_issue (fun vs t => ?_) s
  dsimp only
  split
  · rfl
  · exact mem_takeEntry (fun _ => rfl) ..

theorem mem_execSpawn (d a : Reg) (s : State) : (stateAfter s (execSpawn d a s)).mem = s.mem := by
  refine mem_issue (fun vs t => ?_) s
  rw [Res.mem_run fun ws u => ?_, mem_taskRecord]
  (repeat' split) <;> simp

theorem mem_execYield (d a : Reg) (s : State) : (stateAfter s (execYield d a s)).mem = s.mem := by
  refine mem_issue (fun vs t => ?_) s
  dsimp only
  split
  · exact mem_endWork ..
  · rw [Res.mem_run fun ws u => ?_, mem_taskRecord]
    (repeat' split) <;> simp

theorem mem_crewOp (a : Reg) (f : Ctx → Thread → Nat → Nat → Except Cause (Ctx × Thread)) (s : State) :
    (stateAfter s (crewOp a f s)).mem = s.mem := by
  refine mem_issue (fun vs t => ?_) s
  dsimp only
  (repeat' split) <;> simp

theorem mem_arrival (drop : Bool) (d a : Reg) (s : State) : (stateAfter s (arrival drop d a s)).mem = s.mem := by
  refine mem_issue (fun vs t => ?_) s
  dsimp only
  (repeat' split) <;> simp

theorem mem_yarder (kind : Nat) (d a : Reg) (s : State) : (stateAfter s (yarder kind d a s)).mem = s.mem := by
  refine mem_issue (fun vs t => ?_) s
  dsimp only
  split
  · rfl
  · rw [Res.mem_run fun ws u => ?_, mem_ownWords]
    rw [Res.mem_run fun r v => ?_, mem_cardChecks]
    split
    · rfl
    · exact mem_admitJob ..

theorem mem_execMark (d a : Reg) (s : State) : (stateAfter s (execMark d a s)).mem = s.mem := by
  refine mem_issue (fun vs t => ?_) s
  dsimp only
  split
  · rfl
  · rw [Res.mem_run fun ws u => ?_, mem_ownWords]
    split
    · rfl
    · rw [Res.mem_run fun ps v => mem_admitJob .., mem_markChecks]

theorem mem_sfu (fn : Nat) (d a : Reg) (w : BitVec 3) (np : BitVec 1) (t : BitVec 2) (s : State) :
    (stateAfter s (sfu fn d a w np t s)).mem = s.mem := by
  refine mem_issue (fun vs t => ?_) s
  dsimp only
  split <;> simp

theorem mem_gradeOut (fin : Bool) (d a b : Reg) (s : State) : (stateAfter s (gradeOut fin d a b s)).mem = s.mem := by
  refine mem_issue (fun vs t => ?_) s
  dsimp only
  split
  · rfl
  · split
    · rfl
    · split
      · rfl
      · rw [Res.mem_run fun ps u => ?_, mem_ownStore]
        split
        · rfl
        · rw [Res.mem_run fun _ v => ?_, mem_storeOwn]
          split <;> simp

theorem mem_execSmpResCfg (d a b : Reg) (s : State) : (stateAfter s (execSmpResCfg d a b s)).mem = s.mem := by
  refine mem_issue (fun vs t => ?_) s
  dsimp only
  split
  · rfl
  · split
    · rfl
    · rw [Res.mem_run fun ws u => ?_, mem_ownWords]
      (repeat' split) <;> simp

theorem mem_redRead (wait : Bool) (d a : Reg) (s : State) : (stateAfter s (redRead wait d a s)).mem = s.mem := by
  refine mem_issue (fun vs t => ?_) s
  dsimp only
  (repeat' split) <;> simp

theorem mem_mapNext {f : State → State} (h : ∀ u, (f u).mem = u.mem) (s : State) (o : Host.Outcome State Fault Refusal) :
    (stateAfter s (mapNext f o)).mem = (stateAfter s o).mem := by
  cases o with
  | next t => exact h t
  | fault f => rfl
  | refused r => rfl

/-- An instruction that runs step by step leaves memory alone where its first step does. -/
theorem mem_netIssue {start : List Word → State → Res NetStep} (h : ∀ vs t, (start vs t).state.mem = t.mem) (reads writes : List Reg)
    (d : Reg) (s : State) : (stateAfter s (netIssue reads writes d start s)).mem = s.mem := by
  unfold netIssue
  dsimp only
  rw [mem_mapNext fun u => ?_]
  · refine mem_issue (fun vs t => ?_) s
    split
    · exact mem_netRun ..
    · rw [Res.mem_run fun x u => ?_, h]
      exact mem_netRun ..
  · split <;> simp

theorem mem_execLink (d a b : Reg) (s : State) : (stateAfter s (execLink d a b s)).mem = s.mem := by
  refine mem_netIssue (fun vs t => ?_) _ _ _ s
  dsimp only
  split
  · rfl
  · rw [Res.mem_bind fun _ u => ?_, mem_portPlace]
    rw [Res.mem_bind fun _ _ => rfl, mem_portPlace]

theorem mem_execPair (a b : Reg) (s : State) : (stateAfter s (execPair a b s)).mem = s.mem := by
  refine mem_issue (fun vs t => ?_) s
  dsimp only
  split
  · rfl
  · rw [Res.mem_run fun _ u => ?_, mem_portPlace]
    rw [Res.mem_run fun _ v => ?_, mem_portPlace]
    rw [Res.mem_run fun _ _ => rfl, mem_pushPair]

theorem mem_execNalloc (d : Reg) (s : State) : (stateAfter s (execNalloc d s)).mem = s.mem := by
  refine mem_issue (fun vs t => ?_) s
  dsimp only
  split
  · rfl
  · next h =>
    refine Res.mem_run_of (mem_netPiece ..) fun p u hu => ?_
    split
    · exact hu
    · simp [mem_of_allocBlock h]

theorem mem_execNfree (a : Reg) (s : State) : (stateAfter s (execNfree a s)).mem = s.mem := by
  refine mem_netIssue (fun vs t => ?_) _ _ _ s
  rw [Res.mem_bind fun p u => ?_, mem_netPiece]
  rw [Res.mem_bind fun _ _ => rfl, mem_netAtomic]

theorem mem_pref (up : Bool) (d a : Reg) (s : State) : (stateAfter s (pref up d a s)).mem = s.mem := by
  refine mem_netIssue (fun vs t => ?_) _ _ _ s
  dsimp only
  split
  · rfl
  · rw [Res.mem_bind fun ps u => ?_, mem_checkAsk]
    split <;> simp

theorem mem_execTkill (d a : Reg) (s : State) : (stateAfter s (execTkill d a s)).mem = s.mem := by
  refine mem_issue (fun vs t => ?_) s
  dsimp only
  split
  · rfl
  · split
    · split <;> simp
    · split
      · simp
      · split
        · simp
        · exact mem_foldl (f := fun s m => setThr s m { thr s m with doomed := true }) (fun _ _ => rfl) _ t

theorem mem_execHalt (d a b : Reg) (s : State) : (stateAfter s (execHalt d a b s)).mem = s.mem := by
  refine mem_issue (fun vs t => ?_) s
  dsimp only
  split
  · rfl
  · rw [Res.mem_run fun ps u => ?_, mem_ownStore]
    split
    · rw [Res.mem_run fun _ v => ?_, mem_storeOwn]
      simp
    · split <;> simp

/-- A residue instruction leaves memory alone where its effect on a tile does. -/
theorem mem_residue {body : Tile → List Word → State → Eff × State} (h : ∀ x vs t, (body x vs t).2.mem = t.mem) (f : Form)
    (s : State) :
    (stateAfter s (residue f body s)).mem = s.mem := by
  refine mem_issue (fun vs t => ?_) s
  dsimp only
  split
  · exact h ..
  · rfl

theorem mem_rnsArith (d a b : Reg) (w : BitVec 3) (op : Int → Int → Int) (bound : Nat → Nat → Nat) (s : State) :
    (stateAfter s (rnsArith d a b w op bound s)).mem = s.mem := by
  refine mem_issue (fun vs t => ?_) s
  dsimp only
  split <;> simp

theorem mem_execRnsr (d a : Reg) (w : BitVec 3) (s : State) : (stateAfter s (execRnsr d a w s)).mem = s.mem := by
  refine mem_residue (fun x vs t => ?_) _ s
  dsimp only
  split <;> simp

theorem mem_execIllegalEncoding (b : BitVec 32) (s : State) : (stateAfter s (execIllegalEncoding b s)).mem = s.mem := by
  unfold execIllegalEncoding
  split
  · dsimp only [stateAfter_next]
    rw [mem_finish]
    rfl
  · rfl
/-- The steps that write memory: an access at its home, a page that moves, a table row that a mill writes, what the firmware gives the
host, and power. -/
def writesMemory : Instr → Bool
  | .powerOn | .powerOff | .bankRequest .. | .homeAccess .. | .windowAccessService .. | .frameCopyComplete .. | .forwardingCommit ..
  | .millRowRead .. | .hostRecordPost | .preEmptContext | .readLog | .attest => true
  | _ => false

/-- A step that is none of those of `writesMemory` changes no byte of memory. -/
theorem mem_exec {i : Instr} (h : writesMemory i = false) (s : State) : (stateAfter s (exec i s)).mem = s.mem := by
  unfold exec
  cases i with
  | bootImage | kick | consumedRegister | modeChangeComplete | launchStart | cruiseSweep | preEmptionDeadline
  | trapEntry | faultMessage | systemClassStart | threadStart | dispatchIntakeArrival | landingMessageArrival
  | migrationDepart | sendQueueDepart | pairRecordArrival | overflowRingRefill | pairPrepare | stealRequest
  | autoRecast | channelElementMove | accessReply | postedStoreAck | postedStoreRefusal | flitArrival | pageWalkEnd
  | frameMigrating | drainReport | footprintAccept | footprintDispatch | jobArrival | watermarkReport | jobCompletion
  | yarderKillReport | millAccept | millRetire | millPipeFault | sfuResult | pendingResultWrite | spillWord
  | streamReadAhead | reductionCombine | graderAccept | markJobRun | droopTrip | scalerConfig | pairSlotSend
  | elasticFifoDelivery | haltDeadline | intakeSlotWrite | kickSlotPoll | kickAheadOfPacket | launch | partitionSetup
  | killContext | createContext | releaseContext | resumeContext => exact mem_event (by simp)
  | bankRequest | homeAccess | windowAccessService | frameCopyComplete | forwardingCommit | millRowRead | powerOn
  | powerOff | hostRecordPost | preEmptContext | readLog | attest => cases h
  | illegalEncoding => exact mem_execIllegalEncoding ..
  | add | sub | and | or | xor | andn | orn | addi | andi | ori | xori | slti | sltiN | shl | shr | sar | rotl | rotr
  | clz | ctz | popc | brev | bswap | bfx | bfxs | bfi | shli | shri | sari | mul | mulh | mulhN | madd | msub | div
  | divN | rem | remN | li | liN | lih | min | minN | max | maxN | slt | sltN | seq | sel | fli | c16Add | c16Sub
  | c16And | c16Or | c16Xor | c16Move | c16Mul | c16Addi | c16Li | c16Shli | c16Shri | c16Sari | c16Andi
  | c16Addi16 => exact mem_compute ..
  | adr | j | jal | rep | ldp | stp | ldm | stm | cas | sqBind | sqOff | sqWait | sqStat | mseq | mwait | mwaitAll
  | mprogRd | mprogGo | mprogCancel | lndCnt | nread | markSt | trap | sysc | cyc | c16J | c16Jal | nop | endThread
  | c16Nop => exact mem_issue (fun _ _ => by simp) s
  | beq | bne | blt | bge | bz | bnz | bltN | bgeN | c16Bz | c16Bnz => exact mem_branch ..
  | jr | c16Jr | ret | c16Ret => exact mem_indirect ..
  | jalr | c16Jalr => exact mem_indirectLink ..
  | ld | ldN | ldAcq | lx | c16Ld | c16LdX2 | c16LdX3 => exact mem_loadOne ..
  | st | stRel | c16St | c16StX2 | c16StX3 => exact mem_storeOne ..
  | amoAdd | amoAnd | amoOr | amoXor | amoMin | amoMax | amoNMin | amoNMax | amoXchg => exact mem_atomic ..
  | fence | dcb | rnsmap | send | sendm | mig | barInit | barWait | semPost | semWait | chanPut | chanGet | recast
  | nhdr | yrdChan | yrdWm | yrdStop | grdCfg | grdIn | smpInj | gnz | rng | swr | tscrub | winMap | winRd | winWr
  | eccInj | tlbInv | tsc | pfx | tret => exact mem_issue (fun _ _ => by dsimp only; (repeat' split) <;> simp) s
  | sqCfg => exact mem_execSqCfg ..
  | padd | psub | padds | psubs | pmul | pmulh | pmin | pmax | pavg | pcmpEq | pcmpLt | pcmpLe => exact mem_packed ..
  | pabs | pdot | pshf | ppk | pup | pbc | psel | fsum | fcvt | icvt | fcls | okey | dl2 | dip | dipE4m3 | dham => exact mem_fp ..
  | fadd | fsub | fmul | fmin | fmax => exact mem_fp2 ..
  | fneg | fabs => exact mem_fp1 ..
  | fcmpEq | fcmpLt | fcmpLe => exact mem_fcmp ..
  | fma | fms => exact mem_fused ..
  | sfuRcp | sfuRsqrt | sfuSqrt | sfuExp2 | sfuLog2 | sfuExp | sfuLn | sfuSinpi | sfuCospi | sfuTanh | sfuSigm => exact mem_sfu ..
  | mma | mmas | mmcb | mmr => exact mem_multiply ..
  | mld | mst | mfin => exact mem_blockIssue ..
  | mzero | manc | mscl | mcbt => exact mem_millIssue ..
  | rnsf | rnschk => exact mem_residue (fun _ _ _ => by simp) _ s
  | rnsr => exact mem_execRnsr ..
  | rnsadd | rnsaddSub | rnsmul => exact mem_rnsArith ..
  | lndGet | lndPeek => exact mem_landing ..
  | waitSeq => exact mem_execWaitSeq ..
  | spawn => exact mem_execSpawn ..
  | yield => exact mem_execYield ..
  | crewNew | crewJoin | crewLeave | crewDel => exact mem_crewOp ..
  | barArrive | barDrop => exact mem_arrival ..
  | nalloc => exact mem_execNalloc ..
  | nfree => exact mem_execNfree ..
  | link => exact mem_execLink ..
  | pair => exact mem_execPair ..
  | prefInc | prefDec => exact mem_pref ..
  | yrdCopy | yrdGath | yrdScat | yrdFill | yrdFar => exact mem_yarder ..
  | grdOutKeep | grdOutFin => exact mem_gradeOut ..
  | mark => exact mem_execMark ..
  | smpResW | smpResNw => exact mem_redRead ..
  | smpResCfg => exact mem_execSmpResCfg ..
  | srd => exact mem_issue (fun _ _ => by split <;> simp) s
  | tkill => exact mem_execTkill ..
  | halt => exact mem_execHalt ..
  | save | c16Save => exact mem_save ..
  | restore | c16Restore => exact mem_restore ..

end Sys2Proof.Machine
end

section
/-! SUPPORT. The canonical form of memory (R4) under the steps that write it: accesses at their homes, frames that move, rows of a
table, power and the firmware; and with them every step. -/

namespace Sys2Proof.Machine

variable {s t : State}

theorem memoryOk_of_mem (h : MemoryOk s) (e : t.mem = s.mem) : MemoryOk t := by
  unfold MemoryOk
  rwa [e]

/-- Canonical form says that the keys ascend and no listed byte is 0. -/
theorem memory_wf_iff {m : List Host.Cell} : Memory.wf m = true ↔ m.Pairwise (fun c d => c.1 < d.1) ∧ ∀ c ∈ m, c.2 ≠ 0 := by
  induction m with
  | nil => simp [Memory.wf]
  | cons c m ih =>
    obtain ⟨k, v⟩ := c
    have head : (∀ c ∈ m.head?, k < c.1) ∧ m.Pairwise (fun c d => c.1 < d.1) ↔
        (∀ c ∈ m, k < c.1) ∧ m.Pairwise (fun c d => c.1 < d.1) := by
      cases m with
      | nil => simp
      | cons d m =>
        simp only [List.head?_cons, Option.mem_some_iff, forall_eq', List.pairwise_cons, List.mem_cons, forall_eq_or_imp]
        exact ⟨fun ⟨h, hd, hp⟩ => ⟨⟨h, fun c hc => h.trans (hd c hc)⟩, hd, hp⟩, fun ⟨⟨h, _⟩, hp⟩ => ⟨h, hp⟩⟩
    rw [memory_wf_cons, ih, List.pairwise_cons]
    constructor
    · rintro ⟨hv, hk, hp, hz⟩
      exact ⟨head.mp ⟨hk, hp⟩, by simpa using ⟨hv, fun a b hab => hz _ hab⟩⟩
    · rintro ⟨hp, hz⟩
      obtain ⟨hk, hp⟩ := head.mpr hp
      exact ⟨hz (k, v) (by simp), hk, hp, fun c hc => hz c (by simp [hc])⟩

/-- Bytes left out of a memory leave it canonical. -/
theorem wf_filter {m : List Host.Cell} (h : Memory.wf m = true) (p : Host.Cell → Bool) : Memory.wf (m.filter p) = true := by
  obtain ⟨hp, hz⟩ := memory_wf_iff.mp h
  exact memory_wf_iff.mpr ⟨hp.filter p, fun c hc => hz c (List.mem_of_mem_filter hc)⟩

theorem wf_foldl_setByte {α : Type} (k : α → Nat) (v : α → Byte) (l : List α) :
    ∀ {m : List Host.Cell}, Memory.wf m = true → Memory.wf (l.foldl (fun m x => setByte m (k x) (v x)) m) = true := by
  induction l with
  | nil => exact fun h => h
  | cons x xs ih => exact fun h => ih (wf_setByte h _ _)

/-- A step that may stop, made for each element of a list. -/
theorem memoryOk_foldl_bind {α : Type} {f : State → α → Option State} (hf : ∀ {s t} x, MemoryOk s → f s x = some t → MemoryOk t)
    (l : List α) : ∀ {s t : State}, MemoryOk s → l.foldl (fun o x => o.bind (f · x)) (some s) = some t → MemoryOk t := by
  induction l with
  | nil =>
    intro s t h e
    cases e
    exact h
  | cons x xs ih =>
    intro s t h e
    rw [List.foldl_cons, Option.bind_some] at e
    cases ef : f s x with
    | some u => exact ih (hf x h ef) (ef ▸ e)
    | none =>
      have stop : xs.foldl (fun o x => o.bind (f · x)) none = none := by
        clear e ih
        induction xs with
        | nil => rfl
        | cons y ys ih => exact ih
      rw [ef, stop] at e
      cases e

theorem memoryOk_event {f : State → Option State} (hs : MemoryOk s) (h : ∀ t, f s = some t → MemoryOk t) :
    MemoryOk (stateAfter s (event f s)) := by
  unfold event
  split
  · cases e : f s with
    | none => exact hs
    | some t => exact h t e
  · exact hs

/-! ## Accesses at their homes -/

theorem memoryOk_applyOp {l : Option Nat} {r : Req} {pkg pa old : Nat} (h : MemoryOk s) : MemoryOk (applyOp s l r pkg pa old) := by
  unfold applyOp
  split
  · exact h
  · exact memoryOk_writeHome h
  · exact memoryOk_writeHome h
  · split
    · exact h
    · exact memoryOk_writeHome h
  · split
    · exact h
    · exact memoryOk_of_mem (memoryOk_writeHome h) (mem_giveBlock ..)
  · split
    · exact h
    · exact memoryOk_writeHome h
  · exact memoryOk_writeHome (s := s) h

theorem memoryOk_perform {n : Nat} {r : Req} {pkg pa done : Nat} (h : MemoryOk s) : MemoryOk (perform s n r pkg pa done) := by
  have noted : MemoryOk (if r.op.stores then noteWrite { s with reqs := del s.reqs n } pkg pa r.len
      else noteErrors { s with reqs := del s.reqs n } pkg pa r.len) := memoryOk_of_mem h (by simp)
  have applied : ∀ (bad : Bool)(u : State) (l : Option Nat) (old : Nat), MemoryOk u →
      MemoryOk (if bad then u else applyOp u l r pkg pa old) := by
    intro bad u l old hu
    split
    · exact hu
    · exact memoryOk_applyOp hu
  unfold perform
  dsimp only
  split
  · exact applied _ _ _ _ noted
  · exact memoryOk_of_mem (applied _ _ _ _ noted) (mem_replyIfDone ..)

theorem memoryOk_serve {n done : Nat} (h : MemoryOk s) : MemoryOk (serve s n done) := by
  unfold serve
  split
  · exact h
  · split
    · exact memoryOk_of_mem h (mem_refuse ..)
    · exact memoryOk_of_mem h (mem_holdReq ..)
    · exact memoryOk_perform h

theorem memoryOk_serveOne {k unit : Nat} {rs : List (Nat × Req)} {only : Option Nat} (h : MemoryOk s)
    (e : serveOne s k unit rs only = some t) : MemoryOk t := by
  unfold serveOne at e
  dsimp only at e
  split at e
  · cases e
  · split at e
    · cases e
    · cases e
      exact memoryOk_serve (memoryOk_of_mem h (by simp))

theorem memoryOk_windowService {n : Nat} (h : MemoryOk s) (e : windowService n s = some t) : MemoryOk t := by
  unfold windowService at e
  split at e
  · cases e
  · split at e
    · exact memoryOk_serveOne h e
    · cases e

theorem memoryOk_homeAccess {n : Nat} (h : MemoryOk s) (e : homeAccess n s = some t) : MemoryOk t := by
  unfold homeAccess at e
  cases hr : look s.reqs n with
  | none =>
    rw [hr] at e
    cases e
  | some r =>
    simp only [hr, Option.ite_none_left_eq_some, Option.some.injEq] at e
    obtain ⟨-, rfl⟩ := e
    exact memoryOk_serve h

/-! ## Frames that move -/

theorem memoryOk_readFrame {f : Nat} (h : MemoryOk s) : MemoryOk (readFrame s f) := by
  refine memoryOk_foldl (fun s p hs => ?_) _ h
  have noted : MemoryOk (noteErrors s s.pkg (p.1 % 2 ^ 48) 8) := memoryOk_of_mem hs (by simp)
  dsimp only
  split
  · exact memoryOk_correctWord noted
  · exact noted

theorem memoryOk_copyFrame {old new : Nat} (h : MemoryOk s) : MemoryOk (copyFrame s old new) :=
  wf_foldl_setByte _ _ _ (wf_filter (memoryOk_readFrame h) _)

theorem memoryOk_frameCopied {old : Nat} (h : MemoryOk s) (e : frameCopied old s = some t) : MemoryOk t := by
  unfold frameCopied at e
  split at e
  · cases e
    exact memoryOk_of_mem (memoryOk_copyFrame h) (mem_setFrame ..)
  · cases e

theorem memoryOk_forwardingCommit {old : Nat} (h : MemoryOk s) (e : forwardingCommit old s = some t) : MemoryOk t := by
  unfold forwardingCommit at e
  split at e
  · cases e
    refine memoryOk_foldl (fun u n hu => ?_) _ (memoryOk_of_mem h (mem_setFrame ..))
    split
    · exact memoryOk_serve hu
    · exact hu
  · cases e

/-! ## Rows of a table that a mill writes -/

theorem memoryOk_undoRow {a : Access} (h : MemoryOk s) : MemoryOk (undoRow s a) :=
  memoryOk_foldl (fun _ _ hs => memoryOk_writeHome hs) _ h

theorem memoryOk_rowEnd {tl : Nat} {o : MillOp} {n : Nat} {fl : FFlags} (h : MemoryOk s) (e : rowEnd s tl o n fl = some t) :
    MemoryOk t := by
  have ticked : ∀ a : Access, MemoryOk (tick { s with accs := del s.accs n } (cmptOfTile tl) a.done) :=
    fun a => memoryOk_of_mem h (by simp)
  unfold rowEnd at e
  split at e
  · cases e
    exact h
  · dsimp only at e
    split at e
    · cases e
    · split at e
      · cases e
        exact memoryOk_of_mem (memoryOk_undoRow (ticked _)) (mem_pipeStop _ _ _ _ _)
      · split at e
        · cases e
          exact memoryOk_of_mem (memoryOk_undoRow (ticked _)) (mem_pipeStop _ _ _ _ _)
        · cases e
          exact memoryOk_of_mem (ticked _) ((mem_rowEffect ..).trans (setTile_mem ..))

theorem memoryOk_millRow {tl : Nat} (h : MemoryOk s) (e : millRow tl s = some t) : MemoryOk t := by
  unfold millRow at e
  dsimp only at e
  split at e
  · cases e
  · split at e
    · cases e
    · split at e
      · exact memoryOk_rowEnd h e
      · split at e
        · cases e
          exact memoryOk_of_mem h (mem_pipeStop ..)
        · cases e
      · split at e
        · cases e
        · split at e
          · cases e
            exact memoryOk_of_mem h (mem_pipeStop ..)
          · split at e
            · cases e
              exact memoryOk_of_mem h (mem_rowEffect ..)
            · exact memoryOk_of_mem h (mem_of_some (mem_rowAsk ..) e)

/-! ## Power and the firmware -/

theorem memoryOk_cold (h : MemoryOk s) : MemoryOk (cold s) := wf_filter h _

theorem memoryOk_hostWrite {pa : Nat} {bs : List Byte} (h : MemoryOk s) (e : hostWrite pa bs s = some t) : MemoryOk t := by
  unfold hostWrite at e
  split at e
  · cases e
    exact memoryOk_writeByteList _ h
  · cases e

theorem memoryOk_scalerRead {k i pa : Nat} (h : MemoryOk s) (e : scalerRead k i pa s = some t) : MemoryOk t := by
  unfold scalerRead at e
  dsimp only at e
  split at e
  · exact memoryOk_hostWrite h e
  · cases e

theorem memoryOk_recordPost (h : MemoryOk s) (e : recordPost s = some t) : MemoryOk t := by
  unfold recordPost at e
  split at e
  · cases e
  · split at e
    · cases e
      exact memoryOk_of_mem (memoryOk_writeByteList _ h) (mem_setHost ..)
    · cases e

theorem memoryOk_writeHost {a : Nat} {bs : List Byte} (h : MemoryOk s) : MemoryOk (writeHost s a bs) := by
  unfold writeHost
  split
  · exact memoryOk_writeByteList _ h
  · exact h

theorem memoryOk_readLog (h : MemoryOk s) (e : readLog s = some t) : MemoryOk t := by
  unfold readLog at e
  obtain ⟨⟨ws, u⟩, hp, rfl⟩ := Option.map_eq_some_iff.mp e
  have hu : MemoryOk u := memoryOk_of_mem h (mem_of_packetOf hp)
  dsimp only
  split
  · exact memoryOk_of_mem hu (mem_packetDone ..)
  · have shorter : MemoryOk { u with log := u.log.drop (pw ws 2) } := hu
    exact memoryOk_of_mem (memoryOk_writeHost shorter) (mem_packetDone ..)

theorem memoryOk_attest (h : MemoryOk s) (e : attest s = some t) : MemoryOk t := by
  unfold attest at e
  obtain ⟨⟨ws, u⟩, hp, rfl⟩ := Option.map_eq_some_iff.mp e
  have hu : MemoryOk u := memoryOk_of_mem h (mem_of_packetOf hp)
  dsimp only
  split
  · exact memoryOk_of_mem hu (mem_packetDone ..)
  · exact memoryOk_of_mem (memoryOk_writeHost hu) (mem_packetDone ..)

theorem memoryOk_saveWord {n va : Nat} (h : MemoryOk s) (e : saveWord n va s = some t) : MemoryOk t := by
  unfold saveWord at e
  split at e
  · cases e
    exact h
  · split at e
    · cases e
    · cases e
      exact h
    · cases e
      exact memoryOk_writeHome (memoryOk_of_mem h rfl)

theorem memoryOk_moveOut {n c : Nat} (h : MemoryOk s) (e : moveOut n s c = some t) : MemoryOk t :=
  memoryOk_foldl_bind (f := fun s va => saveWord n va s) (fun _ => memoryOk_saveWord) _ (memoryOk_of_mem h (mem_takeOut ..)) e

theorem memoryOk_preEmpt (h : MemoryOk s) (e : preEmpt s = some t) : MemoryOk t := by
  unfold preEmpt at e
  split at e
  · cases e
  · next ws u hp =>
    have hu : MemoryOk u := memoryOk_of_mem h (mem_of_packetOf hp)
    dsimp only at e
    split at e
    · cases e
      exact memoryOk_of_mem hu (mem_packetDone ..)
    · split at e
      · cases e
        exact memoryOk_of_mem hu (mem_packetDone ..)
      · split at e
        · cases e
        · obtain ⟨v, hv, rfl⟩ := Option.map_eq_some_iff.mp e
          have moved : MemoryOk v := memoryOk_foldl_bind (fun _ => memoryOk_moveOut) _ (memoryOk_of_mem hu (setCtx_mem ..)) hv
          refine memoryOk_of_mem (memoryOk_foldl (fun w p hw => ?_) _ moved) (mem_checkPreempt ..)
          split
          · exact hw
          · exact hw

/-! ## Every step -/

/-- Every step that the table of steps names keeps the canonical form: it leaves memory alone, or it is one of the writers. -/
theorem memoryOk_exec (h : MemoryOk s) (i : Instr) : MemoryOk (stateAfter s (exec i s)) := by
  cases e : writesMemory i with
  | false => exact memoryOk_of_mem h (mem_exec e s)
  | true =>
    cases i with
    | powerOn =>
      show MemoryOk (if s.power then s else cold s)
      split
      · exact h
      · exact memoryOk_cold h
    | powerOff =>
      refine memoryOk_event h fun t et => ?_
      cases et
      exact memoryOk_cold h
    | bankRequest => exact memoryOk_event h fun t => memoryOk_serveOne h
    | homeAccess => exact memoryOk_event h fun t => memoryOk_homeAccess h
    | windowAccessService => exact memoryOk_event h fun t => memoryOk_windowService h
    | frameCopyComplete => exact memoryOk_event h fun t => memoryOk_frameCopied h
    | forwardingCommit => exact memoryOk_event h fun t => memoryOk_forwardingCommit h
    | millRowRead tl =>
      refine memoryOk_event (f := fun s => (millRow tl s).map (servedReads tl)) h fun t et => ?_
      obtain ⟨u, hu, rfl⟩ := Option.map_eq_some_iff.mp et
      exact memoryOk_of_mem (memoryOk_millRow h hu) (mem_servedReads ..)
    | hostRecordPost => exact memoryOk_event h fun t => memoryOk_recordPost h
    | preEmptContext => exact memoryOk_event h fun t => memoryOk_preEmpt h
    | readLog => exact memoryOk_event h fun t => memoryOk_readLog h
    | attest => exact memoryOk_event h fun t => memoryOk_attest h
    | _ => cases e

theorem memoryOk_runTurn {tid : Nat} (h : MemoryOk s) (e : runTurn tid s = .next t) : MemoryOk t := by
  have run := memoryOk_exec (s := atTurn (fetch s (tileOf tid) (thr s tid).pc).2 tid (fetch s (tileOf tid) (thr s tid).pc).1)
    (memoryOk_of_mem h (mem_fetch ..)) (instOf (fetch s (tileOf tid) (thr s tid).pc).1)
  unfold runTurn at e
  dsimp only at e
  rwa [e] at run

theorem memoryOk_issueTurn {tid : Nat} (h : MemoryOk s) (e : issueTurn tid s = .next t) : MemoryOk t := by
  have ticked : MemoryOk (tick s (cmptOf tid) (issueCycle s tid)) := memoryOk_of_mem h (mem_tick ..)
  have trapped := memoryOk_of_mem ticked (mem_trapEntry tid _)
  unfold issueTurn at e
  split at e
  · cases e
  · split at e
    · cases e
      exact h
    · dsimp only at e
      split at e
      · exact memoryOk_runTurn ticked e
      · split at e
        · cases e
          exact trapped
        · split at e
          · cases e
            exact trapped
          · split at e
            · next u hu =>
              cases e
              split
              · exact trapped
              · exact memoryOk_runTurn ticked hu
            · next he => exact absurd e (he t)

theorem memoryOk_act {c : Choice} (h : MemoryOk s) (e : act c s = .next t) : MemoryOk t := by
  have after : ∀ {f : State → Option State}, event f s = .next t → (∀ u, f s = some u → MemoryOk u) → MemoryOk t := by
    intro f ef hf
    have ok := memoryOk_event h hf
    rwa [ef] at ok
  have kept : ∀ {f : State → Option State}, ((f s).getD s).mem = s.mem → event f s = .next t → MemoryOk t :=
    fun hf ef => after ef fun u eu => memoryOk_of_mem h (mem_of_some hf eu)
  cases c with
  | issue tid => exact memoryOk_issueTurn h e
  | event i =>
    have ok := memoryOk_exec h i
    rwa [show exec i s = .next t from e] at ok
  | firmware c => exact kept (mem_getD_reflect ..) e
  | mapOutCore c => exact kept (f := fun s => some (mapOutCore s c)) (mem_mapOutCore ..) e
  | mapOutTile tl => exact kept (f := fun s => some (mapOutTile s tl)) (mem_mapOutTile ..) e
  | degrade tl => exact kept (mem_degradeTile ..) e
  | restart tid => exact kept (mem_restartPair ..) e
  | systemLaunch c header => exact kept (mem_systemLaunch ..) e
  | upset pa chk lasting => exact kept (f := fun s => some (upset s pa chk lasting)) (mem_upset ..) e
  | hostWrite pa bs => exact after e fun u => memoryOk_hostWrite h
  | scalerRead k i pa => exact after e fun u => memoryOk_scalerRead h

/-- Settles O5: a step carries out one choice, and a choice changes memory only through the writes of `writesMemory`'s steps, of
the host and of the firmware, which keep the ascending order of keys and leave no byte 0 in the list. -/
theorem stepKeepsMemory : Obligations.StepKeepsMemory := by
  unfold Obligations.StepKeepsMemory
  intro s t h e
  unfold step at e
  split at e
  · next c rest _ => exact memoryOk_act (s := { s with agenda := rest }) h e
  · split at e
    · exact memoryOk_act h e
    · split at e
      · cases e
        exact h
      · cases e

end Sys2Proof.Machine
end

section
/-! SUPPORT. The homes of plain memory (R4, R60, R61, R68): the words of an access, what a write leaves at its home and what a read
gives back, and one service of a request. -/

namespace Sys2Proof.Machine

variable {s : State}

/-! ## The words of an access (R60) -/

/-- A word of an access lies within one aligned word, and within the bytes of the access. -/
theorem within_of_mem_wordsOf {p : Piece} (hl : 0 < p.len) {x : Nat × Nat × Nat} (h : x ∈ wordsOf p) :
    x.1 / 8 = (x.1 + x.2.1 - 1) / 8 ∧ 0 < x.2.1 ∧ x.2.2 = p.off + (x.1 - p.pa) ∧ p.pa ≤ x.1 ∧ x.1 + x.2.1 ≤ p.pa + p.len := by
  simp only [wordsOf, List.mem_map, List.mem_range] at h
  obtain ⟨i, hi, rfl⟩ := h
  dsimp only
  omega

/-- The words of an access cover its bytes: byte `a` is in that of its own aligned word. -/
theorem exists_mem_wordsOf {p : Piece} {a : Nat} (hlo : p.pa ≤ a) (hhi : a < p.pa + p.len) :
    ∃ x ∈ wordsOf p, x.1 ≤ a ∧ a < x.1 + x.2.1 := by
  simp only [wordsOf, List.mem_map, List.mem_range]
  refine ⟨_, ⟨a / 8 - p.pa / 8, by omega, rfl⟩, ?_⟩
  dsimp only
  omega

/-! ## Writes and reads at a plain home (R4) -/

/-- Whether a home is plain memory: no register or mill window of the own package. -/
def PlainHome (s : State) (pkg pa : Nat) : Prop := pkg ≠ s.pkg ∨ ∀ t o, placeOf pa ≠ .regs t o ∧ placeOf pa ≠ .mill t o

/-- What may still be fetched is kept in the rows of tiles alone (R127). -/
theorem keepFetched_eq (s : State) (pkg pa n : Nat) : ∃ x, keepFetched s pkg pa n = { s with tiles := x } := by
  have words (t : Nat) (ws : List Nat) : ∀ s : State, ∃ x, ws.foldl (keepWord t) s = { s with tiles := x } := by
    induction ws with
    | nil => exact fun s => ⟨s.tiles, rfl⟩
    | cons w ws ih =>
      intro s
      obtain ⟨x, hx⟩ := ih (keepWord t s w)
      exact ⟨x, hx⟩
  unfold keepFetched
  split
  · split
    · exact words ..
    · exact ⟨s.tiles, rfl⟩
  · exact ⟨s.tiles, rfl⟩

/-- A write at a plain home of a package without flaws sets the bytes, and nothing else but what may still be fetched. -/
theorem writeHome_plain {pkg pa : Nat} (hf : s.flaws = []) (hp : PlainHome s pkg pa) (n v : Nat) :
    ∃ x, writeHome s pkg pa n v = { s with tiles := x, mem := setBytes s.mem (keyOf pkg pa) n v } := by
  unfold writeHome
  split
  · next own =>
    split
    · next t o e => exact absurd e (hp.resolve_left (not_not_intro own) t o).1
    · next t o e => exact absurd e (hp.resolve_left (not_not_intro own) t o).2
    · obtain ⟨x, hx⟩ := keepFetched_eq s pkg pa n
      exact ⟨x, by simp [hx, hf]⟩
    · exact ⟨s.tiles, by simp [hf]⟩
  · exact ⟨s.tiles, by simp [hf]⟩

theorem readHome_plain {pkg pa : Nat} (hf : s.flaws = []) (hp : PlainHome s pkg pa) (n : Nat) :
    readHome s pkg pa n = some (bytesAt s.mem (keyOf pkg pa) n) := by
  unfold readHome
  split
  · next own =>
    split
    · next t o e => exact absurd e (hp.resolve_left (not_not_intro own) t o).1
    · next t o e => exact absurd e (hp.resolve_left (not_not_intro own) t o).2
    · simp [hf]
  · rfl

theorem two_pow_bytes (n : Nat) : 256 ^ n = 2 ^ (8 * n) := by rw [Nat.pow_mul]

/-- The number that `n` bytes hold has `n` bytes. -/
theorem bytesAt_mod (m : List Host.Cell) (a n : Nat) : bytesAt m a n % 2 ^ (8 * n) = bytesAt m a n := by
  rw [← two_pow_bytes]
  refine Nat.mod_eq_of_lt ?_
  induction n generalizing a with
  | zero => simp [bytesAt]
  | succ n ih =>
    have := ih (a + 1)
    have := (byteAt m a).isLt
    simp only [bytesAt, Nat.pow_succ]
    omega

/-! ## One service at a plain home (R68) -/

/-- In `t` the bytes at a home of `s` hold a value, every other byte is as it was, and so are the requests and accesses. -/
structure Served (s t : State) (key len value : Nat) : Prop where
  here : bytesAt t.mem key len = value
  there : ∀ x, (x < key ∨ key + len ≤ x) → byteAt t.mem x = byteAt s.mem x
  reqs : t.reqs = s.reqs
  accs : t.accs = s.accs

theorem Served.refl (s : State) (key len : Nat) : Served s s key len (bytesAt s.mem key len) := ⟨rfl, fun _ _ => rfl, rfl, rfl⟩

theorem served_writeHome {pkg pa : Nat} (hm : MemoryOk s) (hf : s.flaws = []) (hp : PlainHome s pkg pa) (n v : Nat) :
    Served s (writeHome s pkg pa n v) (keyOf pkg pa) n (v % 2 ^ (8 * n)) := by
  obtain ⟨x, hx⟩ := writeHome_plain hf hp n v
  rw [hx]
  refine ⟨?_, fun a ha => byteAt_setBytes_out s.mem v ha, rfl, rfl⟩
  rw [← two_pow_bytes]
  exact bytesAt_setBytes hm ..

/-- A block given back to its pool is no change of memory, requests or accesses. -/
theorem Served.giveBlock {s t : State} {key len value : Nat} (h : Served s t key len value) (l : Option Nat) (pkg pa : Nat)
    (node : Bool) : Served s (giveBlock t l pkg pa node) key len value := by
  unfold Machine.giveBlock
  split
  · split
    · exact h
    · exact ⟨h.here, h.there, h.reqs, h.accs⟩
  · exact h

/-- What an operation leaves at its home where `old` stood. -/
def valueLeft (op : ReqOp) (len old : Nat) : Nat :=
  match op with
  | .read => old
  | .write v => v % 2 ^ (8 * len)
  | .amo op b => amoNew op len old b % 2 ^ (8 * len)
  | .cas e b => if old = e then b % 2 ^ (8 * len) else old
  | .free => if old / 2 ^ 56 % 256 = 0 then old else 0
  | .count up => (counted up old).getD old % 2 ^ (8 * len)
  | .inject v _ => v % 2 ^ (8 * len)

theorem served_applyOp {r : Req} {pkg pa : Nat} (hm : MemoryOk s) (hf : s.flaws = []) (hp : PlainHome s pkg pa) (l : Option Nat) :
    Served s (applyOp s l r pkg pa (bytesAt s.mem (keyOf pkg pa) r.len)) (keyOf pkg pa) r.len
      (valueLeft r.op r.len (bytesAt s.mem (keyOf pkg pa) r.len)) := by
  have write := served_writeHome hm hf hp r.len
  have same := Served.refl s (keyOf pkg pa) r.len
  unfold applyOp valueLeft
  cases r.op with
  | read => exact same
  | write v => exact write v
  | amo op b => exact write _
  | cas e b =>
    by_cases h : bytesAt s.mem (keyOf pkg pa) r.len = e
    · simpa [h] using write b
    · simpa [h] using same
  | free =>
    dsimp only
    rw [show bits (bytesAt s.mem (keyOf pkg pa) r.len) 63 56 = bytesAt s.mem (keyOf pkg pa) r.len / 2 ^ 56 % 256 from rfl]
    split
    · exact same
    · exact (Nat.zero_mod _ ▸ write 0).giveBlock ..
  | count up =>
    cases h : counted up (bytesAt s.mem (keyOf pkg pa) r.len) with
    | none => simpa [h, bytesAt_mod] using same
    | some v => simpa [h] using write v
  | inject v chk => exact ⟨(write v).here, (write v).there, (write v).reqs, (write v).accs⟩

/-- The check byte that an injection leaves with its word (R419). -/
theorem look_flaws_applyOp {r : Req} {v : Nat} {chk : Byte} (h : r.op = .inject v chk) (l : Option Nat) (pkg pa old : Nat) :
    look (applyOp s l r pkg pa old).flaws (keyOf pkg pa) = some { chk := chk } := by
  unfold applyOp
  rw [h]
  exact look_put ..

/-! Without flaws no read or write has an error to log, and no word is unreadable (R61). -/

theorem noteErrors_of_flawless (hf : s.flaws = []) (pkg pa n : Nat) : noteErrors s pkg pa n = s := by simp [noteErrors, hf]

theorem noteWrite_of_flawless (hf : s.flaws = []) (pkg pa n : Nat) : noteWrite s pkg pa n = s := by
  simp [noteWrite, noteErrors_of_flawless hf]

theorem unreadableFor_of_flawless (hf : s.flaws = []) (pkg pa n : Nat) : unreadableFor s pkg pa n = none := by
  simp [unreadableFor, hf]

theorem replyIfDone_of_local {r : Req} (h : r.remote = false) (s : State) : replyIfDone s r = s := by simp [replyIfDone, h]

/-- The state in which a request is performed: it waits no longer. -/
def reqTaken (s : State) (n : Nat) : State := { s with reqs := del s.reqs n }

/-- A request performed at a plain home: its operation on the bytes that stood there, and its access a request further. -/
theorem perform_plain {n : Nat} {r : Req} {a : Access} {pkg pa : Nat} (hm : MemoryOk s) (hf : s.flaws = [])
    (hp : PlainHome s pkg pa) (ha : look s.accs r.acc = some a) (hr : r.remote = false) (done : Nat) :
    let old := bytesAt s.mem (keyOf pkg pa) r.len
    let t := applyOp (reqTaken s n) a.launch r pkg pa old
    ∃ b, perform s n r pkg pa done = { t with accs := put t.accs r.acc b } ∧ b.left = a.left - 1 ∧ b.dests = a.dests
      ∧ b.done = max a.done done ∧ b.val = if r.op.stores then a.val else a.val + old * 2 ^ (8 * r.off) := by
  intro old t
  have hf' : (reqTaken s n).flaws = [] := hf
  have hread : readHome (reqTaken s n) pkg pa r.len = some old := readHome_plain hf' hp r.len
  have hbad : (if r.op.stores then (unreadableFor (reqTaken s n) pkg pa r.len).isSome else (some old).isNone) = false := by
    rw [unreadableFor_of_flawless hf']
    split <;> rfl
  have hnote : (if r.op.stores then noteWrite (reqTaken s n) pkg pa r.len else noteErrors (reqTaken s n) pkg pa r.len)
      = reqTaken s n := by
    rw [noteWrite_of_flawless hf', noteErrors_of_flawless hf', ite_self]
  have hacc : look (reqTaken s n).accs r.acc = some a := ha
  have hacc' : look t.accs r.acc = some a :=
    (congrArg (look · r.acc) (served_applyOp (s := reqTaken s n) (r := r) hm hf' hp a.launch).accs).trans ha
  unfold perform
  dsimp only
  rw [← reqTaken, hread, hbad, hnote, hacc, Option.bind_some, Option.getD_some, if_neg Bool.false_ne_true, hacc']
  dsimp only
  rw [replyIfDone_of_local hr]
  exact ⟨_, rfl, rfl, rfl, rfl, rfl⟩

/-- Settles O16: the words of an access by arithmetic on its bounds; at a plain home a write is `setBytes` (`writeHome_plain`), and one
service is its operation on the bytes that stood there (`perform_plain`, `served_applyOp`). -/
theorem serviceAtHomes : Obligations.ServiceAtHomes := by
  unfold Obligations.ServiceAtHomes
  refine ⟨fun s pkg pa n v hm hf hp => ?_, ⟨fun p hl => ⟨fun x => within_of_mem_wordsOf hl, fun a => exists_mem_wordsOf⟩,
    fun s q ps => asks_mem q ps⟩, fun s n r a pa done hm hf ha hr own hp => ?_⟩
  · have written := served_writeHome hm hf hp n v
    refine ⟨?_, memoryOk_writeHome hm, written.there⟩
    have home : (writeHome s pkg pa n v).flaws = [] ∧ PlainHome (writeHome s pkg pa n v) pkg pa := by
      obtain ⟨x, hx⟩ := writeHome_plain hf hp n v
      rw [hx]
      exact ⟨hf, hp⟩
    rw [readHome_plain home.1 home.2, written.here]
  · have service := served_applyOp (s := reqTaken s n) (r := r) (pkg := r.pkg) hm hf (.inr hp) a.launch
    intro old new t
    obtain ⟨b, ht, hleft, hdests, hdone, hval⟩ := perform_plain (n := n) hm hf (.inr hp) ha hr done
    rw [show t = _ from ht]
    refine ⟨service.here, service.there, congrArg (look · n) service.reqs, b, look_put .., hleft, hdests, hdone, ?_, ?_⟩
    · rw [hval]
      cases r.op <;> rfl
    · exact fun v c e => look_flaws_applyOp e ..

end Sys2Proof.Machine
end

section
/-! SUPPORT. Streams (R319-R322) and the words of a core's own store (R21): what a change of one stream leaves and reads as, the
fields of a descriptor and of the status word, and what the first access to the own store and the value it has given come to. -/

namespace Sys2Proof.Machine

variable {s : State} {j : Nat}

/-! ## A stream of a thread -/

@[simp] theorem stream_setStream (t : Thread) (j : Nat) (q : Stream) : stream (setStream t j q) j = q := lookD_put ..

@[simp] theorem qb_setStream (t : Thread) (j : Nat) (q : Stream) : (setStream t j q).qb = t.qb := rfl

/-- What a stream reads ahead and where it stands does not depend on which streams are bound. -/
@[simp] theorem stream_with_qb (t : Thread) (b : BitVec 4) (j : Nat) : stream { t with qb := b } j = stream t j := rfl

/-- Unbinding drops what was read ahead and nothing else of the stream (R320). -/
@[simp] theorem stream_unbind (t : Thread) (j : Nat) : stream (unbind t j) j = { stream t j with ahead := [] } :=
  stream_setStream ..

/-- QB's bit for stream `j`, as the bind and the unbind shift it. -/
theorem getLsbD_one_shift {k : Nat} (hk : k < 4) : (1#4 <<< j).getLsbD k = decide (k = j) := by
  rw [← BitVec.twoPow_eq, BitVec.getLsbD_twoPow]
  grind

/-- The bits of QB after a stream is bound (R320). -/
theorem getLsbD_or_shift (b : BitVec 4) {k : Nat} (hk : k < 4) :
    (b ||| 1#4 <<< j).getLsbD k = (decide (k = j) || b.getLsbD k) := by
  rw [BitVec.getLsbD_or, getLsbD_one_shift hk, Bool.or_comm]

/-- The bits of QB after a stream is unbound (R320). -/
theorem getLsbD_qb_unbind (t : Thread) {k : Nat} (hk : k < 4) :
    (unbind t j).qb.getLsbD k = (!decide (k = j) && t.qb.getLsbD k) := by
  rw [unbind, qb_setStream, BitVec.getLsbD_and, BitVec.getLsbD_not, getLsbD_one_shift hk, decide_eq_true hk, Bool.true_and,
    Bool.and_comm]

/-- The field of an instruction that names stream `j` (R320). -/
theorem streamNo_eq {q : Reg} (h : q.toNat = 20 + j) : streamNo q = j := by
  rw [streamNo, h, Nat.add_sub_cancel_left]

/-! ## Fields of words -/

/-- A field of a word as a number. -/
theorem toNat_field (w : Word) (l n : Nat) : (w.extractLsb' l n).toNat = w.toNat / 2 ^ l % 2 ^ n := by
  rw [BitVec.extractLsb'_toNat, Nat.shiftRight_eq_div_pow]

theorem bits_toNat (w : Word) (h l : Nat) : bits w.toNat h l = (w.extractLsb' l (h + 1 - l)).toNat :=
  (toNat_field ..).symm

theorem bit_toNat (w : Word) (n : Nat) : bit w.toNat n = w.getLsbD n := by
  rw [bit, BitVec.getLsbD, Nat.testBit_eq_decide_div_mod_eq]
  rfl

/-- A flag stands at bit `n` of a word. -/
theorem getLsbD_of_toNat {w : Word} {n : Nat} {b : Bool} (h : w.toNat / 2 ^ n % 2 = b.toNat) : w.getLsbD n = b := by
  rw [← bit_toNat, bit, h]
  cases b <;> rfl

theorem bitAt_eq (b : Bool) (n : Nat) : bitAt b n = b.toNat * 2 ^ n := by
  cases b <;> simp [bitAt]

/-- The two's-complement value of a field (R6). -/
theorem signedOf_toNat {w : Nat} (x : BitVec w) : signedOf x.toNat w = x.toInt := by
  rw [signedOf, BitVec.toInt_eq_toNat_cond, Nat.mod_eq_of_lt x.isLt]
  norm_cast

/-! ## The descriptor (R319) -/

/-- Whether a descriptor has a reserved bit set or a reserved combination of fields (R319). -/
def DescriptorReserved (w0 w1 : Word) : Prop :=
  w0.extractLsb' 52 8 ≠ 0 ∨ w1.extractLsb' 48 16 ≠ 0
    ∨ (w0.getLsbD 60 = true ∧ (w0.getLsbD 63 = true ∨ (w0.extractLsb' 61 2).toNat = 3))

/-- The check of `readDescriptor` is for what is reserved. -/
theorem descriptorCheck_iff (w0 w1 : Word) :
    (bits w0.toNat 59 52 != 0 || bits w1.toNat 63 48 != 0
      || (bit w0.toNat 60 && (bit w0.toNat 63 || bits w0.toNat 62 61 == 3))) = true ↔ DescriptorReserved w0 w1 := by
  simp only [bits_toNat, bit_toNat, Bool.or_eq_true, Bool.and_eq_true, bne_iff_ne, beq_iff_eq, DescriptorReserved, ne_eq, or_assoc,
    ← BitVec.toNat_inj (n := 8), ← BitVec.toNat_inj (n := 16)]
  rfl

theorem readDescriptor_of_reserved {w0 w1 : Word} (w2 w3 : Word) (h : DescriptorReserved w0 w1) :
    readDescriptor w0.toNat w1.toNat w2.toNat w3.toNat = none := by
  rw [readDescriptor, if_pos ((descriptorCheck_iff w0 w1).2 h)]

theorem readDescriptor_of_not_reserved {w0 w1 : Word} (w2 w3 : Word) (h : ¬ DescriptorReserved w0 w1) :
    readDescriptor w0.toNat w1.toNat w2.toNat w3.toNat =
      some { write := w0.getLsbD 63, esz := (w0.extractLsb' 61 2).toNat, zeroExt := w0.getLsbD 60
             base := (w0.extractLsb' 0 52).toNat, e0 := (w1.extractLsb' 0 16).toNat, e1 := (w1.extractLsb' 16 16).toNat
             e2 := (w1.extractLsb' 32 16).toNat, s1 := (w2.extractLsb' 0 32).toInt, s2 := (w2.extractLsb' 32 32).toInt
             fill := w3 } := by
  rw [readDescriptor, if_neg fun e => h ((descriptorCheck_iff w0 w1).1 e)]
  simp only [bits_toNat, bit_toNat, signedOf_toNat, BitVec.ofNat_toNat, BitVec.setWidth_eq]

/-! ## The status word (R320) -/

/-- What `sq.stat` reads: the position, the elements that have been read ahead, and the four flags (R320). -/
theorem streamStatus_fields {tid : Nat} (hm : (stream (thr s tid) j).ahead.length ≤ 16)
    (hp : (stream (thr s tid) j).pos < 2 ^ 32) :
    ((streamStatus s tid j).extractLsb' 0 32).toNat = (stream (thr s tid) j).pos
    ∧ ((streamStatus s tid j).extractLsb' 32 5).toNat = ((stream (thr s tid) j).ahead.filter Ahead.isRead).length
    ∧ (streamStatus s tid j).getLsbD 44 = unacked s tid j ∧ (streamStatus s tid j).getLsbD 45 = (stream (thr s tid) j).ovr
    ∧ (streamStatus s tid j).getLsbD 46 = (stream (thr s tid) j).write
    ∧ (streamStatus s tid j).getLsbD 47 = (thr s tid).qb.getLsbD j ∧ (streamStatus s tid j).extractLsb' 48 16 = 0 := by
  have read : ((stream (thr s tid) j).ahead.filter Ahead.isRead).length ≤ 16 := (List.length_filter_le ..).trans hm
  have := (unacked s tid j).toNat_le
  have := (stream (thr s tid) j).ovr.toNat_le
  have := (stream (thr s tid) j).write.toNat_le
  have := ((thr s tid).qb.getLsbD j).toNat_le
  have sum : (streamStatus s tid j).toNat = (stream (thr s tid) j).pos
      + 2 ^ 32 * ((stream (thr s tid) j).ahead.filter Ahead.isRead).length
      + 2 ^ 44 * ((unacked s tid j).toNat + 2 * (stream (thr s tid) j).ovr.toNat + 4 * (stream (thr s tid) j).write.toNat
        + 8 * ((thr s tid).qb.getLsbD j).toNat) := by
    simp only [streamStatus, natWord, bitAt_eq, BitVec.toNat_ofNat]
    omega
  refine ⟨?_, ?_, getLsbD_of_toNat ?_, getLsbD_of_toNat ?_, getLsbD_of_toNat ?_, getLsbD_of_toNat ?_,
    BitVec.eq_of_toNat_eq ?_⟩
  · rw [toNat_field, sum]
    omega
  · rw [toNat_field, sum]
    omega
  · omega
  · omega
  · omega
  · omega
  · rw [toNat_field, sum, show (0 : BitVec 16).toNat = 0 from rfl]
    omega

/-! ## The words of the own store (R21, log 45) -/

theorem pc_aheadAfter (s : State) (tid : Nat) (q : Ask) (ps : List Piece) : (aheadAfter s tid q ps).pc = (thr s tid).pc := by
  unfold aheadAfter touchAhead
  dsimp only
  split_ifs <;> rfl

/-- Entering an access moves no thread's PC. -/
theorem pc_addAccess (s : State) (tid : Nat) (q : Ask) (ps : List Piece) (posted : Bool) :
    (thr (addAccess s tid q ps posted).2 tid).pc = (thr s tid).pc := by
  rw [(addAccess_spec ..).1.thr_eq, touched]
  split
  · rw [thr_setThr, pc_aheadAfter]
    rfl
  · rfl

theorem touched_cores (s : State) (tid : Nat) (q : Ask) (ps : List Piece) : (touched s tid q ps).cores = s.cores := by
  unfold touched
  split <;> rfl

/-- An access knows for whom it is made. -/
theorem agent_addAccess {tid : Nat} {q : Ask} {ps : List Piece} {posted : Bool} {a : Access}
    (h : look (addAccess s tid q ps posted).2.accs (addAccess s tid q ps posted).1 = some a) : a.agent = q.agent := by
  unfold addAccess at h
  dsimp only at h
  rw [foldl_field State.accs _ (fun u p => accs_addReqs u _ tid q _ p), look_put, Option.some.injEq] at h
  rw [← h]

/-- In `u` the thread's instruction has made its access to `n` bytes at `va` of its own store, which has not replied. -/
structure OwnAsked (s u : State) (tid : Nat) (va : Word) (n : Nat) : Prop where
  mem : u.mem = s.mem
  cores : u.cores = s.cores
  cur : u.cur = s.cur
  pc : (thr u tid).pc = (thr s tid).pc
  asked : ∃ o a, (thr u tid).own = some o ∧ o.got = none ∧ look u.accs o.acc = some a ∧ a.lo = va.toNat ∧ a.size = n
    ∧ a.agent = .words

/-- An instruction that has made no access to its own store makes it, and waits. -/
theorem ownAccess_asks {tid : Nat} (h : (thr s tid).own = none) (va : Word) (n : Nat) (k : AccKind) (op : Nat → Nat → ReqOp)
    (ps : List Piece) (entry : Option LandEntry) (takes : Bool) :
    ∃ u, ownAccess s tid va n k op ps entry takes = .stop (.park .own) u ∧ OwnAsked s u tid va n := by
  unfold ownAccess
  rw [h]
  refine ⟨_, rfl, ?_⟩
  generalize hq : ({ kind := k, va := va, size := n, op := op, next := 0, agent := .words } : Ask) = q
  obtain ⟨kept, a, ha, -, -, -, hlo, hsize, -⟩ := addAccess_spec s tid q ps false
  have agent := agent_addAccess ha
  refine ⟨kept.mem.trans (touched_mem ..), kept.cores.trans (touched_cores ..), kept.cur.trans (touched_cur ..), ?_, ?_⟩
  · rw [thr_setThr]
    exact pc_addAccess ..
  · rw [thr_setThr]
    subst hq
    exact ⟨_, a, rfl, rfl, ha, hlo, hsize, agent⟩

/-- An instruction that has had the value of its access goes on with it. -/
theorem ownAccess_had {tid : Nat} {o : OwnAccess} {v : Nat} (h : (thr s tid).own = some o) (hv : o.got = some v) (va : Word)
    (n : Nat) (k : AccKind) (op : Nat → Nat → ReqOp) (ps : List Piece) (entry : Option LandEntry) (takes : Bool) :
    ownAccess s tid va n k op ps entry takes = .ok v s := by
  simp only [ownAccess, h, hv]

/-- The words of the own store, asked for. -/
theorem ownWords_asks {tid : Nat} {va : Word} {n : Nat} {outside : Cause} {ps : List Piece} (h : (thr s tid).own = none)
    (hps : ownStore s tid va (8 * n) .load outside = .ok ps s) :
    ∃ u, ownWords s tid va n outside = .stop (.park .own) u ∧ OwnAsked s u tid va (8 * n) := by
  obtain ⟨u, hu, asked⟩ := ownAccess_asks h va (8 * n) .load (fun _ _ => .read) ps none false
  refine ⟨u, ?_, asked⟩
  rw [ownWords, hps, Res.bind, hu, Res.bind]

/-- The words of the own store, had. -/
theorem ownWords_had {tid : Nat} {o : OwnAccess} {v : Nat} (h : (thr s tid).own = some o) (hv : o.got = some v) (va : Word)
    (n : Nat) (outside : Cause) : ownWords s tid va n outside = .ok (wordsOfNat v n) s := by
  rw [ownWords, ownStore, h, Option.isSome_some, if_pos rfl, Res.bind, ownAccess_had h hv, Res.bind]

/-- Under `Ready`, an instruction that makes its access to its own store and waits asks for the words (R21, R77). -/
theorem asks_of_issue {i : Instr} {f : Form} {body : List Word → State → Eff × State} {acc : Nat → Bool} {rs : List Reg}
    {k : AccKind} {va : Word} {n : Nat} {outside : Cause} (he : exec i s = issue f body s)
    (h : Ready s f.prv rs acc) (hs : f.effect = false ∧ f.load = false ∨ Single s)
    (hb : ∀ ps, (issuer s).own = none → ownStore (base s) s.cur va n k outside = .ok ps (base s) →
      ∃ u, body (operands s f) (base s) = (.park .own, u) ∧ OwnAsked (base s) u s.cur va n)
    (hacc : acc = f.accepts.getD fun _ => false := by rfl)
    (hr : ∀ r ∈ f.reads, r ∈ rs := by simp) (hw : ∀ r ∈ f.writes, r ∈ rs := by simp)
    (hm : ∀ r ∈ f.more (f.reads.map (reg s)), r ∈ rs := by simp) : Asks s i k va n outside := by
  intro ps fresh hps
  obtain ⟨u, hu, mem, cores, cur, pc, o, a, own, got, row, lo, size, agent⟩ := hb ps fresh hps
  have queue : queued u (issuer s) s.cur = queued (base s) (issuer s) s.cur := by simp only [queued, core, cores]
  have hcur : u.cur = s.cur := cur
  refine ⟨_, o, a, he.trans (issue_effect h hs hu (.inl (keepQueue_same queue)) hacc hr hw hm), mem, ?_, ?_, got, row, lo, size,
    agent, ?_⟩
  · simp only [finish, hcur, thr_setThr, pc, thr_base]
  · simp only [finish, hcur, thr_setThr, own]
  · simp only [finish, hcur, thr_setThr]
    exact ⟨_, rfl⟩

/-- The four words of a descriptor, as one access gives them. -/
theorem wordsOfNat_four (w0 w1 w2 w3 : Word) :
    wordsOfNat (w0.toNat + 2 ^ 64 * (w1.toNat + 2 ^ 64 * (w2.toNat + 2 ^ 64 * w3.toNat))) 4 = [w0, w1, w2, w3] := by
  have := w0.isLt
  have := w1.isLt
  have := w2.isLt
  have := w3.isLt
  simp only [wordsOfNat, List.range_succ, List.range_zero, List.nil_append, List.cons_append, List.map_cons, List.map_nil,
    List.cons.injEq, and_true, ← BitVec.toNat_inj, BitVec.toNat_ofNat]
  omega

/-! ## The stream instructions (R320) -/

variable {q a d : Reg} {i : BitVec 12}

theorem exec_sqBind (h : Ready s .u [a]) (hq : streamNo q = j) :
    exec (.sqBind q a) s =
      let x := stream (issuer s) j
      let t := setStream (issuer s) j { x with pos := min ((reg s a).toNat % 2 ^ 32) x.count, ovr := false, ahead := [] }
      .next (goes s s { t with qb := t.qb ||| 1#4 <<< j } (nextAt s 4)) := by
  subst hq
  refine (issue_done (f := { reads := [a] }) h (.inl ⟨rfl, rfl⟩) rfl ?_ ?_).trans ?_
  all_goals simp [operands, arg, cyc]

theorem exec_sqOff (h : Ready s .u []) (hq : streamNo q = j) :
    exec (.sqOff q) s = .next (goes s s (unbind (issuer s) j) (nextAt s 4)) := by
  subst hq
  refine (issue_done (f := {}) h (.inl ⟨rfl, rfl⟩) rfl ?_ ?_).trans ?_
  all_goals simp [cyc]

/-- A stream that waits for nothing: it is unbound or at its end, its pushes are acknowledged, or its next element is there. -/
def WaitsForNothing (s : State) (j : Nat) : Prop :=
  let x := stream (issuer s) j
  (issuer s).qb.getLsbD j = false ∨ x.pos = x.e0 * x.e1 * x.e2 ∨ (x.write = true ∧ unacked (base s) s.cur j = false)
    ∨ (x.write = false ∧ ∃ e r, x.ahead = e :: r ∧ ∀ m h so, e ≠ .wait m h so)

theorem exec_sqWait (h : Ready s .u []) (hq : streamNo q = j) (hj : WaitsForNothing s j) :
    exec (.sqWait q) s = .next (goes s s (issuer s) (nextAt s 4)) := by
  subst hq
  refine (issue_done (f := {}) (t := base s) h (.inl ⟨rfl, rfl⟩) ?_ rfl rfl).trans ?_
  · simp only [base_cur, thr_base]
    rcases hj with unbound | ended | ⟨write, acked⟩ | ⟨read, e, r, ahead, there⟩
    · simp [unbound]
    · simp [Stream.count, ended]
    · simp [write, acked]
    · cases e with
      | wait m home so => exact absurd rfl (there m home so)
      | val w home so => simp [read, ahead]
      | bad c va home inj => simp [read, ahead]
  · simp

theorem exec_sqStat (h : Ready s .u [d]) (hq : streamNo q = j) :
    exec (.sqStat d q) s = .next (writes s 4 d (streamStatus (base s) s.cur j)) := by
  subst hq
  have unbound : boundAt (thr (base s) s.cur) d = none := by simpa using h.unbound d (by simp)
  refine (issue_done (f := { writes := [d] }) h (.inl ⟨rfl, rfl⟩) rfl ?_ ?_).trans ?_
  all_goals simp [result_now unbound, writes, cyc]

/-- `sq.cfg` asks for its descriptor. -/
theorem asks_sqCfg (h : Ready s .u [a]) (aligned : (reg s a + i.signExtend 64).toNat % 32 = 0) :
    Asks s (.sqCfg q a i) .load (reg s a + i.signExtend 64) 32 .malformedStructure := by
  refine asks_of_issue (f := { reads := [a] }) rfl h (.inl ⟨rfl, rfl⟩) fun ps own hps => ?_
  obtain ⟨u, hu, asked⟩ := ownWords_asks (n := 4) (by rwa [thr_base]) hps
  exact ⟨u, by simp [operands, arg, imm12, aligned, hu, Res.run, -BitVec.toNat_add], asked⟩

/-- With its descriptor's words `sq.cfg` unbinds the stream and captures it; position and `ovr` stay until the bind. -/
theorem exec_sqCfg_had (h : Ready s .u [a]) (hq : streamNo q = j) (aligned : (reg s a + i.signExtend 64).toNat % 32 = 0)
    {w0 w1 w2 w3 : Word} {y : Stream}
    (had : Had s (w0.toNat + 2 ^ 64 * (w1.toNat + 2 ^ 64 * (w2.toNat + 2 ^ 64 * w3.toNat))))
    (hy : readDescriptor w0.toNat w1.toNat w2.toNat w3.toNat = some y) :
    exec (.sqCfg q a i) s =
      let x := stream (issuer s) j
      .next (goes s s (setStream (unbind (issuer s) j) j { y with pos := x.pos, ovr := x.ovr }) (nextAt s 4)) := by
  obtain ⟨o, own, got⟩ := had
  have words := ownWords_had (s := base s) (by rwa [thr_base]) got (reg s a + i.signExtend 64) 4 .malformedStructure
  rw [wordsOfNat_four] at words
  refine (issue_done (f := { reads := [a] })
    (t := setThr (base s) s.cur (setStream (unbind (issuer s) j) j
      { y with pos := (stream (issuer s) j).pos, ovr := (stream (issuer s) j).ovr })) h (.inl ⟨rfl, rfl⟩) ?_ rfl rfl).trans ?_
  · simp [operands, arg, imm12, aligned, words, Res.run, hy, hq, -BitVec.toNat_add]
  · simp

/-- Settles O18: each stream instruction by its equation above, QB bit by bit, the status word by its sum of fields
(`streamStatus_fields`), and a descriptor by what is reserved in it (`descriptorCheck_iff`). -/
theorem streams : Obligations.Streams := by
  unfold Obligations.Streams
  refine ⟨fun s q a d j hj hq h => ?_, fun w0 w1 w2 w3 => ?_⟩
  · have no := streamNo_eq hq
    have bare := h.mono (qs := []) (by simp)
    have source := h.mono (qs := [a]) (by simp)
    have dest := h.mono (qs := [d]) (by simp)
    refine ⟨⟨_, exec_sqBind source no, fun k => getLsbD_or_shift _, stream_setStream ..⟩,
      ⟨_, exec_sqOff bare no, fun k => getLsbD_qb_unbind _, stream_unbind ..⟩, exec_sqWait bare no,
      ⟨_, exec_sqStat dest no, fun hm hp => ?_⟩, fun i aligned => ⟨asks_sqCfg source aligned, fun w0 w1 w2 w3 y =>
        exec_sqCfg_had source no aligned⟩⟩
    simpa only [thr_base] using streamStatus_fields (s := base s) (tid := s.cur) (j := j) (by rwa [thr_base]) (by rwa [thr_base])
  · exact ⟨readDescriptor_of_reserved w2 w3, fun form high ext => readDescriptor_of_not_reserved w2 w3 fun r =>
      r.elim (· form) (·.elim (· high) ext)⟩

end Sys2Proof.Machine
end

section
/-! SUPPORT. The reply to an access of an instruction (R77, R308, R309): what it leaves in the thread that waits for it, whether
it brings a value, a refusal or the entries of a `dcb`. -/

namespace Sys2Proof.Machine

variable {s u : State} {n tid : Nat} {a : Access}

/-! ## Clocks -/

@[simp] theorem thr_tick (s : State) (c n t : Nat) : thr (tick s c n) t = thr s t := by
  unfold tick
  dsimp only
  split <;> rfl

@[simp] theorem tick_accs (s : State) (c n : Nat) : (tick s c n).accs = s.accs := by
  unfold tick
  dsimp only
  split <;> rfl

theorem cycOf_tick (s : State) (c n : Nat) : cycOf (tick s c n) c = max (cycOf s c) n := by
  unfold tick
  dsimp only
  split
  · next h => exact (max_eq_left h).symm
  · next h => exact (congrArg Cmpt.cyc (cmpt_setCmpt s c _)).trans (max_eq_right (Nat.le_of_not_le h)).symm

/-! ## The registers that an access writes -/

theorem boundAt_of_qb_zero {t : Thread} (h : t.qb = 0) (r : Reg) : boundAt t r = none := by simp [boundAt, h]

theorem putX_unbound {r : Reg} {v : Word} (h : boundAt (thr s tid) r = none) :
    putX s tid r v = setThr s tid (setX (thr s tid) r.toNat v) := by
  rw [putX, h]

/-- The thread whose registers the destinations `ds` have taken from the value `v` of an access (R309). -/
def withDests (v : Nat) (ds : List Dest) (t : Thread) : Thread :=
  ds.foldl (fun t d => setX t d.reg.toNat (destValue v d)) t

@[simp] theorem withDests_life (v : Nat) (ds : List Dest) (t : Thread) : (withDests v ds t).life = t.life := by
  induction ds generalizing t with
  | nil => rfl
  | cons d ds ih => exact (ih _).trans (setX_life ..)

@[simp] theorem withDests_doomed (v : Nat) (ds : List Dest) (t : Thread) : (withDests v ds t).doomed = t.doomed := by
  induction ds generalizing t with
  | nil => rfl
  | cons d ds ih => exact (ih _).trans (setX_doomed ..)

theorem getX_withDests_ne {v : Nat} {ds : List Dest} {r : Nat} (h : ∀ d ∈ ds, d.reg.toNat ≠ r) (t : Thread) :
    getX (withDests v ds t) r = getX t r := by
  induction ds generalizing t with
  | nil => rfl
  | cons d ds ih =>
    exact (ih (fun e he => h e (List.mem_cons_of_mem d he)) _).trans (getX_setX_ne _ _ (h d List.mem_cons_self))

/-- With no stream bound, the destinations are written one after the other, and nothing else. -/
theorem putX_dests (v : Nat) (ds : List Dest) (h : (thr s tid).qb = 0) :
    let t := ds.foldl (fun s d => putX s tid d.reg (destValue v d)) s
    thr t tid = withDests v ds (thr s tid) ∧ t.accs = s.accs := by
  induction ds generalizing s with
  | nil => exact ⟨rfl, rfl⟩
  | cons d ds ih =>
    obtain ⟨thread, accs⟩ := ih (s := setThr s tid (setX (thr s tid) d.reg.toNat (destValue v d))) (by simpa using h)
    simp only [List.foldl_cons, putX_unbound (boundAt_of_qb_zero h d.reg)]
    exact ⟨thread.trans (by rw [thr_setThr]; rfl), accs⟩

/-- Outside a pair, the destinations alone take the value. -/
theorem giveValues_dests (plain : a.lookup = none) (single : (thr s a.tid).lt = false) :
    giveValues s a = a.dests.foldl (fun s d => putX s a.tid d.reg (destValue a.val d)) s := by
  simp [giveValues, plain, single]

/-- Outside a pair, the sum of a `dcb` is a result that lands seven cycles after its last entry (R324, R341). -/
theorem giveValues_sum {x : Lookup} (dcb : a.lookup = some x) (single : (thr s a.tid).lt = false) :
    giveValues s a =
      result s a.tid x.reg (x.sum a.val).1 (a.done + 7 - cycOf s (cmptOf a.tid)) (x.sum a.val).2 true := by
  simp [giveValues, Access.written, dcb, single]

theorem mem_insPend (p : Pend) (l : List Pend) : p ∈ insPend p l := by
  induction l with
  | nil => exact List.mem_singleton_self p
  | cons q l ih =>
    unfold insPend
    split
    · exact List.mem_cons_self
    · exact List.mem_cons_of_mem q ih

/-! ## A thread that goes on after its access -/

theorem kept_countLost (s : State) (tid turn : Nat) (a : Access) : Kept s (countLost s tid turn a) := by
  unfold countLost
  split
  · exact kept_foldl _ (fun s _ => kept_scale s ..) _ s
  · exact .refl s

theorem accs_scale (s : State) (c e v : Nat) : (scale s c e v).accs = s.accs := by
  unfold scale
  dsimp only
  split <;> rfl

theorem accs_countLost (s : State) (tid turn : Nat) (a : Access) : (countLost s tid turn a).accs = s.accs := by
  unfold countLost
  split
  · exact foldl_field State.accs _ (fun s _ => accs_scale s ..) _ s
  · rfl

/-- The thread `t`, which has its values, in its first turn after access `a` (R77, R322). -/
def goneOn (a : Access) (t : Thread) : Thread :=
  let t := if a.acquire then discardAhead t else t
  { t with pc := a.next, park := none, turn := max t.turn (turnAfter (slotOf a.tid) a.written) }

@[simp] theorem goneOn_pc (t : Thread) : (goneOn a t).pc = a.next := rfl
@[simp] theorem goneOn_park (t : Thread) : (goneOn a t).park = none := rfl
@[simp] theorem goneOn_life (t : Thread) : (goneOn a t).life = t.life := by unfold goneOn; split <;> rfl
@[simp] theorem goneOn_doomed (t : Thread) : (goneOn a t).doomed = t.doomed := by unfold goneOn; split <;> rfl
@[simp] theorem goneOn_pend (t : Thread) : (goneOn a t).pend = t.pend := by unfold goneOn; split <;> rfl
@[simp] theorem getX_goneOn (t : Thread) (r : Nat) : getX (goneOn a t) r = getX t r := by unfold goneOn; split <;> rfl

/-- Its rotations are counted (R66), its values are given, and the thread goes on. -/
theorem completeAccess_eq (s : State) (a : Access) :
    completeAccess s a =
      let u := giveValues (countLost s a.tid (turnAfter (slotOf a.tid) a.written) a) a
      setThr u a.tid (goneOn a (thr u a.tid)) := rfl

/-- A thread without streams or partner goes on with the values of a plain access in its registers. -/
theorem completeAccess_dests (plain : a.lookup = none) (single : (thr s a.tid).lt = false) (bare : (thr s a.tid).qb = 0) :
    thr (completeAccess s a) a.tid = goneOn a (withDests a.val a.dests (thr s a.tid)) ∧ (completeAccess s a).accs = s.accs := by
  generalize hc : countLost s a.tid (turnAfter (slotOf a.tid) a.written) a = c
  have same : thr c a.tid = thr s a.tid := hc ▸ (kept_countLost ..).thr_eq a.tid
  have rows : c.accs = s.accs := hc ▸ accs_countLost ..
  obtain ⟨thread, accs⟩ := putX_dests a.val a.dests (same.symm ▸ bare)
  simp only [completeAccess_eq, hc, giveValues_dests plain (same.symm ▸ single), thr_setThr, setThr_accs]
  exact ⟨by rw [thread, same], accs.trans rows⟩

/-- It goes on after the entries of a `dcb` with the sum still to land. -/
theorem completeAccess_sum {x : Lookup} (dcb : a.lookup = some x) (single : (thr s a.tid).lt = false)
    (bare : (thr s a.tid).qb = 0) (now : cycOf s (cmptOf a.tid) = a.done + 1) :
    thr (completeAccess s a) a.tid = goneOn a { thr s a.tid with
      pend := insPend ⟨x.reg, (x.sum a.val).1, a.done + 7, (x.sum a.val).2, true, false⟩ (thr s a.tid).pend } := by
  generalize hc : countLost s a.tid (turnAfter (slotOf a.tid) a.written) a = c
  have same : thr c a.tid = thr s a.tid := hc ▸ (kept_countLost ..).thr_eq a.tid
  have clock : cycOf c (cmptOf a.tid) = a.done + 1 := hc ▸ ((kept_countLost ..).clock _).trans now
  have unbound : boundAt (thr c a.tid) x.reg = none := boundAt_of_qb_zero (same.symm ▸ bare) _
  rw [completeAccess_eq, hc, giveValues_sum dcb (same.symm ▸ single), clock, result_later unbound (by omega)]
  simp [clock, same]

/-! ## The reply that a thread waits for -/

/-- The reply to access `n` of an instruction is due, and its thread waits for it: it runs, is no half of a pair, and has no stream
bound. -/
structure Awaited (s : State) (n : Nat) (a : Access) : Prop where
  power : s.power = true
  row : look s.accs n = some a
  left : a.left = 0
  replies : a.replies = 0
  posted : a.posted = false
  agent : a.agent = .thread
  push : a.push = none
  sound : a.poisoned = false
  doomed : (thr s a.tid).doomed = false
  life : (thr s a.tid).life = .run
  park : (thr s a.tid).park = some (.reply n)
  single : (thr s a.tid).lt = false
  bare : (thr s a.tid).qb = 0

/-- The state in which the reply to access `a` arrives: the access is over, in the cycle after the value is there (R77). -/
def replying (s : State) (n : Nat) (a : Access) : State := tick { s with accs := del s.accs n } (cmptOf a.tid) (a.done + 1)

@[simp] theorem thr_replying (s : State) (n : Nat) (a : Access) (t : Nat) : thr (replying s n a) t = thr s t := thr_tick ..
@[simp] theorem replying_accs (s : State) (n : Nat) (a : Access) : (replying s n a).accs = del s.accs n := tick_accs ..

/-- The thread has the value at the end of the cycle in which it is there, unless that has passed. -/
theorem cycOf_replying (h : cycOf s (cmptOf a.tid) ≤ a.done + 1) : cycOf (replying s n a) (cmptOf a.tid) = a.done + 1 :=
  (cycOf_tick ..).trans (max_eq_right h)

theorem closeDoomed_of_not_doomed (h : (thr s tid).doomed = false) : closeDoomed s tid = s := by simp [closeDoomed, h]

theorem checkKilled_of_not_killed (h : (thr s tid).life ≠ .killed) : checkKilled s tid = s := by simp [checkKilled, h]

/-- What the reply makes of the thread is all it does where the thread is neither killed nor to be killed (R172, R225). -/
theorem exec_accessReply (h : Awaited s n a) (hu : threadReply (replying s n a) n a = u) (doomed : (thr u a.tid).doomed = false)
    (life : (thr u a.tid).life ≠ .killed) : exec (.accessReply n) s = .next u ∧ u.mem = s.mem := by
  have reply : accessReply n s = some u := by
    simp only [accessReply, h.row, h.left, h.replies, h.posted, h.agent]
    simp only [bne_self_eq_false, Bool.or_self, Bool.false_eq_true, if_false]
    rw [show threadReply (tick { s with accs := del s.accs n } (cmptOf a.tid) (a.done + 1)) n a = u from hu,
      closeDoomed_of_not_doomed doomed, checkKilled_of_not_killed life]
  have mem := mem_accessReply n s
  rw [reply] at mem
  refine ⟨?_, mem⟩
  change event (accessReply n) s = _
  rw [event, if_pos h.power, reply]
  rfl

/-- A value lets the thread go on. -/
theorem threadReply_value (h : Awaited s n a) (fresh : a.stale = false) :
    threadReply (replying s n a) n a = completeAccess (replying s n a) a := by
  simp [threadReply, afterPush, Access.failed, h.push, h.sound, h.life, h.park, fresh,
    pushes_unbound fun r _ => boundAt_of_qb_zero h.bare r]

/-- The state in which the refusal of access `a` is taken: what its instruction popped is put back (R310). -/
def refusing (s : State) (n : Nat) (a : Access) : State :=
  setThr (replying s n a) a.tid { thr s a.tid with streams := unread a.undo, injSeen := a.inj }

/-- A refusal is the stale-generation fault of the thread. -/
theorem threadReply_refusal (h : Awaited s n a) (stale : a.stale = true) :
    threadReply (replying s n a) n a = takeFault (refusing s n a) a.tid .staleGeneration a.tval (thr s a.tid).pc := by
  simp [threadReply, accessFault, Access.failed, refusing, h.push, h.sound, h.life, h.park, stale]

/-! ## A trap cause, taken or contained (R222, R223) -/

theorem takeFault_trapped {c : Cause} {v pc : Word} (trap : c.contains = false) (it : (thr s tid).it = false)
    (prv : (thr s tid).prv ≠ .f) : takeFault s tid c v pc = enterTrap s tid c v pc := by
  simp [takeFault, trap, it, prv]

theorem takeFault_nested {c : Cause} {v pc : Word} (trap : c.contains = false)
    (inside : (thr s tid).it = true ∨ (thr s tid).prv = .f) : takeFault s tid c v pc = contain s tid .doubleFault v pc := by
  rcases inside with h | h <;> simp [takeFault, trap, h]

/-- What entering the trap routine writes. -/
structure Trapped (t : Thread) (c : Cause) (tval tepc : Word) : Prop where
  tepc : t.tepc = tepc
  tca : t.tca = BitVec.ofNat 8 c.code
  tval : t.tval = tval
  it : t.it = true
  prv : t.prv = .s
  park : t.park = none

theorem trapped_enterTrap (s : State) (tid : Nat) (c : Cause) (v pc : Word) :
    Trapped (thr (enterTrap s tid c v pc) tid) c v pc := by
  rw [enterTrap, thr_setThr]
  exact ⟨rfl, rfl, rfl, rfl, rfl, rfl⟩

/-- A contained thread halts where it stands, with its registers (R224). -/
theorem thr_contain (s : State) (tid : Nat) (c : Cause) (v pc : Word) :
    thr (contain s tid c v pc) tid = { thr s tid with life := .contained, pc := pc, park := none, net := none, own := none, why := some c } := by
  rw [contain, thr_sendFault, thr_setThr]

/-- A fault writes no register and no flag, and neither kills the thread nor names it for it. -/
theorem takeFault_keeps (s : State) (tid : Nat) (c : Cause) (v pc : Word) :
    let t := thr (takeFault s tid c v pc) tid
    (∀ r, getX t r = getX (thr s tid) r) ∧ t.flags = (thr s tid).flags ∧ t.doomed = (thr s tid).doomed
      ∧ (t.life = (thr s tid).life ∨ t.life = .contained) := by
  rcases takeFault_cases s tid c v pc with h | ⟨d, h⟩
  · rw [h, enterTrap, thr_setThr]
    exact ⟨fun _ => rfl, rfl, rfl, .inl rfl⟩
  · rw [h, thr_contain]
    exact ⟨fun _ => rfl, rfl, rfl, .inr rfl⟩

/-! ## What a reply comes to -/

/-- The reply to an access that was refused: the fault of its thread. -/
theorem exec_accessReply_refused (h : Awaited s n a) (stale : a.stale = true) :
    let t := takeFault (refusing s n a) a.tid .staleGeneration a.tval (thr s a.tid).pc
    exec (.accessReply n) s = .next t ∧ t.mem = s.mem := by
  obtain ⟨-, -, doomed, life⟩ := takeFault_keeps (refusing s n a) a.tid .staleGeneration a.tval (thr s a.tid).pc
  refine exec_accessReply h (threadReply_refusal h stale) (doomed.trans ?_) ?_
  · rw [refusing, thr_setThr]
    exact h.doomed
  · rcases life with e | e
    · rw [e, refusing, thr_setThr]
      simp [h.life]
    · simp [e]

/-- The reply to an access that has a value: its thread goes on. -/
theorem exec_accessReply_value {t : Thread} (h : Awaited s n a) (fresh : a.stale = false)
    (ht : thr (completeAccess (replying s n a) a) a.tid = goneOn a t) (life : t.life = .run) (doomed : t.doomed = false) :
    exec (.accessReply n) s = .next (completeAccess (replying s n a) a)
      ∧ (completeAccess (replying s n a) a).mem = s.mem :=
  exec_accessReply h (threadReply_value h fresh) (by simp [ht, doomed]) (by simp [ht, life])

/-- Settles O17: the refusal is `takeFault`, trapped or nested in a handler; a value goes to the destinations (`withDests`), and
the sum of a `dcb` among the results still to land. -/
theorem repliesAndFences : Obligations.RepliesAndFences := by
  unfold Obligations.RepliesAndFences
  intro s n a power row left replies posted agent push sound doomed life park single bare
  have h : Awaited s n a := ⟨power, row, left, replies, posted, agent, push, sound, doomed, life, park, single, bare⟩
  refine ⟨fun stale => ?_, fun plain fresh => ?_, fun x dcb fresh late => ?_⟩
  · obtain ⟨step, mem⟩ := exec_accessReply_refused h stale
    obtain ⟨regs, flags, -, -⟩ := takeFault_keeps (refusing s n a) a.tid .staleGeneration a.tval (thr s a.tid).pc
    have thread : thr (refusing s n a) a.tid = { thr s a.tid with streams := unread a.undo, injSeen := a.inj } := by
      rw [refusing, thr_setThr]
    refine ⟨refusing s n a, _, step, mem, rfl, fun r => (regs r).trans (by rw [thread]; rfl), flags.trans (by rw [thread]),
      fun it prv => ?_, fun inside => ?_⟩
    · rw [takeFault_trapped rfl (by rwa [thread]) (by rwa [thread])]
      have t := trapped_enterTrap (refusing s n a) a.tid .staleGeneration a.tval (thr s a.tid).pc
      exact ⟨t.tepc, t.tca, t.tval, t.it, t.prv, t.park⟩
    · rw [takeFault_nested rfl (by rwa [thread]), thr_contain]
      exact ⟨rfl, rfl, rfl⟩
  · obtain ⟨thread, accs⟩ := completeAccess_dests (s := replying s n a) plain (by simpa using single) (by simpa using bare)
    rw [thr_replying] at thread
    obtain ⟨step, mem⟩ := exec_accessReply_value h fresh thread (by simpa using life) (by simpa using doomed)
    refine ⟨_, step, mem, by rw [accs, replying_accs], by rw [thread, goneOn_pc], by rw [thread, goneOn_park],
      fun d only hd => ?_, fun r other => ?_⟩
    · rw [thread, getX_goneOn, only]
      exact getX_setX _ _ fun e => hd (BitVec.eq_of_toNat_eq e)
    · rw [thread, getX_goneOn, getX_withDests_ne other]
  · have thread := completeAccess_sum (s := replying s n a) dcb (by simpa using single) (by simpa using bare) (cycOf_replying late)
    rw [thr_replying] at thread
    obtain ⟨step, mem⟩ := exec_accessReply_value h fresh thread life doomed
    refine ⟨_, step, mem, by rw [thread, goneOn_pc], by rw [thread, goneOn_park], ?_⟩
    rw [thread, goneOn_pend]
    exact ⟨_, mem_insPend _ _, rfl, rfl, rfl, rfl⟩

end Sys2Proof.Machine
end

section
/-! SUPPORT. `tscrub` of a thread that names itself (R417): the slot is cleared, and then the instruction's own result is written
into it. -/

namespace Sys2Proof.Machine

variable {s : State} {d a b : Reg}

theorem boundAt_scrub (t : Thread) (r : Reg) : boundAt (scrub t) r = none := boundAt_of_qb_zero rfl r

theorem overtake_scrub (t : Thread) (r : Reg) (c : Nat) : overtake (scrub t) r c = scrub t := rfl

/-- A thread that is neither running nor moving and scrubs itself goes on as the scrubbed slot with 0 in the destination. -/
theorem exec_tscrub_self (h : Ready s .f [a, b, d]) (single : Single s) (self : (reg s a).toNat = s.cur) (slot : s.cur < 2 ^ 18)
    (idle : (issuer s).life = .contained) :
    exec (.tscrub d a) s = .next (goes s s (setX (scrub (issuer s)) d.toNat 0) (nextAt s 4)) := by
  refine (issue_done (f := { reads := [a], writes := [d], prv := .f, effect := true })
    (t := setThr s s.cur (setX (scrub (issuer s)) d.toNat 0)) h (.inr single) ?_ rfl rfl).trans ?_
  · have small : s.cur < 262144 := slot
    have scrubbed : boundAt (thr (setThr s s.cur (scrub (issuer s))) s.cur) d = none := by
      rw [thr_setThr]
      exact boundAt_scrub ..
    simp [operands, arg, self, small, idle, result_now scrubbed, overtake_scrub]
  · simp

/-- A 0 written to a register of the window is a row of the window buffer like any other. -/
theorem win0_setX_scrub (t : Thread) {r : Nat} (h : 8 ≤ r) (v : Word) : (setX (scrub t) r v).win0 = [(r - 8, v)] := by
  have h0 : r ≠ 0 := by omega
  have h8 : ¬ r < 8 := by omega
  simp [setX, h0, h8, setCurWin, curWin, scrub, put]

/-- Refutes O49: its clause on `tscrub` has any slot that neither runs nor moves come out with empty window buffers (`win0 = []`),
also where that slot is the one that issues. Slot 0, contained at F, scrubs itself (x0 names it) with the result in x8: the buffers
are cleared first, and the result, a 0, then stands in one of them. Every register reads 0, as R417 has it, but the buffer lists a
row. No turn is given to such a slot; the clause leaves that out, as it does `n ≠ s.cur`. -/
theorem not_firmwareInstructions : ¬ Obligations.FirmwareInstructions := by
  unfold Obligations.FirmwareInstructions
  rintro ⟨threads, -⟩
  obtain ⟨s, hs⟩ : ∃ s : State, s = { State.reset with threads := [(0, { life := .contained, prv := .f })], cur := 0 } := ⟨_, rfl⟩
  have single : Single s := by subst hs; rfl
  have ready : Ready s .f [0, 0, 8] := by subst hs; exact ⟨rfl, rfl, nofun, .inr rfl, by decide⟩
  have self : (reg s 0).toNat = s.cur := by subst hs; rfl
  have slot : s.cur < 2 ^ 18 := by subst hs; decide
  have contained : (issuer s).life = .contained := by subst hs; rfl
  have named : (thr s (reg s 0).toNat).life = .contained := by rw [self]; exact (settle_life ..).symm.trans contained
  obtain ⟨inRange, -⟩ := threads s 8 0 0 single ready
  obtain ⟨-, -, -, scrubs, -⟩ := inRange (self ▸ slot)
  obtain ⟨t, step, -, -, empty, -⟩ := scrubs (by rw [named]; nofun) (by rw [named]; nofun)
  rw [exec_tscrub_self ready single self slot contained, Host.Outcome.next.injEq] at step
  rw [self, ← step, thr_goes] at empty
  have listed := win0_setX_scrub (issuer s) (r := (8 : Reg).toNat) (by decide) 0
  exact absurd (listed.symm.trans empty) (List.cons_ne_nil _ _)

end Sys2Proof.Machine
end

section
/-! SUPPORT. The mill's own steps (R345, R349, R358, R359, R364, R447): what each of them leaves in the queue, the accumulators, the
anchor words and the thread of the instruction it works on. -/

namespace Sys2Proof.Machine

variable {s : State} {tl : Nat} {x : Tile} {o : MillOp} {q : List MillOp}

/-! ## Parts of a step -/

/-- A step of another agent that is enabled gives its state. -/
theorem event_of_some {f : State → Option State} {t : State} (power : s.power = true) (h : f s = some t) : event f s = .next t := by
  simp [event, power, h]

/-- A step of the mill's pipes, after which the edges of reads that are over go (R99). -/
theorem exec_millRowRead {t : State} (power : s.power = true) (h : millRow tl s = some t) :
    exec (.millRowRead tl) s = .next (servedReads tl t) :=
  event_of_some (f := fun s => (millRow tl s).map (servedReads tl)) power (congrArg (Option.map (servedReads tl)) h)

theorem sameMemory_of_mem {t : State} (h : t.mem = s.mem) : SameMemory s t := fun a => congrArg (byteAt · a) h

@[simp] theorem tile_tick (s : State) (c n t : Nat) : tile (tick s c n) t = tile s t := by
  unfold tick
  dsimp only
  split <;> rfl

@[simp] theorem tile_completeEntry (s : State) (c : Nat) (p : Entry → Bool) (t : Nat) : tile (completeEntry s c p) t = tile s t := rfl

@[simp] theorem thr_completeEntry (s : State) (c : Nat) (p : Entry → Bool) (t : Nat) : thr (completeEntry s c p) t = thr s t := rfl

@[simp] theorem cycOf_completeEntry (s : State) (c : Nat) (p : Entry → Bool) : cycOf (completeEntry s c p) c = cycOf s c := by
  simp [completeEntry, cycOf]

/-- What the scheduler has forgotten is none of its entries (R99). -/
theorem entries_completeEntry (s : State) (o : MillOp) (c : Nat) :
    ∀ e ∈ (cmpt (completeEntry s c (isMill o)) c).entries, isMill o e = false := by
  simp only [completeEntry, cmpt_setCmpt, List.mem_map, List.mem_filter]
  rintro _ ⟨e, ⟨-, other⟩, rfl⟩
  simpa [isMill] using other

@[simp] theorem tile_servedReads (tl : Nat) (s : State) (t : Nat) : tile (servedReads tl s) t = tile s t := by
  unfold servedReads
  split
  · rfl
  · dsimp only
    split_ifs <;> rfl

@[simp] theorem accs_servedReads (tl : Nat) (s : State) : (servedReads tl s).accs = s.accs := by
  unfold servedReads
  split
  · rfl
  · dsimp only
    split_ifs <;> rfl

@[simp] theorem tile_setHead (s : State) (tl : Nat) (x : Tile) (o : MillOp) :
    tile (setHead s tl x o) tl = { x with millQ := o :: x.millQ.drop 1 } := tile_setTile ..

/-- A run of writes leaves in a row what every one of them to that row has written. -/
theorem lookD_foldl_put {α β : Type} (key : β → Nat) (v : β → α) (l : List β) (m : Tab α) (d : α) {y : β} (mem : y ∈ l)
    (same : ∀ z ∈ l, key z = key y → v z = v y) : lookD (l.foldl (fun m z => put m (key z) (v z)) m) (key y) d = v y := by
  induction l using List.reverseRecOn with
  | nil => cases mem
  | append_singleton l z ih =>
    rw [List.foldl_append, List.foldl_cons, List.foldl_nil]
    by_cases hz : key z = key y
    · rw [hz, lookD_put]
      exact same z (by simp) hz
    · have earlier : y ∈ l := by
        rcases List.mem_append.mp mem with h | h
        · exact h
        · exact absurd (congrArg key (List.mem_singleton.mp h).symm) hz
      rw [lookD_put_ne _ _ _ hz]
      exact ih earlier fun w hw => same w (List.mem_append_left _ hw)

/-- The elements of one row of a block have different keys (R35, R348). -/
theorem elemKey_blockAcc_inj {acc n p i j : Nat} (h : elemKey (blockAcc acc n p i) p i = elemKey (blockAcc acc n p j) p j) : i = j := by
  simp only [elemKey, blockAcc] at h
  omega

/-- A lane of lanes put together. -/
theorem joinLanes_lane (w : Nat) (l : List Nat) {j : Nat} (hj : j < l.length) :
    joinLanes w l / 2 ^ (w * j) % 2 ^ w = l[j] % 2 ^ w := by
  induction l generalizing j with
  | nil => cases hj
  | cons a l ih =>
    have low : a % 2 ^ w < 2 ^ w := Nat.mod_lt _ (Nat.two_pow_pos w)
    cases j with
    | zero => simp [joinLanes]
    | succ j =>
      have rest : joinLanes w (a :: l) / 2 ^ w = joinLanes w l := by
        rw [joinLanes, Nat.add_mul_div_left _ _ (Nat.two_pow_pos w), Nat.div_eq_of_lt low, Nat.zero_add]
      rw [Nat.mul_succ, Nat.add_comm, Nat.pow_add, ← Nat.div_div_eq_div_mul, rest]
      exact ih (Nat.lt_of_succ_lt_succ hj)

/-! ## MILL_ACCEPT (R345) -/

theorem millAccept_takes (room : (tile s tl).millQ.length < 64) (next : nextAccepted (tile s tl) = some o)
    (free : windowWaits s tl o = false) :
    millAccept tl s = some (setTile s tl
      { tile s tl with
        dispatched := (tile s tl).dispatched.filter (fun q => !o.same q)
        millQ := (tile s tl).millQ ++ [{ o with began := max o.sent (cycOf s (cmptOfTile tl)) }] }) := by
  simp [millAccept, Nat.not_le.mpr room, next, free]

/-! ## MILL_ROW_READ: the request (R64, R111, R447) -/

/-- The state in which a row has been asked for, in one access of the pipes. -/
def rowEntered (u : State) (tl tid : Nat) (q : Ask) (ps : List Piece) (fl : FFlags) : State :=
  let r := addAccess u tid q ps true
  setTile r.2 tl { tile r.2 tl with row := some (r.1, fl) }

theorem rowEntered_row (u : State) (tl tid : Nat) (q : Ask) (ps : List Piece) (fl : FFlags) :
    ∃ a y, (tile (rowEntered u tl tid q ps fl) tl).row = some (a, fl) ∧ look (rowEntered u tl tid q ps fl).accs a = some y
      ∧ y.tid = tid ∧ y.posted = true ∧ y.lo = q.va.toNat ∧ y.size = q.size := by
  obtain ⟨-, y, listed, tid', -, posted, lo, size, -⟩ := addAccess_spec u tid q ps true
  exact ⟨_, y, congrArg Tile.row (tile_setTile ..), listed, tid', posted, lo, size⟩

theorem mem_rowEntered (u : State) (tl tid : Nat) (q : Ask) (ps : List Piece) (fl : FFlags) :
    (rowEntered u tl tid q ps fl).mem = u.mem := mem_addAccess ..

/-- A row whose bytes pass every check is asked for. -/
theorem rowAsk_clear {va : Word} {n : Nat} {store : Option (Nat × FFlags)} {ps : List Piece} {u : State}
    (below : store = none → aboveMark s (coreOf o.tid) o.ctx va.toNat n = false)
    (pieces : piecesNow s ⟨coreOf o.tid, tl, o.ctx, o.prv⟩ (if store.isSome then .store else .load) va n = (.ok ps, u))
    (plain : ∀ p ∈ ps, (o.kind.multiplies = true → isWindow (placeOf p.pa) = false) ∧ admitted u p.pkg p.pa p.gen ≠ .stale) :
    ∃ q : Ask, q.va = va ∧ q.size = n ∧ rowAsk s tl o va n store = some (rowEntered u tl o.tid q ps ((store.map (·.2)).getD {})) := by
  have low : (store.isNone && aboveMark s (coreOf o.tid) o.ctx va.toNat n) = false := by
    cases store with
    | none => simpa using below rfl
    | some _ => rfl
  have inStore : (ps.find? fun p => o.kind.multiplies && isWindow (placeOf p.pa)) = none :=
    List.find?_eq_none.mpr fun p hp => by simpa using (plain p hp).1
  have current : (ps.find? fun p => admitted u p.pkg p.pa p.gen == .stale) = none :=
    List.find?_eq_none.mpr fun p hp => by simpa using (plain p hp).2
  simp only [rowAsk, low, pieces, inStore, current]
  exact ⟨_, rfl, rfl, rfl⟩

/-- The running instruction asks for its next row unless the accesses of its thread hold it back (R122). -/
theorem millRow_asks {va : Word} {n : Nat} {store : Option (Nat × FFlags)} (queue : (tile s tl).millQ = o :: q)
    (sound : (tile s tl).pipeFault = none) (idle : (tile s tl).row = none) (next : nextRow (tile s tl) o = some (va, n, store))
    (free : engineHeld s o.tid o.before = false) (nonempty : 0 < n) (residue : o.kind = .mmr → residueOk s tl o.ctx = true) :
    millRow tl s = rowAsk s tl o va n store := by
  have able : (o.kind == .mmr && o.rowsB.isEmpty && !residueOk s tl o.ctx) = false := by
    by_cases h : o.kind = .mmr
    · simp [residue h]
    · simp [h]
  have full : n ≠ 0 := by omega
  simp [millRow, queue, sound, idle, next, free, able, full]

/-! ## MILL_ROW_READ: the effect of a row (R349, R358) -/

/-- The next row of an `mst` has the elements of a row of the block, 16 bytes each (R358). -/
theorem nextRow_mst {va : Word} {n v : Nat} {fl : FFlags} (kind : o.kind = .mst) (plain : isSt o = false)
    (next : nextRow x o = some (va, n, some (v, fl))) {j : Nat} (hj : j < (blockDesc o.b0).cv) :
    v / 2 ^ (128 * j) % 2 ^ 128
      = (lookD x.acc (elemKey (blockAcc o.acc (blockDesc o.b0).n o.p j) o.p j) {}).a.toNat := by
  have noB : rowsB o = 0 := by simp [rowsB, kind]
  by_cases finished : rowsOf o ≤ o.p
  · simp [nextRow, noB, finished] at next
  · simp only [nextRow, noB, finished, kind, plain, elemBytes, Nat.not_lt_zero, if_false, Bool.false_eq_true, Option.some.injEq,
      Prod.mk.injEq] at next
    obtain ⟨-, -, rfl, -⟩ := next
    rw [joinLanes_lane 128 _ (by simpa using hj)]
    simp [storeElem, kind, Nat.mod_eq_of_lt (BitVec.isLt _)]

/-- The access of a row has come back whole: the row has its effect. -/
theorem millRow_ends {n : Nat} {fl : FFlags} {a : Access} (queue : (tile s tl).millQ = o :: q)
    (sound : (tile s tl).pipeFault = none) (asked : (tile s tl).row = some (n, fl)) (listed : look s.accs n = some a)
    (left : a.left = 0) (replies : a.replies = 0) (clean : a.poisoned = false) (current : a.stale = false) :
    millRow tl s = some (rowEffect
      (setTile (tick { s with accs := del s.accs n } (cmptOfTile tl) a.done) tl { tile s tl with row := none }) tl o a.val fl) := by
  have same : tile (tick { s with accs := del s.accs n } (cmptOfTile tl) a.done) tl = tile s tl := tile_tick ..
  simp [millRow, queue, sound, asked, rowEnd, listed, left, replies, clean, current, same]

/-- One product after another, the row progress stays (R364). -/
theorem enterRow_p (x : Tile) (o : MillOp) (i : Nat) (row : List Byte) : (enterRow x o i row).2.p = o.p := by
  unfold enterRow
  dsimp only
  induction List.range (mulDesc o.a1 o.b1).cv using List.reverseRecOn with
  | nil => rfl
  | append_singleton l j ih => rw [List.foldl_append]; exact ih

/-- The multiplies are `mma`, `mmas`, `mmcb` and `mmr` (R350). -/
theorem kind_of_multiplies {k : MillKind} (h : k.multiplies = true) : k = .mma ∨ k = .mmas ∨ k = .mmcb ∨ k = .mmr := by
  cases k <;> simp_all [MillKind.multiplies]

/-- A row of a multiply enters the accumulators and counts in the progress (R349, R364). -/
theorem rowEffect_multiply {v : Nat} {fl : FFlags} (kind : o.kind.multiplies = true) (staged : rowsB o ≤ o.rowsB.length) :
    let r := enterRow (tile s tl) o o.p (toBytes (rowLen o false) v)
    tile (rowEffect s tl o v fl) tl = { r.1 with millQ := { r.2 with p := o.p + 1 } :: r.1.millQ.drop 1 } := by
  intro r
  have progress : r.2.p = o.p := enterRow_p ..
  have effect : rowEffect s tl o v fl = setHead s tl r.1 { r.2 with p := r.2.p + 1 } := by
    unfold rowEffect
    rw [if_neg (Nat.not_lt.mpr staged)]
    rcases kind_of_multiplies kind with h | h | h | h <;> simp only [h] <;> rfl
  rw [effect, tile_setHead, progress]

/-- A row of an `mld` replaces the elements of a row of the block (R358). -/
theorem rowEffect_mld {v : Nat} {fl : FFlags} (kind : o.kind = .mld) (plain : isSt o = false) {j : Nat}
    (hj : j < (blockDesc o.b0).cv) :
    lookD (tile (rowEffect s tl o v fl) tl).acc (elemKey (blockAcc o.acc (blockDesc o.b0).n o.p j) o.p j) {}
      = { a := BitVec.ofNat 128 (v / 2 ^ (128 * j)) } := by
  have noB : rowsB o = 0 := by simp [rowsB, kind]
  simp only [rowEffect, noB, kind, plain, Nat.not_lt_zero, if_false, Bool.false_eq_true, tile_setHead]
  exact lookD_foldl_put (fun j => elemKey (blockAcc o.acc (blockDesc o.b0).n o.p j) o.p j)
    (fun j => ({ a := BitVec.ofNat 128 (v / 2 ^ (128 * j)) } : Elem)) _ _ _ (List.mem_range.mpr hj)
    fun i _ same => by rw [elemKey_blockAcc_inj same]

/-! ## Units of an accumulator (R256, R265, R359) -/

/-- A finite value is its significand in units of a power of two (R259). -/
theorem toRat_fin (neg : Bool) (m : Nat) (e : Int) : (FVal.fin neg m e).toRat = (signedM neg m : Rat) * (2 : Rat) ^ e := by
  rcases Int.le_total 0 e with h | h
  · obtain ⟨n, rfl⟩ := Int.eq_ofNat_of_zero_le h
    simp [FVal.toRat]
  · obtain ⟨n, rfl⟩ := Int.exists_eq_neg_ofNat h
    simp [FVal.toRat, div_eq_mul_inv]

/-- A value of magnitude `|a|` with the sign of `a` is `a`. -/
theorem signedM_natAbs (a : Int) : signedM (a < 0) a.natAbs = a := by
  by_cases h : a < 0
  · simp [signedM, h, abs_of_neg h]
  · simp [signedM, h, abs_of_nonneg (Int.not_lt.mp h)]

/-- `shiftInt` floors (R265). -/
theorem shiftInt_floor (a sh : Int) : (shiftInt a sh).1 = ⌊(a : Rat) * (2 : Rat) ^ sh⌋ := by
  unfold shiftInt
  split
  · next h =>
    obtain ⟨n, rfl⟩ := Int.eq_ofNat_of_zero_le h
    have whole : (a : Rat) * (2 : Rat) ^ (n : Int) = ((a * 2 ^ n : Int) : Rat) := by simp
    rw [whole, Int.floor_intCast]
    rfl
  · next h =>
    obtain ⟨n, rfl⟩ := Int.exists_eq_neg_ofNat (Int.le_of_lt (Int.not_le.mp h))
    have quotient : (a : Rat) * (2 : Rat) ^ (-(n : Int)) = (a : Rat) / ((2 ^ n : Nat) : Rat) := by simp [div_eq_mul_inv]
    rw [quotient, Rat.floor_intCast_div_natCast]
    simp

theorem shiftInt_zero (sh : Int) : (shiftInt 0 sh).1 = 0 := by simp [shiftInt_floor]

/-- The value of an element in other units, floored, is its significand shifted by the difference of the anchors (R359). -/
theorem shiftInt_of_units {a anch new n : Int}
    (low : (n : Rat) ≤ (FVal.fin (a < 0) a.natAbs anch).toRat / (FVal.fin false 1 new).toRat)
    (high : (FVal.fin (a < 0) a.natAbs anch).toRat / (FVal.fin false 1 new).toRat < n + 1) : (shiftInt a (anch - new)).1 = n := by
  have units : (FVal.fin (a < 0) a.natAbs anch).toRat / (FVal.fin false 1 new).toRat = (a : Rat) * (2 : Rat) ^ (anch - new) := by
    rw [toRat_fin, toRat_fin, signedM_natAbs, zpow_sub₀ two_ne_zero]
    simp [signedM, mul_div_assoc]
  rw [units] at low high
  rw [shiftInt_floor]
  exact Int.floor_eq_iff.mpr ⟨low, high⟩

/-! ## One accumulator of `mzero`, `manc` and `mscl` (R359) -/

/-- An element that nothing has written stays 0 in any units. -/
theorem rescale_zero (kind : MillKind) (anch n : Int) : (rescale kind anch n {}).1 = {} := by
  cases kind
  case mscl =>
    simp [rescale, shiftInt_zero]
  all_goals rfl

/-- `mscl` keeps the value of an element, floored to the new units, while that is in range (R359). -/
theorem rescale_mscl {anch n q : Int} {e : Elem} (units : (shiftInt e.a.toInt (anch - n)).1 = q) (range : q.natAbs < 2 ^ 126) :
    (rescale .mscl anch n e).1 = { e with a := BitVec.ofInt 128 q } := by
  simp only [rescale, units, if_neg (Nat.not_le.mpr range)]

/-- The fold of `accEffect` at one element: a row that is listed is rescaled, one that is not stays unlisted. -/
def rescaleRow (kind : MillKind) (anch n : Int) (acc : Nat) (r : Tab Elem × FFlags) (i : Nat) : Tab Elem × FFlags :=
  match look r.1 (acc * 256 + i) with
  | none => r
  | some v => (put r.1 (acc * 256 + i) (rescale kind anch n v).1, orFlags r.2 (rescale kind anch n v).2)

theorem accEffect_acc (x : Tile) (o : MillOp) (acc : Nat) :
    (accEffect x o acc).1.acc
      = ((List.range 256).foldl (rescaleRow o.kind (anchorOf x acc) (signedOf o.a0.toNat 16) acc) (x.acc, {})).1 := by
  unfold accEffect
  dsimp only
  refine congrArg (fun f => (List.foldl f (x.acc, ({} : FFlags)) (List.range 256)).1) (funext fun r => funext fun i => ?_)
  unfold rescaleRow anchorOf
  cases look r.1 (acc * 256 + i) <;> rfl

/-- At any key, one step of the fold rescales that element, or leaves it. -/
theorem lookD_rescaleRow (kind : MillKind) (anch n : Int) (acc : Nat) (r : Tab Elem × FFlags) (i k : Nat) :
    lookD (rescaleRow kind anch n acc r i).1 k {}
      = if acc * 256 + i = k then (rescale kind anch n (lookD r.1 k {})).1 else lookD r.1 k {} := by
  unfold rescaleRow
  split
  · next unlisted =>
    split
    · next same => subst same; simp only [lookD, unlisted, Option.getD_none, rescale_zero]
    · rfl
  · next v listed =>
    split
    · next same => subst same; simp [lookD, listed]
    · next other => exact lookD_put_ne _ _ _ other

/-- Elements that the fold does not name stay. -/
theorem lookD_foldl_rescaleRow_ne (kind : MillKind) (anch n : Int) (acc : Nat) (l : List Nat) (r : Tab Elem × FFlags) {k : Nat}
    (other : ∀ i ∈ l, acc * 256 + i ≠ k) : lookD (l.foldl (rescaleRow kind anch n acc) r).1 k {} = lookD r.1 k {} := by
  induction l generalizing r with
  | nil => rfl
  | cons i l ih =>
    rw [List.foldl_cons, ih _ fun j hj => other j (List.mem_cons_of_mem i hj), lookD_rescaleRow,
      if_neg (other i List.mem_cons_self)]

/-- Each element that the fold names is rescaled once. -/
theorem lookD_foldl_rescaleRow (kind : MillKind) (anch n : Int) (acc : Nat) {l : List Nat} (once : l.Nodup) (r : Tab Elem × FFlags)
    {i : Nat} (mem : i ∈ l) :
    lookD (l.foldl (rescaleRow kind anch n acc) r).1 (acc * 256 + i) {} = (rescale kind anch n (lookD r.1 (acc * 256 + i) {})).1 := by
  induction l generalizing r with
  | nil => cases mem
  | cons j l ih =>
    obtain ⟨fresh, once⟩ := List.nodup_cons.mp once
    rw [List.foldl_cons]
    rcases List.mem_cons.mp mem with rfl | later
    · have others : ∀ m ∈ l, acc * 256 + m ≠ acc * 256 + i := fun m hm e => fresh (Nat.add_left_cancel e ▸ hm)
      rw [lookD_foldl_rescaleRow_ne _ _ _ _ _ _ others, lookD_rescaleRow, if_pos rfl]
    · have other : acc * 256 + j ≠ acc * 256 + i := fun e => fresh (Nat.add_left_cancel e ▸ later)
      rw [ih once _ later, lookD_rescaleRow, if_neg other]

theorem lookD_accEffect (x : Tile) (o : MillOp) (acc : Nat) {i : Nat} (hi : i < 256) :
    lookD (accEffect x o acc).1.acc (acc * 256 + i) {}
      = (rescale o.kind (anchorOf x acc) (signedOf o.a0.toNat 16) (lookD x.acc (acc * 256 + i) {})).1 := by
  rw [accEffect_acc, lookD_foldl_rescaleRow _ _ _ _ List.nodup_range _ (List.mem_range.mpr hi)]

/-- The elements of another accumulator stay. -/
theorem lookD_accEffect_ne (x : Tile) (o : MillOp) {acc other : Nat} (h : acc ≠ other) {i : Nat} (hi : i < 256) :
    lookD (accEffect x o acc).1.acc (other * 256 + i) {} = lookD x.acc (other * 256 + i) {} := by
  rw [accEffect_acc, lookD_foldl_rescaleRow_ne _ _ _ _ _ _ fun j hj => by have := List.mem_range.mp hj; omega]

/-- `manc` and `mscl` set the anchor (R359). -/
theorem anchorOf_accEffect (x : Tile) (o : MillOp) (acc : Nat) (kind : o.kind ≠ .mzero) :
    anchorOf (accEffect x o acc).1 acc = signedOf o.a0.toNat 16 := by
  have field : signedOf o.a0.toNat 16 = (o.a0.setWidth 16).toInt := by
    rw [← signedOf_toNat]
    simp [signedOf]
  have set : (lookD (accEffect x o acc).1.anchors acc {}).anch = BitVec.ofInt 16 (signedOf o.a0.toNat 16) := by
    unfold accEffect
    dsimp only
    rw [lookD_put]
    split
    · next h => exact absurd h kind
    · rfl
  rw [anchorOf, set, field, BitVec.ofInt_toInt]

theorem anchorOf_accEffect_ne (x : Tile) (o : MillOp) {acc other : Nat} (h : acc ≠ other) :
    anchorOf (accEffect x o acc).1 other = anchorOf x other := by
  unfold anchorOf accEffect
  dsimp only
  rw [lookD_put_ne _ _ _ h]

/-! ## Every accumulator that the instruction names -/

/-- One accumulator of those that `mzero`, `manc` and `mscl` work through at retirement. -/
def accStep (r : Tile × MillOp) (acc : Nat) : Tile × MillOp :=
  ((accEffect r.1 r.2 acc).1, { r.2 with flags := orFlags r.2.flags (accEffect r.1 r.2 acc).2 })

theorem accStep_kind (r : Tile × MillOp) (acc : Nat) : (accStep r acc).2.kind = r.2.kind := rfl
theorem accStep_a0 (r : Tile × MillOp) (acc : Nat) : (accStep r acc).2.a0 = r.2.a0 := rfl
theorem accStep_tile (r : Tile × MillOp) (acc : Nat) : (accStep r acc).1 = (accEffect r.1 r.2 acc).1 := by rw [accStep]

/-- Of the instruction, only the flags change. -/
theorem foldl_accStep_op (l : List Nat) (r : Tile × MillOp) : ∃ f, (l.foldl accStep r).2 = { r.2 with flags := f } := by
  induction l generalizing r with
  | nil => exact ⟨r.2.flags, rfl⟩
  | cons acc l ih =>
    rw [List.foldl_cons]
    exact ih (accStep r acc)

/-- What is not named keeps its elements and its anchor. -/
theorem foldl_accStep_ne (l : List Nat) (r : Tile × MillOp) {k : Nat} (other : k ∉ l) :
    (∀ i < 256, lookD (l.foldl accStep r).1.acc (k * 256 + i) {} = lookD r.1.acc (k * 256 + i) {})
    ∧ anchorOf (l.foldl accStep r).1 k = anchorOf r.1 k := by
  induction l generalizing r with
  | nil => exact ⟨fun _ _ => rfl, rfl⟩
  | cons acc l ih =>
    obtain ⟨first, rest⟩ := not_or.mp (List.mem_cons.not.mp other)
    obtain ⟨elems, anchor⟩ := ih (accStep r acc) rest
    rw [accStep_tile] at elems anchor
    rw [List.foldl_cons]
    exact ⟨fun i hi => (elems i hi).trans (lookD_accEffect_ne _ _ (Ne.symm first) hi),
      anchor.trans (anchorOf_accEffect_ne _ _ (Ne.symm first))⟩

/-- Each accumulator that is named has every element rescaled once, from the units it had. -/
theorem foldl_accStep (l : List Nat) (once : l.Nodup) (r : Tile × MillOp) {k : Nat} (mem : k ∈ l) :
    (∀ i < 256, lookD (l.foldl accStep r).1.acc (k * 256 + i) {}
      = (rescale r.2.kind (anchorOf r.1 k) (signedOf r.2.a0.toNat 16) (lookD r.1.acc (k * 256 + i) {})).1)
    ∧ (r.2.kind ≠ .mzero → anchorOf (l.foldl accStep r).1 k = signedOf r.2.a0.toNat 16) := by
  induction l generalizing r with
  | nil => cases mem
  | cons acc l ih =>
    obtain ⟨fresh, once⟩ := List.nodup_cons.mp once
    rw [List.foldl_cons]
    rcases List.mem_cons.mp mem with rfl | later
    · obtain ⟨elems, anchor⟩ := foldl_accStep_ne l (accStep r k) fresh
      rw [accStep_tile] at elems anchor
      exact ⟨fun i hi => (elems i hi).trans (lookD_accEffect _ _ k hi),
        fun kind => anchor.trans (anchorOf_accEffect _ _ k kind)⟩
    · have other : acc ≠ k := fun e => fresh (e ▸ later)
      obtain ⟨elems, anchor⟩ := ih once (accStep r acc) later
      rw [accStep_tile, accStep_kind, accStep_a0, anchorOf_accEffect_ne _ _ other] at elems
      exact ⟨fun i hi => (elems i hi).trans (by rw [lookD_accEffect_ne _ _ other hi]), anchor⟩

theorem accsNamed_nodup (kind : o.kind = .mzero ∨ o.kind = .manc ∨ o.kind = .mscl) : (accsNamed o).Nodup := by
  have names : accsNamed o = (List.range (o.opt + 1)).map (o.acc + ·) := by rcases kind with h | h | h <;> simp [accsNamed, h]
  rw [names]
  exact List.nodup_range.map fun _ _ => Nat.add_left_cancel

/-! ## MILL_RETIRE (R345) -/

/-- The effect that an instruction has on its tile when it retires, and the instruction with the flags of it. -/
def retireEffect (x : Tile) (o : MillOp) : Tile × MillOp :=
  match o.kind with
  | .mzero | .manc | .mscl => (accsNamed o).foldl accStep (x, o)
  | .mmr => ({ x with rnsOps := x.rnsOps + 1 }, o)
  | _ => (x, o)

theorem retireEffect_fold (x : Tile) (kind : o.kind = .mzero ∨ o.kind = .manc ∨ o.kind = .mscl) :
    retireEffect x o = (accsNamed o).foldl accStep (x, o) := by
  rcases kind with h | h | h <;> simp [retireEffect, h]

/-- `mzero`, `manc` and `mscl` rescale every element of the accumulators that they name; the last two set the anchor. -/
theorem retireEffect_named (x : Tile) (kind : o.kind = .mzero ∨ o.kind = .manc ∨ o.kind = .mscl) {k : Nat} (mem : k ∈ accsNamed o) :
    (∀ i < 256, lookD (retireEffect x o).1.acc (k * 256 + i) {}
      = (rescale o.kind (anchorOf x k) (signedOf o.a0.toNat 16) (lookD x.acc (k * 256 + i) {})).1)
    ∧ (o.kind ≠ .mzero → anchorOf (retireEffect x o).1 k = signedOf o.a0.toNat 16) := by
  rw [retireEffect_fold x kind]
  exact foldl_accStep _ (accsNamed_nodup kind) (x, o) mem

/-- Of the instruction, only the flags change. -/
theorem retireEffect_op (x : Tile) (o : MillOp) : ∃ f, (retireEffect x o).2 = { o with flags := f } := by
  unfold retireEffect
  split
  · exact foldl_accStep_op ..
  · exact foldl_accStep_op ..
  · exact foldl_accStep_op ..
  · exact ⟨o.flags, rfl⟩
  · exact ⟨o.flags, rfl⟩

/-- An instruction that works through rows has its flags from them alone. -/
theorem retireEffect_rows (x : Tile) (rows : rowsOf o ≠ 0) : (retireEffect x o).2 = o := by
  unfold retireEffect
  split
  · next h => simp [rowsOf, h] at rows
  · next h => simp [rowsOf, h] at rows
  · next h => simp [rowsOf, h] at rows
  · rfl
  · rfl

/-- The queue behind a retired instruction: the next one begins then, if it has not begun later (R124). -/
def nextBegins (c : Nat) : List MillOp → List MillOp
  | [] => []
  | n :: rest => { n with began := max n.began c } :: rest

theorem nextBegins_seq (c : Nat) (q : List MillOp) : (nextBegins c q).map (·.seq) = q.map (·.seq) := by cases q <;> rfl

/-- The state in which the running instruction has had its effect and its flags are on their way. -/
def retiring (s : State) (tl : Nat) (q : List MillOp) (x : Tile) (o : MillOp) : State :=
  let u := tick s (cmptOfTile tl) (retireCycle s tl o)
  retireFlags (setTile u tl { x with millQ := nextBegins (cycOf u (cmptOfTile tl)) q }) tl o

/-- An instruction that is done retires, and the scheduler forgets it. -/
theorem millRetire_done (queue : (tile s tl).millQ = o :: q) (sound : (tile s tl).pipeFault = none) (idle : (tile s tl).row = none)
    (staged : rowsB o ≤ o.rowsB.length) (worked : rowsOf o ≤ o.p)
    (residue : o.kind = .mmr → (o.p = 0 ∧ rowsB o = 0) → residueOk s tl o.ctx = true) :
    millRetire tl s = some (completeEntry (retiring s tl q (retireEffect (tile s tl) o).1 (retireEffect (tile s tl) o).2)
      (cmptOf (retireEffect (tile s tl) o).2.tid) (isMill (retireEffect (tile s tl) o).2)) := by
  have able : (o.kind == .mmr && o.p == 0 && rowsB o == 0 && !residueOk s tl o.ctx) = false := by
    by_contra refused
    simp only [Bool.not_eq_false, Bool.and_eq_true, beq_iff_eq, Bool.not_eq_true'] at refused
    obtain ⟨⟨⟨kind, first⟩, noB⟩, unable⟩ := refused
    simp [residue kind ⟨first, noB⟩] at unable
  unfold millRetire
  extract_lets x
  split
  · next empty => exact absurd (queue.symm.trans empty) (List.cons_ne_nil _ _)
  next o' q' running =>
  obtain ⟨rfl, rfl⟩ := List.cons.inj (queue.symm.trans running)
  rw [if_neg (by simp [x, sound, idle, able, Nat.not_lt.mpr staged, Nat.not_lt.mpr worked])]
  dsimp only
  unfold retireEffect accStep
  cases o.kind <;> rfl

/-! ## The flags of a retired instruction (R255, R266) -/

/-- A run of marks on anchor words moves no anchor. -/
theorem anch_foldl_mark (f : Anchor → Anchor) (keeps : ∀ a, (f a).anch = a.anch) (l : List Nat) (m : Tab Anchor) (k : Nat) :
    (lookD (l.foldl (fun m a => put m a (f (lookD m a {}))) m) k {}).anch = (lookD m k {}).anch := by
  induction l generalizing m with
  | nil => rfl
  | cons a l ih =>
    rw [List.foldl_cons, ih]
    by_cases h : a = k
    · rw [h, lookD_put, keeps]
    · rw [lookD_put_ne _ _ _ h]

/-- Of its tile, the flags of an instruction touch the anchor words alone. -/
theorem tile_retireFlags (s : State) (tl : Nat) (o : MillOp) :
    ∃ m, tile (retireFlags s tl o) tl = { tile s tl with anchors := m } ∧ ∀ k, (lookD m k {}).anch = (lookD (tile s tl).anchors k {}).anch := by
  have same : tile (if (thr s o.tid).life == .free || (thr s o.tid).life == .killed || (thr s o.tid).serial != o.serial || o.flags = {} then s
      else setThr s o.tid { thr s o.tid with
        pend := insPend ⟨0, 0, cycOf s (cmptOf o.tid), o.flags, false, false⟩ (thr s o.tid).pend }) tl = tile s tl := by
    split <;> rfl
  unfold retireFlags
  dsimp only
  rw [tile_setTile, same]
  exact ⟨_, rfl, fun k => (anch_foldl_mark (fun a => { a with spz := true }) (fun _ => rfl) _ _ k).trans
    (anch_foldl_mark (fun a => { a with nxa := true }) (fun _ => rfl) _ _ k)⟩

theorem cycOf_retireFlags (s : State) (tl : Nat) (o : MillOp) (c : Nat) : cycOf (retireFlags s tl o) c = cycOf s c := by
  unfold retireFlags
  dsimp only
  split <;> rfl

/-- The flags of a running thread's instruction reach FPC at the end of the cycle (R255). -/
theorem pend_retireFlags (life : (thr s o.tid).life = .run) (serial : (thr s o.tid).serial = o.serial) (raised : o.flags ≠ {}) :
    ∃ f ∈ (thr (retireFlags s tl o) o.tid).pend, f.reg = 0 ∧ f.flags = o.flags ∧ f.land = cycOf s (cmptOf o.tid) := by
  refine ⟨⟨0, 0, cycOf s (cmptOf o.tid), o.flags, false, false⟩, ?_, rfl, rfl, rfl⟩
  simp [retireFlags, life, serial, raised, mem_insPend]

/-- The tile of a retired instruction: the queue behind it, and what it has done to the accumulators. -/
theorem tile_retiring (s : State) (tl : Nat) (q : List MillOp) (x : Tile) (o : MillOp) :
    (tile (retiring s tl q x o) tl).millQ.map (·.seq) = q.map (·.seq) ∧ (tile (retiring s tl q x o) tl).acc = x.acc
    ∧ ∀ k, anchorOf (tile (retiring s tl q x o) tl) k = anchorOf x k := by
  unfold retiring
  dsimp only
  generalize tick s (cmptOfTile tl) (retireCycle s tl o) = u
  obtain ⟨m, marked, anchors⟩ :=
    tile_retireFlags (setTile u tl { x with millQ := nextBegins (cycOf u (cmptOfTile tl)) q }) tl o
  rw [tile_setTile] at marked anchors
  rw [marked]
  exact ⟨nextBegins_seq .., rfl, fun k => congrArg BitVec.toInt (anchors k)⟩

@[simp] theorem mem_retiring (s : State) (tl : Nat) (q : List MillOp) (x : Tile) (o : MillOp) : (retiring s tl q x o).mem = s.mem := by
  simp [retiring]

/-- The flags of a retired instruction of a running thread land at the end of the cycle. -/
theorem pend_retiring (q : List MillOp) (x : Tile) (life : (thr s o.tid).life = .run) (serial : (thr s o.tid).serial = o.serial)
    (raised : o.flags ≠ {}) :
    ∃ f ∈ (thr (retiring s tl q x o) o.tid).pend,
      f.reg = 0 ∧ f.flags = o.flags ∧ f.land = cycOf (retiring s tl q x o) (cmptOf o.tid) := by
  unfold retiring
  dsimp only
  rw [cycOf_retireFlags]
  exact pend_retireFlags (by simpa using life) (by simpa using serial) raised

/-! ## MILL_PIPE_FAULT (R364) -/

/-- The instruction that met a fault is held as it is, and its running thread is told, unless the cause contains it. -/
theorem millPipeFault_holds {c : Cause} {va : Word} (queue : (tile s tl).millQ = o :: q)
    (met : (tile s tl).pipeFault = some (c, va)) (serial : (thr s o.tid).serial = o.serial) (life : (thr s o.tid).life = .run)
    (told : c.contains = false) :
    ∃ t behind n, millPipeFault tl s = some t ∧ (tile t tl).pipeFault = none
      ∧ thr t o.tid = { thr s o.tid with held := some ⟨o, behind, n⟩, async := (thr s o.tid).async ++ [⟨c, va⟩] } := by
  simp only [millPipeFault, queue, met, thr_setTile, thr_setThr, serial, life, told, bne_self_eq_false, Bool.not_false, if_true]
  refine ⟨_, _, _, rfl, ?_, thr_setThr ..⟩
  simp

/-! ## The obligation -/

/-- Settles O28. Each clause is the lemma above on its step. The clause on MILL_PIPE_FAULT stands in the scope of the queue's head
without a fault; `millPipeFault_holds` gives it with no such hypothesis. -/
theorem millSteps : Obligations.MillSteps := by
  unfold Obligations.MillSteps
  intro s tl power x k
  refine ⟨fun o room next free => event_of_some power (millAccept_takes room next free), fun o q queue sound => ?_⟩
  refine ⟨?asks, fun va n v fl kind plain next j hj => nextRow_mst kind plain next hj, ?ends, ?retires, ?faults⟩
  case asks =>
    intro va n store ps u idle next free nonempty residue below pieces plain
    obtain ⟨r, rfl, rfl, ask⟩ := rowAsk_clear below pieces plain
    obtain ⟨a, y, row, listed, rest⟩ := rowEntered_row u tl o.tid r ps ((store.map (·.2)).getD {})
    have step := (millRow_asks queue sound idle next free nonempty residue).trans ask
    refine ⟨servedReads tl (rowEntered u tl o.tid r ps ((store.map (·.2)).getD {})), a,
      exec_millRowRead power step, by rwa [tile_servedReads],
      sameMemory_of_mem ?_, y, by rwa [accs_servedReads], rest⟩
    rw [mem_servedReads, mem_rowEntered, mem_of_piecesNow pieces]
  case ends =>
    intro n fl a asked listed left replies clean current y u
    have step := millRow_ends queue sound asked listed left replies clean current
    have head : tile u tl = y := tile_setTile ..
    refine ⟨exec_millRowRead power step, fun kind staged => ?_,
      fun kind plain j hj => rowEffect_mld kind plain hj⟩
    rw [← head]
    exact rowEffect_multiply kind staged
  case retires =>
    intro idle staged worked residue
    have step := millRetire_done queue sound idle staged worked residue
    obtain ⟨behind, elems, anchors⟩ := tile_retiring s tl q (retireEffect x o).1 (retireEffect x o).2
    obtain ⟨f, op⟩ := retireEffect_op x o
    have thread : (retireEffect x o).2.tid = o.tid := by rw [op]
    have same : isMill (retireEffect x o).2 = isMill o := by rw [op]; rfl
    rw [thread, same] at step
    refine ⟨_, event_of_some power step, behind, sameMemory_of_mem (by simp), entries_completeEntry _ _ _, ?_, ?_, ?_, ?_⟩
    · intro kind k mem i hi
      rw [tile_completeEntry, elems, (retireEffect_named x (.inl kind) mem).1 i hi, kind]
      rfl
    · intro kind k mem
      rw [tile_completeEntry, anchors]
      exact (retireEffect_named x (.inr kind) mem).2 (by rcases kind with h | h <;> simp [h])
    · intro kind k mem i hi n e v low high range
      rw [tile_completeEntry, elems, (retireEffect_named x (.inr (.inr kind)) mem).1 i hi, kind]
      exact rescale_mscl (shiftInt_of_units low high) range
    · intro life serial rows raised
      rw [retireEffect_rows x rows, thr_completeEntry, cycOf_completeEntry]
      exact pend_retiring q _ life serial raised
  case faults =>
    intro o q c va queue met serial life told
    obtain ⟨t, behind, n, step, cleared, thread⟩ := millPipeFault_holds queue met serial life told
    have memory : t.mem = s.mem := by simpa [step] using mem_millPipeFault tl s
    exact ⟨t, event_of_some power step, cleared, sameMemory_of_mem memory, by rw [thread], _, by rw [thread], rfl⟩

end Sys2Proof.Machine
end

section
/-! SUPPORT. What the steps of jobs and contexts need of tables and clocks: the rows of a table after a write or a map, and what a tick
leaves of each unit. -/

namespace Sys2Proof.Machine

variable {s : State} {α β : Type}

/-! ## Tables -/

theorem mem_put_self (t : Tab α) (n : Nat) (x : α) : (n, x) ∈ put t n x := by
  induction t with
  | nil => simp [put]
  | cons p t ih =>
    simp only [put]
    split_ifs
    · simp
    · simp
    · exact List.mem_cons_of_mem _ ih

/-- A row after a write is the new one or an old one. -/
theorem mem_of_mem_put {t : Tab α} {n : Nat} {x : α} {p : Nat × α} (h : p ∈ put t n x) : p = (n, x) ∨ p ∈ t := by
  induction t with
  | nil => simpa [put] using h
  | cons q t ih =>
    simp only [put] at h
    split_ifs at h with same before
    · rcases List.mem_cons.mp h with rfl | h
      · exact .inl rfl
      · exact .inr (List.mem_cons_of_mem _ h)
    · rcases List.mem_cons.mp h with rfl | h
      · exact .inl rfl
      · exact .inr h
    · rcases List.mem_cons.mp h with rfl | h
      · exact .inr List.mem_cons_self
      · exact (ih h).imp_right (List.mem_cons_of_mem _)

theorem mem_of_look {t : Tab α} {n : Nat} {x : α} (h : look t n = some x) : (n, x) ∈ t := by
  induction t with
  | nil => cases h
  | cons p t ih =>
    simp only [look] at h
    split_ifs at h with same
    · cases h; subst same; exact List.mem_cons_self
    · exact List.mem_cons_of_mem _ (ih h)

/-- A map that keeps the keys is a map of the rows. -/
theorem look_map (t : Tab α) (f : Nat → α → β) (n : Nat) : look (t.map fun p => (p.1, f p.1 p.2)) n = (look t n).map (f n) := by
  induction t with
  | nil => rfl
  | cons p t ih =>
    simp only [List.map_cons, look]
    split_ifs with same
    · subst same; rfl
    · exact ih

/-! ## Clocks -/

/-- What a tick of a compartment's clock cannot touch stays. -/
theorem tick_keeps (g : State → β) (keeps : ∀ s c k n, g { setCmpt s c k with now := n } = g s) (s : State) (c n : Nat) :
    g (tick s c n) = g s := by
  unfold tick
  dsimp only
  split
  · rfl
  · exact keeps ..

@[simp] theorem jobs_tick (s : State) (c n : Nat) : (tick s c n).jobs = s.jobs := tick_keeps State.jobs (fun _ _ _ _ => rfl) s c n
@[simp] theorem cores_tick (s : State) (c n : Nat) : (tick s c n).cores = s.cores := tick_keeps State.cores (fun _ _ _ _ => rfl) s c n
@[simp] theorem ctxs_tick (s : State) (c n : Nat) : (tick s c n).ctxs = s.ctxs := tick_keeps State.ctxs (fun _ _ _ _ => rfl) s c n
@[simp] theorem pkg_tick (s : State) (c n : Nat) : (tick s c n).pkg = s.pkg := tick_keeps State.pkg (fun _ _ _ _ => rfl) s c n
@[simp] theorem threads_tick (s : State) (c n : Nat) : (tick s c n).threads = s.threads :=
  tick_keeps State.threads (fun _ _ _ _ => rfl) s c n

@[simp] theorem core_tick (s : State) (c n m : Nat) : core (tick s c n) m = core s m := by simp [core]
@[simp] theorem ctx_tick (s : State) (c n m : Nat) : ctx (tick s c n) m = ctx s m := by simp [ctx]

/-- Of a compartment, a tick moves the clock alone. -/
theorem cmpt_tick (f : Cmpt → β) (keeps : ∀ k a b d, f { k with cyc := a, t := b, stretch := d } = f k) (s : State) (c n m : Nat) :
    f (cmpt (tick s c n) m) = f (cmpt s m) := by
  unfold tick
  dsimp only
  split
  · rfl
  · by_cases h : c = m
    · subst h
      exact (congrArg f (cmpt_setCmpt s c _)).trans (keeps ..)
    · exact congrArg f (cmpt_setCmpt_ne s _ h)

@[simp] theorem entries_tick (s : State) (c n m : Nat) : (cmpt (tick s c n) m).entries = (cmpt s m).entries :=
  cmpt_tick Cmpt.entries (fun _ _ _ _ => rfl) s c n m
@[simp] theorem arrivals_tick (s : State) (c n m : Nat) : (cmpt (tick s c n) m).arrivals = (cmpt s m).arrivals :=
  cmpt_tick Cmpt.arrivals (fun _ _ _ _ => rfl) s c n m
@[simp] theorem markQ_tick (s : State) (c n m : Nat) : (cmpt (tick s c n) m).markQ = (cmpt s m).markQ :=
  cmpt_tick Cmpt.markQ (fun _ _ _ _ => rfl) s c n m
@[simp] theorem fixt_tick (s : State) (c n m : Nat) : (cmpt (tick s c n) m).fixt = (cmpt s m).fixt :=
  cmpt_tick Cmpt.fixt (fun _ _ _ _ => rfl) s c n m

@[simp] theorem cycOf_setCmpt (s : State) (c : Nat) (k : Cmpt) : cycOf (setCmpt s c k) c = k.cyc := by simp [cycOf]

/-! ## Steps of other agents -/

/-- A step of another agent that is not enabled changes nothing. -/
theorem event_of_none {f : State → Option State} (power : s.power = true) (h : f s = none) : event f s = .next s := by
  simp [event, power, h]

/-- A step that does something, by the state that it gives. -/
theorem does_event {i : Instr} {f : State → Option State} {p : State → Prop} {t : State} (power : s.power = true)
    (run : exec i s = event f s) (h : f s = some t) (mem : t.mem = s.mem) (hp : SameMemory s t → p t) : Does s i p :=
  ⟨t, run.trans (event_of_some power h), hp (sameMemory_of_mem mem)⟩

/-- The clock modes and packets in flight aside, a packet enters under a name of its own. -/
theorem cmpts_sendPacket (s : State) (cls : Class) (a b c f : Nat) (o : Option (Nat × Nat)) (d : Body) :
    (sendPacket s cls a b c f o d).cmpts = s.cmpts := by
  simp only [sendPacket, crossing]
  split <;> rfl

@[simp] theorem cmpt_sendPacket (s : State) (cls : Class) (a b c f : Nat) (o : Option (Nat × Nat)) (d : Body) (m : Nat) :
    cmpt (sendPacket s cls a b c f o d) m = cmpt s m := by simp [cmpt, cmpts_sendPacket]

theorem packet_sendPacket (s : State) (cls : Class) (src dst corn flits : Nat) (o : Option (Nat × Nat)) (b : Body) :
    ∃ p ∈ (sendPacket s cls src dst corn flits o b).packets,
      p.2.body = b ∧ p.2.cls = cls ∧ p.2.src = src ∧ p.2.dst = dst ∧ p.2.flits = flits :=
  ⟨_, mem_put_self .., rfl, rfl, rfl, rfl, rfl⟩

end Sys2Proof.Machine
end

section
/-! SUPPORT. The footprint scheduler (R97-R100, R345, R364): the order of arrival, the edges, the entry of a follow-on, and where an entry
is sent. -/

namespace Sys2Proof.Machine

variable {s : State} {c : Nat} {e : Entry}

/-! ## The order of arrival (R97) -/

/-- Where a core stands behind the cycle of its entry. -/
def arrivalSlot (e : Entry) : Nat := (e.core + 512 - e.cycle % 512) % 512

theorem arrivalRank_lt {x y : Entry} :
    arrivalRank x < arrivalRank y ↔ x.cycle < y.cycle ∨ (x.cycle = y.cycle ∧ arrivalSlot x < arrivalSlot y) := by
  unfold arrivalRank arrivalSlot
  omega

theorem mem_of_firstArrival {l : List Entry} {e : Entry} (h : firstArrival l = some e) : e ∈ l := by
  induction l generalizing e with
  | nil => cases h
  | cons x xs ih =>
    simp only [firstArrival] at h
    split at h
    · cases h; exact List.mem_cons_self
    · next f hf =>
      split_ifs at h <;> cases h
      · exact List.mem_cons_of_mem _ (ih hf)
      · exact List.mem_cons_self

/-- The head of the queue is the earliest of the lowest rank. -/
theorem firstArrival_eq {a b : List Entry} (first : ∀ x ∈ a, arrivalRank e < arrivalRank x)
    (least : ∀ x ∈ b, ¬ arrivalRank x < arrivalRank e) : firstArrival (a ++ e :: b) = some e := by
  induction a with
  | nil =>
    simp only [List.nil_append, firstArrival]
    split
    · rfl
    · next f hf => rw [if_neg (least f (mem_of_firstArrival hf))]
  | cons x a ih =>
    have rest := ih fun y hy => first y (List.mem_cons_of_mem _ hy)
    simp only [List.cons_append, firstArrival, rest, first x List.mem_cons_self, if_true]

/-! ## Edges (R98) -/

/-- Some byte lies in both of two sets of regions. -/
def Shares (xs ys : List (Nat × Nat)) : Prop := ∃ x ∈ xs, ∃ y ∈ ys, ∃ n : Nat, x.1 ≤ n ∧ n < x.2 ∧ y.1 ≤ n ∧ n < y.2

theorem meets_iff {x y : Nat × Nat} : meets x y = true ↔ ∃ n : Nat, x.1 ≤ n ∧ n < x.2 ∧ y.1 ≤ n ∧ n < y.2 := by
  simp only [meets, decide_eq_true_eq]
  constructor
  · intro h
    exact ⟨max x.1 y.1, by omega⟩
  · rintro ⟨n, h⟩
    omega

theorem edgeTo_iff {x y : Entry} : edgeTo x y = true ↔
    x.ctx = y.ctx ∧ (Shares x.writes y.reads ∨ Shares x.reads y.writes ∨ Shares x.writes y.writes) := by
  have shares (xs ys : List (Nat × Nat)) : (xs.any fun r => ys.any (meets r)) = true ↔ Shares xs ys := by
    simp only [List.any_eq_true, meets_iff, Shares]
  have both : Shares x.writes (y.reads ++ y.writes) ↔ Shares x.writes y.reads ∨ Shares x.writes y.writes := by
    simp only [Shares, List.mem_append, or_and_right, exists_or, and_or_left]
  simp only [edgeTo, Bool.and_eq_true, Bool.or_eq_true, beq_iff_eq, shares, both]
  tauto

theorem mem_edgesOf {k : Cmpt} {n : Nat} : n ∈ edgesOf k e ↔ ∃ x ∈ k.entries, x.id = n ∧
    (x.ctx = e.ctx ∧ (Shares x.writes e.reads ∨ Shares x.reads e.writes ∨ Shares x.writes e.writes)) := by
  simp only [edgesOf, List.mem_map, List.mem_filter, edgeTo_iff]
  exact ⟨fun ⟨x, ⟨hx, he⟩, hn⟩ => ⟨x, hx, hn, he⟩, fun ⟨x, hx, hn, he⟩ => ⟨x, ⟨hx, he⟩, hn⟩⟩

/-! ## FOOTPRINT_ACCEPT (R97) -/

/-- The clock at the acceptance of an entry. -/
def acceptClock (s : State) (c : Nat) (e : Entry) : State := tick s c (max e.cycle (cmpt s c).acceptAt)

/-- The entry as it is accepted. -/
def acceptedEntry (s : State) (c : Nat) (e : Entry) : Entry :=
  { e with edges := edgesOf (cmpt s c) e, taken := cycOf (acceptClock s c e) c }

/-- The state in which it stands among the entries. -/
def accepted (s : State) (c : Nat) (e : Entry) : State :=
  let u := acceptClock s c e
  let k := cmpt u c
  setCmpt u c { k with arrivals := k.arrivals.filter fun x => x.id != e.id, entries := k.entries ++ [acceptedEntry s c e]
                       acceptAt := k.cyc + 1 }

theorem footprintAccept_eq (first : firstArrival (cmpt s c).arrivals = some e) :
    footprintAccept c s = some (enterFollow (accepted s c e) c (acceptedEntry s c e)) := by
  have edges : edgesOf (cmpt (acceptClock s c e) c) e = edgesOf (cmpt s c) e := by simp [edgesOf, acceptClock]
  simp only [footprintAccept, first, Option.map_some, accepted, acceptedEntry, ← edges]
  rfl

theorem cycOf_acceptClock : cycOf (acceptClock s c e) c = max (cmpt s c).cyc (max e.cycle (cmpt s c).acceptAt) := cycOf_tick ..

/-! ## The follow-on of a job (R100) -/

/-- The state in which the follow-on `o` of job `j` stands behind its job's entry, without edges as yet. -/
def followAppended (s : State) (c : Nat) (e : Entry) (j : Job) (o : MillOp) : State :=
  if (thr s e.tid).serial = j.serial && (thr s e.tid).life != .free then enterMill s e.tid { o with before := j.before } e.job [] true
  else
    let (id, u) := newId s
    let k := cmpt u c
    let f : Entry :=
      { id := id, ctx := o.ctx, tid := e.tid, core := e.core, cycle := k.cyc, reads := (millRegions { o with before := j.before }).1
        writes := (millRegions { o with before := j.before }).2, mill := some { o with before := j.before }, job := e.job }
    setCmpt u c { k with entries := k.entries ++ [f] }

/-- It is the last entry of the compartment, and has its thread's next number. -/
theorem followAppended_last {j : Job} {o : MillOp} (here : cmptOf e.tid = c) :
    ∃ (f : Entry) (m : MillOp), cmpt (followAppended s c e j o) c = { cmpt s c with entries := (cmpt s c).entries ++ [f] }
      ∧ f.job = e.job ∧ f.mill = some m
      ∧ ((thr s e.tid).serial = j.serial → (thr s e.tid).life ≠ .free →
        m.seq = (thr s e.tid).millSeq + 1 ∧ (thr (followAppended s c e j o) e.tid).millSeq = m.seq) := by
  subst here
  by_cases same : ((thr s e.tid).serial = j.serial && (thr s e.tid).life != .free) = true
  · have entered : followAppended s (cmptOf e.tid) e j o = enterMill s e.tid { o with before := j.before } e.job [] true := if_pos same
    rw [entered]
    exact ⟨_, _, cmpt_setCmpt .., rfl, rfl, fun _ _ => ⟨rfl, congrArg Thread.millSeq (thr_setThr ..)⟩⟩
  · rw [followAppended, if_neg same]
    refine ⟨_, _, cmpt_setCmpt .., rfl, rfl, fun serial life => absurd ?_ same⟩
    simp [serial, life]

/-- The edges of a follow-on: from its job's entry, and by its regions from those before it. -/
def followEdges (e f : Entry) (es : List Entry) : List Nat := e.id :: (es.filter fun x => x.id != e.id && edgeTo x f).map (·.id)

theorem enterFollow_of_none (h : (e.job.bind (look s.jobs)).bind Job.follow = none) : enterFollow s c e = s := by
  unfold enterFollow
  cases hn : e.job with
  | none => rfl
  | some n =>
    cases hj : look s.jobs n with
    | none => simp [hj]
    | some j =>
      have none_ : j.follow = none := by simpa [hn, hj] using h
      simp [hj, none_]

/-- The last entry of a compartment gets the edges of a follow-on of `e`. -/
def linkLast (s : State) (c : Nat) (e : Entry) : State :=
  match (cmpt s c).entries.reverse with
  | [] => s
  | f :: es => setCmpt s c { cmpt s c with entries := ({ f with edges := followEdges e f es, core := e.core } :: es).reverse }

theorem enterFollow_eq {j : Job} {o : MillOp} {n : Nat} (hn : e.job = some n) (hj : look s.jobs n = some j) (follow : j.follow = some o) :
    enterFollow s c e = linkLast (followAppended { s with jobs := put s.jobs n { j with followed := true } } c e j o) c e := by
  have named : (e.job.bind fun n => (look s.jobs n).map fun j => (n, j)) = some (n, j) := by rw [hn, Option.bind_some, hj, Option.map_some]
  unfold enterFollow
  rw [named]
  dsimp only
  split
  · next none_ => cases follow.symm.trans none_
  · next o' h =>
    cases follow.symm.trans h
    rfl

theorem cmpt_linkLast {f : Entry} {es : List Entry} (last : (cmpt s c).entries = es ++ [f]) :
    cmpt (linkLast s c e) c = { cmpt s c with entries := es ++ [{ f with edges := followEdges e f es.reverse, core := e.core }] }
    ∧ ∀ t, thr (linkLast s c e) t = thr s t := by
  have reversed : (cmpt s c).entries.reverse = f :: es.reverse := by rw [last, List.reverse_append]; rfl
  unfold linkLast
  rw [reversed]
  refine ⟨?_, fun _ => rfl⟩
  simp

/-- The follow-on of a job stands right behind it. -/
theorem enterFollow_of_some {j : Job} {o : MillOp} {n : Nat} (hn : e.job = some n) (hj : look s.jobs n = some j)
    (follow : j.follow = some o) (here : cmptOf e.tid = c) :
    ∃ (f : Entry) (m : MillOp),
      cmpt (enterFollow s c e) c = { cmpt s c with entries := (cmpt s c).entries ++ [f] } ∧ f.job = e.job ∧ f.mill = some m
      ∧ f.edges = followEdges e f (cmpt s c).entries.reverse
      ∧ ((thr s e.tid).serial = j.serial → (thr s e.tid).life ≠ .free →
        m.seq = (thr s e.tid).millSeq + 1 ∧ (thr (enterFollow s c e) e.tid).millSeq = m.seq) := by
  obtain ⟨f, m, entries, job, mill, number⟩ :=
    followAppended_last (s := { s with jobs := put s.jobs n { j with followed := true } }) (j := j) (o := o) here
  obtain ⟨linked, threads⟩ := cmpt_linkLast (e := e) (congrArg Cmpt.entries entries)
  rw [enterFollow_eq hn hj follow, linked, entries]
  refine ⟨_, m, rfl, job, mill, rfl, fun serial life => ?_⟩
  rw [threads]
  exact number serial life

/-- FOOTPRINT_ACCEPT of the entry that came first, with what its compartment then holds. -/
theorem footprintAccept_first (first : firstArrival (cmpt s c).arrivals = some e) (here : cmptOf e.tid = c) :
    let k := cmpt s c
    let job := e.job.bind (look s.jobs)
    let at_ := max k.cyc (max e.cycle k.acceptAt)
    ∃ t, footprintAccept c s = some t ∧ (cmpt t c).arrivals = k.arrivals.filter (fun x => x.id != e.id) ∧ (cmpt t c).acceptAt = at_ + 1
      ∧ ∃ more : List Entry, (cmpt t c).entries = k.entries ++ acceptedEntry s c e :: more
        ∧ (job.bind (·.follow) = none → more = [])
        ∧ ((job.bind (·.follow)).isSome = true → ∃ (f : Entry) (m : MillOp), more = [f] ∧ f.job = e.job ∧ f.mill = some m
          ∧ f.edges = followEdges e f (k.entries ++ [acceptedEntry s c e]).reverse
          ∧ ((∀ j, job = some j → (thr s e.tid).serial = j.serial) → (thr s e.tid).life ≠ .free →
            m.seq = (thr s e.tid).millSeq + 1 ∧ (thr t e.tid).millSeq = m.seq)) := by
  intro k job at_
  let v := accepted s c e
  have jobs : look v.jobs = look s.jobs := congrArg look (jobs_tick ..)
  have thread : thr v e.tid = thr s e.tid := thr_tick ..
  have compartment : cmpt v c = { cmpt (acceptClock s c e) c with
      arrivals := k.arrivals.filter fun x => x.id != e.id, entries := k.entries ++ [acceptedEntry s c e], acceptAt := at_ + 1 } := by
    rw [show v = accepted s c e from rfl, accepted, cmpt_setCmpt]
    simp only [acceptClock, arrivals_tick, entries_tick]
    congr 1
    exact congrArg (· + 1) cycOf_acceptClock
  refine ⟨_, footprintAccept_eq first, ?_⟩
  cases hf : job.bind (·.follow) with
  | none =>
    have alone : enterFollow v c (acceptedEntry s c e) = v := enterFollow_of_none (by rw [jobs]; exact hf)
    rw [show accepted s c e = v from rfl, alone, compartment]
    exact ⟨rfl, rfl, [], rfl, fun _ => rfl, nofun⟩
  | some o =>
    obtain ⟨j, hj, follow⟩ := Option.bind_eq_some_iff.mp hf
    obtain ⟨n, hn, listed⟩ := Option.bind_eq_some_iff.mp hj
    obtain ⟨f, m, after, fjob, mill, edges, number⟩ :=
      enterFollow_of_some (s := v) (e := acceptedEntry s c e) hn ((congrFun jobs n).trans listed) follow here
    rw [show accepted s c e = v from rfl, after, compartment]
    rw [compartment] at edges
    refine ⟨rfl, rfl, [f], by simp, nofun, fun _ => ⟨f, m, rfl, fjob, mill, edges, fun serial life => ?_⟩⟩
    have same : thr v (acceptedEntry s c e).tid = thr s e.tid := thread
    rw [same] at number
    exact number (serial j hj) life

/-- Of the edges of a follow-on, one is from its job and the others are from earlier entries. -/
theorem mem_followEdges {f : Entry} {es : List Entry} {n : Nat} {x : Entry} (own : x.id = e.id) :
    n ∈ followEdges e f (es ++ [x]).reverse ↔ n = e.id ∨ ∃ y ∈ es, y.id = n ∧ edgeTo y f = true := by
  simp only [followEdges, List.mem_cons, List.mem_map, List.mem_filter, List.mem_reverse, List.mem_append, List.not_mem_nil, or_false,
    Bool.and_eq_true, bne_iff_ne]
  refine or_congr_right' fun other => ⟨?_, fun ⟨y, hy, hn, he⟩ => ⟨y, ⟨.inl hy, hn ▸ other, he⟩, hn⟩⟩
  rintro ⟨y, ⟨hy | rfl, ne, he⟩, hn⟩
  · exact ⟨y, hy, hn, he⟩
  · exact absurd own ne

/-! ## FOOTPRINT_DISPATCH (R99, R345, R364) -/

section
variable {a b : List Entry}

/-- The first entry of a name is found under it. -/
theorem find_first (first : ∀ x ∈ a, x.id ≠ e.id) : (a ++ e :: b).find? (fun x => x.id == e.id) = some e := by
  rw [List.find?_append, List.find?_eq_none.mpr fun x hx => by simpa using first x hx]
  simp

theorem takeWhile_first (first : ∀ x ∈ a, x.id ≠ e.id) : (a ++ e :: b).takeWhile (fun x => x.id != e.id) = a := by
  rw [List.takeWhile_append_of_pos fun x hx => by simpa using first x hx]
  simp

/-- Two entries are mill instructions of one thread. -/
def SameMillThread (x e : Entry) : Prop :=
  ∃ (m n : MillOp), x.mill = some m ∧ e.mill = some n ∧ m.tid = n.tid ∧ m.serial = n.serial

/-- It is a mill instruction's turn when none of its thread stands before it unsent (R345). -/
theorem millTurn_iff {k : Cmpt} (listed : k.entries = a ++ e :: b) (first : ∀ x ∈ a, x.id ≠ e.id) :
    millTurn k e = true ↔ ∀ x ∈ a, x.dispatched = false → ¬ SameMillThread x e := by
  rw [millTurn, listed, takeWhile_first first]
  cases he : e.mill with
  | none => simp [SameMillThread, he]
  | some n =>
    simp only [Option.all_some, Bool.not_eq_true', List.any_eq_false, Bool.and_eq_true, not_and, Bool.not_eq_true, SameMillThread, he,
      Option.some.injEq]
    refine forall₃_congr fun x _ _ => ?_
    cases hx : x.mill with
    | none => simp
    | some m => simp

end

/-- The entry `e` of compartment `c`, found under its name, with nothing that holds it back. -/
structure Dispatchable (s : State) (c : Nat) (e : Entry) : Prop where
  found : (cmpt s c).entries.find? (fun x => x.id == e.id) = some e
  unsent : e.dispatched = false
  free : e.edges = []
  turn : millTurn (cmpt s c) e = true

theorem footprintDispatch_eq (h : Dispatchable s c e) :
    footprintDispatch c e.id s = some (dispatchEntry (tick s c (dispatchCycle s e)) c e) := by
  simp [footprintDispatch, h.found, h.unsent, h.free, h.turn]

/-- An entry with an edge, or behind another of its thread, is not sent. -/
theorem footprintDispatch_held (found : (cmpt s c).entries.find? (fun x => x.id == e.id) = some e)
    (held : e.edges ≠ [] ∨ millTurn (cmpt s c) e = false) : footprintDispatch c e.id s = none := by
  rcases held with h | h <;> simp [footprintDispatch, found, h]

/-- The compartment with entry `e` marked as sent. -/
def markSent (k : Cmpt) (e : Entry) : Cmpt :=
  { k with entries := k.entries.map fun x => if x.id = e.id then { x with dispatched := true } else x }

theorem mem_markSent {k : Cmpt} (mem : e ∈ k.entries) : { e with dispatched := true } ∈ (markSent k e).entries :=
  List.mem_map.mpr ⟨e, mem, if_pos rfl⟩

/-- A mill instruction goes to its mill. -/
theorem dispatchEntry_mill {o : MillOp} (mill : e.mill = some o) (free : (thr s e.tid).held = none ∨ (thr s e.tid).serial ≠ o.serial) :
    dispatchEntry s c e = setTile (setCmpt s c (markSent (cmpt s c) e)) (tileOf e.tid)
      { tile s (tileOf e.tid) with dispatched := (tile s (tileOf e.tid)).dispatched ++ [{ o with sent := cycOf s c }] } := by
  have none_ : (if (thr s e.tid).serial = o.serial then (thr s e.tid).held else none) = none := by
    rcases free with h | h <;> simp [h]
  unfold dispatchEntry
  rw [mill]
  dsimp only
  split
  · next held => cases none_.symm.trans held
  · rfl

/-- One of a thread with a held instruction is held behind it (R364). -/
theorem dispatchEntry_held {o : MillOp} {h : Held} (mill : e.mill = some o) (held : (thr s e.tid).held = some h)
    (own : (thr s e.tid).serial = o.serial) :
    dispatchEntry s c e = setThr (setCmpt s c (markSent (cmpt s c) e)) e.tid
      { thr s e.tid with held := some { h with followers := h.followers ++ [{ o with sent := cycOf s c }] } } := by
  have some_ : (if (thr s e.tid).serial = o.serial then (thr s e.tid).held else none) = some h := by rw [if_pos own, held]
  unfold dispatchEntry
  rw [mill]
  dsimp only
  split
  · next held => cases some_.symm.trans held; rfl
  · next held => cases some_.symm.trans held

/-- A marking job goes to the marking engine (R201). -/
theorem dispatchEntry_mark {n : Nat} {j : Job} (mill : e.mill = none) (job : e.job = some n) (listed : look s.jobs n = some j)
    (mark : j.mark = true) :
    dispatchEntry s c e = setCmpt s c { markSent (cmpt s c) e with markQ := (cmpt s c).markQ ++ [n] } := by
  unfold dispatchEntry
  simp only [mill, job, listed, mark, if_true]
  rfl

/-- A yarder job goes to its lead. -/
theorem dispatchEntry_job {n : Nat} {j : Job} (mill : e.mill = none) (job : e.job = some n) (listed : look s.jobs n = some j)
    (mark : j.mark = false) : dispatchEntry s c e = sendJob (setCmpt s c (markSent (cmpt s c) e)) c n j := by
  unfold dispatchEntry
  simp only [mill, job, listed, mark]
  rfl

@[simp] theorem cmpt_sendJob (s : State) (c n : Nat) (j : Job) (m : Nat) : cmpt (sendJob s c n j) m = cmpt s m := by
  unfold sendJob
  dsimp only
  split
  · split
    · rfl
    · rw [cmpt_sendPacket]; rfl
  · rfl
  · rfl
  · rfl

/-- Whatever an entry is, it stands among the entries as sent, and they are the same ones. -/
theorem entries_dispatchEntry (s : State) (c : Nat) (e : Entry) :
    (cmpt (dispatchEntry s c e) c).entries = (markSent (cmpt s c) e).entries := by
  cases mill : e.mill with
  | some o =>
    cases held : if (thr s e.tid).serial = o.serial then (thr s e.tid).held else none with
    | none =>
      have free : (thr s e.tid).held = none ∨ (thr s e.tid).serial ≠ o.serial := by
        by_cases own : (thr s e.tid).serial = o.serial
        · exact .inl (by simpa [own] using held)
        · exact .inr own
      rw [dispatchEntry_mill mill free, cmpt_setTile, cmpt_setCmpt]
    | some h =>
      have own : (thr s e.tid).serial = o.serial := by
        by_contra other
        simp [other] at held
      rw [dispatchEntry_held mill (by simpa [own] using held) own, cmpt_setThr, cmpt_setCmpt]
  | none =>
    cases job : e.job with
    | none => simp [dispatchEntry, mill, job, markSent]
    | some n =>
      cases listed : look s.jobs n with
      | none => simp [dispatchEntry, mill, job, listed, markSent]
      | some j =>
        cases mark : j.mark with
        | true => rw [dispatchEntry_mark mill job listed mark, cmpt_setCmpt]
        | false => rw [dispatchEntry_job mill job listed mark, cmpt_sendJob, cmpt_setCmpt]

/-! ## Where a job goes (R85) -/

/-- The lead of a job rests on its card, its pages and the package's number. -/
theorem leadOf_congr {t : State} (pkg : t.pkg = s.pkg) (j : Job) : leadOf t j = leadOf s j := by
  unfold leadOf
  rw [pkg]

/-- A job sent to its lead: what it then is. -/
theorem sendJob_job (s : State) (c n : Nat) (j : Job) : ∃ here : Bool, (here = true ↔ leadOf s j = .cmpt c) ∧
    look (sendJob s c n j).jobs n = some { j with arrived := here, sent := some (cycOf s c) } := by
  unfold sendJob
  dsimp only
  split
  · next k hk =>
    split
    · next same => exact ⟨true, by simp [hk, same], look_put ..⟩
    · next other => exact ⟨false, by simp [hk, other], by rw [(kept_sendPacket ..).jobs]; exact look_put ..⟩
  · next y hy => exact ⟨false, by simp [hy], look_put ..⟩
  · next d hd => exact ⟨false, by simp [hd], look_put ..⟩
  · next p hp => exact ⟨false, by simp [hp], look_put ..⟩

/-- Over the network it travels as the two flits of its card. -/
theorem sendJob_network {n k : Nat} {j : Job} (lead : leadOf s j = .cmpt k) (other : k ≠ c) :
    ∃ p ∈ (sendJob s c n j).packets, p.2.body = .job n ∧ p.2.cls = .request ∧ p.2.src = c ∧ p.2.dst = k ∧ p.2.flits = 2 := by
  unfold sendJob
  simp only [lead, if_neg other]
  exact packet_sendPacket ..

/-- To another package it leaves over a peer port. -/
theorem sendJob_away {n p : Nat} {j : Job} (lead : leadOf s j = .pkg p) :
    ∃ q ∈ (sendJob s c n j).away, q.body = .job n ∧ q.cls = .request ∧ q.src = c ∧ q.core = awayCore p 0 ∧ q.flits = 2 := by
  unfold sendJob
  simp only [lead]
  exact ⟨_, List.mem_append_right _ List.mem_cons_self, rfl, rfl, rfl, rfl, rfl⟩

/-! ## The obligation -/

/-- FOOTPRINT_ACCEPT, in the words of the statement. -/
theorem does_footprintAccept {a b : List Entry} (power : s.power = true) (listed : (cmpt s c).arrivals = a ++ e :: b)
    (first : ∀ x ∈ a, arrivalRank e < arrivalRank x) (least : ∀ x ∈ b, ¬ arrivalRank x < arrivalRank e) (here : cmptOf e.tid = c) :
    let k := cmpt s c
    let job := e.job.bind (look s.jobs)
    let at_ := max k.cyc (max e.cycle k.acceptAt)
    Does s (.footprintAccept c) fun t => SameMemory s t ∧ (∀ x : Entry, x ∈ (cmpt t c).arrivals ↔ x ∈ k.arrivals ∧ x.id ≠ e.id)
      ∧ (cmpt t c).acceptAt = at_ + 1
      ∧ ∃ (e' : Entry) (more : List Entry), (cmpt t c).entries = k.entries ++ e' :: more ∧ e' = { e with edges := e'.edges, taken := at_ }
        ∧ (∀ n : Nat, n ∈ e'.edges ↔ ∃ x ∈ k.entries, x.id = n ∧ edgeTo x e = true) ∧ (job.bind (·.follow) = none → more = [])
        ∧ ((job.bind (·.follow)).isSome = true → ∃ (f : Entry) (m : MillOp), more = [f] ∧ f.job = e.job ∧ f.mill = some m
          ∧ (∀ n : Nat, n ∈ f.edges ↔ n = e.id ∨ ∃ x ∈ k.entries, x.id = n ∧ edgeTo x f = true)
          ∧ ((∀ j, job = some j → (thr s e.tid).serial = j.serial) → (thr s e.tid).life ≠ .free →
            m.seq = (thr s e.tid).millSeq + 1 ∧ (thr t e.tid).millSeq = m.seq)) := by
  intro k job at_
  obtain ⟨t, step, arrivals, acceptAt, more, entries, alone, follows⟩ :=
    footprintAccept_first (s := s) (e := e) (by rw [listed]; exact firstArrival_eq first least) here
  refine does_event power rfl step (mem_of_some (mem_footprintAccept c s) step) fun memory => ⟨memory, fun x => ?_, acceptAt,
    acceptedEntry s c e, more, entries, ?_, fun n => ?_, alone, fun follow => ?_⟩
  · simp [arrivals, k]
  · rw [acceptedEntry, cycOf_acceptClock]
  · simp only [acceptedEntry, edgesOf, List.mem_map, List.mem_filter, and_assoc, and_comm (a := edgeTo _ _ = true)]
    rfl
  · obtain ⟨f, m, rfl, fjob, mill, edges, number⟩ := follows follow
    exact ⟨f, m, rfl, fjob, mill, fun n => by rw [edges]; exact mem_followEdges rfl, number⟩

/-- FOOTPRINT_DISPATCH of a mill instruction. -/
theorem dispatched_mill {o : MillOp} (mill : e.mill = some o) :
    let t := dispatchEntry (tick s c (dispatchCycle s e)) c e
    let o' := { o with sent := max (cmpt s c).cyc e.taken }
    let sent := (tile s (tileOf e.tid)).dispatched
    (((thr s e.tid).held = none ∨ (thr s e.tid).serial ≠ o.serial) → (tile t (tileOf e.tid)).dispatched = sent ++ [o'])
    ∧ ∀ h : Held, (thr s e.tid).held = some h → (thr s e.tid).serial = o.serial → (tile t (tileOf e.tid)).dispatched = sent
      ∧ (thr t e.tid).held = some { h with followers := h.followers ++ [o'] } := by
  have clock : cycOf (tick s c (dispatchCycle s e)) c = max (cmpt s c).cyc e.taken := by
    rw [cycOf_tick, dispatchCycle, mill]
    rfl
  refine ⟨fun free => ?_, fun h held own => ?_⟩
  · rw [dispatchEntry_mill mill (by simpa using free), tile_setTile, clock, tile_tick]
  · rw [dispatchEntry_held (h := h) mill (by simpa using held) (by simpa using own), clock]
    simp

/-- FOOTPRINT_DISPATCH of a job. -/
theorem dispatched_job {n : Nat} {j : Job} (mill : e.mill = none) (job : e.job = some n) (listed : look s.jobs n = some j) :
    let t := dispatchEntry (tick s c (dispatchCycle s e)) c e
    (j.mark = true → (cmpt t c).markQ = (cmpt s c).markQ ++ [n])
    ∧ (j.mark = false → ∃ q, look t.jobs n = some q ∧ q = { j with arrived := q.arrived, sent := some (cycOf t c) }
      ∧ (q.arrived = true ↔ leadOf s j = .cmpt c)
      ∧ (∀ k', leadOf s j = .cmpt k' → k' ≠ c →
        ∃ p ∈ t.packets, p.2.body = .job n ∧ p.2.cls = .request ∧ p.2.src = c ∧ p.2.dst = k' ∧ p.2.flits = 2)
      ∧ ∀ k', leadOf s j = .pkg k' →
        ∃ p ∈ t.away, p.body = .job n ∧ p.cls = .request ∧ p.src = c ∧ p.core = awayCore k' 0 ∧ p.flits = 2) := by
  have listed' : look (tick s c (dispatchCycle s e)).jobs n = some j := by simpa using listed
  refine ⟨fun mark => ?_, fun mark => ?_⟩
  · rw [dispatchEntry_mark mill job listed' mark, cmpt_setCmpt, markQ_tick]
  · rw [dispatchEntry_job mill job listed' mark]
    generalize hu : setCmpt (tick s c (dispatchCycle s e)) c (markSent (cmpt (tick s c (dispatchCycle s e)) c) e) = u
    have lead : leadOf u j = leadOf s j := leadOf_congr (by rw [← hu, setCmpt_pkg, pkg_tick]) j
    obtain ⟨here, iff, sent⟩ := sendJob_job u c n j
    rw [lead] at iff
    refine ⟨_, sent, ?_, iff, fun k hk => sendJob_network (lead.trans hk), fun k hk => sendJob_away (lead.trans hk)⟩
    simp [cycOf]

/-- Settles O39: the head of the arrival queue by its rank (`firstArrival_eq`), the edges by `edgeTo_iff`, and the dispatch by what an
entry is (`dispatched_mill`, `dispatched_job`). -/
theorem footprintScheduler : Obligations.FootprintScheduler := by
  unfold Obligations.FootprintScheduler
  intro s c power
  refine ⟨fun a e b listed first least here => ?_, fun a e b listed first unsent => ?_⟩
  · have step := does_footprintAccept power listed (fun x hx => arrivalRank_lt.mpr (first x hx))
      (fun x hx h => least x hx (arrivalRank_lt.mp h)) here
    simp only [edgeTo_iff] at step
    exact step
  · have found : (cmpt s c).entries.find? (fun x => x.id == e.id) = some e := by rw [listed]; exact find_first first
    refine ⟨fun edges => event_of_none power (footprintDispatch_held found (.inl edges)), fun ⟨x, hx, waits, follows⟩ =>
      event_of_none power (footprintDispatch_held found (.inr ?_)), fun free turn => ?_⟩
    · exact Bool.eq_false_iff.mpr fun h => (millTurn_iff listed first).mp h x hx waits follows
    · have step := footprintDispatch_eq ⟨found, unsent, free, (millTurn_iff listed first).mpr turn⟩
      refine does_event power rfl step (by simp) fun memory => ⟨memory, ?_, fun o mill => dispatched_mill mill, fun mill n j job listed =>
        dispatched_job mill job listed⟩
      rw [entries_dispatchEntry]
      exact mem_markSent (by simp [listed])

end Sys2Proof.Machine
end

section
/-! SUPPORT. The end of a job (R99-R106, R209): the ranges that a channel holds filled, the completion effects in their order, the record,
and what a thread in `yrd.stop` learns of it. -/

namespace Sys2Proof.Machine

variable {s : State} {c id : Nat} {e : Entry} {j : Job}

/-! ## Filled ranges (R104) -/

/-- A byte lies in one of some ranges. -/
def Covered (l : List (Nat × Nat)) (n : Nat) : Prop := ∃ r ∈ l, r.1 ≤ n ∧ n < r.2

theorem covered_cons {x : Nat × Nat} {l : List (Nat × Nat)} {n : Nat} : Covered (x :: l) n ↔ (x.1 ≤ n ∧ n < x.2) ∨ Covered l n := by
  simp [Covered]

/-- Ranges with bytes, rising, that do not touch. -/
def Rising (l : List (Nat × Nat)) : Prop := (∀ r ∈ l, r.1 < r.2) ∧ l.Pairwise fun x y => x.2 < y.1

theorem rising_cons {x : Nat × Nat} {l : List (Nat × Nat)} : Rising (x :: l) ↔ x.1 < x.2 ∧ (∀ y ∈ l, x.2 < y.1) ∧ Rising l := by
  simp only [Rising, List.forall_mem_cons, List.pairwise_cons]
  tauto

theorem length_joinRange (r : Nat × Nat) (l : List (Nat × Nat)) : (joinRange r l).length ≤ l.length + 1 := by
  induction l generalizing r with
  | nil => simp [joinRange]
  | cons x xs ih =>
    simp only [joinRange]
    split_ifs
    · simp
    · simpa using ih r
    · exact (ih _).trans (by simp)

theorem covered_joinRange (r : Nat × Nat) (l : List (Nat × Nat)) (n : Nat) :
    Covered (joinRange r l) n ↔ (r.1 ≤ n ∧ n < r.2) ∨ Covered l n := by
  induction l generalizing r with
  | nil => simp [joinRange, covered_cons]
  | cons x xs ih =>
    simp only [joinRange]
    split_ifs with before after
    · simp only [covered_cons]
    · simp only [covered_cons, ih]
      tauto
    · have union : (min r.1 x.1 ≤ n ∧ n < max r.2 x.2) ↔ (r.1 ≤ n ∧ n < r.2) ∨ (x.1 ≤ n ∧ n < x.2) := by omega
      rw [ih, union, covered_cons, or_assoc]

theorem above_joinRange {b : Nat} {r : Nat × Nat} {l : List (Nat × Nat)} (first : b < r.1) (rest : ∀ y ∈ l, b < y.1) :
    ∀ y ∈ joinRange r l, b < y.1 := by
  induction l generalizing r with
  | nil => simpa [joinRange] using first
  | cons x xs ih =>
    obtain ⟨hx, hxs⟩ := List.forall_mem_cons.mp rest
    simp only [joinRange]
    split_ifs
    · exact List.forall_mem_cons.mpr ⟨first, rest⟩
    · exact List.forall_mem_cons.mpr ⟨hx, ih first hxs⟩
    · exact ih (lt_min first hx) hxs

theorem rising_joinRange {r : Nat × Nat} {l : List (Nat × Nat)} (bytes : r.1 < r.2) (h : Rising l) : Rising (joinRange r l) := by
  induction l generalizing r with
  | nil => exact rising_cons.mpr ⟨bytes, by simp, h⟩
  | cons x xs ih =>
    obtain ⟨hx, later, hxs⟩ := rising_cons.mp h
    simp only [joinRange]
    split_ifs with before after
    · exact rising_cons.mpr ⟨bytes, List.forall_mem_cons.mpr ⟨before, fun y hy => before.trans (hx.trans (later y hy))⟩, h⟩
    · exact rising_cons.mpr ⟨hx, above_joinRange after later, ih bytes hxs⟩
    · exact ih (by simp only; omega) hxs

theorem length_absorb (wm : Nat) (l : List (Nat × Nat)) : (absorb wm l).2.length ≤ l.length := by
  induction l generalizing wm with
  | nil => simp [absorb]
  | cons x xs ih =>
    simp only [absorb]
    split
    · exact (ih _).trans (by simp)
    · simp

/-- What is filled stays filled while the watermark passes over it. -/
theorem covered_absorb (wm : Nat) (l : List (Nat × Nat)) (n : Nat) :
    (n < (absorb wm l).1 ∨ Covered (absorb wm l).2 n) ↔ n < wm ∨ Covered l n := by
  induction l generalizing wm with
  | nil => rfl
  | cons x xs ih =>
    simp only [absorb]
    split
    · next reached =>
      have union : n < max wm x.2 ↔ n < wm ∨ (x.1 ≤ n ∧ n < x.2) := by omega
      rw [ih, union, covered_cons, or_assoc]
    · rfl

/-- What is left above the watermark does not start at it. -/
theorem above_absorb {wm : Nat} {l : List (Nat × Nat)} (h : Rising l) : ∀ r ∈ (absorb wm l).2, (absorb wm l).1 < r.1 := by
  induction l generalizing wm with
  | nil => simp [absorb]
  | cons x xs ih =>
    obtain ⟨hx, later, hxs⟩ := rising_cons.mp h
    simp only [absorb]
    split
    · exact ih hxs
    · next above =>
      refine List.forall_mem_cons.mpr ⟨Nat.lt_of_not_le above, fun y hy => ?_⟩
      have := later y hy
      omega

/-- What a channel holds filled: below its watermark, or in a range above it. -/
def Filled (x : CopyChan) (n : Nat) : Prop := n < x.wm ∨ Covered x.fill n

/-- A report where the channel has room for another range. -/
theorem report_room {ch : CopyChan} {lo hi : Nat} (bytes : lo < hi) (room : ch.fill.length < 32) (sorted : Rising ch.fill) :
    ∃ y, report ch lo hi = some y ∧ y.base = ch.base ∧ y.limit = ch.limit ∧ y.wm ≤ ch.limit ∧ (∀ r ∈ y.fill, y.wm < r.1)
      ∧ ∀ n < ch.limit, (Filled y n ↔ Filled ch n ∨ (lo ≤ n ∧ n < hi)) := by
  have kept : ¬ 32 < (absorb ch.wm (joinRange (lo, hi) ch.fill)).2.length := by
    have := length_absorb ch.wm (joinRange (lo, hi) ch.fill)
    have := length_joinRange (lo, hi) ch.fill
    omega
  refine ⟨{ ch with wm := min (absorb ch.wm (joinRange (lo, hi) ch.fill)).1 ch.limit, fill := (absorb ch.wm (joinRange (lo, hi) ch.fill)).2 },
    by simp only [report, if_neg (Nat.not_le.mpr bytes), if_neg kept], rfl, rfl, min_le_right .., fun r hr => ?_, fun n hn => ?_⟩
  · exact (min_le_left ..).trans_lt (above_absorb (rising_joinRange bytes sorted) r hr)
  · have below : n < min (absorb ch.wm (joinRange (lo, hi) ch.fill)).1 ch.limit ↔ n < (absorb ch.wm (joinRange (lo, hi) ch.fill)).1 := by
      simp [hn]
    rw [Filled, below, covered_absorb, covered_joinRange, Filled, or_assoc]
    tauto

/-! ## Channels of a core (R104) -/

@[simp] theorem chanOf_setChan (s : State) (c n : Nat) (v : CopyChan) : chanOf (setChan s c n v) c n = v := by
  simp [chanOf, setChan]

theorem chanOf_setChan_ne (s : State) {c n c' n' : Nat} (v : CopyChan) (h : (c, n) ≠ (c', n')) :
    chanOf (setChan s c n v) c' n' = chanOf s c' n' := by
  by_cases same : c = c'
  · subst same
    have other : n ≠ n' := fun e => h (e ▸ rfl)
    simp [chanOf, setChan, lookD_put_ne _ _ _ other]
  · simp [chanOf, setChan, core_setCore_ne _ _ same]

/-- Of a core, a channel's write touches the channels alone. -/
theorem core_setChan {β : Type} (f : Core → β) (keeps : ∀ k x, f { k with chans := x } = f k) (s : State) (c n : Nat) (v : CopyChan)
    (m : Nat) : f (core (setChan s c n v) m) = f (core s m) := by
  by_cases h : c = m
  · subst h
    simp [setChan, keeps]
  · rw [setChan, core_setCore_ne _ _ h]

/-! ## WATERMARK_REPORT (R104) -/

/-- The bytes of the destination that the next report covers. -/
def nextReport (j : Job) : Nat := j.reported / 256 * 256 + 256

theorem watermarkReport_early (listed : look s.jobs id = some j) (early : j.n * (cardOf j.card).w < nextReport j) :
    watermarkReport id s = none := by
  have early' : j.n * (cardOf j.card).w < j.reported / 256 * 256 + 256 := early
  simp [watermarkReport, listed, early']

theorem watermarkReport_made {y : CopyChan} (listed : look s.jobs id = some j) (mark : j.mark = false)
    (wmk : (cardOf j.card).wmk = true) (acked : nextReport j ≤ j.n * (cardOf j.card).w)
    (made : report (chanOf s j.core (cardOf j.card).chan) (cardOf j.card).dst ((cardOf j.card).dst + nextReport j) = some y) :
    watermarkReport id s = some { setChan s j.core (cardOf j.card).chan y with jobs := put s.jobs id { j with reported := nextReport j } } := by
  have acked' : ¬ j.n * (cardOf j.card).w < j.reported / 256 * 256 + 256 := Nat.not_lt.mpr acked
  have made' : report (chanOf s j.core (cardOf j.card).chan) (cardOf j.card).dst
    ((cardOf j.card).dst + (j.reported / 256 * 256 + 256)) = some y := made
  simp only [watermarkReport, listed, mark, wmk, acked', made', Bool.not_true, decide_false, Bool.or_self, Bool.false_eq_true, if_false,
    Option.map_some]
  rfl

/-! ## The scheduler forgets a job (R99, R100) -/

/-- What is left of a compartment's entries once some are completed: the others, with fewer edges. -/
theorem entry_of_mem_completed {p : Entry → Bool} (h : e ∈ (cmpt (completeEntry s c p) c).entries) :
    ∃ x ∈ (cmpt s c).entries, p x = false
      ∧ e = { x with edges := x.edges.filter fun i => !((((cmpt s c).entries ++ (cmpt s c).arrivals).filter p).map (·.id)).contains i } := by
  simp only [completeEntry, cmpt_setCmpt, List.mem_map, List.mem_filter, Bool.not_eq_true'] at h
  obtain ⟨x, ⟨hx, hp⟩, rfl⟩ := h
  exact ⟨x, hx, hp, rfl⟩

/-- No entry is left under a completed name, nor an edge from it. -/
theorem completeEntry_name (listed : ∃ x ∈ (cmpt s c).entries, x.id = id) :
    ∀ e ∈ (cmpt (completeEntry s c fun e => e.id == id) c).entries, e.id ≠ id ∧ id ∉ e.edges := by
  intro e he
  obtain ⟨x, -, other, rfl⟩ := entry_of_mem_completed he
  obtain ⟨y, hy, rfl⟩ := listed
  refine ⟨by simpa using other, fun edge => ?_⟩
  have gone := (List.mem_filter.mp edge).2
  simp only [Bool.not_eq_true', List.contains_eq_mem, decide_eq_false_iff_not, List.mem_map, List.mem_filter, not_exists, not_and] at gone
  exact gone y ⟨List.mem_append_left _ hy, by simp⟩ rfl

/-- What a sent entry can be: everything that sending one can touch. -/
theorem dispatchEntry_cases (s : State) (c : Nat) (e : Entry) :
    (∃ k n x, dispatchEntry s c e = setTile (setCmpt s c k) n x) ∨ (∃ k n x, dispatchEntry s c e = setThr (setCmpt s c k) n x)
    ∨ (∃ k, dispatchEntry s c e = setCmpt s c k) ∨ ∃ k n j, dispatchEntry s c e = sendJob (setCmpt s c k) c n j := by
  unfold dispatchEntry
  dsimp only
  split
  · split
    · exact .inr (.inl ⟨_, _, _, rfl⟩)
    · exact .inl ⟨_, _, _, rfl⟩
  · split
    · exact .inr (.inr (.inl ⟨_, rfl⟩))
    · split
      · exact .inr (.inr (.inl ⟨_, rfl⟩))
      · exact .inr (.inr (.inr ⟨_, _, _, rfl⟩))
  · exact .inr (.inr (.inl ⟨_, rfl⟩))

/-- A job on its way, at its lead or over a port, changes no core and no context. -/
theorem sendJob_keeps (s : State) (c n : Nat) (j : Job) : (sendJob s c n j).cores = s.cores ∧ (sendJob s c n j).ctxs = s.ctxs := by
  unfold sendJob
  dsimp only
  split
  · split
    · exact ⟨rfl, rfl⟩
    · exact ⟨(kept_sendPacket ..).cores, (kept_sendPacket ..).ctxs⟩
  all_goals exact ⟨rfl, rfl⟩

@[simp] theorem cores_sendJob (s : State) (c n : Nat) (j : Job) : (sendJob s c n j).cores = s.cores := (sendJob_keeps s c n j).1

@[simp] theorem ctxs_sendJob (s : State) (c n : Nat) (j : Job) : (sendJob s c n j).ctxs = s.ctxs := (sendJob_keeps s c n j).2

@[simp] theorem cores_dispatchEntry (s : State) (c : Nat) (e : Entry) : (dispatchEntry s c e).cores = s.cores := by
  rcases dispatchEntry_cases s c e with ⟨k, n, x, h⟩ | ⟨k, n, x, h⟩ | ⟨k, h⟩ | ⟨k, n, j, h⟩ <;> simp [h]

@[simp] theorem ctxs_dispatchEntry (s : State) (c : Nat) (e : Entry) : (dispatchEntry s c e).ctxs = s.ctxs := by
  rcases dispatchEntry_cases s c e with ⟨k, n, x, h⟩ | ⟨k, n, x, h⟩ | ⟨k, h⟩ | ⟨k, n, j, h⟩ <;> simp [h]

/-- After the end of a job's entry: the follow-on is cancelled, is sent, or waits. -/
theorem endEntry_cases (s : State) (c id : Nat) (cancel : Bool) :
    let u := completeEntry s c fun e => e.id == id
    (cancel = true ∧ endEntry s c id cancel = completeEntry u c (isFollow id))
    ∨ (cancel = false ∧ ∃ e, endEntry s c id cancel = dispatchEntry u c e) ∨ (cancel = false ∧ endEntry s c id cancel = u) := by
  unfold endEntry
  dsimp only
  cases cancel
  · right
    simp only [Bool.false_eq_true, if_false, true_and]
    split
    · split
      · exact .inl ⟨_, rfl⟩
      · exact .inr rfl
    · exact .inr rfl
  · exact .inl ⟨rfl, rfl⟩

@[simp] theorem core_endEntry (s : State) (c id : Nat) (cancel : Bool) (m : Nat) : core (endEntry s c id cancel) m = core s m := by
  rcases endEntry_cases s c id cancel with ⟨-, h⟩ | ⟨-, e, h⟩ | ⟨-, h⟩ <;> rw [h]
  · rfl
  · simp only [core, cores_dispatchEntry]; rfl
  · rfl

@[simp] theorem ctx_endEntry (s : State) (c id : Nat) (cancel : Bool) (m : Nat) : ctx (endEntry s c id cancel) m = ctx s m := by
  rcases endEntry_cases s c id cancel with ⟨-, h⟩ | ⟨-, e, h⟩ | ⟨-, h⟩ <;> rw [h]
  · rfl
  · simp only [ctx, ctxs_dispatchEntry]; rfl
  · rfl

/-- The scheduler has forgotten the job, with every edge from it. -/
theorem endEntry_forgets (cancel : Bool) (listed : ∃ x ∈ (cmpt s c).entries, x.id = id) :
    ∀ e ∈ (cmpt (endEntry s c id cancel) c).entries, e.id ≠ id ∧ id ∉ e.edges := by
  have gone := completeEntry_name listed
  rcases endEntry_cases s c id cancel with ⟨-, h⟩ | ⟨-, f, h⟩ | ⟨-, h⟩ <;> rw [h]
  · intro e he
    obtain ⟨x, hx, -, rfl⟩ := entry_of_mem_completed he
    exact ⟨(gone x hx).1, fun edge => (gone x hx).2 (List.mem_filter.mp edge).1⟩
  · rw [entries_dispatchEntry]
    intro e he
    obtain ⟨x, hx, rfl⟩ := List.mem_map.mp he
    split <;> exact gone x hx
  · exact gone

/-- The follow-on of a job that stopped early is cancelled (R100). -/
theorem endEntry_cancels : ∀ e ∈ (cmpt (endEntry s c id true) c).entries, e.job = some id → e.mill = none := by
  intro e he job
  rcases endEntry_cases s c id true with ⟨-, h⟩ | ⟨h, -⟩ | ⟨h, -⟩
  · rw [h] at he
    obtain ⟨x, -, other, rfl⟩ := entry_of_mem_completed he
    simpa [isFollow, show x.job = some id from job] using other
  · cases h
  · cases h

/-! ## JOB_COMPLETION: the first effects (R101) -/

/-- The last watermark advance of a job, where it makes one. -/
def advanced (s : State) (j : Job) (ch : CopyChan) : State :=
  if (cardOf j.card).wmk then setChan s j.core (cardOf j.card).chan ch else s

/-- A job's copy is counted in its barrier as one under way, or as one that has ended (R106). -/
def copyCounted (pending : Bool) (s : State) (j : Job) : State :=
  match j.phase with
  | none => s
  | some (h, q) =>
    match look (ctx s j.ctx).bars (bits h 15 0) with
    | some b => setCtx s j.ctx (setBar (ctx s j.ctx) h (countCopy b q pending))
    | none => s

/-- The report that a job's completion makes: none where it waits; without a watermark the channel stays. -/
def lastReport (s : State) (j : Job) : Option CopyChan :=
  let c := cardOf j.card
  if c.wmk then report (chanOf s j.core c.chan) c.dst (c.dst + j.n * c.w) else some (chanOf s j.core c.chan)

theorem lastReport_wmk (wmk : (cardOf j.card).wmk = true) : lastReport s j = report (chanOf s j.core (cardOf j.card).chan)
    (cardOf j.card).dst ((cardOf j.card).dst + j.n * (cardOf j.card).w) := if_pos wmk

/-- The state before the scheduler learns of the end. -/
def effectsMade (s : State) (j : Job) (ch : CopyChan) : State :=
  copyCounted false (advanced (tick s (cmptOf j.tid) (completionCycle s j)) j ch) j

@[simp] theorem core_copyCounted (pending : Bool) (s : State) (j : Job) (m : Nat) : core (copyCounted pending s j) m = core s m := by
  unfold copyCounted
  (repeat' split) <;> rfl

@[simp] theorem cmpt_copyCounted (pending : Bool) (s : State) (j : Job) (m : Nat) : cmpt (copyCounted pending s j) m = cmpt s m := by
  unfold copyCounted
  (repeat' split) <;> rfl

@[simp] theorem cmpt_advanced (s : State) (j : Job) (ch : CopyChan) (m : Nat) : cmpt (advanced s j ch) m = cmpt s m := by
  unfold advanced
  split <;> rfl

@[simp] theorem ctx_advanced (s : State) (j : Job) (ch : CopyChan) (m : Nat) : ctx (advanced s j ch) m = ctx s m := by
  unfold advanced
  split <;> rfl

theorem bars_copyCounted {h : Nat} {q : BitVec 32} {b : Barrier} (phase : j.phase = some (h, q))
    (listed : look (ctx s j.ctx).bars (h % 2 ^ 16) = some b) :
    look (ctx (copyCounted false s j) j.ctx).bars (h % 2 ^ 16) = some (countCopy b q false) := by
  have no : bits h 15 0 = h % 2 ^ 16 := by simp [bits]
  unfold copyCounted
  simp only [phase, no, listed, ctx_setCtx, setBar, look_put]

/-- Which jobs have published times rests on their compartment's mode, their card and their pages. -/
theorem publishedBytes_congr {t : State} (pkg : t.pkg = s.pkg) (j : Job) (mode : (cmpt t (cmptOf j.tid)).fixt = (cmpt s (cmptOf j.tid)).fixt) :
    publishedBytes t j = publishedBytes s j := by
  unfold publishedBytes
  simp only [pkg, mode]

theorem published_effectsMade (s : State) (j : Job) (ch : CopyChan) : publishedBytes (effectsMade s j ch) j = publishedBytes s j := by
  refine publishedBytes_congr ?_ j ?_
  · have counted (u : State) : (copyCounted false u j).pkg = u.pkg := by
      unfold copyCounted
      (repeat' split) <;> rfl
    have advance (u : State) : (advanced u j ch).pkg = u.pkg := by
      unfold advanced
      split <;> rfl
    rw [effectsMade, counted, advance, pkg_tick]
  · simp [effectsMade]

theorem cycOf_effectsMade (s : State) (j : Job) (ch : CopyChan) :
    cycOf (effectsMade s j ch) (cmptOf j.tid) = max (cycOf s (cmptOf j.tid)) (completionCycle s j) := by
  have same : cycOf (effectsMade s j ch) (cmptOf j.tid) = cycOf (tick s (cmptOf j.tid) (completionCycle s j)) (cmptOf j.tid) := by
    simp [cycOf, effectsMade]
  rw [same, cycOf_tick]

/-- The cycle from which the record can be posted (R209). -/
def recordCycle (s : State) (j : Job) : Nat :=
  let now := max (cycOf s (cmptOf j.tid)) (completionCycle s j)
  if (publishedBytes s j).isSome && !(cardOf j.card).nrec then now + 3 else now

theorem jobEffects_eq (s : State) (id : Nat) (j : Job) : jobEffects s id j = (lastReport s j).map fun ch =>
    { endEntry (effectsMade s j ch) (cmptOf j.tid) id (2 ≤ j.status) with jobs := put s.jobs id { j with ended := some (recordCycle s j) } } := by
  have step : jobEffects s id j = (lastReport s j).map fun ch =>
      { endEntry (effectsMade s j ch) (cmptOf j.tid) id (2 ≤ j.status) with
        jobs := put (effectsMade s j ch).jobs id { j with ended := some (
          if (publishedBytes (effectsMade s j ch) j).isSome && !(cardOf j.card).nrec then cycOf (effectsMade s j ch) (cmptOf j.tid) + 3
          else cycOf (effectsMade s j ch) (cmptOf j.tid)) } } := by
    unfold jobEffects
    dsimp only
    split
    · next waits => rw [show lastReport s j = none from waits]; rfl
    · next ch made => rw [show lastReport s j = some ch from made]; rfl
  have jobs (ch : CopyChan) : (effectsMade s j ch).jobs = s.jobs := by
    unfold effectsMade copyCounted advanced
    (repeat' split) <;> simp [setChan]
  simp only [step, published_effectsMade, cycOf_effectsMade, jobs]
  rfl

theorem recordCycle_unpublished (none_ : publishedBytes s j = none) : recordCycle s j = cycOf s (cmptOf j.tid) := by
  simp [recordCycle, completionCycle, none_]

theorem recordCycle_published {n : Nat} (some_ : publishedBytes s j = some n) :
    recordCycle s j = max (cycOf s (cmptOf j.tid)) (j.sent.getD 0 + 8 + ceilDiv n 64) + if (cardOf j.card).nrec then 0 else 3 := by
  cases nrec : (cardOf j.card).nrec <;> simp [recordCycle, completionCycle, some_, nrec]

/-! ## Records (R101, R102, R186) -/

/-- A record as it enters: a taker can have it from the next cycle on (R379). -/
def stamped (s : State) (c : Nat) (r : LandEntry) : LandEntry := { r with since := cycOf s (cmptOfCore c) + 1 }

/-- A record of a context that is not pre-empted enters the landing, or waits at it while its priority is full. -/
theorem postRecord_here {r : LandEntry} (present : withheld s r.ctx c = false) : postRecord s c r = setCore s c
    (if landingRoom (core s c) r.prio = true then { core s c with landing := (core s c).landing ++ [stamped s c r] }
     else { core s c with heldRecs := (core s c).heldRecs ++ [stamped s c r] }) := by
  unfold postRecord
  simp only [present, Bool.false_eq_true, if_false]
  cases room : landingRoom (core s c) r.prio <;> simp only [Bool.false_eq_true, if_false, if_true]
  · exact if_neg (by simpa [landingRoom] using room)
  · exact if_pos (by simpa [landingRoom] using room)

theorem landingRoom_iff {k : Core} {p : Nat} : landingRoom k p = true ↔ atPrio k p < 16 ∧ ∀ x ∈ k.heldRecs, x.prio ≠ p := by
  simp [landingRoom]

theorem axis_le (clip : Bool) (o : Int) (n b : Nat) : (axis clip o n b).2 ≤ n := by
  unfold axis
  split
  · exact le_rfl
  · dsimp only
    omega

theorem half_lt (w i : Nat) : bits w (16 * i + 15) (16 * i) < 2 ^ 16 := by
  rw [bits, show 16 * i + 15 + 1 - 16 * i = 16 from by omega]
  exact Nat.mod_lt _ (by norm_num)

/-- The extents of a card fit in 16 bits (R88). -/
theorem extents_lt (ws : List Word) : (cardOf ws).e0 < 2 ^ 16 ∧ (cardOf ws).e1 < 2 ^ 16 ∧ (cardOf ws).e2 < 2 ^ 16 :=
  ⟨half_lt _ 0, half_lt _ 1, half_lt _ 2⟩

/-- Whether a job had nothing to copy. -/
def emptyBox (j : Job) : Bool :=
  let c := cardOf j.card
  c.count == 0 || ((c.op == 0 || c.op == 4) && ((axis c.clip c.o0 c.e0 c.b0).2 == 0 || (axis c.clip c.o1 c.e1 c.b1).2 == 0
    || (axis c.clip c.o2 c.e2 c.b2).2 == 0)) || (c.indexed && j.clipRows == c.e1)

/-- The first word of a completion record: kind, status, channel and tag (R102). -/
theorem recordWords_head (j : Job) (fcan : Bool) :
    let w := (recordWords j fcan).getD 0 0
    (j.status < 2 ^ 8 → w / 2 ^ 56 = 0x10 ∧ w / 2 ^ 48 % 2 ^ 8 = j.status) ∧ w % 2 ^ 32 = (cardOf j.card).tag
    ∧ w / 2 ^ 36 % 2 ^ 4 = (cardOf j.card).chan := by
  intro w
  have chan : (cardOf j.card).chan < 2 ^ 4 := Nat.mod_lt _ (by norm_num)
  have tag : (cardOf j.card).tag < 2 ^ 32 := Nat.mod_lt _ (by norm_num)
  obtain ⟨empty, sum⟩ : ∃ empty : Bool, w = 0x10 * 2 ^ 56 + j.status * 2 ^ 48
      + (fcan.toNat * 2 ^ 43 + empty.toNat * 2 ^ 42 + j.clipd.toNat * 2 ^ 41 + (cardOf j.card).chan * 2 ^ 36 + (cardOf j.card).tag) := by
    refine ⟨emptyBox j, ?_⟩
    simp only [w, recordWords, List.getD_cons_zero, bitAt_eq, Nat.add_assoc, emptyBox]
  have := fcan.toNat_le
  have := empty.toNat_le
  have := j.clipd.toNat_le
  omega

/-- The other words: the elements written, and the refcount above the extent of the box (R102). -/
theorem recordWords_rest (j : Job) (fcan : Bool) :
    (recordWords j fcan).length = 4 ∧ (recordWords j fcan).getD 1 0 = j.n % 2 ^ 48 ∧ (recordWords j fcan).getD 3 0 / 2 ^ 48 = j.refc := by
  obtain ⟨h0, h1, h2⟩ := extents_lt j.card
  have f0 := axis_le (cardOf j.card).clip (cardOf j.card).o0 (cardOf j.card).e0 (cardOf j.card).b0
  have f1 := axis_le (cardOf j.card).clip (cardOf j.card).o1 (cardOf j.card).e1 (cardOf j.card).b1
  have f2 := axis_le (cardOf j.card).clip (cardOf j.card).o2 (cardOf j.card).e2 (cardOf j.card).b2
  refine ⟨rfl, rfl, ?_⟩
  simp only [recordWords, List.getD_cons_succ, List.getD_cons_zero]
  split <;> omega

/-! ## `yrd.stop` learns of the end (R105, R405) -/

theorem chanOf_openChan (s : State) (c n c' n' : Nat) : chanOf (openChan s c n) c' n' =
    if (c, n) = (c', n') then { chanOf s c' n' with wm := (chanOf s c' n').limit, fill := [] } else chanOf s c' n' := by
  unfold openChan
  split
  · next same => cases same; exact chanOf_setChan ..
  · next other => exact chanOf_setChan_ne _ _ other

/-- Of many channels that are opened, each stands open and no other has changed. -/
theorem chanOf_foldl_openChan (l : List (Nat × Nat)) (s : State) (c n : Nat) :
    chanOf (l.foldl (fun s x => openChan s x.1 x.2) s) c n =
      if (c, n) ∈ l then { chanOf s c n with wm := (chanOf s c n).limit, fill := [] } else chanOf s c n := by
  induction l generalizing s with
  | nil => rfl
  | cons x l ih =>
    rw [List.foldl_cons, ih, chanOf_openChan]
    by_cases first : (x.1, x.2) = (c, n)
    · simp [show x = (c, n) from first]
    · have other : (c, n) ≠ x := fun h => first h.symm
      simp [first, other]

/-- Of a core, opened channels touch the channels alone. -/
theorem core_foldl_openChan {β : Type} (f : Core → β) (keeps : ∀ k x, f { k with chans := x } = f k) (l : List (Nat × Nat)) (s : State)
    (m : Nat) : f (core (l.foldl (fun s x => openChan s x.1 x.2) s) m) = f (core s m) :=
  foldl_field (fun s => f (core s m)) (fun s (x : Nat × Nat) => openChan s x.1 x.2)
    (fun s x => by unfold openChan; exact core_setChan f keeps s x.1 x.2 _ m) l s

/-- A thread that is told of the end of a job. -/
def toldThread (id : Nat) (stopped : Bool) (t : Thread) : Thread := { t with stopping := t.stopping.map fun x => x.told id stopped }

theorem thr_tellStop (s : State) (id : Nat) (stopped : Bool) (t : Nat) : thr (tellStop s id stopped) t = toldThread id stopped (thr s t) := by
  have threads : (tellStop s id stopped).threads = s.threads.map fun p => (p.1, toldThread id stopped p.2) :=
    foldl_field State.threads (fun s (x : Nat × Nat) => openChan s x.1 x.2) (fun _ _ => rfl) _ _
  simp only [thr, lookD, threads]
  rw [look_map s.threads fun _ => toldThread id stopped]
  cases look s.threads t <;> rfl

/-- What the end of a job leaves of a thread that waits for it. -/
theorem stopping_tellStop {th : Nat} {x : StopWait} (stopped : Bool) (waits : (thr s th).stopping = some x) (named : id ∈ x.jobs) :
    (thr (tellStop s id stopped) th).stopping
      = some { x with jobs := x.jobs.filter (fun i => i != id), ended := x.ended + if stopped then 1 else 0 } := by
  rw [thr_tellStop]
  simp [toldThread, waits, StopWait.told, named]

/-- The last job that a thread waits for opens its channel (R105). -/
theorem chanOf_tellStop {th n : Nat} {x : StopWait} (stopped : Bool) (waits : (thr s th).stopping = some x) (named : id ∈ x.jobs)
    (chan : x.chan = some n) (last : ∀ i ∈ x.jobs, i = id) :
    chanOf (tellStop s id stopped) (coreOf th) n = { chanOf s (coreOf th) n with wm := (chanOf s (coreOf th) n).limit, fill := [] } := by
  have listed : (th, thr s th) ∈ s.threads := by
    refine mem_of_look (n := th) ?_
    cases h : look s.threads th with
    | none => simp [thr, lookD, h] at waits
    | some t => simp [thr, lookD, h]
  have opens : (coreOf th, n) ∈ s.threads.filterMap fun p => (p.2.stopping.bind fun x => x.opens id).map fun n => (coreOf p.1, n) := by
    refine List.mem_filterMap.mpr ⟨_, listed, ?_⟩
    simpa [waits, StopWait.opens, named, chan] using last
  rw [tellStop, chanOf_foldl_openChan, if_pos opens]
  rfl

/-- Of a core, the end of a job that is told touches the channels alone. -/
theorem core_tellStop {β : Type} (f : Core → β) (keeps : ∀ k x, f { k with chans := x } = f k) (s : State) (id : Nat) (stopped : Bool)
    (m : Nat) : f (core (tellStop s id stopped) m) = f (core s m) := core_foldl_openChan f keeps _ _ m

theorem jobs_tellStop (s : State) (id : Nat) (stopped : Bool) : (tellStop s id stopped).jobs = s.jobs :=
  foldl_field State.jobs (fun s (x : Nat × Nat) => openChan s x.1 x.2) (fun _ _ => rfl) _ _

theorem cmpts_tellStop (s : State) (id : Nat) (stopped : Bool) : (tellStop s id stopped).cmpts = s.cmpts :=
  foldl_field State.cmpts (fun s (x : Nat × Nat) => openChan s x.1 x.2) (fun _ _ => rfl) _ _

/-! ## JOB_COMPLETION: the record (R101, R102) -/

/-- The record of a job's completion. -/
def jobRecordEntry (s : State) (j : Job) : LandEntry :=
  recordEntry s j 0x10 (cardOf j.card).prio (recordWords j (2 ≤ j.status && j.follow.isSome))

/-- The state in which the record is posted, where the job asks for one. -/
def recorded (s : State) (j : Job) (at_ : Nat) : State :=
  let u := tick s (cmptOf j.tid) at_
  if (cardOf j.card).nrec then u else postRecord u j.core (jobRecordEntry u j)

theorem jobRecord_eq (s : State) (id : Nat) (j : Job) (at_ : Nat) :
    jobRecord s id j at_ = tellStop { recorded s j at_ with jobs := del (recorded s j at_).jobs id } id (j.status == 7) := rfl

theorem recorded_none {at_ : Nat} (nrec : (cardOf j.card).nrec = true) : recorded s j at_ = tick s (cmptOf j.tid) at_ := if_pos nrec

theorem recorded_some {at_ : Nat} (nrec : (cardOf j.card).nrec = false) (present : withheld s j.ctx j.core = false) :
    let u := tick s (cmptOf j.tid) at_
    let r := stamped u j.core (jobRecordEntry u j)
    recorded s j at_ = setCore u j.core
      (if landingRoom (core s j.core) (cardOf j.card).prio = true then { core s j.core with landing := (core s j.core).landing ++ [r] }
       else { core s j.core with heldRecs := (core s j.core).heldRecs ++ [r] }) := by
  intro u r
  have present' : withheld u (jobRecordEntry u j).ctx j.core = false := by
    rw [show (jobRecordEntry u j).ctx = j.ctx from rfl]
    simpa [withheld, u] using present
  have step : recorded s j at_ = postRecord u j.core (jobRecordEntry u j) := by simp [recorded, nrec, u]
  rw [step, postRecord_here present', show core u j.core = core s j.core from core_tick ..]
  rfl

/-- A record changes no clock, no thread and no list of jobs, and of a core no channel. -/
theorem recorded_keeps {at_ : Nat} (present : withheld s j.ctx j.core = false) :
    (recorded s j at_).cmpts = (tick s (cmptOf j.tid) at_).cmpts ∧ (recorded s j at_).threads = s.threads
    ∧ (recorded s j at_).jobs = s.jobs ∧ ∀ m, (core (recorded s j at_) m).chans = (core s m).chans := by
  cases nrec : (cardOf j.card).nrec with
  | true => simp [recorded_none nrec]
  | false =>
    rw [recorded_some nrec present]
    refine ⟨rfl, by simp, by simp, fun m => ?_⟩
    by_cases same : j.core = m
    · subst same
      rw [core_setCore]
      split <;> rfl
    · rw [core_setCore_ne _ _ same, core_tick]

/-! ## The obligation -/

theorem does_watermarkReport (power : s.power = true) (listed : look s.jobs id = some j) (mark : j.mark = false)
    (wmk : (cardOf j.card).wmk = true) (room : (chanOf s j.core (cardOf j.card).chan).fill.length < 32)
    (sorted : Rising (chanOf s j.core (cardOf j.card).chan).fill) (acked : nextReport j ≤ j.n * (cardOf j.card).w) :
    Does s (.watermarkReport id) fun t => SameMemory s t ∧ look t.jobs id = some { j with reported := nextReport j }
      ∧ let ch := chanOf s j.core (cardOf j.card).chan
        let y := chanOf t j.core (cardOf j.card).chan
        y.base = ch.base ∧ y.limit = ch.limit ∧ y.wm ≤ ch.limit ∧ (∀ r ∈ y.fill, y.wm < r.1)
          ∧ ∀ n : Nat, n < ch.limit → (Filled y n ↔ Filled ch n ∨ ((cardOf j.card).dst ≤ n ∧
            n < (cardOf j.card).dst + nextReport j)) := by
  have bytes : (cardOf j.card).dst < (cardOf j.card).dst + nextReport j := by unfold nextReport; omega
  obtain ⟨y, made, spec⟩ := report_room bytes room sorted
  refine does_event power rfl (watermarkReport_made listed mark wmk acked made) rfl fun memory => ⟨memory, look_put .., ?_⟩
  intro ch z
  have channel : z = y := chanOf_setChan ..
  rw [channel]
  exact spec

theorem jobCompletion_first (listed : look s.jobs id = some j) (mark : j.mark = false) (finished : j.finished = true)
    (first : j.ended = none) : jobCompletion id s = jobEffects s id j := by simp [jobCompletion, listed, mark, finished, first]

theorem jobCompletion_last {at_ : Nat} (listed : look s.jobs id = some j) (mark : j.mark = false) (finished : j.finished = true)
    (ended : j.ended = some at_) : jobCompletion id s = some (jobRecord s id j at_) := by
  simp [jobCompletion, listed, mark, finished, ended]

/-- The first effects of completion, in the words of the statement. -/
theorem does_jobEffects (power : s.power = true) (listed : look s.jobs id = some j) (mark : j.mark = false) (finished : j.finished = true)
    (first : j.ended = none) (entered : ∃ e ∈ (cmpt s (cmptOf j.tid)).entries, e.id = id) {ch : CopyChan} (made : lastReport s j = some ch) :
    let c := cardOf j.card
    let k := cmptOf j.tid
    Does s (.jobCompletion id) fun t => SameMemory s t
      ∧ (∃ at_, look t.jobs id = some { j with ended := some at_ } ∧ (publishedBytes s j = none → at_ = cycOf s k)
        ∧ ∀ n, publishedBytes s j = some n → at_ = max (cycOf s k) (j.sent.getD 0 + 8 + ceilDiv n 64) + if c.nrec then 0 else 3)
      ∧ (∀ e ∈ (cmpt t k).entries, e.id ≠ id ∧ id ∉ e.edges)
      ∧ (2 ≤ j.status → ∀ e ∈ (cmpt t k).entries, e.job = some id → e.mill = none)
      ∧ (∀ (h : Nat) (q : BitVec 32) (b : Barrier), j.phase = some (h, q) → look (ctx s j.ctx).bars (h % 2 ^ 16) = some b →
        look (ctx t j.ctx).bars (h % 2 ^ 16) = some (countCopy b q false))
      ∧ (c.wmk = false → core t j.core = core s j.core)
      ∧ (c.wmk = true → chanOf t j.core c.chan = ch) := by
  intro c k
  let v := effectsMade s j ch
  have step : jobCompletion id s = some { endEntry v k id (2 ≤ j.status) with
      jobs := put s.jobs id { j with ended := some (recordCycle s j) } } := by
    rw [jobCompletion_first listed mark finished first, jobEffects_eq, made]
    rfl
  have entered' : ∃ e ∈ (cmpt v k).entries, e.id = id := by simpa [v, effectsMade, k] using entered
  have core_v (m : Nat) : core v m = core (advanced (tick s k (completionCycle s j)) j ch) m := core_copyCounted ..
  refine does_event power rfl step (mem_of_some (mem_jobCompletion id s) step) fun memory => ⟨memory,
    ⟨recordCycle s j, look_put .., recordCycle_unpublished, fun n => recordCycle_published⟩, endEntry_forgets _ entered',
    fun early => ?_, fun h q b phase bar => ?_, fun wmk => ?_, fun wmk => ?_⟩
  · rw [decide_eq_true early]
    exact endEntry_cancels
  · have same : ctx (endEntry v k id (2 ≤ j.status)) j.ctx = ctx v j.ctx := ctx_endEntry ..
    exact (congrArg (fun x => look x.bars (h % 2 ^ 16)) same).trans (bars_copyCounted phase (by simpa using bar))
  · refine (core_endEntry ..).trans ((core_v _).trans ?_)
    rw [advanced, show (cardOf j.card).wmk = false from wmk]
    exact core_tick ..
  · have same : core (endEntry v k id (2 ≤ j.status)) j.core = core (setChan (tick s k (completionCycle s j)) j.core c.chan ch) j.core :=
      (core_endEntry ..).trans ((core_v _).trans (by rw [advanced, if_pos wmk]))
    exact (congrArg (fun x : Core => lookD x.chans c.chan {}) same).trans (chanOf_setChan ..)

/-- The record and the end of a job, in the words of the statement. -/
theorem does_jobRecord {at_ : Nat} (power : s.power = true) (listed : look s.jobs id = some j) (mark : j.mark = false)
    (finished : j.finished = true) (ended : j.ended = some at_) (sorted : rising s.jobs = true)
    (present : withheld s j.ctx j.core = false) :
    let c := cardOf j.card
    let room := atPrio (core s j.core) c.prio < 16 ∧ ∀ x ∈ (core s j.core).heldRecs, x.prio ≠ c.prio
    Does s (.jobCompletion id) fun t => SameMemory s t ∧ look t.jobs id = none ∧ at_ ≤ cycOf t (cmptOf j.tid)
      ∧ (∀ (th : Nat) (x : StopWait), (thr s th).stopping = some x → id ∈ x.jobs →
        (thr t th).stopping = some { x with jobs := x.jobs.filter (fun i => i != id), ended := x.ended + if j.status = 7 then 1 else 0 }
        ∧ ∀ n, x.chan = some n → (∀ i ∈ x.jobs, i = id) →
          (chanOf t (coreOf th) n).wm = (chanOf s (coreOf th) n).limit ∧ (chanOf t (coreOf th) n).fill = [])
      ∧ (c.nrec = true → (core t j.core).landing = (core s j.core).landing ∧ (core t j.core).heldRecs = (core s j.core).heldRecs)
      ∧ (c.nrec = false → ∃ (r : LandEntry) (fcan : Bool), r.kind = 0x10 ∧ r.len = 32 ∧ r.prio = c.prio ∧ r.ctx = j.ctx
        ∧ r.stid = j.stid ∧ r.data = wordBytes (recordWords j fcan)
        ∧ (room → (core t j.core).landing = (core s j.core).landing ++ [r])
        ∧ (¬room → (core t j.core).heldRecs = (core s j.core).heldRecs ++ [r])) := by
  intro c room
  obtain ⟨cmpts, threads, jobs, chans⟩ := recorded_keeps (at_ := at_) present
  let v : State := { recorded s j at_ with jobs := del (recorded s j at_).jobs id }
  have step : jobCompletion id s = some (tellStop v id (j.status == 7)) := jobCompletion_last listed mark finished ended
  have landing : (core (tellStop v id (j.status == 7)) j.core).landing = (core (recorded s j at_) j.core).landing :=
    core_tellStop Core.landing (fun _ _ => rfl) ..
  have heldRecs : (core (tellStop v id (j.status == 7)) j.core).heldRecs = (core (recorded s j at_) j.core).heldRecs :=
    core_tellStop Core.heldRecs (fun _ _ => rfl) ..
  refine does_event power rfl step (mem_of_some (mem_jobCompletion id s) step) fun memory => ⟨memory, ?_, ?_, fun th x waits named => ?_,
    fun nrec => ?_, fun nrec => ?_⟩
  · rw [jobs_tellStop]
    exact (congrArg (fun t => look (del t id) id) jobs).trans (look_del sorted id)
  · have clock : cycOf (tellStop v id (j.status == 7)) (cmptOf j.tid) = max (cycOf s (cmptOf j.tid)) at_ := by
      rw [← cycOf_tick]
      simp only [cycOf, cmpt, cmpts_tellStop]
      exact congrArg (fun t => (lookD t (cmptOf j.tid) {}).cyc) cmpts
    rw [clock]
    exact le_max_right ..
  · have waits' : (thr v th).stopping = some x := (congrArg (fun t => (lookD t th {}).stopping) threads).trans waits
    have channel (n : Nat) : chanOf v (coreOf th) n = chanOf s (coreOf th) n := congrArg (fun x : Tab CopyChan => lookD x n {}) (chans (coreOf th))
    refine ⟨by simpa using stopping_tellStop (j.status == 7) waits' named, fun n chan last => ?_⟩
    rw [chanOf_tellStop _ waits' named chan last, channel]
    exact ⟨rfl, rfl⟩
  · rw [landing, heldRecs, recorded_none nrec, core_tick]
    exact ⟨rfl, rfl⟩
  · rw [landing, heldRecs, recorded_some nrec present, core_setCore]
    refine ⟨stamped (tick s (cmptOf j.tid) at_) j.core (jobRecordEntry (tick s (cmptOf j.tid) at_) j), decide (2 ≤ j.status) && j.follow.isSome,
      rfl, rfl, rfl, rfl, rfl, rfl, fun free => ?_, fun full => ?_⟩
    · rw [if_pos (landingRoom_iff.mpr free)]
    · rw [if_neg fun h => full (landingRoom_iff.mp h)]

/-- Settles O41: a report by the ranges that it joins (`report_room`), the effects of completion in their order (`does_jobEffects`), and
the record with what `yrd.stop` learns (`does_jobRecord`). -/
theorem jobCompletion_holds : Obligations.JobCompletion := by
  unfold Obligations.JobCompletion
  intro s id j power listed mark
  refine ⟨fun room bytes sorted wmk => ⟨fun early => event_of_none power (watermarkReport_early listed early), fun acked =>
    does_watermarkReport power listed mark wmk room ⟨bytes, sorted⟩ acked⟩, fun working => ?_, fun finished first entered _ => ?_,
    fun at_ finished ended sorted present => ?_⟩
  · exact event_of_none power (by simp [jobCompletion, listed, working])
  · refine ⟨fun wmk waits => event_of_none power ?_, fun makes => ?_⟩
    · rw [jobCompletion_first listed mark finished first, jobEffects_eq, (lastReport_wmk wmk).trans waits]
      rfl
    · obtain ⟨ch, made⟩ : ∃ ch, lastReport s j = some ch := by
        cases wmk : (cardOf j.card).wmk with
        | false => exact ⟨_, by simp only [lastReport, wmk]; rfl⟩
        | true => exact Option.isSome_iff_exists.mp ((congrArg Option.isSome (lastReport_wmk wmk)).trans (makes wmk))
      obtain ⟨t, run, memory, record, forgets, cancels, bars, cores, channel⟩ :=
        does_jobEffects power listed mark finished first entered made
      refine ⟨t, run, memory, record, forgets, cancels, bars, cores, fun y wmk reported => (channel wmk).trans ?_⟩
      exact Option.some.inj (made.symm.trans ((lastReport_wmk wmk).trans reported))
  · obtain ⟨t, run, memory, gone, late, told, quiet, posted⟩ := does_jobRecord power listed mark finished ended sorted present
    refine ⟨t, run, memory, gone, late, told, quiet, fun nrec => ?_⟩
    obtain ⟨r, fcan, kind, len, prio, ctx_, stid, data, free, full⟩ := posted nrec
    obtain ⟨status, tag, chan⟩ := recordWords_head j fcan
    obtain ⟨length, written, refc⟩ := recordWords_rest j fcan
    exact ⟨r, recordWords j fcan, kind, len, prio, ctx_, stid, data, length, status, tag, chan, written, refc, free, full⟩

end Sys2Proof.Machine
end

section
/-! SUPPORT. Job instructions, channels and stopping (R84-R108, R402-R409): what a page walk of a unit leaves, how a job enters the
scheduler, and how an instruction of one result ends. -/

namespace Sys2Proof.Machine

variable {s t u v : State}

/-! ## What a walk leaves (R48, R55, R227) -/

/-- What the walks of a unit leave as it was: of a compartment they touch the scalers alone. -/
structure Walked (s t : State) : Prop where
  mem : t.mem = s.mem
  threads : t.threads = s.threads
  jobs : t.jobs = s.jobs
  reqs : t.reqs = s.reqs
  ids : t.ids = s.ids
  cur : t.cur = s.cur
  cmpt : ∀ k, ∃ x, cmpt t k = { cmpt s k with scalers := x }

namespace Walked

theorem refl (s : State) : Walked s s := ⟨rfl, rfl, rfl, rfl, rfl, rfl, fun _ => ⟨_, rfl⟩⟩

theorem trans (h : Walked s t) (g : Walked t u) : Walked s u where
  mem := g.mem.trans h.mem
  threads := g.threads.trans h.threads
  jobs := g.jobs.trans h.jobs
  reqs := g.reqs.trans h.reqs
  ids := g.ids.trans h.ids
  cur := g.cur.trans h.cur
  cmpt k := by
    obtain ⟨x, hx⟩ := h.cmpt k
    obtain ⟨y, hy⟩ := g.cmpt k
    exact ⟨y, by rw [hy, hx]⟩

theorem foldl {α : Type} {f : State → α → State} (h : ∀ s x, Walked s (f s x)) (l : List α) (s : State) : Walked s (l.foldl f s) := by
  induction l generalizing s with
  | nil => exact refl _
  | cons x l ih => exact (h s x).trans (ih _)

theorem scale (s : State) (c ev n : Nat) : Walked s (Machine.scale s c ev n) := by
  unfold Machine.scale
  dsimp only
  split
  · exact refl _
  · refine ⟨rfl, rfl, rfl, rfl, rfl, rfl, fun k => ?_⟩
    by_cases same : c = k
    · subst same
      exact ⟨_, cmpt_setCmpt ..⟩
    · exact ⟨_, cmpt_setCmpt_ne _ _ same⟩

theorem logErr (s : State) (err : Nat) (last inj : Bool) (act src place det : Nat) :
    Walked s (Machine.logErr s err last inj act src place det) := by
  unfold Machine.logErr
  split <;> exact ⟨rfl, rfl, rfl, rfl, rfl, rfl, fun _ => ⟨_, rfl⟩⟩

/-- What the firmware does about a word: it forgets a transient error, and maps out the core of a store that stays unreadable. -/
theorem acted (s : State) (f : Flaw) (k : Nat) (store : Option Nat) : Walked s
    (if !f.lasting then { s with flaws := del s.flaws k }
     else match store with
       | some c => if f.inj then s else mapOutCore s c
       | none => s) := by
  split
  · exact ⟨rfl, rfl, rfl, rfl, rfl, rfl, fun _ => ⟨_, rfl⟩⟩
  · split
    · split
      · exact refl _
      · exact ⟨rfl, rfl, rfl, rfl, rfl, rfl, fun _ => ⟨_, rfl⟩⟩
    · exact refl _

theorem logEcc (s : State) (pa : Nat) (f : Flaw) : Walked s (Machine.logEcc s pa f) := (logErr ..).trans (acted ..)

theorem noteErrors (s : State) (pkg pa n : Nat) : Walked s (Machine.noteErrors s pkg pa n) := by
  unfold Machine.noteErrors
  split
  · exact refl _
  · refine foldl (fun s i => ?_) _ s
    dsimp only
    split
    · split
      · exact logEcc ..
      · exact refl _
    · exact refl _

theorem noteWrite (s : State) (pkg pa n : Nat) : Walked s (Machine.noteWrite s pkg pa n) := by
  unfold Machine.noteWrite
  dsimp only
  split
  · split
    · exact (noteErrors ..).trans (noteErrors ..)
    · exact noteErrors ..
  · split
    · exact noteErrors ..
    · exact refl s

theorem noteWalk (s : State) (n va : Nat) : Walked s (Machine.noteWalk s n va) := by
  unfold Machine.noteWalk
  split
  · exact refl _
  · exact foldl (fun s pa => noteErrors s ..) _ s

theorem install (s : State) (tl : Nat) (l : Leaf) : Walked s (Machine.install s tl l) := ⟨rfl, rfl, rfl, rfl, rfl, rfl, fun _ => ⟨_, rfl⟩⟩

/-- A leaf that is had at once, cached or walked for. -/
theorem leafNow {w : Asker} {va : Nat} {l : Leaf} (h : Machine.leafNow s w va = (.ok l, t)) : Walked s t := by
  unfold Machine.leafNow at h
  split at h
  · cases h
    exact refl _
  · split at h
    · cases h
    · dsimp only at h
      split at h
      · cases h
      · cases h
        exact ((scale ..).trans (noteWalk ..)).trans (install ..)

theorem capture {tid hi : Nat} {rd w : Bool} {ps : List Page} (fuel : Nat) {s : State} {va : Nat}
    (h : Machine.capture s tid rd w hi fuel va = (.ok ps, t)) : Walked s t := by
  induction fuel generalizing s va ps with
  | zero =>
    cases h
    exact refl _
  | succ fuel ih =>
    have rest {s : State} {p : Page} {next : Nat} (h : (match Machine.capture s tid rd w hi fuel next with
        | (.error e, s) => (.error e, s) | (.ok ps, s) => (.ok (p :: ps), s)) = ((.ok ps, t) : Except Chk (List Page) × State)) :
        Walked s t := by
      split at h
      · cases h
      · next got =>
        cases h
        exact ih got
    simp only [Machine.capture] at h
    split at h
    · cases h
      exact refl _
    · split at h
      · cases h
      · split at h
        · split at h
          · cases h
          · exact rest h
        · split at h
          · cases h
          · next found =>
            split at h
            · cases h
            · exact (leafNow found).trans (rest h)

theorem captureAll {tid : Nat} {l : List ((Nat × Nat) × Bool × Bool)} {ps : List Page} {s : State}
    (h : Machine.captureAll s tid l = (.ok ps, t)) : Walked s t := by
  induction l generalizing s ps with
  | nil =>
    cases h
    exact refl _
  | cons x l ih =>
    simp only [Machine.captureAll] at h
    split at h
    · cases h
    · next first =>
      split at h
      · cases h
      · next others =>
        cases h
        exact (capture _ first).trans (ih others)

/-- The checks of a card that passes (R92). -/
theorem cardChecks {tid kind : Nat} {ws : List Word} {f : Option MillOp} {r : List Page × Option (Nat × BitVec 32)}
    (h : Machine.cardChecks s tid kind ws f = .ok r t) : Walked s t := by
  unfold Machine.cardChecks at h
  dsimp only at h
  split at h
  · cases h
  split at h
  · cases h
  split at h
  · cases h
  split at h
  · cases h
  next got =>
  split at h
  · cases h
  split at h
  · cases h
  split at h
  · cases h
  split at h
  · cases h
  cases h
  exact captureAll got

/-- The checks of a marking job that passes (R201). -/
theorem markChecks {tid : Nat} {m : Marking} {ps : List Page} (h : Machine.markChecks s tid m = .ok ps t) : Walked s t := by
  unfold Machine.markChecks at h
  dsimp only at h
  split at h
  · cases h
  next got =>
  split at h
  · cases h
  split at h
  · cases h
  split at h
  · cases h
  cases h
  exact captureAll got

theorem cycOf (h : Walked s t) (k : Nat) : cycOf t k = Machine.cycOf s k := by
  obtain ⟨x, hx⟩ := h.cmpt k
  simp [Machine.cycOf, hx]

theorem thr (h : Walked s t) (n : Nat) : thr t n = Machine.thr s n := by simp only [Machine.thr, h.threads]

theorem arrivals (h : Walked s t) (k : Nat) : (Machine.cmpt t k).arrivals = (Machine.cmpt s k).arrivals := by
  obtain ⟨x, hx⟩ := h.cmpt k
  rw [hx]

theorem jobCount (h : Walked s t) (c : Nat) : jobCount t c = Machine.jobCount s c := by rw [Machine.jobCount, h.jobs]; rfl

theorem schedCount (h : Walked s t) (k : Nat) : schedCount t k = Machine.schedCount s k := by
  obtain ⟨x, hx⟩ := h.cmpt k
  simp only [Machine.schedCount, hx, h.jobs]

end Walked

/-! ## One result (R290) -/

/-- The issuing thread with other read-ahead and without what it waited for in `yrd.stop`: what the instructions of this family leave. -/
def otherwise (x : Thread) (a : Tab Stream) (b : Option StopWait) : Thread := { x with streams := a, stopping := b }

theorem toNat_ne {r q : Reg} (h : r ≠ q) : r.toNat ≠ q.toNat := fun e => h (BitVec.eq_of_toNat_eq e)

/-- A thread keeps what an instruction leaves where its registers, modes and trap registers are the issuer's (R246, R254, R255). -/
structure Leaves (s : State) (y : Thread) (ds : List Reg) : Prop where
  regs : ∀ r : Reg, r ∉ ds → getX y r.toNat = reg s r
  flags : y.flags = (issuer s).flags
  rm : y.rm = (issuer s).rm
  wsp : y.wsp = (issuer s).wsp
  depth : y.depth = (issuer s).depth
  other : otherWin y = otherWin (issuer s)
  prv : y.prv = (issuer s).prv
  it : y.it = (issuer s).it
  pprv : y.pprv = (issuer s).pprv
  tepc : y.tepc = (issuer s).tepc
  tca : y.tca = (issuer s).tca
  tval : y.tval = (issuer s).tval

theorem Leaves.restKept {y : Thread} {ds : List Reg} (h : Leaves s y ds) (here : thr t s.cur = y) : RestKept s t ds := by
  subst here
  exact ⟨h.regs, h.flags, h.rm, h.wsp, h.depth, h.other, h.prv, h.it, h.pprv, h.tepc, h.tca, h.tval⟩

theorem getX_otherwise (x : Thread) (a : Tab Stream) (b : Option StopWait) (d : Reg) (n r : Nat) :
    getX (overtake (otherwise x a b) d n) r = getX x r := rfl

theorem leaves_otherwise (d : Reg) (w : Word) (a : Tab Stream) (b : Option StopWait) (n : Nat) :
    Leaves s (setX (overtake (otherwise (issuer s) a b) d n) d.toNat w) [d] := by
  have kept : Leaves s (overtake (otherwise (issuer s) a b) d n) [] :=
    ⟨fun _ _ => getX_otherwise .., rfl, rfl, rfl, rfl, rfl, rfl, rfl, rfl, rfl, rfl, rfl⟩
  generalize overtake (otherwise (issuer s) a b) d n = y at kept
  refine ⟨fun r other => ?_, (setX_flags ..).trans kept.flags, (setX_rm ..).trans kept.rm, (setX_wsp ..).trans kept.wsp,
    (setX_depth ..).trans kept.depth, (otherWin_setX ..).trans kept.other, (setX_prv ..).trans kept.prv, (setX_it ..).trans kept.it,
    (setX_pprv ..).trans kept.pprv, (setX_tepc ..).trans kept.tepc, (setX_tca ..).trans kept.tca, (setX_tval ..).trans kept.tval⟩
  exact (getX_setX_ne _ _ (toNat_ne fun e => other (by simp [e]))).trans (kept.regs r (by simp))

/-- A thread that goes on with a result in its register. -/
theorem gives_goes {y : Thread} {d : Reg} {w : Word} {n : Nat} (h : Leaves s y [d]) (value : d ≠ 0 → getX y d.toNat = w) :
    Gives s (goes s t y (nextAt s 4) n) d w := by
  have kept : Leaves s (thr (goes s t y (nextAt s 4) n) s.cur) [d] := by
    rw [thr_goes]
    exact ⟨h.regs, h.flags, h.rm, h.wsp, h.depth, h.other, h.prv, h.it, h.pprv, h.tepc, h.tca, h.tval⟩
  refine ⟨⟨by rw [thr_goes], kept.restKept rfl⟩, fun named => ?_⟩
  rw [thr_goes]
  exact value named

/-- An instruction of 4 bytes whose effect ends in one result of class A goes on with the result in its register. -/
theorem issue_result {i : Instr} {f : Form} {body : List Word → State → Eff × State} {acc : Nat → Bool} {rs : List Reg} {d : Reg} {w : Word}
    {a : Tab Stream} {b : Option StopWait} (he : exec i s = issue f body s) (h : Ready s f.prv rs acc) (single : Single s)
    (hb : body (operands s f) (base s) = (.done, result t s.cur d w 1)) (thread : thr t s.cur = otherwise (issuer s) a b)
    (hc : t.cur = s.cur) (hy : cycOf t (cmptOf s.cur) = cyc s) (hd : d ∈ rs) (hlen : f.len = 4 := by rfl) 
    (hacc : acc = f.accepts.getD fun _ => false := by rfl)
    (hr : ∀ r ∈ f.reads, r ∈ rs := by simp) (hw : ∀ r ∈ f.writes, r ∈ rs := by simp)
    (hm : ∀ r ∈ f.more (f.reads.map (reg s)), r ∈ rs := by simp) :
    ∃ y n, exec i s = .next (goes s t y (nextAt s 4) n) ∧ Gives s (goes s t y (nextAt s 4) n) d w ∧ y.stopping = b := by
  have unbound : boundAt (thr t s.cur) d = none := by
    rw [thread]
    exact h.unbound d hd
  have written := result_now (t := t) (tid := s.cur) (v := w) unbound
  refine ⟨setX (overtake (otherwise (issuer s) a b) d (cycOf t (cmptOf s.cur))) d.toNat w, f.wait,
    (he.trans (issue_done h (.inr single) hb ?_ ?_ hacc hr hw hm)).trans ?_,
    gives_goes (leaves_otherwise d w a b _) fun named => getX_setX _ _ (toNat_ne named), (setX_stopping ..).trans rfl⟩
  · rw [written]
    exact hc
  · rw [written]
    exact hy
  · rw [written, thr_setThr, hlen, goes_setThr, thread]

end Sys2Proof.Machine
end

section
/-! SUPPORT. How a job or a marking job enters (R84-R93, R97, R200, R201, R402): the scheduler's list, the room, and the instruction around
them. -/

namespace Sys2Proof.Machine

variable {s t u v : State}

/-! ## A job enters (R93, R97) -/

/-- The entry of a new job. -/
def newEntry (s : State) (tid : Nat) (j : Job) (rd wr : List (Nat × Nat)) : Entry :=
  { id := s.ids, ctx := j.ctx, tid := tid, core := coreOf tid, cycle := (cmpt s (cmptOf tid)).cyc, reads := rd, writes := wr, job := some s.ids }

/-- The scheduler and the list of jobs with a new job. -/
def listed (s : State) (tid : Nat) (j : Job) (rd wr : List (Nat × Nat)) : State :=
  setCmpt { s with ids := s.ids + 1, jobs := put s.jobs s.ids j } (cmptOf tid)
    { cmpt s (cmptOf tid) with arrivals := (cmpt s (cmptOf tid)).arrivals ++ [newEntry s tid j rd wr] }

theorem enterJob_eq (s : State) (tid : Nat) (j : Job) (rd wr : List (Nat × Nat)) :
    enterJob s tid j rd wr = copyCounted true (listed s tid j rd wr) j := rfl

/-- A barrier's count touches the contexts alone. -/
theorem copyCounted_eq (pending : Bool) (s : State) (j : Job) : ∃ x, copyCounted pending s j = { s with ctxs := x } := by
  unfold copyCounted
  split
  · exact ⟨_, rfl⟩
  · split <;> exact ⟨_, rfl⟩

theorem length_filter_put {α : Type} (p : Nat × α → Bool) (m : Tab α) (n : Nat) (v : α) (new : look m n = none) :
    ((put m n v).filter p).length = (m.filter p).length + if p (n, v) then 1 else 0 := by
  induction m with
  | nil => cases h : p (n, v) <;> simp [put, h]
  | cons x m ih =>
    obtain ⟨k, w⟩ := x
    rw [look] at new
    split at new
    · cases new
    · next other =>
      simp only [put, other, if_false]
      split
      · rw [List.filter_cons]
        split <;> simp [*]
      · simp only [List.filter_cons]
        split
        · simp only [List.length_cons, ih new]
          omega
        · exact ih new

theorem jobCount_listed {tid c : Nat} {j : Job} {rd wr : List (Nat × Nat)} (new : look s.jobs s.ids = none) (core : j.core = c) :
    jobCount (listed s tid j rd wr) c = jobCount s c + 1 := by
  refine (length_filter_put (fun p => p.2.core == c) s.jobs s.ids j new).trans ?_
  rw [if_pos (by simpa using core)]
  rfl

/-- The job enters where the core and the scheduler have room, and its result is the core's new count (R93). -/
theorem admitJob_enters {tid : Nat} {d : Reg} {j : Job} {rd wr : List (Nat × Nat)} (new : look s.jobs s.ids = none) (core : j.core = coreOf tid)
    (few : jobCount s (coreOf tid) < 1024) (room : schedCount s (cmptOf tid) + (if j.follow.isSome then 2 else 1) ≤ 4096) :
    admitJob s tid d j rd wr = (.done, result (enterJob s tid j rd wr) tid d (natWord (jobCount s (coreOf tid) + 1)) 1) := by
  have full : (decide (1024 ≤ jobCount s (coreOf tid))
      || decide (4096 < schedCount s (cmptOf tid) + (if j.follow.isSome then 2 else 1))) = false := by
    simp only [Bool.or_eq_false_iff, decide_eq_false_iff_not]
    omega
  have count : jobCount (enterJob s tid j rd wr) (coreOf tid) = jobCount s (coreOf tid) + 1 := by
    obtain ⟨x, hx⟩ := copyCounted_eq true (listed s tid j rd wr) j
    rw [enterJob_eq, hx]
    exact jobCount_listed (s := s) (tid := tid) (rd := rd) (wr := wr) new core
  unfold admitJob
  dsimp only
  rw [full, count]
  rfl

/-- The issuing thread's job instruction enters a job, and gives the core's count of jobs in flight (R93, R402). -/
def Enters (s : State) (i : Instr) (d : Reg) (j : Job) (rd wr : List (Nat × Nat)) : Prop :=
  Does s i fun t => Gives s t d (BitVec.ofNat 64 (jobCount s (coreOf s.cur) + 1)) ∧ SameMemory s t
    ∧ jobCount t (coreOf s.cur) = jobCount s (coreOf s.cur) + 1 ∧ look t.jobs s.ids = some j
    ∧ ∃ e, (cmpt t (cmptOf s.cur)).arrivals = (cmpt s (cmptOf s.cur)).arrivals ++ [e] ∧ e.job = some s.ids ∧ e.reads = rd ∧ e.writes = wr

theorem issue_enters {i : Instr} {d a : Reg} {body : List Word → State → Eff × State} {j : Job} {rd wr : List (Nat × Nat)}
    (he : exec i s = issue { reads := [a], writes := [d], effect := true } body s) (ready : Ready s .u [a, d]) (single : Single s)
    (walked : Walked (base s) u)
    (hb : body [reg s a] (base s) = admitJob u s.cur d j rd wr) (new : look s.jobs s.ids = none) (core : j.core = coreOf s.cur)
    (few : jobCount s (coreOf s.cur) < 1024) (room : schedCount s (cmptOf s.cur) + (if j.follow.isSome then 2 else 1) ≤ 4096) :
    Enters s i d j rd wr := by
  have jobs : u.jobs = s.jobs := walked.jobs
  have ids : u.ids = s.ids := walked.ids
  have count : jobCount u (coreOf s.cur) = jobCount s (coreOf s.cur) := walked.jobCount _
  have sched : schedCount u (cmptOf s.cur) = schedCount s (cmptOf s.cur) := walked.schedCount _
  have new' : look u.jobs u.ids = none := by rw [jobs, ids, new]
  obtain ⟨x, hx⟩ := copyCounted_eq true (listed u s.cur j rd wr) j
  rw [admitJob_enters new' core (by rw [count]; exact few) (by rw [sched]; exact room), enterJob_eq, hx, count] at hb
  have thread : thr (listed u s.cur j rd wr) s.cur = otherwise (issuer s) (issuer s).streams (issuer s).stopping :=
    (walked.thr s.cur).trans (thr_base ..)
  have clock : cycOf (listed u s.cur j rd wr) (cmptOf s.cur) = cyc s := (cycOf_setCmpt ..).trans (walked.cycOf _)
  obtain ⟨y, n, step, gives, -⟩ := issue_result he ready single hb thread walked.cur clock (by simp)
  refine ⟨_, step, gives, fun _ => ?_, ?_, ?_, newEntry u s.cur j rd wr, ?_, ?_⟩
  · exact congrArg (fun m => byteAt m _) walked.mem
  · refine Eq.trans ?_ (congrArg (· + 1) count)
    exact jobCount_listed (s := u) (tid := s.cur) (rd := rd) (wr := wr) new' core
  · rw [← ids]
    exact look_put ..
  · exact (congrArg Cmpt.arrivals (cmpt_setCmpt ..)).trans (congrArg (· ++ [_]) (walked.arrivals _))
  · exact ⟨congrArg some ids, rfl, rfl⟩

/-! ## Job instructions (R84, R92, R402) -/

/-- What the instructions of this family read and write. -/
theorem yarder_of_mem {d a : Reg} : ∀ x ∈ [(0, Instr.yrdCopy d a), (1, .yrdGath d a), (2, .yrdScat d a), (3, .yrdFill d a), (4, .yrdFar d a)],
    exec x.2 s = yarder x.1 d a s := by
  simp only [List.forall_mem_cons]
  exact ⟨rfl, rfl, rfl, rfl, rfl, fun _ h => absurd h (List.not_mem_nil)⟩

/-- The follow-on command of a card, where the card has one. -/
def followIn (s : State) (ws : List Word) : Option MillOp := if (cardOf ws).mfo then followOf (issuer s) s.cur ws else none

/-- The job of a card; `u` is the state after its checks. -/
def cardJob (s u : State) (a : Reg) (ws : List Word) (r : List Page × Option (Nat × BitVec 32)) : Job :=
  let t := issuer s
  { mark := false, ctx := t.ctx, launch := t.launch, tid := s.cur, stid := logicalTid u s.cur, core := coreOf s.cur
    card := ws, pages := r.1, address := (reg s a).toNat, follow := followIn s ws, before := u.ids, prv := t.prv, phase := r.2
    serial := t.serial }

section

variable {i : Instr} {kind : Nat} {d a : Reg} {ws : List Word} {n : Nat}

theorem yarder_misaligned (he : exec i s = yarder kind d a s) (ready : Ready s .u [a, d]) (single : Single s)
    (off : (reg s a).toNat % 64 ≠ 0) : Faults s i .malformedStructure := by
  refine he.trans (issue_fault ready (.inr single) ?_)
  exact if_pos (by simpa [operands, arg] using off)

/-- A card that is asked for, or had. -/
theorem yarder_asks (he : exec i s = yarder kind d a s) (ready : Ready s .u [a, d]) (single : Single s)
    (aligned : (reg s a).toNat % 64 = 0) : Asks s i .load (reg s a) 192 .malformedStructure := by
  refine asks_of_issue he ready (.inr single) fun ps fresh hps => ?_
  obtain ⟨u, hu, asked⟩ := ownWords_asks (n := 24) (by simpa using fresh) hps
  refine ⟨u, ?_, asked⟩
  refine (if_neg (by simpa [operands, arg] using aligned)).trans ?_
  exact congrArg (fun r : Res (List Word) => r.run _) hu

/-- The words of the card, had. -/
theorem card_had (aligned : (reg s a).toNat % 64 = 0) (had : Had s n) (g : List Word → State → Eff × State) :
    (if (reg s a).toNat % 64 != 0 then (.fault .malformedStructure 0, base s)
      else (ownWords (base s) s.cur (reg s a) 24 .malformedStructure).run g) = g (wordsOfNat n 24) (base s) := by
  obtain ⟨o, own, got⟩ := had
  rw [if_neg (by simpa using aligned), ownWords_had (by simpa using own) got]
  rfl

theorem yarder_refused (he : exec i s = yarder kind d a s) (ready : Ready s .u [a, d]) (single : Single s)
    (aligned : (reg s a).toNat % 64 = 0) (had : Had s n) (words : ws = wordsOfNat n 24)
    (bad : cardOk kind ws (followIn s ws).isSome = false) : Faults s i .malformedStructure := by
  subst words
  refine he.trans (issue_fault ready (.inr single) ((card_had aligned had _).trans ?_))
  have checks : cardChecks (base s) s.cur kind (wordsOfNat n 24) (followIn s (wordsOfNat n 24)) = .stop (.fault .malformedStructure 0) (base s) := by
    simp [cardChecks, bad]
  simp only [base_cur, thr_base]
  rw [← followIn, checks]
  rfl

theorem yarder_enters {r : List Page × Option (Nat × BitVec 32)} (he : exec i s = yarder kind d a s) (ready : Ready s .u [a, d]) (single : Single s)
    (aligned : (reg s a).toNat % 64 = 0) (had : Had s n) (words : ws = wordsOfNat n 24)
    (passed : cardChecks (base s) s.cur kind ws (followIn s ws) = .ok r u) (mill : ∀ o, followIn s ws = some o → millChecks u s.cur o = none)
    (new : look s.jobs s.ids = none) (few : jobCount s (coreOf s.cur) < 1024)
    (room : schedCount s (cmptOf s.cur) + (if (followIn s ws).isSome then 2 else 1) ≤ 4096) :
    Enters s i d (cardJob s u a ws r) ((cardOf ws).reads ws) ((cardOf ws).writes ws) := by
  subst words
  have walked := Walked.cardChecks passed
  have noMill : (followIn s (wordsOfNat n 24)).bind (millChecks u s.cur) = none := by
    cases h : followIn s (wordsOfNat n 24) with
    | none => rfl
    | some o => exact mill o h
  refine issue_enters he ready single walked ((card_had aligned had _).trans ?_) new rfl few room
  simp only [base_cur, thr_base]
  rw [← followIn, passed]
  simp only [Res.run, noMill]
  rfl

end

/-! ## Marking jobs (R200, R201) -/

/-- The marking job of some words; `u` is the state after its checks. -/
def markJob (s u : State) (a : Reg) (ws : List Word) (ps : List Page) : Job :=
  let t := issuer s
  { mark := true, ctx := t.ctx, launch := t.launch, tid := s.cur, stid := logicalTid u s.cur, core := coreOf s.cur
    card := ws, pages := ps, address := (reg s a).toNat, follow := none, before := u.ids, prv := t.prv, phase := none
    serial := t.serial }

section

variable {d a : Reg} {ws : List Word} {n : Nat}

theorem mark_misaligned (ready : Ready s .u [a, d]) (single : Single s) (off : (reg s a).toNat % 16 ≠ 0) :
    Faults s (.mark d a) .malformedStructure :=
  issue_fault ready (.inr single) (if_pos (by simpa [operands, arg] using off))

theorem mark_asks (ready : Ready s .u [a, d]) (single : Single s) (aligned : (reg s a).toNat % 16 = 0) :
    Asks s (.mark d a) .load (reg s a) 80 .malformedStructure := by
  refine asks_of_issue rfl ready (.inr single) fun ps fresh hps => ?_
  obtain ⟨u, hu, asked⟩ := ownWords_asks (n := 10) (by simpa using fresh) hps
  refine ⟨u, ?_, asked⟩
  refine (if_neg (by simpa [operands, arg] using aligned)).trans ?_
  exact congrArg (fun r : Res (List Word) => r.run _) hu

theorem marking_had (aligned : (reg s a).toNat % 16 = 0) (had : Had s n) (g : List Word → State → Eff × State) :
    (if (reg s a).toNat % 16 != 0 then (.fault .malformedStructure 0, base s)
      else (ownWords (base s) s.cur (reg s a) 10 .malformedStructure).run g) = g (wordsOfNat n 10) (base s) := by
  obtain ⟨o, own, got⟩ := had
  rw [if_neg (by simpa using aligned), ownWords_had (by simpa using own) got]
  rfl

theorem mark_refused (ready : Ready s .u [a, d]) (single : Single s) (aligned : (reg s a).toNat % 16 = 0) (had : Had s n)
    (words : ws = wordsOfNat n 10) (bad : markingOk ws = false) : Faults s (.mark d a) .malformedStructure := by
  subst words
  refine issue_fault ready (.inr single) ((marking_had aligned had _).trans ?_)
  rw [bad]
  rfl

theorem mark_enters {ps : List Page} (ready : Ready s .u [a, d]) (single : Single s) (aligned : (reg s a).toNat % 16 = 0) (had : Had s n)
    (words : ws = wordsOfNat n 10) (good : markingOk ws = true) (passed : markChecks (base s) s.cur (markingOf ws) = .ok ps u)
    (new : look s.jobs s.ids = none) (few : jobCount s (coreOf s.cur) < 1024) (room : schedCount s (cmptOf s.cur) < 4096) :
    Enters s (.mark d a) d (markJob s u a ws ps) (markRegions (markingOf ws)).1
      ((markRegions (markingOf ws)).2 ++ mapRegions (markingOf ws)) := by
  subst words
  have walked := Walked.markChecks passed
  have same : thr u s.cur = issuer s := (walked.thr _).trans thr_base
  refine issue_enters rfl ready single walked ((marking_had aligned had _).trans ?_) new rfl few room
  rw [good, if_neg (by simp)]
  simp only [base_cur, passed, Res.run, same]
  rfl

end

end Sys2Proof.Machine
end

section
/-! SUPPORT. Channels, stopping and the marking status (R104, R105, R108, R403-R405, R409). -/

namespace Sys2Proof.Machine

variable {s t u : State} {d a b : Reg}

/-! ## Channels (R104, R105, R403, R404) -/

/-- An instruction of 4 bytes that changes nothing but one register (R290). -/
theorem issue_writes {i : Instr} {f : Form} {body : List Word → State → Eff × State} {acc : Nat → Bool} {rs : List Reg} {w : Word}
    (he : exec i s = issue f body s) (h : Ready s f.prv rs acc) (hs : f.effect = false ∧ f.load = false ∨ Single s)
    (hb : body (operands s f) (base s) = (.done, result (base s) s.cur d w 1)) (hd : d ∈ rs) (hlen : f.len = 4 := by rfl)
    (hwait : f.wait = 0 := by rfl) (hacc : acc = f.accepts.getD fun _ => false := by rfl)
    (hr : ∀ r ∈ f.reads, r ∈ rs := by simp) (hw : ∀ r ∈ f.writes, r ∈ rs := by simp)
    (hm : ∀ r ∈ f.more (f.reads.map (reg s)), r ∈ rs := by simp) : exec i s = .next (writes s 4 d w) := by
  have written := result_now (t := base s) (tid := s.cur) (v := w) (by simpa using h.unbound d hd)
  rw [written] at hb
  rw [he, issue_done h hs hb rfl rfl hacc hr hw hm, hlen, hwait]
  simp [writes, cyc]

/-- A channel that another context holds. -/
theorem foreign_iff {ch : CopyChan} {n : Nat} : (ch.active && ch.ctx != n) = true ↔ ch.base ≠ ch.limit ∧ ch.ctx ≠ n := by
  simp [CopyChan.active]

theorem discardAhead_eq (x : Thread) : ∃ a, discardAhead x = otherwise x a x.stopping := ⟨_, rfl⟩

theorem thr_rereadCore (s : State) (c n : Nat) :
    thr (rereadCore s c) n = if coreOf n = c then discardAhead (thr s n) else thr s n := by
  have threads : (rereadCore s c).threads = s.threads.map fun p => (p.1, if coreOf p.1 = c then discardAhead p.2 else p.2) := by
    refine List.map_congr_left fun p _ => ?_
    split <;> rfl
  simp only [thr, lookD, threads]
  rw [look_map s.threads fun n x => if coreOf n = c then discardAhead x else x]
  cases look s.threads n
  · split <;> rfl
  · rfl

/-- A descriptor's channel number is its upper four bits. -/
theorem bits_chan (w : Word) : bits w.toNat 63 60 = w.toNat / 2 ^ 60 := by
  have := w.isLt
  simp only [bits]
  omega

theorem bits_low (v : Nat) : bits v 51 0 = v % 2 ^ 52 := by simp [bits]

/-- The bounds of a channel are well formed (R403). -/
structure Bounds (v limit : Nat) : Prop where
  zero : v / 2 ^ 52 % 2 ^ 8 = 0
  fits : limit < 2 ^ 52
  rises : v % 2 ^ 52 ≤ limit

theorem Bounds.passes {v limit : Nat} (h : Bounds v limit) : (bits v 59 52 != 0 || 2 ^ 52 ≤ limit || limit < bits v 51 0) = false := by
  obtain ⟨zero, fits, rises⟩ := h
  simp only [bits, Nat.reduceAdd, Nat.reduceSub, Nat.pow_zero, Nat.div_one, zero, Bool.or_eq_false_iff, decide_eq_false_iff_not]
  exact ⟨⟨rfl, by omega⟩, by omega⟩

theorem yrdChan_foreign (ready : Ready s .u [a, b, d]) (single : Single s) (bounds : Bounds (reg s a).toNat (reg s b).toNat)
    (other : (chanOf s (coreOf s.cur) ((reg s a).toNat / 2 ^ 60)).base ≠ (chanOf s (coreOf s.cur) ((reg s a).toNat / 2 ^ 60)).limit
      ∧ (chanOf s (coreOf s.cur) ((reg s a).toNat / 2 ^ 60)).ctx ≠ (issuer s).ctx) : Faults s (.yrdChan d a b) .partition := by
  refine issue_fault ready (.inr single) ?_
  have foreign := foreign_iff.mpr other
  rw [← bits_chan] at foreign
  refine (if_neg (by simpa [operands, arg] using bounds.passes)).trans (if_pos ?_)
  rw [base_cur, thr_base]
  exact foreign

theorem yrdChan_binds (ready : Ready s .u [a, b, d]) (single : Single s) (bounds : Bounds (reg s a).toNat (reg s b).toNat)
    (mine : ¬ ((chanOf s (coreOf s.cur) ((reg s a).toNat / 2 ^ 60)).base ≠ (chanOf s (coreOf s.cur) ((reg s a).toNat / 2 ^ 60)).limit
      ∧ (chanOf s (coreOf s.cur) ((reg s a).toNat / 2 ^ 60)).ctx ≠ (issuer s).ctx))
    (idle : jobsOn s (coreOf s.cur) ((reg s a).toNat / 2 ^ 60) = []) :
    Does s (.yrdChan d a b) fun u => Gives s u d (BitVec.ofNat 64 (chanOf s (coreOf s.cur) ((reg s a).toNat / 2 ^ 60)).wm) ∧ SameMemory s u
      ∧ chanOf u (coreOf s.cur) ((reg s a).toNat / 2 ^ 60)
        = { ctx := (issuer s).ctx, base := (reg s a).toNat % 2 ^ 52, limit := (reg s b).toNat, wm := (reg s a).toNat % 2 ^ 52 } := by
  have foreign := mt foreign_iff.mp mine
  rw [← bits_chan] at foreign idle ⊢
  rw [← bits_low]
  let n := bits (reg s a).toNat 63 60
  let bound : CopyChan := { ctx := (issuer s).ctx, base := bits (reg s a).toNat 51 0, limit := (reg s b).toNat, wm := bits (reg s a).toNat 51 0 }
  let t := rereadCore (setChan (base s) (coreOf s.cur) n bound) (coreOf s.cur)
  obtain ⟨x, hx⟩ := discardAhead_eq (issuer s)
  have thread : thr t s.cur = otherwise (issuer s) x (issuer s).stopping := by
    rw [thr_rereadCore, if_pos rfl, ← hx]
    exact congrArg discardAhead thr_base
  have bound_ := issue_result (t := t) (d := d) (w := natWord (chanOf s (coreOf s.cur) n).wm)
    (show exec (.yrdChan d a b) s = issue _ _ s from rfl) ready single ?_ thread rfl rfl (by simp)
  · obtain ⟨y, m, step, gives, -⟩ := bound_
    exact ⟨_, step, gives, fun _ => rfl, chanOf_setChan ..⟩
  · refine (if_neg (by simpa [operands, arg] using bounds.passes)).trans ((if_neg ?_).trans ((if_neg ?_).trans ?_))
    · rw [base_cur, thr_base]
      exact foreign
    · show ¬(!(jobsOn s (coreOf s.cur) (bits (reg s a).toNat 63 60)).isEmpty) = true
      simp [idle]
    · simp only [base_cur, thr_base]
      rfl

theorem yrdWm_number (ready : Ready s .u [a, b, d]) (single : Single s) (big : 16 ≤ (reg s a).toNat) : Faults s (.yrdWm d a) .malformedStructure :=
  issue_fault ready (.inr single) (if_pos big)

theorem yrdWm_foreign (ready : Ready s .u [a, b, d]) (single : Single s) (small : (reg s a).toNat < 16)
    (other : (chanOf s (coreOf s.cur) (reg s a).toNat).base ≠ (chanOf s (coreOf s.cur) (reg s a).toNat).limit
      ∧ (chanOf s (coreOf s.cur) (reg s a).toNat).ctx ≠ (issuer s).ctx) : Faults s (.yrdWm d a) .partition := by
  refine issue_fault ready (.inr single) ((if_neg (Nat.not_le.mpr small)).trans (if_pos ?_))
  rw [base_cur, thr_base]
  exact foreign_iff.mpr other

theorem yrdWm_reads (ready : Ready s .u [a, b, d]) (single : Single s) (small : (reg s a).toNat < 16)
    (mine : ¬ ((chanOf s (coreOf s.cur) (reg s a).toNat).base ≠ (chanOf s (coreOf s.cur) (reg s a).toNat).limit
      ∧ (chanOf s (coreOf s.cur) (reg s a).toNat).ctx ≠ (issuer s).ctx)) :
    let ch := chanOf s (coreOf s.cur) (reg s a).toNat
    exec (.yrdWm d a) s = .next (writes s 4 d (BitVec.ofNat 64 (if ch.base = ch.limit then ch.base else ch.wm))) := by
  intro ch
  refine issue_writes rfl ready (.inr single) ((if_neg (Nat.not_le.mpr small)).trans ((if_neg ?_).trans ?_)) (by simp)
  · rw [base_cur, thr_base]
    exact mt foreign_iff.mp mine
  · have active : (chanOf (base s) (coreOf s.cur) (reg s a).toNat).active = decide (ch.base ≠ ch.limit) := by
      simp only [CopyChan.active, bne, ne_eq, decide_not]
      rfl
    simp only [base_cur, operands, arg, List.map_cons, List.map_nil, List.append_nil, List.getD_cons_zero, active, decide_eq_true_eq, ite_not]
    rfl

/-! ## Stopping (R108, R405) -/

/-- An instruction that parks its thread stays at its PC, and keeps what its effect has left (R77). -/
theorem issue_parks {i : Instr} {f : Form} {body : List Word → State → Eff × State} {acc : Nat → Bool} {rs : List Reg} {w : Wait}
    (he : exec i s = issue f body s) (h : Ready s f.prv rs acc) (single : Single s) (hb : body (operands s f) (base s) = (.park w, t))
    (hc : t.cur = s.cur) (hacc : acc = f.accepts.getD fun _ => false := by rfl)
    (hr : ∀ r ∈ f.reads, r ∈ rs := by simp) (hw : ∀ r ∈ f.writes, r ∈ rs := by simp)
    (hm : ∀ r ∈ f.more (f.reads.map (reg s)), r ∈ rs := by simp) :
    ∃ x since, exec i s = .next (setThr t s.cur x) ∧ x.pc = (thr t s.cur).pc ∧ x.park = some (.again w since)
      ∧ x.stopping = (thr t s.cur).stopping := by
  rw [← hc]
  exact ⟨_, _, he.trans (issue_effect h (.inr single) hb (.inr single) hacc hr hw hm), rfl, rfl, rfl⟩

/-- The jobs that `yrd.stop` names: those of the thread's context on its core, of every channel or of one. -/
def Named (s : State) (v : Nat) (j : Job) : Prop :=
  j.core = coreOf s.cur ∧ j.ctx = (issuer s).ctx ∧ j.mark = false ∧ (16 ≤ v ∨ ((cardOf j.card).wmk = true ∧ (cardOf j.card).chan = v))

/-- Their names, as `yrd.stop` finds them. -/
def selected (s : State) (v : Nat) : List Nat :=
  ((if v < 16 then jobsOn s (coreOf s.cur) v else s.jobs.filter fun p => p.2.core == coreOf s.cur && !p.2.mark).filter
    fun p => p.2.ctx == (issuer s).ctx).map (·.1)

theorem mem_selected {v n : Nat} : n ∈ selected s v ↔ ∃ p ∈ s.jobs, p.1 = n ∧ Named s v p.2 := by
  have which (p : Nat × Job) : p ∈ (if v < 16 then jobsOn s (coreOf s.cur) v else s.jobs.filter fun p => p.2.core == coreOf s.cur && !p.2.mark)
      ↔ p ∈ s.jobs ∧ p.2.core = coreOf s.cur ∧ p.2.mark = false
        ∧ (16 ≤ v ∨ ((cardOf p.2.card).wmk = true ∧ (cardOf p.2.card).chan = v)) := by
    split
    · next small => simp [jobsOn, Nat.not_le.mpr small, and_assoc]
    · next big => simp [Nat.not_lt.mp big]
  simp only [selected, List.mem_map, List.mem_filter, which, Named, beq_iff_eq]
  constructor
  · rintro ⟨p, ⟨⟨listed, core, mark, chan⟩, ctx⟩, rfl⟩
    exact ⟨p, listed, rfl, core, ctx, mark, chan⟩
  · rintro ⟨p, listed, rfl, core, ctx, mark, chan⟩
    exact ⟨p, ⟨⟨listed, core, mark, chan⟩, ctx⟩, rfl⟩

theorem selected_nil {v : Nat} : selected s v = [] ↔ ∀ p ∈ s.jobs, ¬Named s v p.2 := by
  simp only [List.eq_nil_iff_forall_not_mem, mem_selected]
  exact ⟨fun h p listed named => h p.1 ⟨p, listed, rfl, named⟩, fun h n ⟨p, listed, _, named⟩ => h p listed named⟩

/-- `yrd.stop` of a thread that waits for no stop yet, one case after another (R405). -/
def stopBody (s : State) (d : Reg) (v : Nat) : Eff × State :=
  let c := coreOf s.cur
  let ch := chanOf s c (v % 16)
  if 32 ≤ v then (.fault .malformedStructure 0, base s)
  else if v < 16 && ch.active && ch.ctx != (issuer s).ctx then (.fault .partition 0, base s)
  else if v < 16 && !ch.active then (.done, result (base s) s.cur d 0 1)
  else if (selected s v).isEmpty then (.done, result (if v < 16 then openChan (base s) c v else base s) s.cur d 0 1)
  else (.park .stopJobs, setThr (askStop (base s) (selected s v)) s.cur
    { thr (askStop (base s) (selected s v)) s.cur with stopping := some { jobs := selected s v, chan := if v < 16 then some v else none } })

theorem yrdStop_first (fresh : (issuer s).stopping = none) :
    ∃ body, exec (.yrdStop d a) s = issue { reads := [a], writes := [d], effect := true } body s
      ∧ body (operands s { reads := [a], writes := [d], effect := true }) (base s) = stopBody s d (reg s a).toNat := by
  refine ⟨_, rfl, ?_⟩
  simp only [base_cur, thr_base, fresh]
  rfl

section

variable {v : Nat}

/-- The channel that `yrd.stop` names is on. -/
def Opened (s : State) (v : Nat) : Prop :=
  v < 16 ∧ (chanOf s (coreOf s.cur) v).base ≠ (chanOf s (coreOf s.cur) v).limit

/-- Another context holds that channel. -/
def Foreign (s : State) (v : Nat) : Prop :=
  (chanOf s (coreOf s.cur) v).base ≠ (chanOf s (coreOf s.cur) v).limit ∧ (chanOf s (coreOf s.cur) v).ctx ≠ (issuer s).ctx

theorem foreign_stop : (v < 16 && (chanOf s (coreOf s.cur) (v % 16)).active && (chanOf s (coreOf s.cur) (v % 16)).ctx != (issuer s).ctx) = true
    ↔ v < 16 ∧ Foreign s v := by
  rw [Bool.and_assoc, Bool.and_eq_true, foreign_iff, decide_eq_true_eq]
  exact and_congr_right fun small => by rw [Nat.mod_eq_of_lt small]; rfl

theorem off_stop : (v < 16 && !(chanOf s (coreOf s.cur) (v % 16)).active) = true ↔ v < 16 ∧ ¬Opened s v := by
  simp only [Bool.and_eq_true, decide_eq_true_eq]
  refine and_congr_right fun small => ?_
  rw [Nat.mod_eq_of_lt small]
  simp [Opened, small, CopyChan.active]

theorem stopBody_foreign (small : v < 16) (other : Foreign s v) : stopBody s d v = (.fault .partition 0, base s) :=
  (if_neg (by omega)).trans (if_pos (foreign_stop.mpr ⟨small, other⟩))

theorem stopBody_off (small : v < 16) (mine : ¬Foreign s v) (off : ¬Opened s v) : stopBody s d v = (.done, result (base s) s.cur d 0 1) :=
  (if_neg (by omega)).trans ((if_neg fun h => mine (foreign_stop.mp h).2).trans (if_pos (off_stop.mpr ⟨small, off⟩)))

theorem stopBody_on (small : v < 32) (mine : v < 16 → ¬Foreign s v) (on : 16 ≤ v ∨ Opened s v) : stopBody s d v =
    if (selected s v).isEmpty then (.done, result (if v < 16 then openChan (base s) (coreOf s.cur) v else base s) s.cur d 0 1)
    else (.park .stopJobs, setThr (askStop (base s) (selected s v)) s.cur
      { thr (askStop (base s) (selected s v)) s.cur with stopping := some { jobs := selected s v, chan := if v < 16 then some v else none } }) := by
  have not_off : ¬(v < 16 ∧ ¬Opened s v) := fun h => h.2 (on.resolve_left (by omega))
  exact (if_neg (by omega)).trans ((if_neg fun h => mine (foreign_stop.mp h).1 (foreign_stop.mp h).2).trans
    (if_neg fun h => not_off (off_stop.mp h)))

theorem yrdStop_foreign (ready : Ready s .u [a, b, d]) (single : Single s) (fresh : (issuer s).stopping = none) (small : (reg s a).toNat < 16)
    (other : Foreign s (reg s a).toNat) : Faults s (.yrdStop d a) .partition := by
  obtain ⟨body, he, hb⟩ := yrdStop_first (d := d) (a := a) fresh
  exact he.trans (issue_fault ready (.inr single) (hb.trans (stopBody_foreign small other)))

theorem yrdStop_off (ready : Ready s .u [a, b, d]) (single : Single s) (fresh : (issuer s).stopping = none) (small : (reg s a).toNat < 16)
    (mine : ¬Foreign s (reg s a).toNat) (off : ¬Opened s (reg s a).toNat) :
    Does s (.yrdStop d a) fun u => Gives s u d 0 ∧ SameMemory s u ∧ core u (coreOf s.cur) = core s (coreOf s.cur) := by
  obtain ⟨body, he, hb⟩ := yrdStop_first (d := d) (a := a) fresh
  obtain ⟨y, m, step, gives, -⟩ := issue_result (t := base s) (d := d) (w := 0) (a := (issuer s).streams) (b := (issuer s).stopping)
    he ready single (hb.trans (stopBody_off small mine off)) thr_base rfl rfl (by simp)
  exact ⟨_, step, gives, fun _ => rfl, rfl⟩

theorem yrdStop_idle (ready : Ready s .u [a, b, d]) (single : Single s) (fresh : (issuer s).stopping = none) (small : (reg s a).toNat < 32)
    (mine : (reg s a).toNat < 16 → ¬Foreign s (reg s a).toNat) (on : 16 ≤ (reg s a).toNat ∨ Opened s (reg s a).toNat)
    (none_ : selected s (reg s a).toNat = []) :
    Does s (.yrdStop d a) fun u => Gives s u d 0 ∧ SameMemory s u
      ∧ ((reg s a).toNat < 16 → (chanOf u (coreOf s.cur) (reg s a).toNat).wm = (chanOf s (coreOf s.cur) (reg s a).toNat).limit) := by
  obtain ⟨body, he, hb⟩ := yrdStop_first (d := d) (a := a) fresh
  have first := hb.trans (stopBody_on small mine on)
  rw [none_, List.isEmpty_nil, if_pos rfl] at first
  split at first
  · next chan =>
    obtain ⟨y, m, step, gives, -⟩ := issue_result (t := openChan (base s) (coreOf s.cur) (reg s a).toNat) (d := d) (w := 0)
      (a := (issuer s).streams)
      (b := (issuer s).stopping) he ready single first thr_base rfl rfl (by simp)
    exact ⟨_, step, gives, fun _ => rfl, fun _ => congrArg CopyChan.wm (chanOf_setChan ..)⟩
  · next every =>
    obtain ⟨y, m, step, gives, -⟩ := issue_result (t := base s) (d := d) (w := 0) (a := (issuer s).streams) (b := (issuer s).stopping)
      he ready single first thr_base rfl rfl (by simp)
    exact ⟨_, step, gives, fun _ => rfl, fun chan => absurd chan every⟩

theorem yrdStop_asks (ready : Ready s .u [a, b, d]) (single : Single s) (fresh : (issuer s).stopping = none) (small : (reg s a).toNat < 32)
    (mine : (reg s a).toNat < 16 → ¬Foreign s (reg s a).toNat) (on : 16 ≤ (reg s a).toNat ∨ Opened s (reg s a).toNat)
    (some_ : selected s (reg s a).toNat ≠ []) :
    Does s (.yrdStop d a) fun u => (thr u s.cur).pc = (issuer s).pc ∧ SameMemory s u ∧ core u (coreOf s.cur) = core s (coreOf s.cur)
      ∧ u.jobs = (askStop s (selected s (reg s a).toNat)).jobs
      ∧ (∃ since, (thr u s.cur).park = some (.again .stopJobs since))
      ∧ (thr u s.cur).stopping
        = some { jobs := selected s (reg s a).toNat, chan := if (reg s a).toNat < 16 then some (reg s a).toNat else none } := by
  obtain ⟨body, he, hb⟩ := yrdStop_first (d := d) (a := a) fresh
  have first := hb.trans ((stopBody_on small mine on).trans (if_neg (by simpa using some_)))
  obtain ⟨x, since, step, pc, park, stopping⟩ := issue_parks he ready single first rfl
  have same : (thr (askStop (base s) (selected s (reg s a).toNat)) s.cur).pc = (issuer s).pc := congrArg Thread.pc thr_base
  rw [thr_setThr] at pc stopping
  refine ⟨_, step, ?_, fun _ => rfl, rfl, rfl, ⟨since, ?_⟩, ?_⟩ <;> rw [thr_setThr]
  · exact pc.trans same
  · exact park
  · exact stopping

theorem yrdStop_ended {n : Nat} {c : Option Nat} (ready : Ready s .u [a, b, d]) (single : Single s)
    (ended : (issuer s).stopping = some ⟨[], n, c⟩) :
    Does s (.yrdStop d a) fun u => Gives s u d (BitVec.ofNat 64 n) ∧ (thr u s.cur).stopping = none := by
  have step := issue_result (t := setThr (base s) s.cur { issuer s with stopping := none }) (d := d) (w := natWord n)
    (a := (issuer s).streams) (b := none)
    (show exec (.yrdStop d a) s = issue _ _ s from rfl) ready single ?_ (thr_setThr ..) rfl rfl (by simp)
  · obtain ⟨y, m, step, gives, done⟩ := step
    exact ⟨_, step, gives, by rw [thr_goes]; exact done⟩
  · simp only [base_cur, thr_base, ended]
    rfl

end

/-! ## The status of the marking engine (R409) -/

/-- Whether the job that the engine works on is one of the thread's context. -/
def markBusy (s : State) : Bool :=
  match (cmpt s (cmptOf s.cur)).markQ with
  | j :: _ => (look s.jobs j).any fun b => b.ctx == (issuer s).ctx
  | [] => false

theorem markBusy_iff : markBusy s = true ↔
    ∃ j x, (cmpt s (cmptOf s.cur)).markQ.head? = some j ∧ look s.jobs j = some x ∧ x.ctx = (issuer s).ctx := by
  unfold markBusy
  split
  · next j rest queue => simp [queue, Option.any_eq_true]
  · next queue => simp [queue]

/-- The thread's marking jobs on its core. -/
def marksPending (s : State) : Nat := (s.jobs.filter fun p => p.2.mark && p.2.core == coreOf s.cur && p.2.ctx == (issuer s).ctx).length

theorem markSt_reads (ready : Ready s .u [d]) (single : Single s) :
    exec (.markSt d) s = .next (writes s 4 d (natWord (marksPending s * 2 ^ 32 + bitAt (markBusy s) 31))) := by
  refine issue_writes rfl ready (.inr single) ?_ (by simp)
  simp only [base_cur, thr_base]
  rfl

/-- The fields of the status word. -/
theorem markStatus_fields {n : Nat} (busy : Bool) (few : n < 2 ^ 16) :
    let w := natWord (n * 2 ^ 32 + bitAt busy 31)
    (w.extractLsb' 32 16).toNat = n ∧ w.extractLsb' 0 31 = 0 ∧ w.extractLsb' 48 16 = 0 ∧ (w.getLsbD 31 = true ↔ busy = true) := by
  intro w
  have := busy.toNat_le
  have sum : w.toNat = n * 2 ^ 32 + busy.toNat * 2 ^ 31 := by
    simp only [w, natWord, bitAt_eq, BitVec.toNat_ofNat]
    omega
  refine ⟨?_, BitVec.eq_of_toNat_eq ?_, BitVec.eq_of_toNat_eq ?_, ?_⟩
  · rw [toNat_field, sum]
    omega
  · rw [toNat_field, sum, show (0 : BitVec 31).toNat = 0 from rfl]
    omega
  · rw [toNat_field, sum, show (0 : BitVec 16).toNat = 0 from rfl]
    omega
  · rw [getLsbD_of_toNat (b := busy) (by omega)]

/-! ## The obligation -/

/-- Settles O38: a job instruction by the checks and the room that it meets (`yarder_enters`, `mark_enters`), a channel by who holds it
and by what uses it, and `yrd.stop` by the jobs that it selects (`mem_selected`). -/
theorem jobs : Obligations.Jobs := by
  unfold Obligations.Jobs
  refine ⟨fun s u d a ws ps single ready new => ⟨fun x hx => ?_, mark_misaligned ready single, fun aligned =>
    ⟨mark_asks ready single aligned, fun v had words => ⟨mark_refused ready single aligned had words, fun good passed few room => ?_⟩⟩⟩,
    fun s d a b single ready => ⟨fun zero fits rises => ?_, yrdWm_number ready single, fun small =>
      ⟨yrdWm_foreign ready single small, yrdWm_reads ready single small⟩, fun fresh small => ?_, fun n c ended =>
      yrdStop_ended ready single ended, _, markSt_reads (ready.mono (by simp)) single, fun few => ?_⟩⟩
  · have he := yarder_of_mem (s := s) x hx
    refine ⟨yarder_misaligned he ready single, fun aligned => ⟨yarder_asks he ready single aligned, fun v had words =>
      ⟨yarder_refused he ready single aligned had words, fun q passed mill few room => ?_⟩⟩⟩
    obtain ⟨t, step, gives, memory, count, listed, e, arrived⟩ :=
      yarder_enters he ready single aligned had words passed mill new few room
    exact ⟨t, step, gives, memory, count, _, e, listed, rfl, rfl, rfl, rfl, rfl, rfl, rfl, rfl, rfl, arrived⟩
  · obtain ⟨t, step, gives, memory, count, listed, e, arrived⟩ := mark_enters ready single aligned had words good passed new few room
    exact ⟨t, step, gives, memory, count, _, e, listed, rfl, rfl, rfl, rfl, rfl, rfl, rfl, rfl, rfl, arrived⟩
  · have bounds : Bounds (reg s a).toNat (reg s b).toNat := ⟨zero, fits, rises⟩
    exact ⟨yrdChan_foreign ready single bounds, yrdChan_binds ready single bounds⟩
  · refine ⟨yrdStop_foreign ready single fresh, fun mine => ⟨fun quiet => ?_, fun on some_ => ?_⟩⟩
    · by_cases off : (reg s a).toNat < 16 ∧ ¬Opened s (reg s a).toNat
      · obtain ⟨chan, off⟩ := off
        obtain ⟨u, step, gives, memory, same⟩ := yrdStop_off ready single fresh chan (mine chan) off
        exact ⟨u, step, gives, memory, fun on => absurd on off, fun _ _ => same⟩
      · have on : 16 ≤ (reg s a).toNat ∨ Opened s (reg s a).toNat :=
          (Nat.lt_or_ge _ 16).elim (fun chan => .inr (not_not.mp fun h => off ⟨chan, h⟩)) .inl
        obtain ⟨u, step, gives, memory, opened⟩ :=
          yrdStop_idle ready single fresh small mine on (selected_nil.mpr (quiet.resolve_left off))
        exact ⟨u, step, gives, memory, fun on => opened on.1, fun chan off' => absurd ⟨chan, off'⟩ off⟩
    · obtain ⟨u, step, pc, memory, same, listed, ⟨since, park⟩, waits⟩ :=
        yrdStop_asks ready single fresh small mine on (mt selected_nil.mp some_)
      have asked (p : Nat × Job) (hp : p ∈ s.jobs) (named : Named s (reg s a).toNat p.2) : p.1 ∈ selected s (reg s a).toNat :=
        mem_selected.mpr ⟨p, hp, rfl, named⟩
      refine ⟨u, step, pc, memory, same, fun p hp named => ?_, since, _, park, waits, rfl, rfl, asked⟩
      rw [listed]
      exact List.mem_map.mpr ⟨p, hp, if_pos (by simpa using asked p hp named)⟩
  · obtain ⟨pending, low, high, busy⟩ := markStatus_fields (markBusy s) few
    exact ⟨pending, low, high, busy.trans markBusy_iff⟩

end Sys2Proof.Machine
end

section
/-! SUPPORT. The requests of a job's access (R60, R64, R86): each word of each part has one, and no later request takes its place. -/

namespace Sys2Proof.Machine

variable {s t u : State}

/-! ## Requests that are entered -/

/-- In `t` the requests of `s` stand under their names still, and each new one is a `P`. -/
structure Grows (P : Req → Prop) (s t : State) : Prop where
  ids : s.ids ≤ t.ids
  old : ∀ n < s.ids, look t.reqs n = look s.reqs n
  new : ∀ r ∈ t.reqs, r ∈ s.reqs ∨ P r.2

theorem Grows.refl (P : Req → Prop) (s : State) : Grows P s s := ⟨le_rfl, fun _ _ => rfl, fun _ => .inl⟩

theorem Grows.trans {P : Req → Prop} (h : Grows P s t) (g : Grows P t u) : Grows P s u where
  ids := h.ids.trans g.ids
  old n hn := (g.old n (hn.trans_le h.ids)).trans (h.old n hn)
  new r hr := (g.new r hr).elim (h.new r) .inr

/-- One request, under the next name. -/
theorem Grows.put {P : Req → Prop} {z : Req} (hz : P z) (reqs : t.reqs = put s.reqs s.ids z) (ids : t.ids = s.ids + 1) : Grows P s t where
  ids := by omega
  old n hn := by rw [reqs, look_put_ne _ _ hn.ne']
  new r hr := by
    rw [reqs] at hr
    rcases mem_of_mem_put hr with rfl | old
    · exact .inr hz
    · exact .inl old

theorem Grows.foldl {α : Type} {P : Req → Prop} {f : State → α → State} (keeps : ∀ u x, Kept u (f u x))
    (step : ∀ u x, Kept s u → Grows P u (f u x)) (l : List α) {u : State} (h : Kept s u) : Grows P u (l.foldl f u) := by
  induction l generalizing u with
  | nil => exact .refl ..
  | cons x l ih => exact (step u x h).trans (ih (h.trans (keeps u x)))

/-- What each step of a fold makes true, and what then stays true, is true of every item in the end. -/
theorem each_foldl {α : Type} {P : Req → Prop} {f : State → α → State} {Q : α → State → Prop} (keeps : ∀ u x, Kept u (f u x))
    (step : ∀ u x, Kept s u → Grows P u (f u x)) (stays : ∀ x u t, Q x u → Grows P u t → Q x t) (made : ∀ u x, Kept s u → Q x (f u x))
    (l : List α) {u : State} (h : Kept s u) : ∀ x ∈ l, Q x (l.foldl f u) := by
  induction l generalizing u with
  | nil => simp
  | cons x l ih =>
    have next := h.trans (keeps u x)
    exact List.forall_mem_cons.mpr ⟨stays x _ _ (made u x h) (.foldl keeps step l next), ih next⟩

/-- A word of a part is asked for, by an access of a context in a generation. -/
def Asked (a n g : Nat) (op : Nat → Nat → ReqOp) (p : Piece) (w : Nat × Nat × Nat) (t : State) : Prop :=
  ∃ (q : Nat) (z : Req), q < t.ids ∧ look t.reqs q = some z ∧ z.acc = a ∧ z.pkg = p.pkg ∧ z.pa = w.1 ∧ z.len = w.2.1 ∧ z.off = w.2.2
    ∧ z.op = op w.2.1 w.2.2 ∧ z.gen = p.gen ∧ z.ctx = n ∧ z.cgen = g

theorem Asked.stays {P : Req → Prop} {a n g : Nat} {op : Nat → Nat → ReqOp} {p : Piece} {w : Nat × Nat × Nat}
    (h : Asked a n g op p w s) (grows : Grows P s t) : Asked a n g op p w t := by
  obtain ⟨q, z, named, row, rest⟩ := h
  exact ⟨q, z, named.trans_le grows.ids, (grows.old q named).trans row, rest⟩

/-! ## At a compartment's yarder -/

section

variable {a tid : Nat} {q : Ask} {o : Bool}

/-- The request that `addReq` enters. -/
def wordReq (s : State) (a tid : Nat) (q : Ask) (o : Bool) (p : Piece) (w : Nat × Nat × Nat) : Req :=
  let k := cmptOf tid
  let r := reachOf s k p
  let tr := if q.now then 0 else r.transit tid q.agent
  let cn := q.forCtx.getD (thr s tid).ctx
  { acc := a, tid := tid, ctx := cn, cgen := (ctx s cn).cgen, pkg := p.pkg, pa := w.1, len := w.2.1, off := w.2.2, op := q.op w.2.1 w.2.2
    gen := p.gen, src := q.agent.source tid, transit := tr, earliest := if r.remote then 0 else cycOf s k + (tr + 1) / 2, remote := r.remote
    travelling := r.remote, piece := p.off, part := p.len, inOrder := o, line := q.agent.line tid, so := p.ord == .so }

theorem addReq_eq (p : Piece) (s : State) (w : Nat × Nat × Nat) :
    addReq a tid q o p s w = { s with ids := s.ids + 1, reqs := put s.reqs s.ids (wordReq s a tid q o p w) } := rfl

variable {P : Req → Prop}

theorem grows_addReq (all : ∀ u p w, Kept s u → P (wordReq u a tid q o p w)) (p : Piece) (u : State) (w : Nat × Nat × Nat) (h : Kept s u) :
    Grows P u (addReq a tid q o p u w) := .put (all u p w h) rfl rfl

theorem grows_sendPacket (cls : Class) (a b c f : Nat) (w : Option (Nat × Nat)) (d : Body) : Grows P s (sendPacket s cls a b c f w d) := by
  unfold sendPacket crossing
  dsimp only
  split <;> exact ⟨Nat.le_succ _, fun _ _ => rfl, fun _ => .inl⟩

/-- The requests of a part are those of its words, whether or not they travel in a message. -/
theorem addReqs_after (p : Piece) (u : State) : Grows P ((wordsOf p).foldl (addReq a tid q o p) u) (addReqs u a tid q o p) := by
  unfold addReqs
  dsimp only
  split
  · exact grows_sendPacket ..
  · exact grows_sendPacket ..
  · exact .refl ..

theorem grows_addReqs (all : ∀ u p w, Kept s u → P (wordReq u a tid q o p w)) (u : State) (p : Piece) (h : Kept s u) :
    Grows P u (addReqs u a tid q o p) :=
  (Grows.foldl (kept_addReq a tid q o p) (grows_addReq all p) (wordsOf p) h).trans (addReqs_after p u)

/-- Every word of the part is asked for. -/
theorem asked_addReqs {n : Nat} (forCtx : q.forCtx = some n) (p : Piece) (h : Kept s u) :
    ∀ w ∈ wordsOf p, Asked a n (ctx s n).cgen q.op p w (addReqs u a tid q o p) := by
  intro w hw
  refine Asked.stays (P := fun _ => True) ?_ (addReqs_after p u)
  refine each_foldl (P := fun _ => True) (s := s) (Q := Asked a n (ctx s n).cgen q.op p) (kept_addReq a tid q o p)
    (grows_addReq (fun _ _ _ _ => trivial) p) (fun w u t => Asked.stays) (fun u w h => ?_)
    (wordsOf p) h w hw
  have same : q.forCtx.getD (thr u tid).ctx = n := by rw [forCtx]; rfl
  refine ⟨u.ids, wordReq u a tid q o p w, Nat.lt_succ_self _, look_put .., rfl, rfl, rfl, rfl, rfl, rfl, rfl, same, ?_⟩
  show (ctx u (q.forCtx.getD (thr u tid).ctx)).cgen = _
  rw [same, ctx, ctx, h.ctxs]

end

/-- An access that no thread makes for itself: its row, and the requests of its parts. -/
theorem addAccess_other (s : State) (tid : Nat) (q : Ask) (ps : List Piece) (posted : Bool) (other : q.agent.own = false) :
    ∃ (x : Access) (o : Bool), x.agent = q.agent ∧ x.left = (ps.map fun p => (wordsOf p).length).foldl (· + ·) 0 ∧
      addAccess s tid q ps posted
        = (s.ids, ps.foldl (fun s' p => addReqs s' s.ids tid q o p) { s with ids := s.ids + 1, accs := put s.accs s.ids x }) := by
  unfold addAccess
  rw [other]
  exact ⟨_, _, rfl, rfl, rfl⟩

/-! ## At another yarder, or a port -/

/-- One word's request at a port. -/
def portReq (acc tid : Nat) (j : Job) (op : Nat → Nat → ReqOp) (p : Piece) (s : State) (w : Nat × Nat × Nat) : State :=
  let at_ := match placeOf w.1 with | .store c _ => cycOf s (cmptOfCore c) + 1 | _ => 0
  { s with
    ids := s.ids + 1
    reqs := put s.reqs s.ids
      { acc := acc, tid := tid, ctx := j.ctx, cgen := (ctx s j.ctx).cgen, pkg := p.pkg, pa := w.1, len := w.2.1, off := w.2.2
        op := op w.2.1 w.2.2, gen := p.gen, src := 577, transit := 0, earliest := at_, piece := p.off, part := p.len, inOrder := true } }

section

variable {acc tid : Nat} {j : Job} {op : Nat → Nat → ReqOp}

theorem portReqs_eq (s : State) (p : Piece) : portReqs s acc tid j op p = (wordsOf p).foldl (portReq acc tid j op p) s := rfl

theorem kept_portReq (p : Piece) (s : State) (w : Nat × Nat × Nat) : Kept s (portReq acc tid j op p s w) :=
  ⟨rfl, rfl, rfl, rfl, rfl, rfl, rfl, rfl, rfl, rfl, rfl, rfl, fun _ => rfl⟩

theorem kept_portReqs (s : State) (p : Piece) : Kept s (portReqs s acc tid j op p) := kept_foldl _ (kept_portReq p) _ s

theorem grows_portReq (p : Piece) (s : State) (w : Nat × Nat × Nat) : Grows (fun _ => True) s (portReq acc tid j op p s w) :=
  .put trivial rfl rfl

theorem asked_portReqs (p : Piece) (h : Kept s u) : ∀ w ∈ wordsOf p, Asked acc j.ctx (ctx s j.ctx).cgen op p w (portReqs u acc tid j op p) := by
  rw [portReqs_eq]
  refine each_foldl (P := fun _ => True) (s := s) (Q := Asked acc j.ctx (ctx s j.ctx).cgen op p) (kept_portReq p)
    (fun u w _ => grows_portReq p u w) (fun w u t => Asked.stays) (fun u w h => ?_) (wordsOf p) h
  refine ⟨u.ids, _, Nat.lt_succ_self _, look_put .., rfl, rfl, rfl, rfl, rfl, rfl, rfl, rfl, ?_⟩
  show (ctx u j.ctx).cgen = _
  rw [ctx, ctx, h.ctxs]

theorem accs_portReqs (s : State) (p : Piece) : (portReqs s acc tid j op p).accs = s.accs :=
  foldl_field State.accs (portReq acc tid j op p) (fun _ _ => rfl) _ s

end

/-! ## The access of a job (R86) -/

/-- A job's access is under way: its row, and a request for every word of its parts, with the generation of the context and of the
leaves. -/
theorem jobAccess_sends (s : State) (id : Nat) (j : Job) (st : JobStep) (kind : AccKind) (va : Int) (n : Nat) (op : Nat → Nat → ReqOp)
    (ps : List Piece) :
    let r := jobAccess s id j st kind va n op ps
    ∃ (a : Nat) (y : Access), r.1 = { j with acc := some (a, st) } ∧ look r.2.accs a = some y ∧ y.agent = .job id
      ∧ y.left = (ps.map fun p => (wordsOf p).length).foldl (· + ·) 0
      ∧ ∀ p ∈ ps, ∀ w ∈ wordsOf p, Asked a j.ctx (ctx s j.ctx).cgen op p w r.2 := by
  unfold jobAccess
  dsimp only
  split
  · generalize hq : ({ kind := kind, va := wordOf va, size := n, next := 0, op := op, agent := .job id, forCtx := some j.ctx
                       now := (publishedBytes s j).isSome } : Ask) = q
    have forCtx : q.forCtx = some j.ctx := by rw [← hq]
    have hop : q.op = op := by rw [← hq]
    have agent : q.agent = .job id := by rw [← hq]
    obtain ⟨x, o, made, left, step⟩ := addAccess_other s (leadThread s j) q ps true (by rw [agent]; rfl)
    rw [step]
    refine ⟨s.ids, x, rfl, ?_, made.trans agent, left, ?_⟩
    · exact (congrArg (look · s.ids) (foldl_field State.accs _ (fun u p => accs_addReqs u _ _ q _ p) _ _)).trans (look_put ..)
    · refine each_foldl (P := fun _ => True) (s := s) (Q := fun p u => ∀ w ∈ wordsOf p, Asked s.ids j.ctx (ctx s j.ctx).cgen op p w u)
        (fun u p => kept_addReqs u _ _ q o p) (grows_addReqs fun _ _ _ _ => trivial) (fun p u t all grows w hw => (all w hw).stays grows)
        (fun u p h => hop ▸ asked_addReqs forCtx p h) ps ⟨rfl, rfl, rfl, rfl, rfl, rfl, rfl, rfl, rfl, rfl, rfl, rfl, fun _ => rfl⟩
  · refine ⟨s.ids, _, rfl, (congrArg (look · s.ids) (foldl_field State.accs _ (fun u p => accs_portReqs u p) _ _)).trans (look_put ..),
      rfl, rfl, ?_⟩
    · refine each_foldl (P := fun _ => True) (s := s) (Q := fun p u => ∀ w ∈ wordsOf p, Asked s.ids j.ctx (ctx s j.ctx).cgen op p w u)
        (fun u p => kept_portReqs u p) (fun u p _ => .foldl (kept_portReq p) (fun u w _ => grows_portReq p u w) _ (.refl u))
        (fun p u t all grows w hw => (all w hw).stays grows)
        (fun u p h => asked_portReqs p h) ps ⟨rfl, rfl, rfl, rfl, rfl, rfl, rfl, rfl, rfl, rfl, rfl, rfl, fun _ => rfl⟩

end Sys2Proof.Machine
end

section
/-! SUPPORT. What a job does with its elements (R94-R96): the access of one, the accesses of a batch as far as no home refuses, and
what is left of the job. -/

namespace Sys2Proof.Machine

variable {s s' t u : State} {j x : Job} {kind : AccKind} {n : Nat}

/-! ## The access of an element (R95, R96) -/

/-- The regions that an access of a kind must lie in. -/
def regionsFor (j : Job) (kind : AccKind) : List (Nat × Nat) :=
  if kind = .store then (cardOf j.card).writes j.card else (cardOf j.card).reads j.card

theorem regionsFor_eq (j : Job) (kind : AccKind) :
    (if kind == .store then (cardOf j.card).writes j.card else (cardOf j.card).reads j.card) = regionsFor j kind := by
  cases kind <;> rfl

theorem eltAccess_outside {va : Int} (h : va < 0 ∨ eltParts j (regionsFor j kind) va.toNat n = none) : eltAccess s j kind va n = .error 2 := by
  have none_ : (if va < 0 then none else eltParts j (regionsFor j kind) va.toNat n) = none := by
    rcases h with neg | out
    · rw [if_pos neg]
    · rw [out, ite_self]
  unfold eltAccess
  simp only [regionsFor_eq, none_]

section

variable {va : Int} {ps : List Piece} (place : 0 ≤ va) (parts : eltParts j (regionsFor j kind) va.toNat n = some ps)
  (free : ∀ p ∈ ps, eltRefused n p.pa p.len = none)
include place parts free

/-- Where no part is refused by its place, the homes decide. -/
theorem eltAccess_placed : eltAccess s j kind va n =
    if ps.any fun p => admitted s p.pkg p.pa p.gen == .stale then .error 4
    else if kind == .store && ps.any (keepsUnread s) then .error 5
    else .ok ps := by
  have some_ : (if va < 0 then none else eltParts j (regionsFor j kind) va.toNat n) = some ps := by rw [if_neg (not_lt.mpr place), parts]
  have taken : (ps.findSome? fun p => eltRefused n p.pa p.len) = none := List.findSome?_eq_none_iff.mpr free
  unfold eltAccess
  simp only [regionsFor_eq, some_, taken]

theorem eltAccess_stale (stale : ∃ p ∈ ps, admitted s p.pkg p.pa p.gen = .stale) : eltAccess s j kind va n = .error 4 := by
  rw [eltAccess_placed place parts free, if_pos (by simpa using stale)]

theorem eltAccess_unread (fresh : ∀ p ∈ ps, admitted s p.pkg p.pa p.gen ≠ .stale)
    (unread : kind = .store ∧ ∃ p ∈ ps, keepsUnread s p = true) :
    eltAccess s j kind va n = .error 5 := by
  rw [eltAccess_placed place parts free, if_neg (by simpa using fresh), if_pos (by simpa using unread)]

theorem eltAccess_ok (fresh : ∀ p ∈ ps, admitted s p.pkg p.pa p.gen ≠ .stale)
    (read : kind ≠ .store ∨ ∀ p ∈ ps, keepsUnread s p = false) :
    eltAccess s j kind va n = .ok ps := by
  rw [eltAccess_placed place parts free, if_neg (by simpa using fresh), if_neg (by simpa [imp_iff_not_or] using read)]

end

theorem eltAccess_some {va : Int} {ps : List Piece} (h : eltAccess s j kind va n = .ok ps) :
    0 ≤ va ∧ eltParts j (regionsFor j kind) va.toNat n = some ps := by
  unfold eltAccess at h
  simp only [regionsFor_eq] at h
  split at h
  · cases h
  · next ps' placed =>
    have same : ps' = ps := by
      split at h
      · cases h
      · split_ifs at h
        exact Except.ok.inj h
    subst same
    by_cases neg : va < 0
    · rw [if_pos neg] at placed
      cases placed
    · rw [if_neg neg] at placed
      exact ⟨not_lt.mp neg, placed⟩

/-! ## A step of a job does not change what its elements are -/

/-- The state and the job with which a step goes on have the same homes, and the same elements. -/
structure Alike (s s' : State) (j x : Job) : Prop where
  mem : s'.mem = s.mem
  frames : s'.frames = s.frames
  flaws : s'.flaws = s.flaws
  pkg : s'.pkg = s.pkg
  ctxs : s'.ctxs = s.ctxs
  card : x.card = j.card
  pages : x.pages = j.pages
  ctx : x.ctx = j.ctx

theorem admitAt_congr (frames : s'.frames = s.frames) (g fuel pkg pa : Nat) : admitAt s' g fuel pkg pa = admitAt s g fuel pkg pa := by
  induction fuel generalizing g pkg pa with
  | zero => rfl
  | succ fuel ih => simp only [admitAt, frames, ih]

theorem admitted_congr (frames : s'.frames = s.frames) (pkg pa : Nat) (gen : Option Nat) : admitted s' pkg pa gen = admitted s pkg pa gen := by
  unfold admitted
  cases gen with
  | none => rfl
  | some g => simp only [frames, admitAt_congr frames]

namespace Alike

variable (h : Alike s s' j x)
include h

theorem keepsUnread (p : Piece) : keepsUnread s' p = Machine.keepsUnread s p := by
  have unread : unreadableFor s' = unreadableFor s := by
    funext pkg pa n
    unfold unreadableFor eccWord flawAt
    rw [h.mem, h.flaws, h.pkg]
  simp only [Machine.keepsUnread, admitted_congr h.frames, unread]

theorem eltAccess (kind : AccKind) (va : Int) (n : Nat) : eltAccess s' x kind va n = Machine.eltAccess s j kind va n := by
  have unread : Machine.keepsUnread s' = Machine.keepsUnread s := funext h.keepsUnread
  simp only [Machine.eltAccess, eltParts, h.card, h.pages, admitted_congr h.frames, unread]

theorem cgen : (Machine.ctx s' x.ctx).cgen = (Machine.ctx s j.ctx).cgen := by rw [Machine.ctx, Machine.ctx, h.ctxs, h.ctx]

end Alike

/-! ## The accesses of a batch (R96) -/

/-- The first `k` of some addresses can be accessed, an address of none needs no access, and the next is refused with a status. -/
structure Runs (s : State) (j : Job) (kind : AccKind) (n : Nat) (l : List (Option Int)) (k : Nat) (f : Nat → List Piece) (why : Option Nat) :
    Prop where
  few : k ≤ l.length
  idle : ∀ i < k, l.getD i none = none → f i = []
  got : ∀ i < k, ∀ va, l.getD i none = some va → eltAccess s j kind va n = .ok (f i)
  ends : (k = l.length ∧ why = none) ∨ ∃ va e, k < l.length ∧ l.getD k none = some va ∧ eltAccess s j kind va n = .error e ∧ why = some e

/-- The parts of `k` accesses, each at its place in the batch's value from place `i` on. -/
def partsFrom (n i k : Nat) (f : Nat → List Piece) : List Piece :=
  (List.range k).flatMap fun m => (f m).map fun p => { p with off := p.off + (i + m) * n }

theorem partsFrom_succ (n i k : Nat) (f : Nat → List Piece) : partsFrom n i (k + 1) f =
    ((f 0).map fun p => { p with off := p.off + i * n }) ++ partsFrom n (i + 1) k (f ∘ Nat.succ) := by
  simp only [partsFrom, List.range_succ_eq_map, List.flatMap_cons, List.flatMap_map, Nat.add_zero, Function.comp, Nat.succ_eq_add_one]
  congr 2
  funext m
  rw [show i + 1 + m = i + (m + 1) by omega]

theorem Runs.tail {a : Option Int} {l : List (Option Int)} {k : Nat} {f : Nat → List Piece} {why : Option Nat}
    (h : Runs s j kind n (a :: l) (k + 1) f why) : Runs s j kind n l k (f ∘ Nat.succ) why where
  few := Nat.le_of_succ_le_succ h.few
  idle i hi := h.idle (i + 1) (by omega)
  got i hi := h.got (i + 1) (by omega)
  ends := by simpa using h.ends

theorem batchParts_runs {l : List (Option Int)} {k : Nat} {f : Nat → List Piece} {why : Option Nat} (i : Nat)
    (h : Runs s j kind n l k f why) : batchParts s j kind n i l = (partsFrom n i k f, i + k, why) := by
  induction l generalizing i k f with
  | nil =>
    have zero : k = 0 := Nat.le_zero.mp h.few
    subst zero
    rcases h.ends with ⟨-, rfl⟩ | ⟨_, _, hk, -⟩
    · rfl
    · cases hk
  | cons a l ih =>
    cases k with
    | zero =>
      rcases h.ends with ⟨hk, -⟩ | ⟨va, e, -, here, refused, rfl⟩
      · cases hk
      · have here' : a = some va := here
        simp [batchParts, here', refused, partsFrom]
    | succ k =>
      rw [partsFrom_succ, show i + (k + 1) = i + 1 + k by omega]
      cases a with
      | none => simp [batchParts, ih (i + 1) h.tail, h.idle 0 (by omega) rfl]
      | some va => simp [batchParts, ih (i + 1) h.tail, h.got 0 (by omega) va rfl]

theorem joinPieces_nil (ps : List Piece) : joinPieces ps = [] ↔ ps = [] := by
  cases ps with
  | nil => simp [joinPieces]
  | cons p ps =>
    simp only [joinPieces, reduceCtorEq, iff_false]
    split
    · simp
    · split <;> simp

theorem Alike.runs (h : Alike s s' j x) {l : List (Option Int)} {k : Nat} {f : Nat → List Piece} {why : Option Nat}
    (r : Runs s j kind n l k f why) : Runs s' x kind n l k f why := by
  obtain ⟨few, idle, got, ends⟩ := r
  exact ⟨few, idle, by simpa only [h.eltAccess] using got, by simpa only [h.eltAccess] using ends⟩

/-! ## What is left of the job (R94, R102) -/

/-- What the elements `es` leave of the job once they are written. -/
def past (c : Card) (x : Job) (es : List EltMove) : Job :=
  let clips (i : Nat) : Bool := c.op != 3 && (es.getD i ⟨none, none⟩).from_.isNone
  let skips := (List.range es.length).filter clips
  { x with n := x.n + es.length, clipd := x.clipd || !skips.isEmpty
           clipRows := x.clipRows + (skips.filter fun i => c.indexed && (x.n + i) % c.e0 = 0).length }

theorem foldl_eltDone (es : List EltMove) (x : Job) : es.foldl eltDone x = past (cardOf x.card) x es := by
  induction es generalizing x with
  | nil => simp [past]
  | cons e es ih =>
    rw [List.foldl_cons, ih]
    have next (a : Nat) : x.n + 1 + a = x.n + (a + 1) := by omega
    cases skip : (cardOf x.card).op != 3 && e.from_.isNone
    · simp [past, eltDone, skip, next, List.range_succ_eq_map, List.filter_map, Function.comp_def]
    · by_cases row : (cardOf x.card).indexed = true ∧ x.n % (cardOf x.card).e0 = 0
      · simp [past, eltDone, skip, next, row, List.range_succ_eq_map, List.filter_map, Function.comp_def]
        omega
      · simp [past, eltDone, skip, next, row, List.range_succ_eq_map, List.filter_map, Function.comp_def]

theorem batchDone_eq (es : List EltMove) (working : x.finished = false) :
    batchDone x es = { past (cardOf x.card) x es with finished := decide (x.status ≠ 0) } := by
  unfold batchDone
  rw [foldl_eltDone]
  by_cases zero : x.status = 0
  · have off : (past (cardOf x.card) x es).status = 0 := zero
    simp [zero, past, working]
  · have on : (past (cardOf x.card) x es).status = x.status := rfl
    simp [on, zero, jobStop]

/-- What a batch writes, its elements one after another. -/
theorem batchValue_eq (c : Card) (v i : Nat) (es : List EltMove) : batchValue c v i es = ((List.range es.length).map fun m =>
    (if (es.getD m ⟨none, none⟩).from_.isSome then partOf v c.w ((i + m) * c.w) else c.fill % 2 ^ (8 * c.w))
      * 2 ^ (8 * ((i + m) * c.w))).sum := by
  induction es generalizing i with
  | nil => rfl
  | cons e es ih =>
    simp only [batchValue, List.length_cons, List.range_succ_eq_map, List.map_cons, List.map_map, List.sum_cons, List.getD_cons_zero,
      Nat.add_zero, ih (i + 1), Card.fillValue]
    congr 2
    refine List.map_congr_left fun m _ => ?_
    simp only [Function.comp, Nat.succ_eq_add_one, List.getD_cons_succ, show i + 1 + m = i + (m + 1) by omega]

end Sys2Proof.Machine
end

section
/-! SUPPORT. The steps of a job at its lead yarder (R85, R94-R96, R107): what each leaves of the job, and what access is then under way. -/

namespace Sys2Proof.Machine

variable {s s' : State} {id m : Nat} {j x : Job}

/-! ## What a step comes to -/

/-- JOB_ARRIVAL leaves a job in its list as `x`. -/
def Becomes (s : State) (id m : Nat) (x : Job) : Prop := Does s (.jobArrival id m) fun t => SameMemory s t ∧ look t.jobs id = some x

/-- The job ends with a status (R96). -/
def Stops (s : State) (id m : Nat) (x : Job) (status : Nat) : Prop := Becomes s id m { x with status := status, finished := true }

/-- An access of the parts `ps` is under way for the job. -/
def Sends (s : State) (id m : Nat) (j x : Job) (st : JobStep) (op : Nat → Nat → ReqOp) (ps : List Piece) : Prop :=
  Does s (.jobArrival id m) fun t => SameMemory s t
    ∧ ∃ (a : Nat) (y : Access), look t.jobs id = some { x with acc := some (a, st) } ∧ look t.accs a = some y ∧ y.agent = .job id
      ∧ y.left = (ps.map fun p => (wordsOf p).length).foldl (· + ·) 0
      ∧ ∀ p ∈ ps, ∀ w ∈ wordsOf p, ∃ (q : Nat) (z : Req), look t.reqs q = some z ∧ z.acc = a ∧ z.pkg = p.pkg ∧ z.pa = w.1
        ∧ z.len = w.2.1 ∧ z.off = w.2.2 ∧ z.op = op w.2.1 w.2.2 ∧ z.gen = p.gen ∧ z.ctx = j.ctx ∧ z.cgen = (ctx s j.ctx).cgen

/-- JOB_ARRIVAL ends in a state with the job as given. -/
def Arrives (s : State) (id m : Nat) (r : Job × State) : Prop := jobArrival id m s = some { r.2 with jobs := put r.2.jobs id r.1 }

theorem Arrives.becomes {r : Job × State} (power : s.power = true) (h : Arrives s id m r) (hx : r.1 = x) : Becomes s id m x :=
  does_event power rfl h (mem_of_some (mem_jobArrival id m s) h) fun memory => ⟨memory, by rw [look_put, hx]⟩

theorem Arrives.stops {r : Job × State} {status : Nat} (power : s.power = true) (h : Arrives s id m r) (hx : r.1 = jobStop x status) :
    Stops s id m x status := h.becomes power hx

theorem Arrives.sends {st : JobStep} {kind : AccKind} {va : Int} {n : Nat} {op : Nat → Nat → ReqOp} {ps : List Piece} (power : s.power = true)
    (alike : Alike s s' j x) (h : Arrives s id m (jobAccess s' id x st kind va n op ps)) : Sends s id m j x st op ps := by
  obtain ⟨a, y, job, row, agent, left, asked⟩ := jobAccess_sends s' id x st kind va n op ps
  refine does_event power rfl h (mem_of_some (mem_jobArrival id m s) h) fun memory => ⟨memory, a, y, by rw [look_put, job], row, agent, left,
    fun p hp w hw => ?_⟩
  obtain ⟨q, z, -, found, acc, pkg, pa, len, off, hop, gen, ctx, cgen⟩ := asked p hp w hw
  exact ⟨q, z, found, acc, pkg, pa, len, off, hop, gen, ctx.trans alike.ctx, cgen.trans alike.cgen⟩

/-! ## A batch, as far as no home refuses (R96) -/

/-- `n` bytes at each address, as far as no home refuses one: `go` has the job, how many elements those are, and their parts. -/
def Carries (s : State) (id m : Nat) (j x : Job) (kind : AccKind) (n : Nat) (at_ : List (Option Int)) (go : Job → Nat → List Piece → Prop) :
    Prop :=
  ∀ (k : Nat) (f : Nat → List Piece), k ≤ at_.length →
    (∀ i < k, match at_.getD i none with | none => f i = [] | some va => eltAccess s j kind va n = .ok (f i)) →
    let ps := joinPieces ((List.range k).flatMap fun i => (f i).map fun p => { p with off := p.off + i * n })
    (k = at_.length → go x k ps)
    ∧ ∀ va e, k < at_.length → at_.getD k none = some va → eltAccess s j kind va n = .error e →
      (k = 0 → Stops s id m x e) ∧ (0 < k → go { x with status := 0 } k ps)

/-- The job whose batch ends before a refused element: it stops when those before it are written. -/
def slowed (x : Job) (why : Option Nat) : Job := if why.isSome then { x with status := 0 } else x

theorem Alike.slowed (h : Alike s s' j x) (why : Option Nat) : Alike s s' j (slowed x why) := by
  unfold Machine.slowed
  split
  · exact ⟨h.mem, h.frames, h.flaws, h.pkg, h.ctxs, h.card, h.pages, h.ctx⟩
  · exact h

theorem finished_slowed (why : Option Nat) : (slowed x why).finished = x.finished := by
  unfold slowed
  split <;> rfl

theorem card_slowed (why : Option Nat) : (slowed x why).card = x.card := by
  unfold slowed
  split <;> rfl

theorem carries_of {kind : AccKind} {n : Nat} {at_ : List (Option Int)} {go : Job → Nat → List Piece → Prop}
    (goes : ∀ k f why, Runs s j kind n at_ k f why → ¬(k = 0 ∧ why.isSome = true) → go (slowed x why) k (joinPieces (partsFrom n 0 k f)))
    (stops : ∀ f e, Runs s j kind n at_ 0 f (some e) → Stops s id m x e) : Carries s id m j x kind n at_ go := by
  intro k f few had ps
  have parts : ps = joinPieces (partsFrom n 0 k f) := by simp [ps, partsFrom]
  have idle (i : Nat) (hi : i < k) (none_ : at_.getD i none = none) : f i = [] := by simpa only [none_] using had i hi
  have got (i : Nat) (hi : i < k) (va : Int) (some_ : at_.getD i none = some va) : eltAccess s j kind va n = .ok (f i) := by
    simpa only [some_] using had i hi
  rw [parts]
  refine ⟨fun all => goes k f none ⟨few, idle, got, .inl ⟨all, rfl⟩⟩ (by simp), fun va e more here refused => ?_⟩
  have runs : Runs s j kind n at_ k f (some e) := ⟨few, idle, got, .inr ⟨va, e, more, here, refused, rfl⟩⟩
  refine ⟨fun zero => ?_, fun some_ => goes k f (some e) runs (by omega)⟩
  subst zero
  exact stops f e runs

/-! ## Writing a batch -/

/-- The elements `es` are written, with `v` as what their sources have given. -/
def Writes (s : State) (id m : Nat) (j x : Job) (es : List EltMove) (v : Nat) : Prop :=
  let c := cardOf j.card
  Carries s id m j x .store c.w (es.map (·.to_)) fun x k ps =>
    let value := ((List.range k).map fun i =>
      (if (es.getD i ⟨none, none⟩).from_.isSome then partOf v c.w (i * c.w) else c.fill % 2 ^ (8 * c.w)) * 2 ^ (8 * (i * c.w))).sum
    (ps = [] → Becomes s id m { past c x (es.take k) with finished := decide (x.status ≠ 0) })
    ∧ (ps ≠ [] → Sends s id m j x (.dest (es.take k)) (fun n o => .write (partOf value n o)) ps)


section

variable {es : List EltMove} {v k : Nat} {ps : List Piece} {why : Option Nat}

theorem batchWrite_stops {e : Nat} (parts : batchParts s' x .store (cardOf x.card).w 0 (es.map (·.to_)) = (ps, 0, some e)) :
    (batchWrite s' id x es v).1 = jobStop x e := by
  unfold batchWrite
  simp only [parts]
  rfl

theorem batchWrite_goes (parts : batchParts s' x .store (cardOf x.card).w 0 (es.map (·.to_)) = (ps, k, why))
    (some_ : ¬(k = 0 ∧ why.isSome = true)) : batchWrite s' id x es v =
      if ps.isEmpty then (batchDone (slowed x why) (es.take k), s')
      else jobAccess s' id (slowed x why) (.dest (es.take k)) .store (firstAddr (es.map (·.to_))) (k * (cardOf x.card).w)
        (fun n o => .write (partOf (batchValue (cardOf x.card) v 0 (es.take k)) n o)) (joinPieces ps) := by
  unfold batchWrite
  simp only [parts]
  cases k with
  | zero => cases why with
    | none => rfl
    | some e => exact absurd ⟨rfl, rfl⟩ some_
  | succ k => rfl

theorem batchRead_stops {e : Nat} (parts : batchParts s' x .load (cardOf x.card).w 0 (es.map (·.from_)) = (ps, 0, some e)) :
    (batchRead s' id x es).1 = jobStop x e := by
  unfold batchRead
  simp only [parts]

theorem batchRead_goes (parts : batchParts s' x .load (cardOf x.card).w 0 (es.map (·.from_)) = (ps, k, why))
    (some_ : ¬(k = 0 ∧ why.isSome = true)) : batchRead s' id x es =
      if ps.isEmpty then batchWrite s' id (slowed x why) (es.take k) 0
      else jobAccess s' id (slowed x why) (.source (es.take k)) .load (firstAddr (es.map (·.from_))) (k * (cardOf x.card).w)
        (fun _ _ => .read) (joinPieces ps) := by
  unfold batchRead
  simp only [parts]
  cases k with
  | zero => cases why with
    | none => rfl
    | some e => exact absurd ⟨rfl, rfl⟩ some_
  | succ k => rfl

end

/-- The value of the first elements of a batch. -/
theorem batchValue_take {es : List EltMove} {k : Nat} (c : Card) (v : Nat) (few : k ≤ es.length) : batchValue c v 0 (es.take k) =
    ((List.range k).map fun i =>
      (if (es.getD i ⟨none, none⟩).from_.isSome then partOf v c.w (i * c.w) else c.fill % 2 ^ (8 * c.w)) * 2 ^ (8 * (i * c.w))).sum := by
  rw [batchValue_eq, List.length_take, Nat.min_eq_left few]
  congr 1
  refine List.map_congr_left fun i hi => ?_
  simp [List.getElem?_take_of_lt (List.mem_range.mp hi)]

theorem Arrives.writes {es : List EltMove} {v : Nat} (power : s.power = true) (alike : Alike s s' j x) (working : x.finished = false)
    (h : Arrives s id m (batchWrite s' id x es v)) : Writes s id m j x es v := by
  unfold Writes
  refine carries_of (fun k f why runs some_ => ?_) fun f e runs => ?_
  · have parts := batchParts_runs 0 (alike.runs runs)
    rw [Nat.zero_add, ← alike.card] at parts
    rw [Arrives, batchWrite_goes parts some_] at h
    rw [← alike.card]
    refine ⟨fun none_ => ?_, fun more => ?_⟩
    · rw [(joinPieces_nil _).mp none_, List.isEmpty_nil, if_pos rfl] at h
      refine Arrives.becomes power h ?_
      rw [batchDone_eq _ ((finished_slowed why).trans working), card_slowed]
    · rw [if_neg (by simpa using mt (joinPieces_nil _).mpr more)] at h
      rw [← batchValue_take _ _ (by simpa using runs.few)]
      exact Arrives.sends power (alike.slowed why) h
  · have parts := batchParts_runs 0 (alike.runs runs)
    rw [Nat.zero_add, ← alike.card] at parts
    exact h.stops power (batchWrite_stops parts)

/-! ## Reading a batch -/

/-- The sources of `es` are read, and the elements then written. -/
def Reads (s : State) (id m : Nat) (j x : Job) (es : List EltMove) : Prop :=
  Carries s id m j x .load (cardOf j.card).w (es.map (·.from_)) fun x k ps =>
    (ps = [] → Writes s id m j x (es.take k) 0) ∧ (ps ≠ [] → Sends s id m j x (.source (es.take k)) (fun _ _ => .read) ps)

theorem Arrives.reads {es : List EltMove} (power : s.power = true) (alike : Alike s s' j x) (working : x.finished = false)
    (h : Arrives s id m (batchRead s' id x es)) : Reads s id m j x es := by
  unfold Reads
  refine carries_of (fun k f why runs some_ => ?_) fun f e runs => ?_
  · have parts := batchParts_runs 0 (alike.runs runs)
    rw [Nat.zero_add, ← alike.card] at parts
    rw [Arrives, batchRead_goes parts some_] at h
    rw [← alike.card]
    refine ⟨fun none_ => ?_, fun more => ?_⟩
    · rw [(joinPieces_nil _).mp none_, List.isEmpty_nil, if_pos rfl] at h
      exact Arrives.writes power (alike.slowed why) ((finished_slowed why).trans working) h
    · rw [if_neg (by simpa using mt (joinPieces_nil _).mpr more)] at h
      exact Arrives.sends power (alike.slowed why) h
  · have parts := batchParts_runs 0 (alike.runs runs)
    rw [Nat.zero_add, ← alike.card] at parts
    exact h.stops power (batchRead_stops parts)

end Sys2Proof.Machine
end

section
/-! SUPPORT. Which step a job takes (R85, R94, R96, R107), one equation per case. -/

namespace Sys2Proof.Machine

variable {s s' : State} {id m : Nat} {j x : Job}

/-- What element `p` does, `x` being its row's index (R94). -/
def element (c : Card) (p x : Nat) : EltMove :=
  let i := p % c.e0
  let r := p / c.e0 % c.e1
  let k := p / (c.e0 * c.e1)
  let inside (o : Int) (n b : Nat) : Prop := 0 ≤ o + n ∧ o + n < b
  let to_ : Int := c.dst + (i * c.w : Nat) + r * c.d1 + k * c.d2
  let clipped : EltMove := ⟨if c.cfill = true ∧ c.op ≠ 2 then some to_ else none, none⟩
  if c.op = 3 then ⟨some to_, none⟩
  else if c.op = 1 ∨ c.op = 2 then
    if c.clip = true ∧ c.b1 ≤ x then clipped
    else if c.op = 1 then ⟨some to_, some (c.src + x * c.s1 + (i * c.w : Nat))⟩
    else ⟨some (c.dst + x * c.d1 + (i * c.w : Nat)), some (c.src + r * c.s1 + (i * c.w : Nat))⟩
  else if c.clip = true ∧ ¬(inside c.o0 i c.b0 ∧ inside c.o1 r c.b1 ∧ inside c.o2 k c.b2) then clipped
  else ⟨some to_, some (c.src + (c.o0 + i) * c.w + (c.o1 + r) * c.s1 + (c.o2 + k) * c.s2)⟩

theorem inBounds_iff {c : Card} {i r k : Nat} : inBounds c i r k = true ↔
    (0 ≤ c.o0 + i ∧ c.o0 + i < c.b0) ∧ (0 ≤ c.o1 + r ∧ c.o1 + r < c.b1) ∧ 0 ≤ c.o2 + k ∧ c.o2 + k < c.b2 := by
  simp [inBounds, and_assoc]

theorem indexed_iff {c : Card} : c.indexed = true ↔ c.op = 1 ∨ c.op = 2 := by simp [Card.indexed]

theorem eltPlan_eq (c : Card) (p x : Nat) : eltPlan c p x = element c p x := by
  simp only [eltPlan, element, indexed_iff, Bool.and_eq_true, decide_eq_true_eq, bne_iff_ne, Bool.not_eq_true', ← Bool.not_eq_true, inBounds_iff]

/-- The next `n` elements, with `v` as the indices of their rows. -/
theorem batchOf_eq (j : Job) (n v : Nat) : batchOf j n v = (List.range n).map fun i =>
    element (cardOf j.card) (j.n + i) (partOf v 4 (4 * ((j.n + i) / (cardOf j.card).e0 - j.n / (cardOf j.card).e0))) := by
  simp only [batchOf, eltPlan_eq]

/-! ## Before the first element -/

/-- A job of a yarder that is dispatched and has not ended. -/
structure Working (s : State) (id : Nat) (j : Job) : Prop where
  power : s.power = true
  listed : look s.jobs id = some j
  finished : j.finished = false
  mark : j.mark = false
  sent : j.sent.isSome = true

section

variable (h : Working s id j)
include h

theorem Working.started : (j.finished || j.mark || j.sent.isNone) = false := by
  obtain ⟨_, _, finished, mark, sent⟩ := h
  cases hs : j.sent <;> simp_all

theorem jobArrival_away {k : Nat} (away : j.arrived = false) (lead : leadOf s j = .cmpt k) : exec (.jobArrival id m) s = .next s := by
  refine event_of_none h.power ?_
  simp [jobArrival, h.listed, h.started, away, jobReaches, lead]

theorem jobArrival_reaches (away : j.arrived = false) (lead : ∀ k, leadOf s j ≠ .cmpt k) : Becomes s id m { j with arrived := true } := by
  have reaches : jobReaches s id j = some ({ j with arrived := true }, { s with away := s.away.filter fun p => p.body != .job id }) := by
    unfold jobReaches
    split
    · next k hk => exact absurd hk (lead k)
    · rfl
  refine Arrives.becomes (r := ({ j with arrived := true }, { s with away := s.away.filter fun p => p.body != .job id })) h.power ?_ rfl
  simp [Arrives, jobArrival, h.listed, h.started, away, reaches]

theorem jobArrival_asked (here : j.arrived = true) (quiet : j.acc = none) (asked : j.asked = true) (more : j.n < (cardOf j.card).count) :
    Stops s id m j 7 := by
  refine Arrives.stops (r := (jobStop j 7, s)) h.power ?_ rfl
  simp [Arrives, jobArrival, h.listed, h.started, here, quiet, asked, more]

/-- With no access in flight a job goes on where it need not stop; it waits for its thread's earlier accesses (R122, R134). -/
theorem jobArrival_held (here : j.arrived = true) (quiet : j.acc = none) (goes : j.asked = false ∨ (cardOf j.card).count ≤ j.n)
    (held : engineHeld s j.tid j.before = true) : exec (.jobArrival id m) s = .next s := by
  have on : (j.asked && j.n < (cardOf j.card).count) = false := by rcases goes with h | h <;> simp [h]
  exact event_of_none h.power (by simp only [jobArrival, h.listed, h.started, here, quiet, on, held]; rfl)

theorem jobArrival_next (here : j.arrived = true) (quiet : j.acc = none) (goes : j.asked = false ∨ (cardOf j.card).count ≤ j.n)
    (free : engineHeld s j.tid j.before = false) : Arrives s id m (jobNext s id j m) := by
  have on : (j.asked && j.n < (cardOf j.card).count) = false := by rcases goes with h | h <;> simp [h]
  simp only [Arrives, jobArrival, h.listed, h.started, here, quiet, on, free]
  rfl

end

/-! ## The next accesses (R94, R95, R107) -/

theorem Alike.refl (s : State) (j : Job) : Alike s s j j := ⟨rfl, rfl, rfl, rfl, rfl, rfl, rfl, rfl⟩

/-- The atomic on the refcount at aux is refused, or is under way. -/
theorem Arrives.refcount {st : JobStep} {v : Nat} (power : s.power = true) (h : Arrives s id m (refcount s id j st v)) :
    (∀ e, eltAccess s j .load (cardOf j.card).aux 8 = .error e → Stops s id m j e)
    ∧ ∀ ps, eltAccess s j .load (cardOf j.card).aux 8 = .ok ps → Sends s id m j j st (fun n o => .amo 0 (partOf v n o)) ps := by
  unfold Machine.refcount at h
  refine ⟨fun e refused => ?_, fun ps got => ?_⟩
  · simp only [refused] at h
    exact h.stops power rfl
  · simp only [got] at h
    exact h.sends power (.refl s j)

/-- The addresses of the indices of the rows of the next `n` elements. -/
def indexAt (j : Job) (n : Nat) : List (Option Int) :=
  (List.range ((j.n + n - 1) / (cardOf j.card).e0 + 1 - j.n / (cardOf j.card).e0)).map fun i =>
    some (((cardOf j.card).aux + 4 * (j.n / (cardOf j.card).e0 + i) : Nat) : Int)

theorem Arrives.index {n : Nat} (power : s.power = true) (h : Arrives s id m (batchIndex s id j n)) :
    Carries s id m j j .load 4 (indexAt j n) fun _ k ps => Sends s id m j j (.index (eltsIn j n k)) (fun _ _ => .read) ps := by
  refine carries_of (fun k f why runs some_ => ?_) fun f e runs => ?_
  · have parts := batchParts_runs 0 runs
    rw [Nat.zero_add] at parts
    unfold batchIndex at h
    simp only [show batchParts s j .load 4 0 ((List.range _).map _) = _ from parts] at h
    refine Arrives.sends (n := 4 * k) (va := firstAddr (indexAt j n)) (kind := .load) power (.refl s j) ?_
    cases k with
    | zero => cases why with
      | none => exact h
      | some e => exact absurd ⟨rfl, rfl⟩ some_
    | succ k => exact h
  · have parts := batchParts_runs 0 runs
    unfold batchIndex at h
    simp only [show batchParts s j .load 4 0 ((List.range _).map _) = _ from parts] at h
    exact h.stops power rfl

/-- How many elements the next batch has (R209). -/
def batchSize (s : State) (j : Job) (m : Nat) : Nat :=
  if (publishedBytes s j).isSome then (cardOf j.card).count - j.n else min (max m 1) ((cardOf j.card).count - j.n)

theorem jobNext_refRead (cow : (cardOf j.card).cow = true) (unread : j.cowRead = false) : jobNext s id j m = refcount s id j .refRead 0 := by
  simp [jobNext, cow, unread]

theorem jobNext_refDrop (cow : (cardOf j.card).cow = true) (read : j.cowRead = true) (all : (cardOf j.card).count ≤ j.n) :
    jobNext s id j m = refcount s id j .refDrop (2 ^ 64 - 1) := by
  simp [jobNext, cow, read, Nat.sub_eq_zero_of_le all]

theorem jobNext_done (plain : (cardOf j.card).cow = false) (all : (cardOf j.card).count ≤ j.n) :
    jobNext s id j m = ({ j with finished := true }, s) := by
  simp [jobNext, plain, Nat.sub_eq_zero_of_le all]

theorem jobNext_batch (ready : (cardOf j.card).cow = false ∨ j.cowRead = true) (more : j.n < (cardOf j.card).count) : jobNext s id j m =
    if (cardOf j.card).indexed then batchIndex s id j (batchSize s j m) else batchRead s id j (batchOf j (batchSize s j m) 0) := by
  have go : ((cardOf j.card).cow && !j.cowRead) = false := by rcases ready with h | h <;> simp [h]
  have left : 0 < (cardOf j.card).count - j.n := by omega
  simp only [jobNext, go, left, if_true]
  rfl

/-! ## The answer to an access (R94, R96, R107) -/

section

variable {a : Nat} {st : JobStep} {y : Access}

/-- The answer to an access in flight has come. -/
structure Answered (s : State) (id : Nat) (j : Job) (a : Nat) (st : JobStep) (y : Access) : Prop extends Working s id j where
  here : j.arrived = true
  waits : j.acc = some (a, st)
  row : look s.accs a = some y

/-- The state in which the answer is taken. -/
def answeredAt (s : State) (a : Nat) (y : Access) : State := tick { s with accs := del s.accs a } (cmptOf y.tid) (y.done + 1)

/-- The job with no access in flight. -/
def atRest (j : Job) : Job := { j with acc := none }

theorem alike_answered : Alike s (answeredAt s a y) j (atRest j) :=
  ⟨tick_keeps State.mem (fun _ _ _ _ => rfl) .., tick_keeps State.frames (fun _ _ _ _ => rfl) .., tick_keeps State.flaws (fun _ _ _ _ => rfl) ..,
    tick_keeps State.pkg (fun _ _ _ _ => rfl) .., tick_keeps State.ctxs (fun _ _ _ _ => rfl) .., rfl, rfl, rfl⟩

variable (h : Answered s id j a st y)
include h

theorem jobArrival_waits (open_ : y.left ≠ 0 ∨ y.replies ≠ 0) : exec (.jobArrival id m) s = .next s := by
  have none_ : jobReply s id j a st = none := by
    unfold jobReply
    simp only [h.row]
    rw [if_pos (by simpa using open_)]
  refine event_of_none h.power ?_
  simp [jobArrival, h.listed, h.toWorking.started, h.here, h.waits, none_]

theorem jobArrival_answer (left : y.left = 0) (replies : y.replies = 0) : Arrives s id m
    (if y.poisoned || y.stale then
      jobFailed (answeredAt s a y) id (atRest j) st y.val (if y.poisoned then 5 else 4) (y.worst.getD 0)
     else jobValue (answeredAt s a y) id (atRest j) st y.val) := by
  have some_ : jobReply s id j a st = some (if y.poisoned || y.stale then
      jobFailed (answeredAt s a y) id (atRest j) st y.val (if y.poisoned then 5 else 4) (y.worst.getD 0)
     else jobValue (answeredAt s a y) id (atRest j) st y.val) := by
    unfold jobReply
    simp only [h.row]
    rw [if_neg (by simp [left, replies])]
    rfl
  simp [Arrives, jobArrival, h.listed, h.toWorking.started, h.here, h.waits, some_]

/-- The access has given a value. -/
theorem jobArrival_value (left : y.left = 0) (replies : y.replies = 0) (whole : y.poisoned = false) (fresh : y.stale = false) :
    Arrives s id m (jobValue (answeredAt s a y) id (atRest j) st y.val) := by
  have step := jobArrival_answer (m := m) h left replies
  rw [whole, fresh] at step
  exact step

/-- The access has failed. -/
theorem jobArrival_failed (left : y.left = 0) (replies : y.replies = 0) (bad : y.poisoned = true ∨ y.stale = true) :
    Arrives s id m (jobFailed (answeredAt s a y) id (atRest j) st y.val (if y.poisoned = true then 5 else 4) (y.worst.getD 0)) := by
  have step := jobArrival_answer (m := m) h left replies
  rw [if_pos (by simpa using bad)] at step
  exact step

/-- What a step does with its value. -/
theorem value_steps (left : y.left = 0) (replies : y.replies = 0) (whole : y.poisoned = false) (fresh : y.stale = false) :
    (∀ n, st = .index n → Reads s id m j (atRest j) (batchOf j n y.val))
    ∧ (∀ es, st = .source es → Writes s id m j (atRest j) es y.val)
    ∧ (∀ es, st = .dest es → Becomes s id m { past (cardOf j.card) (atRest j) es with finished := decide (j.status ≠ 0) })
    ∧ (st = .refRead → (y.val = 1 → Becomes s id m { atRest j with status := 1, finished := true, refc := 1 })
      ∧ (y.val ≠ 1 → Becomes s id m { atRest j with cowRead := true }))
    ∧ (st = .refDrop → Becomes s id m { atRest j with finished := true, refc := min y.val 0xFFFF }) := by
  have step := jobArrival_value (m := m) h left replies whole fresh
  have working : (atRest j).finished = false := h.finished
  refine ⟨fun n is => ?_, fun es is => ?_, fun es is => ?_, fun is => ⟨fun sole => ?_, fun shared => ?_⟩, fun is => ?_⟩ <;> subst is
  · exact Arrives.reads h.power alike_answered working step
  · exact Arrives.writes h.power alike_answered working step
  · exact step.becomes h.power (batchDone_eq es working)
  · exact step.becomes h.power (if_pos sole)
  · exact step.becomes h.power (if_neg shared)
  · exact step.becomes h.power rfl

/-- What a step does whose access has failed. -/
theorem failed_steps (left : y.left = 0) (replies : y.replies = 0) (bad : y.poisoned = true ∨ y.stale = true) :
    let failure := if y.poisoned = true then 5 else 4
    let later := { atRest j with status := failure }
    let off := y.worst.getD 0
    (∀ n, st = .index n → (eltsIn j n (off / 4) = 0 → Stops s id m (atRest j) failure)
      ∧ (0 < eltsIn j n (off / 4) → Reads s id m j later (batchOf j (eltsIn j n (off / 4)) y.val)))
    ∧ (∀ es, st = .source es → (off / (cardOf j.card).w = 0 → Stops s id m (atRest j) failure)
      ∧ (0 < off / (cardOf j.card).w → Writes s id m j later (es.take (off / (cardOf j.card).w)) y.val))
    ∧ (∀ es, st = .dest es → Stops s id m (past (cardOf j.card) (atRest j) (es.take (off / (cardOf j.card).w))) failure)
    ∧ (st = .refRead ∨ st = .refDrop → Stops s id m (atRest j) failure) := by
  intro failure later off
  have step := jobArrival_failed (m := m) h left replies bad
  have working : later.finished = false := h.finished
  obtain ⟨mem, frames, flaws, pkg, ctxs, -⟩ := alike_answered (s := s) (j := j) (a := a) (y := y)
  have alike : Alike s (answeredAt s a y) j later := ⟨mem, frames, flaws, pkg, ctxs, rfl, rfl, rfl⟩
  refine ⟨fun n is => ?_, fun es is => ?_, fun es is => ?_, fun is => ?_⟩
  · subst is
    refine ⟨fun none_ => ?_, fun some_ => ?_⟩
    · refine step.stops h.power (x := atRest j) ?_
      exact congrArg Prod.fst (if_pos none_)
    · refine Arrives.reads h.power alike working (s' := answeredAt s a y) ?_
      have go : jobFailed (answeredAt s a y) id (atRest j) (.index n) y.val failure off
          = batchRead (answeredAt s a y) id later (batchOf (atRest j) (eltsIn j n (off / 4)) y.val) := if_neg some_.ne'
      exact go ▸ step
  · subst is
    refine ⟨fun none_ => step.stops h.power (x := atRest j) (congrArg Prod.fst (if_pos none_)), fun some_ => ?_⟩
    refine Arrives.writes h.power alike working (s' := answeredAt s a y) ?_
    have go : jobFailed (answeredAt s a y) id (atRest j) (.source es) y.val failure off
        = batchWrite (answeredAt s a y) id later (es.take (off / (cardOf j.card).w)) y.val := if_neg some_.ne'
    exact go ▸ step
  · subst is
    exact step.stops h.power (congrArg (jobStop · failure) (foldl_eltDone ..))
  · rcases is with is | is <;> subst is <;> exact step.stops h.power rfl

end

/-- What a job with no access in flight does next (R94, R107). -/
theorem next_steps (work : Working s id j) (here : j.arrived = true) (quiet : j.acc = none)
    (goes : j.asked = false ∨ (cardOf j.card).count ≤ j.n) (free : engineHeld s j.tid j.before = false) :
    let c := cardOf j.card
    let refcount (st : JobStep) (v : Nat) : Prop :=
      (∀ e, eltAccess s j .load c.aux 8 = .error e → Stops s id m j e)
      ∧ ∀ ps, eltAccess s j .load c.aux 8 = .ok ps → Sends s id m j j st (fun n o => .amo 0 (partOf v n o)) ps
    (c.cow = true → j.cowRead = false → refcount .refRead 0)
    ∧ (c.cow = true → j.cowRead = true → c.count ≤ j.n → refcount .refDrop (2 ^ 64 - 1))
    ∧ (c.cow = false → c.count ≤ j.n → Becomes s id m { j with finished := true })
    ∧ ((c.cow = false ∨ j.cowRead = true) → j.n < c.count →
      (¬(c.op = 1 ∨ c.op = 2) → Reads s id m j j (batchOf j (batchSize s j m) 0))
      ∧ (c.op = 1 ∨ c.op = 2 → Carries s id m j j .load 4 (indexAt j (batchSize s j m)) fun _ k ps =>
        Sends s id m j j (.index (eltsIn j (batchSize s j m) k)) (fun _ _ => .read) ps)) := by
  have next : Arrives s id m (jobNext s id j m) := jobArrival_next work here quiet goes free
  refine ⟨fun cow unread => ?_, fun cow read all => ?_, fun plain all => ?_, fun ready more => ⟨fun plain => ?_, fun indexed => ?_⟩⟩
  · rw [jobNext_refRead cow unread] at next
    exact next.refcount work.power
  · rw [jobNext_refDrop cow read all] at next
    exact next.refcount work.power
  · rw [jobNext_done plain all] at next
    exact next.becomes work.power rfl
  · rw [jobNext_batch ready more, if_neg (mt indexed_iff.mp plain)] at next
    exact next.reads work.power (.refl s j) work.finished
  · rw [jobNext_batch ready more, if_pos (indexed_iff.mpr indexed)] at next
    exact next.index work.power

end Sys2Proof.Machine
end

section
/-! SUPPORT. Jobs whose times are published (R209): they are sent 4 cycles after their acceptance, and their requests can be served at
once. -/

namespace Sys2Proof.Machine

variable {s t u : State} {j x : Job} {k id m : Nat}

/-! ## Where a published job is led (R85, R209) -/

theorem cmptOfCore_lt {c : Nat} (h : c < 16384) : cmptOfCore c < 32 := by
  rw [cmptOfCore, if_pos h]
  omega

theorem cmptOf_lt {t : Nat} (h : t < 262144) : cmptOf t < 32 := cmptOfCore_lt (by unfold coreOf; omega)

theorem cmptOfTile_lt {t : Nat} (h : t < 2048) : cmptOfTile t < 32 := by
  rw [cmptOfTile, if_pos h]
  omega

/-- The places that lie in a compartment lie in one of the 32 (R32-R37). -/
theorem placeCmpt_lt {pa : Nat} (h : placeCmpt (placeOf pa) = some k) : k < 32 := by
  unfold placeOf at h
  by_cases below : pa < 0x80_0000_0000
  · rw [if_pos below] at h
    cases h
  rw [if_neg below] at h
  by_cases below : pa < 0x80_2000_0000
  · rw [if_pos below] at h
    exact Option.some.inj h ▸ cmptOfCore_lt (by omega)
  rw [if_neg below] at h
  by_cases below : pa < 0x81_0000_0000
  · rw [if_pos below] at h
    cases h
  rw [if_neg below] at h
  by_cases below : pa < 0x81_0800_0000
  · rw [if_pos below] at h
    exact Option.some.inj h ▸ cmptOf_lt (by omega)
  rw [if_neg below] at h
  by_cases below : pa < 0x82_0000_0000
  · rw [if_pos below] at h
    cases h
  rw [if_neg below] at h
  by_cases below : pa < 0x82_1000_0000
  · rw [if_pos below] at h
    exact Option.some.inj h ▸ cmptOfTile_lt (by omega)
  rw [if_neg below] at h
  by_cases below : pa < 0x83_0000_0000
  · rw [if_pos below] at h
    cases h
  rw [if_neg below] at h
  by_cases below : pa < 0x83_0800_0000
  · rw [if_pos below] at h
    exact Option.some.inj h ▸ cmptOfTile_lt (by omega)
  rw [if_neg below] at h
  by_cases below : pa < 0x84_0000_0000
  · rw [if_pos below] at h
    cases h
  rw [if_neg below] at h
  by_cases below : pa < 0x85_0000_0000
  · rw [if_pos below] at h
    cases h
  rw [if_neg below] at h
  by_cases below : pa < 0x1000_0000_0000
  · rw [if_pos below] at h
    cases h
  rw [if_neg below] at h
  by_cases below : pa < 0x2000_0000_0000
  · rw [if_pos below] at h
    cases h
  rw [if_neg below] at h
  by_cases below : pa < 0x3000_0000_0000
  · rw [if_pos below] at h
    cases h
  rw [if_neg below] at h
  cases h

/-- A compartment that leads a job is one of the 32, or the issuer's. -/
theorem lead_cmpt (lead : leadOf s j = .cmpt k) : k < 32 ∨ k = cmptOf j.tid := by
  unfold leadOf at lead
  dsimp only at lead
  split at lead
  · next pkg pa _ =>
    split_ifs at lead
    split at lead
    · cases lead
    · cases lead
    · next p _ _ =>
      cases found : placeCmpt (placeOf pa) with
      | none => exact .inr (by simpa [found] using (Lead.cmpt.inj lead).symm)
      | some q =>
        refine .inl ?_
        have same : q = k := by simpa [found] using Lead.cmpt.inj lead
        exact same ▸ placeCmpt_lt found
  · exact .inr (Lead.cmpt.inj lead).symm

/-- Every page that a region of a published job has lies in the issuer's compartment, which is one of the 32. -/
theorem published_page {r : Nat × Nat} {p : Page} (published : (publishedBytes s j).isSome = true)
    (region : r ∈ (cardOf j.card).reads j.card ++ (cardOf j.card).writes j.card) (page : p ∈ pagesIn j.pages r) : cmptOf j.tid < 32 := by
  unfold publishedBytes at published
  dsimp only at published
  split at published
  · next all =>
    simp only [Bool.and_eq_true, List.all_eq_true] at all
    have inside := (all.2 r region p page).1
    obtain ⟨q, place, -, here⟩ := (Option.any_eq_true ..).mp inside |>.imp fun q h => by simpa using h
    obtain ⟨p', -, rfl⟩ := Option.map_eq_some_iff.mp place
    exact placeCmpt_lt here
  · cases published

/-- An element's access lies in a region that has a page. -/
theorem page_of_parts {kind : AccKind} {va n : Nat} {ps : List Piece} (bytes : 0 < n) (h : eltParts j (regionsFor j kind) va n = some ps) :
    ∃ r ∈ regionsFor j kind, ∃ p, p ∈ pagesIn j.pages r := by
  unfold eltParts at h
  split at h
  · next covered =>
    obtain ⟨r, region, low, high⟩ : ∃ r ∈ regionsFor j kind, r.1 ≤ va ∧ va < r.2 := by
      simpa using List.all_eq_true.mp covered 0 (List.mem_range.mpr bytes)
    obtain ⟨p, page⟩ : ∃ p, pageOf j.pages va = some p := by
      unfold pageParts splitPage at h
      cases found : pageOf j.pages va with
      | some p => exact ⟨p, rfl⟩
      | none =>
        dsimp only at h
        split at h <;> simp [found] at h
    have inside := List.find?_some page
    simp only [Bool.and_eq_true, decide_eq_true_eq] at inside
    refine ⟨r, region, p, List.mem_filter.mpr ⟨List.mem_of_find?_eq_some page, ?_⟩⟩
    simp only [Bool.and_eq_true, decide_eq_true_eq]
    omega
  · cases h

theorem lead_lt {kind : AccKind} {va : Int} {n : Nat} {ps : List Piece} (lead : leadOf s j = .cmpt k)
    (published : (publishedBytes s j).isSome = true) (bytes : 0 < n) (h : eltAccess s j kind va n = .ok ps) : k < 32 := by
  obtain ⟨r, region, p, page⟩ := page_of_parts bytes (eltAccess_some h).2
  have member : r ∈ (cardOf j.card).reads j.card ++ (cardOf j.card).writes j.card := by
    unfold regionsFor at region
    split at region
    · exact List.mem_append_right _ region
    · exact List.mem_append_left _ region
  exact (lead_cmpt lead).elim id fun own => own ▸ published_page published member page

/-! ## Requests that can be served at once (R209) -/

/-- A request with no way to go, served from the cycle in which it is made on. -/
def Prompt (s : State) (k : Nat) (z : Req) : Prop := z.transit = 0 ∧ (z.remote = false → z.earliest = cycOf s k)

/-- Every new request of a state is one. -/
def Quick (s : State) (k : Nat) (t : State) : Prop := ∀ r ∈ t.reqs, r ∈ s.reqs ∨ Prompt s k r.2

theorem quick_of_reqs (h : t.reqs = s.reqs) : Quick s k t := fun _ hr => .inl (h ▸ hr)

theorem cmptOf_lead (few : k < 32) : cmptOf (k * 8192) = k := by
  rw [cmptOf, coreOf, cmptOfCore, if_pos (by omega)]
  omega

/-- A job with published times whose lead is a compartment. -/
structure Published (s : State) (k : Nat) (j : Job) : Prop where
  lead : leadOf s j = .cmpt k
  bytes : (publishedBytes s j).isSome = true

theorem Published.slowed (h : Published s k j) (why : Option Nat) : Published s k (slowed j why) := by
  unfold Machine.slowed
  split
  · exact ⟨h.lead, h.bytes⟩
  · exact h

theorem card_width (ws : List Word) : 0 < (cardOf ws).w := Nat.two_pow_pos _

section

variable (h : Published s k j)
include h

theorem jobAccess_quick {st : JobStep} {kind : AccKind} {va : Int} {n : Nat} {op : Nat → Nat → ReqOp} {ps : List Piece}
    (few : ps = [] ∨ k < 32) :
    Quick s k (jobAccess s id j st kind va n op ps).2 := by
  unfold jobAccess leadThread
  simp only [h.lead, h.bytes]
  obtain ⟨y, o, -, -, step⟩ := addAccess_other s (k * 8192)
    { kind := kind, va := wordOf va, size := n, next := 0, op := op, agent := .job id, forCtx := some j.ctx, now := true } ps true rfl
  rw [step]
  rcases few with rfl | few
  · exact quick_of_reqs rfl
  · refine (Grows.foldl (P := Prompt s k) (s := s) (u := { s with ids := s.ids + 1, accs := put s.accs s.ids y }) (fun u p => kept_addReqs u ..)
      (grows_addReqs fun u p w kept => ?_) ps ⟨rfl, rfl, rfl, rfl, rfl, rfl, rfl, rfl, rfl, rfl, rfl, rfl, fun _ => rfl⟩).new
    refine ⟨rfl, fun near => ?_⟩
    have here : cycOf u (cmptOf (k * 8192)) = cycOf s k := by rw [cmptOf_lead few, kept.clock]
    refine Eq.trans ?_ here
    show (if (reachOf u (cmptOf (k * 8192)) p).remote = true then 0 else _) = _
    rw [show (reachOf u (cmptOf (k * 8192)) p).remote = false from near]
    simp

/-- The parts of a batch, if there are any, come of an access that is not refused. -/
theorem batchParts_few {kind : AccKind} {n : Nat} (bytes : 0 < n) (i : Nat) (l : List (Option Int)) :
    (batchParts s j kind n i l).1 = [] ∨ k < 32 := by
  induction l generalizing i with
  | nil => exact .inl rfl
  | cons a l ih =>
    cases a with
    | none => exact ih (i + 1)
    | some va =>
      simp only [batchParts]
      split
      · exact .inl rfl
      · next got => exact .inr (lead_lt h.lead h.bytes bytes got)

theorem batchWrite_quick (es : List EltMove) (v : Nat) : Quick s k (batchWrite s id j es v).2 := by
  have few := batchParts_few (kind := .store) h (card_width j.card) 0 (es.map (·.to_))
  unfold batchWrite
  dsimp only
  split
  · unfold stopAt
    dsimp only
    split
    · exact quick_of_reqs (Walked.foldl (fun s p => Walked.noteWrite ..) _ s).reqs
    · exact quick_of_reqs rfl
  · next ps n why _ parts =>
    rw [parts] at few
    split
    · exact quick_of_reqs rfl
    · exact jobAccess_quick (h.slowed why) (few.imp_left fun none_ => (joinPieces_nil _).mpr none_)

theorem batchRead_quick (es : List EltMove) : Quick s k (batchRead s id j es).2 := by
  have few := batchParts_few (kind := .load) h (card_width j.card) 0 (es.map (·.from_))
  unfold batchRead
  dsimp only
  split
  · exact quick_of_reqs rfl
  · next ps n why _ parts =>
    rw [parts] at few
    split
    · exact batchWrite_quick (h.slowed why) _ _
    · exact jobAccess_quick (h.slowed why) (few.imp_left fun none_ => (joinPieces_nil _).mpr none_)

theorem batchIndex_quick (n : Nat) : Quick s k (batchIndex s id j n).2 := by
  have few := batchParts_few (kind := .load) (n := 4) h (by norm_num) 0 (indexAt j n)
  unfold batchIndex
  dsimp only
  split
  · exact quick_of_reqs rfl
  · next ps n why _ parts =>
    rw [show batchParts s j .load 4 0 (indexAt j _) = _ from parts] at few
    exact jobAccess_quick h (few.imp_left fun none_ => (joinPieces_nil _).mpr none_)

theorem refcount_quick (st : JobStep) (v : Nat) : Quick s k (refcount s id j st v).2 := by
  unfold refcount
  dsimp only
  split
  · exact quick_of_reqs rfl
  · next got => exact jobAccess_quick h (.inr (lead_lt h.lead h.bytes (by norm_num) got))

theorem jobNext_quick : Quick s k (jobNext s id j m).2 := by
  unfold jobNext
  dsimp only
  split
  · exact refcount_quick h _ _
  split
  · split
    · exact batchIndex_quick h _
    · exact batchRead_quick h _
  split
  · exact refcount_quick h _ _
  · exact quick_of_reqs rfl

end

/-! ## The second part of the obligation -/

theorem published_mark {bytes : Nat} (published : publishedBytes s j = some bytes) : j.mark = false := by
  cases hm : j.mark with
  | false => rfl
  | true => simp [publishedBytes, hm] at published

/-- Sending an entry takes no time. -/
theorem cycOf_dispatchEntry_job {c : Nat} {e : Entry} (mill : e.mill = none) (job : e.job = some id) (listed : look s.jobs id = some j)
    (mark : j.mark = false) : cycOf (dispatchEntry s c e) c = cycOf s c := by
  rw [dispatchEntry_job mill job listed mark, cycOf, cmpt_sendJob, cmpt_setCmpt]
  rfl

/-- A published job goes to its yarder 4 cycles after its acceptance (R209). -/
theorem published_dispatch {c bytes : Nat} {e : Entry} (power : s.power = true) (listed : look s.jobs id = some j)
    (published : publishedBytes s j = some bytes) (found : (cmpt s c).entries.find? (fun x => x.id == e.id) = some e)
    (unsent : e.dispatched = false) (free : e.edges = []) (mill : e.mill = none) (job : e.job = some id) :
    Does s (.footprintDispatch c e.id) fun t => SameMemory s t
      ∧ ∃ q, look t.jobs id = some q ∧ q.sent = some (max (cycOf s c) (e.taken + 4)) := by
  have mark := published_mark published
  have at_ : dispatchCycle s e = e.taken + 4 := by simp [dispatchCycle, mill, job, listed, published]
  have step := footprintDispatch_eq (s := s) (c := c) (e := e) ⟨found, unsent, free, by simp [millTurn, mill]⟩
  obtain ⟨q, now, sent, -⟩ := (dispatched_job (s := s) (c := c) mill job listed).2 mark
  refine does_event power rfl step (by simp) fun memory => ⟨memory, q, now, ?_⟩
  rw [sent, cycOf_dispatchEntry_job mill job (by simpa using listed) mark, cycOf_tick, at_]

/-- Its requests can be served at once. -/
theorem published_requests {bytes : Nat} (work : Working s id j) (published : publishedBytes s j = some bytes)
    (lead : leadOf s j = .cmpt k) (here : j.arrived = true) (quiet : j.acc = none) (goes : j.asked = false ∨ (cardOf j.card).count ≤ j.n)
    (free : engineHeld s j.tid j.before = false) :
    Does s (.jobArrival id m) fun t => SameMemory s t ∧ ∀ r ∈ t.reqs, r ∉ s.reqs →
      r.2.transit = 0 ∧ (r.2.remote = false → r.2.earliest = cycOf s k) := by
  have step : Arrives s id m (jobNext s id j m) := jobArrival_next work here quiet goes free
  refine does_event work.power rfl step (mem_of_some (mem_jobArrival id m s) step) fun memory => ⟨memory, fun r hr new => ?_⟩
  exact (jobNext_quick ⟨lead, by simp [published]⟩ r hr).resolve_left new

/-- Settles O40: an element's access by its parts and their homes (`eltAccess_placed`), a batch as far as no home refuses
(`batchParts_runs`), the step after each answer (`value_steps`, `failed_steps`), and the requests of a published job (`jobNext_quick`). -/
theorem jobElements : Obligations.JobElements := by
  unfold Obligations.JobElements
  refine ⟨fun s id m j power listed finished mark sent => ?_, fun s id bytes j power listed published =>
    ⟨fun c e found unsent free mill job => published_dispatch power listed published found unsent free mill job,
      fun m k lead here finished sent quiet goes free =>
        published_requests ⟨power, listed, finished, published_mark published, sent⟩ published lead here quiet goes free⟩⟩
  have work : Working s id j := ⟨power, listed, finished, mark, sent⟩
  refine ⟨fun kind va n ps => ⟨eltAccess_outside, fun place parts free => ⟨eltAccess_stale place parts free, fun fresh =>
      ⟨eltAccess_unread place parts free fresh, eltAccess_ok place parts free fresh⟩⟩⟩,
    fun away => ⟨fun ⟨k, lead⟩ => jobArrival_away work away lead, jobArrival_reaches work away⟩, jobArrival_asked work,
    fun here quiet goes => ⟨jobArrival_held work here quiet goes, fun free => ?_⟩, fun a st x here waits row => ?_⟩
  · have next := next_steps (m := m) work here quiet goes free
    simp only [batchOf_eq] at next
    exact next
  · have answered : Answered s id j a st x := ⟨work, here, waits, row⟩
    have value := value_steps (m := m) answered
    have failed := failed_steps (m := m) answered
    simp only [batchOf_eq] at value failed
    exact ⟨jobArrival_waits answered, value, failed⟩

end Sys2Proof.Machine
end

section
/-! SUPPORT. Packets of a context, and what a landing takes of the records that wait for it (R186, R429). -/

namespace Sys2Proof.Machine

variable {s t u : State} {n c : Nat}

/-! ## Host packets (R426, R429) -/

/-- A packet in the words of R429: word `i`. -/
def word (ws : List Word) (i : Nat) : Nat := (ws.getD i 0).toNat

theorem ctxOf_eq (ws : List Word) : ctxOf ws = (ws.headD 0).toNat / 2 ^ 12 % 2 ^ 12 := by
  cases ws <;> rfl

theorem seqOf_eq (ws : List Word) : seqOf ws = BitVec.ofNat 32 (word ws 0 / 2 ^ 32) := by
  apply BitVec.eq_of_toNat_eq
  simp [seqOf, bits, pw, word]

theorem clearFrom_iff {ws : List Word} {i : Nat} : clearFrom ws i = true ↔ ∀ j, i ≤ j → j < 16 → word ws j = 0 := by
  simp only [clearFrom, List.all_eq_true, List.mem_range, beq_iff_eq]
  constructor
  · intro h j low high
    have := h (j - i) (by omega)
    rwa [show i + (j - i) = j by omega] at this
  · exact fun h j hj => h (i + j) (by omega) (by omega)

theorem maskOk_iff {ws : List Word} : maskOk ws = true ↔ word ws 1 < 2 ^ 32 ∧ ∀ j, 2 ≤ j → j < 16 → word ws j = 0 := by
  rw [maskOk, Bool.and_eq_true, decide_eq_true_eq, clearFrom_iff]
  rfl

theorem maskCmpts_eq (s : State) (n m : Nat) :
    maskCmpts s n m = (cmptsOf s (ctx s n).part).filter fun k => m == 0 || m.testBit k := by
  refine List.filter_congr fun k _ => ?_
  rw [bit, Nat.testBit_eq_decide_div_mod_eq]
  rfl

/-- The state without the packet at the head. -/
def unpacked (s : State) (rest : List (List Word)) : State := setHost s fun h => { h with taken := rest }

theorem packetOf_head {ws : List Word} {rest : List (List Word)} (taken : s.host.taken = ws :: rest) :
    packetOf s (kindOf ws) = some (ws, unpacked s rest) := by
  simp [packetOf, taken, unpacked]

/-! ## A core's landing (R186) -/

/-- A record enters the landing where its priority has room, and waits otherwise. -/
def enterHeld (at_ : Nat) (k : Core) (e : LandEntry) : Core :=
  if landingRoom k e.prio then { k with landing := k.landing ++ [{ markHeld e with since := at_ }] } else { k with heldRecs := k.heldRecs ++ [e] }

/-- The records that wait enter in order. -/
def filled (at_ : Nat) (k : Core) : Core := k.heldRecs.foldl (enterHeld at_) { k with heldRecs := [] }

theorem fillLanding_eq (s : State) (c : Nat) : fillLanding s c = setCore s c (filled (cycOf s (cmptOfCore c) + 1) (core s c)) := by
  have steps (l : List LandEntry) (k : Core) : l.foldl (fun s e =>
      let k := core s c
      if atPrio k e.prio < 16 && !(k.heldRecs.any fun h => h.prio == e.prio) then
        setCore s c { k with landing := k.landing ++ [{ markHeld e with since := cycOf s (cmptOfCore c) + 1 }] }
      else setCore s c { k with heldRecs := k.heldRecs ++ [e] }) (setCore s c k)
      = setCore s c (l.foldl (enterHeld (cycOf s (cmptOfCore c) + 1)) k) := by
    induction l generalizing k with
    | nil => rfl
    | cons e l ih =>
      rw [List.foldl_cons, List.foldl_cons, ← ih]
      congr 1
      simp only [core_setCore, enterHeld]
      by_cases room : landingRoom k e.prio = true
      · rw [if_pos room]
        exact (if_pos room).trans (setCore_setCore ..)
      · rw [if_neg room]
        exact (if_neg room).trans (setCore_setCore ..)
  exact steps ..

/-- What a record's entry leaves of a core: all but the two queues of its landing. -/
theorem filled_keeps {β : Type} (f : Core → β) (keeps : ∀ k x y, f { k with landing := x, heldRecs := y } = f k) (at_ : Nat) (k : Core) :
    f (filled at_ k) = f k := by
  have step (k : Core) (e : LandEntry) : f (enterHeld at_ k e) = f k := by
    unfold enterHeld
    split
    · exact keeps k _ k.heldRecs
    · exact keeps k k.landing _
  have steps (l : List LandEntry) (k : Core) : f (l.foldl (enterHeld at_) k) = f k := by
    induction l generalizing k with
    | nil => rfl
    | cons e l ih => rw [List.foldl_cons, ih, step]
  exact (steps ..).trans (keeps k k.landing [])

@[simp] theorem markHeld_ctx (e : LandEntry) : (markHeld e).ctx = e.ctx := by unfold markHeld; split <;> rfl
@[simp] theorem markHeld_prio (e : LandEntry) : (markHeld e).prio = e.prio := by unfold markHeld; split <;> rfl
@[simp] theorem markHeld_kind (e : LandEntry) : (markHeld e).kind = e.kind := by unfold markHeld; split <;> rfl
@[simp] theorem markHeld_stid (e : LandEntry) : (markHeld e).stid = e.stid := by unfold markHeld; split <;> rfl
@[simp] theorem markHeld_seq (e : LandEntry) : (markHeld e).seq = e.seq := by unfold markHeld; split <;> rfl

/-! ## What a core holds of a context -/

/-- A core holds nothing of a context among its messages, its ready records and its landing. -/
structure Rid (n : Nat) (k : Core) : Prop where
  deck : ∀ r ∈ k.deck, r.ctx ≠ n
  pairQ : ∀ r ∈ k.pairQ, r.ctx ≠ n
  landing : ∀ e ∈ k.landing, e.ctx ≠ n
  heldRecs : ∀ e ∈ k.heldRecs, e.ctx ≠ n

/-- What a context has lost at a core. -/
theorem Rid.lost {k : Core} (h : Rid n k) : (∀ r ∈ k.deck, r.ctx ≠ n) ∧ (∀ r ∈ k.pairQ, r.ctx ≠ n) ∧ ∀ e ∈ k.landing, e.ctx ≠ n :=
  ⟨h.deck, h.pairQ, h.landing⟩

theorem rid_default (n : Nat) : Rid n {} := ⟨nofun, nofun, nofun, nofun⟩

theorem Rid.enterHeld {at_ : Nat} {k : Core} {e : LandEntry} (h : Rid n k) (other : e.ctx ≠ n) : Rid n (enterHeld at_ k e) := by
  unfold Machine.enterHeld
  split
  · refine ⟨h.deck, h.pairQ, fun x hx => ?_, h.heldRecs⟩
    rcases List.mem_append.mp hx with old | new
    · exact h.landing x old
    · rw [List.mem_singleton.mp new]
      simpa using other
  · refine ⟨h.deck, h.pairQ, h.landing, fun x hx => ?_⟩
    rcases List.mem_append.mp hx with old | new
    · exact h.heldRecs x old
    · rw [List.mem_singleton.mp new]
      exact other

theorem Rid.filled {at_ : Nat} {k : Core} (h : Rid n k) : Rid n (filled at_ k) := by
  have steps (l : List LandEntry) (hl : ∀ e ∈ l, e.ctx ≠ n) (k : Core) (hk : Rid n k) : Rid n (l.foldl (Machine.enterHeld at_) k) := by
    induction l generalizing k with
    | nil => exact hk
    | cons e l ih => exact ih (fun x hx => hl x (List.mem_cons_of_mem _ hx)) _ (hk.enterHeld (hl e List.mem_cons_self))
  exact steps _ h.heldRecs _ ⟨h.deck, h.pairQ, h.landing, nofun⟩

theorem rid_setCore {k : Core} (h : ∀ m, Rid n (core s m)) (hk : Rid n k) (m : Nat) : Rid n (core (setCore s c k) m) := by
  by_cases same : c = m
  · subst same
    rwa [core_setCore]
  · rw [core_setCore_ne _ _ same]
    exact h m

theorem rid_fillLanding (h : ∀ m, Rid n (core s m)) (m : Nat) : Rid n (core (fillLanding s c) m) := by
  rw [fillLanding_eq]
  exact rid_setCore h (h c).filled m

end Sys2Proof.Machine
end

section
/-! SUPPORT. Killing a context (R109, R225, R231, R429): its threads, its work, and the answer once every unit has reported. -/

namespace Sys2Proof.Machine

variable {s t u : State} {n c : Nat}

/-! ## The end of its threads (R225, R231) -/

/-- A thread issues nothing further. -/
def Gone (t : Thread) : Prop := t.life = .free ∨ t.life = .killed

/-- A context is being killed, and some unit has still to report. -/
structure Dies (n g : Nat) (r : Option (BitVec 32)) (st : Nat) (us : List Nat) (s : State) : Prop where
  cgen : (ctx s n).cgen = g
  killing : (ctx s n).killing = some (r, st, us)
  alone : (ctx s n).preempt = none

/-- What the end of threads leaves as it was, while context `n` is being killed: cores and jobs, and no thread comes back. -/
structure Reaps (n : Nat) (s t : State) : Prop where
  cores : t.cores = s.cores
  jobs : t.jobs = s.jobs
  taken : t.host.taken = s.host.taken
  now : t.now = s.now
  gone : ∀ id, Gone (thr s id) → Gone (thr t id)
  dies : ∀ g r st us, us ≠ [] → Dies n g r st us s → Dies n g r st us t

namespace Reaps

theorem refl (n : Nat) (s : State) : Reaps n s s := ⟨rfl, rfl, rfl, rfl, fun _ => id, fun _ _ _ _ _ => id⟩

theorem trans (h : Reaps n s t) (g : Reaps n t u) : Reaps n s u where
  cores := g.cores.trans h.cores
  jobs := g.jobs.trans h.jobs
  taken := g.taken.trans h.taken
  now := g.now.trans h.now
  gone id hid := g.gone id (h.gone id hid)
  dies k r st us open_ hd := g.dies k r st us open_ (h.dies k r st us open_ hd)

theorem foldl {α : Type} {f : State → α → State} (h : ∀ s x, Reaps n s (f s x)) (l : List α) (s : State) : Reaps n s (l.foldl f s) := by
  induction l generalizing s with
  | nil => exact refl n s
  | cons x l ih => exact (h s x).trans (ih _)

/-- What each step of a fold ends stays ended. -/
theorem each {α : Type} {f : State → α → State} {name : α → Nat} (h : ∀ s x, Reaps n s (f s x)) (ends : ∀ s x, Gone (thr (f s x) (name x)))
    (l : List α) (s : State) : ∀ x ∈ l, Gone (thr (l.foldl f s) (name x)) := by
  induction l generalizing s with
  | nil => simp
  | cons x l ih => exact List.forall_mem_cons.mpr ⟨(foldl h l _).gone _ (ends s x), ih _⟩

theorem setThr {tid : Nat} {x : Thread} (h : Gone (thr s tid) → Gone x) : Reaps n s (setThr s tid x) := by
  refine ⟨rfl, rfl, rfl, rfl, fun id hid => ?_, fun _ _ _ _ _ => fun ⟨a, b, c⟩ => ⟨a, b, c⟩⟩
  by_cases same : tid = id
  · subst same
    rw [thr_setThr]
    exact h hid
  · rwa [thr_setThr_ne _ _ same]

/-- A change to a context that is no part of its end. -/
theorem setCtx {m : Nat} {x : Ctx} (h : m = n → x.cgen = (ctx s n).cgen ∧ x.killing = (ctx s n).killing ∧ x.preempt = (ctx s n).preempt) :
    Reaps n s (setCtx s m x) := by
  refine ⟨rfl, rfl, rfl, rfl, fun _ => id, fun _ _ _ _ _ => fun ⟨a, b, c⟩ => ?_⟩
  by_cases same : m = n
  · subst same
    obtain ⟨hg, hk, hp⟩ := h rfl
    exact ⟨by rw [ctx_setCtx, hg, a], by rw [ctx_setCtx, hk, b], by rw [ctx_setCtx, hp, c]⟩
  · exact ⟨by rwa [ctx_setCtx_ne _ _ same], by rwa [ctx_setCtx_ne _ _ same], by rwa [ctx_setCtx_ne _ _ same]⟩

theorem packetDone (seq : BitVec 32) (st k : Nat) : Reaps n s (packetDone s seq st k) :=
  ⟨rfl, rfl, rfl, rfl, fun _ => id, fun _ _ _ _ _ => fun ⟨a, b, c⟩ => ⟨a, b, c⟩⟩

/-- Another context's pre-emption ends; one that is being killed has none. -/
theorem checkPreempt (s : State) (m : Nat) : Reaps n s (checkPreempt s m) := by
  unfold Machine.checkPreempt
  split
  · exact refl n s
  · next ks seq at_ pre =>
    split
    · exact refl n s
    · by_cases same : m = n
      · subst same
        exact ⟨rfl, rfl, rfl, rfl, fun _ => id, fun _ _ _ _ _ hd => absurd (pre.symm.trans hd.alone) (by simp)⟩
      · exact (setCtx fun h => absurd h same).trans (packetDone ..)

/-- Another context's kill ends; one with a unit that has still to report does not. -/
theorem checkKill (s : State) (m : Nat) : Reaps n s (checkKill s m) := by
  unfold Machine.checkKill
  split
  · next reply status none_ =>
    split
    · exact refl n s
    · have ended : Reaps n s (Machine.setCtx s m { ctx s m with killing := none }) := by
        by_cases same : m = n
        · subst same
          refine ⟨rfl, rfl, rfl, rfl, fun _ => id, fun g r st us open_ hd => ?_⟩
          have units := none_.symm.trans hd.killing
          simp only [Option.some.injEq, Prod.mk.injEq] at units
          exact absurd units.2.2.symm open_
        · exact setCtx fun h => absurd h same
      dsimp only
      split
      · exact ended.trans (packetDone ..)
      · exact ended
  · exact refl n s

theorem leaveCrews (s : State) (tid : Nat) : Reaps n s (leaveCrews s tid) := by
  unfold Machine.leaveCrews
  have crews : Reaps n s ((thr s tid).crew.foldl (fun u e =>
      match e with
      | some c => Machine.setCtx u (thr s tid).ctx (dropMember (ctx u (thr s tid).ctx) c tid)
      | none => u) s) := by
    refine foldl (fun u e => ?_) _ s
    split
    · refine setCtx fun same => ?_
      rw [same]
      unfold dropMember
      split <;> exact ⟨rfl, rfl, rfl⟩
    · exact refl n u
  have threads : ((thr s tid).crew.foldl (fun u e =>
      match e with
      | some c => Machine.setCtx u (thr s tid).ctx (dropMember (ctx u (thr s tid).ctx) c tid)
      | none => u) s).threads = s.threads := by
    refine foldl_field State.threads _ (fun u e => ?_) _ s
    split <;> rfl
  exact crews.trans (setThr fun gone => by rwa [thr, threads] at gone)

theorem freeSlot (s : State) (tid : Nat) : Reaps n s (freeSlot s tid) :=
  (((leaveCrews s tid).trans (setThr fun _ => .inl rfl)).trans (checkPreempt ..)).trans (checkKill ..)

theorem checkKilled (s : State) (tid : Nat) : Reaps n s (checkKilled s tid) := by
  unfold Machine.checkKilled
  split
  · exact freeSlot ..
  · exact refl n s

theorem setTile (s : State) (l : Nat) (x : Tile) : Reaps n s (Machine.setTile s l x) :=
  ⟨rfl, rfl, rfl, rfl, fun _ => id, fun _ _ _ _ _ => fun ⟨a, b, c⟩ => ⟨a, b, c⟩⟩

theorem completeEntry (s : State) (k : Nat) (f : Entry → Bool) : Reaps n s (completeEntry s k f) :=
  ⟨rfl, rfl, rfl, rfl, fun _ => id, fun _ _ _ _ _ => fun ⟨a, b, c⟩ => ⟨a, b, c⟩⟩

theorem retireFlags (s : State) (l : Nat) (op : MillOp) : Reaps n s (retireFlags s l op) := by
  unfold Machine.retireFlags
  dsimp only
  split
  · exact setTile ..
  · refine Reaps.trans ?_ (setTile ..)
    exact setThr id

theorem cancelHeld (s : State) (tid : Nat) : Reaps n s (cancelHeld s tid) := by
  unfold Machine.cancelHeld
  dsimp only
  split
  · exact refl n s
  · next h _ =>
    exact Reaps.trans ((setThr (tid := tid) (x := { thr s tid with held := none }) id).trans (retireFlags ..)) (completeEntry ..)

/-- A packet that a killed thread has not sent is no part of it. -/
theorem packets (s : State) (p : Tab Packet) : Reaps n s { s with packets := p } :=
  ⟨rfl, rfl, rfl, rfl, fun _ => id, fun _ _ _ _ _ => fun ⟨a, b, c⟩ => ⟨a, b, c⟩⟩

theorem killThread (s : State) (tid : Nat) : Reaps n s (killThread s tid) := by
  unfold Machine.killThread
  dsimp only
  split
  · exact refl n s
  · split
    · exact (((cancelHeld s tid).trans (packets ..)).trans (setThr fun _ => .inr rfl)).trans (checkKilled ..)
    · exact ((cancelHeld s tid).trans (setThr fun _ => .inr rfl)).trans (checkKilled ..)

theorem scrub (s : State) (tid : Nat) : Reaps n s (Machine.setThr s tid (scrub (thr s tid))) := setThr id

theorem pump (s : State) (p : Nat) : Reaps n s (pump s p) := by
  unfold Machine.pump
  dsimp only
  split
  · split
    · exact ⟨rfl, rfl, rfl, rfl, fun _ => id, fun _ _ _ _ _ => fun ⟨a, b, c⟩ => ⟨a, b, c⟩⟩
    · exact refl n s
  · exact refl n s

end Reaps

/-- A killed thread is gone. -/
theorem gone_killThread (s : State) (tid : Nat) : Gone (thr (killThread s tid) tid) := by
  have ends (u : State) (x : Thread) (killed : x.life = .killed) : Gone (thr (checkKilled (setThr u tid x) tid) tid) :=
    (Reaps.checkKilled (n := 0) (setThr u tid x) tid).gone tid (by rw [thr_setThr]; exact .inr killed)
  unfold killThread
  dsimp only
  split
  · next already =>
    simp only [Bool.or_eq_true, beq_iff_eq, Bool.and_eq_true] at already
    exact already.imp_right And.left
  · split
    · exact ends _ _ rfl
    · exact ends _ _ rfl

/-! ## The end of its work (R109, R231) -/

/-- A thread of a killed context is killed, and its registers are cleared (R34, R225). -/
def reapThread (s : State) (p : Nat × Thread) : State := setThr (killThread s p.1) p.1 (scrub (thr (killThread s p.1) p.1))

theorem reaps_reapThread (s : State) (p : Nat × Thread) : Reaps n s (reapThread s p) := (Reaps.killThread s p.1).trans (.scrub ..)

theorem gone_reapThread (s : State) (p : Nat × Thread) : Gone (thr (reapThread s p) p.1) := by
  rw [reapThread, thr_setThr]
  exact gone_killThread s p.1

/-- Every thread of a context ends. -/
def reaped (s : State) (n : Nat) : State := (holders s n).foldl reapThread s

theorem reaps_reaped (s : State) (n : Nat) : Reaps n s (reaped s n) := .foldl reaps_reapThread _ s

theorem mem_holders {id : Nat} (life : (thr s id).life ≠ .free) (ctx : (thr s id).ctx = n) : (id, thr s id) ∈ holders s n := by
  have listed : look s.threads id = some (thr s id) := by
    cases found : look s.threads id with
    | none => simp [thr, lookD, found] at life
    | some x => simp [thr, lookD, found]
  exact List.mem_filter.mpr ⟨mem_of_look listed, by simp [life, ctx]⟩

theorem gone_reaped {id : Nat} (ctx : (thr s id).ctx = n) : Gone (thr (reaped s n) id) := by
  by_cases life : (thr s id).life = .free
  · exact (reaps_reaped s n).gone id (.inl life)
  · exact Reaps.each (n := n) (name := Prod.fst) reaps_reapThread gone_reapThread _ s _ (mem_holders life ctx)

/-- The state in which the context's generation has advanced, and the schedulers, the cores and the tiles have dropped its work. -/
def dropped (s : State) (n : Nat) (reply : Option (BitVec 32)) (status : Nat) : State :=
  let x := ctx s n
  let s := setCtx s n { x with cgen := x.cgen + 1, preempt := none, saved := [], stopped := []
                               killing := some ((killReply x reply status).1, (killReply x reply status).2, yarderUnits) }
  { s with
    cmpts := s.cmpts.map (fun p => (p.1, { p.2 with arrivals := p.2.arrivals.filter (fun e => e.ctx != n)
                                                    entries := p.2.entries.filter (fun e => e.ctx != n || (e.dispatched && e.mill.isSome))
                                                    markQ := p.2.markQ.filter fun j => (look s.jobs j).any fun b => b.ctx != n }))
    jobs := s.jobs.filter (fun p => p.2.ctx != n)
    cores := s.cores.map (fun p => (p.1, purgeCore s n p.2))
    tiles := s.tiles.map (fun p => (p.1, purgeTile n p.2))
    packets := s.packets.filter (fun p => bodyCtx p.2.body != some n)
    launches := s.launches.map (fun p => if p.2.ctx = n then (p.1, { p.2 with running := false, ended := true }) else p)
    parts := s.parts.map (fun p => (p.1, { p.2 with queue := p.2.queue.filter fun l => (look s.launches l).any fun b => b.ctx != n })) }

/-- Records that waited behind its entries enter their landings. -/
def refilled (s : State) : State := s.cores.foldl (fun s p => if p.2.heldRecs.isEmpty then s else fillLanding s p.1) s

theorem killCtx_eq (s : State) (n : Nat) (reply : Option (BitVec 32)) (status : Nat) : killCtx s n reply status =
    pump (checkKill (reaped (refilled (dropped s n reply status)) n) n) (ctx s n).part := rfl

theorem rid_purgeCore (s : State) (n : Nat) (k : Core) : Rid n (purgeCore s n k) := by
  refine ⟨fun r hr => ?_, fun r hr => ?_, fun e he => ?_, fun e he => ?_⟩
  · simpa using (List.mem_filter.mp hr).2
  · simpa using (List.mem_filter.mp hr).2
  · simpa using (List.mem_filter.mp he).2
  · simpa using (List.mem_filter.mp he).2

theorem rid_dropped (s : State) (n : Nat) (reply : Option (BitVec 32)) (status m : Nat) : Rid n (core (dropped s n reply status) m) := by
  have row := look_map s.cores (fun _ k => purgeCore (setCtx s n { ctx s n with
    cgen := (ctx s n).cgen + 1, preempt := none, saved := [], stopped := []
    killing := some ((killReply (ctx s n) reply status).1, (killReply (ctx s n) reply status).2, yarderUnits) }) n k) m
  have same : core (dropped s n reply status) m = ((look s.cores m).map fun k => purgeCore _ n k).getD {} := congrArg (·.getD {}) row
  rw [same]
  cases look s.cores m with
  | none => exact rid_default n
  | some k => exact rid_purgeCore ..

/-- Filling landings touches the cores alone. -/
theorem refilled_eq (s : State) : ∃ x, refilled s = { s with cores := x } := by
  have steps (l : List (Nat × Core)) (u : State) :
      ∃ x, l.foldl (fun s p => if p.2.heldRecs.isEmpty then s else fillLanding s p.1) u = { u with cores := x } := by
    induction l generalizing u with
    | nil => exact ⟨_, rfl⟩
    | cons p l ih =>
      rw [List.foldl_cons]
      split
      · exact ih u
      · rw [fillLanding_eq]
        obtain ⟨x, hx⟩ := ih (setCore u p.1 (filled (cycOf u (cmptOfCore p.1) + 1) (core u p.1)))
        exact ⟨x, hx⟩
  exact steps _ s

theorem rid_refilled (h : ∀ m, Rid n (core s m)) (m : Nat) : Rid n (core (refilled s) m) := by
  have steps (l : List (Nat × Core)) (u : State) (hu : ∀ m, Rid n (core u m)) :
      Rid n (core (l.foldl (fun s p => if p.2.heldRecs.isEmpty then s else fillLanding s p.1) u) m) := by
    induction l generalizing u with
    | nil => exact hu m
    | cons p l ih =>
      rw [List.foldl_cons]
      split
      · exact ih u hu
      · exact ih _ (rid_fillLanding hu)
  exact steps _ s h

/-- A context that is killed, with the answer that its end is to give. -/
structure Dying (s : State) (n : Nat) (reply : Option (BitVec 32)) (status : Nat) (t : State) : Prop where
  cgen : (ctx t n).cgen = (ctx s n).cgen + 1
  killing : (ctx t n).killing = some (reply, status, yarderUnits)
  jobs : ∀ j ∈ t.jobs, j.2.ctx ≠ n
  threads : ∀ id, (thr s id).ctx = n → (thr t id).life = .free ∨ (thr t id).life = .killed
  cores : ∀ m, Rid n (core t m)
  taken : t.host.taken = s.host.taken
  now : t.now = s.now

theorem dying_killCtx (s : State) (n : Nat) (q : BitVec 32) (status : Nat) : Dying s n (some q) status (killCtx s n (some q) status) := by
  let d := dropped s n (some q) status
  obtain ⟨x, hx⟩ := refilled_eq d
  have ends : Reaps n (refilled d) (killCtx s n (some q) status) := by
    rw [killCtx_eq]
    exact ((reaps_reaped (refilled d) n).trans (.checkKill ..)).trans (.pump ..)
  have last : Reaps n (reaped (refilled d) n) (killCtx s n (some q) status) := by
    rw [killCtx_eq]
    exact (Reaps.checkKill ..).trans (.pump ..)
  have row : ctx (refilled d) n = { ctx s n with
      cgen := (ctx s n).cgen + 1, preempt := none, saved := [], stopped := []
      killing := some (some q, status, yarderUnits) } := by
    rw [hx]
    exact (ctx_setCtx ..).trans (by simp [killReply])
  have dies : Dies n ((ctx s n).cgen + 1) (some q) status yarderUnits (refilled d) := ⟨by rw [row], by rw [row], by rw [row]⟩
  obtain ⟨cgen, killing, -⟩ := ends.dies _ _ _ _ (by decide) dies
  have core_end (m : Nat) : core (killCtx s n (some q) status) m = core (refilled d) m := by simp only [core, ends.cores]
  refine ⟨cgen, killing, ?_, fun id own => ?_, fun m => ?_, ?_, ?_⟩
  · rw [ends.jobs, hx]
    intro j hj
    simpa using (List.mem_filter.mp hj).2
  · refine last.gone id (gone_reaped ?_)
    rw [hx]
    exact own
  · rw [core_end]
    exact rid_refilled (rid_dropped s n (some q) status) m
  · rw [ends.taken, hx]
    rfl
  · rw [ends.now, hx]
    rfl

end Sys2Proof.Machine
end

section
/-! SUPPORT. The kill packet, the deadline of a pre-emption and the units' reports (R109, R231, R429). -/

namespace Sys2Proof.Machine

variable {s t u : State} {n c : Nat}

/-! ## The kill packet and the deadline (R109, R160) -/

theorem does_preEmptDeadline {ks : List Nat} {seq : BitVec 32} {time : Nat} (power : s.power = true)
    (pre : (ctx s n).preempt = some (ks, seq, time)) :
    Does s (.preEmptionDeadline n) fun t => SameMemory s t ∧ Dying { s with now := max s.now time } n (some seq) 4 t := by
  have step : preEmptDeadline n s = some (killCtx { s with now := max s.now time } n (some seq) 4) := by simp [preEmptDeadline, pre]
  exact does_event power rfl step (mem_of_some (mem_preEmptDeadline n s) step) fun memory => ⟨memory, dying_killCtx ..⟩

/-- What a kill packet of a context that runs does, apart from waiting. -/
theorem killContext_eq {ws : List Word} {rest : List (List Word)} (taken : s.host.taken = ws :: rest) (kind : kindOf ws = 4)
    (zero : clearFrom ws 1 = true) (live : (ctx s (ctxOf ws)).live = true) :
    killContext s = if (ctx s (ctxOf ws)).killing.isSome || (ctx s (ctxOf ws)).preempt.isSome then none
      else some (killCtx (unpacked s rest) (ctxOf ws) (some (seqOf ws)) 0) := by
  have packet := packetOf_head taken
  rw [kind] at packet
  have same : ctx (unpacked s rest) (ctxOf ws) = ctx s (ctxOf ws) := rfl
  simp [killContext, packet, zero, same, live]

theorem does_killContext {ws : List Word} {rest : List (List Word)} (power : s.power = true) (taken : s.host.taken = ws :: rest)
    (kind : kindOf ws = 4) (zero : clearFrom ws 1 = true) (live : (ctx s (ctxOf ws)).live = true)
    (alone : (ctx s (ctxOf ws)).preempt = none) (lives : (ctx s (ctxOf ws)).killing = none) :
    Does s .killContext fun t => SameMemory s t ∧ Dying (unpacked s rest) (ctxOf ws) (some (seqOf ws)) 0 t := by
  have step : killContext s = some (killCtx (unpacked s rest) (ctxOf ws) (some (seqOf ws)) 0) := by
    rw [killContext_eq taken kind zero live, alone, lives]
    rfl
  exact does_event power rfl step (mem_of_some (mem_killContext s) step) fun memory => ⟨memory, dying_killCtx ..⟩

/-- A packet waits while an earlier pre-emption or kill of its context is under way. -/
theorem killContext_waits {ws : List Word} {rest : List (List Word)} (power : s.power = true) (taken : s.host.taken = ws :: rest)
    (kind : kindOf ws = 4) (zero : clearFrom ws 1 = true) (live : (ctx s (ctxOf ws)).live = true)
    (busy : (ctx s (ctxOf ws)).killing.isSome || (ctx s (ctxOf ws)).preempt.isSome) : exec .killContext s = .next s :=
  event_of_none power (by rw [killContext_eq taken kind zero live, if_pos busy])

/-! ## The reports (R231) -/

section
variable {r : Option (BitVec 32)} {st : Nat} {units : List Nat} {unit : Nat}

/-- A unit has reported. -/
def unitDone (s : State) (n unit : Nat) (r : Option (BitVec 32)) (st : Nat) (units : List Nat) : State :=
  setCtx s n { ctx s n with killing := some (r, st, units.filter fun v => v != unit) }

theorem killing_unitDone : (ctx (unitDone s n unit r st units) n).killing = some (r, st, units.filter fun v => v != unit) := by
  rw [unitDone, ctx_setCtx]

theorem killReport_early (killing : (ctx s n).killing = some (r, st, units)) (early : unit ∉ units ∨ killedWrites s n = true) :
    killReport n unit s = none := by
  rcases early with absent | writes
  · simp [killReport, killing, absent]
  · simp [killReport, killing, writes]

theorem killReport_eq (killing : (ctx s n).killing = some (r, st, units)) (written : killedWrites s n = false) (listed : unit ∈ units) :
    killReport n unit s = some (checkKill (unitDone s n unit r st units) n) := by
  simp [killReport, killing, written, listed, unitDone]

/-- A kill waits for a unit that has to report, or a thread that holds its slot. -/
theorem checkKill_waits (killing : (ctx s n).killing = some (r, st, units)) (waits : units ≠ [] ∨ holders s n ≠ []) : checkKill s n = s := by
  unfold checkKill
  split
  · next found =>
    rw [killing] at found
    obtain ⟨-, -, rfl⟩ := by simpa using found
    simp [waits.resolve_left (fun h => h rfl)]
  · rfl

/-- The record that answers a kill, where a packet asked for it (R429). -/
def answer : Option (BitVec 32) → Nat → Nat → List Record
  | some q, st, now => [⟨0x33, st, q, 0, now, 0, 4095⟩]
  | none, _, _ => []

/-- A kill that nothing holds up is over, and its packet is answered. -/
theorem checkKill_done (killing : (ctx s n).killing = some (r, st, [])) (empty : holders s n = []) :
    (ctx (checkKill s n) n).killing = none
    ∧ (checkKill s n).host.waiting = s.host.waiting ++ answer r st s.now := by
  cases r with
  | none =>
    have done : checkKill s n = setCtx s n { ctx s n with killing := none } := by simp [checkKill, killing, empty]
    rw [done, ctx_setCtx]
    exact ⟨rfl, by simp [answer]⟩
  | some q =>
    have done : checkKill s n = packetDone (setCtx s n { ctx s n with killing := none }) q st 0 := by simp [checkKill, killing, empty]
    rw [done]
    refine ⟨?_, rfl⟩
    exact congrArg Ctx.killing (ctx_setCtx ..)

theorem does_killReport_left (power : s.power = true) (killing : (ctx s n).killing = some (r, st, units)) (written : killedWrites s n = false)
    (listed : unit ∈ units) (waits : (units.filter fun v => v != unit) ≠ [] ∨ holders s n ≠ []) :
    Does s (.yarderKillReport n unit) fun t => SameMemory s t ∧ (ctx t n).killing = some (r, st, units.filter fun v => v != unit)
      ∧ t.host = s.host := by
  have step := killReport_eq killing written listed
  rw [checkKill_waits killing_unitDone waits] at step
  exact does_event power rfl step rfl fun memory => ⟨memory, killing_unitDone, rfl⟩

theorem does_killReport_last (power : s.power = true) (killing : (ctx s n).killing = some (r, st, units)) (written : killedWrites s n = false)
    (listed : unit ∈ units) (last : (units.filter fun v => v != unit) = []) (empty : holders s n = []) :
    Does s (.yarderKillReport n unit) fun t => SameMemory s t ∧ (ctx t n).killing = none ∧ t.host.waiting = s.host.waiting ++ answer r st s.now := by
  have step := killReport_eq killing written listed
  have reported : (ctx (unitDone s n unit r st units) n).killing = some (r, st, []) := killing_unitDone.trans (by rw [last])
  refine does_event power rfl step (mem_of_some (mem_killReport n unit s) step) fun memory => ⟨memory, ?_⟩
  exact checkKill_done reported empty

end

end Sys2Proof.Machine
end

section
/-! SUPPORT. What a resume puts back (R160, R186, R429): a core's items in front, its landing entries in their order. -/

namespace Sys2Proof.Machine

variable {s t u : State} {n c p at_ : Nat} {k : Core} {v : Saved}

/-! ## The order of a landing (R186) -/

/-- The records of a priority in a list of landing entries, by what names them. -/
def ofPrio (p : Nat) (l : List LandEntry) : List (BitVec 8 × Nat × BitVec 32) :=
  (l.filter fun e => e.prio == p).map fun e => (e.kind, e.stid, e.seq)

/-- The records of a priority at a core, those that wait last. -/
def order (p : Nat) (k : Core) : List (BitVec 8 × Nat × BitVec 32) := ofPrio p (k.landing ++ k.heldRecs)

theorem ofPrio_append (l m : List LandEntry) : ofPrio p (l ++ m) = ofPrio p l ++ ofPrio p m := by simp [ofPrio]

theorem ofPrio_cons (e : LandEntry) (l : List LandEntry) : ofPrio p (e :: l) = ofPrio p [e] ++ ofPrio p l := ofPrio_append [e] l

theorem ofPrio_congr {d e : LandEntry} (prio : d.prio = e.prio) (kind : d.kind = e.kind) (stid : d.stid = e.stid) (seq : d.seq = e.seq) :
    ofPrio p [d] = ofPrio p [e] := by
  simp only [ofPrio, List.filter_cons, List.filter_nil, prio]
  split <;> simp [kind, stid, seq]

/-- A record that enters a landing with room for its priority passes no record of that priority. -/
theorem ofPrio_room {e : LandEntry} (room : landingRoom k e.prio = true) :
    ofPrio p [e] ++ ofPrio p k.heldRecs = ofPrio p k.heldRecs ++ ofPrio p [e] := by
  by_cases same : e.prio = p
  · have none_ : ofPrio p k.heldRecs = [] := by
      rw [ofPrio, List.map_eq_nil_iff, List.filter_eq_nil_iff]
      intro x hx
      simpa [same] using (landingRoom_iff.mp room).2 x hx
    simp [none_]
  · simp [ofPrio, same]

/-- A record comes last of its priority, wherever it enters. -/
theorem order_enter {d e f : LandEntry} (entered : ofPrio p [d] = ofPrio p [e]) (waiting : ofPrio p [f] = ofPrio p [e]) :
    order p (if landingRoom k e.prio = true then { k with landing := k.landing ++ [d] } else { k with heldRecs := k.heldRecs ++ [f] })
      = order p k ++ ofPrio p [e] := by
  split
  · next room =>
    simp only [order, ofPrio_append, entered, List.append_assoc]
    rw [ofPrio_room room]
  · simp only [order, ofPrio_append, waiting, List.append_assoc]

theorem order_enterHeld (e : LandEntry) : order p (enterHeld at_ k e) = order p k ++ ofPrio p [e] :=
  order_enter (ofPrio_congr (by simp) (by simp) (by simp) (by simp)) rfl

/-- The records that wait keep their order when they enter. -/
theorem order_filled : order p (filled at_ k) = order p k := by
  have steps (l : List LandEntry) (k : Core) : order p (l.foldl (enterHeld at_) k) = order p k ++ ofPrio p l := by
    induction l generalizing k with
    | nil => simp [ofPrio]
    | cons e l ih => rw [List.foldl_cons, ih, order_enterHeld, List.append_assoc, ← ofPrio_cons]
  rw [filled, steps]
  simp [order, ofPrio]

/-- A record that is posted to a core: it enters the landing, or waits at it. -/
def posted (at_ : Nat) (k : Core) (e : LandEntry) : Core :=
  if landingRoom k e.prio = true then { k with landing := k.landing ++ [{ e with since := at_ }] }
  else { k with heldRecs := k.heldRecs ++ [{ e with since := at_ }] }

theorem order_posted (l : List LandEntry) (k : Core) : order p (l.foldl (posted at_) k) = order p k ++ ofPrio p l := by
  induction l generalizing k with
  | nil => simp [ofPrio]
  | cons e l ih =>
    have one : order p (posted at_ k e) = order p k ++ ofPrio p [e] :=
      order_enter (ofPrio_congr rfl rfl rfl rfl) (ofPrio_congr rfl rfl rfl rfl)
    rw [List.foldl_cons, ih, one, List.append_assoc, ← ofPrio_cons]

/-- What posting leaves of a core. -/
theorem posted_keeps {β : Type} (f : Core → β) (keeps : ∀ k x y, f { k with landing := x, heldRecs := y } = f k) (l : List LandEntry) (k : Core) :
    f (l.foldl (posted at_) k) = f k := by
  induction l generalizing k with
  | nil => rfl
  | cons e l ih =>
    rw [List.foldl_cons, ih, posted]
    split
    · exact keeps k _ k.heldRecs
    · exact keeps k k.landing _

/-! ## A core whose items come back (R160) -/

/-- The items of a core that come back in front. -/
def inFront (at_ : Nat) (v : Saved) (k : Core) : Core :=
  { k with intake := v.intake.map (fun e => (at_, e.2)) ++ k.intake, pairQ := v.pairQ ++ k.pairQ
           prep := if v.pairQ.isEmpty then k.prep else none
           deck := v.deck.map (fun r => { r with since := at_ }) ++ k.deck
           tasks := v.tasks.foldl (fun q t => put q t.1 t.2) k.tasks
           chq := v.chq.foldl (fun q p => put q p.1 (p.2.map (fun e => { e with since := at_ }) ++ lookD q p.1 [])) k.chq }

/-- A core with its items in front and the entries of its landing posted. -/
def landed (at_ : Nat) (v : Saved) (k : Core) : Core := v.landing.foldl (posted at_) (inFront at_ v k)

/-- A core with everything back. -/
def returned (at_ : Nat) (v : Saved) (k : Core) : Core :=
  filled at_ { landed at_ v k with heldRecs := (landed at_ v k).heldRecs ++ v.heldRecs }

/-- What comes back lies before what has come since, but for the landing, where it comes last. -/
theorem returned_keeps {β : Type} (f : Core → β) (keeps : ∀ k x y, f { k with landing := x, heldRecs := y } = f k) :
    f (returned at_ v k) = f (inFront at_ v k) := by
  rw [returned, filled_keeps f keeps, keeps (landed at_ v k) (landed at_ v k).landing, landed, posted_keeps f keeps]

theorem order_returned : order p (returned at_ v k) = order p k ++ ofPrio p (v.landing ++ v.heldRecs) := by
  have back : order p (landed at_ v k) = order p k ++ ofPrio p v.landing := order_posted v.landing (inFront at_ v k)
  rw [returned, order_filled, ofPrio_append, ← List.append_assoc, ← back]
  simp only [order, ofPrio_append, List.append_assoc]

theorem foldl_postRecord {l : List LandEntry} (here : ∀ e ∈ l, withheld s e.ctx c = false) (k : Core) :
    l.foldl (fun s e => postRecord s c e) (setCore s c k) = setCore s c (l.foldl (posted (cycOf s (cmptOfCore c) + 1)) k) := by
  induction l generalizing k with
  | nil => rfl
  | cons e l ih =>
    obtain ⟨first, others⟩ := List.forall_mem_cons.mp here
    have one : postRecord (setCore s c k) c e = setCore s c (posted (cycOf s (cmptOfCore c) + 1) k e) := by
      rw [postRecord_here (s := setCore s c k) first, core_setCore, setCore_setCore]
      rfl
    rw [List.foldl_cons, List.foldl_cons, one, ih others]

/-- Records wait at a core behind those that do, and enter its landing as far as it has room. -/
def waitBehind (s : State) (c : Nat) (l : List LandEntry) : State :=
  fillLanding (setCore s c { core s c with heldRecs := (core s c).heldRecs ++ l }) c

theorem putBack_eq (here : ∀ e ∈ v.landing, withheld s e.ctx v.core = false) :
    putBack s v = setCore s v.core (returned (cycOf s (cmptOfCore v.core) + 1) v (core s v.core)) := by
  have posts := foldl_postRecord here (inFront (cycOf s (cmptOfCore v.core) + 1) v (core s v.core))
  have step : putBack s v = waitBehind (v.landing.foldl (fun s e => postRecord s v.core e)
      (setCore s v.core (inFront (cycOf s (cmptOfCore v.core) + 1) v (core s v.core)))) v.core v.heldRecs := rfl
  rw [step, posts, waitBehind, fillLanding_eq, core_setCore, core_setCore, setCore_setCore, setCore_setCore]
  rfl

/-- Each of several cores gets its items back. -/
theorem foldl_putBack {vs : List Saved} (here : ∀ v ∈ vs, ∀ e ∈ v.landing, withheld s e.ctx v.core = false)
    (apart : vs.Pairwise fun a b => a.core ≠ b.core) :
    (∃ x, vs.foldl putBack s = { s with cores := x }) ∧ (∀ c, (∀ v ∈ vs, v.core ≠ c) → core (vs.foldl putBack s) c = core s c)
    ∧ ∀ v ∈ vs, core (vs.foldl putBack s) v.core = returned (cycOf s (cmptOfCore v.core) + 1) v (core s v.core) := by
  induction vs generalizing s with
  | nil => exact ⟨⟨_, rfl⟩, fun _ _ => rfl, nofun⟩
  | cons v vs ih =>
    obtain ⟨first, others⟩ := List.forall_mem_cons.mp here
    obtain ⟨off, apart⟩ := List.pairwise_cons.mp apart
    rw [List.foldl_cons, putBack_eq first]
    generalize back : returned (cycOf s (cmptOfCore v.core) + 1) v (core s v.core) = k
    obtain ⟨⟨x, hx⟩, rest, each⟩ := ih (s := setCore s v.core k) others apart
    refine ⟨⟨x, hx⟩, fun c hc => ?_, List.forall_mem_cons.mpr ⟨?_, fun w hw => ?_⟩⟩
    · obtain ⟨hv, hvs⟩ := List.forall_mem_cons.mp hc
      rw [rest c hvs, core_setCore_ne _ _ hv]
    · rw [rest v.core fun w hw => (off w hw).symm, core_setCore, back]
    · rw [each w hw, core_setCore_ne _ _ (off w hw)]
      rfl

/-! ## Starts (R429) -/

/-- The message that starts a core's save routine. -/
def startMsg (s : State) (n : Nat) (v : Saved) : Msg :=
  { tgt := 2, prio := 0, len := 8, dest := v.core, mcast := false, pkg := s.pkg, pc := (ctx s n).tvb + 0x100, ctx := n, launch := none
    stid := 0, seq := 0, data := toBytes 8 v.threads }

/-- The packet that brings it, which waits in the core's system buffer (R378). -/
def startPacket (s : State) (n : Nat) (v : Saved) : Packet :=
  { cls := .system, src := cmptOfCore v.core, dst := cmptOfCore v.core, body := .msg (startMsg s n v), core := v.core, flits := 1
    stage := .ready, time := cycOf s (cmptOfCore v.core) }

/-- A start of a core's save routine waits there: it holds the number of the threads that have it to run. -/
structure StartsAt (n : Nat) (v : Saved) (pc : Word) (t : State) : Prop where
  listed : ∃ q p m, q < t.ids ∧ look t.packets q = some p ∧ p.cls = .system ∧ p.stage = .ready ∧ p.core = v.core ∧ p.body = .msg m
    ∧ m.pc = pc ∧ m.ctx = n ∧ m.data = toBytes 8 v.threads

/-- What a start leaves as it was. -/
structure StartKeeps (s t : State) : Prop where
  cores : t.cores = s.cores
  ctxs : t.ctxs = s.ctxs
  host : t.host = s.host
  now : t.now = s.now
  grows : s.ids ≤ t.ids
  packets : ∀ q < s.ids, look t.packets q = look s.packets q

theorem StartKeeps.trans (h : StartKeeps s t) (g : StartKeeps t u) : StartKeeps s u where
  cores := g.cores.trans h.cores
  ctxs := g.ctxs.trans h.ctxs
  host := g.host.trans h.host
  now := g.now.trans h.now
  grows := h.grows.trans g.grows
  packets q hq := (g.packets q (hq.trans_le h.grows)).trans (h.packets q hq)

theorem StartKeeps.fetchFence (h : StartKeeps s t) : StartKeeps s (fetchFence t c) := by
  unfold Machine.fetchFence
  dsimp only
  split
  · exact h
  · exact ⟨h.cores, h.ctxs, h.host, h.now, h.grows, h.packets⟩

theorem packets_fetchFence : (fetchFence s c).packets = s.packets := by
  unfold fetchFence
  dsimp only
  split <;> rfl

theorem ids_fetchFence : (fetchFence s c).ids = s.ids := by
  unfold fetchFence
  dsimp only
  split <;> rfl

theorem startKeeps_resumeStart : StartKeeps s (resumeStart s n v) := by
  refine StartKeeps.fetchFence ⟨rfl, rfl, rfl, rfl, Nat.le_succ _, fun q hq => ?_⟩
  exact look_put_ne _ _ hq.ne'

theorem startsAt_resumeStart : StartsAt n v ((ctx s n).tvb + 0x100) (resumeStart s n v) := by
  refine ⟨s.ids, startPacket s n v, startMsg s n v, ?_, ?_, rfl, rfl, rfl, rfl, rfl, rfl, rfl⟩
  · rw [resumeStart, ids_fetchFence]
    exact Nat.lt_succ_self _
  · rw [resumeStart, packets_fetchFence]
    exact look_put ..

theorem StartsAt.keeps {pc : Word} (h : StartsAt n v pc s) (g : StartKeeps s t) : StartsAt n v pc t := by
  obtain ⟨q, p, m, fresh, listed, others⟩ := h.listed
  exact ⟨q, p, m, fresh.trans_le g.grows, (g.packets q fresh).trans listed, others⟩

theorem foldl_resumeStart (vs : List Saved) (s : State) :
    StartKeeps s (vs.foldl (fun s v => resumeStart s n v) s)
    ∧ ∀ v ∈ vs, StartsAt n v ((ctx s n).tvb + 0x100) (vs.foldl (fun s v => resumeStart s n v) s) := by
  induction vs generalizing s with
  | nil => exact ⟨⟨rfl, rfl, rfl, rfl, le_rfl, fun _ _ => rfl⟩, nofun⟩
  | cons v vs ih =>
    obtain ⟨keeps, starts⟩ := ih (resumeStart s n v)
    have same : ctx (resumeStart s n v) n = ctx s n := by rw [ctx, startKeeps_resumeStart.ctxs]; rfl
    rw [same] at starts
    exact ⟨startKeeps_resumeStart.trans keeps, List.forall_mem_cons.mpr ⟨startsAt_resumeStart.keeps keeps, starts⟩⟩

end Sys2Proof.Machine
end

section
/-! SUPPORT. RESUME_CONTEXT (R160, R429). -/

namespace Sys2Proof.Machine

variable {s t u : State} {n c : Nat} {ks : List Nat} {ws : List Word} {rest : List (List Word)}

/-- Handing tiles to a context changes no clock, and of the state the tiles and what the compartments say of them. -/
theorem foldl_handOver (ks : List Nat) (s : State) : ∃ x y, ks.foldl (handOver n) s = { s with tiles := x, cmpts := y }
    ∧ ∀ m, cycOf (ks.foldl (handOver n) s) m = cycOf s m := by
  induction ks generalizing s with
  | nil => exact ⟨_, _, rfl, fun _ => rfl⟩
  | cons k ks ih =>
    rw [List.foldl_cons]
    obtain ⟨x, y, hand, clock⟩ := ih (handOver n s k)
    by_cases pass : passes s n k = true
    · have step : handOver n s k = { s with tiles := s.tiles.map fun t => (t.1, if cmptOfTile t.1 = k then t.2.cleaned else t.2)
                                            cmpts := put s.cmpts k { cmpt s k with ran := n } } := if_pos pass
      refine ⟨x, y, by rw [hand, step], fun m => (clock m).trans ?_⟩
      rw [step]
      by_cases same : k = m
      · subst same
        exact (congrArg Cmpt.cyc (lookD_put s.cmpts k { cmpt s k with ran := n } {}) :)
      · exact congrArg Cmpt.cyc (lookD_put_ne _ _ _ same)
    · have step : handOver n s k = s := if_neg pass
      rw [step] at hand clock ⊢
      exact ⟨x, y, hand, clock⟩

/-- What pre-emption moved out of compartments. -/
def movedOut (s : State) (n : Nat) (ks : List Nat) : List Saved := (ctx s n).saved.filter fun v => ks.contains (cmptOfCore v.core)

theorem mem_movedOut {v : Saved} : v ∈ movedOut s n ks ↔ v ∈ (ctx s n).saved ∧ cmptOfCore v.core ∈ ks := by
  simp [movedOut]

/-- Cores with threads that ended through their save routine. -/
def savers (s : State) (n : Nat) (ks : List Nat) : List Saved := (movedOut s n ks).filter fun v => v.threads != 0

/-- A context that is no longer stopped in compartments, with nothing moved out of them. -/
def resumedCtx (x : Ctx) (ks : List Nat) : Ctx :=
  { x with stopped := x.stopped.filter fun k => !ks.contains k
           saved := x.saved.filter fun v => !ks.contains (cmptOfCore v.core) }

/-- The state with the tiles handed over and the items of a context back. -/
def replaced (s : State) (n : Nat) (ks : List Nat) : State :=
  (movedOut s n ks).foldl putBack (ks.foldl (handOver n) (setCtx s n (resumedCtx (ctx s n) ks)))

/-- A resume's end. -/
def resumed (s : State) (n : Nat) (ks : List Nat) (q : BitVec 32) : State :=
  packetDone ((savers s n ks).foldl (fun s v => resumeStart s n v) (replaced s n ks)) q 0 0

/-- What holds a resume up. -/
def resumeWaits (s : State) (n : Nat) (ks : List Nat) : Bool :=
  (ctx s n).preempt.isSome || (ctx s n).killing.isSome || !tilesReady s n ks
    || (savers s n ks).any fun v => 4 ≤ (systemWaiting s v.core).length

theorem resumeContext_eq (taken : s.host.taken = ws :: rest) (kind : kindOf ws = 9) (mask : maskOk ws = true)
    (live : (ctx s (ctxOf ws)).live = true) :
    resumeContext s = if resumeWaits s (ctxOf ws) (maskCmpts s (ctxOf ws) (pw ws 1)) then none
      else some (resumed (unpacked s rest) (ctxOf ws) (maskCmpts s (ctxOf ws) (pw ws 1)) (seqOf ws)) := by
  have packet := packetOf_head taken
  rw [kind] at packet
  unfold resumeContext
  rw [packet]
  dsimp only
  rw [if_neg (by simp [mask]), if_neg (by simp [show (ctx (unpacked s rest) (ctxOf ws)).live = true from live])]
  rfl

/-- What a resume gives. -/
structure Resumed (s : State) (n : Nat) (ks : List Nat) (q : BitVec 32) (t : State) : Prop where
  context : ctx t n = resumedCtx (ctx s n) ks
  host : t.host = { s.host with waiting := s.host.waiting ++ [⟨0x33, 0, q, 0, s.now, 0, 4095⟩] }
  cores : ∀ v ∈ movedOut s n ks, core t v.core = returned (cycOf s (cmptOfCore v.core) + 1) v (core s v.core)
  starts : ∀ v ∈ movedOut s n ks, v.threads ≠ 0 → StartsAt n v ((ctx s n).tvb + 0x100) t

theorem resumed_spec {q : BitVec 32} (apart : (ctx s n).saved.Pairwise fun a b => a.core ≠ b.core)
    (own : ∀ v ∈ (ctx s n).saved, ∀ e ∈ v.landing, e.ctx = n) : Resumed s n ks q (resumed s n ks q) := by
  obtain ⟨x, y, hand, clock⟩ := foldl_handOver (n := n) ks (setCtx s n (resumedCtx (ctx s n) ks))
  generalize handed : ks.foldl (handOver n) (setCtx s n (resumedCtx (ctx s n) ks)) = h at hand clock
  have row : ctx h n = resumedCtx (ctx s n) ks := by
    rw [hand]
    exact ctx_setCtx ..
  have here : ∀ v ∈ movedOut s n ks, ∀ e ∈ v.landing, withheld h e.ctx v.core = false := by
    intro v hv e he
    obtain ⟨listed, named⟩ := mem_movedOut.mp hv
    rw [own v listed e he, withheld, row]
    simp [resumedCtx, named]
  obtain ⟨⟨z, back⟩, -, each⟩ := foldl_putBack here (apart.filter _)
  obtain ⟨keeps, starts⟩ := foldl_resumeStart (n := n) (savers s n ks) (replaced s n ks)
  have again : replaced s n ks = { h with cores := z } := by rw [replaced, handed, back]
  have row' : ctx (replaced s n ks) n = resumedCtx (ctx s n) ks := by rw [again]; exact row
  refine ⟨?_, ?_, fun v hv => ?_, fun v hv threads => ?_⟩
  · rw [← row']
    exact congrArg (lookD · n {}) keeps.ctxs
  · have host : ((savers s n ks).foldl (fun s v => resumeStart s n v) (replaced s n ks)).host = s.host := by
      rw [keeps.host, again, hand]
      rfl
    have time : ((savers s n ks).foldl (fun s v => resumeStart s n v) (replaced s n ks)).now = s.now := by
      rw [keeps.now, again, hand]
      rfl
    simp [resumed, packetDone, hostRecord, host, time]
  · have same : core (resumed s n ks q) v.core = core (replaced s n ks) v.core := congrArg (fun y : Tab Core => lookD y v.core {}) keeps.cores
    have old : core h v.core = core s v.core := by
      rw [hand]
      rfl
    have back' := each v hv
    rw [clock, old] at back'
    rw [same, replaced, handed, back']
    rfl
  · have start := starts v (List.mem_filter.mpr ⟨hv, by simp [threads]⟩)
    rw [row'] at start
    exact ⟨start.listed⟩

theorem does_resumeContext (power : s.power = true) (taken : s.host.taken = ws :: rest) (kind : kindOf ws = 9) (mask : maskOk ws = true)
    (live : (ctx s (ctxOf ws)).live = true) (ready : resumeWaits s (ctxOf ws) (maskCmpts s (ctxOf ws) (pw ws 1)) = false)
    (apart : (ctx s (ctxOf ws)).saved.Pairwise fun a b => a.core ≠ b.core)
    (own : ∀ v ∈ (ctx s (ctxOf ws)).saved, ∀ e ∈ v.landing, e.ctx = ctxOf ws) :
    Does s .resumeContext fun t => SameMemory s t ∧ Resumed (unpacked s rest) (ctxOf ws) (maskCmpts s (ctxOf ws) (pw ws 1)) (seqOf ws) t := by
  have step := resumeContext_eq taken kind mask live
  rw [ready] at step
  exact does_event power rfl step (mem_of_some (mem_resumeContext s) step) fun memory =>
    ⟨memory, resumed_spec (s := unpacked s rest) apart own⟩

theorem resumeContext_waits (power : s.power = true) (taken : s.host.taken = ws :: rest) (kind : kindOf ws = 9) (mask : maskOk ws = true)
    (live : (ctx s (ctxOf ws)).live = true) (busy : (ctx s (ctxOf ws)).killing.isSome || (ctx s (ctxOf ws)).preempt.isSome) :
    exec .resumeContext s = .next s := by
  refine event_of_none power ((resumeContext_eq taken kind mask live).trans (if_pos ?_))
  rw [Bool.or_comm] at busy
  simp [resumeWaits, busy]

/-- A resume of a context at rest is held up by nothing where the tiles are ready and each start has room. -/
theorem resumeWaits_false (alone : (ctx s n).preempt = none) (lives : (ctx s n).killing = none) (ready : tilesReady s n ks = true)
    (room : ∀ v ∈ (ctx s n).saved, cmptOfCore v.core ∈ ks → v.threads ≠ 0 → (systemWaiting s v.core).length < 4) :
    resumeWaits s n ks = false := by
  have starts : ((savers s n ks).any fun v => 4 ≤ (systemWaiting s v.core).length) = false := by
    rw [List.any_eq_false]
    intro v hv
    obtain ⟨out, threads⟩ := List.mem_filter.mp hv
    obtain ⟨listed, named⟩ := mem_movedOut.mp out
    simpa using room v listed named (by simpa using threads)
  simp [resumeWaits, alone, lives, ready, starts]

end Sys2Proof.Machine
end

section
/-! SUPPORT. What pre-emption stores in a save area (R56, R160): a write at a home changes no thread's place, and each word has its turn
while no frame migrates. -/

namespace Sys2Proof.Machine

variable {s t u : State} {n c : Nat}

/-! ## The threads of a context that hold slots -/

/-- A thread of a context holds a slot of one kind. -/
def HoldsSlot (s : State) (n : Nat) (q : Nat → Prop) : Prop := ∃ p ∈ s.threads, p.2.ctx = n ∧ p.2.life ≠ .free ∧ q p.1

/-- Two threads at one point of their life. -/
structure SameLife (x y : Thread) : Prop where
  life : y.life = x.life
  ctx : y.ctx = x.ctx
  park : y.park = x.park

theorem SameLife.refl (x : Thread) : SameLife x x := ⟨rfl, rfl, rfl⟩

theorem SameLife.trans {x y z : Thread} (h : SameLife x y) (g : SameLife y z) : SameLife x z :=
  ⟨g.life.trans h.life, g.ctx.trans h.ctx, g.park.trans h.park⟩

theorem SameLife.ending {x y : Thread} (h : SameLife x y) : ending y = ending x := by rw [Machine.ending, Machine.ending, h.park]

/-- A row that a write replaces is the one that was looked up. -/
theorem mem_put_of_mem {α : Type} {l : Tab α} {k : Nat} {x : α} {p : Nat × α} (h : p ∈ l) :
    p ∈ put l k x ∨ p.1 = k ∧ look l k = some p.2 := by
  induction l with
  | nil => cases h
  | cons q l ih =>
    simp only [put, look]
    split_ifs with same before
    · rcases List.mem_cons.mp h with rfl | h
      · exact .inr ⟨same, rfl⟩
      · exact .inl (List.mem_cons_of_mem _ h)
    · exact .inl (List.mem_cons_of_mem _ h)
    · rcases List.mem_cons.mp h with rfl | h
      · exact .inl List.mem_cons_self
      · exact (ih h).imp_left (List.mem_cons_of_mem _)

theorem mem_threads_of_life {id : Nat} (life : (thr s id).life ≠ .free) : (id, thr s id) ∈ s.threads :=
  (List.mem_filter.mp (mem_holders life rfl)).1

/-- A thread at the same point of its life holds the same slot. -/
theorem holdsSlot_setThr {tid : Nat} {x : Thread} (same : SameLife (thr s tid) x) (q : Nat → Prop) :
    HoldsSlot (setThr s tid x) n q ↔ HoldsSlot s n q := by
  constructor
  · rintro ⟨p, listed, own, life, hq⟩
    rcases mem_of_mem_put listed with rfl | old
    · rw [same.life] at life
      exact ⟨_, mem_threads_of_life life, same.ctx.symm.trans own, life, hq⟩
    · exact ⟨p, old, own, life, hq⟩
  · rintro ⟨p, listed, own, life, hq⟩
    rcases mem_put_of_mem (k := tid) (x := x) listed with kept | ⟨name, found⟩
    · exact ⟨p, kept, own, life, hq⟩
    · have row : thr s tid = p.2 := congrArg (·.getD {}) found
      rw [row] at same
      exact ⟨_, mem_put_self .., same.ctx.trans own, same.life ▸ life, name ▸ hq⟩

/-! ## Writes at homes (R33, R247) -/

theorem sameLife_writeRegs (x : Thread) (off : Nat) (v : Word) : SameLife x (writeRegs x off v) ∧ (writeRegs x off v).async = x.async := by
  unfold writeRegs setOutsideX setX setOtherWin setCurWin
  split
  · split
    · exact ⟨.refl x, rfl⟩
    · split
      · exact ⟨.refl x, rfl⟩
      · split
        · exact ⟨⟨rfl, rfl, rfl⟩, rfl⟩
        · split <;> exact ⟨⟨rfl, rfl, rfl⟩, rfl⟩
  · split
    · split <;> exact ⟨⟨rfl, rfl, rfl⟩, rfl⟩
    · exact ⟨.refl x, rfl⟩

/-- What storing words leaves as it was. -/
structure Stored (s t : State) : Prop where
  cores : t.cores = s.cores
  ctxs : t.ctxs = s.ctxs
  host : t.host = s.host
  now : t.now = s.now
  frames : t.frames = s.frames
  life : ∀ id, SameLife (thr s id) (thr t id)
  async : ∀ id, (thr t id).async = (thr s id).async
  held : ∀ n q, HoldsSlot t n q ↔ HoldsSlot s n q

theorem Stored.refl (s : State) : Stored s s := ⟨rfl, rfl, rfl, rfl, rfl, fun _ => .refl _, fun _ => rfl, fun _ _ => Iff.rfl⟩

theorem Stored.trans (h : Stored s t) (g : Stored t u) : Stored s u where
  cores := g.cores.trans h.cores
  ctxs := g.ctxs.trans h.ctxs
  host := g.host.trans h.host
  now := g.now.trans h.now
  frames := g.frames.trans h.frames
  life id := (h.life id).trans (g.life id)
  async id := (g.async id).trans (h.async id)
  held n q := (g.held n q).trans (h.held n q)

theorem Stored.foldl {α : Type} {f : State → α → State} (h : ∀ s x, Stored s (f s x)) (l : List α) (s : State) : Stored s (l.foldl f s) := by
  induction l generalizing s with
  | nil => exact .refl s
  | cons x l ih => exact (h s x).trans (ih _)

/-- A home that is no register. -/
theorem Stored.bytes {m : List Host.Cell} {l : Tab Tile} {f : Tab Flaw} (h : Stored s t) : Stored s { t with mem := m, tiles := l, flaws := f } :=
  ⟨h.cores, h.ctxs, h.host, h.now, h.frames, h.life, h.async, h.held⟩

theorem Stored.setThr {tid : Nat} {x : Thread} (same : SameLife (thr s tid) x) (async : x.async = (thr s tid).async) :
    Stored s (setThr s tid x) := by
  refine ⟨rfl, rfl, rfl, rfl, rfl, fun id => ?_, fun id => ?_, fun n q => holdsSlot_setThr same q⟩
  · by_cases h : tid = id
    · subst h
      rwa [thr_setThr]
    · rw [thr_setThr_ne _ _ h]
      exact .refl _
  · by_cases h : tid = id
    · subst h
      rwa [thr_setThr]
    · rw [thr_setThr_ne _ _ h]

theorem stored_correctWord (s : State) (k : Nat) : Stored s (correctWord s k) := by
  unfold correctWord
  split
  · exact .refl s
  · exact (Stored.refl s).bytes

theorem stored_writeHome (s : State) (pkg pa m v : Nat) : Stored s (writeHome s pkg pa m v) := by
  have plain (u : State) (h : Stored s u) : Stored s
      (let u' := if u.flaws.isEmpty then u
         else (List.range ((pa % 8 + m + 7) / 8)).foldl (fun s i => correctWord s (keyOf pkg (pa / 8 * 8 + 8 * i))) u
       { u' with mem := setBytes u'.mem (keyOf pkg pa) m v }) := by
    refine Stored.bytes ?_
    split
    · exact h
    · exact h.trans (.foldl (fun s _ => stored_correctWord s _) _ u)
  unfold writeHome
  split
  · split
    · obtain ⟨same, async⟩ := sameLife_writeRegs (settle (thr s _) (cycOf s (cmptOf _) - 1)) _ (BitVec.ofNat 64 v)
      exact .setThr (.trans ⟨settle_life .., settle_ctx .., settle_park ..⟩ same) (async.trans (settle_async ..))
    · exact (Stored.refl s).bytes
    · obtain ⟨x, hx⟩ := keepFetched_eq s pkg pa m
      rw [hx]
      exact plain _ (Stored.refl s).bytes
    · exact plain s (.refl s)
  · exact plain s (.refl s)

/-! ## The words of the save area (R160) -/

/-- No frame migrates. -/
def Still (s : State) : Prop := ∀ f ∈ s.frames, ∀ a b c, f.2.mode ≠ .migrating a b c

theorem admitAt_still (still : Still s) (g fuel pkg pa f : Nat) : admitAt s g fuel pkg pa ≠ .hold f := by
  induction fuel generalizing g pkg pa with
  | zero => exact nofun
  | succ fuel ih =>
    have quiet : ∀ a b c, (lookD s.frames (keyOf pkg pa / 65536) {}).mode ≠ .migrating a b c := by
      cases found : look s.frames (keyOf pkg pa / 65536) with
      | none => simp [lookD, found]
      | some x => simpa [lookD, found] using still _ (mem_of_look found)
    simp only [admitAt]
    split
    · exact nofun
    · split
      · exact nofun
      · next mode => exact absurd mode (quiet _ _ _)
      · exact ih _ _ _

theorem saveWord_some (still : Still s) (va : Nat) : ∃ t, saveWord n va s = some t ∧ Stored s t := by
  unfold saveWord
  split
  · exact ⟨s, rfl, .refl s⟩
  · split
    · next held => exact absurd held (admitAt_still still _ _ _ _ _)
    · exact ⟨s, rfl, .refl s⟩
    · exact ⟨_, rfl, Stored.trans (t := (openWord s).2) ⟨rfl, rfl, rfl, rfl, rfl, fun _ => .refl _, fun _ => rfl, fun _ _ => Iff.rfl⟩
        (stored_writeHome ..)⟩

theorem foldl_saveWord (l : List Nat) (still : Still s) :
    ∃ t, l.foldl (fun s va => s.bind (saveWord n va)) (some s) = some t ∧ Stored s t := by
  induction l generalizing s with
  | nil => exact ⟨s, rfl, .refl s⟩
  | cons va l ih =>
    obtain ⟨u, word, stored⟩ := saveWord_some (n := n) still va
    obtain ⟨t, words, others⟩ := ih (s := u) (by rwa [Still, stored.frames])
    refine ⟨t, ?_, stored.trans others⟩
    rw [List.foldl_cons, Option.bind_some, word, words]

theorem saveItems_some (still : Still s) (i m : Nat) : ∃ t, saveItems n s i m = some t ∧ Stored s t := foldl_saveWord _ still

/-- A save area that begins where no page of the context is. -/
def Barred (s : State) (n : Nat) : Prop := ∀ a ≥ (ctx s n).save, ∃ e, walkPage s n a = .error e

/-- Nothing is stored without a place. -/
theorem saveItems_barred (barred : Barred s n) (i m : Nat) : saveItems n s i m = some s := by
  have steps (l : List Nat) (out : ∀ va ∈ l, (ctx s n).save ≤ va) : l.foldl (fun s va => s.bind (saveWord n va)) (some s) = some s := by
    induction l with
    | nil => rfl
    | cons va l ih =>
      obtain ⟨first, others⟩ := List.forall_mem_cons.mp out
      obtain ⟨e, walk⟩ := barred va first
      have word : saveWord n va s = some s := by simp [saveWord, walk]
      rw [List.foldl_cons, Option.bind_some, word, ih others]
  refine steps _ fun va hva => ?_
  obtain ⟨j, -, rfl⟩ := List.mem_map.mp hva
  omega

/-! ## Walks (R48) -/

theorem readHome_congr {x : Tab Core} {y : Tab Ctx} {h : HostLink} (pkg pa m : Nat) :
    readHome { s with cores := x, ctxs := y, host := h } pkg pa m = readHome s pkg pa m := by
  have plain (m key : Nat) : fetchPlain { s with cores := x, ctxs := y, host := h } key m = fetchPlain s key m := by
    induction m generalizing key with
    | zero => rfl
    | succ m ih =>
      simp only [fetchPlain, ih]
      rfl
  simp only [readHome, plain]
  rfl

/-- A walk reads neither cores, nor contexts but for the root, nor what the host has in hand. -/
theorem walkPage_congr {x : Tab Core} {y : Tab Ctx} {h : HostLink} (root : (ctx { s with ctxs := y } n).root = (ctx s n).root) (va : Nat) :
    walkPage { s with cores := x, ctxs := y, host := h } n va = walkPage s n va := by
  have levels (l : List Nat) (table : Nat) : walkFrom { s with cores := x, ctxs := y, host := h } n va table l = walkFrom s n va table l := by
    induction l generalizing table with
    | nil => rfl
    | cons level l ih => simp only [walkFrom, readHome_congr, ih]
  have same : (ctx { s with cores := x, ctxs := y, host := h } n).root = (ctx s n).root := root
  rw [walkPage, same, levels, ← walkPage]

end Sys2Proof.Machine
end

section
/-! SUPPORT. PRE_EMPT_CONTEXT (R159, R160, R429): what it moves out, whom it traps, and when its packet is answered. -/

namespace Sys2Proof.Machine

variable {s t u : State} {n c : Nat} {ks : List Nat} {ws : List Word} {rest : List (List Word)}

/-! ## What is moved out of the cores (R160) -/

/-- What moving items out of cores leaves as it was. -/
structure Aside (n : Nat) (s t : State) : Prop where
  host : t.host = s.host
  now : t.now = s.now
  still : Still s → Still t
  context : ∃ x, ctx t n = { ctx s n with saved := x }
  life : ∀ id, SameLife (thr s id) (thr t id)
  async : ∀ id, (thr t id).async = (thr s id).async
  holds : ∀ q, HoldsSlot t n q ↔ HoldsSlot s n q

theorem Aside.refl (n : Nat) (s : State) : Aside n s s := ⟨rfl, rfl, id, ⟨_, rfl⟩, fun _ => .refl _, fun _ => rfl, fun _ => Iff.rfl⟩

theorem Aside.trans (h : Aside n s t) (g : Aside n t u) : Aside n s u where
  host := g.host.trans h.host
  now := g.now.trans h.now
  still still := g.still (h.still still)
  context := by
    obtain ⟨x, hx⟩ := h.context
    obtain ⟨y, hy⟩ := g.context
    exact ⟨y, by rw [hy, hx]⟩
  life id := (h.life id).trans (g.life id)
  async id := (g.async id).trans (h.async id)
  holds q := (g.holds q).trans (h.holds q)

theorem Stored.aside (h : Stored s t) : Aside n s t where
  host := h.host
  now := h.now
  still still := by rwa [Still, h.frames]
  context := ⟨(ctx s n).saved, congrArg (fun y : Tab Ctx => lookD y n {}) h.ctxs⟩
  life := h.life
  async := h.async
  holds := h.held n

/-- Taking a context's items out of a core changes that core and what is moved out of the context. -/
theorem takeOut_eq (s : State) (n c : Nat) :
    ∃ k x, takeOut s n c = setCtx (setCore s c k) n { ctx s n with saved := x } ∧ Rid n k := by
  have saved (u : State) (f : Saved → Saved) : ∃ x, setSaved u n c f = setCtx u n { ctx u n with saved := x } := by
    unfold setSaved
    dsimp only
    split <;> exact ⟨_, rfl⟩
  have shape : ∃ k f, takeOut s n c = setSaved (fillLanding (setCore s c k) c) n c f ∧ Rid n k := by
    unfold takeOut
    refine ⟨_, _, rfl, fun r hr => ?_, fun r hr => ?_, fun e he => ?_, fun e he => ?_⟩
    · simpa using (List.mem_filter.mp hr).2
    · simpa using (List.mem_filter.mp hr).2
    · simpa using (List.mem_filter.mp he).2
    · simpa using (List.mem_filter.mp he).2
  obtain ⟨k, f, step, rid⟩ := shape
  rw [fillLanding_eq, core_setCore, setCore_setCore] at step
  obtain ⟨x, hx⟩ := saved (setCore s c (filled (cycOf (setCore s c k) (cmptOfCore c) + 1) k)) f
  exact ⟨_, x, step.trans hx, rid.filled⟩

theorem aside_takeOut (s : State) (n c : Nat) : Aside n s (takeOut s n c) := by
  obtain ⟨k, x, step, -⟩ := takeOut_eq s n c
  rw [step]
  exact ⟨rfl, rfl, id, ⟨x, ctx_setCtx ..⟩, fun _ => .refl _, fun _ => rfl, fun _ => Iff.rfl⟩

/-- A context without a page in its save area has none there after its items are moved out. -/
theorem barred_takeOut (barred : Barred s n) : Barred (takeOut s n c) n := by
  obtain ⟨k, x, step, -⟩ := takeOut_eq s n c
  have row : ctx (takeOut s n c) n = { ctx s n with saved := x } := by rw [step, ctx_setCtx]
  intro a ha
  rw [row] at ha
  obtain ⟨e, walk⟩ := barred a ha
  have same : walkPage (takeOut s n c) n a = walkPage s n a := by
    rw [step]
    refine walkPage_congr (s := s) (x := put s.cores c k) (y := put s.ctxs n { ctx s n with saved := x }) (h := s.host) ?_ a
    exact (congrArg Ctx.root (ctx_setCtx s n { ctx s n with saved := x }) :)
  exact ⟨e, same.trans walk⟩

/-- One core's items are moved out, and no other core changes. -/
structure Moved (n c : Nat) (s t : State) : Prop where
  aside : Aside n s t
  rid : Rid n (core t c)
  others : ∀ d, c ≠ d → core t d = core s d
  memory : Barred s n → Barred t n ∧ t.mem = s.mem

theorem moveOut_some (still : Still s) : ∃ t, moveOut n s c = some t ∧ Moved n c s t := by
  have aside := aside_takeOut s n c
  obtain ⟨t, items, stored⟩ := saveItems_some (n := n) (aside.still still) (itemsOut s n) (itemsOut (takeOut s n c) n - itemsOut s n)
  obtain ⟨k, x, step, rid⟩ := takeOut_eq s n c
  have cores (d : Nat) : core t d = core (setCore s c k) d := by
    simp only [core, stored.cores, step]
    rfl
  refine ⟨t, items, aside.trans stored.aside, ?_, fun d hd => ?_, fun barred => ?_⟩
  · rwa [cores, core_setCore]
  · rw [cores, core_setCore_ne _ _ hd]
  · have barred' := barred_takeOut (c := c) barred
    have same : takeOut s n c = t := Option.some.inj ((saveItems_barred barred' ..).symm.trans items)
    exact same ▸ ⟨barred', mem_takeOut ..⟩

/-- Each of the cores loses its items. -/
theorem foldl_moveOut (l : List Nat) (still : Still s) :
    ∃ t, l.foldl (fun s c => s.bind (moveOut n · c)) (some s) = some t ∧ Aside n s t ∧ (Barred s n → t.mem = s.mem)
      ∧ ∀ d, Rid n (core s d) ∨ d ∈ l → Rid n (core t d) := by
  induction l generalizing s with
  | nil => exact ⟨s, rfl, .refl n s, fun _ => rfl, fun d => by simp⟩
  | cons c l ih =>
    obtain ⟨u, move, moved⟩ := moveOut_some (n := n) (c := c) still
    obtain ⟨t, moves, aside, memory, rid⟩ := ih (s := u) (moved.aside.still still)
    refine ⟨t, ?_, moved.aside.trans aside, fun barred => ?_, fun d hd => rid d ?_⟩
    · rw [List.foldl_cons, Option.bind_some, move, moves]
    · obtain ⟨barred', same⟩ := moved.memory barred
      exact (memory barred').trans same
    · by_cases same : c = d
      · exact .inl (same ▸ moved.rid)
      · rw [moved.others d same]
        exact hd.imp_right fun h => (List.mem_cons.mp h).resolve_left fun h => same h.symm

/-! ## Its threads are told (R159, R160) -/

/-- A thread that pre-emption traps. -/
def trapped (ks : List Nat) (id : Nat) (t : Thread) : Bool := ks.contains (cmptOf id) && t.life != .killed && !ending t

/-- A thread takes the pre-emption trap. -/
def warn (ks : List Nat) (s : State) (p : Nat × Thread) : State :=
  if trapped ks p.1 (thr s p.1) then setThr s p.1 { thr s p.1 with async := (thr s p.1).async ++ [⟨.preEmption, 0⟩] } else s

/-- What traps leave as it was: a thread keeps those that it has. -/
structure Warned (s t : State) : Prop where
  mem : t.mem = s.mem
  cores : t.cores = s.cores
  ctxs : t.ctxs = s.ctxs
  host : t.host = s.host
  now : t.now = s.now
  life : ∀ id, SameLife (thr s id) (thr t id)
  async : ∀ id, ∀ a ∈ (thr s id).async, a ∈ (thr t id).async
  holds : ∀ n q, HoldsSlot t n q ↔ HoldsSlot s n q

theorem Warned.refl (s : State) : Warned s s := ⟨rfl, rfl, rfl, rfl, rfl, fun _ => .refl _, fun _ _ => id, fun _ _ => Iff.rfl⟩

theorem Warned.trans (h : Warned s t) (g : Warned t u) : Warned s u where
  mem := g.mem.trans h.mem
  cores := g.cores.trans h.cores
  ctxs := g.ctxs.trans h.ctxs
  host := g.host.trans h.host
  now := g.now.trans h.now
  life id := (h.life id).trans (g.life id)
  async id a ha := g.async id a (h.async id a ha)
  holds n q := (g.holds n q).trans (h.holds n q)

theorem warned_warn (s : State) (p : Nat × Thread) : Warned s (warn ks s p) := by
  unfold warn
  split
  · have same : SameLife (thr s p.1) { thr s p.1 with async := (thr s p.1).async ++ [⟨.preEmption, 0⟩] } := ⟨rfl, rfl, rfl⟩
    refine ⟨rfl, rfl, rfl, rfl, rfl, fun id => ?_, fun id a ha => ?_, fun n q => holdsSlot_setThr same q⟩
    · by_cases h : p.1 = id
      · subst h
        rwa [thr_setThr]
      · rw [thr_setThr_ne _ _ h]
        exact .refl _
    · by_cases h : p.1 = id
      · subst h
        rw [thr_setThr]
        exact List.mem_append_left _ ha
      · rwa [thr_setThr_ne _ _ h]
  · exact .refl s

theorem async_warn (p : Nat × Thread) (told : trapped ks p.1 (thr s p.1) = true) : ⟨.preEmption, 0⟩ ∈ (thr (warn ks s p) p.1).async := by
  rw [warn, if_pos told, thr_setThr]
  simp

theorem trapped_congr {id : Nat} {x y : Thread} (same : SameLife x y) : trapped ks id y = trapped ks id x := by
  rw [trapped, trapped, same.life, same.ending]

theorem foldl_warn (l : List (Nat × Thread)) (s : State) :
    Warned s (l.foldl (warn ks) s)
    ∧ ∀ p ∈ l, trapped ks p.1 (thr s p.1) = true → ⟨.preEmption, 0⟩ ∈ (thr (l.foldl (warn ks) s) p.1).async := by
  induction l generalizing s with
  | nil => exact ⟨.refl s, fun p hp => absurd hp List.not_mem_nil⟩
  | cons p l ih =>
    have first := warned_warn (ks := ks) s p
    obtain ⟨keeps, told⟩ := ih (warn ks s p)
    refine ⟨first.trans keeps, List.forall_mem_cons.mpr ⟨fun h => keeps.async _ _ (async_warn p h), fun q hq h => told q hq ?_⟩⟩
    rwa [trapped_congr (first.life q.1)]

/-! ## Its end (R429) -/

/-- A context that is stopped in compartments until its threads there have ended, or the deadline passes. -/
def stoppedCtx (x : Ctx) (ks : List Nat) (seq : BitVec 32) (now : Nat) : Ctx :=
  { x with stopped := (x.stopped ++ ks).eraseDups, preempt := some (ks, seq, now + x.pdl * microsecond) }

/-- The cores whose items are moved out. -/
def emptiedCores (s : State) (ks : List Nat) : List Nat :=
  (((s.cores.map (·.1)) ++ s.threads.map fun t => coreOf t.1).eraseDups).filter fun c => ks.contains (cmptOfCore c)

theorem preEmpt_eq (taken : s.host.taken = ws :: rest) (kind : kindOf ws = 3) (mask : maskOk ws = true)
    (live : (ctx s (ctxOf ws)).live = true) :
    preEmpt s = if (ctx s (ctxOf ws)).preempt.isSome || (ctx s (ctxOf ws)).killing.isSome then none
      else ((emptiedCores s (maskCmpts s (ctxOf ws) (pw ws 1))).foldl (fun s c => s.bind (moveOut (ctxOf ws) · c))
        (some (setCtx (unpacked s rest) (ctxOf ws) (stoppedCtx (ctx s (ctxOf ws)) (maskCmpts s (ctxOf ws) (pw ws 1)) (seqOf ws) s.now)))).map
        fun s' => checkPreempt ((holders s' (ctxOf ws)).foldl (warn (maskCmpts s (ctxOf ws) (pw ws 1))) s') (ctxOf ws) := by
  have packet := packetOf_head taken
  rw [kind] at packet
  unfold preEmpt
  rw [packet]
  dsimp only
  rw [if_neg (by simp [mask]), if_neg (by simp [show (ctx (unpacked s rest) (ctxOf ws)).live = true from live])]
  rfl

theorem checkPreempt_waits {seq : BitVec 32} {time : Nat} (pre : (ctx s n).preempt = some (ks, seq, time))
    (holds : HoldsSlot s n fun id => cmptOf id ∈ ks) : checkPreempt s n = s := by
  obtain ⟨p, listed, own, life, named⟩ := holds
  have any : ((holders s n).any fun p => ks.contains (cmptOf p.1)) = true :=
    List.any_eq_true.mpr ⟨p, List.mem_filter.mpr ⟨listed, by simp [own, life]⟩, by simpa using named⟩
  simp only [checkPreempt, pre]
  exact if_pos any

theorem checkPreempt_done {seq : BitVec 32} {time : Nat} (pre : (ctx s n).preempt = some (ks, seq, time))
    (empty : ¬HoldsSlot s n fun id => cmptOf id ∈ ks) :
    checkPreempt s n = packetDone (setCtx s n { ctx s n with preempt := none }) seq 0 0 := by
  have any : ((holders s n).any fun p => ks.contains (cmptOf p.1)) = false := by
    rw [List.any_eq_false]
    intro p hp named
    obtain ⟨listed, row⟩ := List.mem_filter.mp hp
    simp only [Bool.and_eq_true, bne_iff_ne, beq_iff_eq] at row
    exact empty ⟨p, listed, row.2, row.1, by simpa using named⟩
  simp only [checkPreempt, pre]
  exact if_neg (by rw [any]; decide)

theorem checkPreempt_keeps (s : State) (n : Nat) : (checkPreempt s n).cores = s.cores ∧ (checkPreempt s n).threads = s.threads
    ∧ (checkPreempt s n).host.taken = s.host.taken ∧ (ctx (checkPreempt s n) n).stopped = (ctx s n).stopped := by
  unfold checkPreempt
  split
  · exact ⟨rfl, rfl, rfl, rfl⟩
  · split
    · exact ⟨rfl, rfl, rfl, rfl⟩
    · exact ⟨rfl, rfl, rfl, (congrArg Ctx.stopped (ctx_setCtx s n { ctx s n with preempt := none }) :)⟩

/-- What a pre-emption gives. -/
structure PreEmpted (s : State) (n : Nat) (ks : List Nat) (seq : BitVec 32) (t : State) : Prop where
  memory : Barred s n → SameMemory s t
  taken : t.host.taken = s.host.taken
  stopped : ∀ k ∈ ks, k ∈ (ctx t n).stopped
  cores : ∀ d, cmptOfCore d ∈ ks → Rid n (core t d)
  async : ∀ id, (thr s id).ctx = n → (thr s id).life ≠ .free → (thr s id).life ≠ .killed → ending (thr s id) = false → cmptOf id ∈ ks →
    ⟨.preEmption, 0⟩ ∈ (thr t id).async
  waits : (HoldsSlot s n fun id => cmptOf id ∈ ks) →
    (ctx t n).preempt = some (ks, seq, s.now + (ctx s n).pdl * 1200) ∧ t.host.waiting = s.host.waiting
  done : (¬HoldsSlot s n fun id => cmptOf id ∈ ks) →
    (ctx t n).preempt = none ∧ t.host.waiting = s.host.waiting ++ [⟨0x33, 0, seq, 0, s.now, 0, 4095⟩]

/-- A core that no list names holds nothing. -/
theorem rid_or_emptied {d : Nat} (named : cmptOfCore d ∈ ks) : Rid n (core s d) ∨ d ∈ emptiedCores s ks := by
  by_cases listed : d ∈ s.cores.map (·.1)
  · refine .inr (List.mem_filter.mpr ⟨?_, by simpa using named⟩)
    rw [List.mem_eraseDups]
    exact List.mem_append_left _ listed
  · refine .inl ?_
    have absent : core s d = {} := by
      cases found : look s.cores d with
      | none => simp [core, lookD, found]
      | some k => exact absurd (List.mem_map.mpr ⟨_, mem_of_look found, rfl⟩) listed
    rw [absent]
    exact rid_default n

/-- A context that is stopped has its pages and its save area as before. -/
theorem barred_begun {seq : BitVec 32} {now : Nat} (barred : Barred s n) : Barred (setCtx s n (stoppedCtx (ctx s n) ks seq now)) n := by
  have row := ctx_setCtx s n (stoppedCtx (ctx s n) ks seq now)
  intro a ha
  rw [row] at ha
  obtain ⟨e, walk⟩ := barred a ha
  exact ⟨e, (walkPage_congr (s := s) (x := s.cores) (y := put s.ctxs n (stoppedCtx (ctx s n) ks seq now))
    (h := s.host) (congrArg Ctx.root row :) a).trans walk⟩

theorem preEmpted_spec (seq : BitVec 32) (ks : List Nat) (n : Nat) (still : Still s) :
    ∃ v, (emptiedCores s ks).foldl (fun s c => s.bind (moveOut n · c)) (some (setCtx s n (stoppedCtx (ctx s n) ks seq s.now))) = some v
      ∧ PreEmpted s n ks seq (checkPreempt ((holders v n).foldl (warn ks) v) n) := by
  obtain ⟨v, moves, aside, memory, rid⟩ :=
    foldl_moveOut (n := n) (s := setCtx s n (stoppedCtx (ctx s n) ks seq s.now)) (emptiedCores s ks) still
  obtain ⟨x, out⟩ := aside.context
  rw [ctx_setCtx] at out
  obtain ⟨warned, told⟩ := foldl_warn (ks := ks) (holders v n) v
  refine ⟨v, moves, ?_⟩
  generalize (holders v n).foldl (warn ks) v = w at warned told ⊢
  have row : ctx w n = { stoppedCtx (ctx s n) ks seq s.now with saved := x } :=
    (congrArg (fun y : Tab Ctx => lookD y n {}) warned.ctxs).trans out
  have pre : (ctx w n).preempt = some (ks, seq, s.now + (ctx s n).pdl * 1200) := by rw [row]; rfl
  have holds (q : Nat → Prop) : HoldsSlot w n q ↔ HoldsSlot s n q := (warned.holds n q).trans (aside.holds q)
  have host : w.host = s.host := warned.host.trans aside.host
  have now : w.now = s.now := warned.now.trans aside.now
  obtain ⟨cores, threads, taken, stopped⟩ := checkPreempt_keeps w n
  refine ⟨fun barred => ?_, by rw [taken, host], fun k hk => ?_, fun d named => ?_,
    fun id own used lives stays named => ?_, fun some_ => ?_, fun none_ => ?_⟩
  · exact sameMemory_of_mem ((mem_checkPreempt ..).trans (warned.mem.trans (memory (barred_begun barred))))
  · rw [stopped, row]
    exact List.mem_eraseDups.mpr (List.mem_append_right _ hk)
  · have same : core (checkPreempt w n) d = core v d := congrArg (fun y : Tab Core => lookD y d {}) (cores.trans warned.cores)
    rw [same]
    exact rid d (rid_or_emptied named)
  · have same : thr (checkPreempt w n) id = thr w id := congrArg (fun y : Tab Thread => lookD y id {}) threads
    have alike : SameLife (thr s id) (thr v id) := aside.life id
    rw [same]
    refine told _ (mem_holders (alike.life ▸ used) (alike.ctx.trans own)) ?_
    rw [trapped_congr alike]
    simp [trapped, named, lives, stays]
  · rw [checkPreempt_waits pre ((holds _).mpr some_), host]
    exact ⟨pre, rfl⟩
  · rw [checkPreempt_done pre (fun h => none_ ((holds _).mp h))]
    refine ⟨(congrArg Ctx.preempt (ctx_setCtx w n { ctx w n with preempt := none }) :), ?_⟩
    simp [packetDone, hostRecord, host, now]

theorem does_preEmpt (power : s.power = true) (taken : s.host.taken = ws :: rest) (kind : kindOf ws = 3) (mask : maskOk ws = true)
    (live : (ctx s (ctxOf ws)).live = true) (alone : (ctx s (ctxOf ws)).preempt = none) (lives : (ctx s (ctxOf ws)).killing = none)
    (still : Still s) :
    Does s .preEmptContext (PreEmpted (unpacked s rest) (ctxOf ws) (maskCmpts s (ctxOf ws) (pw ws 1)) (seqOf ws)) := by
  obtain ⟨v, moves, spec⟩ := preEmpted_spec (s := unpacked s rest) (seqOf ws) (maskCmpts s (ctxOf ws) (pw ws 1)) (ctxOf ws) still
  refine ⟨_, event_of_some power ?_, spec⟩
  rw [preEmpt_eq taken kind mask live, alone, lives]
  exact congrArg (Option.map _) moves

theorem preEmpt_waits (power : s.power = true) (taken : s.host.taken = ws :: rest) (kind : kindOf ws = 3) (mask : maskOk ws = true)
    (live : (ctx s (ctxOf ws)).live = true) (busy : (ctx s (ctxOf ws)).killing.isSome || (ctx s (ctxOf ws)).preempt.isSome) :
    exec .preEmptContext s = .next s := by
  rw [Bool.or_comm] at busy
  exact event_of_none power ((preEmpt_eq taken kind mask live).trans (if_pos busy))

end Sys2Proof.Machine
end

section
/-! O59: pre-emption, resume and kill. -/

namespace Sys2Proof.Machine

variable {s : State} {n : Nat} {ws : List Word} {rest : List (List Word)}

theorem maskOk_of_words (narrow : word ws 1 < 2 ^ 32) (zero : ∀ j, 2 ≤ j → j < 16 → word ws j = 0) : maskOk ws = true :=
  maskOk_iff.mpr ⟨narrow, zero⟩

/-- A context that is not at rest has a pre-emption or a kill under way. -/
theorem busy_of_not_idle {x : Ctx} (h : ¬(x.preempt = none ∧ x.killing = none)) : x.killing.isSome || x.preempt.isSome := by
  cases killing : x.killing with
  | some _ => rfl
  | none =>
    cases pre : x.preempt with
    | some _ => rfl
    | none => exact absurd ⟨pre, killing⟩ h

/-- What a pre-emption gives does not turn on the packet that asked for it. -/
theorem barred_unpacked (barred : ∀ a ≥ (ctx s n).save, ∃ e, walkPage s n a = .error e) : Barred (unpacked s rest) n := by
  intro a ha
  obtain ⟨e, walk⟩ := barred a ha
  exact ⟨e, (walkPage_congr (s := s) (x := s.cores) (y := s.ctxs) (h := { s.host with taken := rest }) rfl a).trans walk⟩

/-- Settles O59: a kill ends every thread and drops the work (`dying_killCtx`), a pre-emption empties the cores and tells the threads
(`preEmpted_spec`), and a resume puts back what it moved out (`resumed_spec`). -/
theorem contextControl : Obligations.ContextControl := by
  unfold Obligations.ContextControl
  intro s n power x dying
  refine ⟨fun ks seq time pre => ?_, fun r st units unit killing => ?_, ?_⟩
  · obtain ⟨t, run, memory, dies⟩ := does_preEmptDeadline power pre
    exact ⟨t, run, ⟨memory, dies.cgen, dies.killing, dies.jobs, dies.threads, fun c => (dies.cores c).lost⟩,
      (le_max_right ..).trans_eq dies.now.symm⟩
  · refine ⟨fun early => event_of_none power (killReport_early killing early),
      fun written listed waits => does_killReport_left power killing written listed waits,
      fun written listed last empty => ?_⟩
    obtain ⟨t, run, memory, ended, waiting⟩ := does_killReport_last power killing written listed last empty
    refine ⟨t, run, memory, ended, waiting.trans ?_⟩
    cases r <;> rfl
  · intro ws rest taken named live w kind seq zeroFrom ks at_ idle
    have own : ctxOf ws = n := (ctxOf_eq ws).trans named
    have hks : ks = maskCmpts s (ctxOf ws) (pw ws 1) := by rw [own, maskCmpts_eq]; rfl
    subst own
    refine ⟨fun busy => ⟨fun hk zero => ?_, fun hk narrow zero => ?_, fun hk narrow zero => ?_⟩, fun hk zero rests => ?_,
      fun hk narrow zero rests still => ?_, fun hk narrow zero rests room apart mine ready => ?_⟩
    · exact killContext_waits power taken hk (clearFrom_iff.mpr zero) live (busy_of_not_idle busy)
    · exact preEmpt_waits power taken hk (maskOk_of_words narrow zero) live (busy_of_not_idle busy)
    · exact resumeContext_waits power taken hk (maskOk_of_words narrow zero) live (busy_of_not_idle busy)
    · obtain ⟨alone, lives⟩ := rests
      obtain ⟨t, run, memory, dies⟩ := does_killContext power taken hk (clearFrom_iff.mpr zero) live alone lives
      rw [seqOf_eq] at dies
      exact ⟨t, run, ⟨memory, dies.cgen, dies.killing, dies.jobs, dies.threads, fun c => (dies.cores c).lost⟩, dies.taken⟩
    · obtain ⟨alone, lives⟩ := rests
      obtain ⟨t, run, spec⟩ := does_preEmpt power taken hk (maskOk_of_words narrow zero) live alone lives still
      rw [← hks, seqOf_eq] at spec
      refine ⟨t, run, fun barred => spec.memory (barred_unpacked barred), spec.taken, spec.stopped, fun c hc => (spec.cores c hc).lost, spec.async,
        spec.waits, fun none_ => spec.done ?_⟩
      rintro ⟨p, listed, mine, life, inside⟩
      exact life (none_ p listed mine inside)
    · obtain ⟨alone, lives⟩ := rests
      have free := resumeWaits_false (ks := ks) alone lives ready room
      rw [hks] at free
      obtain ⟨t, run, memory, spec⟩ := does_resumeContext power taken hk (maskOk_of_words narrow zero) live free apart mine
      rw [← hks, seqOf_eq] at spec
      refine ⟨t, run, memory, fun k hk => ?_, fun v hv => ?_, spec.host, fun v hv inside => ?_⟩
      · rw [spec.context] at hk
        simpa using (List.mem_filter.mp hk).2
      · rw [spec.context] at hv
        simpa using (List.mem_filter.mp hv).2
      · have out : v ∈ movedOut (unpacked s rest) (ctxOf ws) ks := mem_movedOut.mpr ⟨hv, inside⟩
        have back := spec.cores v out
        refine ⟨?_, ?_, ?_, fun p => ?_, fun threads => ?_⟩
        · rw [back, returned_keeps Core.deck fun _ _ _ => rfl]
          rfl
        · rw [back, returned_keeps Core.pairQ fun _ _ _ => rfl]
          rfl
        · rw [back, returned_keeps Core.intake fun _ _ _ => rfl]
          rfl
        · have order_ := order_returned (p := p) (at_ := cycOf s (cmptOfCore v.core) + 1) (v := v) (k := core s v.core)
          rw [back]
          exact order_
        · obtain ⟨q, p, m, -, start⟩ := (spec.starts v out threads).listed
          exact ⟨q, p, m, start⟩

end Sys2Proof.Machine
end

section
/-! SUPPORT. Atomics and fences (R118, R315, R317, R318, R322): the new value of each atomic operation as a word operation, and what a
compare and swap and a fence come to. -/

namespace Sys2Proof.Machine

variable {s : State}

/-! ## The new value of an atomic (R317) -/

section
variable {w : Nat} (old b : BitVec (8 * w))

theorem amoNew_add : amoNew 0 w old.toNat b.toNat = (old + b).toNat := (BitVec.toNat_add old b).symm

theorem amoNew_and : amoNew 1 w old.toNat b.toNat = (old &&& b).toNat := (BitVec.toNat_and old b).symm

theorem amoNew_or : amoNew 2 w old.toNat b.toNat = (old ||| b).toNat := (BitVec.toNat_or old b).symm

theorem amoNew_xor : amoNew 3 w old.toNat b.toNat = (old ^^^ b).toNat := (BitVec.toNat_xor old b).symm

theorem amoNew_min : amoNew 4 w old.toNat b.toNat = (if b.slt old then b else old).toNat := by
  simp only [amoNew, signedOf_toNat, BitVec.slt_iff_toInt_lt, apply_ite BitVec.toNat]

theorem amoNew_max : amoNew 5 w old.toNat b.toNat = (if old.slt b then b else old).toNat := by
  simp only [amoNew, signedOf_toNat, BitVec.slt_iff_toInt_lt, apply_ite BitVec.toNat, gt_iff_lt]

theorem amoNew_unsigned_min : amoNew 6 w old.toNat b.toNat = (if b.ult old then b else old).toNat := by
  simp only [amoNew, BitVec.ult_iff_lt, BitVec.lt_def, apply_ite BitVec.toNat]

theorem amoNew_unsigned_max : amoNew 7 w old.toNat b.toNat = (if old.ult b then b else old).toNat := by
  simp only [amoNew, BitVec.ult_iff_lt, BitVec.lt_def, apply_ite BitVec.toNat, gt_iff_lt]

end

/-! ## Compare and swap, and fences -/

/-- The compare and swap (R318). -/
theorem cas_clear {d a b c : Reg} {r : BitVec 2} {ps : List Piece} (h : Ready s .u [a, b, c, d]) (hs : Single s)
    (hq : Clear s { kind := .atomic, acq := r.getLsbD 0, rel := r.getLsbD 1, va := reg s a, size := 8, align := 8
                    op := fun _ _ => .cas (reg s c).toNat (reg s b).toNat, dests := [⟨d, 0, 8, false⟩], next := nextAt s 4 } ps) :
    exec (.cas d a b c r) s = .next (accesses s 4
      { kind := .atomic, acq := r.getLsbD 0, rel := r.getLsbD 1, va := reg s a, size := 8, align := 8
        op := fun _ _ => .cas (reg s c).toNat (reg s b).toNat, dests := [⟨d, 0, 8, false⟩], next := nextAt s 4 } ps) :=
  issue_access (f := { reads := [a, b, c], writes := [d], effect := true }) h hs hq (by simp [operands, arg, nextPc_base])

/-- An access is outstanding for which a fence waits: of the kinds that it counts, and for an acquire none that is posted (R118, R315). -/
def fenceWaits (s : State) (u : BitVec 1) (k : BitVec 2) : Bool :=
  (accsOf (base s) s.cur).any fun p => (u == 1 || p.2.covered) && (k != 1 || !p.2.posted)

variable {u : BitVec 1} {sc : BitVec 3} {k : BitVec 2}

/-- A fence with nothing to wait for costs its turn; unless it is a release, streams read ahead again (R322). -/
theorem exec_fence_free (h : Ready s .u []) (free : fenceWaits s u k = false) :
    exec (.fence u sc k) s = .next (goes s s (if k = 2 then issuer s else discardAhead (issuer s)) (nextAt s 4)) := by
  refine (issue_done (f := {}) (t := if k = 2 then base s else setThr (base s) s.cur (discardAhead (issuer s))) h (.inl ⟨rfl, rfl⟩)
    ?_ ?_ ?_).trans ?_
  · show (if fenceWaits s u k then _ else _) = _
    simp [free]
  · split <;> rfl
  · split <;> rfl
  · split <;> simp

/-- A fence that waits stays where it is. -/
theorem exec_fence_waits (h : Ready s .u []) (waits : fenceWaits s u k = true) :
    exec (.fence u sc k) s = .next (finish {} (issuer s) (.park .fence, base s)) :=
  issue_effect (f := {}) h (.inl ⟨rfl, rfl⟩) (if_pos waits) (.inl (keepQueue_same rfl))

/-- An instruction that parks without effect stays at its PC and changes no byte of memory. -/
theorem finish_park (f : Form) (w : Wait) :
    let t := finish f (issuer s) (.park w, base s)
    (thr t s.cur).pc = (issuer s).pc ∧ SameMemory s t ∧ ∃ since, (thr t s.cur).park = some (.again w since) := by
  simp only [finish, base_cur, thr_base, thr_setThr]
  exact ⟨trivial, fun _ => rfl, _, rfl⟩

/-- Settles O15: the accesses by the lemma of each form (`loadMany_clear`, `storeMany_clear`, `atomic_clear`, `cas_clear`), the new values
by the word operation of each, and the fence by whether it waits. -/
theorem multiplesAndAtomics : Obligations.MultiplesAndAtomics := by
  unfold Obligations.MultiplesAndAtomics
  refine ⟨fun s d a e ps i k single => ?_, fun s d a b r ps single => ?_, fun w old b _ => ?_, fun s u sc k ready => ?_⟩
  · exact ⟨fun ready => ⟨loadMany_clear ready single, storeMany_clear ready single⟩,
      fun ready => ⟨loadMany_clear ready single, storeMany_clear ready single⟩⟩
  · refine ⟨fun ready w sc => ?_, fun c ready => cas_clear ready single⟩
    have does (op : Nat) := atomic_clear (op := op) (w := w) (r := r) (ps := ps) ready single
    exact ⟨does 0, does 1, does 2, does 3, does 4, does 5, does 6, does 7, does 8⟩
  · exact ⟨amoNew_add old b, amoNew_and old b, amoNew_or old b, amoNew_xor old b, amoNew_min old b, amoNew_max old b,
      amoNew_unsigned_min old b, amoNew_unsigned_max old b, rfl⟩
  · exact ⟨exec_fence_free ready, fun waits => ⟨_, exec_fence_waits ready waits, finish_park {} .fence⟩⟩

end Sys2Proof.Machine
end

section
/-! SUPPORT. A turn (R140, R274, R275): the cycle in which a thread issues, the bytes that it fetches, and the instruction that they
stand for. -/

namespace Sys2Proof.Machine

variable {s t u : State} {tid : Nat}

/-! ## The cycle of a turn (R140) -/

theorem le_turnAt (slot n : Nat) : n ≤ turnAt slot n := Nat.le_add_right ..

theorem turnAt_mod {slot : Nat} (h : slot < 16) (n : Nat) : turnAt slot n % 16 = slot := by
  unfold turnAt
  omega

/-- A thread that waits for nothing that comes about between its turns issues in a cycle of its slot. -/
theorem issueCycle_mod (turns : completesBetween (thr s tid) = false) :
    cycOf s (cmptOf tid) ≤ issueCycle s tid ∧ issueCycle s tid % 16 = slotOf tid := by
  simp only [issueCycle, turns, Bool.false_eq_true, if_false]
  exact ⟨(le_max_left ..).trans (le_turnAt ..), turnAt_mod (Nat.mod_lt _ (by decide)) _⟩

/-! ## The fetch (R127, R275) -/

/-- Byte `j` of a number that is made of bytes. -/
theorem bytesAt_byte (m : List Host.Cell) {n j : Nat} (h : j < n) (a : Nat) :
    bytesAt m a n / 2 ^ (8 * j) % 256 = (byteAt m (a + j)).toNat := by
  induction n generalizing a j with
  | zero => omega
  | succ n ih =>
    have byte := (byteAt m a).isLt
    cases j with
    | zero => simp [bytesAt]; omega
    | succ j =>
      have rest := ih (j := j) (by omega) (a + 1)
      rw [bytesAt, show 8 * (j + 1) = 8 + 8 * j by omega, pow_add, ← Nat.div_div_eq_div_mul,
        show ((byteAt m a).toNat + 256 * bytesAt m (a + 1) n) / 2 ^ 8 = bytesAt m (a + 1) n by omega, rest]
      congr 2
      omega

/-- A byte of an aligned word of memory. -/
theorem extract_bytesAt (m : List Host.Cell) (a : Nat) {j : Nat} (h : j < 8) :
    (BitVec.ofNat 64 (bytesAt m a 8)).extractLsb' (8 * j) 8 = byteAt m (a + j) := by
  apply BitVec.eq_of_toNat_eq
  rw [toNat_field, BitVec.toNat_ofNat, bytesAt_mod m a 8]
  exact bytesAt_byte m h a

/-- Byte `off` of a tile's instruction store, as it stands. -/
def codeByte (s : State) (tl off : Nat) : Byte := byteAt s.mem (keyOf s.pkg (codeBase tl + off))

/-- A fetch of a word that no store has changed gives the word as it stands. -/
theorem fetchWord_unbuffered {tl : Nat} (h : (tile s tl).buffered = []) (w : Nat) :
    fetchWord s tl w = (BitVec.ofNat 64 (bytesAt s.mem (keyOf s.pkg (codeBase tl + 8 * w)) 8), s) := by
  simp [fetchWord, h, lookD, look]

/-- The halfword at an even offset, from the word that holds it. -/
theorem halfOf_code (s : State) (tl : Nat) {off : Nat} (even : off % 2 = 0) :
    halfOf (BitVec.ofNat 64 (bytesAt s.mem (keyOf s.pkg (codeBase tl + 8 * (off / 8))) 8)) off
      = [codeByte s tl off, codeByte s tl (off + 1)] := by
  have at_ (j : Nat) (h : off % 8 + j < 8) :
      (BitVec.ofNat 64 (bytesAt s.mem (keyOf s.pkg (codeBase tl + 8 * (off / 8))) 8)).extractLsb' (8 * (off % 8 + j)) 8
        = codeByte s tl (off + j) := by
    have key : keyOf s.pkg (codeBase tl + 8 * (off / 8)) + (off % 8 + j) = keyOf s.pkg (codeBase tl + (off + j)) := by
      unfold keyOf
      omega
    rw [extract_bytesAt _ _ h, key, codeByte]
  unfold halfOf
  rw [show 8 * (off % 8) + 8 = 8 * (off % 8 + 1) by omega, at_ 1 (by omega)]
  exact congrArg (· :: _) (at_ 0 (by omega))

/-- The fetch from a store that nothing has changed since the last start message (R127, R275). -/
theorem fetch_unbuffered {tl : Nat} (h : (tile s tl).buffered = []) (pc : Word) :
    fetch s tl pc =
      (let off := pc.toNat % 65536 / 2 * 2
       (if off = 0xFFFE then [codeByte s tl off, codeByte s tl (off + 1)]
        else [codeByte s tl off, codeByte s tl (off + 1), codeByte s tl (off + 2), codeByte s tl (off + 3)], s)) := by
  unfold fetch
  dsimp only
  have even : pc.toNat % 65536 / 2 * 2 % 2 = 0 := by omega
  generalize pc.toNat % 65536 / 2 * 2 = off at even
  have second := halfOf_code s tl (off := off + 2) (by omega)
  rw [fetchWord_unbuffered h, halfOf_code s tl even]
  split
  · rfl
  · split
    · next last =>
      rw [fetchWord_unbuffered h, show off / 8 + 1 = (off + 2) / 8 by omega]
      simp only [second]
      rfl
    · rw [show off / 8 = (off + 2) / 8 by omega]
      simp only [second]
      rfl

/-- A fetch leaves every clock. -/
theorem cycOf_fetch (s : State) (tl : Nat) (pc : Word) (k : Nat) : cycOf (fetch s tl pc).2 k = cycOf s k := by
  have word (s : State) (w : Nat) : cycOf (fetchWord s tl w).2 k = cycOf s k := by
    unfold fetchWord
    split <;> rfl
  unfold fetch
  dsimp only
  split
  · exact word s _
  · split
    · exact (word _ _).trans (word s _)
    · exact word s _

/-! ## The step that a choice makes -/

theorem step_of_agenda {c : Choice} {rest : List Choice} (h : s.agenda = c :: rest) : step s = act c { s with agenda := rest } := by
  simp only [step, h]

theorem step_of_due {c : Choice} (h : s.agenda = []) (hd : due s = some c) : step s = act c s := by
  simp only [step, h, hd]

theorem instOf_of_ok {bs : List Byte} {i : Instr} {n : Nat} (h : decode bs = .ok (i, n)) : instOf bs = i := by simp only [instOf, h]

theorem instOf_of_error {bs : List Byte} {e : DecodeError} (h : decode bs = .error e) : instOf bs = .illegalEncoding (instBits bs) := by
  simp only [instOf, h]

/-- A turn in which no trap is due runs what the bytes at the PC stand for (R274). -/
theorem issueTurn_runs {bs : List Byte} (power : s.power = true) (can : canIssue s tid = true)
    (untrapped : trapDue (thr (tick s (cmptOf tid) (issueCycle s tid)) tid) = none)
    (bytes : fetch (tick s (cmptOf tid) (issueCycle s tid)) (tileOf tid) (thr (tick s (cmptOf tid) (issueCycle s tid)) tid).pc = (bs, u)) :
    issueTurn tid s = exec (instOf bs) (atTurn u tid bs) := by
  simp only [issueTurn, power, can, untrapped, runTurn, bytes, Bool.not_true, Bool.false_eq_true, if_false]

/-- It issues in a cycle of its slot, unless its instruction waits for what comes about between turns (R140). -/
theorem cycOf_turn {bs : List Byte} (turns : completesBetween (thr s tid) = false)
    (bytes : fetch (tick s (cmptOf tid) (issueCycle s tid)) (tileOf tid) (thr (tick s (cmptOf tid) (issueCycle s tid)) tid).pc = (bs, u)) :
    cycOf u (cmptOf tid) % 16 = slotOf tid := by
  obtain ⟨later, slot⟩ := issueCycle_mod turns
  have clock := cycOf_fetch (tick s (cmptOf tid) (issueCycle s tid)) (tileOf tid)
    (thr (tick s (cmptOf tid) (issueCycle s tid)) tid).pc (cmptOf tid)
  rw [bytes, cycOf_tick, max_eq_right later] at clock
  rw [clock, slot]

/-- Settles O4: the choice is the agenda's or what is due (`step_of_agenda`, `step_of_due`), the turn runs the decoded bytes
(`issueTurn_runs`), and the bytes are those of the instruction store (`fetch_unbuffered`). -/
theorem stepRunsDecoded : Obligations.StepRunsDecoded := by
  unfold Obligations.StepRunsDecoded
  refine ⟨fun s u tid bs turn => ?_, fun s tl pc unchanged => fetch_unbuffered unchanged pc,
    fun s e rest => ⟨step_of_agenda, step_of_due⟩⟩
  obtain ⟨v, chosen, power, can, w, rfl, untrapped, bytes⟩ := turn
  have run : step s = exec (instOf bs) (atTurn u tid bs) := by
    rw [← issueTurn_runs power can untrapped bytes]
    rcases chosen with ⟨rest, agenda, rfl⟩ | ⟨agenda, next, rfl⟩
    · exact step_of_agenda agenda
    · exact step_of_due agenda next
  have same : thr v tid = thr s tid := by
    rcases chosen with ⟨rest, -, rfl⟩ | ⟨-, -, rfl⟩ <;> rfl
  refine ⟨fun turns => cycOf_turn (same ▸ turns) bytes, fun i n ok => ?_, fun e error => ?_⟩
  · rw [run, instOf_of_ok ok]
  · rw [run, instOf_of_error error]

end Sys2Proof.Machine
end

section
/-! SUPPORT. What the parts of an instruction leave of the threads (R225, R231): the threads but its own, its own place in a pair (R226)
and its held mill instruction (R364). One lemma for each part, in the order of the model; simp lemmas, since each part is made of
earlier ones. -/

namespace Sys2Proof.Machine

variable {s t u : State} {tid : Nat}

/-! ## The other threads -/

/-- The rows of a table of threads but one. -/
def others (tid : Nat) (x : Tab Thread) (n : Nat) : Option Thread := if n = tid then none else look x n

@[simp] theorem others_put (x : Tab Thread) (v : Thread) : others tid (put x tid v) = others tid x := by
  funext n
  unfold others
  split
  · rfl
  · next h => exact look_put_ne x v (Ne.symm h)

theorem thr_of_others (h : others tid t.threads = others tid s.threads) {n : Nat} (other : n ≠ tid) : thr t n = thr s n := by
  have row := congrFun h n
  simp only [others, other, if_false] at row
  simp only [thr, lookD, row]

/-- Whether a thread is half of a pair (R226), and its held mill instruction (R364), by its row. -/
def pairedIn (x : Tab Thread) (tid : Nat) : Bool := (lookD x tid {}).lt
def heldIn (x : Tab Thread) (tid : Nat) : Option Held := (lookD x tid {}).held

theorem lt_thr (s : State) (tid : Nat) : (thr s tid).lt = pairedIn s.threads tid := rfl
theorem held_thr (s : State) (tid : Nat) : (thr s tid).held = heldIn s.threads tid := rfl
@[simp] theorem pairedIn_put (x : Tab Thread) (v : Thread) : pairedIn (put x tid v) tid = v.lt := by simp [pairedIn]
@[simp] theorem heldIn_put (x : Tab Thread) (v : Thread) : heldIn (put x tid v) tid = v.held := by simp [heldIn]

/-- No thread has changed, and the same one issues. -/
@[simp] abbrev SameThreads (s t : State) : Prop := t.cur = s.cur ∧ t.threads = s.threads

/-- At most thread `tid` has changed, and the same one issues. -/
@[simp] abbrev Apart (tid : Nat) (s t : State) : Prop := t.cur = s.cur ∧ others tid t.threads = others tid s.threads

/-- Nor has it left its place in a pair or its held mill instruction. -/
@[simp] abbrev Keeps (tid : Nat) (s t : State) : Prop :=
  t.cur = s.cur ∧ others tid t.threads = others tid s.threads
    ∧ pairedIn t.threads tid = pairedIn s.threads tid ∧ heldIn t.threads tid = heldIn s.threads tid

theorem Apart.trans (h : Apart tid s t) (g : Apart tid t u) : Apart tid s u := ⟨g.1.trans h.1, g.2.trans h.2⟩

theorem Keeps.refl (tid : Nat) (s : State) : Keeps tid s s := ⟨rfl, rfl, rfl, rfl⟩

theorem Keeps.trans (h : Keeps tid s t) (g : Keeps tid t u) : Keeps tid s u := by
  obtain ⟨cur, rest, lt, held⟩ := h
  obtain ⟨cur', rest', lt', held'⟩ := g
  exact ⟨cur'.trans cur, rest'.trans rest, lt'.trans lt, held'.trans held⟩

theorem Keeps.apart (h : Keeps tid s t) : Apart tid s t := ⟨h.1, h.2.1⟩

theorem SameThreads.keeps (h : SameThreads s t) : Keeps tid s t := by
  obtain ⟨cur, threads⟩ := h
  exact ⟨cur, by rw [threads], by rw [threads], by rw [threads]⟩

@[simp] theorem cur_ite (c : Prop) [Decidable c] (s t : State) : (if c then s else t).cur = if c then s.cur else t.cur := by
  split <;> rfl

@[simp] theorem threads_ite (c : Prop) [Decidable c] (s t : State) :
    (if c then s else t).threads = if c then s.threads else t.threads := by
  split <;> rfl

theorem Keeps.bind {α β : Type} {r : Res α} {f : α → State → Res β} (hr : Keeps tid s r.state)
    (hf : ∀ a t, Keeps tid t (f a t).state) : Keeps tid s (r.bind f).state := by
  cases r with
  | ok a t => exact hr.trans (hf a t)
  | stop e t => exact hr

theorem Keeps.run {α : Type} {r : Res α} {f : α → State → Eff × State} (hr : Keeps tid s r.state)
    (hf : ∀ a t, Keeps tid t (f a t).2) : Keeps tid s (r.run f).2 := by
  cases r with
  | ok a t => exact hr.trans (hf a t)
  | stop e t => exact hr

theorem Apart.run {α : Type} {r : Res α} {f : α → State → Eff × State} (hr : Apart tid s r.state)
    (hf : ∀ a t, Apart tid t (f a t).2) : Apart tid s (r.run f).2 := by
  cases r with
  | ok a t => exact hr.trans (hf a t)
  | stop e t => exact hr

theorem sameThreads_foldl {α : Type} {f : State → α → State} (h : ∀ s x, SameThreads s (f s x)) (l : List α) (s : State) :
    SameThreads s (l.foldl f s) :=
  ⟨foldl_field State.cur f (fun s x => (h s x).1) l s, foldl_field State.threads f (fun s x => (h s x).2) l s⟩

theorem Kept.sameThreads (h : Kept s t) : SameThreads s t := ⟨h.cur, h.threads⟩

@[simp] theorem sameThreads_scale (s : State) (c ev v : Nat) : SameThreads s (scale s c ev v) := (kept_scale ..).sameThreads

theorem Walked.sameThreads (h : Walked s t) : SameThreads s t := ⟨h.cur, h.threads⟩

@[simp] theorem sameThreads_logErr (s : State) (err : Nat) (last inj : Bool) (act src place det : Nat) :
    SameThreads s (logErr s err last inj act src place det) := (Walked.logErr ..).sameThreads

@[simp] theorem sameThreads_sendFault (s : State) (c : Nat) (m : FaultMsg) : SameThreads s (sendFault s c m) := ⟨rfl, rfl⟩

/-! ## Traps (R222-R224) -/

@[simp] theorem keeps_setThr {v : Thread} (lt : v.lt = (thr s tid).lt) (held : v.held = (thr s tid).held) :
    Keeps tid s (setThr s tid v) := by
  simpa [lt_thr, held_thr] using And.intro lt held

@[simp] theorem keeps_contain (s : State) (tid : Nat) (c : Cause) (v pc : Word) : Keeps tid s (contain s tid c v pc) := by
  simp [contain, lt_thr, held_thr]

@[simp] theorem keeps_enterTrap (s : State) (tid : Nat) (c : Cause) (v pc : Word) : Keeps tid s (enterTrap s tid c v pc) := by
  simp [enterTrap, discardAhead, lt_thr, held_thr]

@[simp] theorem keeps_takeFault (s : State) (tid : Nat) (c : Cause) (v pc : Word) : Keeps tid s (takeFault s tid c v pc) := by
  rcases takeFault_cases s tid c v pc with h | ⟨d, h⟩ <;> rw [h]
  · exact keeps_enterTrap ..
  · exact keeps_contain ..

/-! ## Translation, accesses, requests and streams -/

@[simp] theorem sameThreads_noteWalk (s : State) (ctxn va : Nat) : SameThreads s (noteWalk s ctxn va) := (Walked.noteWalk ..).sameThreads

@[simp] theorem sameThreads_install (s : State) (tl : Nat) (l : Leaf) : SameThreads s (install s tl l) := ⟨rfl, rfl⟩

@[simp] theorem keeps_seenWalk (s : State) (tid ctxn va : Nat) : Keeps tid s (seenWalk s tid ctxn va) := by
  simp [seenWalk, lt_thr, held_thr]

@[simp] theorem sameThreads_countAccess (s : State) (k : Nat) (ps : List Piece) (posted : Bool) :
    SameThreads s (countAccess s k ps posted) := (kept_countAccess ..).sameThreads

@[simp] theorem sameThreads_startWalk (s : State) (tid va : Nat) (tval : Word) : SameThreads s (startWalk s tid va tval) := by
  unfold startWalk
  dsimp only
  (repeat' split) <;> simp

@[simp] theorem sameThreads_unitWalk (s : State) (w : Asker) (va : Nat) : SameThreads s (unitWalk s w va) := by
  unfold unitWalk
  dsimp only
  (repeat' split) <;> simp

@[simp] theorem sameThreads_piecesNow (s : State) (w : Asker) (k : AccKind) (va : Word) (n : Nat) :
    SameThreads s (piecesNow s w k va n).2 := by
  unfold piecesNow
  dsimp only
  (repeat' split) <;> simp

@[simp] theorem sameThreads_leafNow (s : State) (w : Asker) (va : Nat) : SameThreads s (leafNow s w va).2 := by
  unfold leafNow
  dsimp only
  (repeat' split) <;> simp

theorem sameThreads_of_piecesNow {w : Asker} {k : AccKind} {va : Word} {n : Nat} {r : Except Chk (List Piece)}
    (h : piecesNow s w k va n = (r, t)) : SameThreads s t := by
  have same := sameThreads_piecesNow s w k va n
  rwa [h] at same

@[simp] theorem sameThreads_checkAsk (s : State) (tid : Nat) (q : Ask) : SameThreads s (checkAsk s tid q).state := by
  unfold checkAsk
  dsimp only
  (repeat' split) <;> simp

@[simp] theorem discardAhead_lt (x : Thread) : (discardAhead x).lt = x.lt := rfl
@[simp] theorem discardAhead_held (x : Thread) : (discardAhead x).held = x.held := rfl
@[simp] theorem setStream_lt (x : Thread) (j : Nat) (q : Stream) : (setStream x j q).lt = x.lt := rfl
@[simp] theorem setStream_held (x : Thread) (j : Nat) (q : Stream) : (setStream x j q).held = x.held := rfl

@[simp] theorem keeps_popStream (s : State) (tid j : Nat) : Keeps tid s (popStream s tid j).state := by
  unfold popStream
  dsimp only
  (repeat' split) <;> simp [lt_thr, held_thr]

@[simp] theorem keeps_checkPush (s : State) (tid j also : Nat) : Keeps tid s (checkPush s tid j also).state := by
  unfold checkPush
  dsimp only
  split
  · exact .refl ..
  · split
    · next h => split <;> simp [sameThreads_of_piecesNow h]
    · next h => exact (sameThreads_of_piecesNow h).keeps
    · next h => (repeat' split) <;> simp [sameThreads_of_piecesNow h, lt_thr, held_thr]

@[simp] theorem keeps_checkPushes (s : State) (tid also : Nat) (rs : List Reg) : Keeps tid s (checkPushes s tid also rs).state := by
  induction rs generalizing s also with
  | nil => exact .refl ..
  | cons r rs ih =>
    unfold checkPushes
    split
    · exact ih s also
    · exact .bind (keeps_checkPush ..) fun _ t => ih t _

@[simp] theorem aheadAfter_lt (s : State) (tid : Nat) (q : Ask) (ps : List Piece) : (aheadAfter s tid q ps).lt = (thr s tid).lt := by
  unfold aheadAfter touchAhead
  dsimp only
  (repeat' split) <;> rfl

@[simp] theorem aheadAfter_held (s : State) (tid : Nat) (q : Ask) (ps : List Piece) : (aheadAfter s tid q ps).held = (thr s tid).held := by
  unfold aheadAfter touchAhead
  dsimp only
  (repeat' split) <;> rfl

@[simp] theorem keeps_touched (s : State) (tid : Nat) (q : Ask) (ps : List Piece) : Keeps tid s (touched s tid q ps) := by
  unfold touched
  split
  · exact keeps_setThr (aheadAfter_lt ..) (aheadAfter_held ..)
  · exact .refl ..

@[simp] theorem keeps_addAccess (s : State) (tid : Nat) (q : Ask) (ps : List Piece) (posted : Bool) :
    Keeps tid s (addAccess s tid q ps posted).2 :=
  (keeps_touched s tid q ps).trans (addAccess_spec ..).1.sameThreads.keeps

@[simp] theorem keeps_pushStream (s : State) (tid j : Nat) (v : Word) : Keeps tid s (pushStream s tid j v) := by
  unfold pushStream
  dsimp only
  (repeat' split) <;> simp [lt_thr, held_thr]

@[simp] theorem keeps_issueAccess (s : State) (tid : Nat) (q : Ask) (ps : List Piece) : Keeps tid s (issueAccess s tid q ps).2 := by
  unfold issueAccess
  dsimp only
  (repeat' split) <;> simp [lt_thr, held_thr]

@[simp] theorem keeps_memory (s : State) (tid : Nat) (q : Ask) : Keeps tid s (memory s tid q).2 :=
  .run (sameThreads_checkAsk ..).keeps fun ps t => keeps_issueAccess t tid q ps

/-! ## Operands, results and the end of an attempt -/

@[simp] theorem sameThreads_setQueued (s : State) (x : Thread) (tid : Nat) (l : List Word) : SameThreads s (setQueued s x tid l) :=
  ⟨rfl, rfl⟩

@[simp] theorem keeps_popPaired (s : State) (tid j : Nat) : Keeps tid s (popPaired s tid j).state := by
  unfold popPaired
  dsimp only
  split
  · split
    · exact .refl ..
    · simp [lt_thr, held_thr]
  · split
    · exact keeps_popStream s tid j
    · split
      · exact .refl ..
      · exact .bind (keeps_popStream s tid j) fun _ t => (sameThreads_setQueued t ..).keeps

@[simp] theorem keeps_readOps (s : State) (tid : Nat) (rs : List Reg) : Keeps tid s (readOps s tid rs).state := by
  induction rs generalizing s with
  | nil => exact .refl ..
  | cons r rs ih =>
    have rest (v : Word) (s : State) : Keeps tid s ((readOps s tid rs).bind fun vs s => .ok (v :: vs) s).state :=
      .bind (ih s) fun _ t => .refl tid t
    unfold readOps
    split
    · exact rest _ s
    · refine .bind ?_ rest
      split
      · exact keeps_popPaired ..
      · exact keeps_popStream ..

@[simp] theorem overtake_lt (x : Thread) (r : Reg) (c : Nat) : (overtake x r c).lt = x.lt := rfl
@[simp] theorem overtake_held (x : Thread) (r : Reg) (c : Nat) : (overtake x r c).held = x.held := rfl

@[simp] theorem keeps_result (s : State) (tid : Nat) (r : Reg) (v : Word) (n : Nat) (fl : FFlags) (fp sfu : Bool) :
    Keeps tid s (result s tid r v n fl fp sfu) := by
  unfold result
  dsimp only
  (repeat' split) <;> simp [lt_thr, held_thr]

@[simp] theorem keeps_awaitReply (s : State) (tid a : Nat) (undo : Tab Stream) (next : Word) :
    Keeps tid s (awaitReply s tid a undo next) := by
  unfold awaitReply
  split <;> simp [lt_thr, held_thr]

@[simp] theorem keeps_afterPush (ws : List Reg) (x : Thread) (undo : Tab Stream) (s : State) (tid : Nat) (next : Word) :
    Keeps tid s (afterPush ws x undo s tid next) := by
  unfold afterPush awaitPush
  (repeat' split) <;> simp

@[simp] theorem advance_lt (x y : Thread) (pc : Word) (slot c wait : Nat) : (advance x y pc slot c wait).lt = y.lt := rfl
@[simp] theorem advance_held (x y : Thread) (pc : Word) (slot c wait : Nat) : (advance x y pc slot c wait).held = y.held := rfl

/-- However an instruction ends, its end is its own thread's. -/
theorem keeps_finish (f : Form) (x : Thread) (r : Eff × State) : Keeps r.2.cur r.2 (finish f x r) := by
  unfold finish
  dsimp only
  split
  · simp [lt_thr, held_thr]
  · simp [lt_thr, held_thr]
  · simp [lt_thr, held_thr]
  · simp [lt_thr, held_thr]
  · split
    · exact keeps_contain ..
    · exact keeps_enterTrap ..
  · simp [lt_thr, held_thr]
  · simp
  · exact .refl ..

/-- A part of an instruction of thread `tid` has not come to the instruction's own effect, or ends with it, in a state that keeps. -/
def Comes (body : List Word → State → Eff × State) (tid : Nat) (s : State) (r : Eff × State) : Prop :=
  Keeps tid s r.2 ∨ ∃ vs u, Keeps tid s u ∧ r = body vs u

theorem Comes.run {body : List Word → State → Eff × State} {α : Type} {r : Res α} {f : α → State → Eff × State}
    (k : Keeps tid u s) (hr : Keeps tid s r.state)
    (hf : ∀ a t, Keeps tid u t → Comes body tid u (f a t)) : Comes body tid u (r.run f) := by
  cases r with
  | ok a t => exact hf a t (k.trans hr)
  | stop e t => exact .inl (k.trans hr)

/-- The attempt at an instruction of a single thread ends before its own effect, or with it. -/
theorem comes_attempt {f : Form} {body : List Word → State → Eff × State} {x : Thread} (hx : x.lt = false)
    (single : (thr s s.cur).lt = false) : Comes body s.cur s (attempt f body x s) := by
  unfold attempt
  dsimp only
  split
  · exact .inl (.refl ..)
  split
  · exact .inl (.refl ..)
  split
  · exact .inl (.refl ..)
  rw [keepQueue_single hx]
  refine .run (.refl ..) (keeps_checkPushes ..) fun _ u k => .run k (keeps_readOps ..) fun vs v k => ?_
  split
  · exact .inl k
  refine .run k (keeps_readOps ..) fun ws w k => .inr ⟨vs ++ ws, w, k, ?_⟩
  have lt : (thr w w.cur).lt = false := by rw [k.1]; exact k.2.2.1.trans single
  simp [paired, lt]

/-- An instruction of a single thread leaves what its own effect leaves, in a state that its operands have left; or it has had none. -/
theorem issue_cases {f : Form} {body : List Word → State → Eff × State} (single : Single s) (h : issue f body s = .next t) :
    Keeps s.cur s t ∨ ∃ vs u, Keeps s.cur s u ∧ ((body vs u).2.cur = u.cur → Keeps s.cur (body vs u).2 t) := by
  obtain ⟨-, rfl⟩ := issue_next h
  have start : Keeps s.cur s (base s) := keeps_setThr (settle_lt ..) (settle_held ..)
  have ends := keeps_finish f (issuer s) (attempt f body (issuer s) (base s))
  have comes : Comes body s.cur (base s) (attempt f body (issuer s) (base s)) :=
    comes_attempt single (by rw [base_cur, thr_base]; exact single)
  rcases comes with k | ⟨vs, u, k, e⟩
  · rw [k.1] at ends
    exact .inl ((start.trans k).trans ends)
  · rw [e] at ends ⊢
    exact .inr ⟨vs, u, start.trans k, fun cur => by rwa [cur, k.1] at ends⟩

end Sys2Proof.Machine
end

section
/-! SUPPORT. What the parts of an instruction leave of the threads (R225, R231), from the register window on: one lemma for each part,
in the order of the model. The parts that end a thread do more to it, so they are stated apart. -/

namespace Sys2Proof.Machine

variable {s t u : State} {tid : Nat}

/-! ## Branches and the register window -/

@[simp] theorem keeps_branched (s : State) : Keeps s.cur s (branched s) := by
  unfold branched
  split <;> simp [lt_thr, held_thr]

@[simp] theorem keeps_refillTrail (s : State) (tid : Nat) : Keeps tid s (refillTrail s tid).2 := by
  unfold refillTrail
  dsimp only
  (repeat' split) <;> simp [lt_thr, held_thr]

@[simp] theorem keeps_refillNext (s : State) (tid : Nat) : Keeps tid s (refillNext s tid).2 := by
  unfold refillNext
  dsimp only
  split
  · exact keeps_refillTrail ..
  · split
    · exact .refl ..
    · split
      · next h => simp [sameThreads_of_piecesNow h, noRefill, lt_thr, held_thr]
      · next h => exact (sameThreads_of_piecesNow h).keeps
      · next h => split <;> simp [sameThreads_of_piecesNow h, lt_thr, held_thr]

/-! ## A thread's own accesses -/

@[simp] theorem sameThreads_ownStop (s : State) (tid : Nat) (va : Word) (c : Chk) : SameThreads s (ownStop s tid va c).2 := by
  unfold ownStop
  split <;> simp

@[simp] theorem sameThreads_ownStore (s : State) (tid : Nat) (va : Word) (n : Nat) (k : AccKind) (outside : Cause) :
    SameThreads s (ownStore s tid va n k outside).state := by
  unfold ownStore
  (repeat' split) <;> simp

@[simp] theorem keeps_ownAccess (s : State) (tid : Nat) (va : Word) (n : Nat) (k : AccKind) (op : Nat → Nat → ReqOp)
    (ps : List Piece) (entry : Option LandEntry) (takes : Bool) :
    Keeps tid s (ownAccess s tid va n k op ps entry takes).state := by
  unfold ownAccess
  dsimp only
  (repeat' split) <;> simp [lt_thr, held_thr]

@[simp] theorem keeps_ownWords (s : State) (tid : Nat) (va : Word) (n : Nat) (outside : Cause) :
    Keeps tid s (ownWords s tid va n outside).state :=
  .bind (sameThreads_ownStore ..).keeps fun _ _ => .bind (keeps_ownAccess ..) fun _ u => .refl tid u

@[simp] theorem keeps_storeOwn (s : State) (tid : Nat) (va : Word) (ps : List Piece) (bs : List Byte) (entry : Option LandEntry)
    (takes : Bool) : Keeps tid s (storeOwn s tid va ps bs entry takes).state := keeps_ownAccess ..

/-! ## The mill -/

@[simp] theorem keeps_enterMill (s : State) (tid : Nat) (o : MillOp) (job : Option Nat) (edges : List Nat) (accepted : Bool) :
    Keeps tid s (enterMill s tid o job edges accepted) := by simp [enterMill, lt_thr, held_thr]

@[simp] theorem keeps_millWait (s : State) (target : BitVec 32) : Keeps s.cur s (millWait s target).2 := by
  unfold millWait
  split <;> simp [lt_thr, held_thr]

@[simp] theorem apart_representHeld (s : State) (tid : Nat) : Apart tid s (representHeld s tid) := by
  unfold representHeld
  dsimp only
  split <;> simp

@[simp] theorem sameThreads_completeEntry (s : State) (c : Nat) (p : Entry → Bool) : SameThreads s (completeEntry s c p) := ⟨rfl, rfl⟩

@[simp] theorem apart_retireFlags (s : State) (tl : Nat) (o : MillOp) : Apart o.tid s (retireFlags s tl o) := by
  unfold retireFlags
  dsimp only
  split <;> simp

/-- The held instruction of a thread, if it has one, is its own (R364). -/
def HoldsOwn (s : State) (tid : Nat) : Prop := ∀ h, heldIn s.threads tid = some h → h.op.tid = tid

theorem apart_cancelHeld (own : HoldsOwn s tid) : Apart tid s (cancelHeld s tid) := by
  unfold cancelHeld
  dsimp only
  split
  · simp
  · next h held =>
    have flags := apart_retireFlags (setThr s tid { thr s tid with held := none }) (tileOf tid) h.op
    rw [own h held] at flags
    exact (show Apart tid s _ from ⟨flags.1, flags.2.trans (by simp)⟩).trans (sameThreads_completeEntry ..).keeps.apart

/-! ## The end of a thread -/

@[simp] theorem keeps_acquireNow (s : State) (tid : Nat) : Keeps tid s (acquireNow s tid) := by simp [acquireNow, lt_thr, held_thr]

@[simp] theorem sameThreads_enqueue (s : State) (tid : Nat) (cls : Class) (bodies : List (Body × Nat)) :
    SameThreads s (enqueue s tid cls bodies) := ⟨rfl, rfl⟩

@[simp] theorem sameThreads_fillLanding (s : State) (c : Nat) : SameThreads s (fillLanding s c) := by
  unfold fillLanding
  exact sameThreads_foldl (fun s e => by dsimp only; split <;> simp) _ _

@[simp] theorem keeps_leaveCrews (s : State) (tid : Nat) : Keeps tid s (leaveCrews s tid) := by
  unfold leaveCrews
  dsimp only
  generalize left : (thr s tid).crew.foldl _ s = u
  have crews : SameThreads s u := by
    rw [← left]
    exact sameThreads_foldl (fun s e => by split <;> simp) _ s
  simp [crews, lt_thr, held_thr]

@[simp] theorem sameThreads_packetDone (s : State) (seq : BitVec 32) (status cnt : Nat) : SameThreads s (packetDone s seq status cnt) :=
  ⟨rfl, rfl⟩

@[simp] theorem sameThreads_checkPreempt (s : State) (n : Nat) : SameThreads s (checkPreempt s n) := by
  unfold checkPreempt
  split
  · simp
  · split <;> simp

@[simp] theorem sameThreads_checkKill (s : State) (n : Nat) : SameThreads s (checkKill s n) := by
  unfold checkKill
  (repeat' split) <;> simp

@[simp] theorem apart_freeSlot (s : State) (tid : Nat) : Apart tid s (freeSlot s tid) := by simp [freeSlot]

@[simp] theorem apart_checkKilled (s : State) (tid : Nat) : Apart tid s (checkKilled s tid) := by
  unfold checkKilled
  split <;> simp

theorem apart_killThread (own : HoldsOwn s tid) : Apart tid s (killThread s tid) := by
  have held := apart_cancelHeld own
  unfold killThread
  dsimp only
  split
  · simp
  · split <;> simp [held]

/-- The end of a single thread is its own. -/
theorem apart_killPair (single : pairedIn s.threads tid = false) (own : HoldsOwn s tid) : Apart tid s (killPair s tid) := by
  simpa [killPair, lt_thr, single] using apart_killThread own

theorem pairedIn_cancelHeld (own : HoldsOwn s tid) : pairedIn (cancelHeld s tid).threads tid = pairedIn s.threads tid := by
  unfold cancelHeld
  dsimp only
  split
  · rfl
  · next h held =>
    simp only [sameThreads_completeEntry, retireFlags, setTile_threads, own h held]
    split <;> simp [lt_thr]

theorem apart_endWork (single : pairedIn s.threads tid = false) (own : HoldsOwn s tid) : Apart tid s (endWork s tid).2 := by
  have held := apart_cancelHeld own
  have lt : (thr (cancelHeld s tid) tid).lt = false := by rw [lt_thr, pairedIn_cancelHeld own, single]
  simp only [endWork, lt, Bool.not_false, if_true]
  split <;> simp [held]

/-! ## Messages and landing entries -/

@[simp] theorem keeps_nextSeq (s : State) (tid : Nat) : Keeps tid s (nextSeq s tid) := by simp [nextSeq, lt_thr, held_thr]

@[simp] theorem keeps_writePair (s : State) (tid : Nat) (d : Reg) (v w : Word) : Keeps tid s (writePair s tid d v w) := by
  unfold writePair
  split <;> simp

@[simp] theorem sameThreads_removeEntry (s : State) (c : Nat) (e : LandEntry) : SameThreads s (removeEntry s c e) := by
  simp [removeEntry]

/-- A take leaves the other threads where what it does with nothing to take does. -/
theorem keeps_takeEntry {empty : State → Eff × State} (he : ∀ t, t.cur = s.cur → Keeps s.cur t (empty t).2) (d a : Reg) (area : Word)
    (choose : State → Option (Nat × LandEntry)) (take : Bool) : Keeps s.cur s (takeEntry d a area choose take empty s).2 := by
  have gives (s : State) (tid : Nat) (e : LandEntry) :
      Keeps tid s (writePair (if take then acquireNow (removeEntry s (coreOf tid) e) tid else s) tid d (landWords e).1
        (landWords e).2) := by
    cases take <;> simp
  unfold takeEntry
  dsimp only
  split
  · split
    · exact he s rfl
    · exact .run (.refl ..) fun _ t => gives t _ _
  · split
    · exact .refl ..
    · generalize hr : ownStore s s.cur area 64 .store .tier = r
      have k := (sameThreads_ownStore s s.cur area 64 .store .tier).keeps (tid := s.cur)
      rw [hr] at k
      cases r with
      | stop e t => exact k
      | ok ps t =>
        refine k.trans ?_
        dsimp only [Res.run]
        split
        · exact he t k.1
        · exact .run (keeps_storeOwn ..) fun _ u => gives u _ _

/-! ## Moving and spawning threads -/

@[simp] theorem keeps_taskRecord (s : State) (tid : Nat) (va : Word) : Keeps tid s (taskRecord s tid va).state := by
  unfold taskRecord
  split
  · exact .refl ..
  · exact .bind (keeps_ownWords ..) fun ws t => by split <;> exact .refl ..

@[simp] theorem sameThreads_pushDeck (s : State) (tid : Nat) (ws : List Word) : SameThreads s (pushDeck s tid ws) := ⟨rfl, rfl⟩

/-! ## Jobs -/

@[simp] theorem sameThreads_capture (s : State) (tid : Nat) (rd w : Bool) (hi fuel va : Nat) :
    SameThreads s (capture s tid rd w hi fuel va).2 := by
  induction fuel generalizing s va with
  | zero => simp [capture]
  | succ fuel ih =>
    have next {s t : State} {va : Nat} {r : Except Chk (List Page)} (h : capture s tid rd w hi fuel va = (r, t)) : SameThreads s t := by
      have same := ih s va
      rwa [h] at same
    have leaf {s t : State} {a : Asker} {r : Except Chk Leaf} (h : leafNow s a va = (r, t)) : SameThreads s t := by
      have same := sameThreads_leafNow s a va
      rwa [h] at same
    unfold capture
    dsimp only
    split
    · simp
    · split
      · simp
      · split
        · split
          · simp
          · split <;> (next h => exact next h)
        · split
          · next h => exact leaf h
          · next h =>
            split
            · exact leaf h
            · split <;> (next h' => simp [next h', leaf h])

@[simp] theorem sameThreads_captureAll (s : State) (tid : Nat) (rs : List ((Nat × Nat) × Bool × Bool)) :
    SameThreads s (captureAll s tid rs).2 := by
  induction rs generalizing s with
  | nil => simp [captureAll]
  | cons r rs ih =>
    obtain ⟨r, rd, w⟩ := r
    have first {r' : Except Chk (List Page)} {t : State}
        (h : capture s tid rd w r.2 ((r.2 - r.1) / 65536 + 2) r.1 = (r', t)) : SameThreads s t := by
      have same := sameThreads_capture s tid rd w r.2 ((r.2 - r.1) / 65536 + 2) r.1
      rwa [h] at same
    have second {s t : State} {r : Except Chk (List Page)} (h : captureAll s tid rs = (r, t)) : SameThreads s t := by
      have same := ih s
      rwa [h] at same
    unfold captureAll
    split
    · next h => exact first h
    · next h => split <;> (next h' => simp [second h', first h])

theorem sameThreads_of_captureAll {rs : List ((Nat × Nat) × Bool × Bool)} {r : Except Chk (List Page)}
    (h : captureAll s tid rs = (r, t)) : SameThreads s t := by
  have same := sameThreads_captureAll s tid rs
  rwa [h] at same

@[simp] theorem sameThreads_cardChecks (s : State) (tid kind : Nat) (ws : List Word) (follow : Option MillOp) :
    SameThreads s (cardChecks s tid kind ws follow).state := by
  unfold cardChecks
  dsimp only
  split
  · simp
  · split
    · simp
    · split
      · simp
      · split
        · next h => exact sameThreads_of_captureAll h
        · next h => (repeat' split) <;> exact sameThreads_of_captureAll h

@[simp] theorem sameThreads_markChecks (s : State) (tid : Nat) (m : Marking) : SameThreads s (markChecks s tid m).state := by
  unfold markChecks
  dsimp only
  split
  · next h => exact sameThreads_of_captureAll h
  · next h => (repeat' split) <;> exact sameThreads_of_captureAll h

@[simp] theorem sameThreads_enterJob (s : State) (tid : Nat) (j : Job) (rd wr : List (Nat × Nat)) :
    SameThreads s (enterJob s tid j rd wr) := by
  unfold enterJob
  dsimp only
  (repeat' split) <;> simp

@[simp] theorem keeps_admitJob (s : State) (tid : Nat) (d : Reg) (j : Job) (rd wr : List (Nat × Nat)) :
    Keeps tid s (admitJob s tid d j rd wr).2 := by
  unfold admitJob
  dsimp only
  (repeat' split) <;> simp

@[simp] theorem sameThreads_askStop (s : State) (ids : List Nat) : SameThreads s (askStop s ids) := ⟨rfl, rfl⟩

@[simp] theorem sameThreads_openChan (s : State) (c n : Nat) : SameThreads s (openChan s c n) := ⟨rfl, rfl⟩

/-! ## The grader -/

@[simp] theorem sameThreads_setSet (s : State) (tl n : Nat) (g : GradeSet) : SameThreads s (setSet s tl n g) := ⟨rfl, rfl⟩

@[simp] theorem keeps_engineStore (s : State) (tid : Nat) : Keeps tid s (engineStore s tid).2 := by simp [engineStore]

/-! ## The net machine -/

@[simp] theorem sameThreads_netPiece (s : State) (tid : Nat) (k : Option AccKind) (va : Word) (n : Nat) :
    SameThreads s (netPiece s tid k va n).state := by
  unfold netPiece
  dsimp only
  (repeat' split) <;> simp

@[simp] theorem keeps_portPlace (s : State) (tid : Nat) (w : Word) : Keeps tid s (portPlace s tid w).state := by
  have place (n : Nat) : Keeps tid s ((netPiece s tid none (bodyOf w) n).bind fun _ s => .ok () s).state :=
    .bind (sameThreads_netPiece ..).keeps fun _ t => .refl tid t
  unfold portPlace
  split
  · exact place 32
  · split
    · exact place 8
    · exact .refl ..

@[simp] theorem keeps_setNet (s : State) (tid : Nat) (x : NetStep) : Keeps tid s (setNet s tid x) := by simp [setNet, lt_thr, held_thr]

@[simp] theorem keeps_netStore (s : State) (tid : Nat) (p : Piece) (va v : Word) : Keeps tid s (netStore s tid p va v).state := by
  unfold netStore
  dsimp only
  split <;> simp

@[simp] theorem keeps_netAtomic (s : State) (tid : Nat) (ar : Bool) (p : Piece) (va : Word) (op : ReqOp) (x : NetStep) :
    Keeps tid s (netAtomic s tid ar p va op x).state := by
  unfold netAtomic
  dsimp only
  split <;> simp

@[simp] theorem keeps_cellAtomic (s : State) (tid : Nat) (c : Word) (op : ReqOp) (x : NetStep) :
    Keeps tid s (cellAtomic s tid c op x).state :=
  .bind (sameThreads_netPiece ..).keeps fun _ _ => keeps_netAtomic ..

@[simp] theorem keeps_point (s : State) (tid : Nat) (w v : Word) : Keeps tid s (point s tid w v).state := by
  unfold point
  split
  · exact .bind (sameThreads_netPiece ..).keeps fun _ _ => keeps_netStore ..
  · exact .refl ..

@[simp] theorem sameThreads_setPool (s : State) (c l : Nat) (node : Bool) (p : Pool) : SameThreads s (setPool s c l node p) :=
  ⟨rfl, rfl⟩

@[simp] theorem sameThreads_giveBlock (s : State) (launch : Option Nat) (pkg pa : Nat) (node : Bool) :
    SameThreads s (giveBlock s launch pkg pa node) := by
  unfold giveBlock
  split
  · split <;> simp
  · simp

theorem sameThreads_of_allocBlock {off : Nat} {node : Bool} (h : allocBlock s tid node = some (off, t)) : SameThreads s t := by
  unfold allocBlock at h
  split at h
  · cases h
  · split at h
    · cases h
    · cases h; exact sameThreads_setPool ..

@[simp] theorem keeps_releaseCell (s : State) (tid : Nat) (c : Word) : Keeps tid s (releaseCell s tid c).state := by
  refine .bind (sameThreads_netPiece ..).keeps fun p t => ?_
  dsimp only
  split
  · exact (sameThreads_giveBlock ..).keeps
  · exact keeps_netStore ..

@[simp] theorem keeps_pushPair (s : State) (tid : Nat) (a b : Word) : Keeps tid s (pushPair s tid a b).state := by
  unfold pushPair
  dsimp only
  split
  · exact .refl ..
  · split
    · exact .refl ..
    · refine .bind (sameThreads_netPiece ..).keeps fun p t => ?_
      (repeat' split) <;> simp

@[simp] theorem keeps_netStep (s : State) (tid : Nat) (d : Reg) (r : NetRun) : Keeps tid s (netStep s tid d r).state := by
  have go {r : Res Unit} (x : NetStep) (h : Keeps tid s r.state) : Keeps tid s (r.bind fun _ t => .ok () (setNet t tid x)).state :=
    .bind h fun _ t => keeps_setNet t tid x
  have goes (x : NetStep) : Keeps tid s (Res.ok () (setNet s tid x)).state := keeps_setNet ..
  have stops (e : Eff) : Keeps tid s (Res.stop e s : Res Unit).state := .refl ..
  unfold netStep
  dsimp only
  split
  · split
    · exact go _ (keeps_point ..)
    · exact goes _
  · exact keeps_cellAtomic ..
  · exact goes _
  · exact keeps_cellAtomic ..
  · exact goes _
  · exact go _ (keeps_releaseCell ..)
  · split
    · split
      · exact stops _
      · next off u h =>
        have alloc := (sameThreads_of_allocBlock h).keeps (tid := tid)
        have piece := (sameThreads_netPiece s tid (some .store) (blockAddr s tid off) 8).keeps (tid := tid)
        cases hp : netPiece s tid (some .store) (blockAddr s tid off) 8 with
        | ok p w => exact alloc.trans (keeps_setNet ..)
        | stop e w => rwa [hp] at piece
    · exact go _ (keeps_point ..)
  · exact go _ (keeps_point ..)
  · exact go _ (keeps_pushPair ..)
  · refine go _ ?_
    split
    · exact .bind (sameThreads_netPiece ..).keeps fun _ _ => keeps_netStore ..
    · exact keeps_point ..
    · exact keeps_point ..
  · split
    · exact stops _
    · simp [lt_thr, held_thr]
  · split
    · exact stops _
    · simp [lt_thr, held_thr]
  · split
    · exact stops _
    · simp [lt_thr, held_thr]
  · exact stops _
  · exact stops _
  · exact stops _
  · exact stops _

@[simp] theorem keeps_netRun (n : Nat) (s : State) (tid : Nat) (d : Reg) : Keeps tid s (netRun n s tid d).2 := by
  induction n generalizing s with
  | zero => exact .refl ..
  | succ n ih =>
    unfold netRun
    split
    · exact .refl ..
    · next r _ =>
      have h := keeps_netStep s tid d r
      split
      · next e => rw [e] at h; exact h.trans (ih _)
      · next e => rw [e] at h; exact h
      · next e => rw [e] at h; exact h
      · next e => rw [e] at h; exact h

/-! ## State registers, privileged instructions and residues -/

@[simp] theorem keeps_setStateReg (s : State) (tid r : Nat) (v : Word) : Keeps tid s (setStateReg s tid r v) := by
  unfold setStateReg
  split <;> simp [lt_thr, held_thr, writeTs, writeFpc]

@[simp] theorem sameThreads_dropEntries (s : State) (mine : Nat) (v : Inval) : SameThreads s (dropEntries s mine v) := ⟨rfl, rfl⟩

@[simp] theorem sameThreads_rnsCount (s : State) (tl : Nat) (r : Option RnsResult) : SameThreads s (rnsCount s tl r) := by
  unfold rnsCount
  split <;> simp

end Sys2Proof.Machine
end

section
/-! SUPPORT. What each instruction leaves of the threads but its own (R225, R231), form by form: the forms that have no step that
reaches another thread, then those that end a thread, take a message or run step by step. -/

namespace Sys2Proof.Machine

variable {s t u : State}

/-! ## Instructions that keep to their thread -/

/-- The thread that issues is single, and the instruction that it holds is its own (R226, R364). -/
def Alone (s : State) : Prop := pairedIn s.threads s.cur = false ∧ HoldsOwn s s.cur

theorem Alone.of_keeps (alone : Alone s) (k : Keeps s.cur s t) : Alone t := by
  obtain ⟨cur, -, lt, held⟩ := k
  obtain ⟨single, own⟩ := alone
  refine ⟨by rw [cur, lt, single], fun h => ?_⟩
  rw [cur, held]
  exact own h

theorem Alone.single (alone : Alone s) : Single s := (settle_lt ..).trans alone.1

theorem alone_of_issuer (single : Single s) (own : ∀ h, (issuer s).held = some h → h.op.tid = s.cur) : Alone s :=
  ⟨(settle_lt ..).symm.trans single, fun h e => own h ((settle_held ..).trans e)⟩

/-- The instruction leaves every thread but the one that issues it as it was. -/
structure OwnThread (s : State) (o : Host.Outcome State Fault Refusal) : Prop where
  apart : ∀ t, o = .next t → Apart s.cur s t

section
variable {f : Form} {body : List Word → State → Eff × State} (alone : Alone s)
include alone

/-- An instruction does to the other threads what its own effect does, or nothing. -/
theorem issue_alone (h : issue f body s = .next t) :
    Keeps s.cur s t ∨ ∃ vs u, Keeps s.cur s u ∧ Alone u ∧ u.cur = s.cur ∧
      ((body vs u).2.cur = u.cur → Keeps u.cur (body vs u).2 t) := by
  rcases issue_cases alone.single h with k | ⟨vs, u, k, ends⟩
  · exact .inl k
  · exact .inr ⟨vs, u, k, alone.of_keeps k, k.1, by rwa [← k.1] at ends⟩

/-- An instruction keeps to its thread where its own effect does. -/
theorem ownThread_issue_of (h : ∀ vs u, Alone u → Apart u.cur u (body vs u).2) : OwnThread s (issue f body s) := by
  refine ⟨fun t next => ?_⟩
  rcases issue_alone alone next with k | ⟨vs, u, k, alone', cur, ends⟩
  · exact k.apart
  · have effect := h vs u alone'
    have after := (effect.trans (ends effect.1).apart)
    rw [cur] at after
    exact k.apart.trans after

theorem ownThread_issue (h : ∀ vs u, Apart u.cur u (body vs u).2) : OwnThread s (issue f body s) :=
  ownThread_issue_of alone fun vs u _ => h vs u

theorem keeps_issue (h : ∀ vs u, Keeps u.cur u (body vs u).2) (next : issue f body s = .next t) : Keeps s.cur s t := by
  rcases issue_alone alone next with k | ⟨vs, u, k, -, cur, ends⟩
  · exact k
  · have effect := h vs u
    have after := effect.trans (ends effect.1)
    rw [cur] at after
    exact k.trans after

end

theorem mapNext_next {f : State → State} {o : Host.Outcome State Fault Refusal} (h : mapNext f o = .next t) :
    ∃ u, o = .next u ∧ f u = t := by
  cases o with
  | next u => exact ⟨u, rfl, by cases h; rfl⟩
  | fault e => cases h
  | refused r => cases h

/-! ## Branches and the register window -/

section
variable (alone : Alone s)
include alone

theorem ownThread_compute (f : Form) (d : Reg) (n : Nat) (g : List Word → Word) : OwnThread s (compute f d n g s) :=
  ownThread_issue alone fun _ _ => by simp

theorem ownThread_branch (len : Nat) (rs : List Reg) (o : BitVec 12) (taken : List Word → Bool) :
    OwnThread s (branch len rs o taken s) :=
  ownThread_issue alone fun _ _ => by simp

theorem ownThread_indirect (len : Nat) (a : Reg) (i : BitVec 12) : OwnThread s (indirect len a i s) :=
  ownThread_issue alone fun _ _ => by dsimp only; (repeat' split) <;> simp

theorem ownThread_indirectLink (len : Nat) (d a : Reg) (i : BitVec 12) : OwnThread s (indirectLink len d a i s) :=
  ownThread_issue alone fun _ _ => by dsimp only; (repeat' split) <;> simp

theorem ownThread_save (len : Nat) : OwnThread s (save len s) :=
  ownThread_issue alone fun _ _ => by dsimp only; (repeat' split) <;> simp

theorem ownThread_restore (len : Nat) : OwnThread s (restore len s) := by
  refine ownThread_issue alone fun vs u => ?_
  dsimp only
  (repeat' split) <;> simp [spillSent]

/-! ## Accesses and arithmetic -/

theorem ownThread_loadOne (len : Nat) (d a : Reg) (off : Word) (w : Nat) (signed acq migrates : Bool) :
    OwnThread s (loadOne len d a off w signed acq migrates s) :=
  ownThread_issue alone fun _ _ => by simp

theorem ownThread_storeOne (len : Nat) (a b : Reg) (off : Word) (w : Nat) (rel : Bool) :
    OwnThread s (storeOne len a b off w rel s) :=
  ownThread_issue alone fun _ _ => by simp

theorem ownThread_atomic (op : Nat) (d a b : Reg) (w : BitVec 1) (r : BitVec 2) : OwnThread s (atomic op d a b w r s) :=
  ownThread_issue alone fun _ _ => by simp

theorem ownThread_execSqCfg (q a : Reg) (i : BitVec 12) : OwnThread s (execSqCfg q a i s) := by
  refine ownThread_issue alone fun vs u => ?_
  dsimp only
  split
  · simp
  · exact .run (keeps_ownWords ..).apart fun ws v => by split <;> simp

theorem ownThread_fp (f : Form) (d : Reg) (n : Nat) (g : Option (BitVec 10) → BitVec 3 → List Word → Nat × FFlags) :
    OwnThread s (fp f d n g s) :=
  ownThread_issue alone fun _ _ => by simp [fpResult]

theorem ownThread_packed (d a b : Reg) (t : BitVec 3) (g : Nat → Int → Int → Int) : OwnThread s (packed d a b t g s) :=
  ownThread_fp alone _ _ _ _

theorem ownThread_fp2 (d a b : Reg) (m t : BitVec 3) (g : Rm → FVal → FVal → FVal × Bool) : OwnThread s (fp2 d a b m t g s) :=
  ownThread_fp alone _ _ _ _

theorem ownThread_fp1 (d a : Reg) (t : BitVec 3) (g : FVal → FVal) : OwnThread s (fp1 d a t g s) :=
  ownThread_fp alone _ _ _ _

theorem ownThread_fcmp (d a b : Reg) (t : BitVec 3) (g : FVal → FVal → Bool) : OwnThread s (fcmp d a b t g s) :=
  ownThread_fp alone _ _ _ _

theorem ownThread_fused (d a b c : Reg) (t : BitVec 3) (neg : Bool) : OwnThread s (fused d a b c t neg s) :=
  ownThread_fp alone _ _ _ _

theorem ownThread_sfu (fn : Nat) (d a : Reg) (w : BitVec 3) (np : BitVec 1) (t : BitVec 2) : OwnThread s (sfu fn d a w np t s) :=
  ownThread_issue alone fun _ _ => by dsimp only; (repeat' split) <;> simp

/-! ## The mill and the residue unit -/

theorem ownThread_millIssue (f : Form) (kind : MillKind) (acc opt : Nat) (regs : List Word → Word × Word × Word × Word) :
    OwnThread s (millIssue f kind acc opt regs s) :=
  ownThread_issue alone fun _ _ => by dsimp only; split <;> simp

theorem ownThread_multiply (kind : MillKind) (a b c : Reg) (opt : Nat) (w : BitVec 3) (acc : Option (Nat → Bool)) :
    OwnThread s (multiply kind a b c opt w acc s) :=
  ownThread_millIssue alone _ _ _ _ _

theorem ownThread_blockIssue (kind : MillKind) (a b c : Reg) (opt : Nat) (w : BitVec 3) :
    OwnThread s (blockIssue kind a b c opt w s) :=
  ownThread_millIssue alone _ _ _ _ _

/-- A residue instruction keeps to its thread where its effect on a tile does. -/
theorem ownThread_residue {body : Tile → List Word → State → Eff × State} (h : ∀ x vs u, Apart u.cur u (body x vs u).2)
    (f : Form) : OwnThread s (residue f body s) := by
  refine ownThread_issue alone fun vs u => ?_
  dsimp only
  split
  · exact h ..
  · exact ⟨rfl, rfl⟩

theorem ownThread_rnsArith (d a b : Reg) (w : BitVec 3) (op : Int → Int → Int) (bound : Nat → Nat → Nat) :
    OwnThread s (rnsArith d a b w op bound s) :=
  ownThread_residue alone (fun _ _ _ => by simp [pairResult]) _

theorem ownThread_execRnsr (d a : Reg) (w : BitVec 3) : OwnThread s (execRnsr d a w s) :=
  ownThread_residue alone (fun _ _ _ => by dsimp only; split <;> simp [pairResult]) _

/-! ## Messages, threads and crews -/

theorem ownThread_landing (take : Bool) (d a : Reg) (nw : BitVec 1) (pm : BitVec 4) : OwnThread s (landing take d a nw pm s) :=
  ownThread_issue alone fun _ _ => (keeps_takeEntry (fun u cur => by split <;> simp [cur]) ..).apart

theorem ownThread_execWaitSeq (d a b : Reg) : OwnThread s (execWaitSeq d a b s) := by
  refine ownThread_issue alone fun vs u => ?_
  dsimp only
  split
  · exact ⟨rfl, rfl⟩
  · exact (keeps_takeEntry (fun v _ => .refl _ v) ..).apart

theorem ownThread_execSpawn (d a : Reg) : OwnThread s (execSpawn d a s) :=
  ownThread_issue alone fun _ _ => .run (keeps_taskRecord ..).apart fun _ _ => by (repeat' split) <;> simp

theorem ownThread_execMprogCancel (w : BitVec 3) : OwnThread s (execMprogCancel w s) :=
  ownThread_issue_of alone fun _ _ ⟨_, own⟩ => apart_cancelHeld own

theorem ownThread_execEndThread : OwnThread s (execEndThread s) := by
  refine ownThread_issue_of alone fun vs u alone => ?_
  have k : Keeps u.cur u (setThr u u.cur { thr u u.cur with qb := 0 }) := keeps_setThr rfl rfl
  obtain ⟨single, own⟩ := alone.of_keeps k
  exact k.apart.trans (apart_endWork single own)

theorem ownThread_execYield (d a : Reg) : OwnThread s (execYield d a s) := by
  refine ownThread_issue_of alone fun vs u alone => ?_
  dsimp only
  split
  · exact apart_endWork alone.1 alone.2
  · have k := keeps_taskRecord u u.cur (arg vs 0)
    generalize taskRecord u u.cur (arg vs 0) = r at k
    cases r with
    | stop e v => exact k.apart
    | ok ws v =>
      refine k.apart.trans ?_
      have lt : (thr v u.cur).lt = false := k.2.2.1.trans alone.1
      dsimp only [Res.run]
      split
      · split
        · exact ⟨rfl, rfl⟩
        · have left : Keeps u.cur v (setThr (pushDeck v u.cur ws) u.cur { thr v u.cur with qb := 0 }) := by simp [lt_thr, held_thr]
          obtain ⟨single, own⟩ := alone.of_keeps (k.trans left)
          rw [(k.trans left).1] at single own
          rw [if_neg (by simp [lt])]
          exact left.apart.trans (apart_endWork single own)
      · simp

theorem ownThread_crewOp (a : Reg) (f : Ctx → Thread → Nat → Nat → Except Cause (Ctx × Thread)) : OwnThread s (crewOp a f s) :=
  ownThread_issue alone fun _ _ => by dsimp only; (repeat' split) <;> simp

theorem ownThread_arrival (drop : Bool) (d a : Reg) : OwnThread s (arrival drop d a s) :=
  ownThread_issue alone fun _ _ => by dsimp only; (repeat' split) <;> simp

/-! ## Jobs, the grader and reductions -/

theorem ownThread_yarder (kind : Nat) (d a : Reg) : OwnThread s (yarder kind d a s) := by
  refine ownThread_issue alone fun vs u => ?_
  dsimp only
  split
  · exact ⟨rfl, rfl⟩
  · refine .run (keeps_ownWords ..).apart fun ws v => .run (sameThreads_cardChecks ..).keeps.apart fun r w => ?_
    split
    · exact ⟨rfl, rfl⟩
    · exact (keeps_admitJob ..).apart

theorem ownThread_execMark (d a : Reg) : OwnThread s (execMark d a s) := by
  refine ownThread_issue alone fun vs u => ?_
  dsimp only
  split
  · exact ⟨rfl, rfl⟩
  · refine .run (keeps_ownWords ..).apart fun ws v => ?_
    split
    · exact ⟨rfl, rfl⟩
    · exact .run (sameThreads_markChecks ..).keeps.apart fun ps w => (keeps_admitJob ..).apart

theorem ownThread_gradeOut (fin : Bool) (d a b : Reg) : OwnThread s (gradeOut fin d a b s) := by
  refine ownThread_issue alone fun vs u => ?_
  dsimp only
  split
  · exact ⟨rfl, rfl⟩
  · split
    · exact ⟨rfl, rfl⟩
    · split
      · exact ⟨rfl, rfl⟩
      · refine .run (sameThreads_ownStore ..).keeps.apart fun ps v => ?_
        split
        · exact ⟨rfl, rfl⟩
        · exact .run (keeps_storeOwn ..).apart fun _ w => by split <;> simp

theorem ownThread_execSmpResCfg (d a b : Reg) : OwnThread s (execSmpResCfg d a b s) := by
  refine ownThread_issue alone fun vs u => ?_
  dsimp only
  split
  · exact ⟨rfl, rfl⟩
  · split
    · exact ⟨rfl, rfl⟩
    · exact .run (keeps_ownWords ..).apart fun ws v => by (repeat' split) <;> simp

theorem ownThread_redRead (wait : Bool) (d a : Reg) : OwnThread s (redRead wait d a s) :=
  ownThread_issue alone fun _ _ => by dsimp only; (repeat' split) <;> simp

/-- The instruction that arms a channel makes the threads of its core read ahead again (R105, R321), and keeps to its thread else. -/
theorem thr_execYrdChan {d a b : Reg} (h : execYrdChan d a b s = .next t) {n : Nat} (other : n ≠ s.cur) :
    thr t n = thr s n ∨ thr t n = discardAhead (thr s n) := by
  rcases issue_alone alone h with k | ⟨vs, u, k, -, cur, ends⟩
  · exact .inl (thr_of_others k.2.1 other)
  · have before : thr u n = thr s n := thr_of_others k.2.1 other
    have refused {e : Eff} (after : (e, u).2.cur = u.cur → Keeps u.cur (e, u).2 t) : thr t n = thr s n :=
      (thr_of_others (after rfl).2.1 (cur ▸ other)).trans before
    dsimp only at ends
    split at ends
    · exact .inl (refused ends)
    split at ends
    · exact .inl (refused ends)
    split at ends
    · exact .inl (refused ends)
    generalize hw : rereadCore _ (coreOf u.cur) = w at ends
    have armed : w.cur = u.cur ∧ (thr w n = thr u n ∨ thr w n = discardAhead (thr u n)) := by
      rw [← hw, thr_rereadCore]
      refine ⟨rfl, ?_⟩
      split
      · exact .inr rfl
      · exact .inl rfl
    have k' := (keeps_result ..).trans (ends ((keeps_result ..).1.trans armed.1))
    rw [thr_of_others k'.2.1 (cur ▸ other), ← before]
    exact armed.2

/-! ## The net machine -/

theorem ownThread_execNalloc (d : Reg) : OwnThread s (execNalloc d s) := by
  refine ownThread_issue alone fun vs u => ?_
  dsimp only
  split
  · exact ⟨rfl, rfl⟩
  · next off v h =>
    have alloc := sameThreads_of_allocBlock h
    have piece := sameThreads_netPiece u u.cur (some .store) (blockAddr u u.cur off) 32
    generalize netPiece u u.cur (some .store) (blockAddr u u.cur off) 32 = r at piece
    cases r with
    | stop e w => exact piece.keeps.apart
    | ok p w =>
      dsimp only [Res.run]
      split
      · exact piece.keeps.apart
      · exact alloc.keeps.apart.trans (by simp)

theorem ownThread_execPair (a b : Reg) : OwnThread s (execPair a b s) := by
  refine ownThread_issue alone fun vs u => ?_
  dsimp only
  split
  · exact ⟨rfl, rfl⟩
  · exact .run (keeps_portPlace ..).apart fun _ v => .run (keeps_portPlace ..).apart fun _ w =>
      .run (keeps_pushPair ..).apart fun _ _ => ⟨rfl, rfl⟩

theorem ownThread_execNread (d a : Reg) : OwnThread s (execNread d a s) :=
  ownThread_issue alone fun _ _ => .run (sameThreads_netPiece ..).keeps.apart fun _ _ => (keeps_issueAccess ..).apart

theorem ownThread_execNhdr (d a b : Reg) : OwnThread s (execNhdr d a b s) := by
  refine ownThread_issue alone fun vs u => ?_
  dsimp only
  split
  · exact ⟨rfl, rfl⟩
  · exact .run (sameThreads_netPiece ..).keeps.apart fun p v => (keeps_issueAccess ..).apart

/-- An instruction that runs step by step keeps to its thread where its first step does. -/
theorem ownThread_netIssue {start : List Word → State → Res NetStep} (h : ∀ vs u, Keeps u.cur u (start vs u).state)
    (reads writes : List Reg) (d : Reg) : OwnThread s (netIssue reads writes d start s) := by
  refine ⟨fun t next => ?_⟩
  obtain ⟨u, issued, rfl⟩ := mapNext_next next
  have k : Keeps s.cur s u := keeps_issue alone (fun vs v => by
    dsimp only
    split
    · exact keeps_netRun ..
    · exact .run (h vs v) fun x w => by simp [lt_thr, held_thr]) issued
  obtain ⟨single, own⟩ := alone.of_keeps k
  rw [k.1] at single own
  split
  · exact k.apart.trans (apart_killPair single own)
  · exact k.apart

theorem ownThread_execLink (d a b : Reg) : OwnThread s (execLink d a b s) := by
  refine ownThread_netIssue alone (fun vs u => ?_) _ _ _
  dsimp only
  split
  · exact .refl ..
  · exact .bind (keeps_portPlace ..) fun _ v => .bind (keeps_portPlace ..) fun _ w => .refl ..

theorem ownThread_execNfree (a : Reg) : OwnThread s (execNfree a s) :=
  ownThread_netIssue alone (fun _ _ => .bind (sameThreads_netPiece ..).keeps fun _ _ =>
    .bind (keeps_netAtomic ..) fun _ _ => .refl ..) _ _ _

theorem ownThread_pref (up : Bool) (d a : Reg) : OwnThread s (pref up d a s) := by
  refine ownThread_netIssue alone (fun vs u => ?_) _ _ _
  dsimp only
  split
  · exact .refl ..
  · exact .bind (sameThreads_checkAsk ..).keeps fun ps v => by split <;> simp

/-! ## The firmware -/

theorem ownThread_execHalt (d a b : Reg) : OwnThread s (execHalt d a b s) := by
  refine ownThread_issue alone fun vs u => ?_
  dsimp only
  split
  · exact ⟨rfl, rfl⟩
  · refine .run (sameThreads_ownStore ..).keeps.apart fun ps v => ?_
    split
    · exact .run (keeps_storeOwn ..).apart fun _ w => by simp
    · split <;> simp


/-! ## Every instruction -/

/-- An encoded instruction of a single thread keeps to its thread, but for the firmware's on another thread, and for `yrd.chan`. -/
theorem ownThread_exec {i : Instr} (encoded : encode i ≠ []) (names : namesThread i = false) (chan : ∀ d a b, i ≠ .yrdChan d a b) :
    OwnThread s (exec i s) := by
  unfold exec
  cases i with
  | yrdChan d a b => exact absurd rfl (chan d a b)
  | tkill | tscrub | winWr => cases names
  | bootImage | kick | consumedRegister | modeChangeComplete | launchStart | cruiseSweep | preEmptionDeadline
  | trapEntry | faultMessage | systemClassStart | threadStart | dispatchIntakeArrival | landingMessageArrival
  | migrationDepart | sendQueueDepart | pairRecordArrival | overflowRingRefill | pairPrepare | stealRequest
  | autoRecast | channelElementMove | accessReply | postedStoreAck | postedStoreRefusal | flitArrival | pageWalkEnd
  | frameMigrating | drainReport | footprintAccept | footprintDispatch | jobArrival | watermarkReport | jobCompletion
  | yarderKillReport | millAccept | millRetire | millPipeFault | sfuResult | pendingResultWrite | spillWord
  | streamReadAhead | reductionCombine | graderAccept | markJobRun | droopTrip | scalerConfig | pairSlotSend
  | elasticFifoDelivery | haltDeadline | intakeSlotWrite | kickSlotPoll | kickAheadOfPacket | launch | partitionSetup
  | killContext | createContext | releaseContext | resumeContext | bankRequest | homeAccess | windowAccessService
  | frameCopyComplete | forwardingCommit | millRowRead | powerOn | powerOff | hostRecordPost | preEmptContext | readLog
  | attest | illegalEncoding => exact absurd rfl encoded
  | add | sub | and | or | xor | andn | orn | addi | andi | ori | xori | slti | sltiN | shl | shr | sar | rotl | rotr
  | clz | ctz | popc | brev | bswap | bfx | bfxs | bfi | shli | shri | sari | mul | mulh | mulhN | madd | msub | div
  | divN | rem | remN | li | liN | lih | min | minN | max | maxN | slt | sltN | seq | sel | fli | c16Add | c16Sub
  | c16And | c16Or | c16Xor | c16Move | c16Mul | c16Addi | c16Li | c16Shli | c16Shri | c16Sari | c16Andi
  | c16Addi16 => exact ownThread_compute alone ..
  | adr | j | jal | rep | ldp | stp | ldm | stm | cas | sqBind | sqOff | sqWait | sqStat | mseq | mwait | mwaitAll
  | mprogRd | mprogGo | lndCnt | markSt | trap | sysc | cyc | c16J | c16Jal | nop
  | c16Nop => exact ownThread_issue alone fun _ _ => by simp [lt_thr, held_thr]
  | mprogCancel => exact ownThread_execMprogCancel alone ..
  | endThread => exact ownThread_execEndThread alone
  | beq | bne | blt | bge | bz | bnz | bltN | bgeN | c16Bz | c16Bnz => exact ownThread_branch alone ..
  | jr | c16Jr | ret | c16Ret => exact ownThread_indirect alone ..
  | jalr | c16Jalr => exact ownThread_indirectLink alone ..
  | ld | ldN | ldAcq | lx | c16Ld | c16LdX2 | c16LdX3 => exact ownThread_loadOne alone ..
  | st | stRel | c16St | c16StX2 | c16StX3 => exact ownThread_storeOne alone ..
  | amoAdd | amoAnd | amoOr | amoXor | amoMin | amoMax | amoNMin | amoNMax | amoXchg => exact ownThread_atomic alone ..
  | fence | dcb | rnsmap | send | sendm | mig | barInit | barWait | semPost | semWait | chanPut | chanGet | recast
  | yrdWm | yrdStop | grdCfg | grdIn | smpInj | gnz | rng | swr | winMap | winRd | eccInj | tlbInv | tsc | pfx
  | tret => exact ownThread_issue alone fun _ _ => by dsimp only; (repeat' split) <;> simp [lt_thr, held_thr]
  | nread => exact ownThread_execNread alone ..
  | nhdr => exact ownThread_execNhdr alone ..
  | sqCfg => exact ownThread_execSqCfg alone ..
  | padd | psub | padds | psubs | pmul | pmulh | pmin | pmax | pavg | pcmpEq | pcmpLt | pcmpLe => exact ownThread_packed alone ..
  | pabs | pdot | pshf | ppk | pup | pbc | psel | fsum | fcvt | icvt | fcls | okey | dl2 | dip | dipE4m3
  | dham => exact ownThread_fp alone ..
  | fadd | fsub | fmul | fmin | fmax => exact ownThread_fp2 alone ..
  | fneg | fabs => exact ownThread_fp1 alone ..
  | fcmpEq | fcmpLt | fcmpLe => exact ownThread_fcmp alone ..
  | fma | fms => exact ownThread_fused alone ..
  | sfuRcp | sfuRsqrt | sfuSqrt | sfuExp2 | sfuLog2 | sfuExp | sfuLn | sfuSinpi | sfuCospi | sfuTanh
  | sfuSigm => exact ownThread_sfu alone ..
  | mma | mmas | mmcb | mmr => exact ownThread_multiply alone ..
  | mld | mst | mfin => exact ownThread_blockIssue alone ..
  | mzero | manc | mscl | mcbt => exact ownThread_millIssue alone ..
  | rnsf | rnschk => exact ownThread_residue alone (fun _ _ _ => by simp [pairResult]) _
  | rnsr => exact ownThread_execRnsr alone ..
  | rnsadd | rnsaddSub | rnsmul => exact ownThread_rnsArith alone ..
  | lndGet | lndPeek => exact ownThread_landing alone ..
  | waitSeq => exact ownThread_execWaitSeq alone ..
  | spawn => exact ownThread_execSpawn alone ..
  | yield => exact ownThread_execYield alone ..
  | crewNew | crewJoin | crewLeave | crewDel => exact ownThread_crewOp alone ..
  | barArrive | barDrop => exact ownThread_arrival alone ..
  | nalloc => exact ownThread_execNalloc alone ..
  | nfree => exact ownThread_execNfree alone ..
  | link => exact ownThread_execLink alone ..
  | pair => exact ownThread_execPair alone ..
  | prefInc | prefDec => exact ownThread_pref alone ..
  | yrdCopy | yrdGath | yrdScat | yrdFill | yrdFar => exact ownThread_yarder alone ..
  | grdOutKeep | grdOutFin => exact ownThread_gradeOut alone ..
  | mark => exact ownThread_execMark alone ..
  | smpResW | smpResNw => exact ownThread_redRead alone ..
  | smpResCfg => exact ownThread_execSmpResCfg alone ..
  | srd => exact ownThread_issue alone fun _ _ => by split <;> simp
  | halt => exact ownThread_execHalt alone ..
  | save | c16Save => exact ownThread_save alone ..
  | restore | c16Restore => exact ownThread_restore alone ..

end

theorem writesMemory_of_encoded {i : Instr} (encoded : encode i ≠ []) : writesMemory i = false := by
  cases i with
  | bankRequest | homeAccess | windowAccessService | frameCopyComplete | forwardingCommit | millRowRead | powerOn
  | powerOff | hostRecordPost | preEmptContext | readLog | attest => exact absurd rfl encoded
  | _ => rfl

/-- Settles O8: an instruction's stores are requests that their homes perform later, and its effect, by its form, is on its own row
of the thread table. -/
theorem instructionsReachNoFurther : Obligations.InstructionsReachNoFurther := by
  intro s t i encoded next
  refine ⟨sameMemory_of_mem ?_, fun names single own n other => ?_⟩
  · have kept := mem_exec (writesMemory_of_encoded encoded) s
    rwa [next, stateAfter_next] at kept
  · have alone := alone_of_issuer single own
    by_cases chan : ∃ d a b, i = .yrdChan d a b
    · obtain ⟨d, a, b, rfl⟩ := chan
      exact (thr_execYrdChan alone next other).imp_right fun h => ⟨⟨d, a, b, rfl⟩, h⟩
    · have own := ownThread_exec alone encoded names fun d a b e => chan ⟨d, a, b, e⟩
      exact .inl (thr_of_others (own.apart t next).2 other)

end Sys2Proof.Machine
end

section
/-! SUPPORT. A turn whose effect is on shared state: its thread keeps all but its result (R246, R254, R255, R290). -/

namespace Sys2Proof.Machine

variable {s t : State} {y : Thread} {ds : List Reg} {d : Reg} {w : Word}

theorem leaves_issuer : Leaves s (issuer s) [] :=
  ⟨fun _ _ => rfl, rfl, rfl, rfl, rfl, rfl, rfl, rfl, rfl, rfl, rfl, rfl⟩

@[simp] theorem tile_base (n : Nat) : tile (base s) n = tile s n := rfl
@[simp] theorem core_base (n : Nat) : core (base s) n = core s n := rfl
@[simp] theorem ctx_base (n : Nat) : ctx (base s) n = ctx s n := rfl
theorem setCore_base (n : Nat) (k : Core) : setCore (base s) n k = setThr (setCore s n k) s.cur (issuer s) := rfl
theorem setCtx_base (n : Nat) (x : Ctx) : setCtx (base s) n x = setThr (setCtx s n x) s.cur (issuer s) := rfl
@[simp] theorem boundAt_discardAhead (r : Reg) : boundAt (discardAhead y) r = boundAt y r := rfl

/-- What a thread has read ahead is none of what an instruction leaves. -/
theorem Leaves.discardAhead (h : Leaves s y ds) : Leaves s (discardAhead y) ds :=
  ⟨h.regs, h.flags, h.rm, h.wsp, h.depth, h.other, h.prv, h.it, h.pprv, h.tepc, h.tca, h.tval⟩

theorem Leaves.overtake (h : Leaves s y ds) (r : Reg) (c : Nat) : Leaves s (overtake y r c) ds :=
  ⟨h.regs, h.flags, h.rm, h.wsp, h.depth, h.other, h.prv, h.it, h.pprv, h.tepc, h.tca, h.tval⟩

theorem Leaves.setX (h : Leaves s y []) (d : Reg) (w : Word) : Leaves s (setX y d.toNat w) [d] where
  regs r other := (getX_setX_ne _ _ (toNat_ne fun e => other (by simp [e]))).trans (h.regs r (by simp))
  flags := (setX_flags ..).trans h.flags
  rm := (setX_rm ..).trans h.rm
  wsp := (setX_wsp ..).trans h.wsp
  depth := (setX_depth ..).trans h.depth
  other := (otherWin_setX ..).trans h.other
  prv := (setX_prv ..).trans h.prv
  it := (setX_it ..).trans h.it
  pprv := (setX_pprv ..).trans h.pprv
  tepc := (setX_tepc ..).trans h.tepc
  tca := (setX_tca ..).trans h.tca
  tval := (setX_tval ..).trans h.tval

/-- A thread that goes on with nothing but `ds` written. -/
theorem Leaves.past_goes (h : Leaves s y ds) (n : Nat) : Past s (goes s t y (nextAt s 4) n) ds := by
  have kept : Leaves s (thr (goes s t y (nextAt s 4) n) s.cur) ds := by
    rw [thr_goes]
    exact ⟨h.regs, h.flags, h.rm, h.wsp, h.depth, h.other, h.prv, h.it, h.pprv, h.tepc, h.tca, h.tval⟩
  exact ⟨by rw [thr_goes], kept.restKept rfl⟩

/-- The instruction has gone on with a result, all memory is the same, and `p` holds of the state. -/
def Yields (s : State) (i : Instr) (d : Reg) (v : Word) (p : State → Prop) : Prop :=
  ∃ u, exec i s = .next u ∧ SameMemory s u ∧ Past s u [d] ∧ (d ≠ 0 → getX (thr u s.cur) d.toNat = v) ∧ p u

/-- The instruction has gone on with no result, all memory is the same, and `p` holds of the state. -/
def Passes (s : State) (i : Instr) (p : State → Prop) : Prop := ∃ u, exec i s = .next u ∧ SameMemory s u ∧ Past s u ∧ p u

section

variable {i : Instr} {f : Form} {body : List Word → State → Eff × State} {acc : Nat → Bool} {rs : List Reg} {p : State → Prop}

/-- An instruction of 4 bytes whose effect ends in one result of class A goes on with it, and leaves all but its thread as its effect has. -/
theorem issue_yields (he : exec i s = issue f body s) (h : Ready s f.prv rs acc) (single : Single s)
    (hb : body (operands s f) (base s) = (.done, result t s.cur d w 1)) (left : Leaves s (thr t s.cur) [])
    (unbound : boundAt (thr t s.cur) d = none) (hc : t.cur = s.cur) (hy : cycOf t (cmptOf s.cur) = cyc s) (mem : t.mem = s.mem)
    (after : ∀ x, p (setThr t s.cur x)) (hlen : f.len = 4 := by rfl)
    (hacc : acc = f.accepts.getD fun _ => false := by rfl)
    (hr : ∀ r ∈ f.reads, r ∈ rs := by simp) (hw : ∀ r ∈ f.writes, r ∈ rs := by simp)
    (hm : ∀ r ∈ f.more (f.reads.map (reg s)), r ∈ rs := by simp) : Yields s i d w p := by
  have written := result_now (t := t) (tid := s.cur) (v := w) unbound
  obtain ⟨past, value⟩ := gives_goes (t := t) (n := f.wait) ((left.overtake d (cycOf t (cmptOf s.cur))).setX d w)
    fun named => getX_setX _ _ (toNat_ne named)
  have step : exec i s = .next (goes s t (setX (overtake (thr t s.cur) d (cycOf t (cmptOf s.cur))) d.toNat w) (nextAt s 4) f.wait) := by
    refine (he.trans (issue_done h (.inr single) hb ?_ ?_ hacc hr hw hm)).trans ?_
    · rw [written]
      exact hc
    · rw [written]
      exact hy
    · rw [written, thr_setThr, hlen, goes_setThr]
  exact ⟨_, step, fun _ => congrArg (byteAt · _) mem, past, value, after _⟩

/-- An instruction of 4 bytes with no result goes on past itself, in the crews in which its effect has left it. -/
theorem issue_passes (he : exec i s = issue f body s) (h : Ready s f.prv rs acc) (single : Single s)
    (hb : body (operands s f) (base s) = (.done, t)) (left : Leaves s (thr t s.cur) []) (hc : t.cur = s.cur)
    (hy : cycOf t (cmptOf s.cur) = cyc s) (mem : t.mem = s.mem)
    (after : ∀ x, x.crew = (thr t s.cur).crew → p (setThr t s.cur x)) (hlen : f.len = 4 := by rfl)
    (hacc : acc = f.accepts.getD fun _ => false := by rfl)
    (hr : ∀ r ∈ f.reads, r ∈ rs := by simp) (hw : ∀ r ∈ f.writes, r ∈ rs := by simp)
    (hm : ∀ r ∈ f.more (f.reads.map (reg s)), r ∈ rs := by simp) : Passes s i p := by
  have done := he.trans (issue_done h (.inr single) hb hc hy hacc hr hw hm)
  rw [hlen] at done
  exact ⟨_, done, fun _ => congrArg (byteAt · _) mem, left.past_goes f.wait, after _ rfl⟩

/-- An instruction that says itself where its thread is. -/
theorem issue_moved (he : exec i s = issue f body s) (h : Ready s f.prv rs acc) (single : Single s)
    (hb : body (operands s f) (base s) = (.moved, t)) (hacc : acc = f.accepts.getD fun _ => false := by rfl)
    (hr : ∀ r ∈ f.reads, r ∈ rs := by simp) (hw : ∀ r ∈ f.writes, r ∈ rs := by simp)
    (hm : ∀ r ∈ f.more (f.reads.map (reg s)), r ∈ rs := by simp) : exec i s = .next t :=
  he.trans (issue_effect h (.inr single) hb (.inr single) hacc hr hw hm)

end

end Sys2Proof.Machine
end

section
/-! SUPPORT. Semaphores, channels and the role table (R151, R390-R392). -/

namespace Sys2Proof.Machine

variable {s : State} {d a b : Reg} {k : BitVec 5}

/-! ## Semaphores (R390) -/

theorem semPost_yields (ready : Ready s .u [a, b, d]) (single : Single s) (small : (reg s a).toNat < 16) (few : (reg s b).toNat < 2 ^ 16)
    (free : releaseHeld (base s) s.cur = false) :
    Yields s (.semPost d a b) d (natWord (lookD (tile s (tileOf s.cur)).sems (reg s a).toNat 0)) fun u =>
      lookD (tile u (tileOf s.cur)).sems (reg s a).toNat 0
        = min (lookD (tile s (tileOf s.cur)).sems (reg s a).toNat 0 + (reg s b).toNat) 65535 := by
  have ok : (decide (16 ≤ (reg s a).toNat) || decide (2 ^ 16 ≤ (reg s b).toNat)) = false := by
    simp only [Bool.or_eq_false_iff, decide_eq_false_iff_not]
    omega
  refine issue_yields rfl ready single ((if_neg (by simpa [operands, arg] using ok)).trans (if_neg (by simp [free])))
    (by simpa using leaves_issuer) (by simpa using ready.unbound d (by simp)) rfl rfl rfl fun x => ?_
  simp [operands, arg]

theorem semWait_yields (ready : Ready s .u [a, b, d]) (single : Single s) (small : (reg s a).toNat < 16)
    (first : waitersBefore (base s) s.cur (reg s a).toNat (parkedSince (issuer s)) < lookD (tile s (tileOf s.cur)).sems (reg s a).toNat 0) :
    Yields s (.semWait d a) d (natWord (lookD (tile s (tileOf s.cur)).sems (reg s a).toNat 0 - 1)) fun u =>
      lookD (tile u (tileOf s.cur)).sems (reg s a).toNat 0 = lookD (tile s (tileOf s.cur)).sems (reg s a).toNat 0 - 1 := by
  refine issue_yields rfl ready single
    ((if_neg (by simpa [operands, arg] using small)).trans (if_neg (by simpa [operands, arg] using first)))
    (by simpa [acquireNow] using leaves_issuer.discardAhead) (by simpa [acquireNow] using ready.unbound d (by simp)) rfl rfl rfl fun x => ?_
  simp [operands, arg, acquireNow]

/-! ## Channels (R391) -/

theorem chanPut_passes (ready : Ready s .u [a, b, d]) (single : Single s) (room : (lookD (core s (coreOf s.cur)).chq k.toNat []).length < 16)
    (free : releaseHeld (base s) s.cur = false) :
    Passes s (.chanPut a k) fun u => lookD (core u (coreOf s.cur)).chq k.toNat []
      = lookD (core s (coreOf s.cur)).chq k.toNat [] ++ [⟨reg s a, (issuer s).ctx, cyc s + 1⟩] := by
  refine issue_passes rfl ready single ((if_neg (by simpa using room)).trans (if_neg (by simp [free])))
    (by simpa using leaves_issuer) rfl rfl rfl fun x _ => ?_
  simp [operands, arg, putElt, cyc]

/-- The issuing thread once it has popped channel `k`: channel 0 has given it the element that it was started for. -/
def popped (x : Thread) (k : BitVec 5) : Thread := if k = 0 then { x with fresh0 := false } else x

theorem leaves_popped : Leaves s (popped (issuer s) k) [] := by
  unfold popped
  split
  · exact ⟨fun _ _ => rfl, rfl, rfl, rfl, rfl, rfl, rfl, rfl, rfl, rfl, rfl, rfl⟩
  · exact leaves_issuer

theorem boundAt_popped (x : Thread) (r : Reg) : boundAt (popped x k) r = boundAt x r := by
  unfold popped
  split <;> rfl

/-- A pop ends as an acquire. -/
theorem acquireNow_popped (u : State) (n : Nat) :
    acquireNow (if k = 0 then setThr u n { thr u n with fresh0 := false } else u) n = setThr u n (discardAhead (popped (thr u n) k)) := by
  unfold popped acquireNow
  split <;> simp

theorem chanGet_yields {v : ChanElt} {r : List ChanElt} (ready : Ready s .u [a, b, d]) (single : Single s)
    (queue : lookD (core s (coreOf s.cur)).chq k.toNat [] = v :: r) (stands : v.since ≤ cyc s) :
    Yields s (.chanGet d k) d v.val fun u => lookD (core u (coreOf s.cur)).chq k.toNat [] = r := by
  have oldest : oldestElt (core s (coreOf s.cur)) k.toNat (cycOf s (cmptOf s.cur)) = some (v, r) := by
    simp only [oldestElt, queue]
    exact if_pos stands
  refine issue_yields (t := setThr (setCore s (coreOf s.cur) { core s (coreOf s.cur) with
      chq := put (core s (coreOf s.cur)).chq k.toNat r
      dryFrom := if r.isEmpty && k = 0 then cyc s else (core s (coreOf s.cur)).dryFrom }) s.cur (discardAhead (popped (issuer s) k)))
    rfl ready single ?_ (by simpa using leaves_popped.discardAhead)
    (by simpa [boundAt_popped] using ready.unbound d (by simp)) rfl rfl rfl fun x => by simp
  simp only [base_cur, core_base, cycOf_base, oldest, acquireNow_popped]
  simp only [setCore_base, thr_setThr, setThr_setThr]
  rfl

/-! ## The role table (R392) -/

theorem recast_yields (ready : Ready s .u [a, b, d]) (single : Single s) (system : allows .s (issuer s).prv = true)
    (small : (reg s a).toNat < 8) (ok : roleOk (reg s b).toNat = true) :
    Yields s (.recast d a b) d (lookD (tile s (tileOf s.cur)).roles (reg s a).toNat 0) fun u =>
      lookD (tile u (tileOf s.cur)).roles (reg s a).toNat 0 = reg s b := by
  have at_s : Ready s .s [a, b, d] := ⟨ready.power, system, ready.prefixed, ready.written, ready.unbound⟩
  refine issue_yields rfl at_s single (if_neg (by simp [operands, arg, ok, small]))
    (by simpa using leaves_issuer) (by simpa using ready.unbound d (by simp)) rfl rfl rfl fun x => ?_
  simp [operands, arg]

/-- Settles O36: each instruction's effect on its tile or core is one row of a table (`semPost_yields`, `semWait_yields`, `chanPut_passes`,
`chanGet_yields`, `recast_yields`). -/
theorem stageUnits : Obligations.StageUnits := by
  unfold Obligations.StageUnits
  intro s d a b k ready single
  exact ⟨semPost_yields ready single, semWait_yields ready single, chanPut_passes ready single,
    fun v r => chanGet_yields ready single, recast_yields ready single⟩

end Sys2Proof.Machine
end

section
/-! SUPPORT. Crews (R154, R387). -/

namespace Sys2Proof.Machine

variable {s : State} {a : Reg}

/-! ## Membership entries -/

theorem mem_addEntry {es : List (Option Nat)} (c : Nat) (room : es.all Option.isSome = false) : some c ∈ addEntry es c := by
  induction es with
  | nil => cases room
  | cons e es ih =>
    cases e with
    | none => simp [addEntry]
    | some d => simpa [addEntry] using .inr (ih (by simpa using room))

theorem not_mem_dropEntry (es : List (Option Nat)) (c : Nat) : some c ∉ dropEntry es c := by
  simp only [dropEntry, List.mem_map, not_exists, not_and]
  intro e _
  split
  · exact nofun
  · next other => simpa using other

theorem isMember_iff {x : Ctx} {c tid : Nat} : isMember x c tid = true ↔ ∃ k, look x.crews c = some k ∧ tid ∈ k.members := by
  unfold isMember
  cases look x.crews c <;> simp

/-- Leaving a crew takes the thread alone out of its members, and touches no barrier. -/
theorem dropMember_of_some {x : Ctx} {c : Nat} {k : Crew} (found : look x.crews c = some k) (tid : Nat) :
    look (dropMember x c tid).crews c = some ⟨k.members.filter fun m => m != tid⟩ ∧ (dropMember x c tid).bars = x.bars := by
  simp [dropMember, found]

/-! ## Crew instructions (R387) -/

section

variable {i : Instr} {f : Ctx → Thread → Nat → Nat → Except Cause (Ctx × Thread)}

theorem crewOp_faults {k : Cause} (he : exec i s = crewOp a f s) (ready : Ready s .u [a]) (single : Single s)
    (small : (reg s a).toNat < 2 ^ 15) (refused : f (ctx s (issuer s).ctx) (issuer s) (reg s a).toNat s.cur = .error k) : Faults s i k := by
  refine he.trans (issue_fault ready (.inr single) ((if_neg (by simpa [operands, arg] using small)).trans ?_))
  simp only [ownCtx, base_cur, thr_base, ctx_base, operands, arg, List.map_cons, List.map_nil, List.append_nil, List.getD_cons_zero, refused]

theorem crewOp_passes {x : Ctx} {es : List (Option Nat)} {p : Ctx → List (Option Nat) → Prop} (he : exec i s = crewOp a f s)
    (ready : Ready s .u [a]) (single : Single s) (small : (reg s a).toNat < 2 ^ 15)
    (taken : f (ctx s (issuer s).ctx) (issuer s) (reg s a).toNat s.cur = .ok (x, { issuer s with crew := es })) (after : p x es) :
    Passes s i fun u => p (ctx u (issuer s).ctx) (thr u s.cur).crew := by
  refine issue_passes (t := setThr (setCtx s (issuer s).ctx x) s.cur { issuer s with crew := es }) he ready single
    ((if_neg (by simpa [operands, arg] using small)).trans ?_) ?_ rfl rfl rfl fun y crew => ?_
  · simp only [ownCtx, base_cur, thr_base, ctx_base, operands, arg, List.map_cons, List.map_nil, List.append_nil, List.getD_cons_zero, taken,
      setCtx_base, setThr_setThr]
  · rw [thr_setThr]
    exact ⟨fun _ _ => rfl, rfl, rfl, rfl, rfl, rfl, rfl, rfl, rfl, rfl, rfl, rfl⟩
  · rw [thr_setThr] at crew
    simpa [crew] using after

end

theorem exec_crewNew : exec (.crewNew a) s = execCrewNew a s := rfl
theorem exec_crewJoin : exec (.crewJoin a) s = execCrewJoin a s := rfl
theorem exec_crewLeave : exec (.crewLeave a) s = execCrewLeave a s := rfl
theorem exec_crewDel : exec (.crewDel a) s = execCrewDel a s := rfl

section

variable (ready : Ready s .u [a]) (single : Single s) (small : (reg s a).toNat < 2 ^ 15)
include ready single small

/-- Where no crew has the number. -/
theorem crew_unused (unused : look (ctx s (issuer s).ctx).crews (reg s a).toNat = none) :
    Faults s (.crewJoin a) .crewMembership ∧ Faults s (.crewLeave a) .crewMembership ∧ Faults s (.crewDel a) .crewMembership
    ∧ (crewsFull (issuer s) = true → Faults s (.crewNew a) .crewLimit)
    ∧ (crewsFull (issuer s) = false → Passes s (.crewNew a) fun u =>
      look (ctx u (issuer s).ctx).crews (reg s a).toNat = some ⟨[s.cur]⟩ ∧ some (reg s a).toNat ∈ (thr u s.cur).crew) := by
  refine ⟨crewOp_faults exec_crewJoin ready single small ?_, crewOp_faults exec_crewLeave ready single small ?_,
    crewOp_faults exec_crewDel ready single small ?_, fun full => crewOp_faults exec_crewNew ready single small ?_,
    fun room => crewOp_passes (p := fun y es => look y.crews (reg s a).toNat = some ⟨[s.cur]⟩ ∧ some (reg s a).toNat ∈ es)
      exec_crewNew ready single small ((if_neg (by simp [unused])).trans (if_neg (by simp [room]))) ⟨look_put .., mem_addEntry _ room⟩⟩
  · simp [unused]
  · simp [isMember, unused]
  · simp [unused]
  · simp [unused, full]

variable {k : Crew} (found : look (ctx s (issuer s).ctx).crews (reg s a).toNat = some k)
include found

theorem crewNew_busy : Faults s (.crewNew a) .crewBusy := crewOp_faults exec_crewNew ready single small (if_pos (by simp [found]))

theorem crewJoin_member (member : s.cur ∈ k.members) :
    Passes s (.crewJoin a) fun u => ctx u (issuer s).ctx = ctx s (issuer s).ctx ∧ (thr u s.cur).crew = (issuer s).crew :=
  crewOp_passes (p := fun y es => y = ctx s (issuer s).ctx ∧ es = (issuer s).crew)
    exec_crewJoin ready single small (by simp [found, member]) ⟨rfl, rfl⟩

theorem crewJoin_full (out : s.cur ∉ k.members) (full : crewsFull (issuer s) = true) : Faults s (.crewJoin a) .crewLimit :=
  crewOp_faults exec_crewJoin ready single small (by simp [found, out, full])

theorem crewJoin_enters (out : s.cur ∉ k.members) (room : crewsFull (issuer s) = false) : Passes s (.crewJoin a) fun u =>
    look (ctx u (issuer s).ctx).crews (reg s a).toNat = some ⟨k.members ++ [s.cur]⟩ ∧ some (reg s a).toNat ∈ (thr u s.cur).crew :=
  crewOp_passes (p := fun y es => look y.crews (reg s a).toNat = some ⟨k.members ++ [s.cur]⟩ ∧ some (reg s a).toNat ∈ es)
    (x := { ctx s (issuer s).ctx with crews := put (ctx s (issuer s).ctx).crews (reg s a).toNat ⟨k.members ++ [s.cur]⟩ })
    (es := addEntry (issuer s).crew (reg s a).toNat) exec_crewJoin ready single small (by simp [found, out, room])
    ⟨look_put .., mem_addEntry _ room⟩

theorem crew_outsider (out : s.cur ∉ k.members) : Faults s (.crewLeave a) .crewMembership ∧ Faults s (.crewDel a) .crewMembership :=
  ⟨crewOp_faults exec_crewLeave ready single small (by simp [isMember, found, out]),
    crewOp_faults exec_crewDel ready single small (by simp [found, out])⟩

theorem crewLeave_leaves (member : s.cur ∈ k.members) : Passes s (.crewLeave a) fun u =>
    look (ctx u (issuer s).ctx).crews (reg s a).toNat = some ⟨k.members.filter fun m => m != s.cur⟩
      ∧ some (reg s a).toNat ∉ (thr u s.cur).crew ∧ (ctx u (issuer s).ctx).bars = (ctx s (issuer s).ctx).bars := by
  obtain ⟨rest, bars⟩ := dropMember_of_some found s.cur
  exact crewOp_passes (p := fun y es => look y.crews (reg s a).toNat = some ⟨k.members.filter fun m => m != s.cur⟩
      ∧ some (reg s a).toNat ∉ es ∧ y.bars = (ctx s (issuer s).ctx).bars)
    exec_crewLeave ready single small (if_neg (by simp [isMember, found, member])) ⟨rest, not_mem_dropEntry _ _, bars⟩

theorem crewDel_busy (member : s.cur ∈ k.members) (others : ∃ m ∈ k.members, m ≠ s.cur) : Faults s (.crewDel a) .crewBusy :=
  crewOp_faults exec_crewDel ready single small (by simp [found, member, others])

theorem crewDel_deletes (member : s.cur ∈ k.members) (alone : ∀ m ∈ k.members, m = s.cur) (ok : rising (ctx s (issuer s).ctx).crews = true) :
    Passes s (.crewDel a) fun u => look (ctx u (issuer s).ctx).crews (reg s a).toNat = none ∧ some (reg s a).toNat ∉ (thr u s.cur).crew
      ∧ ∀ p ∈ (ctx u (issuer s).ctx).bars, p.2.crew ≠ (reg s a).toNat := by
  refine crewOp_passes (p := fun y es => look y.crews (reg s a).toNat = none ∧ some (reg s a).toNat ∉ es
      ∧ ∀ p ∈ y.bars, p.2.crew ≠ (reg s a).toNat)
    (x := { ctx s (issuer s).ctx with
      crews := del (ctx s (issuer s).ctx).crews (reg s a).toNat
      bars := (ctx s (issuer s).ctx).bars.filter fun p => p.2.crew != (reg s a).toNat })
    (es := dropEntry (issuer s).crew (reg s a).toNat) exec_crewDel ready single small ?_
    ⟨look_del ok _, not_mem_dropEntry _ _, fun q listed => by simpa using (List.mem_filter.mp listed).2⟩
  have none_else : (k.members.any fun m => m != s.cur) = false := by simpa using alone
  simp [found, member, none_else]

end

end Sys2Proof.Machine
end

section
/-! SUPPORT. Barriers: the arrivals of a phase and the instructions (R155-R158, R388, R389). -/

namespace Sys2Proof.Machine

variable {s : State} {a b d : Reg}

/-! ## Arrivals and phases (R156, R157) -/

/-- A phase that lacks an arrival, or that a copy is pending for, goes on. -/
theorem phases_of_open {k : Barrier} (waits : k.a0 = k.e → 0 < k.c0) : phases k = k := by
  have step : phaseStep k = k := if_neg fun h => by
    simp only [Bool.and_eq_true, bne_iff_ne, beq_iff_eq] at h
    obtain ⟨⟨-, all⟩, copies⟩ := h
    have := waits all
    omega
  rw [phases, step, step]

/-- A phase with all its arrivals and no copy pending makes way for the next one, which an arrival is missing from. -/
theorem phases_of_full {k : Barrier} (all : k.a0 = k.e) (none : k.c0 = 0) (used : k.e ≠ 0) (next : k.a1 < k.e - k.d0) :
    phases k = { k with e := k.e - k.d0, p := k.p + 1, a0 := k.a1, d0 := k.d1, c0 := k.c1, a1 := 0, d1 := 0, c1 := 0 } := by
  have step : phaseStep k = { k with e := k.e - k.d0, p := k.p + 1, a0 := k.a1, d0 := k.d1, c0 := k.c1, a1 := 0, d1 := 0, c1 := 0 } :=
    if_pos (by simp [all, none, used])
  rw [phases, step, phaseStep, if_neg]
  simp only [Bool.and_eq_true, bne_iff_ne, beq_iff_eq]
  omega

section

variable {k : Barrier} {drop : Bool}

/-- An arrival while the phase has room. -/
theorem arrive_current (room : k.a0 < k.e) :
    arrive k drop = some (phases { k with a0 := k.a0 + 1, d0 := k.d0 + if drop then 1 else 0 }, k.p) := by
  simp [arrive, nextPhase, room]

/-- An arrival in the next phase. -/
theorem arrive_next (full : k.e ≤ k.a0) (room : k.a1 < k.e - k.d0) :
    arrive k drop = some (phases { k with a1 := k.a1 + 1, d1 := k.d1 + if drop then 1 else 0 }, k.p + 1) := by
  simp [arrive, nextPhase, Nat.not_lt.mpr full, room]

theorem arrive_over (full : k.e ≤ k.a0) (next : k.e - k.d0 ≤ k.a1) : arrive k drop = none := by
  simp [arrive, nextPhase, Nat.not_lt.mpr full, Nat.not_lt.mpr next]

theorem arrive_eq_none : arrive k drop = none ↔ nextPhase k = none := by
  unfold arrive
  cases nextPhase k with
  | none => simp
  | some n => cases n <;> simp

end

/-! ## Barrier instructions (R388, R389) -/

/-- The barrier and the crew that a handle names. -/
theorem handle_fields {h : Nat} (small : h < 2 ^ 31) : bits h 15 0 = h % 2 ^ 16 ∧ bits h 30 16 = h / 2 ^ 16 := by
  simp only [bits]
  omega

theorem barrierAt_of_member {x : Ctx} {tid h : Nat} {k : Barrier} (small : h < 2 ^ 31) (member : isMember x (h / 2 ^ 16) tid = true)
    (found : look x.bars (h % 2 ^ 16) = some k) (crew : k.crew = h / 2 ^ 16) : barrierAt x tid h = some k := by
  obtain ⟨low, high⟩ := handle_fields small
  simp only [barrierAt, low, high, found]
  exact if_pos (by simp only [crew, member, beq_self_eq_true, Bool.and_self])

theorem barInit_passes {e sc : Nat} (ready : Ready s .u [a, b, d]) (single : Single s) (small : (reg s a).toNat < 2 ^ 31)
    (member : isMember (ctx s (issuer s).ctx) ((reg s a).toNat / 2 ^ 16) s.cur = true)
    (new : look (ctx s (issuer s).ctx).bars ((reg s a).toNat % 2 ^ 16) = none) (count : 1 ≤ e) (fits : e < 2 ^ 16) (scope : sc < 7)
    (word : (reg s b).toNat = sc * 2 ^ 16 + e) :
    Passes s (.barInit a b) fun u => look (ctx u (issuer s).ctx).bars ((reg s a).toNat % 2 ^ 16)
      = some { crew := (reg s a).toNat / 2 ^ 16, scope := sc, e := e } := by
  obtain ⟨low, high⟩ := handle_fields small
  have countField : bits (reg s b).toNat 15 0 = e := by
    rw [word]
    simp only [bits]
    omega
  have scopeField : bits (reg s b).toNat 18 16 = sc := by
    rw [word]
    simp only [bits]
    omega
  have wellFormed : (decide (2 ^ 31 ≤ (reg s a).toNat) || decide (2 ^ 19 ≤ (reg s b).toNat) || bits (reg s b).toNat 18 16 == 7
      || bits (reg s b).toNat 15 0 == 0) = false := by
    simp only [countField, scopeField, Bool.or_eq_false_iff, decide_eq_false_iff_not, beq_eq_false_iff_ne]
    omega
  refine issue_passes (t := setCtx (base s) (issuer s).ctx (setBar (ctx s (issuer s).ctx) (reg s a).toNat
      { crew := bits (reg s a).toNat 30 16, scope := bits (reg s b).toNat 18 16, e := bits (reg s b).toNat 15 0 })) rfl ready single ?_
    (by simpa using leaves_issuer) rfl rfl rfl fun x _ => ?_
  · simp only [operands, arg, List.map_cons, List.map_nil, List.append_nil, List.getD_cons_zero, List.getD_cons_succ, base_cur, thr_base, ctx_base]
    refine (if_neg (by simp only [wellFormed, Bool.false_eq_true, not_false_eq_true])).trans ((if_neg ?_).trans (if_neg ?_))
    · rw [high, member]
      decide
    · rw [low, new]
      decide
  · rw [ctx_setThr, ctx_setCtx, setBar, low, high, scopeField, countField]
    exact look_put ..

section

variable {i : Instr} {drop : Bool} {k : Barrier} (ready : Ready s .u [a, b, d]) (small : (reg s a).toNat < 2 ^ 31)
  (named : barrierAt (ctx s (issuer s).ctx) s.cur (reg s a).toNat = some k)
include ready small named

theorem arrival_yields {k' : Barrier} {q : BitVec 32} (he : exec i s = arrival drop d a s) (single : Single s)
    (free : releaseHeld (base s) s.cur = false) (arrives : arrive k drop = some (k', q)) :
    Yields s i d (q.setWidth 64) fun u => look (ctx u (issuer s).ctx).bars ((reg s a).toNat % 2 ^ 16) = some k' := by
  obtain ⟨low, -⟩ := handle_fields small
  refine issue_yields (t := setCtx (base s) (issuer s).ctx (setBar (ctx s (issuer s).ctx) (reg s a).toNat k')) he ready single ?_
    (by simpa using leaves_issuer) (by simpa using ready.unbound d (by simp)) rfl rfl rfl fun x => ?_
  · simp only [operands, arg, List.map_cons, List.map_nil, List.append_nil, List.getD_cons_zero, base_cur, thr_base, ctx_base, named,
      Nat.not_le.mpr small, if_false, free, Bool.false_eq_true, arrives]
  · rw [ctx_setThr, ctx_setCtx, setBar, low]
    exact look_put ..

theorem arrival_late (he : exec i s = arrival drop d a s) (single : Single s) (free : releaseHeld (base s) s.cur = false)
    (late : arrive k drop = none) : Faults s i .overArrival := by
  refine he.trans (issue_fault ready (.inr single) ?_)
  simp only [operands, arg, List.map_cons, List.map_nil, List.append_nil, List.getD_cons_zero, base_cur, thr_base, ctx_base, named,
    Nat.not_le.mpr small, if_false, free, Bool.false_eq_true, late]

theorem barWait_done (phase : (reg s b).toNat < 2 ^ 32) (done : phaseDone k ((reg s b).setWidth 32) = true) :
    exec (.barWait a b) s = .next (goes s s (discardAhead (issuer s)) (nextAt s 4)) := by
  refine (issue_done (f := { reads := [a, b] }) (t := acquireNow (base s) s.cur) ready (.inl ⟨rfl, rfl⟩) ?_ rfl rfl).trans ?_
  · simp only [operands, arg, List.map_cons, List.map_nil, List.append_nil, List.getD_cons_zero, List.getD_cons_succ, base_cur, thr_base, ownCtx,
      ctx_base, named, Nat.not_le.mpr small, Nat.not_le.mpr phase, if_false, done, if_true]
  · simp [acquireNow]

theorem barWait_faults (phase : (reg s b).toNat < 2 ^ 32) (pending : phaseDone k ((reg s b).setWidth 32) = false)
    (other : (reg s b).setWidth 32 ≠ k.p) (next : (reg s b).setWidth 32 ≠ k.p + 1) : Faults s (.barWait a b) .barrierPhase := by
  refine issue_fault ready (.inl ⟨rfl, rfl⟩) ?_
  simp only [operands, arg, List.map_cons, List.map_nil, List.append_nil, List.getD_cons_zero, List.getD_cons_succ, base_cur, thr_base, ownCtx,
    ctx_base, named, Nat.not_le.mpr small, Nat.not_le.mpr phase, if_false, pending, Bool.false_eq_true, Bool.or_eq_true, beq_iff_eq, other, next,
    or_self]

end

/-- Settles O35: a crew instruction is one function on the crew table and the thread's entries (`crewOp_passes`, `crewOp_faults`), and an
arrival is an update of one barrier, whose phase then makes way for the next one or goes on (`phases_of_full`, `phases_of_open`). -/
theorem crewsAndBarriers : Obligations.CrewsAndBarriers := by
  unfold Obligations.CrewsAndBarriers
  refine ⟨fun s a ready single small => ⟨crew_unused ready single small, fun k found => ?_⟩, fun s d a b ready single small member => ?_,
    fun k drop => ?_⟩
  · exact ⟨crewNew_busy ready single small found, crewJoin_member ready single small found, crewJoin_full ready single small found,
      crewJoin_enters ready single small found, crew_outsider ready single small found, crewLeave_leaves ready single small found,
      crewDel_busy ready single small found, crewDel_deletes ready single small found⟩
  · refine ⟨fun new e sc count fits scope word => ?_, fun k found crew => ?_⟩
    · obtain ⟨u, step, same, past, is⟩ := barInit_passes ready single small member new count fits scope word
      exact ⟨u, step, past, same, is⟩
    · have named := barrierAt_of_member small member found crew
      have tooMany (late : arrive k false = none) (free : releaseHeld (base s) s.cur = false) :
          Faults s (.barArrive d a) .overArrival ∧ Faults s (.barDrop d a) .overArrival :=
        ⟨arrival_late (drop := false) ready small named rfl single free late,
          arrival_late (drop := true) ready small named rfl single free (arrive_eq_none.mpr (arrive_eq_none.mp late))⟩
      refine ⟨fun free => ⟨fun k' q arrives => ?_, fun k' q arrives => ?_, fun late => tooMany late free⟩,
        fun phase => ⟨barWait_done ready small named phase, barWait_faults ready small named phase⟩⟩
      · obtain ⟨u, step, same, past, value, is⟩ := arrival_yields ready small named (i := .barArrive d a) (drop := false) rfl single free arrives
        exact ⟨u, step, same, past, is, value⟩
      · obtain ⟨u, step, same, past, value, is⟩ := arrival_yields ready small named (i := .barDrop d a) (drop := true) rfl single free arrives
        exact ⟨u, step, same, past, is, value⟩
  · refine ⟨fun room => ?_, fun last copies => ?_, fun last none next => ?_, fun full room waits => ?_, fun full => arrive_over full⟩
    · rw [arrive_current (by omega), phases_of_open (by dsimp only; omega)]
    · rw [arrive_current (by omega), phases_of_open (by dsimp only; omega)]
    · refine ⟨_, arrive_current (by omega), ?_⟩
      rw [phases_of_full (k := { k with a0 := k.a0 + 1, d0 := k.d0 + if drop then 1 else 0 }) last none (by dsimp only; omega) next]
      exact ⟨rfl, rfl, rfl, rfl, rfl, rfl, rfl, rfl⟩
    · rw [arrive_next full room, phases_of_open (by dsimp only; omega)]

end Sys2Proof.Machine
end

section
/-! SUPPORT. Moving, spawning, yielding and ending (R148, R383-R386). -/

namespace Sys2Proof.Machine

variable {s : State} {d a : Reg} {tid : Nat}

/-! ## The end of a thread (R154, R386) -/

theorem isMember_dropMember {x : Ctx} {c n : Nat} (h : isMember (dropMember x c tid) n tid = true) : n ≠ c ∧ isMember x n tid = true := by
  obtain ⟨k, found, member⟩ := isMember_iff.mp h
  cases here : look x.crews c with
  | none =>
    have same : dropMember x c tid = x := by simp only [dropMember, here]
    rw [same] at h
    refine ⟨?_, h⟩
    rintro rfl
    rw [same, here] at found
    cases found
  | some q =>
    by_cases named : n = c
    · subst named
      rw [(dropMember_of_some here tid).1] at found
      cases found
      simp at member
    · refine ⟨named, isMember_iff.mpr ⟨k, ?_, member⟩⟩
      simpa only [dropMember, here, look_put_ne _ _ (Ne.symm named)] using found

/-- A thread leaves the crew of an entry. -/
def leaveEntry (n tid : Nat) (s : State) (e : Option Nat) : State :=
  match e with
  | some c => setCtx s n (dropMember (ctx s n) c tid)
  | none => s

theorem isMember_leaveEntries {n c : Nat} (es : List (Option Nat)) {s : State}
    (h : isMember (ctx (es.foldl (leaveEntry n tid) s) n) c tid = true) : some c ∉ es ∧ isMember (ctx s n) c tid = true := by
  induction es generalizing s with
  | nil => exact ⟨List.not_mem_nil, h⟩
  | cons e es ih =>
    obtain ⟨later, member⟩ := ih h
    cases e with
    | none => exact ⟨by simpa using later, member⟩
    | some q =>
      rw [leaveEntry, ctx_setCtx] at member
      obtain ⟨other, member⟩ := isMember_dropMember member
      exact ⟨by simpa [other] using later, member⟩

theorem leaveCrews_eq (s : State) (tid : Nat) : leaveCrews s tid
    = setThr ((thr s tid).crew.foldl (leaveEntry (thr s tid).ctx tid) s) tid { thr s tid with crew := [none, none, none, none] } := by
  have threads : ((thr s tid).crew.foldl (leaveEntry (thr s tid).ctx tid) s).threads = s.threads :=
    foldl_field State.threads _ (fun u e => by cases e <;> rfl) _ s
  have same : thr ((thr s tid).crew.foldl (leaveEntry (thr s tid).ctx tid) s) tid = thr s tid := by rw [thr, threads]; rfl
  conv_rhs => rw [← same]
  rw [same]
  rfl

/-- What is left to say when a context has no thread in a slot touches no crew, core or thread (R231, R429). -/
theorem checkKill_keeps (s : State) (n : Nat) : (checkKill s n).cores = s.cores ∧ (checkKill s n).threads = s.threads
    ∧ (ctx (checkKill s n) n).crews = (ctx s n).crews := by
  have cleared : (ctx (setCtx s n { ctx s n with killing := none }) n).crews = (ctx s n).crews := by rw [ctx_setCtx]
  unfold checkKill
  split
  · split
    · exact ⟨rfl, rfl, rfl⟩
    · dsimp only
      split
      · exact ⟨rfl, rfl, cleared⟩
      · exact ⟨rfl, rfl, cleared⟩
  · exact ⟨rfl, rfl, rfl⟩

theorem crews_checkPreempt (s : State) (n : Nat) : (ctx (checkPreempt s n) n).crews = (ctx s n).crews := by
  have cleared : (ctx (setCtx s n { ctx s n with preempt := none }) n).crews = (ctx s n).crews := by rw [ctx_setCtx]
  unfold checkPreempt
  split
  · rfl
  · split
    · rfl
    · exact cleared

/-- A slot has been freed, and its thread is in none of its crews. -/
structure Freed (s : State) (tid : Nat) (u : State) : Prop where
  mem : u.mem = s.mem
  cores : u.cores = s.cores
  free : (thr u tid).life = .free
  left : ∀ c, isMember (ctx u (thr s tid).ctx) c tid = true → some c ∉ (thr s tid).crew

theorem freed_freeSlot (s : State) (tid : Nat) : Freed s tid (freeSlot s tid) := by
  generalize crews : (thr s tid).crew.foldl (leaveEntry (thr s tid).ctx tid) s = u
  have cores : u.cores = s.cores := by rw [← crews]; exact foldl_field State.cores _ (fun v e => by cases e <;> rfl) _ s
  have slot : ∃ x : Thread, x.life = .free
      ∧ freeSlot s tid = checkKill (checkPreempt (setThr u tid x) (thr s tid).ctx) (thr s tid).ctx := by
    unfold freeSlot
    rw [leaveCrews_eq, crews]
    dsimp only
    rw [thr_setThr, setThr_setThr]
    exact ⟨_, rfl, rfl⟩
  obtain ⟨x, free, is⟩ := slot
  obtain ⟨cores', threads', -, -⟩ := checkPreempt_keeps (setThr u tid x) (thr s tid).ctx
  obtain ⟨cores'', threads'', crews''⟩ := checkKill_keeps (checkPreempt (setThr u tid x) (thr s tid).ctx) (thr s tid).ctx
  have crews' := crews_checkPreempt (setThr u tid x) (thr s tid).ctx
  refine ⟨mem_freeSlot s tid, ?_, ?_, fun c member => ?_⟩
  · rw [is, cores'', cores']
    exact cores
  · have row : thr (freeSlot s tid) tid = thr (setThr u tid x) tid :=
      congrArg (fun y : Tab Thread => lookD y tid ({} : Thread)) ((congrArg State.threads is).trans (threads''.trans threads'))
    rw [row, thr_setThr, free]
  · rw [is, isMember, crews'', crews', ← isMember, ctx_setThr, ← crews] at member
    exact (isMember_leaveEntries _ member).1

/-- The end of a thread of which nothing is outstanding. -/
theorem endWork_quiet (single : (thr s tid).lt = false) (held : (thr s tid).held = none) (pend : (thr s tid).pend = [])
    (retired : unretired s tid = []) (made : accsOf s tid = []) : endWork s tid = (.moved, freeSlot s tid) := by
  have kept : cancelHeld s tid = s := by simp only [cancelHeld, held]
  simp [endWork, kept, single, quiet, pend, retired, made]

/-! ## The instructions -/

/-- Nothing of the issuing thread is outstanding (R386). -/
structure AtRest (s : State) : Prop where
  held : (issuer s).held = none
  pend : (issuer s).pend = []
  retired : unretired s s.cur = []
  made : accsOf s s.cur = []

theorem unretired_congr {t : State} (cmpts : t.cmpts = s.cmpts) (serial : (thr t tid).serial = (thr s tid).serial) :
    unretired t tid = unretired s tid := by
  unfold unretired
  simp only [cmpt, cmpts, serial]

/-- The issuing thread as it ends: no stream of it is bound. -/
def leaving (s : State) : Thread := { issuer s with qb := 0 }

/-- The issuing thread has ended: its slot is freed. -/
theorem endWork_leaving {t : State} (rest : AtRest s) (single : Single s) (cmpts : t.cmpts = s.cmpts) (accs : t.accs = s.accs) :
    endWork (setThr t s.cur (leaving s)) s.cur = (.moved, freeSlot (setThr t s.cur (leaving s)) s.cur) := by
  have here : thr (setThr t s.cur (leaving s)) s.cur = leaving s := thr_setThr ..
  refine endWork_quiet (by rw [here]; exact single) (by rw [here]; exact rest.held) (by rw [here]; exact rest.pend) ?_ ?_
  · refine (unretired_congr (t := setThr t s.cur (leaving s)) cmpts ?_).trans rest.retired
    rw [here]
    exact settle_serial ..
  · exact (congrArg (List.filter _) accs).trans rest.made

/-- What is left of a thread that has ended: its slot is free, and its crews do not know it. -/
def Ended (s u : State) : Prop :=
  SameMemory s u ∧ (thr u s.cur).life = .free ∧ ∀ n, isMember (ctx u (issuer s).ctx) n s.cur = true → some n ∉ (issuer s).crew

theorem ended_freeSlot {t : State} (mem : t.mem = s.mem) :
    Ended s (freeSlot (setThr t s.cur (leaving s)) s.cur) ∧ (freeSlot (setThr t s.cur (leaving s)) s.cur).cores = t.cores := by
  obtain ⟨mem', cores, free, left⟩ := freed_freeSlot (setThr t s.cur (leaving s)) s.cur
  rw [thr_setThr] at left
  exact ⟨⟨sameMemory_of_mem (mem'.trans mem), free, left⟩, cores⟩

theorem endThread_ends {rs : List Reg} (ready : Ready s .u rs) (single : Single s) (rest : AtRest s) :
    ∃ u, exec .endThread s = .next u ∧ Ended s u := by
  refine ⟨_, issue_moved (f := {}) (rs := []) rfl (ready.mono (by simp)) single ?_, (ended_freeSlot (t := s) rfl).1⟩
  simp only [base_cur, thr_base, setThr_base]
  exact endWork_leaving rest single rfl rfl

/-! ## Moving (R383) -/

/-- The issuing thread on its way to another core. -/
def departing (s : State) (r : Nat) : Thread := { issuer s with pc := nextAt s 4, life := .moving, goal := some r, park := none }

theorem leaves_departing {r : Nat} : Leaves s (departing s r) [] :=
  ⟨fun _ _ => rfl, rfl, rfl, rfl, rfl, rfl, rfl, rfl, rfl, rfl, rfl, rfl⟩

section

variable {r : Nat} (ready : Ready s .u [a, d]) (single : Single s) (small : (reg s a).toNat < 2 ^ 14)
  (named : physCore (base s) s.cur (reg s a).toNat = some r)
include ready single small named

theorem mig_stays (here : r = coreOf s.cur ∨ stays (base s) s.cur = true) : exec (.mig d a) s = .next (writes s 4 d 0) := by
  refine issue_writes rfl ready (.inr single) ?_ (by simp)
  simp only [operands, arg, List.map_cons, List.map_nil, List.append_nil, List.getD_cons_zero, base_cur, Nat.not_le.mpr small, if_false, named]
  exact if_pos (by rcases here with h | h <;> simp [h])

theorem mig_moves (there : r ≠ coreOf s.cur) (free : stays (base s) s.cur = false) (whole : (issuer s).spillFault = none)
    (departs : departReady (base s) s.cur = true) :
    ∃ u, exec (.mig d a) s = .next u ∧ (thr u s.cur).life = .moving ∧ (thr u s.cur).goal = some r
      ∧ Past s u [d] ∧ (d ≠ 0 → getX (thr u s.cur) d.toNat = 1) ∧ SameMemory s u := by
  have mem := (kept_scale (base s) (cmptOf s.cur) 0x06 1).mem
  have step : exec (.mig d a) s
      = .next (setThr (scale (base s) (cmptOf s.cur) 0x06 1) s.cur (setX (departing s r) d.toNat 1)) := by
    refine issue_moved rfl ready single ?_
    simp only [operands, arg, List.map_cons, List.map_nil, List.append_nil, List.getD_cons_zero, base_cur, thr_base, Nat.not_le.mpr small,
      if_false, named, there, free, decide_false, Bool.or_self, Bool.false_eq_true, whole, departs, Bool.not_true, departing, nextPc_base]
  generalize scale (base s) (cmptOf s.cur) 0x06 1 = t at mem step
  refine ⟨_, step, ?_, ?_, ⟨?_, (leaves_departing.setX d 1).restKept (thr_setThr ..)⟩, fun named => ?_, fun _ => congrArg (byteAt · _) mem⟩
  · rw [thr_setThr, setX_life]
    rfl
  · rw [thr_setThr, setX_goal]
    rfl
  · rw [thr_setThr, setX_pc]
    rfl
  · rw [thr_setThr]
    exact getX_setX _ _ (toNat_ne named)

end

/-! ## Task records (R384, R385) -/

theorem taskRecord_asks {ps : List Piece} (aligned : (reg s a).toNat % 64 = 0) (fresh : (issuer s).own = none)
    (passed : ownStore (base s) s.cur (reg s a) 64 .load .tier = .ok ps (base s)) (g : List Word → State → Eff × State) :
    ∃ u, (taskRecord (base s) s.cur (reg s a)).run g = (.park .own, u) ∧ OwnAsked (base s) u s.cur (reg s a) 64 := by
  obtain ⟨u, asks, asked⟩ := ownWords_asks (n := 8) (by simpa using fresh) passed
  refine ⟨u, ?_, asked⟩
  rw [taskRecord, if_neg (by simpa using aligned), asks]
  rfl

theorem taskRecord_had {v : Nat} (had : Had s v) (aligned : (reg s a).toNat % 64 = 0) (small : v % 2 ^ 64 < 2 ^ 16) (even : v % 2 = 0) :
    taskRecord (base s) s.cur (reg s a) = .ok (wordsOfNat v 8) (base s) := by
  obtain ⟨o, own, got⟩ := had
  have first : (arg (wordsOfNat v 8) 0).toNat = v % 2 ^ 64 := by
    have word : arg (wordsOfNat v 8) 0 = BitVec.ofNat 64 (v / 2 ^ (64 * 0)) := rfl
    simp [word]
  rw [taskRecord, if_neg (by simpa using aligned), ownWords_had (by simpa using own) got]
  refine if_neg ?_
  simp only [first, Bool.or_eq_true, decide_eq_true_eq, bne_iff_ne]
  omega

/-- The core's deck with one more record (R148). -/
theorem deck_pushDeck {ws : List Word} : (core (pushDeck (base s) s.cur ws) (coreOf s.cur)).deck
    = (core s (coreOf s.cur)).deck ++ [⟨ws, (issuer s).ctx, (issuer s).launch, cyc s + 1⟩] := by
  simp [pushDeck, cyc]

theorem thr_pushDeck {ws : List Word} : thr (pushDeck (base s) s.cur ws) s.cur = issuer s := thr_base

/-- A yield makes room for a start (R385). -/
def MakesRoom (s : State) : Prop :=
  slotOf s.cur ≠ 0 ∧ slotFree (base s) (coreOf s.cur) = false ∧ startWaits (base s) (coreOf s.cur) = true
    ∧ (core s (coreOf s.cur)).deck.length < 64

theorem makesRoom_iff : (slotOf s.cur != 0 && !slotFree (base s) (coreOf s.cur) && startWaits (base s) (coreOf s.cur)
    && decide ((core s (coreOf s.cur)).deck.length < 64)) = true ↔ MakesRoom s := by
  simp [MakesRoom, and_assoc]

section

variable (ready : Ready s .u [a, d]) (single : Single s) (aligned : (reg s a).toNat % 64 = 0)
include ready single aligned

theorem spawn_asks : Asks s (.spawn d a) .load (reg s a) 64 .tier :=
  asks_of_issue rfl ready (.inr single) fun _ fresh passed => taskRecord_asks aligned fresh passed _

theorem yield_asks (goes : ending (issuer s) = false) : Asks s (.yield d a) .load (reg s a) 64 .tier := by
  refine asks_of_issue rfl ready (.inr single) fun _ fresh passed => ?_
  obtain ⟨u, hu, asked⟩ := taskRecord_asks aligned fresh passed _
  exact ⟨u, (if_neg (by simp [goes])).trans hu, asked⟩

variable {v : Nat} (had : Had s v) (small : v % 2 ^ 64 < 2 ^ 16) (even : v % 2 = 0)
include had small even

theorem spawn_pushes (free : releaseHeld (base s) s.cur = false) (room : (core s (coreOf s.cur)).deck.length < 64) :
    Yields s (.spawn d a) d 1 fun u => (core u (coreOf s.cur)).deck
      = (core s (coreOf s.cur)).deck ++ [⟨wordsOfNat v 8, (issuer s).ctx, (issuer s).launch, cyc s + 1⟩] := by
  refine issue_yields (t := pushDeck (base s) s.cur (wordsOfNat v 8)) rfl ready single ?_ (thr_pushDeck ▸ leaves_issuer)
    (thr_pushDeck ▸ ready.unbound d (by simp)) rfl rfl rfl fun _ => deck_pushDeck
  have record := taskRecord_had had aligned small even
  simp only [operands, arg, List.map_cons, List.map_nil, List.append_nil, List.getD_cons_zero, base_cur, record, Res.run, core_base, room,
    free, Bool.false_eq_true, if_false, if_true]

theorem spawn_full (free : releaseHeld (base s) s.cur = false) (full : 64 ≤ (core s (coreOf s.cur)).deck.length) :
    exec (.spawn d a) s = .next (writes s 4 d 0) := by
  refine issue_writes rfl ready (.inr single) ?_ (by simp)
  have record := taskRecord_had had aligned small even
  simp only [operands, arg, List.map_cons, List.map_nil, List.append_nil, List.getD_cons_zero, base_cur, record, Res.run, core_base,
    Nat.not_lt.mpr full, free, Bool.false_eq_true, if_false]

section

variable (goes : ending (issuer s) = false)
include goes

theorem yield_goes_on (closed : ¬MakesRoom s) : exec (.yield d a) s = .next (writes s 4 d 0) := by
  refine issue_writes rfl ready (.inr single) ((if_neg (by simp [goes])).trans ?_) (by simp)
  have record := taskRecord_had had aligned small even
  simp only [operands, arg, List.map_cons, List.map_nil, List.append_nil, List.getD_cons_zero, base_cur, record, Res.run]
  exact if_neg fun h => closed (makesRoom_iff.mp h)

theorem yield_ends (free : releaseHeld (base s) s.cur = false) (opened : MakesRoom s) (rest : AtRest s) :
    ∃ u, exec (.yield d a) s = .next u ∧ Ended s u ∧ (core u (coreOf s.cur)).deck
      = (core s (coreOf s.cur)).deck ++ [⟨wordsOfNat v 8, (issuer s).ctx, (issuer s).launch, cyc s + 1⟩] := by
  obtain ⟨ended, cores⟩ := ended_freeSlot (s := s) (t := pushDeck (base s) s.cur (wordsOfNat v 8)) rfl
  refine ⟨_, issue_moved rfl ready single ((if_neg (by simp [goes])).trans ?_), ended, ?_⟩
  · have record := taskRecord_had had aligned small even
    have whole : (issuer s).lt = false := single
    simp only [operands, arg, List.map_cons, List.map_nil, List.append_nil, List.getD_cons_zero, base_cur, record, Res.run]
    refine (if_pos (makesRoom_iff.mpr opened)).trans ?_
    refine (if_neg (by simp [free])).trans ((if_neg (by simp [whole])).trans ?_)
    rw [thr_base]
    exact endWork_leaving rest single rfl rfl
  · rw [core, cores, ← core]
    exact deck_pushDeck

end

end

/-- Settles O34: a thread that stays writes its result, one that leaves has its slot freed and its memberships dropped
(`freed_freeSlot`), and a record goes to the top of the deck (`deck_pushDeck`). -/
theorem threadControl : Obligations.ThreadControl := by
  unfold Obligations.ThreadControl
  intro s d a ready single
  have atRest (h : (issuer s).held = none ∧ (issuer s).pend = [] ∧ unretired s s.cur = [] ∧ accsOf s s.cur = []) : AtRest s :=
    ⟨h.1, h.2.1, h.2.2.1, h.2.2.2⟩
  refine ⟨fun r small named => mig_stays ready single small named, fun r small named => mig_moves ready single small named,
    fun aligned => ⟨spawn_asks ready single aligned, yield_asks ready single aligned⟩, fun v had aligned small even free => ⟨fun room => ?_,
      spawn_full ready single aligned had small even free, fun goes => ⟨yield_goes_on ready single aligned had small even goes,
      fun opened rest => ?_⟩⟩, fun rest => endThread_ends ready single (atRest rest)⟩
  · obtain ⟨u, step, same, past, value, deck⟩ := spawn_pushes ready single aligned had small even free room
    exact ⟨u, step, past, same, value, deck⟩
  · obtain ⟨u, step, ended, deck⟩ := yield_ends ready single aligned had small even goes free opened (atRest rest)
    exact ⟨u, step, ended, deck⟩

end Sys2Proof.Machine
end

section
/-! SUPPORT. Traps taken at a turn, fault messages, deadlines and the firmware's answer to a containment (R159, R222-R225, R421). -/

namespace Sys2Proof.Machine

variable {s : State} {id : Nat}

/-! ## Entering the trap routine (R222) -/

/-- What a thread has in its trap routine, and keeps of the thread `x` that has entered it at `pc`. -/
structure InRoutine (s : State) (x t : Thread) (c : Cause) (tval tepc : Word) : Prop extends Trapped t c tval tepc where
  pc : t.pc = (ctx s x.ctx).tvb + BitVec.ofNat 64 c.vector
  pprv : t.pprv = prvBits x.prv
  pp : t.pp = x.pp
  pfx : t.pfx = x.pfx
  async : t.async = x.async
  life : t.life = x.life
  regs : ∀ r : Nat, getX t r = getX x r

theorem inRoutine_enterTrap (s : State) (tid : Nat) (c : Cause) (tval tepc : Word) :
    InRoutine s (thr s tid) (thr (enterTrap s tid c tval tepc) tid) c tval tepc where
  toTrapped := trapped_enterTrap ..
  pc := by rw [enterTrap, thr_setThr]
  pprv := by rw [enterTrap, thr_setThr]
  pp := by rw [enterTrap, thr_setThr]; rfl
  pfx := by rw [enterTrap, thr_setThr]; rfl
  async := by rw [enterTrap, thr_setThr]; rfl
  life := by rw [enterTrap, thr_setThr]; rfl
  regs _ := by rw [enterTrap, thr_setThr]; rfl

/-! ## A trap that waits (R159, R223) -/

/-- A running thread that is outside a handler, and whose wait gives way, takes its oldest trap. -/
theorem trapDue_oldest {t : Thread} {a : Async} {rest : List Async} (waiting : t.async = a :: rest) (runs : t.life = .run)
    (outside : t.it = false) (between : t.net = none)
    (free : t.park = none ∨ ∃ w since, t.park = some (.again w since) ∧ abandons a.cause w = true) : trapDue t = some a := by
  have ready : (t.life != .run || t.it || t.net.isSome) = false := by simp [runs, outside, between]
  rw [trapDue, ready, waiting, if_neg (by decide)]
  refine List.find?_cons_of_pos ?_
  rcases free with none | ⟨w, since, parked, gives⟩
  · rw [none]
  · rw [parked]
    exact gives

theorem trapDue_inside {t : Thread} (inside : t.it = true) : trapDue t = none := by
  rw [trapDue, inside, if_pos (by simp)]

/-- The turn at which a thread takes a trap. -/
def trapTurn (s : State) (id : Nat) : Nat := turnAt (slotOf id) (max (cycOf s (cmptOf id)) (thr s id).turn)

/-- The thread at that turn, with its results written. -/
def atTrap (s : State) (id : Nat) : Thread := settle (thr s id) (cycOf (tick s (cmptOf id) (trapTurn s id)) (cmptOf id) - 1)

/-- The same thread, for which trap `a` waits no more. -/
def trapping (s : State) (id : Nat) (a : Async) : Thread := noRefill { atTrap s id with async := (atTrap s id).async.erase a }

theorem trapEntry_eq {a : Async} (due : trapDue (thr s id) = some a) (outside : (thr s id).it = false) (below : (thr s id).prv ≠ .f)
    (trap : a.cause.contains = false) : trapEntry id s
      = some (enterTrap (setThr (tick s (cmptOf id) (trapTurn s id)) id (trapping s id a)) id a.cause a.tval (thr s id).pc) := by
  have taken := takeFault_trapped (s := setThr (tick s (cmptOf id) (trapTurn s id)) id (trapping s id a)) (tid := id) (v := a.tval)
    (pc := (thr s id).pc) trap
    (by rw [thr_setThr]; exact (settle_it ..).trans outside) (by rw [thr_setThr]; exact fun e => below ((settle_prv ..).symm.trans e))
  have pc : (atTrap s id).pc = (thr s id).pc := settle_pc ..
  rw [← taken, ← pc, atTrap, trapping, atTrap, trapEntry, due]
  simp only [thr_tick, trapTurn]

theorem trapEntry_takes {a : Async} {rest : List Async} (power : s.power = true) (waiting : (thr s id).async = a :: rest)
    (due : trapDue (thr s id) = some a) (outside : (thr s id).it = false) (below : (thr s id).prv ≠ .f) (trap : a.cause.contains = false) :
    Does s (.trapEntry id) fun u => SameMemory s u ∧ (thr u id).async = rest ∧ (thr u id).it = true ∧ (thr u id).prv = .s
      ∧ (thr u id).pc = (ctx s (thr s id).ctx).tvb + BitVec.ofNat 64 a.cause.vector ∧ (thr u id).tepc = (thr s id).pc
      ∧ (thr u id).tca = BitVec.ofNat 8 a.cause.code ∧ (thr u id).tval = a.tval ∧ (thr u id).pprv = prvBits (thr s id).prv
      ∧ (thr u id).pp = (thr s id).pp ∧ (thr u id).pfx = (thr s id).pfx := by
  have entry := trapEntry_eq due outside below trap
  refine does_event power rfl entry (mem_of_some (mem_trapEntry id s) entry) fun same => ?_
  have routine := inRoutine_enterTrap (setThr (tick s (cmptOf id) (trapTurn s id)) id (trapping s id a)) id a.cause a.tval (thr s id).pc
  rw [thr_setThr] at routine
  refine ⟨same, routine.async.trans ?_, routine.it, routine.prv, routine.pc.trans ?_, routine.tepc, routine.tca, routine.tval,
    routine.pprv.trans (congrArg prvBits (settle_prv ..)), routine.pp.trans (settle_pp ..), routine.pfx.trans (settle_pfx ..)⟩
  · rw [trapping, noRefill, atTrap, settle_async, waiting]
    exact List.erase_cons_head a rest
  · have here : (trapping s id a).ctx = (thr s id).ctx := settle_ctx ..
    rw [here, ctx_setThr, ctx_tick]

/-! ## Fault messages and the firmware (R224, R225) -/

theorem faultMessage_enters {c : Nat} {m : FaultMsg} {rest : List FaultMsg} (power : s.power = true)
    (oldest : (cmpt s c).faultNet = m :: rest) (room : (cmpt s c).faultQ.length < 256) :
    Does s (.faultMessage c) fun u => SameMemory s u ∧ (cmpt u c).faultNet = rest ∧ (cmpt u c).faultQ = (cmpt s c).faultQ ++ [m] := by
  have entry : faultMessage c s = some (setCmpt s c { cmpt s c with faultNet := rest, faultQ := (cmpt s c).faultQ ++ [m] }) := by
    simp [faultMessage, oldest, room]
  refine does_event power rfl entry rfl fun same => ⟨same, ?_⟩
  simp

theorem faultMessage_waits {c : Nat} {m : FaultMsg} {rest : List FaultMsg} (power : s.power = true)
    (oldest : (cmpt s c).faultNet = m :: rest) (full : 256 ≤ (cmpt s c).faultQ.length) : exec (.faultMessage c) s = .next s :=
  event_of_none power (by simp [faultMessage, oldest, full])

/-- A contained cause enters the routine at its base (R221). -/
theorem vector_of_contains {c : Cause} (contains : c.contains = true) : c.vector = 0 := by
  cases c with
  | preEmption | systemCall | trap => cases contains
  | _ => rfl

section

variable {c : Nat} {m : FaultMsg} {q : List FaultMsg} (queue : (cmpt s c).faultQ = m :: q)
include queue

/-- The firmware ends a containment: the thread enters its trap routine at the instruction that has faulted. -/
theorem reflect_ends (named : m.nth = false) (below : m.prv ≠ .f) (contained : (thr s m.ptid).life = .contained) :
    ∃ u, reflect c s = some u ∧ (cmpt u c).faultQ = q
      ∧ InRoutine s { thr s m.ptid with life := .run, why := none } (thr u m.ptid) m.cause m.val m.pc := by
  have routine := inRoutine_enterTrap (setThr (setCmpt s c { cmpt s c with faultQ := q }) m.ptid
    { thr s m.ptid with life := .run, why := none }) m.ptid m.cause m.val m.pc
  rw [thr_setThr] at routine
  refine ⟨_, ?_, ?_, ⟨routine.toTrapped, routine.pc, routine.pprv, routine.pp, routine.pfx, routine.async, routine.life, routine.regs⟩⟩
  · simp [reflect, queue, named, below, contained]
  · simp [enterTrap]

/-- A message whose thread has gone on ends nothing. -/
theorem reflect_drops (gone : (thr s m.ptid).life ≠ .contained) :
    ∃ u, reflect c s = some u ∧ (cmpt u c).faultQ = q ∧ thr u m.ptid = thr s m.ptid := by
  refine ⟨setCmpt s c { cmpt s c with faultQ := q }, ?_, ?_, rfl⟩
  · simp [reflect, queue, gone]
  · simp

end

/-- The firmware's choice is its answer to the oldest message. -/
theorem firmware_step {c : Nat} {r : List Choice} {t : State} (power : s.power = true) (chosen : s.agenda = .firmware c :: r)
    (taken : reflect c { s with agenda := r } = some t) : step s = .next t ∧ SameMemory s t := by
  have mem : t.mem = s.mem := (mem_reflect taken).trans rfl
  exact ⟨(step_of_agenda chosen).trans (event_of_some (f := reflect c) (s := { s with agenda := r }) power taken), sameMemory_of_mem mem⟩

/-! ## Deadlines (R206, R421) -/

@[simp] theorem thr_tickTo (s : State) (k n m : Nat) : thr (tickTo s k n) m = thr s m := by
  unfold tickTo
  dsimp only
  split
  · rfl
  · split <;> exact thr_tick ..

/-- Where a later cycle of a compartment starts. -/
theorem t_tick {k n : Nat} (later : (cmpt s k).cyc < n) : (cmpt (tick s k n) k).t
    = if (cmpt s k).fixt then ceilDiv (15 * n) 7 else (cmpt s k).t + 2 * (n - (cmpt s k).cyc) + (cmpt s k).stretch := by
  have moves : ¬n ≤ (cmpt s k).cyc := by omega
  rw [tick]
  dsimp only
  rw [if_neg moves]
  exact congrArg Cmpt.t (cmpt_setCmpt ..)

/-- Bringing a compartment to a network time brings it no less far. -/
theorem reaches_tickTo (ok : ClockOk s) (k n : Nat) : n ≤ (cmpt (tickTo s k n) k).t := by
  unfold tickTo
  dsimp only
  split
  · assumption
  · next early =>
    split
    · next fixed =>
      have clock := ok k fixed
      rw [t_tick (by simp only [ceilDiv]; omega), if_pos fixed]
      simp only [ceilDiv]
      omega
    · next elastic =>
      rw [t_tick (by simp only [ceilDiv]; omega), if_neg elastic]
      simp only [ceilDiv]
      omega

theorem haltDeadline_reached {d : Word} {since : Nat} (power : s.power = true) (ok : ClockOk s) (runs : (thr s id).life = .run)
    (parked : (thr s id).park = some (.again (.halt d) since)) (early : (cmpt s (cmptOf id)).t < d.toNat) :
    Does s (.haltDeadline id) fun u => SameMemory s u ∧ d.toNat ≤ (cmpt u (cmptOf id)).t ∧ (thr u id).pc = (thr s id).pc
      ∧ (thr u id).park = (thr s id).park := by
  have entry : haltDeadline id s = some (setThr (tickTo s (cmptOf id) d.toNat) id
      { thr s id with turn := max (thr s id).turn (turnAt (slotOf id) (cycOf (tickTo s (cmptOf id) d.toNat) (cmptOf id))) }) := by
    simp only [haltDeadline, runs, parked, Nat.not_le.mpr early, if_false, thr_tickTo]
  refine does_event power rfl entry (mem_of_some (mem_haltDeadline id s) entry) fun same => ⟨same, reaches_tickTo ok _ _, ?_, ?_⟩
  · rw [thr_setThr]
  · rw [thr_setThr]

/-- Settles O55: a trap that is due is taken with the results of its thread written (`trapEntry_eq`), a message moves from one queue to the
next, the clock reaches a deadline (`reaches_tickTo`), and the firmware's answer is the trap entry of R222 (`reflect_ends`). -/
theorem trapsAtTurns : Obligations.TrapsAtTurns := by
  unfold Obligations.TrapsAtTurns
  intro s id power
  refine ⟨fun a rest waiting runs outside between below trap free => ?_, fun inside => ?_, fun c m rest oldest => ?_,
    fun d since ok runs parked early => haltDeadline_reached power ok runs parked early, fun c m q r chosen queue => ⟨?_, ?_⟩⟩
  · exact trapEntry_takes power waiting (trapDue_oldest waiting runs outside between free) outside below trap
  · exact event_of_none power (by rw [trapEntry, trapDue_inside inside])
  · exact ⟨faultMessage_enters power oldest, faultMessage_waits power oldest⟩
  · intro named below contains contained
    obtain ⟨u, taken, queued, routine⟩ := reflect_ends (s := { s with agenda := r }) queue named below contained
    obtain ⟨run, same⟩ := firmware_step power chosen taken
    have base : (thr u m.ptid).pc = (ctx s (thr s m.ptid).ctx).tvb := by
      have pc := routine.pc
      rw [vector_of_contains contains] at pc
      exact pc.trans (BitVec.add_zero _)
    exact ⟨u, run, same, queued, routine.life, base, routine.tepc, routine.tca, routine.tval, routine.prv, routine.it, routine.pprv,
      routine.pp, routine.pfx, fun n => routine.regs _⟩
  · intro gone
    obtain ⟨u, taken, queued, kept⟩ := reflect_drops (s := { s with agenda := r }) queue gone
    obtain ⟨run, same⟩ := firmware_step power chosen taken
    exact ⟨u, run, same, queued, kept⟩

end Sys2Proof.Machine
end

section
/-! SUPPORT. Which start the unit of a core takes, in which cycle and for which slot (R144, R145). -/

namespace Sys2Proof.Machine

variable {s : State} {c : Nat}

/-! ## The slot that a start claims (R145) -/

theorem find?_rising {n i : Nat} {p : Nat → Bool} :
    ((List.range n).map (· + 1)).find? p = some i ↔ 1 ≤ i ∧ i ≤ n ∧ p i = true ∧ ∀ j, 1 ≤ j → j < i → p j = false := by
  rw [List.find?_map, Option.map_eq_some_iff]
  constructor
  · rintro ⟨k, found, rfl⟩
    obtain ⟨holds, listed, first⟩ := List.find?_range_eq_some.mp found
    refine ⟨by omega, by simpa using listed, holds, fun j low high => ?_⟩
    have lower := first (j - 1) (by omega)
    simpa [Nat.sub_add_cancel low] using lower
  · rintro ⟨low, high, holds, first⟩
    refine ⟨i - 1, List.find?_range_eq_some.mpr ⟨?_, List.mem_range.mpr (by omega), fun j lower => ?_⟩, by omega⟩
    · simpa [Nat.sub_add_cancel low] using holds
    · simpa using first (j + 1) (by omega) (by omega)

/-- A slot of the core is free. -/
def Idle (s : State) (c i : Nat) : Prop := (thr s (c * 16 + i)).life = .free

theorem freeAt_iff {i : Nat} : freeAt s c i = true ↔ Idle s c i := by simp [freeAt, Idle]

theorem freeAt_false {i : Nat} : freeAt s c i = false ↔ ¬Idle s c i := by rw [← freeAt_iff, Bool.not_eq_true]

/-- A start claims a slot: the lowest free one, or the lowest that is free with the slot eight above it. -/
def Claims (s : State) (c : Nat) (b : Begin) (i : Nat) : Prop :=
  (b.lt = false → 1 ≤ i ∧ i ≤ 15 ∧ Idle s c i ∧ ∀ j, 1 ≤ j → j < i → ¬Idle s c j)
  ∧ (b.lt = true → 1 ≤ i ∧ i ≤ 7 ∧ Idle s c i ∧ Idle s c (i + 8) ∧ ∀ j, 1 ≤ j → j < i → ¬(Idle s c j ∧ Idle s c (j + 8)))

theorem slotFor_iff {b : Begin} {i : Nat} : slotFor s c b.lt = some i ↔ Claims s c b i := by
  unfold slotFor Claims
  cases b.lt with
  | false =>
    simp only [Bool.false_eq_true, if_false, find?_rising, freeAt_iff, freeAt_false]
    simp
  | true =>
    have both (j : Nat) : (freeAt s c j && freeAt s c (j + 8)) = false ↔ ¬(Idle s c j ∧ Idle s c (j + 8)) := by
      rw [← freeAt_iff, ← freeAt_iff, ← Bool.and_eq_true, Bool.not_eq_true]
    simp only [if_true, find?_rising, both, Bool.and_eq_true, freeAt_iff]
    simp [and_assoc]

theorem claims_lt {b : Begin} {i : Nat} (h : Claims s c b i) : i < 16 ∧ (b.lt = true → i < 8) := by
  obtain ⟨single, pair⟩ := h
  cases lt : b.lt with
  | false => exact ⟨by have := single lt; omega, nofun⟩
  | true => exact ⟨by have := pair lt; omega, fun _ => by have := pair lt; omega⟩

theorem claims_unique {b : Begin} {i j : Nat} (h : Claims s c b i) (g : Claims s c b j) : i = j :=
  Option.some.inj ((slotFor_iff.mpr h).symm.trans (slotFor_iff.mpr g))

/-! ## The cycle in which a start is taken (R144) -/

/-- In cycle `n` the unit considers start `x`: it stands there, and no source before it holds one that does. -/
def First (s : State) (c n : Nat) (x : Source × Begin) : Prop :=
  x.2.ready ≤ n ∧ ∃ l r, sources s c = l ++ x :: r ∧ ∀ y ∈ l, n < y.2.ready

theorem first_iff {n : Nat} {x : Source × Begin} : (sources s c).find? (fun b => b.2.ready ≤ n) = some x ↔ First s c n x := by
  simp [List.find?_eq_some_iff_append, First]

/-- Start `x` claims the slot of cycle `n`, in which the unit considers it. -/
def Taken (s : State) (c n : Nat) (x : Source × Begin) : Prop := First s c n x ∧ Claims s c x.2 ((n + 6) % 16)

/-- The scan from cycle `t` on. -/
def scan (s : State) (c n t : Nat) : Option (Nat × Source × Begin) :=
  takeFrom (sources s c) (slotFor s c false) (slotFor s c true) n t

theorem slotFor_eq (lt : Bool) : (if lt then slotFor s c true else slotFor s c false) = slotFor s c lt := by
  cases lt <;> rfl

theorem scan_hit {n t : Nat} {x : Source × Begin} (taken : Taken s c t x) : scan s c (n + 1) t = some (t, x) := by
  obtain ⟨first, claims⟩ := taken
  obtain ⟨src, b⟩ := x
  rw [scan, takeFrom, first_iff.mpr first]
  exact if_pos ((slotFor_eq b.lt).trans (slotFor_iff.mpr claims))

theorem scan_miss {n t : Nat} (idle : ∀ x, ¬Taken s c t x) : scan s c (n + 1) t = scan s c n (t + 1) := by
  rw [scan, takeFrom]
  split
  · next src b found =>
    refine if_neg fun claims => idle (src, b) ⟨first_iff.mp found, slotFor_iff.mp ?_⟩
    exact (slotFor_eq b.lt).symm.trans claims
  · rfl

/-- What the scan finds is taken, and nothing was before. -/
theorem scan_some {n t u : Nat} {x : Source × Begin} (found : scan s c n t = some (u, x)) :
    t ≤ u ∧ Taken s c u x ∧ ∀ m y, t ≤ m → m < u → ¬Taken s c m y := by
  induction n generalizing t with
  | zero => cases found
  | succ n ih =>
    by_cases here : ∃ y, Taken s c t y
    · obtain ⟨y, taken⟩ := here
      rw [scan_hit taken] at found
      cases found
      exact ⟨le_rfl, taken, fun m y low high => absurd high (Nat.not_lt.mpr low)⟩
    · have idle (y : Source × Begin) : ¬Taken s c t y := fun taken => here ⟨y, taken⟩
      rw [scan_miss idle] at found
      obtain ⟨later, taken, before⟩ := ih found
      refine ⟨by omega, taken, fun m y low high => ?_⟩
      rcases Nat.eq_or_lt_of_le low with rfl | low
      · exact idle y
      · exact before m y low high

/-- The scan finds the first start that is taken within its cycles. -/
theorem scan_finds {n t d : Nat} {x : Source × Begin} (taken : Taken s c (t + d) x) (within : d < n)
    (before : ∀ e < d, ∀ y, ¬Taken s c (t + e) y) : scan s c n t = some (t + d, x) := by
  induction d generalizing n t with
  | zero =>
    obtain ⟨n, rfl⟩ := Nat.exists_eq_add_of_lt within
    rw [Nat.zero_add]
    exact scan_hit taken
  | succ d ih =>
    obtain ⟨n, rfl⟩ := Nat.exists_eq_succ_of_ne_zero (Nat.ne_zero_of_lt within)
    have later : t + 1 + d = t + (d + 1) := by omega
    refine (scan_miss (before 0 (by omega))).trans ?_
    rw [← later] at taken ⊢
    refine ih taken (by omega) fun e lower y => ?_
    have earlier := before (e + 1) (by omega) y
    rwa [← Nat.add_assoc, Nat.add_right_comm] at earlier

theorem foldl_min_le (l : List Nat) (r : Nat) : ∀ x ∈ r :: l, l.foldl min r ≤ x := by
  induction l generalizing r with
  | nil => simp
  | cons y l ih =>
    have rest := ih (min r y)
    simp only [List.forall_mem_cons] at rest ⊢
    exact ⟨rest.1.trans (min_le_left ..), rest.1.trans (min_le_right ..), rest.2⟩

/-- The first cycle in which the unit can take a start (R145). -/
def openFrom (s : State) (c : Nat) : Nat := max (cycOf s (cmptOfCore c)) (core s c).nextStart

/-- The scan begins no later than the first start stands there. -/
theorem nextTaken_scan {n : Nat} {x : Source × Begin} (next : nextTaken s c = some (n, x)) :
    ∃ r, (∀ y ∈ sources s c, r ≤ y.2.ready) ∧ scan s c 128 (max (openFrom s c) r) = some (n, x) := by
  unfold nextTaken at next
  dsimp only at next
  split at next
  · cases next
  · next r rs readies =>
    refine ⟨rs.foldl min r, fun y listed => foldl_min_le rs r _ ?_, next⟩
    rw [← readies]
    exact List.mem_map_of_mem listed

theorem nextTaken_some {n : Nat} {x : Source × Begin} (next : nextTaken s c = some (n, x)) :
    openFrom s c ≤ n ∧ Taken s c n x ∧ ∀ m y, openFrom s c ≤ m → m < n → First s c m y → ¬Claims s c y.2 ((m + 6) % 16) := by
  obtain ⟨r, least, found⟩ := nextTaken_scan next
  obtain ⟨low, taken, before⟩ := scan_some found
  refine ⟨(le_max_left ..).trans low, taken, fun m y from_ high first claims => ?_⟩
  have listed : y ∈ sources s c := List.mem_of_find?_eq_some (first_iff.mpr first)
  exact before m y (max_le from_ ((least y listed).trans first.1)) high ⟨first, claims⟩

/-- The only start there is is taken within 16 cycles. -/
theorem nextTaken_only {src : Source} {b : Begin} {i : Nat} (only : sources s c = [(src, b)]) (claims : Claims s c b i) :
    ∃ n, (n + 6) % 16 = i ∧ max (openFrom s c) b.ready ≤ n ∧ n < max (openFrom s c) b.ready + 16 ∧ nextTaken s c = some (n, src, b) := by
  obtain ⟨slot, -⟩ := claims_lt claims
  generalize start : max (openFrom s c) b.ready = f
  have next : nextTaken s c = scan s c 128 f := by
    rw [← start]
    simp only [nextTaken, only, List.map_cons, List.map_nil, List.foldl_nil]
    rw [scan, only]
    rfl
  have first {m : Nat} {y : Source × Begin} : First s c m y ↔ b.ready ≤ m ∧ y = (src, b) := by
    rw [← first_iff, only]
    by_cases stands : b.ready ≤ m <;> simp [stands, eq_comm]
  refine ⟨f + (i + 16 - (f + 6) % 16) % 16, by omega, by omega, by omega,
    next.trans (scan_finds ⟨first.mpr ⟨by omega, rfl⟩, ?_⟩ (by omega) fun e lower y taken => ?_)⟩
  · have turn : (f + (i + 16 - (f + 6) % 16) % 16 + 6) % 16 = i := by omega
    rwa [turn]
  · obtain ⟨considered, claims'⟩ := taken
    obtain ⟨-, rfl⟩ := first.mp considered
    have same := claims_unique claims claims'
    omega

end Sys2Proof.Machine
end

section
/-! SUPPORT. The thread that a start makes: its registers and what else it begins with (R143, R250, R254, R255). -/

namespace Sys2Proof.Machine

variable {s t : State} {c : Nat}

/-! ## Tables of registers -/

theorem look_append {α : Type} (a b : Tab α) (n : Nat) : look (a ++ b) n = (look a n).or (look b n) := by
  induction a with
  | nil => rfl
  | cons p a ih =>
    obtain ⟨k, v⟩ := p
    simp only [List.cons_append, look]
    split
    · rfl
    · exact ih

/-- Rows chosen by their keys. -/
theorem look_filter {α : Type} (f : Nat → Bool) (a : Tab α) (n : Nat) : look (a.filter fun p => f p.1) n = if f n then look a n else none := by
  induction a with
  | nil => simp [look]
  | cons p a ih =>
    obtain ⟨k, v⟩ := p
    by_cases chosen : f k <;> by_cases here : k = n
    · simp [look, chosen, ← here]
    · simp [look, chosen, here, ih]
    · subst here
      simp [chosen, ih]
    · simp [look, chosen, here, ih]

/-- A window's rows stand 8 lower than the numbers of their registers. -/
theorem look_window {α : Type} (a : Tab α) (n : Nat) : look ((a.filter fun p => 8 ≤ p.1).map fun p => (p.1 - 8, p.2)) n = look a (n + 8) := by
  induction a with
  | nil => rfl
  | cons p a ih =>
    obtain ⟨k, v⟩ := p
    by_cases high : 8 ≤ k
    · have same : k - 8 = n ↔ k = n + 8 := by omega
      simp [look, high, same, ih]
    · have other : k ≠ n + 8 := by omega
      simp [look, high, other, ih]

theorem regsAt_cons (n : Nat) (w : Word) (ws : List Word) : regsAt n (w :: ws) = (n, w) :: regsAt (n + 1) ws := by
  simp [regsAt, List.range_succ_eq_map, Function.comp_def, Nat.add_assoc, Nat.add_comm 1]

theorem look_regsAt (n : Nat) (ws : List Word) (k : Nat) : look (regsAt n ws) k = if n ≤ k then ws[k - n]? else none := by
  induction ws generalizing n with
  | nil => simp [regsAt, look]
  | cons w ws ih =>
    rw [regsAt_cons, look, ih]
    rcases Nat.lt_trichotomy n k with low | rfl | high
    · obtain ⟨i, rfl⟩ := Nat.exists_eq_add_of_lt low
      rw [if_neg (by omega), if_pos (by omega), if_pos (by omega), show n + i + 1 - (n + 1) = i by omega, show n + i + 1 - n = i + 1 by omega]
      rfl
    · simp
    · rw [if_neg (by omega), if_neg (by omega), if_neg (by omega)]

theorem lookD_regsAt {n i : Nat} (ws : List Word) : lookD (regsAt n ws) (n + i) 0 = ws.getD i 0 := by
  rw [lookD, look_regsAt, if_pos (by omega), Nat.add_sub_cancel_left, List.getD_eq_getElem?_getD]

theorem look_headerRegs {l : Option Nat} {n : Nat} (high : 8 ≤ n) : look (headerRegs s l) n = none := by
  unfold headerRegs
  split
  · rw [look_regsAt, if_pos (by omega)]
    simp
    omega
  · rfl

/-- Behind the header's registers stand the source's own. -/
theorem lookD_header {l : Option Nat} {ws : List Word} (i : Nat) : lookD (headerRegs s l ++ regsAt 8 ws) (8 + i) 0 = ws.getD i 0 := by
  rw [← lookD_regsAt (n := 8), lookD, look_append, look_headerRegs (by omega), Option.none_or, lookD]

/-- A payload of bytes as x8 to x15 (R143). -/
def Payload (ds : List Byte) (regs : Tab Word) : Prop :=
  ∀ i < 8, lookD regs (8 + i) 0 = BitVec.ofNat 64 (ofBytes ((ds.drop (8 * i)).take 8))

theorem payload_payloadRegs (bs : List Byte) : Payload bs (payloadRegs bs) := by
  intro i few
  rw [payloadRegs, lookD_regsAt]
  simp [few, natWord]

theorem payload_header {l : Option Nat} (bs : List Byte) : Payload bs (headerRegs s l ++ payloadRegs bs) := by
  intro i few
  rw [payloadRegs, lookD_header]
  simp [few, natWord]

theorem payloadRegs_rest {bs : List Byte} {n : Nat} (rest : n < 8 ∨ 16 ≤ n) : lookD (payloadRegs bs) n 0 = 0 := by
  rw [payloadRegs, lookD, look_regsAt]
  rcases rest with low | high
  · rw [if_neg (by omega)]
    rfl
  · rw [if_pos (by omega), List.getElem?_eq_none (by simp; omega)]
    rfl

/-! ## The thread (R143, R250, R254, R255) -/

theorem getX_newThread {tid : Nat} {b : Begin} {prv : Prv} {trl : Bool} {turn r : Nat} (named : r ≠ 0) :
    getX (newThread s tid b prv trl turn) r = lookD b.regs r 0 := by
  rw [getX, if_neg named]
  split
  · next low => exact congrArg (·.getD 0) ((look_filter (fun k => k < 8) b.regs r).trans (if_pos (by simpa using low)))
  · next high =>
    have window := look_window b.regs (r - 8)
    rw [Nat.sub_add_cancel (Nat.not_lt.mp high)] at window
    exact congrArg (·.getD 0) window

/-- The thread in slot `i` of core `c` as start `b` makes it in state `s`. -/
def Started (s : State) (c : Nat) (x : Thread) (b : Begin) (p : Prv) (trail : Bool) (turn : Nat) : Prop :=
  x.life = .run ∧ x.ctx = b.ctx ∧ x.launch = b.launch ∧ x.pc = b.pc ∧ x.prv = p ∧ x.lt = b.lt ∧ x.trl = trail ∧ x.turn = turn
    ∧ x.it = false ∧ x.pp = false ∧ x.qb = 0 ∧ x.flags = {} ∧ x.rm = (ctx s b.ctx).rm ∧ x.fixt = (cmpt s (cmptOfCore c)).fixt
    ∧ ∀ r : Reg, r ≠ 0 → getX x r.toNat = lookD b.regs r.toNat 0

theorem cmptOf_slot {i : Nat} (slot : i < 16) : cmptOf (c * 16 + i) = cmptOfCore c := by
  rw [cmptOf, coreOf, show (c * 16 + i) / 16 = c by omega]

/-- A new thread in a state that has kept the clock modes and the contexts. -/
theorem started_newThread {b : Begin} {p : Prv} {trail : Bool} {turn tid : Nat} (here : cmptOf tid = cmptOfCore c) (ctxs : t.ctxs = s.ctxs)
    (fixt : (cmpt t (cmptOfCore c)).fixt = (cmpt s (cmptOfCore c)).fixt) : Started s c (newThread t tid b p trail turn) b p trail turn := by
  refine ⟨rfl, rfl, rfl, rfl, rfl, rfl, rfl, rfl, rfl, rfl, rfl, rfl, ?_, ?_, fun r named => getX_newThread (toNat_ne named)⟩
  · exact congrArg (fun x => (lookD x b.ctx {} : Ctx).rm) ctxs
  · rw [← fixt, ← here]
    rfl

/-- The trail of a pair shares the lead's spill area. -/
theorem Started.withWsp {x : Thread} {b : Begin} {p : Prv} {trail : Bool} {turn : Nat} (h : Started s c x b p trail turn) (w : Word) :
    Started s c { x with wsp := w } b p trail turn := h

end Sys2Proof.Machine
end

section
/-! SUPPORT. What the sources of a core hold, and the steps of the start unit (R142-R145, R148, R226, R378). -/

namespace Sys2Proof.Machine

variable {s : State} {c : Nat}

/-! ## The sources (R143, R144, R148) -/

/-- The place of a source in the order of R144. -/
def rank (x : Source × Begin) : Nat :=
  match x.1 with | .intake => 0 | .prepared => 1 | .task _ => 2 | .stage => 3 | .deck _ => 4 | .stolen => 5

theorem pairwise_of_rank {l : List (Source × Begin)} {n : Nat} (one : ∀ x ∈ l, rank x = n) : l.Pairwise fun x y => rank x ≤ rank y :=
  List.pairwise_of_forall_mem_list fun x hx y hy => by rw [one x hx, one y hy]

theorem rank_taskStarts : ∀ x ∈ taskStarts s c, rank x = 2 := by
  intro x listed
  obtain ⟨⟨l, y⟩, -, made⟩ := List.mem_filterMap.mp listed
  dsimp only at made
  split at made
  · cases made
  · obtain ⟨k, -, rfl⟩ := Option.map_eq_some_iff.mp made
    rfl

theorem rank_stageStart : ∀ x ∈ (stageStart s c).toList, rank x = 3 := by
  intro x listed
  have made : stageStart s c = some x := by simpa using listed
  unfold stageStart at made
  dsimp only at made
  split at made
  · cases made
  · split at made
    · cases made
      rfl
    · cases made

theorem rank_deckStart : ∀ x ∈ (deckStart s c).toList, rank x = 4 := by
  intro x listed
  have made : deckStart s c = some x := by simpa using listed
  obtain ⟨r, -, rfl⟩ := Option.map_eq_some_iff.mp made
  rfl

/-- A list in order, with a list of the next rank behind it. -/
theorem pairwise_append_rank {a b : List (Source × Begin)} {n : Nat}
    (ordered : (a.Pairwise fun x y => rank x ≤ rank y) ∧ ∀ x ∈ a, rank x ≤ n) (next : ∀ x ∈ b, rank x = n + 1) :
    ((a ++ b).Pairwise fun x y => rank x ≤ rank y) ∧ ∀ x ∈ a ++ b, rank x ≤ n + 1 := by
  obtain ⟨ordered, low⟩ := ordered
  refine ⟨List.pairwise_append.mpr ⟨ordered, pairwise_of_rank next, fun x hx y hy => ?_⟩, fun x hx => ?_⟩
  · rw [next y hy]
    exact (low x hx).trans (Nat.le_succ n)
  · rcases List.mem_append.mp hx with hx | hx
    · exact (low x hx).trans (Nat.le_succ n)
    · exact (next x hx).le

theorem pairwise_sources : (sources s c).Pairwise fun x y => rank x ≤ rank y := by
  have constant {α : Type} (l : List α) (f : α → Source × Begin) {n : Nat} (one : ∀ y, rank (f y) = n) : ∀ x ∈ l.map f, rank x = n := by
    intro x listed
    obtain ⟨y, -, rfl⟩ := List.mem_map.mp listed
    exact one y
  have intake := constant ((core s c).intake.head?.bind (intakeBegin s)).toList (fun b => (.intake, b)) fun _ => rfl
  have prepared := constant (core s c).prepared.toList (fun p => (.prepared, pairBegin s p)) fun _ => rfl
  have stolen := constant (core s c).stolen.head?.toList (fun r => (.stolen, deckBegin s r 0)) fun _ => rfl
  exact (pairwise_append_rank (pairwise_append_rank (pairwise_append_rank (pairwise_append_rank (pairwise_append_rank
    ⟨pairwise_of_rank intake, fun x hx => (intake x hx).le⟩ prepared) rank_taskStarts) rank_stageStart) rank_deckStart) stolen).1

theorem mem_sources_intake {e : Nat × Body} {q : List (Nat × Body)} {b : Begin} (oldest : (core s c).intake = e :: q)
    (is : intakeBegin s e = some b) : (.intake, b) ∈ sources s c := by
  simp [sources, oldest, is]

theorem mem_sources_deck {q : List TaskRec} {r : TaskRec} (deck : (core s c).deck = q ++ [r]) (free : cmptOfCore c ∉ (ctx s r.ctx).stopped) :
    (.deck q.length, deckBegin s r (core s c).deckAt) ∈ sources s c := by
  have youngest : deckStart s c = some (.deck q.length, deckBegin s r (core s c).deckAt) := by
    have stands : (!withheld s r.ctx c) = true := by simp [withheld, free]
    simp [deckStart, deck, List.range_succ, List.zip_append, stands]
  simp [sources, youngest]

/-! ## A start is taken (R145, R226) -/

/-- The state in which the unit has taken a start of source `src` in cycle `n`, `wait` cycles after it came there. -/
def opened (s : State) (c n wait : Nat) (src : Source) : State :=
  let t := scale (tick s (cmptOfCore c) n) (cmptOfCore c) 0x02 wait
  setCore t c { dropStart (core t c) n src with nextStart := n + 1 }

theorem fixt_scale (s : State) (k e v m : Nat) : (cmpt (scale s k e v) m).fixt = (cmpt s m).fixt := by
  unfold scale
  dsimp only
  split
  · rfl
  · by_cases here : k = m
    · subst here
      rw [cmpt_setCmpt]
    · rw [cmpt_setCmpt_ne _ _ here]

/-- A state as a start finds it: threads, contexts and clock modes are those of `s`. -/
structure Ground (s : State) (c : Nat) (t : State) : Prop where
  threads : t.threads = s.threads
  ctxs : t.ctxs = s.ctxs
  fixt : (cmpt t (cmptOfCore c)).fixt = (cmpt s (cmptOfCore c)).fixt

theorem ground_scale {n wait : Nat} : Ground s c (scale (tick s (cmptOfCore c) n) (cmptOfCore c) 0x02 wait) := by
  have kept := kept_scale (tick s (cmptOfCore c) n) (cmptOfCore c) 0x02 wait
  exact ⟨kept.threads.trans (threads_tick ..), kept.ctxs.trans (ctxs_tick ..), (fixt_scale ..).trans (fixt_tick ..)⟩

theorem Ground.setCore {t : State} (h : Ground s c t) (n : Nat) (k : Core) : Ground s c (setCore t n k) := ⟨h.threads, h.ctxs, h.fixt⟩

theorem ground_opened {n wait : Nat} {src : Source} : Ground s c (opened s c n wait src) := ground_scale.setCore ..

theorem nextStart_opened {n wait : Nat} {src : Source} : (core (opened s c n wait src) c).nextStart = n + 1 := by
  rw [opened, core_setCore]

/-- Start `b` has been taken in cycle `n`: what the core's slot holds then. -/
structure Begun (s : State) (c : Nat) (b : Begin) (n : Nat) (t : State) : Prop where
  next : (core t c).nextStart = n + 1
  fresh : b.image = none → Started s c (thr t (c * 16 + (n + 6) % 16)) b (if b.lt = true ∨ c < 16384 then .u else .f) false (n + 6)
    ∧ (b.lt = true → Started s c (thr t (c * 16 + ((n + 6) % 16 + 8))) b .u true (n + 14))
  lands : ∀ (m : Nat) (x : Thread), b.image = some (m, x) → thr t (c * 16 + (n + 6) % 16)
    = { x with life := .run, turn := n + 6, serial := (thr s (c * 16 + (n + 6) % 16)).serial + 1 }

section

variable {src : Source} {b : Begin} {n : Nat} (next : nextTaken s c = some (n, src, b))
include next

/-- A migrating thread goes on in its new slot. -/
theorem begun_image {m : Nat} {x : Thread} (image : b.image = some (m, x)) : ∃ t, threadStart c s = some t ∧ Begun s c b n t := by
  refine ⟨landThread (opened s c n (n - b.ready) src) (c * 16 + (n + 6) % 16) m (n + 6) x, ?_, ?_, fun other => ?_, fun m' x' same => ?_⟩
  · simp only [threadStart, next, Option.map_some, image]
    rfl
  · refine Eq.trans ?_ (nextStart_opened (s := s) (c := c) (n := n) (wait := n - b.ready) (src := src))
    unfold landThread renameMember
    dsimp only
    split <;> rfl
  · rw [image] at other
    cases other
  · rw [image] at same
    cases same
    rw [landThread, thr_setThr]
    simp only [thr, ground_opened.threads]

/-- The two halves of a pair start in slots eight apart. -/
theorem begun_pair (image : b.image = none) (lt : b.lt = true) (low : (n + 6) % 16 < 8) :
    ∃ t, threadStart c s = some t ∧ Begun s c b n t := by
  have ground := (ground_opened (s := s) (c := c) (n := n) (wait := n - b.ready) (src := src))
  refine ⟨startPair (opened s c n (n - b.ready) src) c ((n + 6) % 16) b (n + 6) (n + 14) id, ?_, ?_, fun _ => ⟨?_, fun _ => ?_⟩,
    fun m x other => ?_⟩
  · simp only [threadStart, next, Option.map_some, image, lt]
    rfl
  · refine Eq.trans ?_ (nextStart_opened (s := s) (c := c) (n := n) (wait := n - b.ready) (src := src))
    rw [startPair, core_setThr, core_setThr, clearPair, core_setCore]
  · rw [startPair, thr_setThr_ne _ _ (by omega), thr_setThr, if_pos (.inl lt)]
    exact started_newThread (cmptOf_slot (by omega)) ground.ctxs ground.fixt
  · have cleared : Ground s c (clearPair (opened s c n (n - b.ready) src) c ((n + 6) % 16)) := ground.setCore ..
    rw [← Nat.add_assoc, startPair, thr_setThr]
    exact (started_newThread (cmptOf_slot (i := (n + 6) % 16 + 8) (by omega)) cleared.ctxs cleared.fixt).withWsp _
  · rw [image] at other
    cases other

theorem begun_single (image : b.image = none) (lt : b.lt = false) : ∃ t, threadStart c s = some t ∧ Begun s c b n t := by
  have ground := (ground_opened (s := s) (c := c) (n := n) (wait := n - b.ready) (src := src))
  refine ⟨setThr (opened s c n (n - b.ready) src) (c * 16 + (n + 6) % 16)
      (newThread (opened s c n (n - b.ready) src) (c * 16 + (n + 6) % 16) b (startPrv c) false (n + 6)), ?_, nextStart_opened,
    fun _ => ⟨?_, fun pair => ?_⟩, fun m x other => ?_⟩
  · simp only [threadStart, next, Option.map_some, image, lt]
    rfl
  · have prv : (if b.lt = true ∨ c < 16384 then Prv.u else .f) = startPrv c := by simp [lt, startPrv]
    rw [thr_setThr, prv]
    exact started_newThread (cmptOf_slot (by omega)) ground.ctxs ground.fixt
  · rw [lt] at pair
    cases pair
  · rw [image] at other
    cases other

/-- Whatever start the unit takes has begun then. -/
theorem threadStart_begins (claims : Claims s c b ((n + 6) % 16)) : ∃ t, threadStart c s = some t ∧ Begun s c b n t := by
  obtain ⟨-, low⟩ := claims_lt claims
  cases image : b.image with
  | some y => exact begun_image next image
  | none =>
    cases lt : b.lt with
    | true => exact begun_pair next image lt (low lt)
    | false => exact begun_single next image lt

end

/-! ## System-class starts (R378) -/

/-- The cycle in which slot `i` is claimed is the first of 16. -/
theorem takeCycle_within {i : Nat} (slot : i < 16) (n : Nat) : (takeCycle i n + 6) % 16 = i ∧ n ≤ takeCycle i n ∧ takeCycle i n < n + 16 := by
  unfold takeCycle
  omega

/-- A system-class message as a start (R143, R378). -/
def systemBegin (m : Msg) : Begin := { ctx := m.ctx, launch := none, pc := m.pc, regs := payloadRegs m.data, ready := 0 }

/-- The state in which packet `n` has left the system buffer in cycle `at_`. -/
def systemOpened (s : State) (c n at_ wait : Nat) : State :=
  let t := scale (tick s (cmptOfCore c) at_) (cmptOfCore c) 0x02 wait
  setCore { t with packets := del t.packets n } c { core { t with packets := del t.packets n } c with nextStart := at_ + 1 }

theorem ground_systemOpened {n at_ wait : Nat} : Ground s c (systemOpened s c n at_ wait) := by
  have ground := ground_scale (s := s) (c := c) (n := at_) (wait := wait)
  exact ⟨ground.threads, ground.ctxs, ground.fixt⟩

theorem systemStart_eq {n : Nat} {p : Packet} {m : Msg} (only : systemWaiting s c = [(n, p)]) (body : p.body = .msg m) (free : Idle s c 0) :
    systemStart c s = some (setThr (systemOpened s c n (systemCycle s c p) (systemCycle s c p - (p.time + 1))) (c * 16)
      (newThread (systemOpened s c n (systemCycle s c p) (systemCycle s c p - (p.time + 1))) (c * 16) (systemBegin m) .s false
        (systemCycle s c p + 6))) := by
  have oldest : firstSystem s c = some (n, p) := by simp [firstSystem, only]
  rw [systemStart, oldest]
  dsimp only
  rw [body]
  dsimp only
  rw [if_neg (by simp [freeAt_iff.mpr free])]
  simp only [systemOpened, systemBegin]

theorem systemStart_starts {n : Nat} {p : Packet} {m : Msg} (power : s.power = true) (only : systemWaiting s c = [(n, p)])
    (body : p.body = .msg m) (free : Idle s c 0) :
    ∃ at_ : Nat, ((at_ + 6) % 16 = 0 ∧ max (openFrom s c) (p.time + 1) ≤ at_ ∧ at_ < max (openFrom s c) (p.time + 1) + 16)
      ∧ Does s (.systemClassStart c) fun t => SameMemory s t ∧ ∃ b : Begin, Started s c (thr t (c * 16)) b .s false (at_ + 6) ∧ b.ctx = m.ctx
        ∧ b.launch = none ∧ b.pc = m.pc ∧ b.lt = false ∧ Payload m.data b.regs ∧ (∀ i : Nat, (i < 8 ∨ 16 ≤ i) → lookD b.regs i 0 = 0)
        ∧ (thr t (c * 16)).wsp = 0 := by
  have entry := systemStart_eq only body free
  have ground := ground_systemOpened (s := s) (c := c) (n := n) (at_ := systemCycle s c p) (wait := systemCycle s c p - (p.time + 1))
  refine ⟨systemCycle s c p, takeCycle_within (by decide) _, does_event power rfl entry (mem_of_some (mem_systemStart c s) entry) fun same =>
    ⟨same, systemBegin m, ?_, rfl, rfl, rfl, rfl, payload_payloadRegs _, fun i rest => payloadRegs_rest rest, ?_⟩⟩
  · rw [thr_setThr]
    exact started_newThread (cmptOf_slot (i := 0) (by decide)) ground.ctxs ground.fixt
  · rw [thr_setThr]
    rfl

/-- Settles O54: the scan takes the first start that claims the slot of its cycle (`nextTaken_some`, `nextTaken_only`), and the thread it makes
has its source's registers alone (`started_newThread`). -/
theorem threadStarts : Obligations.ThreadStarts := by
  unfold Obligations.ThreadStarts
  intro s c power
  refine ⟨fun src b n next => ?_, fun src b i only claims => ?_, pairwise_sources, fun n m q oldest => ?_, fun n m q oldest => ?_,
    fun q r deck free => ?_, fun n p m only body free => systemStart_starts power only body free⟩
  · obtain ⟨from_, ⟨first, claims⟩, before⟩ := nextTaken_some next
    obtain ⟨t, entry, begun⟩ := threadStart_begins next claims
    exact ⟨from_, first, claims, before, does_event power rfl entry (mem_of_some (mem_threadStart c s) entry) fun same =>
      ⟨same, begun.next, begun.fresh, begun.lands⟩⟩
  · obtain ⟨n, turn, low, high, next⟩ := nextTaken_only only claims
    exact ⟨n, ⟨turn, low, high⟩, next⟩
  · exact ⟨_, mem_sources_intake oldest rfl, rfl, rfl, rfl, rfl, rfl, rfl, payload_header _⟩
  · exact ⟨_, mem_sources_intake oldest rfl, rfl, rfl, rfl⟩
  · refine ⟨_, mem_sources_deck deck free, rfl, rfl, rfl, rfl, rfl, fun whole i few => (lookD_header i).trans ?_⟩
    simp [List.getD_eq_getElem?_getD, few, Nat.add_comm 1]

end Sys2Proof.Machine
end

section
/-! SUPPORT. Combination of two reduction packets (R190-R192): each field of it, and why neither order nor grouping matters. -/

namespace Sys2Proof.Machine

variable {p q r : RedPacket}

/-! ## Fields (R191) -/

/-- The value of a packet: its key above its index (R190). -/
def RedPacket.value (p : RedPacket) : BitVec 64 := p.key ++ p.idx

/-- Two packets with the same fields are equal; key and index may be given as the one value. -/
theorem RedPacket.eq_of_fields (op : p.op = q.op) (red : p.red = q.red) (cnt : p.cnt = q.cnt) (nan : p.nan = q.nan) (cand : p.cand = q.cand)
    (value : p.value = q.value) : p = q := by
  have key : p.key = q.key := by
    rw [← Laws.hi_append p.key p.idx, ← Laws.hi_append q.key q.idx]
    exact congrArg (·.extractLsb' 32 32) value
  have idx : p.idx = q.idx := by
    rw [← Laws.lo_append p.key p.idx, ← Laws.lo_append q.key q.idx]
    exact congrArg (·.extractLsb' 0 32) value
  cases p
  cases q
  simp_all

/-- All but key and index combine alike under every op. -/
theorem combine_eq (p q : RedPacket) : ∃ key idx, combine p q
    = { key := key, idx := idx, cnt := min (p.cnt + q.cnt) 0xFF_FFFF, cand := p.cand || q.cand, nan := p.nan || q.nan, op := p.op, red := p.red } := by
  unfold combine
  dsimp only
  split
  · cases hp : p.cand <;> cases hq : q.cand <;> simp
    split <;> simp
  · simp

@[simp] theorem combine_op (p q : RedPacket) : (combine p q).op = p.op := by
  obtain ⟨_, _, h⟩ := combine_eq p q
  rw [h]

@[simp] theorem combine_red (p q : RedPacket) : (combine p q).red = p.red := by
  obtain ⟨_, _, h⟩ := combine_eq p q
  rw [h]

@[simp] theorem combine_cnt (p q : RedPacket) : (combine p q).cnt = min (p.cnt + q.cnt) 0xFF_FFFF := by
  obtain ⟨_, _, h⟩ := combine_eq p q
  rw [h]

@[simp] theorem combine_nan (p q : RedPacket) : (combine p q).nan = (p.nan || q.nan) := by
  obtain ⟨_, _, h⟩ := combine_eq p q
  rw [h]

@[simp] theorem combine_cand (p q : RedPacket) : (combine p q).cand = (p.cand || q.cand) := by
  obtain ⟨_, _, h⟩ := combine_eq p q
  rw [h]

/-! ## The arithmetic ops -/

theorem value_combine (arith : p.op ≠ 0) : (combine p q).value = redOp p.op p.value q.value := by
  simp only [combine, if_neg arith, RedPacket.value]
  exact Laws.append_parts (n := 32) (m := 32) _

theorem toInt_redOp_min (x y : BitVec 64) : (redOp 2 x y).toInt = min x.toInt y.toInt := by
  simp only [redOp, BitVec.slt_iff_toInt_lt]
  split <;> omega

theorem toInt_redOp_max (x y : BitVec 64) : (redOp 3 x y).toInt = max x.toInt y.toInt := by
  simp only [redOp, BitVec.slt_iff_toInt_lt]
  split <;> omega

theorem redOp_comm (x y : BitVec 64) : ∀ op, redOp op x y = redOp op y x
  | 1 => BitVec.add_comm x y
  | 2 => BitVec.eq_of_toInt_eq (by rw [toInt_redOp_min, toInt_redOp_min, min_comm])
  | 3 => BitVec.eq_of_toInt_eq (by rw [toInt_redOp_max, toInt_redOp_max, max_comm])
  | 4 => BitVec.and_comm x y
  | 5 => BitVec.or_comm x y
  | 0 | _ + 6 => BitVec.xor_comm x y

theorem redOp_assoc (x y z : BitVec 64) : ∀ op, redOp op (redOp op x y) z = redOp op x (redOp op y z)
  | 1 => BitVec.add_assoc x y z
  | 2 => BitVec.eq_of_toInt_eq (by simp only [toInt_redOp_min, min_assoc])
  | 3 => BitVec.eq_of_toInt_eq (by simp only [toInt_redOp_max, max_assoc])
  | 4 => BitVec.and_assoc x y z
  | 5 => BitVec.or_assoc x y z
  | 0 | _ + 6 => BitVec.xor_assoc x y z

/-! ## Candidates of op 0 -/

/-- Candidate `p` goes before what `q` has: `q` has none, or a lower key, or the same key at a higher index (R191). -/
def RedPacket.Beats (p q : RedPacket) : Prop := q.cand = false ∨ q.key < p.key ∨ p.key = q.key ∧ p.idx < q.idx

theorem combine_neither (select : p.op = 0) (left : p.cand = false) (right : q.cand = false) :
    (combine p q).key = 0 ∧ (combine p q).idx = 0xFFFF_FFFF := by simp [combine, select, left, right]

theorem combine_left (select : p.op = 0) (left : p.cand = true) (beats : p.Beats q) :
    (combine p q).key = p.key ∧ (combine p q).idx = p.idx := by
  unfold combine
  dsimp only
  rw [if_pos select, if_neg (by simp [left]), if_pos (by simpa [left, RedPacket.Beats] using beats)]
  exact ⟨rfl, rfl⟩

theorem combine_right (select : p.op = 0) (right : q.cand = true) (beaten : p.cand = false ∨ ¬p.Beats q) :
    (combine p q).key = q.key ∧ (combine p q).idx = q.idx := by
  unfold combine
  dsimp only
  rw [if_pos select, if_neg (by simp [right]), if_neg]
  · exact ⟨rfl, rfl⟩
  · rcases beaten with none_ | loses
    · simp [right, none_]
    · simp only [RedPacket.Beats, right, Bool.true_eq_false, false_or, not_or] at loses
      obtain ⟨lower, later⟩ := loses
      simpa [right, lower] using fun _ => not_and.mp later

/-- The place of a packet among candidates: by rising key, then by falling index; without a candidate it comes before all. -/
def RedPacket.rank (p : RedPacket) : Nat := if p.cand then 2 ^ 32 * p.key.toNat + (2 ^ 32 - p.idx.toNat) else 0

theorem RedPacket.beats_iff_rank (left : p.cand = true) : p.Beats q ↔ q.rank < p.rank := by
  have := p.idx.isLt
  have := q.idx.isLt
  simp only [Beats, rank, left, if_true, BitVec.lt_def, ← BitVec.toNat_inj]
  cases q.cand
  · simp only [true_or, Bool.false_eq_true, if_false, true_iff]
    omega
  · simp only [Bool.true_eq_false, false_or, if_true]
    omega

/-- Of two packets the combination keeps the greater. -/
theorem rank_combine (select : p.op = 0) : (combine p q).rank = max p.rank q.rank := by
  by_cases left : p.cand = true ∧ p.Beats q
  · obtain ⟨left, beats⟩ := left
    obtain ⟨key, idx⟩ := combine_left select left beats
    have greater := (RedPacket.beats_iff_rank left).mp beats
    rw [max_eq_left greater.le]
    simp only [RedPacket.rank, combine_cand, key, idx, left, Bool.true_or]
  · cases right : q.cand
    · have none_ : p.cand = false := by
        by_contra has
        exact left ⟨by simpa using has, .inl right⟩
      simp [RedPacket.rank, right, none_]
    · have beaten : p.cand = false ∨ ¬p.Beats q := by
        cases has : p.cand
        · exact .inl rfl
        · exact .inr fun beats => left ⟨has, beats⟩
      obtain ⟨key, idx⟩ := combine_right select right beaten
      have less : p.rank ≤ q.rank := by
        rcases beaten with none_ | loses
        · simp [RedPacket.rank, none_]
        · cases has : p.cand
          · simp [RedPacket.rank, has]
          · exact Nat.not_lt.mp fun greater => loses ((RedPacket.beats_iff_rank has).mpr greater)
      rw [max_eq_right less]
      simp only [RedPacket.rank, combine_cand, key, idx, right, Bool.or_true]

/-- A packet in the form that a combination has: without a candidate its key and index say nothing. -/
def RedPacket.Settled (p : RedPacket) : Prop := p.cand = false → p.key = 0 ∧ p.idx = 0xFFFF_FFFF

theorem settled_combine (select : p.op = 0) : (combine p q).Settled := by
  intro none_
  obtain ⟨left, right⟩ := Bool.or_eq_false_iff.mp ((combine_cand p q).symm.trans none_)
  exact combine_neither select left right

/-- The place of a settled packet gives back its value. -/
theorem RedPacket.value_of_rank (settled : p.Settled) (settled' : q.Settled) (cand : p.cand = q.cand) (same : p.rank = q.rank) :
    p.value = q.value := by
  cases has : p.cand
  · obtain ⟨key, idx⟩ := settled has
    obtain ⟨key', idx'⟩ := settled' (cand ▸ has)
    simp only [value, key, idx, key', idx']
  · have := p.idx.isLt
    have := q.idx.isLt
    simp only [rank, has, ← cand, if_true] at same
    have key : p.key = q.key := BitVec.eq_of_toNat_eq (by omega)
    have idx : p.idx = q.idx := BitVec.eq_of_toNat_eq (by omega)
    simp only [value, key, idx]

/-! ## Order and grouping (R192) -/

theorem combine_comm (op : p.op = q.op) (red : p.red = q.red) : combine p q = combine q p := by
  have cand : (combine p q).cand = (combine q p).cand := by simp [Bool.or_comm]
  refine RedPacket.eq_of_fields (by simpa) (by simpa) (by simp [Nat.add_comm]) (by simp [Bool.or_comm]) cand ?_
  by_cases select : p.op = 0
  · refine RedPacket.value_of_rank (settled_combine select) (settled_combine (op ▸ select)) cand ?_
    rw [rank_combine select, rank_combine (op ▸ select), max_comm]
  · rw [value_combine select, value_combine (op ▸ select), ← op, redOp_comm]

theorem combine_assoc (op : p.op = q.op) : combine (combine p q) r = combine p (combine q r) := by
  have cand : (combine (combine p q) r).cand = (combine p (combine q r)).cand := by simp [Bool.or_assoc]
  refine RedPacket.eq_of_fields (by simp) (by simp) ?_ (by simp [Bool.or_assoc]) cand ?_
  · simp only [combine_cnt]
    omega
  · by_cases select : p.op = 0
    · have both : (combine p q).op = 0 := (combine_op p q).trans select
      refine RedPacket.value_of_rank (settled_combine both) (settled_combine select) cand ?_
      rw [rank_combine both, rank_combine select, rank_combine select, rank_combine (op ▸ select), max_assoc]
    · have both : (combine p q).op ≠ 0 := by rwa [combine_op]
      rw [value_combine both, value_combine select, value_combine select, value_combine (op ▸ select), combine_op, ← op, redOp_assoc]

/-- Settles O44: under op 0 a combination keeps the packet of the greater rank (`rank_combine`), under the other ops the value of an operation
that commutes and associates (`redOp_comm`, `redOp_assoc`). -/
theorem combining : Obligations.Combining := by
  unfold Obligations.Combining
  intro p q r op _ red _
  have arith {n : Nat} (is : p.op = n) (named : n ≠ 0) : (combine p q).value = redOp n p.value q.value :=
    is ▸ value_combine (is ▸ named)
  refine ⟨combine_comm op red, combine_assoc op, combine_cnt p q, combine_nan p q, combine_op p q, combine_red p q, combine_cand p q,
    fun select => ⟨combine_neither select, fun left beats => combine_left select left beats, fun right beaten => ?_⟩,
    fun is => arith is (by decide), fun is => arith is (by decide), fun is => arith is (by decide), fun is => arith is (by decide),
    fun is => arith is (by decide), fun is => arith is (by decide)⟩
  refine combine_right select right (beaten.imp_right fun lower => ?_)
  simp only [RedPacket.Beats, right, Bool.true_eq_false, false_or, BitVec.lt_def, ← BitVec.toNat_inj] at lower ⊢
  omega

end Sys2Proof.Machine
end

section
/-! SUPPORT. The reductions of a core (R192, R413, R414): the one of a number, after a packet of it has come, after it has been read, and
while copies of a result enter the send queue. -/

namespace Sys2Proof.Machine

variable {s : State} {k : Core} {r x : Reduction} {n c : Nat}

/-! ## The reduction of a number -/

theorem red_of_redOf (found : redOf k n = some r) : r.red = n := by
  simpa using List.find?_some found

/-- Every reduction of the number of `r` makes way for `r`. -/
theorem redOf_setRed (k : Core) (r : Reduction) (n : Nat) :
    redOf (setRed k r) n = (redOf k n).map fun x => if x.red = r.red then r else x := by
  have numbers : (fun x : Reduction => (if x.red = r.red then r else x).red == n) = fun x => x.red == n := by
    funext x
    split
    · next same => rw [same]
    · rfl
  rw [redOf, setRed, List.find?_map, redOf]
  exact congrArg (fun q => (k.reds.find? q).map _) numbers

theorem redOf_setRed_self (found : redOf k n = some x) (red : r.red = n) : redOf (setRed k r) n = some r := by
  rw [redOf_setRed, found, Option.map_some, if_pos ((red_of_redOf found).trans red.symm)]

theorem eq_of_mem_setRed (listed : x ∈ (setRed k r).reds) (red : x.red = r.red) : x = r := by
  obtain ⟨y, -, rfl⟩ := List.mem_map.mp listed
  split at red
  · next same => rw [if_pos same]
  · next other => exact absurd red other

/-- A reduction that has been read, is final and has no copy left is released (R414). -/
theorem redOf_freeRed (k : Core) (final : r.final = true) (copies : r.copies = 0) :
    redOf (freeRed (setRed k { r with read := true }) r.red) r.red = none := by
  refine List.find?_eq_none.mpr fun x kept named => ?_
  obtain ⟨listed, stays⟩ := List.mem_filter.mp kept
  have red : x.red = r.red := by simpa using named
  have is : x = { r with read := true } := eq_of_mem_setRed listed red
  have whole : Reduction.final { r with read := true } = true := final
  rw [is, whole] at stays
  simp [copies] at stays

/-! ## Copies of a result (R413) -/

/-- The reduction of number `n` has combined `acc`, and its mismatch flag is `mis`. -/
def Stands (k : Core) (n : Nat) (acc : Option RedPacket) (mis : Bool) : Prop := ∃ r, redOf k n = some r ∧ r.acc = acc ∧ r.mis = mis

variable {acc : Option RedPacket} {mis : Bool}

/-- One reduction's copies enter the send queue while it has room. -/
def feedRed (k : Core) (r : Reduction) : Core :=
  let n := 16 - k.sendQ.length
  if r.owed.isEmpty || n = 0 then k
  else
    let k := setRed k { r with owed := r.owed.drop n }
    { k with sendQ := k.sendQ ++ (r.owed.take n).map fun b =>
        { tid := none, ctx := r.ctx, bodies := [b], cls := .dispatch, before := 0, launch := r.launch, bcast := some r.red } }

theorem feedCopies_eq (k : Core) : feedCopies k = k.reds.foldl feedRed k := rfl

theorem Stands.feedRed (h : Stands k n acc mis) (same : r.red = n → r.acc = acc ∧ r.mis = mis) : Stands (feedRed k r) n acc mis := by
  unfold Machine.feedRed
  dsimp only
  split
  · exact h
  · obtain ⟨x, found, combined, flag⟩ := h
    refine ⟨_, (redOf_setRed ..).trans (congrArg _ found), ?_⟩
    dsimp only
    split
    · next named => exact same (named.symm.trans (red_of_redOf found))
    · exact ⟨combined, flag⟩

theorem Stands.foldl_feedRed {l : List Reduction} (same : ∀ r ∈ l, r.red = n → r.acc = acc ∧ r.mis = mis) :
    ∀ {k : Core}, Stands k n acc mis → Stands (l.foldl Machine.feedRed k) n acc mis := by
  induction l with
  | nil => exact id
  | cons r l ih =>
    exact fun h => ih (fun x listed => same x (List.mem_cons_of_mem _ listed)) (h.feedRed (same r List.mem_cons_self))

/-- The copies that enter the send queue change nothing of what has been combined. -/
theorem stands_feedCopies (found : redOf k n = some x) (red : r.red = n) : Stands (feedCopies (setRed k r)) n r.acc r.mis := by
  rw [feedCopies_eq]
  refine Stands.foldl_feedRed (fun y listed named => ?_) ⟨r, redOf_setRed_self found red, rfl, rfl⟩
  rw [eq_of_mem_setRed listed (named.trans red.symm)]
  exact ⟨rfl, rfl⟩

/-! ## A packet at its owner (R192) -/

theorem packets_scale (s : State) (c e v : Nat) : (scale s c e v).packets = s.packets := by
  unfold scale
  dsimp only
  split <;> rfl

@[simp] theorem packets_tick (s : State) (c n : Nat) : (tick s c n).packets = s.packets := tick_keeps State.packets (fun _ _ _ _ => rfl) s c n

theorem packets_countRecv (s : State) (c : Nat) (l : Option Nat) (n : Nat) : (countRecv s c l n).packets = s.packets := by
  cases l <;> rfl

/-- A count leaves the reductions of the core. -/
theorem redOf_countRecv (s : State) (c : Nat) (l : Option Nat) (n m : Nat) : redOf (core (countRecv s c l n) c) m = redOf (core s c) m := by
  cases l with
  | none => rfl
  | some l =>
    simp only [countRecv, core_setCore]
    rfl

/-- What a reduction has combined once `p` has come. -/
def joined (acc : Option RedPacket) (p : RedPacket) : RedPacket := match acc with | some q => combine q p | none => p

/-- The reduction then. -/
def Reduction.join (r : Reduction) (p : RedPacket) : Reduction := { r with acc := some (joined r.acc p) }

/-- A packet of another op sets the mismatch flag of its reduction, and one of its op combines with what came before. -/
theorem ownerTakes_of_some {p : RedPacket} (found : redOf (core s c) p.red = some r) : ∃ k, ownerTakes s c p = setCore s c k
    ∧ (r.op ≠ p.op → Stands k p.red r.acc true) ∧ (r.op = p.op → Stands k p.red (some (joined r.acc p)) r.mis) := by
  have red := red_of_redOf found
  simp only [ownerTakes, found]
  by_cases op : r.op = p.op
  · rw [if_neg (by simpa using op)]
    change ∃ k, (if ((r.join p).final && !r.final && r.bc) = true then _ else setCore s c (setRed (core s c) (r.join p))) = _ ∧ _
    split
    · exact ⟨_, rfl, fun other => absurd op other, fun _ => stands_feedCopies found red⟩
    · exact ⟨_, rfl, fun other => absurd op other, fun _ => ⟨r.join p, redOf_setRed_self found red, rfl, rfl⟩⟩
  · rw [if_pos (by simpa using op)]
    exact ⟨_, rfl, fun _ => ⟨{ r with mis := true }, redOf_setRed_self found red, rfl, rfl⟩, fun is => absurd is op⟩

theorem packets_ownerTakes (s : State) (c : Nat) (p : RedPacket) : (ownerTakes s c p).packets = s.packets := by
  cases found : redOf (core s c) p.red with
  | none =>
    simp only [ownerTakes, found]
    exact packets_scale ..
  | some r =>
    obtain ⟨k, is, -⟩ := ownerTakes_of_some found
    rw [is]
    rfl

/-! ## REDUCTION_COMBINE (R191, R192) -/

section

variable {m own pkg : Nat} {x y : Packet} {p q : RedPacket} {l : Option Nat} (power : s.power = true) (held : look s.packets n = some x)
  (body : x.body = .red p own pkg l) (ok : rising s.packets = true)
include power held body ok

/-- The owner takes a packet that has come. -/
theorem does_ownerTakes (ready : x.stage = .ready) : Does s (.reductionCombine n n) fun t => look t.packets n = none
    ∧ ∀ r : Reduction, redOf (core s x.core) p.red = some r → ∃ r' : Reduction, redOf (core t x.core) p.red = some r'
      ∧ (r.op ≠ p.op → r'.acc = r.acc ∧ r'.mis = true)
      ∧ (r.op = p.op → r'.mis = r.mis ∧ r'.acc = some (joined r.acc p)) := by
  generalize before : ({ tick s (cmptOfCore x.core) (x.time + 1) with packets := del (tick s (cmptOfCore x.core) (x.time + 1)).packets n } : State) = u
  have gone : look u.packets n = none := by
    rw [← before, packets_tick]
    exact look_del ok n
  have same : core u x.core = core s x.core := by
    rw [← before]
    exact core_tick ..
  have step : reductionCombine n n s = some (countRecv (ownerTakes u x.core p) x.core l p.cnt) := by
    simp only [reductionCombine, held, body, ready, beq_self_eq_true, if_true, before]
  refine does_event power rfl step (mem_of_some (mem_reductionCombine n n s) step) fun _ => ⟨?_, fun r found => ?_⟩
  · rw [packets_countRecv, packets_ownerTakes, gone]
  · rw [← same] at found
    obtain ⟨k, is, mismatch, combines⟩ := ownerTakes_of_some found
    rw [redOf_countRecv, is, core_setCore]
    by_cases op : r.op = p.op
    · obtain ⟨r', taken, combined, flag⟩ := combines op
      exact ⟨r', taken, fun other => absurd op other, fun _ => ⟨flag, combined⟩⟩
    · obtain ⟨r', taken, combined, flag⟩ := mismatch op
      exact ⟨r', taken, fun _ => ⟨combined, flag⟩, fun is => absurd is op⟩

/-- Two packets on the way to one owner become one. -/
theorem does_combine (other : n ≠ m) (held' : look s.packets m = some y) (body' : y.body = .red q own pkg l) (core : x.core = y.core)
    (op : p.op = q.op) (red : p.red = q.red) (few : p.cnt + q.cnt ≤ 0xFF_FFFF) (sent : x.stage ≠ .sending) (sent' : y.stage ≠ .sending) :
    Does s (.reductionCombine n m) fun t => look t.packets m = none
      ∧ look t.packets n = some { x with body := .red (combine p q) own pkg l } := by
  have step : reductionCombine n m s
      = some { s with packets := put (del s.packets m) n { x with body := .red (combine p q) own pkg l } } := by
    simp only [reductionCombine, held, body, if_neg other, held', body']
    exact if_pos (by simp [core, op, red, few, sent, sent'])
  refine does_event power rfl step rfl fun _ => ⟨?_, look_put ..⟩
  exact (look_put_ne _ _ other).trans (look_del ok m)

end

end Sys2Proof.Machine
end

section
/-! SUPPORT. The reduction instructions (R412-R414): what each enters in its core, and the two words that `smp.res` reads. -/

namespace Sys2Proof.Machine

variable {s t : State} {d a b : Reg}

/-! ## Two results (R290) -/

/-- A thread with two results of class A, the second in the next register. -/
def twoWritten (x : Thread) (n : Nat) (d : Reg) (v w : Word) : Thread :=
  setX (overtake (setX (overtake x d n) d.toNat v) (d + 1) n) (d + 1).toNat w

theorem boundAt_setX (x : Thread) (n : Nat) (v : Word) (r : Reg) : boundAt (setX x n v) r = boundAt x r := by
  simp only [boundAt, setX_qb]

theorem result_two {v w : Word} (unbound : boundAt (thr t s.cur) d = none) (unbound' : boundAt (thr t s.cur) (d + 1) = none) :
    result (result t s.cur d v 1) s.cur (regNext d) w 1
      = setThr t s.cur (twoWritten (thr t s.cur) (cycOf t (cmptOf s.cur)) d v w) := by
  rw [result_now unbound, regNext, result_now]
  · rw [thr_setThr, setThr_setThr]
    rfl
  · rw [thr_setThr, boundAt_setX]
    exact unbound'

theorem next_ne (d : Reg) : d + 1 ≠ d := by simp

/-- One more register written. -/
theorem Leaves.setX_append {y : Thread} {ds : List Reg} (h : Leaves s y ds) (d : Reg) (w : Word) :
    Leaves s (Machine.setX y d.toNat w) (ds ++ [d]) where
  regs r other := by
    rw [List.mem_append, not_or, List.mem_singleton] at other
    obtain ⟨before, here⟩ := other
    exact (getX_setX_ne _ _ (toNat_ne (Ne.symm here))).trans (h.regs r before)
  flags := (setX_flags ..).trans h.flags
  rm := (setX_rm ..).trans h.rm
  wsp := (setX_wsp ..).trans h.wsp
  depth := (setX_depth ..).trans h.depth
  other := (otherWin_setX ..).trans h.other
  prv := (setX_prv ..).trans h.prv
  it := (setX_it ..).trans h.it
  pprv := (setX_pprv ..).trans h.pprv
  tepc := (setX_tepc ..).trans h.tepc
  tca := (setX_tca ..).trans h.tca
  tval := (setX_tval ..).trans h.tval

theorem Leaves.twoWritten {y : Thread} (h : Leaves s y []) (n : Nat) (d : Reg) (v w : Word) :
    Leaves s (twoWritten y n d v w) [d, d + 1] :=
  (((h.overtake d n).setX d v).overtake (d + 1) n).setX_append (d + 1) w

theorem getX_twoWritten (y : Thread) (n : Nat) (v w : Word) (named : d ≠ 0) : getX (twoWritten y n d v w) d.toNat = v :=
  (getX_setX_ne _ _ (toNat_ne (next_ne d))).trans (getX_setX _ _ (toNat_ne named))

theorem getX_twoWritten_next (y : Thread) (n : Nat) (v w : Word) (named : d + 1 ≠ 0) : getX (twoWritten y n d v w) (d + 1).toNat = w :=
  getX_setX _ _ (toNat_ne named)

/-- An instruction of 4 bytes whose effect ends in one result of class A. -/
theorem issue_goes_result {i : Instr} {f : Form} {body : List Word → State → Eff × State} {rs : List Reg} {w : Word}
    (he : exec i s = issue f body s) (h : Ready s f.prv rs) (single : Single s)
    (hb : body (operands s f) (base s) = (.done, result t s.cur d w 1)) (unbound : boundAt (thr t s.cur) d = none) (hc : t.cur = s.cur)
    (hy : cycOf t (cmptOf s.cur) = cyc s) (hlen : f.len = 4 := by rfl) (hacc : (fun _ => false) = f.accepts.getD fun _ => false := by rfl)
    (hr : ∀ r ∈ f.reads, r ∈ rs := by simp) (hw : ∀ r ∈ f.writes, r ∈ rs := by simp)
    (hm : ∀ r ∈ f.more (f.reads.map (reg s)), r ∈ rs := by simp) :
    exec i s = .next (goes s t (setX (overtake (thr t s.cur) d (cyc s)) d.toNat w) (nextAt s 4) f.wait) := by
  rw [result_now unbound, hy] at hb
  have done := he.trans (issue_done h (.inr single) hb hc hy hacc hr hw hm)
  rwa [hlen, thr_setThr, goes_setThr] at done

/-- The instruction of outcome `o` has gone on with two results, all memory is the same, and `p` holds of the cores. -/
def YieldsTwo (s : State) (o : Host.Outcome State Fault Refusal) (d : Reg) (v w : Word) (p : Tab Core → Prop) : Prop :=
  ∃ u, o = .next u ∧ SameMemory s u ∧ Past s u [d, d + 1] ∧ (d ≠ 0 → getX (thr u s.cur) d.toNat = v)
    ∧ (d + 1 ≠ 0 → getX (thr u s.cur) (d + 1).toNat = w) ∧ p u.cores

/-- An instruction of 4 bytes whose effect ends in two results of class A. -/
theorem issue_yields_two {o : Host.Outcome State Fault Refusal} {f : Form} {body : List Word → State → Eff × State} {rs : List Reg} {v w : Word}
    {x : Thread} {p : Tab Core → Prop} (he : o = issue f body s) (h : Ready s f.prv rs) (single : Single s)
    (hb : body (operands s f) (base s) = (.done, result (result (setThr t s.cur x) s.cur d v 1) s.cur (regNext d) w 1)) (left : Leaves s x [])
    (unbound : boundAt x d = none) (unbound' : boundAt x (d + 1) = none) (hc : t.cur = s.cur) (hy : cycOf t (cmptOf s.cur) = cyc s)
    (mem : t.mem = s.mem) (after : p t.cores) (hlen : f.len = 4 := by rfl)
    (hacc : (fun _ => false) = f.accepts.getD fun _ => false := by rfl)
    (hr : ∀ r ∈ f.reads, r ∈ rs := by simp) (hw : ∀ r ∈ f.writes, r ∈ rs := by simp [regNext])
    (hm : ∀ r ∈ f.more (f.reads.map (reg s)), r ∈ rs := by simp) : YieldsTwo s o d v w p := by
  have written := result_two (d := d) (t := setThr t s.cur x) (v := v) (w := w) (by rwa [thr_setThr]) (by rwa [thr_setThr])
  rw [thr_setThr, setThr_setThr] at written
  rw [written] at hb
  have done := he.trans (issue_done h (.inr single) hb hc hy hacc hr hw hm)
  rw [hlen, thr_setThr] at done
  refine ⟨_, done, sameMemory_of_mem mem, (left.twoWritten _ d v w).past_goes f.wait, fun named => ?_, fun named => ?_, after⟩
  · rw [thr_goes]
    exact getX_twoWritten x _ v w named
  · rw [thr_goes]
    exact getX_twoWritten_next x _ v w named

/-! ## Words of a result (R414) -/

theorem natWord_append (x y : BitVec 32) : natWord (x.toNat * 2 ^ 32 + y.toNat) = x ++ y := by
  refine BitVec.eq_of_toNat_eq ?_
  have := x.isLt
  have := y.isLt
  rw [BitVec.toNat_append, ← Nat.shiftLeft_add_eq_or_of_lt y.isLt, Nat.shiftLeft_eq, natWord, BitVec.toNat_ofNat]
  omega

/-- A word from its halves. -/
theorem append_halves (w : Word) : BitVec.ofNat 32 (w.toNat / 2 ^ 32) ++ BitVec.ofNat 32 w.toNat = w := by
  rw [← natWord_append, natWord]
  refine BitVec.eq_of_toNat_eq ?_
  have := w.isLt
  simp only [BitVec.toNat_ofNat]
  omega

/-- A final result that no packet gave a candidate has no value. -/
def Reduction.lost (r : Reduction) (p : RedPacket) : Bool := r.final && !p.cand

theorem lost_eq (r : Reduction) (p : RedPacket) : (r.final && !p.cand) = r.lost p := rfl

/-- The value word. -/
theorem valueWord (r : Reduction) (p : RedPacket) : natWord (redWords r p).1 = if r.lost p then 0xFFFF_FFFF else p.key ++ p.idx := by
  rw [← natWord_append]
  exact apply_ite natWord (r.lost p = true) _ _

/-- The status word. -/
theorem statusWord_fields (r : Reduction) (p : RedPacket) (y : Word) (is : y = natWord (redWords r p).2) :
    (y.extractLsb' 40 24).toNat = min p.cnt 0xFF_FFFF ∧ y.getLsbD 39 = p.cand ∧ y.getLsbD 38 = p.nan ∧ y.getLsbD 37 = r.mis
      ∧ y.getLsbD 36 = r.lost p ∧ y.getLsbD 35 = r.final ∧ y.extractLsb' 0 35 = 0 := by
  have := p.cand.toNat_le
  have := p.nan.toNat_le
  have := r.mis.toNat_le
  have := (r.lost p).toNat_le
  have := r.final.toNat_le
  have sum : y.toNat = 2 ^ 35 * (r.final.toNat + 2 * (r.lost p).toNat + 4 * r.mis.toNat + 8 * p.nan.toNat + 16 * p.cand.toNat)
      + 2 ^ 40 * min p.cnt 0xFF_FFFF := by
    rw [is]
    simp only [redWords, natWord, bitAt_eq, BitVec.toNat_ofNat, lost_eq]
    omega
  refine ⟨?_, getLsbD_of_toNat ?_, getLsbD_of_toNat ?_, getLsbD_of_toNat ?_, getLsbD_of_toNat ?_, getLsbD_of_toNat ?_,
    BitVec.eq_of_toNat_eq ?_⟩
  · rw [toNat_field, sum]
    omega
  · omega
  · omega
  · omega
  · omega
  · omega
  · rw [toNat_field, sum, show (0 : BitVec 35).toNat = 0 from rfl]
    omega

/-! ## Reading a result (R414) -/

/-- The state after a read of `r`: a final result has been read, and is released where no copy is left. -/
def resultRead (s : State) (r : Reduction) : State :=
  if r.final then setCore s (coreOf s.cur) (freeRed (setRed (core s (coreOf s.cur)) { r with read := true }) r.red) else s

/-- The issuing thread after a read, which is an acquire when it has waited (R414). -/
def reader (wait : Bool) (s : State) : Thread := if wait then discardAhead (issuer s) else issuer s

theorem leaves_reader (wait : Bool) : Leaves s (reader wait s) [] := by
  cases wait
  · exact leaves_issuer
  · exact leaves_issuer.discardAhead

theorem boundAt_reader (wait : Bool) (r : Reg) : boundAt (reader wait s) r = boundAt (issuer s) r := by
  cases wait <;> rfl

theorem resultRead_keeps (s : State) (r : Reduction) :
    (resultRead s r).cur = s.cur ∧ (resultRead s r).mem = s.mem ∧ ∀ k, cycOf (resultRead s r) k = cycOf s k := by
  unfold resultRead
  split <;> exact ⟨rfl, rfl, fun _ => rfl⟩

/-- The effect of a read, before its results are written. -/
theorem resultRead_base (wait : Bool) (r : Reduction) :
    (if wait then acquireNow (resultRead (base s) r) s.cur else resultRead (base s) r) = setThr (resultRead s r) s.cur (reader wait s) := by
  have read : resultRead (base s) r = setThr (resultRead s r) s.cur (issuer s) := by
    unfold resultRead
    split <;> rfl
  rw [read]
  cases wait
  · rfl
  · simp [acquireNow, reader]

theorem redRead_yields {r : Reduction} {p : RedPacket} (wait : Bool) (ready : Ready s .u [a, d, d + 1]) (single : Single s)
    (found : redOf (core s (coreOf s.cur)) ((reg s a).toNat % 2 ^ 28) = some r) (acc : r.acc = some p) (final : wait = true → r.final = true) :
    YieldsTwo s (redRead wait d a s) d (natWord (redWords r p).1) (natWord (redWords r p).2) fun cores => cores = (resultRead s r).cores := by
  obtain ⟨cur, mem, clock⟩ := resultRead_keeps s r
  have goesOn : (wait && !r.final) = false := by
    cases wait
    · rfl
    · simp [final rfl]
  refine issue_yields_two (t := resultRead s r) rfl ready single ?_ (leaves_reader wait)
    ((boundAt_reader ..).trans (ready.unbound d (by simp))) ((boundAt_reader ..).trans (ready.unbound (d + 1) (by simp))) cur (clock _) mem rfl
  rw [← resultRead_base]
  simp only [operands, arg, List.map_cons, List.map_nil, List.append_nil, List.getD_cons_zero, base_cur, core_base, found, goesOn, Bool.false_eq_true,
    if_false, acc, resultRead]

/-- What `smp.res` does with a reduction `r` that has combined `p` (R414). -/
def ReadsResult (s t : State) (d : Reg) (r : Reduction) (p : RedPacket) : Prop :=
  Past s t [d, d + 1] ∧ SameMemory s t ∧ (d ≠ 0 → getX (thr t s.cur) d.toNat = if r.lost p then 0xFFFF_FFFF else p.key ++ p.idx)
    ∧ ∃ y : Word, (d ≠ 31 → getX (thr t s.cur) (d + 1).toNat = y) ∧ (y.extractLsb' 40 24).toNat = min p.cnt 0xFF_FFFF
      ∧ y.getLsbD 39 = p.cand ∧ y.getLsbD 38 = p.nan ∧ y.getLsbD 37 = r.mis ∧ y.getLsbD 36 = r.lost p ∧ y.getLsbD 35 = r.final
      ∧ y.extractLsb' 0 35 = 0

theorem smpRes_reads {i : Instr} {r : Reduction} {p : RedPacket} (wait : Bool) (he : exec i s = redRead wait d a s)
    (ready : Ready s .u [a, d, d + 1]) (single : Single s)
    (found : redOf (core s (coreOf s.cur)) ((reg s a).toNat % 2 ^ 28) = some r) (acc : r.acc = some p) (final : wait = true → r.final = true) :
    Does s i fun t => ReadsResult s t d r p
      ∧ (r.final = true → r.copies = 0 → redOf (core t (coreOf s.cur)) ((reg s a).toNat % 2 ^ 28) = none) := by
  obtain ⟨u, step, same, past, value, status, cores⟩ := redRead_yields wait ready single found acc final
  refine ⟨u, he.trans step, ⟨past, same, fun named => (value named).trans (valueWord r p), _, fun named => status ?_,
    statusWord_fields r p _ rfl⟩, fun whole left => ?_⟩
  · intro none_
    exact named (by rw [← BitVec.add_sub_cancel d 1, none_]; rfl)
  · have here : core u (coreOf s.cur) = freeRed (setRed (core s (coreOf s.cur)) { r with read := true }) r.red := by
      rw [core, cores, ← core, resultRead, if_pos whole, core_setCore]
    rw [here, ← red_of_redOf found]
    exact redOf_freeRed _ whole left

/-! ## Injection (R412) -/

/-- The packet that `smp.inj` enters: `v` its operand, `x` its value, `f` its flags. -/
def injected (v : Nat) (x : Word) (f : Nat) : RedPacket :=
  let ex := bits v 63 60 == 0 && bit f 0
  { key := if ex then 0 else BitVec.ofNat 32 (x.toNat / 2 ^ 32), idx := if ex then 0xFFFF_FFFF#32 else BitVec.ofNat 32 x.toNat
    cnt := 1, cand := !ex, nan := bit f 1, op := bits v 63 60, red := bits v 27 0 }

/-- A packet of op 0 that says so has no candidate; any other has its operand as value. -/
theorem injected_value (v : Nat) (x : Word) (f : Nat) :
    if (injected v x f).op = 0 ∧ bit f 0 = true then
      (injected v x f).cand = false ∧ (injected v x f).key = 0 ∧ (injected v x f).idx = 0xFFFF_FFFF
    else (injected v x f).cand = true ∧ (injected v x f).key ++ (injected v x f).idx = x := by
  have without : (bits v 63 60 == 0 && bit f 0) = true ↔ (injected v x f).op = 0 ∧ bit f 0 = true := by simp [injected]
  cases ex : bits v 63 60 == 0 && bit f 0
  · rw [if_neg (mt without.mpr (by simp [ex]))]
    simp only [injected, ex]
    exact ⟨rfl, append_halves x⟩
  · rw [if_pos (without.mp ex)]
    simp only [injected, ex]
    exact ⟨rfl, rfl, rfl⟩

/-- Whether an operand `v` names an owner in another package. -/
def remote (s : State) (v : Nat) : Bool := bit v 53 && bits v 59 54 != s.pkg

/-- The core to which `smp.inj` sends its packet, where there is one (R412). -/
def injectTarget (s : State) (v : Nat) : Option Nat :=
  if remote s v then
    if bits v 52 39 < Config.remoteCores (issuer s).ctx (bits v 59 54) then some (awayCore (bits v 59 54) (bits v 52 39)) else none
  else physCore (base s) s.cur (bits v 52 39)

/-- The packet on its way to its owner. -/
def injectBody (s : State) (v : Nat) (p : RedPacket) : Body :=
  .red p (bits v 52 39) (if remote s v then bits v 59 54 else s.pkg) (issuer s).launch

/-- Whether an operand of `smp.inj` and its flags are malformed. -/
def injectMalformed (v f : Nat) : Bool := 6 < bits v 63 60 || (!bit v 53 && bits v 59 54 != 0) || bits v 38 28 != 0 || 4 ≤ f

theorem smpInj_passes {v f o : Nat} {x : Word} (ready : Ready s .u [a, b, b + 1]) (single : Single s) (operand : (reg s a).toNat = v)
    (value : reg s b = x) (flags : (reg s (b + 1)).toNat = f) (formed : injectMalformed v f = false)
    (target : injectTarget s v = some o) (room : (core s (coreOf s.cur)).sendQ.length < 16) :
    Passes s (.smpInj a b) fun t => ∃ e : SendEntry, (core t (coreOf s.cur)).sendQ = (core s (coreOf s.cur)).sendQ ++ [e]
      ∧ e.bodies = [(injectBody s v (injected v x f), o)] ∧ e.cls = .request ∧ e.tid = some s.cur := by
  have queue : sendRoom (base s) (coreOf s.cur) = true := decide_eq_true room
  refine issue_passes (t := enqueue (base s) s.cur .request [(injectBody s v (injected v x f), o)]) rfl ready single ?_
    (by simpa [enqueue] using leaves_issuer) rfl rfl rfl (fun y _ => ?_) (hr := by simp [regNext])
  · rw [injectTarget, remote] at target
    rw [injectMalformed] at formed
    simp only [operands, arg, regNext, List.map_cons, List.map_nil, List.append_nil, List.getD_cons_zero, List.getD_cons_succ, base_cur, thr_base,
      operand, value, flags, formed, Bool.false_eq_true, if_false, show (base s).pkg = s.pkg from rfl, target, queue, Bool.not_true]
    rfl
  · rw [core_setThr, enqueue, core_setCore]
    exact ⟨_, rfl, rfl, rfl, rfl⟩

/-! ## Configuration (R413) -/

theorem wordAt_wordsOfNat (x : Nat) {i n : Nat} (few : i < n) : cw (wordsOfNat x n) i = x / 2 ^ (64 * i) % 2 ^ 64 := by
  simp [cw, wordsOfNat, List.getD_eq_getElem?_getD, few]

/-- Whether an operand of `smp.res.cfg` is malformed. -/
def configMalformed (v : Nat) : Bool := bits v 59 28 != 0 || 6 < bits v 63 60

/-- The issuing thread has taken the next number of its send sequence. -/
def numbered (s : State) : Thread := { issuer s with sendSeq := (issuer s).sendSeq + 1 }

theorem leaves_numbered : Leaves s (numbered s) [] :=
  ⟨fun _ _ => rfl, rfl, rfl, rfl, rfl, rfl, rfl, rfl, rfl, rfl, rfl, rfl⟩

theorem nextSeq_base : nextSeq (base s) s.cur = setThr s s.cur (numbered s) := by
  rw [nextSeq, thr_base, setThr_base]
  rfl

/-- The reduction that `smp.res.cfg` enters: `v` its operand, `ws` its block (R413). -/
def configured (s : State) (v : Nat) (ws : List Word) : Reduction :=
  { red := bits v 27 0, op := bits v 63 60, n := bits (cw ws 0) 63 40, bc := bit (cw ws 0) 39, prio := bits (cw ws 0) 38 37, k := bits (cw ws 0) 36 28
    cmask := cw ws 1, pmask := cw ws 2, stid := logicalTid (setThr s s.cur (numbered s)) s.cur, seq := (issuer s).sendSeq + 1
    ctx := (issuer s).ctx, launch := (issuer s).launch }

/-- A block that `smp.res.cfg` takes for reduction `red` (R413). -/
structure BlockOk (s : State) (red : Nat) (ws : List Word) : Prop where
  formed : (bits (cw ws 0) 63 40 = 0 || bits (cw ws 0) 27 0 != 0 || 2 ^ 32 ≤ cw ws 1 || cw ws 3 != 0) = false
  new : redOf (core s (coreOf s.cur)) red = none
  cores : (receivers (base s) s.cur (cw ws 1) (bits (cw ws 0) 36 28) false).isSome = true
  packages : ((List.range 64).any fun p => bit (cw ws 2) p && p != s.pkg && Config.remoteCores (issuer s).ctx p == 0) = false

section

variable (ready : Ready s .u [a, b, d]) (single : Single s) (formed : configMalformed (reg s a).toNat = false) (aligned : (reg s b).toNat % 32 = 0)
include ready single formed aligned

theorem smpResCfg_asks : Asks s (.smpResCfg d a b) .load (reg s b) 32 .tier := by
  refine asks_of_issue rfl ready (.inr single) fun ps fresh passed => ?_
  obtain ⟨u, asks, asked⟩ := ownWords_asks (n := 4) (by simpa using fresh) passed
  refine ⟨u, (if_neg (by rw [← configMalformed]; simpa [operands, arg] using formed)).trans
    ((if_neg (by simpa [operands, arg] using aligned)).trans ?_), asked⟩
  exact congrArg (fun r : Res (List Word) => r.run _) asks

theorem smpResCfg_configures {x : Nat} {ws : List Word} (had : Had s x) (words : ws = wordsOfNat x 4)
    (block : BlockOk s (bits (reg s a).toNat 27 0) ws) (room : (core s (coreOf s.cur)).reds.length < 16) :
    Does s (.smpResCfg d a b) fun t => Gives s t d (((issuer s).sendSeq + 1).setWidth 64) ∧ SameMemory s t
      ∧ (thr t s.cur).sendSeq = (issuer s).sendSeq + 1
      ∧ (core t (coreOf s.cur)).reds = (core s (coreOf s.cur)).reds ++ [configured s (reg s a).toNat ws] := by
  obtain ⟨o, own, got⟩ := had
  obtain ⟨fields, new, cores, packages⟩ := block
  have given := ownWords_had (s := base s) (tid := s.cur) (by rwa [thr_base]) got (reg s b) 4 .tier
  rw [← words] at given
  generalize after : setCore (setThr s s.cur (numbered s)) (coreOf s.cur)
    { core s (coreOf s.cur) with reds := (core s (coreOf s.cur)).reds ++ [configured s (reg s a).toNat ws] } = t
  have thread : thr t s.cur = numbered s := by rw [← after, thr_setCore, thr_setThr]
  have step := issue_goes_result (i := .smpResCfg d a b) (t := t) (d := d) (w := ((issuer s).sendSeq + 1).setWidth 64) rfl ready single ?_
    (by rw [thread]; exact ready.unbound d (by simp)) (by rw [← after]; rfl) (by rw [← after]; rfl)
  · rw [thread] at step
    refine ⟨_, step, gives_goes ((leaves_numbered.overtake d _).setX d _) fun named => getX_setX _ _ (toNat_ne named), ?_, ?_, ?_⟩
    · exact sameMemory_of_mem (by rw [goes_mem, ← after]; rfl)
    · rw [thr_goes]
      exact setX_sendSeq ..
    · rw [goes, core_setThr, ← after, core_setCore]
  · refine (if_neg (by rw [← configMalformed]; simpa [operands, arg] using formed)).trans ((if_neg (by simpa [operands, arg] using aligned)).trans ?_)
    simp only [operands, arg, List.map_cons, List.map_nil, List.append_nil, List.getD_cons_zero, List.getD_cons_succ, base_cur, given, Res.run,
      thr_base, core_base, fields, new, Option.isSome_none, Bool.or_false, Bool.false_eq_true, if_false, show (base s).pkg = s.pkg from rfl, packages,
      Option.isNone_eq_false_iff.mpr cores, Nat.not_le.mpr room, nextSeq_base, thr_setThr, core_setThr]
    rw [← after]
    rfl

end

end Sys2Proof.Machine
end

section
/-! O45: reductions are injected, configured, combined at their owner and read (R192, R412-R414). -/

namespace Sys2Proof.Machine

variable {s : State} {d a b : Reg}

/-! ## Operands as numbers -/

theorem remote_iff (s : State) (v : Nat) : remote s v = true ↔ v / 2 ^ 53 % 2 = 1 ∧ v / 2 ^ 54 % 2 ^ 6 ≠ s.pkg := by
  simp [remote, bit, bits]

theorem injectMalformed_false {w : Word} {f : Nat} (op : w.toNat / 2 ^ 60 ≤ 6) (pkg : bit w.toNat 53 = true ∨ bits w.toNat 59 54 = 0)
    (zero : bits w.toNat 38 28 = 0) (flags : f < 4) : injectMalformed w.toNat f = false := by
  have package : (!bit w.toNat 53 && bits w.toNat 59 54 != 0) = false := by
    rcases pkg with there | here
    · simp [there]
    · simp [here]
  rw [injectMalformed, bits_chan, package, zero, decide_eq_false (Nat.not_lt.mpr op), decide_eq_false (Nat.not_le.mpr flags)]
  rfl

theorem configMalformed_false {w : Word} (zero : bits w.toNat 59 28 = 0) (op : w.toNat / 2 ^ 60 ≤ 6) : configMalformed w.toNat = false := by
  rw [configMalformed, bits_chan, zero, decide_eq_false (Nat.not_lt.mpr op)]
  rfl

/-- The core of the owner, in this package or in another. -/
theorem injectTarget_eq {v o : Nat} {away : Prop} (is : remote s v = true ↔ away)
    (there : away → bits v 52 39 < Config.remoteCores (issuer s).ctx (bits v 59 54) ∧ o = awayCore (bits v 59 54) (bits v 52 39))
    (here : ¬away → physCore (base s) s.cur (bits v 52 39) = some o) : injectTarget s v = some o := by
  by_cases far : away
  · obtain ⟨inside, core⟩ := there far
    exact (if_pos (is.mpr far)).trans ((if_pos inside).trans (congrArg some core.symm))
  · exact (if_neg (mt is.mp far)).trans (here far)

theorem bits_red (v : Nat) : bits v 27 0 = v % 2 ^ 28 := by simp [bits]

theorem cw_lt (ws : List Word) (i : Nat) : cw ws i < 2 ^ 64 := BitVec.isLt _

/-- The upper 24 bits of a block's first word count its packets. -/
theorem bits_count {w : Nat} (word : w < 2 ^ 64) : bits w 63 40 = w / 2 ^ 40 := Nat.mod_eq_of_lt (by omega)

theorem blockOk {red : Nat} {ws : List Word} (count : 1 ≤ cw ws 0 / 2 ^ 40) (zero : cw ws 0 % 2 ^ 28 = 0) (mask : cw ws 1 < 2 ^ 32)
    (packages : ∀ p < 64, (cw ws 2).testBit p = true → p ≠ s.pkg → Config.remoteCores (issuer s).ctx p ≠ 0) (last : cw ws 3 = 0)
    (new : redOf (core s (coreOf s.cur)) red = none)
    (cores : (receivers (base s) s.cur (cw ws 1) (bits (cw ws 0) 36 28) false).isSome = true) : BlockOk s red ws := by
  refine ⟨?_, new, cores, List.any_eq_false.mpr fun p listed => ?_⟩
  · rw [bits_count (cw_lt ..), bits_red, zero, last, decide_eq_false (Nat.ne_of_gt count), decide_eq_false (Nat.not_le.mpr mask)]
    rfl
  · have named := packages p (List.mem_range.mp listed)
    rw [Nat.testBit_eq_decide_div_mod_eq] at named
    simpa [bit] using named

/-! ## The four clauses -/

/-- `smp.inj` enters its packet (R412). -/
theorem smpInj_enters {o : Nat} {away : Prop} [Decidable away] (single : Single s) (ready : Ready s .u [a, b, b + 1])
    (op : (reg s a).toNat / 2 ^ 60 ≤ 6) (pkg : bit (reg s a).toNat 53 = true ∨ bits (reg s a).toNat 59 54 = 0)
    (zero : bits (reg s a).toNat 38 28 = 0) (flags : (reg s (b + 1)).toNat < 4) (room : (core s (coreOf s.cur)).sendQ.length < 16)
    (is : remote s (reg s a).toNat = true ↔ away) (target : injectTarget s (reg s a).toNat = some o) :
    Does s (.smpInj a b) fun t => Past s t ∧ SameMemory s t ∧ ∃ (e : SendEntry) (r : RedPacket),
      (core t (coreOf s.cur)).sendQ = (core s (coreOf s.cur)).sendQ ++ [e]
      ∧ e.bodies = [(.red r (bits (reg s a).toNat 52 39) (if away then bits (reg s a).toNat 59 54 else s.pkg) (issuer s).launch, o)]
      ∧ e.cls = .request ∧ e.tid = some s.cur ∧ r.cnt = 1 ∧ r.op = (reg s a).toNat / 2 ^ 60 ∧ r.red = (reg s a).toNat % 2 ^ 28
      ∧ r.nan = (reg s (b + 1)).getLsbD 1
      ∧ if r.op = 0 ∧ (reg s (b + 1)).getLsbD 0 = true then r.cand = false ∧ r.key = 0 ∧ r.idx = 0xFFFF_FFFF
        else r.cand = true ∧ r.key ++ r.idx = reg s b := by
  obtain ⟨u, step, same, past, e, queue, bodies, cls, tid⟩ :=
    smpInj_passes ready single rfl rfl rfl (injectMalformed_false op pkg zero flags) target room
  refine ⟨u, step, past, same, e, injected (reg s a).toNat (reg s b) (reg s (b + 1)).toNat, queue, bodies.trans ?_, cls, tid, rfl,
    bits_chan _, bits_red _, bit_toNat .., ?_⟩
  · simp only [injectBody, is]
  · rw [← bit_toNat]
    exact injected_value ..

/-- Settles O45: the packet enters the send queue (`smpInj_passes`), the block's reduction the core's list (`smpResCfg_configures`), a packet at
its owner one reduction of it (`ownerTakes_of_some`), and `smp.res` reads the words of `redWords` (`statusWord_fields`). -/
theorem reductions : Obligations.Reductions := by
  unfold Obligations.Reductions
  intro s d a b single
  refine ⟨fun ready op pkg zero flags room o there here => ?_, fun ready zero op aligned => ?_, fun r p ready found acc => ?_,
    fun n m x y p own pkg l power held body ok => ⟨fun here => ?_, fun q other held' body' core op red few sent sent' => ?_⟩⟩
  · exact smpInj_enters single ready op (pkg.imp_left (decide_eq_true ·)) zero flags room (remote_iff ..)
      (injectTarget_eq (remote_iff ..) there here)
  · have formed := configMalformed_false zero op
    refine ⟨smpResCfg_asks ready single formed aligned, fun x had => ?_⟩
    have word (i : Nat) (few : i < 4) := (wordAt_wordsOfNat x few).symm
    simp only [word 0 (by decide), word 1 (by decide), word 2 (by decide), word 3 (by decide)]
    intro count low mask packages last new cores room
    obtain ⟨u, step, gives, same, seq, reds⟩ := smpResCfg_configures ready single formed aligned had rfl
      (blockOk count low mask packages last (by rwa [bits_red]) cores) room
    exact ⟨u, step, gives, same, seq, _, reds, bits_red _, bits_chan _, bits_count (cw_lt ..), rfl, rfl, rfl, rfl, rfl⟩
  · have final : r.final = decide (r.n ≤ p.cnt) := by simp only [Reduction.final, acc]
    have lost : r.lost p = (decide (r.n ≤ p.cnt) && !p.cand) := by rw [← lost_eq, final]
    have reads (i : Instr) (wait : Bool) (he : exec i s = redRead wait d a s) (whole : wait = true → r.final = true) :=
      smpRes_reads wait he ready single found acc whole
    simp only [ReadsResult, final, lost] at reads
    refine ⟨reads (.smpResNw d a) false rfl nofun, fun whole => ?_⟩
    obtain ⟨u, step, read, released⟩ := reads (.smpResW d a) true rfl fun _ => whole
    exact ⟨u, step, read, released whole⟩
  · obtain ⟨u, step, gone, taken⟩ := does_ownerTakes power held body ok here
    refine ⟨u, step, gone, fun r found => ?_⟩
    obtain ⟨r', found', mismatch, combines⟩ := taken r found
    refine ⟨r', found', mismatch, fun op => ?_⟩
    obtain ⟨flag, combined⟩ := combines op
    exact ⟨flag, combined⟩
  · exact does_combine power held body ok other held' body' core op red few sent sent'

end Sys2Proof.Machine
end

section
/-! SUPPORT. The rank order of a marking round (R202): the order of values (R260), insertion into a sorted list, and what ranking
gives. -/

namespace Sys2Proof.Machine

/-! ## The order of values (R260) -/

/-- The exponent of a value split into its two natural parts is a power again. -/
theorem FVal.toRat_fin (neg : Bool) (m : Nat) (e : Int) : (FVal.fin neg m e).toRat = (signedM neg m : Rat) * (2 : Rat) ^ e := by
  have split : e = (e.toNat : Int) - ((-e).toNat : Int) := by omega
  conv_rhs => rw [split, zpow_sub₀ two_ne_zero, zpow_natCast, zpow_natCast]
  exact mul_div_assoc ..

/-- Where a value that is not NaN stands in the order of R260: −∞ first, +∞ last. -/
def FVal.level : FVal → WithBot (WithTop Rat)
  | .inf false => ((⊤ : WithTop Rat) : WithBot (WithTop Rat))
  | .fin neg m e => (((FVal.fin neg m e).toRat : WithTop Rat) : WithBot (WithTop Rat))
  | _ => ⊥

/-- Finite values compare as the numbers that they stand for. -/
theorem flt_fin (a b : Bool) (m n : Nat) (e k : Int) :
    flt (.fin a m e) (.fin b n k) = true ↔ (FVal.fin a m e).toRat < (FVal.fin b n k).toRat := by
  have scaled (x : Int) (i : Int) (h : min e k ≤ i) :
      (x : Rat) * (2 : Rat) ^ i = ((x * 2 ^ (i - min e k).toNat : Int) : Rat) * (2 : Rat) ^ min e k := by
    have exp : i = ((i - min e k).toNat : Int) + min e k := by omega
    conv_lhs => rw [exp, zpow_add₀ two_ne_zero, zpow_natCast, ← mul_assoc]
    push_cast
    rfl
  rw [FVal.toRat_fin, FVal.toRat_fin, scaled _ e (min_le_left ..), scaled _ k (min_le_right ..),
    mul_lt_mul_iff_left₀ (zpow_pos two_pos _), Int.cast_lt]
  exact decide_eq_true_iff

theorem flt_iff {x y : FVal} (hx : x ≠ .nan) (hy : y ≠ .nan) : flt x y = true ↔ x.level < y.level := by
  match x, y with
  | .inf a, .inf b => cases a <;> cases b <;> simp [flt, FVal.level]
  | .inf a, .fin .. => cases a <;> simp [flt, FVal.level]
  | .fin .., .inf true => simp [flt, FVal.level]
  | .fin .., .inf false => exact iff_of_true rfl (WithBot.coe_lt_coe.mpr (WithTop.coe_lt_top _))
  | .fin a m e, .fin b n k => simp only [flt_fin, FVal.level, WithBot.coe_lt_coe, WithTop.coe_lt_coe]

/-! ## Insertion into a sorted list -/

/-- An insertion keeps a list sorted by `R` when `r`, by which it finds the place, agrees with `R`. -/
theorem pairwise_orderedInsert {α : Type} {r R : α → α → Prop} [DecidableRel r] {a : α} {l : List α} (before : ∀ y ∈ l, r a y → R a y)
    (after : ∀ y ∈ l, ¬r a y → R y a) (rest : ∀ y ∈ l, ∀ z ∈ l, r a y → R y z → R a z) (sorted : l.Pairwise R) :
    (l.orderedInsert r a).Pairwise R := by
  induction l with
  | nil => simp
  | cons y l ih =>
    obtain ⟨first, sorted⟩ := List.pairwise_cons.mp sorted
    rw [List.orderedInsert_cons]
    split
    · next here =>
      refine List.pairwise_cons.mpr ⟨fun z hz => ?_, List.pairwise_cons.mpr ⟨first, sorted⟩⟩
      rcases List.mem_cons.mp hz with rfl | hz
      · exact before z List.mem_cons_self here
      · exact rest y List.mem_cons_self z (List.mem_cons_of_mem _ hz) here (first z hz)
    · next there =>
      refine List.pairwise_cons.mpr ⟨fun z hz => ?_, ih (fun z hz => before z (List.mem_cons_of_mem _ hz))
        (fun z hz => after z (List.mem_cons_of_mem _ hz))
        (fun x hx z hz => rest x (List.mem_cons_of_mem _ hx) z (List.mem_cons_of_mem _ hz)) sorted⟩
      rcases List.mem_cons.mp ((List.perm_orderedInsert r a l).mem_iff.mp hz) with rfl | hz
      · exact after y List.mem_cons_self there
      · exact first z hz

/-! ## The rank order (R202) -/

/-- A position of higher key, or of the same key and a lower number, comes first. -/
def Ranks (x y : Nat × FVal) : Prop := flt y.2 x.2 = true ∨ (flt x.2 y.2 = false ∧ x.1 < y.1)

theorem insKey_eq (x : Nat × FVal) (l : List (Nat × FVal)) : insKey x l = l.orderedInsert (fun x y => flt y.2 x.2 = true) x := by
  induction l with
  | nil => rfl
  | cons y l ih => rw [insKey, List.orderedInsert_cons, ih]

/-- A position that is higher than all before enters behind those of its key. -/
theorem insKey_ranks {x : Nat × FVal} {l : List (Nat × FVal)} (later : ∀ y ∈ l, y.1 < x.1) (key : x.2 ≠ .nan)
    (keys : ∀ y ∈ l, y.2 ≠ .nan) (sorted : l.Pairwise Ranks) : (insKey x l).Pairwise Ranks := by
  rw [insKey_eq]
  refine pairwise_orderedInsert (fun y _ here => .inl here) (fun y hy there => .inr ⟨by simpa using there, later y hy⟩)
    (fun y hy z hz here next => .inl ?_) sorted
  rw [flt_iff (keys y hy) key] at here
  rw [flt_iff (keys z hz) key]
  rcases next with lower | ⟨notHigher, -⟩
  · exact ((flt_iff (keys z hz) (keys y hy)).mp lower).trans here
  · rw [← Bool.not_eq_true, flt_iff (keys y hy) (keys z hz), not_lt] at notHigher
    exact notHigher.trans_lt here

/-- Positions that are ranked one after another, rising, onto ranked ones that all lie below them. -/
theorem foldl_insKey {l : List (Nat × FVal)} (rises : l.Pairwise fun x y => x.1 < y.1) (keys : ∀ x ∈ l, x.2 ≠ .nan) :
    ∀ {r : List (Nat × FVal)}, (∀ y ∈ r, ∀ x ∈ l, y.1 < x.1) → (∀ y ∈ r, y.2 ≠ .nan) → r.Pairwise Ranks →
      (l.foldl (fun r x => insKey x r) r).Perm (r ++ l) ∧ (l.foldl (fun r x => insKey x r) r).Pairwise Ranks := by
  induction l with
  | nil => exact fun _ _ sorted => ⟨by simp, sorted⟩
  | cons x l ih =>
    intro r below keys' sorted
    obtain ⟨first, rises⟩ := List.pairwise_cons.mp rises
    obtain ⟨key, keys⟩ := List.forall_mem_cons.mp keys
    have entered : (insKey x r).Perm (x :: r) := insKey_eq x r ▸ List.perm_orderedInsert _ x r
    have members {P : Nat × FVal → Prop} (here : P x) (there : ∀ y ∈ r, P y) : ∀ y ∈ insKey x r, P y := fun y hy =>
      List.forall_mem_cons.mpr ⟨here, there⟩ y (entered.mem_iff.mp hy)
    obtain ⟨perm, ranks⟩ := ih rises keys (r := insKey x r) (members first fun y hy z hz => below y hy z (List.mem_cons_of_mem _ hz))
      (members key keys') (insKey_ranks (fun y hy => below y hy x List.mem_cons_self) key keys' sorted)
    exact ⟨perm.trans ((entered.append_right l).trans List.perm_middle.symm), ranks⟩

/-- Every position is ranked once, by key descending and number ascending. -/
theorem ranked_sorts {l : List (Nat × FVal)} (rises : l.Pairwise fun x y => x.1 < y.1) (keys : ∀ x ∈ l, x.2 ≠ .nan) :
    (ranked l).Perm l ∧ (ranked l).Pairwise Ranks :=
  foldl_insKey rises keys (r := []) (by simp) (by simp) List.Pairwise.nil

/-! ## How many are committed, and the map bits (R202) -/

theorem ceilDiv_le_iff {a b k : Nat} (pos : 0 < b) : ceilDiv a b ≤ k ↔ a ≤ b * k := by
  rw [ceilDiv, ← Nat.ceilDiv_eq_add_pred_div]
  exact ceilDiv_le_iff_le_mul pos

/-- The least number of positions whose share of `q` reaches num / den. -/
theorem share_bounds {num den q : Nat} (pos : 0 < den) : let k := min (ceilDiv (num * q) den) q
    k ≤ q ∧ (k < q → num * q ≤ k * den) ∧ (0 < k → (k - 1) * den < num * q) := by
  intro k
  refine ⟨min_le_right .., fun less => ?_, fun some_ => ?_⟩
  · have all : ceilDiv (num * q) den ≤ k := by omega
    exact ((ceilDiv_le_iff pos).mp all).trans_eq (Nat.mul_comm ..)
  · have fewer : ¬ceilDiv (num * q) den ≤ k - 1 := by omega
    rwa [ceilDiv_le_iff pos, not_le, Nat.mul_comm] at fewer

variable {m : Marking} {rank : List (Nat × FVal)} {n : Nat}

theorem commits_count (rule : m.rule = 0) : commits m rank n = min (m.parm % 2 ^ 13) rank.length := by
  simp [commits, rule, bits]

theorem commits_share (rule : m.rule = 1) (parm : m.parm < 2 ^ 64) :
    commits m rank n = min (ceilDiv (m.parm / 2 ^ 32 * rank.length) (m.parm % 2 ^ 32)) rank.length := by
  have num : bits m.parm 63 32 = m.parm / 2 ^ 32 := Nat.mod_eq_of_lt (by omega)
  simp only [commits, rule, num]
  simp [bits]

theorem commits_threshold (rule : m.rule = 2) : let k := (rank.filter fun x => !flt x.2 (fval f32 m.parm)).length
    commits m rank n = if m.alo = true ∧ k = 0 ∧ 0 < rank.length then 1 else k := by
  simp only [commits, rule, Bool.and_eq_true, beq_iff_eq, bne_iff_ne, ne_eq, Nat.pos_iff_ne_zero, and_assoc]

theorem commits_schedule (rule : m.rule = 3) : commits m rank n = min n rank.length := by
  simp only [commits, rule]

theorem mapBit_iff (m : Marking) (done : List Nat) (l h : Nat) : mapBit m done l h = true ↔
    (∃ i ∈ done, i / 16 = h) ∨ (m.l0 ≤ l ∧ ∃ i ∈ done, i / 16 ≤ h + m.w ∧ h ≤ i / 16 + m.w) ∨ (0 < m.p ∧ m.rnd % m.p = 0) := by
  simp [mapBit, ← le_antisymm_iff, or_assoc, Nat.pos_iff_ne_zero]

end Sys2Proof.Machine
end

section
/-! SUPPORT. The accesses of the marking engine (R64, R86, R202): the request of every word, the places of a round's writes in the value
of their access, and which words no write can keep. -/

namespace Sys2Proof.Machine

variable {s t u : State} {id : Nat} {j : Job}

/-! ## Requests -/

/-- A word of a part is asked for as `addReq` does it. -/
def Entered (a tid : Nat) (q : Ask) (o : Bool) (p : Piece) (w : Nat × Nat × Nat) (t : State) : Prop :=
  ∃ n v, n < t.ids ∧ look t.reqs n = some (wordReq v a tid q o p w)

section

variable {a tid : Nat} {q : Ask} {o : Bool} {p : Piece}

theorem Entered.stays {P : Req → Prop} {w : Nat × Nat × Nat} (h : Entered a tid q o p w s) (grows : Grows P s t) : Entered a tid q o p w t := by
  obtain ⟨n, v, named, row⟩ := h
  exact ⟨n, v, named.trans_le grows.ids, (grows.old n named).trans row⟩

theorem grows_addReqs_any (u : State) (p : Piece) : Grows (fun _ => True) u (addReqs u a tid q o p) :=
  grows_addReqs (fun _ _ _ _ => trivial) u p (.refl u)

theorem entered_addReqs (u : State) (p : Piece) : ∀ w ∈ wordsOf p, Entered a tid q o p w (addReqs u a tid q o p) := fun w hw =>
  Entered.stays (P := fun _ => True) (each_foldl (Q := Entered a tid q o p) (kept_addReq a tid q o p)
    (grows_addReq (P := fun _ => True) (fun _ _ _ _ => trivial) p) (fun _ _ _ => Entered.stays)
    (fun u _ _ => ⟨u.ids, u, Nat.lt_succ_self _, look_put ..⟩) (wordsOf p) (.refl u) w hw) (addReqs_after p u)

/-- An access that is no thread's own: its row, and a request for every word of its parts, in order where it is a store (R309). -/
theorem entered_addAccess {ps : List Piece} {posted : Bool} (other : q.agent.own = false) : ∃ x : Access,
    x.agent = q.agent ∧ look (addAccess s tid q ps posted).2.accs s.ids = some x
    ∧ ∀ p ∈ ps, ∀ w ∈ wordsOf p,
      Entered s.ids tid q ((ps.any fun p => p.ord == .so) || q.kind == .store) p w (addAccess s tid q ps posted).2 := by
  unfold addAccess
  rw [other]
  refine ⟨_, ?_, (congrArg (look · s.ids) (foldl_field State.accs _ (fun u p => accs_addReqs u _ _ q _ p) _ _)).trans (look_put ..), ?_⟩
  · rfl
  · exact each_foldl (Q := fun p u => ∀ w ∈ wordsOf p, Entered s.ids tid q ((ps.any fun p => p.ord == .so) || q.kind == .store) p w u)
      (fun u p => kept_addReqs u _ _ q _ p) (fun u p _ => grows_addReqs_any u p)
      (fun _ _ _ all grows w hw => (all w hw).stays grows) (fun u p _ => entered_addReqs u p) ps (.refl _)

theorem cmpts_addReqs (u : State) (p : Piece) : (addReqs u a tid q o p).cmpts = u.cmpts := by
  have words := foldl_field State.cmpts (addReq a tid q o p) (fun _ _ => rfl) (wordsOf p) u
  unfold addReqs
  dsimp only
  split
  · exact (cmpts_sendPacket ..).trans words
  · exact (cmpts_sendPacket ..).trans words
  · exact words

theorem cmpts_addAccess {ps : List Piece} {posted : Bool} (other : q.agent.own = false) :
    (addAccess s tid q ps posted).2.cmpts = s.cmpts := by
  unfold addAccess
  rw [other]
  exact foldl_field State.cmpts _ (fun u p => cmpts_addReqs u p) ps _

end

/-- The access of a round is under way: its row, and a request for every word of its parts. -/
theorem roundAccess_sends (s : State) (id : Nat) (j : Job) (kind : AccKind) (op : Nat → Nat → ReqOp) (ps : List Piece) :
    let r := roundAccess s id j kind op ps
    r.2.cmpts = s.cmpts ∧ ∃ (a : Nat) (y : Access), r.1 = { j with acc := some (a, .round) } ∧ look r.2.accs a = some y ∧ y.agent = .job id
      ∧ ∀ p ∈ ps, ∀ w ∈ wordsOf p, ∃ (q : Nat) (z : Req), look r.2.reqs q = some z ∧ z.acc = a ∧ z.pkg = p.pkg ∧ z.pa = w.1
        ∧ z.len = w.2.1 ∧ z.off = w.2.2 ∧ z.op = op w.2.1 w.2.2 ∧ z.gen = p.gen ∧ (kind = .store → z.inOrder = true) := by
  unfold roundAccess
  dsimp only
  refine ⟨cmpts_addAccess rfl, ?_⟩
  generalize asked : ({ kind := kind, va := natWord ((ps.head?.map Piece.pa).getD 0), size := 0, next := 0, op := op, agent := .job id
                        forCtx := some j.ctx } : Ask) = q
  obtain ⟨x, agent, row, entered⟩ := entered_addAccess (s := s) (tid := cmptOf j.tid * 8192) (q := q) (ps := ps) (posted := true)
    (by rw [← asked]; rfl)
  refine ⟨s.ids, x, rfl, row, by rw [agent, ← asked], fun p hp w hw => ?_⟩
  obtain ⟨n, v, -, found⟩ := entered p hp w hw
  refine ⟨n, _, found, rfl, rfl, rfl, rfl, rfl, by rw [← asked]; rfl, rfl, fun store => ?_⟩
  rw [← asked, store]
  exact Bool.or_true _

/-! ## Places in the value of one access -/

/-- Where write `i` of some writes stands. -/
def placeIn (es : List MarkWrite) (i : Nat) : Nat := ((es.take i).map MarkWrite.n).sum

theorem placed_eq (o : Nat) (es : List MarkWrite) :
    placed o es = (List.range es.length).filterMap fun i => es[i]?.map fun w => (o + placeIn es i, w) := by
  induction es generalizing o with
  | nil => rfl
  | cons e es ih =>
    simp only [placed, ih, List.length_cons, List.range_succ_eq_map, List.filterMap_cons, List.filterMap_map, Function.comp_def,
      List.getElem?_cons_zero, List.getElem?_cons_succ, Option.map_some, placeIn, List.take_zero, List.take_succ_cons, List.map_nil,
      List.map_cons, List.sum_nil, List.sum_cons, Nat.add_zero, Nat.add_assoc]

theorem placed_eq_nil {o : Nat} {es : List MarkWrite} : placed o es = [] ↔ es = [] := by
  cases es <;> simp [placed]

theorem mem_of_mem_placed {o : Nat} {es : List MarkWrite} {x : Nat × MarkWrite} (h : x ∈ placed o es) : x.2 ∈ es := by
  rw [placed_eq, List.mem_filterMap] at h
  obtain ⟨i, -, found⟩ := h
  obtain ⟨w, here, rfl⟩ := Option.map_eq_some_iff.mp found
  exact List.mem_of_getElem? here

theorem exists_mem_placed (o : Nat) {es : List MarkWrite} {w : MarkWrite} (h : w ∈ es) : ∃ i, (i, w) ∈ placed o es := by
  obtain ⟨i, inside, rfl⟩ := List.getElem_of_mem h
  rw [placed_eq]
  exact ⟨_, List.mem_filterMap.mpr ⟨i, List.mem_range.mpr inside, by rw [List.getElem?_eq_getElem inside]; rfl⟩⟩

/-- The first item found among those kept is the first to be kept and found. -/
theorem find?_filterMap_eq {α β : Type} (f : α → Option β) (p : β → Bool) (l : List α) :
    (l.filterMap f).find? p = l.findSome? fun a => (f a).bind fun b => if p b then some b else none := by
  induction l with
  | nil => rfl
  | cons a l ih =>
    cases here : f a with
    | none => simp [here, ih]
    | some b => cases found : p b <;> simp [here, found, ih]

theorem flatMap_filterMap_eq {α β γ : Type} (f : α → Option β) (g : β → List γ) (l : List α) :
    (l.filterMap f).flatMap g = l.flatMap fun a => ((f a).map g).getD [] := by
  induction l with
  | nil => rfl
  | cons a l ih =>
    cases here : f a <;> simp [here, ih]

/-- The write that holds byte `o`. -/
theorem find?_placed (es : List MarkWrite) (o : Nat) :
    ((placed 0 es).find? fun x => x.1 ≤ o && o < x.1 + x.2.n) = (List.range es.length).findSome? fun i => es[i]?.bind fun w =>
      if placeIn es i ≤ o ∧ o < placeIn es i + w.n then some (placeIn es i, w) else none := by
  rw [placed_eq, find?_filterMap_eq]
  congr 1
  funext i
  cases es[i]? <;> simp

/-- The parts of `n` bytes of a job at their homes, which stand from byte `o` on in the value of an access. -/
def homeParts (j : Job) (o va n : Nat) : List Piece := ((pageParts j.pages va n).getD []).map fun p => { p with off := p.off + o }

theorem markParts_eq (j : Job) (l : List (Nat × Nat × Nat)) : markParts j l = l.flatMap fun x => homeParts j x.1 x.2.1 x.2.2 := rfl

theorem markParts_one (j : Job) (o va n : Nat) : markParts j [(o, va, n)] = homeParts j o va n := List.append_nil _

/-- The parts of a round's writes. -/
theorem markParts_placed (j : Job) (es : List MarkWrite) : markParts j ((placed 0 es).map fun x => (x.1, x.2.va, x.2.n)) =
    (List.range es.length).flatMap fun i => (es[i]?.map fun w => homeParts j (placeIn es i) w.va w.n).getD [] := by
  rw [markParts_eq, List.flatMap_map, placed_eq, flatMap_filterMap_eq]
  congr 1
  funext i
  cases es[i]? <;> simp

/-- The parts of a read: each of its words at its place. -/
theorem markParts_words (j : Job) (n : Nat) (l : List Nat) :
    markParts j (((List.range l.length).map (· * n)).zip (l.map fun a => (a, n)))
      = (List.range l.length).flatMap fun i => homeParts j (i * n) (l.getD i 0) n := by
  have words : ((List.range l.length).map (· * n)).zip (l.map fun a => (a, n))
      = (List.range l.length).map fun i => (i * n, l.getD i 0, n) := by
    refine List.ext_getElem (by simp) fun i _ inside => ?_
    have inside : i < l.length := by simpa using inside
    simp [inside]
  rw [words, markParts_eq, List.flatMap_map]

/-! ## Words that a write cannot keep (R61) -/

namespace Alike

variable {x : Job} (h : Alike s t j x)
include h

theorem fetchPlain (key n : Nat) : fetchPlain t key n = Machine.fetchPlain s key n := by
  induction n generalizing key with
  | zero => rfl
  | succ n ih => simp only [Machine.fetchPlain, ih, eccWord, flawAt, h.mem, h.flaws]

theorem isNone_readHome (pkg pa n : Nat) : (readHome t pkg pa n).isNone = (readHome s pkg pa n).isNone := by
  unfold readHome
  rw [h.pkg, h.mem, h.flaws, h.fetchPlain]
  split
  · split <;> simp only [Option.isNone_some]
  · rfl

theorem markUnread (w : MarkWrite) (p : Piece) : markUnread t w p = Machine.markUnread s w p := by
  unfold Machine.markUnread
  rw [admitted_congr h.frames]
  split
  · exact h.isNone_readHome ..
  · exact h.keepsUnread p
  · rfl

end Alike

/-- The parts of a round's writes at which a home cannot read what it must keep. -/
def unreadParts (s : State) (j : Job) (es : List MarkWrite) : List Piece := (placed 0 es).flatMap fun x =>
  (markParts j [(x.1, x.2.va, x.2.n)]).filter (markUnread s x.2)

/-- There are some exactly where a write has one, wherever it stands in the access. -/
theorem unreadParts_ne_nil (s : State) (j : Job) (es : List MarkWrite) :
    unreadParts s j es ≠ [] ↔ ∃ w ∈ es, ∃ p ∈ homeParts j 0 w.va w.n, markUnread s w p = true := by
  have shift (o : Nat) (w : MarkWrite) : (∃ p ∈ homeParts j o w.va w.n, markUnread s w p = true)
      ↔ ∃ p ∈ (pageParts j.pages w.va w.n).getD [], markUnread s w p = true := by
    simp only [homeParts, List.mem_map, exists_exists_and_eq_and]
    rfl
  simp only [unreadParts, markParts_one, ne_eq, List.flatMap_eq_nil_iff, List.filter_eq_nil_iff, not_forall, not_not, exists_prop]
  constructor
  · rintro ⟨x, hx, found⟩
    exact ⟨x.2, mem_of_mem_placed hx, (shift 0 x.2).mpr ((shift x.1 x.2).mp found)⟩
  · rintro ⟨w, hw, found⟩
    obtain ⟨i, hi⟩ := exists_mem_placed 0 hw
    exact ⟨(i, w), hi, (shift i w).mpr ((shift 0 w).mp found)⟩

end Sys2Proof.Machine
end

section
/-! SUPPORT. How a round goes on and how it ends (R202, R203): reads without an address, the next access, and the record. -/

namespace Sys2Proof.Machine

variable {s t u : State} {c id fuel : Nat} {rest : List Nat} {j x : Job}

/-! ## What a round does next -/

/-- A read without an address gives nothing, nor do several in a row. -/
theorem roundRun_skips (z : Nat) (idle : ∀ i < z, j.got.length + i < 4
      ∧ (roundReads (markingOf j.card) (j.got ++ List.replicate i 0)).2 = []) :
    roundRun (fuel + z) t id j = roundRun fuel t id { j with got := j.got ++ List.replicate z 0 } := by
  induction z generalizing fuel with
  | zero => simp
  | succ z ih =>
    obtain ⟨more, here⟩ := idle z (Nat.lt_succ_self z)
    have before := ih (fuel := fuel + 1) fun i hi => idle i (hi.trans (Nat.lt_succ_self z))
    rw [← Nat.add_assoc, Nat.add_right_comm, before]
    simp only [roundRun, List.length_append, List.length_replicate, if_pos more, here, List.isEmpty_nil, if_true, List.append_assoc]
    rw [List.replicate_succ']

theorem roundRun_reads (more : j.got.length < 4) (some_ : (roundReads (markingOf j.card) j.got).2 ≠ []) :
    let r := roundReads (markingOf j.card) j.got
    roundRun (fuel + 1) t id j = (none, roundAccess t id j .load (fun _ _ => .read)
      (joinPieces ((List.range r.2.length).flatMap fun i => homeParts j (i * r.1) (r.2.getD i 0) r.1))) := by
  simp only [roundRun, if_pos more, List.isEmpty_iff, some_, if_false, markParts_words]

section

variable {es : List MarkWrite} (all : j.got.length = 4) (calls : roundWrites (markingOf j.card) j.got = es)
include all calls

theorem roundRun_idle (none_ : es = []) : roundRun (fuel + 1) t id j = (some (roundEnd j 0 (some 0)), j, t) := by
  simp [roundRun, all, calls, none_, placed]

theorem roundRun_unread (bad : unreadParts t j es ≠ []) :
    roundRun (fuel + 1) t id j = (some (roundEnd j 5 (some 0)), j, noteParts t (unreadParts t j es)) := by
  have some_ : placed 0 es ≠ [] := fun none_ => bad (by rw [unreadParts, none_]; rfl)
  simp only [roundRun, all, calls, Nat.lt_irrefl, if_false, List.isEmpty_iff, some_]
  rw [← unreadParts, if_pos (by simpa using bad)]

theorem roundRun_writes (good : unreadParts t j es = []) (some_ : es ≠ []) :
    roundRun (fuel + 1) t id j = (none, roundAccess t id j .store (markOp (placed 0 es))
      ((List.range es.length).flatMap fun i => (es[i]?.map fun w => homeParts j (placeIn es i) w.va w.n).getD [])) := by
  simp only [roundRun, all, calls, Nat.lt_irrefl, if_false, List.isEmpty_iff, placed_eq_nil, some_]
  rw [← unreadParts, if_neg (by simp [good]), markParts_placed]

end

/-! ## The engine's next step -/

theorem roundStep_held (idle : j.acc = none) (held : engineHeld s j.tid j.before = true) : roundStep s id j = none := by
  simp [roundStep, idle, held]

theorem roundStep_begins (idle : j.acc = none) (free : engineHeld s j.tid j.before = false) :
    roundStep s id j = some (roundRun 5 s id j) := by
  simp [roundStep, idle, free]

section

variable {a : Nat} {st : JobStep} {y : Access} (flight : j.acc = some (a, st)) (found : look s.accs a = some y)
include flight found

theorem roundStep_flies (open_ : y.left ≠ 0 ∨ y.replies ≠ 0) : roundStep s id j = none := by
  simp only [roundStep, flight, found]
  exact if_pos (by simpa using open_)

variable (left : y.left = 0) (replies : y.replies = 0)
include left replies

theorem roundStep_answered : roundStep s id j = some (roundReply (answeredAt s a y) id j y) := by
  simp only [roundStep, flight, found, left, replies]
  rfl

theorem roundStep_failed (bad : y.poisoned = true ∨ y.stale = true) : roundStep s id j =
    some (some (roundEnd (atRest j) (if y.poisoned = true then 5 else 4) (if 4 ≤ j.got.length then none else some 0)), atRest j,
      answeredAt s a y) := by
  rw [roundStep_answered flight found left replies, roundReply]
  simp only [show (y.poisoned || y.stale) = true by simpa using bad, if_true]
  rfl

variable (poisoned : y.poisoned = false) (stale : y.stale = false)
include poisoned stale

theorem roundStep_written (all : 4 ≤ j.got.length) : roundStep s id j =
    some (some (roundEnd (atRest j) 0 (some (committed (markingOf j.card) j.got).length)), atRest j, answeredAt s a y) := by
  rw [roundStep_answered flight found left replies, roundReply]
  simp only [poisoned, stale, all, Bool.or_self, Bool.false_eq_true, if_false, if_true]
  rfl

theorem roundStep_read (more : j.got.length < 4) :
    roundStep s id j = some (roundRun 5 (answeredAt s a y) id { atRest j with got := j.got ++ [y.val] }) := by
  rw [roundStep_answered flight found left replies, roundReply]
  simp only [poisoned, stale, Nat.not_le.mpr more, Bool.or_self, Bool.false_eq_true, if_false]
  rfl

end

/-! ## What the engine leaves as it was -/

/-- What stays while the engine takes a reply and logs errors: of a core, only whether it is mapped out can change. -/
structure EngineKept (s t : State) : Prop where
  jobs : t.jobs = s.jobs
  ctxs : t.ctxs = s.ctxs
  markQ : ∀ c, (cmpt t c).markQ = (cmpt s c).markQ
  core : ∀ m, ∃ b, core t m = { core s m with mapped := b }

namespace EngineKept

theorem refl (s : State) : EngineKept s s := ⟨rfl, rfl, fun _ => rfl, fun _ => ⟨_, rfl⟩⟩

theorem trans (h : EngineKept s t) (g : EngineKept t u) : EngineKept s u where
  jobs := g.jobs.trans h.jobs
  ctxs := g.ctxs.trans h.ctxs
  markQ c := (g.markQ c).trans (h.markQ c)
  core m := by
    obtain ⟨a, first⟩ := h.core m
    obtain ⟨b, next⟩ := g.core m
    exact ⟨b, by rw [next, first]⟩

theorem foldl {α : Type} {f : State → α → State} (h : ∀ s x, EngineKept s (f s x)) (l : List α) (s : State) :
    EngineKept s (l.foldl f s) := by
  induction l generalizing s with
  | nil => exact refl _
  | cons x l ih => exact (h s x).trans (ih _)

theorem mapOutCore (s : State) (c : Nat) : EngineKept s (Machine.mapOutCore s c) where
  jobs := rfl
  ctxs := rfl
  markQ _ := rfl
  core m := by
    by_cases same : c = m
    · subst same
      exact ⟨_, core_setCore ..⟩
    · exact ⟨_, core_setCore_ne _ _ same⟩

theorem logErr (s : State) (err : Nat) (last inj : Bool) (act src place det : Nat) :
    EngineKept s (Machine.logErr s err last inj act src place det) := by
  unfold Machine.logErr
  split <;> exact ⟨rfl, rfl, fun _ => rfl, fun _ => ⟨_, rfl⟩⟩

/-- What the firmware does about a word in error. -/
theorem acted (s : State) (f : Flaw) (k : Nat) (store : Option Nat) : EngineKept s
    (if !f.lasting then { s with flaws := del s.flaws k }
     else match store with
       | some c => if f.inj then s else Machine.mapOutCore s c
       | none => s) := by
  split
  · exact ⟨rfl, rfl, fun _ => rfl, fun _ => ⟨_, rfl⟩⟩
  · split
    · split
      · exact refl _
      · exact mapOutCore ..
    · exact refl _

theorem logEcc (s : State) (pa : Nat) (f : Flaw) : EngineKept s (Machine.logEcc s pa f) := (logErr ..).trans (acted ..)

theorem noteErrors (s : State) (pkg pa n : Nat) : EngineKept s (Machine.noteErrors s pkg pa n) := by
  unfold Machine.noteErrors
  split
  · exact refl _
  · refine foldl (fun s i => ?_) _ s
    dsimp only
    split
    · split
      · exact logEcc ..
      · exact refl _
    · exact refl _

theorem noteParts (s : State) (ps : List Piece) : EngineKept s (Machine.noteParts s ps) := foldl (fun _ _ => noteErrors ..) ps s

end EngineKept

theorem engineKept_answeredAt (s : State) (a : Nat) (y : Access) : EngineKept s (answeredAt s a y) where
  jobs := jobs_tick ..
  ctxs := ctxs_tick ..
  markQ _ := markQ_tick ..
  core _ := ⟨_, core_tick ..⟩

/-! ## The completion record (R203) -/

theorem masked_lt (ws : List Word) (got : List Nat) : (masked (markingOf ws) got).length < 2 ^ 13 := by
  have few : (masked (markingOf ws) got).length ≤ (markingOf ws).n :=
    (List.length_filter_le ..).trans_eq List.length_range
  exact few.trans_lt (Nat.mod_lt _ (by norm_num))

/-- The words of a record: where nothing is known of a count or a flag, it is open. -/
theorem markRecord_words (s : State) (j : Job) (status : Nat) (k : Option Nat) :
    ∃ (v q : Nat) (nan empty : Bool), (markRecord s j (roundEnd j status k)).1
        = [0x11 * 2 ^ 56 + status * 2 ^ 48 + (markingOf j.card).rnd + nan.toNat * 2 ^ 41 + empty.toNat * 2 ^ 40, v * 2 ^ 32 + q, j.address, 0]
      ∧ q < 2 ^ 32 ∧ (∀ n, k = some n → v = n)
      ∧ (j.got ≠ [] → q = (masked (markingOf j.card) j.got).length ∧ (empty = true ↔ masked (markingOf j.card) j.got = []))
      ∧ (2 ≤ j.got.length → (nan = true ↔ FVal.nan ∈ confidences (markingOf j.card) j.got)) := by
  have masks := masked_lt j.card j.got
  simp only [markRecord, bitAt_eq]
  generalize (if ((roundEnd j status k).k.isSome && (roundEnd j status k).q.isSome && (roundEnd j status k).nan.isSome) = true
    then ((0 : Word), s) else openWord s).1.toNat = w
  refine ⟨_, _, _, _, rfl, ?_, fun n some_ => ?_, fun read => ?_, fun read => ?_⟩
  · have free : bits w 12 0 < 2 ^ 13 := Nat.mod_lt _ (by norm_num)
    simp only [roundEnd]
    split
    · exact free.trans (by norm_num)
    · exact masks.trans (by norm_num)
  · rw [roundEnd, some_]
    rfl
  · simp [roundEnd, read]
  · simp [roundEnd, read]

theorem markRecord_fields {status : Nat} (s : State) (j : Job) (k : Option Nat) (byte : status < 2 ^ 8) :
    let ws := (markRecord s j (roundEnd j status k)).1
    ws.getD 0 0 / 2 ^ 56 = 0x11 ∧ ws.getD 0 0 / 2 ^ 48 % 2 ^ 8 = status ∧ ws.getD 0 0 % 2 ^ 32 = (markingOf j.card).rnd
      ∧ ws.getD 2 0 = j.address ∧ ws.getD 3 0 = 0 ∧ (∀ n, k = some n → ws.getD 1 0 / 2 ^ 32 = n)
      ∧ (j.got ≠ [] → ws.getD 1 0 % 2 ^ 32 = (masked (markingOf j.card) j.got).length
        ∧ (ws.getD 0 0 / 2 ^ 40 % 2 = 1 ↔ masked (markingOf j.card) j.got = []))
      ∧ (2 ≤ j.got.length → (ws.getD 0 0 / 2 ^ 41 % 2 = 1 ↔ FVal.nan ∈ confidences (markingOf j.card) j.got)) := by
  intro ws
  obtain ⟨v, q, nan, empty, words, small, counts, masks, nans⟩ := markRecord_words s j status k
  have rnd : (markingOf j.card).rnd < 2 ^ 32 := Nat.mod_lt _ (by norm_num)
  have nan_le := nan.toNat_le
  have empty_le := empty.toNat_le
  have flag (b : Bool) : b.toNat = 1 ↔ b = true := by cases b <;> simp
  simp only [ws, words, List.getD_cons_zero, List.getD_cons_succ]
  refine ⟨by omega, by omega, by omega, trivial, trivial, fun n some_ => ?_, fun read => ?_, fun read => ?_⟩
  · rw [← counts n some_]
    omega
  · obtain ⟨count, none_⟩ := masks read
    rw [← none_, ← flag, ← count]
    omega
  · rw [← nans read, ← flag]
    omega

theorem markRecord_state (s : State) (j : Job) (r : Round) : ∃ f, (markRecord s j r).2 = { s with fresh := f } := by
  unfold markRecord
  dsimp only
  split <;> exact ⟨_, rfl⟩

end Sys2Proof.Machine
end

section
/-! O42: a marking round ranks, commits and reports (R202, R203). -/

namespace Sys2Proof.Machine

variable {s t u : State} {c id : Nat} {rest : List Nat} {j x : Job}

/-! ## MARK_JOB_RUN: an access -/

/-- The engine has sent the words of some parts, and the round of job `x` waits for them. -/
def RoundSends (s : State) (c id : Nat) (rest : List Nat) (x : Job) (ps : List Piece) (ordered : Prop) (op : Nat → Nat → ReqOp) : Prop :=
  Does s (.markJobRun c) fun t => SameMemory s t ∧ (cmpt t c).markQ = id :: rest ∧ ∃ (a : Nat) (y : Access),
    look t.jobs id = some { x with acc := some (a, .round) } ∧ look t.accs a = some y ∧ y.agent = .job id
    ∧ ∀ p ∈ ps, ∀ w ∈ wordsOf p, ∃ (q : Nat) (z : Req), look t.reqs q = some z ∧ z.acc = a ∧ z.pkg = p.pkg ∧ z.pa = w.1
      ∧ z.len = w.2.1 ∧ z.off = w.2.2 ∧ z.op = op w.2.1 w.2.2 ∧ z.gen = p.gen ∧ (ordered → z.inOrder = true)

section

variable (power : s.power = true) (queue : (cmpt s c).markQ = id :: rest) (listed : look s.jobs id = some j) (kept : EngineKept s t)
include power queue listed kept

theorem does_roundAccess {kind : AccKind} {op : Nat → Nat → ReqOp} {ps : List Piece} {ordered : Prop}
    (step : roundStep s id j = some (none, roundAccess t id x kind op ps)) (store : ordered → kind = .store) :
    RoundSends s c id rest x ps ordered op := by
  obtain ⟨cmpts, a, y, job, row, agent, entered⟩ := roundAccess_sends t id x kind op ps
  have run : markJobRun c s = some { (roundAccess t id x kind op ps).2 with
      jobs := put (roundAccess t id x kind op ps).2.jobs id (roundAccess t id x kind op ps).1 } := by
    simp only [markJobRun, queue, listed, step]
    rfl
  refine does_event power rfl run (mem_of_some (mem_markJobRun c s) run) fun memory => ⟨memory, ?_, a, y, ?_, row, agent, fun p hp w hw => ?_⟩
  · exact (congrArg (fun k : Tab Cmpt => (lookD k c {}).markQ) cmpts).trans ((kept.markQ c).trans queue)
  · exact (look_put ..).trans (congrArg some job)
  · obtain ⟨q, z, found, acc, pkg, pa, len, off, is, gen, order⟩ := entered p hp w hw
    exact ⟨q, z, found, acc, pkg, pa, len, off, is, gen, fun h => order (store h)⟩

end

/-! ## MARK_JOB_RUN: the end of a round -/

/-- The round of job `x` is over: the job is gone, and its record is posted. -/
def RoundEnds (s : State) (c id : Nat) (rest : List Nat) (x : Job) (status : Nat) (count : Option Nat) : Prop :=
  rising s.jobs = true → withheld s x.ctx x.core = false → x.address < 2 ^ 52 →
  Does s (.markJobRun c) fun t => SameMemory s t ∧ (cmpt t c).markQ = rest ∧ look t.jobs id = none ∧ (∀ e ∈ (cmpt t c).entries, e.id ≠ id)
    ∧ ∃ (e : LandEntry) (ws : List Nat), e.kind = 0x11 ∧ e.len = 32 ∧ e.prio = (markingOf x.card).prio ∧ e.ctx = x.ctx ∧ e.stid = x.stid
      ∧ e.data = wordBytes ws ∧ ws.getD 0 0 / 2 ^ 56 = 0x11 ∧ ws.getD 0 0 / 2 ^ 48 % 2 ^ 8 = status
      ∧ ws.getD 0 0 % 2 ^ 32 = (markingOf x.card).rnd ∧ ws.getD 2 0 = x.address ∧ ws.getD 3 0 = 0
      ∧ (∀ k, count = some k → ws.getD 1 0 / 2 ^ 32 = k)
      ∧ (x.got ≠ [] → ws.getD 1 0 % 2 ^ 32 = (masked (markingOf x.card) x.got).length
        ∧ (ws.getD 0 0 / 2 ^ 40 % 2 = 1 ↔ masked (markingOf x.card) x.got = []))
      ∧ (2 ≤ x.got.length → (ws.getD 0 0 / 2 ^ 41 % 2 = 1 ↔ FVal.nan ∈ confidences (markingOf x.card) x.got))
      ∧ let room := atPrio (core s x.core) (markingOf x.card).prio < 16 ∧ ∀ y ∈ (core s x.core).heldRecs, y.prio ≠ (markingOf x.card).prio
        (room → (core t x.core).landing = (core s x.core).landing ++ [e])
        ∧ (¬room → (core t x.core).heldRecs = (core s x.core).heldRecs ++ [e])

/-- The engine has dropped its oldest job, and the scheduler has forgotten it. -/
def emptied (t : State) (c id : Nat) : State := endEntry (setCmpt t c { cmpt t c with markQ := (cmpt t c).markQ.tail }) c id true

theorem jobs_emptied (t : State) (c id : Nat) : (emptied t c id).jobs = t.jobs := rfl

theorem markQ_emptied (t : State) (c id : Nat) : (cmpt (emptied t c id) c).markQ = (cmpt t c).markQ.tail := by
  simp [emptied, endEntry, completeEntry]

theorem entries_emptied (t : State) (c id : Nat) : ∀ e ∈ (cmpt (emptied t c id) c).entries, e.id ≠ id := by
  intro e listed
  obtain ⟨x, first, -, rfl⟩ := entry_of_mem_completed listed
  obtain ⟨y, -, other, rfl⟩ := entry_of_mem_completed first
  simpa using other

theorem core_emptied (t : State) (c id m : Nat) : core (emptied t c id) m = core t m := core_endEntry ..

theorem ctx_emptied (t : State) (c id m : Nat) : ctx (emptied t c id) m = ctx t m := ctx_endEntry ..

/-- A core whose landing a record has entered, or at which it waits while its priority is full (R101). -/
def withRecord (k : Core) (p : Nat) (e : LandEntry) : Core :=
  if landingRoom k p = true then { k with landing := k.landing ++ [e] } else { k with heldRecs := k.heldRecs ++ [e] }

theorem landing_withRecord {k : Core} {p : Nat} (e : LandEntry) (room : landingRoom k p = true) :
    (withRecord k p e).landing = k.landing ++ [e] := by rw [withRecord, if_pos room]

theorem heldRecs_withRecord {k : Core} {p : Nat} (e : LandEntry) (full : landingRoom k p ≠ true) :
    (withRecord k p e).heldRecs = k.heldRecs ++ [e] := by rw [withRecord, if_neg full]

section

variable (t : State) (c id : Nat) (x : Job) (r : Round)

/-- The state in which the record of a round is posted. -/
def recordState : State := (markRecord (emptied t c id) x r).2

theorem core_recordState (m : Nat) : core (recordState t c id x r) m = core t m := by
  obtain ⟨f, is⟩ := markRecord_state (emptied t c id) x r
  rw [recordState, is]
  exact core_emptied t c id m

theorem withheld_recordState (n m : Nat) : withheld (recordState t c id x r) n m = withheld t n m := by
  obtain ⟨f, is⟩ := markRecord_state (emptied t c id) x r
  rw [recordState, is]
  exact congrArg (fun y : Ctx => y.stopped.contains (cmptOfCore m)) (ctx_emptied t c id n)

theorem cmpt_recordState (m : Nat) : cmpt (recordState t c id x r) m = cmpt (emptied t c id) m := by
  obtain ⟨f, is⟩ := markRecord_state (emptied t c id) x r
  rw [recordState, is]
  rfl

theorem jobs_recordState : (recordState t c id x r).jobs = t.jobs := by
  obtain ⟨f, is⟩ := markRecord_state (emptied t c id) x r
  rw [recordState, is]
  exact jobs_emptied t c id

/-- The record of a round as it is posted. -/
def roundRecord : LandEntry :=
  stamped (recordState t c id x r) x.core
    (recordEntry (recordState t c id x r) x 0x11 (markingOf x.card).prio (markRecord (emptied t c id) x r).1)

/-- The state after a round whose job's context is not pre-empted. -/
def overState : State :=
  { setCore (recordState t c id x r) x.core (withRecord (core t x.core) (markingOf x.card).prio (roundRecord t c id x r)) with
    jobs := del t.jobs id }

theorem core_overState :
    core (overState t c id x r) x.core = withRecord (core t x.core) (markingOf x.card).prio (roundRecord t c id x r) := core_setCore ..

theorem roundOver_here (present : withheld t x.ctx x.core = false) : roundOver t c id x r = overState t c id x r := by
  have posted := postRecord_here (s := recordState t c id x r) (c := x.core)
    (r := recordEntry (recordState t c id x r) x 0x11 (markingOf x.card).prio (markRecord (emptied t c id) x r).1)
    ((withheld_recordState ..).trans present)
  rw [core_recordState] at posted
  calc roundOver t c id x r
      = (fun u : State => { u with jobs := del u.jobs id }) (postRecord (recordState t c id x r) x.core
          (recordEntry (recordState t c id x r) x 0x11 (markingOf x.card).prio (markRecord (emptied t c id) x r).1)) := rfl
    _ = { setCore (recordState t c id x r) x.core (withRecord (core t x.core) (markingOf x.card).prio (roundRecord t c id x r)) with
          jobs := del (recordState t c id x r).jobs id } := by rw [posted]; rfl
    _ = overState t c id x r := by rw [jobs_recordState, overState]

end

theorem does_roundOver {status : Nat} {k : Option Nat} (power : s.power = true) (queue : (cmpt s c).markQ = id :: rest)
    (listed : look s.jobs id = some j) (kept : EngineKept s t) (byte : status < 2 ^ 8)
    (step : roundStep s id j = some (some (roundEnd x status k), x, t)) : RoundEnds s c id rest x status k := by
  intro sorted present _
  have present' : withheld t x.ctx x.core = false := by rw [← present, withheld, withheld, ctx, ctx, kept.ctxs]
  have run : markJobRun c s = some (roundOver t c id x (roundEnd x status k)) := by simp only [markJobRun, queue, listed, step]; rfl
  rw [roundOver_here t c id x _ present'] at run
  obtain ⟨out, same⟩ := kept.core x.core
  obtain ⟨kind, code, rnd, address, zero, counts, masks, nans⟩ := markRecord_fields (emptied t c id) x k byte
  have gone := cmpt_recordState t c id x (roundEnd x status k) c
  refine does_event power rfl run (mem_of_some (mem_markJobRun c s) run) fun memory => ⟨memory, ?_, ?_, fun e listed => ?_,
    roundRecord t c id x (roundEnd x status k), _, rfl, rfl, rfl, rfl, rfl, rfl, kind, code, rnd, address, zero, counts, masks, nans, ?_⟩
  · exact (congrArg Cmpt.markQ gone).trans ((markQ_emptied ..).trans (by rw [kept.markQ, queue]; rfl))
  · rw [← kept.jobs] at sorted
    exact look_del sorted id
  · exact entries_emptied t c id e (gone ▸ listed)
  · have landing : landingRoom (core t x.core) (markingOf x.card).prio = landingRoom (core s x.core) (markingOf x.card).prio := by
      rw [same]; rfl
    rw [core_overState]
    refine ⟨fun room => ?_, fun full => ?_⟩
    · rw [landing_withRecord _ (landing.trans (landingRoom_iff.mpr room)), same]
    · rw [heldRecs_withRecord _ fun room => full (landingRoom_iff.mp (landing.symm.trans room)), same]

theorem unreadParts_alike (alike : Alike s t j (atRest j)) (es : List MarkWrite) : unreadParts t x es = unreadParts s x es := by
  simp only [unreadParts, funext fun w => funext (alike.markUnread w)]

/-! ## A round goes on from what it has read -/

section

variable (power : s.power = true) (queue : (cmpt s c).markQ = id :: rest) (listed : look s.jobs id = some j) (kept : EngineKept s t)
include power queue listed kept

/-- The engine makes the next read that has an address. -/
theorem does_read {fuel : Nat} (step : roundStep s id j = some (roundRun (fuel + 1) t id x)) (more : x.got.length < 4)
    (some_ : (roundReads (markingOf x.card) x.got).2 ≠ []) : let r := roundReads (markingOf x.card) x.got
    RoundSends s c id rest x (joinPieces ((List.range r.2.length).flatMap fun i => homeParts x (i * r.1) (r.2.getD i 0) r.1)) False
      fun _ _ => .read :=
  does_roundAccess power queue listed kept (step.trans (congrArg some (roundRun_reads more some_))) nofun

variable {fuel : Nat} {es : List MarkWrite} (step : roundStep s id j = some (roundRun (fuel + 1) t id x)) (all : x.got.length = 4)
  (calls : roundWrites (markingOf x.card) x.got = es)
include step all calls

/-- With nothing to write the round is over. -/
theorem does_idle (none_ : es = []) : RoundEnds s c id rest x 0 (some 0) :=
  does_roundOver power queue listed kept (by norm_num) (step.trans (congrArg some (roundRun_idle all calls none_)))

/-- A word that cannot be kept stops the job, and nothing is written. -/
theorem does_unread (alike : Alike s t j (atRest j)) (bad : unreadParts s x es ≠ []) : RoundEnds s c id rest x 5 (some 0) := by
  rw [← unreadParts_alike alike] at bad
  exact does_roundOver power queue listed (kept.trans (.noteParts ..)) (by norm_num) (step.trans (congrArg some (roundRun_unread all calls bad)))

/-- The engine makes its writes in one access, in order. -/
theorem does_write (alike : Alike s t j (atRest j)) (good : unreadParts s x es = []) (some_ : es ≠ []) : RoundSends s c id rest x
    ((List.range es.length).flatMap fun i => (es[i]?.map fun w => homeParts x (placeIn es i) w.va w.n).getD []) True
    (markOp (placed 0 es)) := by
  rw [← unreadParts_alike alike] at good
  exact does_roundAccess power queue listed kept (step.trans (congrArg some (roundRun_writes all calls good some_))) fun _ => rfl

end

/-- A round goes on: the reads without an address give nothing, then the engine makes its next access or the round is over. -/
def RoundGoesOn (s : State) (c id : Nat) (rest : List Nat) (x : Job) : Prop :=
  ∀ z : Nat, (∀ i < z, x.got.length + i < 4 ∧ (roundReads (markingOf x.card) (x.got ++ List.replicate i 0)).2 = []) →
    let y := { x with got := x.got ++ List.replicate z 0 }
    let r := roundReads (markingOf x.card) y.got
    let es := roundWrites (markingOf x.card) y.got
    let bad := ∃ w ∈ es, ∃ p ∈ homeParts x 0 w.va w.n, markUnread s w p = true
    (y.got.length < 4 → r.2 ≠ [] →
      RoundSends s c id rest y (joinPieces ((List.range r.2.length).flatMap fun i => homeParts x (i * r.1) (r.2.getD i 0) r.1)) False
        fun _ _ => .read)
    ∧ (y.got.length = 4 →
      (es = [] → RoundEnds s c id rest y 0 (some 0))
      ∧ (bad → RoundEnds s c id rest y 5 (some 0))
      ∧ (es ≠ [] → ¬bad → RoundSends s c id rest y
        ((List.range es.length).flatMap fun i => (es[i]?.map fun w => homeParts x (placeIn es i) w.va w.n).getD []) True
        (markOp (placed 0 es))))

theorem does_roundRun (power : s.power = true) (queue : (cmpt s c).markQ = id :: rest) (listed : look s.jobs id = some j)
    (kept : EngineKept s t) (alike : Alike s t j (atRest j)) (few : x.got.length ≤ 4) (step : roundStep s id j = some (roundRun 5 t id x)) :
    RoundGoesOn s c id rest x := by
  intro z idle y r es bad
  have enough : z ≤ 4 := by
    cases z with
    | zero => omega
    | succ z =>
      have := (idle z (Nat.lt_succ_self z)).1
      omega
  obtain ⟨fuel, is⟩ : ∃ fuel, 5 = fuel + 1 + z := ⟨4 - z, by omega⟩
  rw [is, roundRun_skips z idle] at step
  refine ⟨does_read power queue listed kept step, fun all => ⟨does_idle power queue listed kept step all rfl, fun some_ => ?_,
    fun some_ good => ?_⟩⟩
  · exact does_unread power queue listed kept step all rfl alike ((unreadParts_ne_nil ..).mpr some_)
  · exact does_write power queue listed kept step all rfl alike (not_not.mp (mt (unreadParts_ne_nil ..).mp good)) some_

/-! ## What the reads have given -/

theorem bit_eq_testBit (v n : Nat) : bit v n = v.testBit n := by
  rw [Nat.testBit_eq_decide_div_mod_eq]
  rfl

theorem masked_eq (m : Marking) (got : List Nat) : masked m got = (List.range m.n).filter fun i => (got.getD 0 0).testBit i := by
  simp only [masked, bit_eq_testBit]

/-- The masked positions in rank order; a NaN ranks as −∞. -/
def rankOf (m : Marking) (got : List Nat) : List (Nat × FVal) :=
  ranked (((masked m got).zip (confidences m got)).map fun x => (x.1, if x.2 = .nan then .inf true else x.2))

theorem committed_eq (m : Marking) (got : List Nat) :
    committed m got = ((rankOf m got).take (commits m (rankOf m got) (got.getD 2 0))).map (·.1) := by
  simp only [committed, beq_iff_eq]
  rfl

theorem roundReads_eq (m : Marking) (got : List Nat) : roundReads m got =
    if got.length = 0 then (8, (List.range (ceilDiv m.n 64)).map fun k => m.mask + 8 * k)
    else if got.length = 1 then (4, (masked m got).map fun i => m.conf + 4 * i)
    else if got.length = 2 then (4, if m.rule = 3 then [m.sched.2 + 4 * min m.rnd (m.sched.1 - 1)] else [])
    else (4, (committed m got).map fun i => m.cand + 4 * i) := by
  unfold roundReads
  split
  · next h => simp [h]
  · next h => simp [h]
  · next h => simp [h]
  · next h0 h1 h2 => rw [if_neg h0, if_neg h1, if_neg h2]

/-- Settles O42: ranking is a sort (`ranked_sorts`), the engine goes on from what it has read after reads without an address
(`roundRun_skips`), and each step of it is an access (`does_read`, `does_write`) or the end of the round (`does_roundOver`). -/
theorem markingRounds : Obligations.MarkingRounds := by
  unfold Obligations.MarkingRounds
  refine ⟨fun l rises keys => ranked_sorts rises keys, fun m rank n => ?_, mapBit_iff, ?_⟩
  · intro q
    refine ⟨commits_count, fun rule some_ parm => ?_, commits_threshold, commits_schedule⟩
    intro num den k
    have is : k = min (ceilDiv (num * q) den) q := commits_share rule parm
    rw [is]
    exact share_bounds (Nat.pos_of_ne_zero some_)
  · intro s c id rest j power queue listed m field words maskWords maskedIn conf rank done next edits home sends ends goesOn
    have masked_is : maskedIn = masked m := funext fun got => (masked_eq m got).symm
    have conf_is : conf = confidences m := by
      funext got
      show (words got 1 4 (maskedIn got).length).map _ = _
      rw [masked_is]
      rfl
    have done_is : done = committed m := by
      funext got
      have rank_is : rank got = rankOf m got := by rw [rankOf, ← masked_is, ← conf_is]
      rw [committed_eq, ← rank_is]
    have next_is : next = roundReads m := by
      funext got
      rw [roundReads_eq, ← masked_is, ← done_is]
      rfl
    have edits_is : edits = roundWrites m := by
      funext got
      show markWrites m (words got 0 8 maskWords) (done got) (words got 3 4 (done got).length) = _
      rw [done_is]
      rfl
    have ends_of {acc got status count} (h : RoundEnds s c id rest { j with acc := acc, got := got } status count) :
        ends { j with acc := acc, got := got } status count := by
      simp only [ends, masked_is, conf_is]
      exact h
    clear_value ends
    have goes_of {acc got} (h : RoundGoesOn s c id rest { j with acc := acc, got := got }) : goesOn { j with acc := acc, got := got } := by
      intro z idle y
      rw [next_is] at idle ⊢
      obtain ⟨reads, writes⟩ := h z idle
      rw [edits_is]
      refine ⟨reads, fun all => ?_⟩
      obtain ⟨none_, unread, enters⟩ := writes all
      refine ⟨fun is => ends_of (none_ is), fun bad => ends_of (unread bad), fun some_ good => ?_⟩
      rw [show sends = RoundSends s c id rest from rfl]
      refine (congrArg (RoundSends s c id rest y _ True) ?_).mpr (enters some_ good)
      funext n o
      rw [markOp, find?_placed]
      rfl
    clear_value goesOn
    refine ⟨fun idle held => ?_, fun idle free few => goes_of (acc := j.acc) (got := j.got) ?_, fun a st x flight found => ?_⟩
    · exact event_of_none power (by simp [markJobRun, queue, listed, roundStep_held idle held])
    · exact does_roundRun power queue listed (.refl s) ⟨rfl, rfl, rfl, rfl, rfl, rfl, rfl, rfl⟩ few (roundStep_begins idle free)
    · intro j'
      have kept := engineKept_answeredAt s a x
      refine ⟨fun open_ => ?_, fun left replies bad => ends_of (acc := none) (got := j.got) ?_, fun left replies poisoned stale =>
        ⟨fun more => goes_of (acc := none) (got := j.got ++ [x.val]) ?_, fun all => ends_of (acc := none) (got := j.got) ?_⟩⟩
      · exact event_of_none power (by simp [markJobRun, queue, listed, roundStep_flies flight found open_])
      · exact does_roundOver power queue listed kept (by split <;> norm_num) (roundStep_failed flight found left replies bad)
      · exact does_roundRun power queue listed kept alike_answered (by simpa using more)
          (roundStep_read flight found left replies poisoned stale more)
      · rw [done_is]
        exact does_roundOver power queue listed kept (by norm_num) (roundStep_written flight found left replies poisoned stale all)

end Sys2Proof.Machine
end

section
/-! SUPPORT. The grader (R204, R406-R408): the order of pairs, the words of a set as they are written, and what an access of words to the
own store asks for. -/

namespace Sys2Proof.Machine

variable {s t u : State} {tl n : Nat} {g : GradeSet}

/-! ## The order of pairs (R204) -/

theorem better_iff (x y : Word) : better x y = true ↔ bits y.toNat 63 32 < bits x.toNat 63 32
    ∨ (bits x.toNat 63 32 = bits y.toNat 63 32 ∧ bits x.toNat 31 0 < bits y.toNat 31 0) := by
  simp [better]

theorem insPair_eq (x : Word) (l : List Word) : insPair x l = l.orderedInsert (fun x y => better x y = true) x := by
  induction l with
  | nil => rfl
  | cons y l ih => rw [insPair, List.orderedInsert_cons, ih]

/-- A pair enters behind every pair that it does not beat. -/
theorem insPair_sorts {l : List Word} (x : Word) (sorted : l.Pairwise fun y z => better z y = false) :
    (insPair x l).Perm (x :: l) ∧ (insPair x l).Pairwise fun y z => better z y = false := by
  rw [insPair_eq]
  refine ⟨List.perm_orderedInsert _ x l, pairwise_orderedInsert (fun y _ beats => ?_) (fun y _ not_ => by simpa using not_)
    (fun y _ z _ beats next => ?_) sorted⟩
  · rw [better_iff] at beats
    rw [← Bool.not_eq_true, better_iff]
    omega
  · rw [better_iff] at beats
    rw [← Bool.not_eq_true, better_iff] at next ⊢
    omega

/-! ## Words as bytes (R4) -/

theorem length_toBytes (n v : Nat) : (toBytes n v).length = n := by
  induction n generalizing v with
  | zero => rfl
  | succ n ih => rw [toBytes, List.length_cons, ih]

theorem length_wordBytes (ws : List Nat) : (wordBytes ws).length = 8 * ws.length := by
  induction ws with
  | nil => rfl
  | cons w ws ih =>
    rw [wordBytes, List.length_append, length_toBytes, ih, List.length_cons]
    omega

theorem ofBytes_toBytes_append (n v : Nat) (bs : List Byte) : ofBytes (toBytes n v ++ bs) = v % 256 ^ n + 256 ^ n * ofBytes bs := by
  induction n generalizing v with
  | zero => simp [toBytes, Nat.mod_one]
  | succ n ih =>
    have low : (BitVec.ofNat 8 v).toNat = v % 256 := BitVec.toNat_ofNat ..
    have high : v % 256 ^ (n + 1) = v % 256 + 256 * (v / 256 % 256 ^ n) := by rw [pow_succ', Nat.mod_mul]
    rw [toBytes, List.cons_append, ofBytes, ih, low, high, pow_succ']
    ring

/-- Each word reads back from the bytes of a list of words. -/
theorem slice_wordBytes {ws : List Nat} {j : Nat} (inside : j < ws.length) :
    sliceOf (ofBytes (wordBytes ws)) 8 (8 * j) = ws[j] % 2 ^ 64 := by
  induction ws generalizing j with
  | nil => cases inside
  | cons w ws ih =>
    have first : ofBytes (wordBytes (w :: ws)) = w % 2 ^ 64 + 2 ^ 64 * ofBytes (wordBytes ws) := ofBytes_toBytes_append 8 w _
    have low : w % 2 ^ 64 < 2 ^ 64 := Nat.mod_lt _ (by norm_num)
    rw [sliceOf, first]
    cases j with
    | zero =>
      simp only [Nat.mul_zero, Nat.pow_zero, Nat.div_one, List.getElem_cons_zero, Nat.reduceMul]
      omega
    | succ j =>
      have rest : (w % 2 ^ 64 + 2 ^ 64 * ofBytes (wordBytes ws)) / 2 ^ 64 = ofBytes (wordBytes ws) := by omega
      rw [show 8 * (8 * (j + 1)) = 64 + 8 * (8 * j) by omega, pow_add, ← Nat.div_div_eq_div_mul, rest, List.getElem_cons_succ]
      exact ih (by simpa using inside)

/-- The words of a set as `grd.out` writes them: its pairs, and then pairs of key 0. -/
def gradeWords (g : GradeSet) : List Nat := (g.best.map BitVec.toNat ++ List.replicate g.k 0xFFFF_FFFF).take g.k

theorem gradeBytes_eq (g : GradeSet) : gradeBytes g = wordBytes (gradeWords g) := rfl

theorem length_gradeWords (g : GradeSet) : (gradeWords g).length = g.k := by
  simp [gradeWords]

theorem length_gradeBytes (g : GradeSet) : (gradeBytes g).length = 8 * g.k := by
  rw [gradeBytes_eq, length_wordBytes, length_gradeWords]

theorem slice_gradeBytes {j : Nat} (inside : j < g.k) :
    sliceOf (ofBytes (gradeBytes g)) 8 (8 * j) = ((g.best[j]?).map BitVec.toNat).getD 0xFFFF_FFFF := by
  rw [gradeBytes_eq, slice_wordBytes (by rwa [length_gradeWords])]
  simp only [gradeWords, List.getElem_take]
  by_cases listed : j < g.best.length
  · rw [List.getElem_append_left (by simpa using listed), List.getElem_map, List.getElem?_eq_getElem listed]
    exact Nat.mod_eq_of_lt (BitVec.isLt _)
  · rw [List.getElem_append_right (by simpa using listed), List.getElem_replicate, List.getElem?_eq_none (not_lt.mp listed)]
    rfl

/-! ## The requests of a store to the own store (R21) -/

/-- An access takes the next name, and then its parts enter their requests. -/
theorem addAccess_folds (s : State) (tid : Nat) (q : Ask) (ps : List Piece) (posted : Bool) : ∃ (u : State) (o : Bool),
    u.reqs = s.reqs ∧ u.ids = s.ids + 1
    ∧ (addAccess s tid q ps posted).2 = ps.foldl (fun u p => addReqs u s.ids tid q o p) u := by
  unfold addAccess
  refine ⟨_, _, ?_, ?_, rfl⟩ <;> dsimp only <;> split <;> rfl

/-- Every request that entering an access adds is one of its words'. -/
theorem grows_addAccess {P : Req → Prop} {tid : Nat} {q : Ask} {ps : List Piece} {posted : Bool}
    (all : ∀ u o p w, P (wordReq u s.ids tid q o p w)) : Grows P s (addAccess s tid q ps posted).2 := by
  obtain ⟨u, o, reqs, ids, folds⟩ := addAccess_folds s tid q ps posted
  have named : Grows P s u := ⟨by omega, fun _ _ => by rw [reqs], fun r hr => .inl (reqs ▸ hr)⟩
  rw [folds]
  exact named.trans (.foldl (fun u p => kept_addReqs u _ _ q o p) (fun u p _ => grows_addReqs (fun v p w _ => all v o p w) u p (.refl u))
    ps (.refl u))

/-- An instruction that asks for its own store to be written enters requests to write the bytes, and no others. -/
theorem storeOwn_grows {tid : Nat} (fresh : (thr s tid).own = none) (va : Word) (ps : List Piece) (bs : List Byte) :
    ∃ u, storeOwn s tid va ps bs = .stop (.park .own) u ∧ OwnAsked s u tid va bs.length
      ∧ Grows (fun z => z.op = .write (sliceOf (ofBytes bs) z.len z.off)) s u := by
  obtain ⟨u, asks, asked⟩ := ownAccess_asks fresh va bs.length .store (fun n off => .write (sliceOf (ofBytes bs) n off)) ps none false
  refine ⟨u, asks, asked, ?_⟩
  rw [ownAccess, fresh] at asks
  cases asks
  have grows := grows_addAccess (s := s) (tid := tid) (ps := ps) (posted := false) (P := fun z => z.op = .write (sliceOf (ofBytes bs) z.len z.off))
    (q := { kind := .store, va := va, size := bs.length, op := fun n off => .write (sliceOf (ofBytes bs) n off), next := 0, agent := .words })
    fun _ _ _ _ => rfl
  exact ⟨grows.ids, grows.old, grows.new⟩

/-! ## GRADER_ACCEPT (R204, R407) -/

/-- The set after a pair. -/
def GradeSet.taking (g : GradeSet) (v : Word) : GradeSet := { g with best := (insPair v g.best).take g.k, accepted := g.accepted + 1 }

theorem does_graderAccept {i : Nat} {v : Word} {rest : List (Nat × Nat × Word)} {x : Access} (power : s.power = true)
    (queue : (tile s tl).gradeQ = (i, n, v) :: rest) (listed : look s.accs i = some x) (bound : look (tile s tl).sets n = some g)
    (mine : g.ctx = x.ctx) (ok : rising s.accs = true) :
    Does s (.graderAccept tl) fun u => SameMemory s u ∧ (tile u tl).gradeQ = rest ∧ look u.accs i = none
      ∧ look (tile u tl).sets n = some (g.taking v) := by
  have run : graderAccept tl s = some { setTile s tl { tile s tl with gradeQ := rest, sets := put (tile s tl).sets n (g.taking v) } with
      accs := del s.accs i } := by
    simp only [graderAccept, queue, bound, listed, Option.map_some]
    rw [if_pos (by rw [mine])]
    rfl
  have tile_is (l : Tab Access) (y : Tile) : tile { setTile s tl y with accs := l } tl = y := tile_setTile s tl y
  refine does_event power rfl run (mem_of_some (mem_graderAccept tl s) run) fun memory => ⟨memory, ?_, look_del ok i, ?_⟩
  · rw [tile_is]
  · rw [tile_is]
    exact look_put ..

end Sys2Proof.Machine
end

section
/-! SUPPORT. The grader's instructions (R406-R408): a set is bound, a pair is queued, and the entries are written and given. -/

namespace Sys2Proof.Machine

variable {s t : State} {d a b : Reg} {g : GradeSet}

/-! ## What they find -/

/-- Where an instruction of the issuing thread finds a set. -/
def setOf (s : State) (n : Nat) : Option GradeSet := look (tile s (tileOf s.cur)).sets n

theorem ownSet_none {n : Nat} (unbound : setOf s n = none) : ownSet (base s) s.cur n = .error .malformedStructure := by
  simp only [ownSet, tile_base, show look (tile s (tileOf s.cur)).sets n = none from unbound]

theorem ownSet_mine {n : Nat} (bound : setOf s n = some g) (mine : g.ctx = (issuer s).ctx) : ownSet (base s) s.cur n = .ok g := by
  simp only [ownSet, tile_base, thr_base, show look (tile s (tileOf s.cur)).sets n = some g from bound, mine, if_true]

theorem grdCfg_formed {n k : Nat} (number : n < 4) (some_ : 1 ≤ k) (few : k ≤ 256) :
    ¬(decide (4 ≤ n) || decide (k = 0) || decide (256 < k)) = true := by
  simp only [Bool.or_eq_true, decide_eq_true_eq]
  omega

/-- A pair of the thread is still in the queue of its tile. -/
def gradesOwn (s : State) : Bool := (tile s (tileOf s.cur)).gradeQ.any fun q => (look s.accs q.1).any fun x => x.tid == s.cur

section

variable (ready : Ready s .u [a, b, d]) (single : Single s)
include ready single

/-! ## `grd.cfg` (R406) -/

section

variable (number : (reg s a).toNat < 4) (some_ : 1 ≤ (reg s b).toNat) (few : (reg s b).toNat ≤ 256)
include number some_ few

theorem grdCfg_foreign (bound : setOf s (reg s a).toNat = some g) (other : g.ctx ≠ (issuer s).ctx) : Faults s (.grdCfg a b) .partition := by
  refine issue_fault ready (.inr single) ((if_neg ?_).trans (if_pos ?_))
  · exact grdCfg_formed number some_ few
  · have found : look (tile s (tileOf s.cur)).sets (reg s a).toNat = some g := bound
    simpa [operands, arg, found] using other

theorem grdCfg_binds (mine : ∀ g, setOf s (reg s a).toNat = some g → g.ctx = (issuer s).ctx) :
    Passes s (.grdCfg a b) fun u => look (tile u (tileOf s.cur)).sets (reg s a).toNat
      = some { ctx := (issuer s).ctx, launch := (issuer s).launch, k := (reg s b).toNat } := by
  refine issue_passes (t := setSet (base s) (tileOf s.cur) (reg s a).toNat
    { ctx := (issuer s).ctx, launch := (issuer s).launch, k := (reg s b).toNat }) rfl ready single ((if_neg ?_).trans ((if_neg ?_).trans ?_))
    (by simpa [setSet] using leaves_issuer) rfl rfl rfl fun x _ => ?_
  · exact grdCfg_formed number some_ few
  · have free : (look (tile s (tileOf s.cur)).sets (reg s a).toNat).any (fun g => g.ctx != (issuer s).ctx) = false := by
      cases found : look (tile s (tileOf s.cur)).sets (reg s a).toNat with
      | none => rfl
      | some g => simpa using mine g found
    simpa [operands, arg] using free
  · simp [operands, arg]
  · rw [tile_setThr, setSet, tile_setTile]
    exact look_put ..

end

/-! ## `grd.in` (R407) -/

variable (number : (reg s a).toNat < 4)
include number

theorem grdIn_unbound (unbound : setOf s (reg s a).toNat = none) : Faults s (.grdIn a b) .malformedStructure := by
  refine issue_fault ready (.inr single) ((if_neg (by simpa [operands, arg] using number)).trans ?_)
  simp [operands, arg, ownSet_none unbound]

theorem grdIn_queues (bound : setOf s (reg s a).toNat = some g) (mine : g.ctx = (issuer s).ctx) (free : orderHeld (base s) s.cur [] false = false)
    (room : (tile s (tileOf s.cur)).gradeQ.length < 32) :
    Passes s (.grdIn a b) fun u =>
      (tile u (tileOf s.cur)).gradeQ = (tile s (tileOf s.cur)).gradeQ ++ [(s.ids, (reg s a).toNat, reg s b)]
      ∧ ∃ x, look u.accs s.ids = some x ∧ x.tid = s.cur ∧ x.ctx = (issuer s).ctx ∧ x.covered = true ∧ x.posted = true ∧ x.left = 1 := by
  let queue := (tile s (tileOf s.cur)).gradeQ ++ [(s.ids, (reg s a).toNat, reg s b)]
  refine issue_passes (t := setTile (engineStore (base s) s.cur).2 (tileOf s.cur) { tile s (tileOf s.cur) with gradeQ := queue }) rfl ready single
    ((if_neg (by simpa [operands, arg] using number)).trans ?_) ?_ rfl rfl rfl fun x _ => ⟨?_, ?_⟩
  · simp only [operands, arg, List.map_cons, List.map_nil, List.append_nil, List.getD_cons_zero, List.getD_cons_succ, base_cur,
      ownSet_mine bound mine, free, Bool.false_eq_true, if_false, tile_base, Nat.not_le.mpr room]
    rfl
  · show Leaves s (thr (base s) s.cur) []
    rw [thr_base]
    exact leaves_issuer
  · rw [tile_setThr, tile_setTile]
  · exact ⟨_, look_put .., rfl, by rw [thr_base], rfl, rfl, rfl⟩

/-! ## `grd.out` (R408) -/

section

variable {i : Instr} {fin : Bool} (he : exec i s = gradeOut fin d a b s)
include he

theorem grdOut_unbound (unbound : setOf s (reg s a).toNat = none) : Faults s i .malformedStructure := by
  refine he.trans (issue_fault ready (.inr single) ((if_neg (by simpa [operands, arg] using number)).trans ?_))
  simp [operands, arg, ownSet_none unbound]

variable (bound : setOf s (reg s a).toNat = some g) (mine : g.ctx = (issuer s).ctx) (aligned : (reg s b).toNat % 8 = 0)
  (taken : gradesOwn s = false)
include bound mine aligned taken

/-- With room for its entries in the own store, `grd.out` enters the requests that write them, and no others, and waits. -/
theorem gradeOut_stores {ps : List Piece} (fresh : (issuer s).own = none)
    (store : ownStore (base s) s.cur (reg s b) (8 * g.k) .store .tier = .ok ps (base s)) :
    ∃ u, exec i s = .next (finish { reads := [a, b], writes := [d], effect := true } (issuer s) (.park .own, u))
      ∧ OwnAsked (base s) u s.cur (reg s b) (8 * g.k)
      ∧ Grows (fun z => z.op = .write (sliceOf (ofBytes (gradeBytes g)) z.len z.off)) (base s) u := by
  obtain ⟨u, asks, asked, grows⟩ := storeOwn_grows (s := base s) (tid := s.cur) (by rwa [thr_base]) (reg s b) ps (gradeBytes g)
  rw [length_gradeBytes] at asked
  refine ⟨u, he.trans (issue_effect ready (.inr single) ((if_neg (by simpa [operands, arg] using number)).trans ?_) (.inr single)), asked, grows⟩
  simp only [operands, arg, List.map_cons, List.map_nil, List.append_nil, List.getD_cons_zero, List.getD_cons_succ, base_cur,
    ownSet_mine bound mine, aligned, bne_self_eq_false, Bool.false_eq_true, if_false, store, Res.run, asks]
  exact if_neg (by rw [Bool.not_eq_true]; exact taken)

theorem gradeOut_asks : Asks s i .store (reg s b) (8 * g.k) .tier := by
  intro ps fresh store
  obtain ⟨u, step, asked, -⟩ := gradeOut_stores ready single number he bound mine aligned taken fresh store
  have parks := issue_effect (f := { reads := [a, b], writes := [d], effect := true }) (body := fun _ _ => (.park .own, u)) ready
    (.inr single) rfl (.inr single)
  have asks : Asks s i .store (reg s b) (8 * g.k) .tier :=
    asks_of_issue (step.trans parks.symm) ready (.inr single) fun _ _ _ => ⟨u, rfl, asked⟩
  exact asks ps fresh store

theorem gradeOut_requests {ps : List Piece} (fresh : (issuer s).own = none)
    (store : ownStore (base s) s.cur (reg s b) (8 * g.k) .store .tier = .ok ps (base s)) (step : exec i s = .next t) :
    ∀ r ∈ t.reqs, r ∉ s.reqs → ∃ v, r.2.op = .write v ∧ ∀ j < g.k, r.2.off = 8 * j → r.2.len = 8 →
      v = ((g.best[j]?).map BitVec.toNat).getD 0xFFFF_FFFF := by
  obtain ⟨u, parks, -, grows⟩ := gradeOut_stores ready single number he bound mine aligned taken fresh store
  cases step.symm.trans parks
  intro r listed new
  have op := (grows.new r listed).resolve_left new
  refine ⟨_, op, fun j inside off len => ?_⟩
  rw [off, len]
  exact slice_gradeBytes inside

/-- Once they are written it gives their count. -/
theorem gradeOut_gives {v : Nat} (had : Had s v) (ok : rising (tile s (tileOf s.cur)).sets = true) :
    Yields s i d (BitVec.ofNat 64 g.best.length) fun u =>
      look (tile u (tileOf s.cur)).sets (reg s a).toNat = if fin = true then none else some g := by
  obtain ⟨o, own, got⟩ := had
  have own' : (thr (base s) s.cur).own = some o := by rwa [thr_base]
  have store : ownStore (base s) s.cur (reg s b) (8 * g.k) .store .tier = .ok [] (base s) := by
    rw [ownStore, own', Option.isSome_some, if_pos rfl]
  have wrote : storeOwn (base s) s.cur (reg s b) [] (gradeBytes g) = .ok v (base s) := ownAccess_had own' got ..
  let freed := { tile s (tileOf s.cur) with sets := del (tile s (tileOf s.cur)).sets (reg s a).toNat }
  have thread : thr (if fin = true then setTile (base s) (tileOf s.cur) freed else base s) s.cur = issuer s := by split <;> simp
  refine issue_yields (t := if fin = true then setTile (base s) (tileOf s.cur) freed else base s) he ready single
    ((if_neg (by simpa [operands, arg] using number)).trans ?_) (thread ▸ leaves_issuer) (thread ▸ ready.unbound d (by simp)) ?_ ?_ ?_ fun x => ?_
  · simp only [operands, arg, List.map_cons, List.map_nil, List.append_nil, List.getD_cons_zero, List.getD_cons_succ, base_cur,
      ownSet_mine bound mine, aligned, bne_self_eq_false, Bool.false_eq_true, if_false, store, Res.run, wrote]
    exact if_neg (by rw [Bool.not_eq_true]; exact taken)
  · split <;> rfl
  · split <;> rfl
  · split <;> rfl
  · split
    · rw [tile_setThr, tile_setTile]
      exact look_del ok _
    · exact bound

end

end

end Sys2Proof.Machine
end

section
/-! SUPPORT. Noise and sampling (R195-R197, R410, R411): the bits of a draw from its operands, and the two instructions. -/

namespace Sys2Proof.Machine

variable {s t : State} {d a b : Reg}

/-! ## The bits of a draw (R195) -/

/-- The noise of a sequence, a position and an index, each a field of 32 bits. -/
def drawBits (seed : Word) (sq pos v : BitVec 32) : Word :=
  mix (mix (mix (seed ^^^ 0x5C4E_2B17_93D1_A6F3) ^^^ BitVec.setWidth 64 sq) ^^^ (pos ++ v))

theorem noiseBits_eq (seed : Word) (sq pos v : BitVec 32) : noiseBits seed sq.toNat pos.toNat v.toNat = drawBits seed sq pos v := by
  have first : natWord sq.toNat = BitVec.setWidth 64 sq := by
    rw [natWord, ← BitVec.toNat_inj]
    simp
  have second : natWord (pos.toNat * 2 ^ 32 + v.toNat) = pos ++ v := by
    rw [natWord, ← BitVec.toNat_inj, BitVec.toNat_append, BitVec.toNat_ofNat, ← Nat.shiftLeft_add_eq_or_of_lt v.isLt, Nat.shiftLeft_eq]
    exact Nat.mod_eq_of_lt (by have := pos.isLt; have := v.isLt; omega)
  rw [noiseBits, first, second, drawBits]

theorem low_half (w : Word) : w.toNat % 2 ^ 32 = (w.extractLsb' 0 32).toNat := by simp

theorem high_half (w : Word) : w.toNat / 2 ^ 32 = (w.extractLsb' 32 32).toNat := by
  have := w.isLt
  simp [Nat.shiftRight_eq_div_pow]
  omega

theorem bits_low_half (v : Nat) : bits v 31 0 = v % 2 ^ 32 := by simp [bits]

theorem bits_high_half (w : Word) : bits w.toNat 63 32 = w.toNat / 2 ^ 32 := Nat.mod_eq_of_lt (by have := w.isLt; omega)

/-! ## Results that land later (R290) -/

theorem boundAt_pending (x : Thread) (d : Reg) (v : Word) (n : Nat) (r : Reg) : boundAt (pending s x d v n) r = boundAt x r := by
  unfold pending
  split <;> rfl

theorem result_pending {x : Thread} {v : Word} {n : Nat} (unbound : boundAt x d = none) (later : 1 < n) :
    result (setThr s s.cur x) s.cur d v n = setThr s s.cur (pending s x d v n) := by
  rw [result_later (by rwa [thr_setThr]) later, pending]
  split
  · rfl
  · simp [cyc]

/-- Of what an instruction leaves, a result that waits to be written is no part. -/
theorem Leaves.pending {y : Thread} {ds : List Reg} (h : Leaves s y ds) (d : Reg) (v : Word) (n : Nat) : Leaves s (pending s y d v n) ds := by
  unfold Machine.pending
  split
  · exact h
  · exact ⟨h.regs, h.flags, h.rm, h.wsp, h.depth, h.other, h.prv, h.it, h.pprv, h.tepc, h.tca, h.tval⟩

theorem mem_insPend_of_mem {p : Pend} {l : List Pend} (q : Pend) (h : p ∈ l) : p ∈ insPend q l := by
  induction l with
  | nil => cases h
  | cons x l ih =>
    rw [insPend]
    split
    · exact List.mem_cons_of_mem _ h
    · exact List.mem_cons.mpr ((List.mem_cons.mp h).imp_right ih)

theorem pend_pending {x : Thread} {v : Word} {n : Nat} (named : d ≠ 0) :
    (pending s x d v n).pend = insPend ⟨d, v, cyc s + n, {}, false, false⟩ x.pend := by
  rw [pending, if_neg fun h => named h.1]

theorem mem_pend_pending {x : Thread} {v : Word} {n : Nat} {q : Pend} (h : q ∈ x.pend) : q ∈ (pending s x d v n).pend := by
  by_cases zero : d = 0
  · rwa [pending, if_pos ⟨zero, rfl⟩]
  · rw [pend_pending zero]
    exact mem_insPend_of_mem _ h

/-- A thread as it goes on at `pc`, to issue in turn `m`. -/
def goneTo (s : State) (x : Thread) (pc : Word) (m : Nat) : Thread :=
  { x with pc := pc, pp := x.pp && (pendingPfx (issuer s)).isNone, park := none, own := none, turn := m }

/-- The end of an instruction after which its thread waits for a cycle. -/
theorem finish_upTo {f : Form} {n : Nat} (hp : pushes (issuer s) f.writes = false) (hc : t.cur = s.cur) :
    ∃ m, finish f (issuer s) (.upTo n, t) = setThr t s.cur (goneTo s (thr t s.cur) (nextAt s f.len) m) := by
  refine ⟨max (nextTurn (issuer s).park (slotOf s.cur) (cycOf t (cmptOf s.cur)) f.wait) (turnAfter (slotOf s.cur) n), ?_⟩
  simp only [finish, afterPush, hp, hc, goneTo, nextAt, advance, pendingPfx, Bool.false_eq_true, if_false]
  congr 2
  cases h : ((issuer s).pp && !(issuer s).it) <;> simp

theorem Leaves.goneTo {y : Thread} {ds : List Reg} (h : Leaves s y ds) (pc : Word) (m : Nat) : Leaves s (goneTo s y pc m) ds :=
  ⟨h.regs, h.flags, h.rm, h.wsp, h.depth, h.other, h.prv, h.it, h.pprv, h.tepc, h.tca, h.tval⟩

/-! ## `rng` (R411) -/

theorem rng_wide (ready : Ready s .u [a, b, d]) (wide : 2 ^ 32 ≤ (reg s b).toNat) : Faults s (.rng d a b) .malformedStructure :=
  issue_fault ready (.inl ⟨rfl, rfl⟩) (if_pos wide)

theorem rng_draws (ready : Ready s .u [a, b, d]) (narrow : (reg s b).toNat < 2 ^ 32) : exec (.rng d a b) s
    = .next (lands s 4 0 d (noiseBits (seedOf (base s) (issuer s)) ((reg s a).toNat % 2 ^ 32) ((reg s a).toNat / 2 ^ 32) (reg s b).toNat) 8) := by
  generalize drawn : noiseBits (seedOf (base s) (issuer s)) ((reg s a).toNat % 2 ^ 32) ((reg s a).toNat / 2 ^ 32) (reg s b).toNat = v
  refine (issue_done (f := { reads := [a, b], writes := [d] }) (t := setThr s s.cur (pending s (issuer s) d v 8)) ready (.inl ⟨rfl, rfl⟩)
    ((if_neg (not_le.mpr narrow)).trans ?_) rfl rfl).trans (by simp [lands])
  rw [← result_pending (ready.unbound d (by simp)) (by decide), ← drawn, ← bits_low_half, ← bits_high_half]
  simp only [base_cur, thr_base]
  rfl

/-! ## `gnz` (R410) -/

section

variable {e g : BitVec 1} (ready : Ready s .u [a, b, b + 1, d, d + 1])
include ready

theorem gnz_wide (wide : 2 ^ 32 ≤ (reg s (b + 1)).toNat) : Faults s (.gnz d a b e g) .malformedStructure :=
  issue_fault ready (.inl ⟨rfl, rfl⟩) (if_pos wide) rfl (by simp [regNext]) (by simp [regNext])

/-- The perturbed value of R197 that `gnz` draws from its operands, as its encoding. -/
def sampleOf (s : State) (g : BitVec 1) (va vb v : Nat) : Nat :=
  perturbed (g == 1) (fval f32 (bits va 31 0)) (fval f32 v)
    (noiseGumbel (seedOf (base s) (issuer s)) (bits vb 31 0) (bits vb 63 32) (bits va 63 32))

/-- Whether a sample is excluded: by its operand, or as a NaN or −∞. -/
def excludes (e : BitVec 1) (z : Nat) : Bool := e == 1 || fval f32 z == .nan || fval f32 z == .inf true

/-- The order key of a sample over its index. -/
def sampleWord (e : BitVec 1) (z v : Nat) : Word := natWord (if excludes e z then 0xFFFF_FFFF else orderKey 8 false (natWord z) * 2 ^ 32 + v)

/-- Its flags. -/
def sampleFlags (e : BitVec 1) (z : Nat) : Word := natWord (bitAt (fval f32 z == .nan) 1 + bitAt (excludes e z) 0)

theorem gnz_samples (narrow : (reg s (b + 1)).toNat < 2 ^ 32) :
    let z := sampleOf s g (reg s a).toNat (reg s b).toNat (reg s (b + 1)).toNat
    Does s (.gnz d a b e g) fun t => Past s t ∧ SameMemory s t
      ∧ Lands s t d (sampleWord e z (bits (reg s a).toNat 63 32)) 24 ∧ Lands s t (d + 1) (sampleFlags e z) 24 := by
  intro z
  generalize first : sampleWord e z (bits (reg s a).toNat 63 32) = v
  generalize second : sampleFlags e z = w
  let x := pending s (pending s (issuer s) d v 24) (d + 1) w 24
  have left : Leaves s x [] := (leaves_issuer.pending d v 24).pending (d + 1) w 24
  have unbound : boundAt (pending s (issuer s) d v 24) (d + 1) = none := (boundAt_pending ..).trans (ready.unbound (d + 1) (by simp))
  have body : (let u := result (result (base s) s.cur d v 24) s.cur (regNext d) w 24
      (Eff.upTo (cycOf u (cmptOf s.cur) + 24), u)) = (.upTo (cyc s + 24), setThr s s.cur x) := by
    rw [base, regNext, result_pending (ready.unbound d (by simp)) (by decide), result_pending unbound (by decide)]
    rfl
  have step : exec (.gnz d a b e g) s = .next (finish { reads := [a, b, regNext b], writes := [d, regNext d] } (issuer s)
      (.upTo (cyc s + 24), setThr s s.cur x)) := by
    refine issue_effect ready (.inl ⟨rfl, rfl⟩) ((if_neg (not_le.mpr narrow)).trans ?_) (.inl ?_) rfl (by simp [regNext]) (by simp [regNext])
    · refine Eq.trans ?_ body
      rw [← first, ← second]
      simp only [base_cur, thr_base]
      rfl
    · unfold keepQueue
      cases (issuer s).lt <;> rfl
  have unpushed : pushes (issuer s) [d, regNext d] = false := pushes_unbound fun r named =>
    ready.unbound r (List.mem_cons_of_mem _ (List.mem_cons_of_mem _ (List.mem_cons_of_mem _ named)))
  obtain ⟨m, ended⟩ := finish_upTo (s := s) (t := setThr s s.cur x) (n := cyc s + 24)
    (f := { reads := [a, b, regNext b], writes := [d, regNext d] }) unpushed rfl
  rw [ended, thr_setThr, setThr_setThr] at step
  have thread := thr_setThr s s.cur (goneTo s x (nextAt s 4) m)
  have pend : (thr (setThr s s.cur (goneTo s x (nextAt s 4) m)) s.cur).pend = (pending s (pending s (issuer s) d v 24) (d + 1) w 24).pend := by
    rw [thread]
    rfl
  refine ⟨_, step, ⟨congrArg Thread.pc thread, (left.goneTo _ m).restKept thread⟩, sameMemory_of_mem rfl, fun named => ?_, fun named => ?_⟩
  · refine ⟨⟨d, v, cyc s + 24, {}, false, false⟩, pend ▸ mem_pend_pending ?_, rfl, rfl, rfl⟩
    rw [pend_pending named]
    exact mem_insPend ..
  · refine ⟨⟨d + 1, w, cyc s + 24, {}, false, false⟩, pend ▸ ?_, rfl, rfl, rfl⟩
    rw [pend_pending named]
    exact mem_insPend ..

end

end Sys2Proof.Machine
end

section
/-! O43: the grader, and the noise of sampling (R195-R197, R204, R406-R408, R410, R411). -/

namespace Sys2Proof.Machine

variable {s : State} {d a b : Reg}

/-! ## Operands as fields -/

/-- The noise of `rng`, of its operands' fields. -/
theorem noiseBits_halves (seed x y : Word) (v : BitVec 32) :
    noiseBits seed (x.toNat % 2 ^ 32) (y.toNat / 2 ^ 32) v.toNat = drawBits seed (x.extractLsb' 0 32) (y.extractLsb' 32 32) v := by
  rw [low_half, high_half, noiseBits_eq]

theorem toNat_narrow {w : Word} (narrow : w.toNat < 2 ^ 32) : (w.setWidth 32).toNat = w.toNat := by
  rw [BitVec.toNat_setWidth, Nat.mod_eq_of_lt narrow]

theorem sampleWord_eq (e : BitVec 1) (z v : Nat) : sampleWord e z v =
    if excludes e z = true then 0xFFFF_FFFF else BitVec.ofNat 64 (orderKey 8 false (BitVec.ofNat 64 z) * 2 ^ 32 + v) := by
  rw [sampleWord, apply_ite natWord]
  rfl

/-- Settles O43: the grader's instructions by what they do with their set (`grdCfg_binds`, `grdIn_queues`, `gradeOut_gives`), GRADER_ACCEPT
by insertion into a sorted list (`insPair_sorts`), and the draws by their fields (`noiseBits_eq`, `gnz_samples`). -/
theorem gradingAndNoise : Obligations.GradingAndNoise := by
  unfold Obligations.GradingAndNoise
  refine ⟨fun s d a b tl n => ?_, fun s d a b e g => ?_⟩
  · intro t set
    refine ⟨fun single ready tile_is set_is number => ?_, fun i v rest x g power queue listed bound mine ok sorted => ?_⟩
    · subst tile_is set_is
      refine ⟨fun k k_is some_ few => ⟨fun ⟨g, bound, other⟩ => ?_, fun mine => ?_⟩, fun unbound => ?_,
        fun g bound mine => ⟨fun free room => ?_, fun fin aligned ok taken => ?_⟩⟩
      · subst k_is
        exact grdCfg_foreign ready single number some_ few bound other
      · subst k_is
        obtain ⟨u, step, memory, past, bound⟩ := grdCfg_binds ready single number some_ few mine
        exact ⟨u, step, past, memory, bound⟩
      · exact ⟨grdIn_unbound ready single number unbound, grdOut_unbound ready single number (fin := false) rfl unbound,
          grdOut_unbound ready single number (fin := true) rfl unbound⟩
      · obtain ⟨u, step, memory, past, queue, access⟩ := grdIn_queues ready single number bound mine free room
        exact ⟨u, step, past, memory, queue, access⟩
      · intro i
        have he : exec i s = gradeOut fin d a b s := by cases fin <;> rfl
        refine ⟨gradeOut_asks ready single number he bound mine aligned taken, fun ps t fresh _ store step =>
          gradeOut_requests ready single number he bound mine aligned taken fresh store step, fun v had => ?_⟩
        obtain ⟨u, step, memory, past, gives, kept⟩ := gradeOut_gives ready single number he bound mine aligned taken had ok
        exact ⟨u, step, ⟨past, gives⟩, memory, kept⟩
    · obtain ⟨u, step, memory, queue', gone, kept⟩ := does_graderAccept power queue listed bound mine ok
      obtain ⟨perm, sorts⟩ := insPair_sorts v sorted
      exact ⟨u, step, memory, queue', gone, g.taking v, insPair v g.best, kept, rfl, rfl, rfl, perm, sorts⟩
  · intro mix seed noise va vb s2
    have drawn (x y : Word) (v : BitVec 32) : noiseBits seed (x.toNat % 2 ^ 32) (y.toNat / 2 ^ 32) v.toNat = noise x y v :=
      noiseBits_halves seed x y v
    refine ⟨fun ready => ⟨fun narrow => ?_, rng_wide ready⟩, fun ready => ⟨gnz_wide ready, fun narrow => ?_⟩⟩
    · rw [rng_draws ready narrow, ← drawn, toNat_narrow narrow]
      rfl
    · intro l h z nan ex
      refine ⟨?_, ?_⟩
      · rw [high_half va, drawn]
        exact bits_toNat ..
      · have value : sampleOf s g va.toNat vb.toNat s2.toNat = z := by
          simp only [sampleOf, bits_low_half, bits_high_half]
          rfl
        obtain ⟨u, step, past, memory, word, flags⟩ := gnz_samples (e := e) (g := g) ready narrow
        rw [value, bits_high_half] at word
        rw [value] at flags
        exact ⟨u, step, past, memory, (sampleWord_eq ..) ▸ word, flags⟩

end Sys2Proof.Machine
end
